-- ==== Sys2Proof/Word.lean ====
section
/-! DEFINITION. The word types of the machine and their plainest arithmetic (R1 to R8: little-endian, bit 0 least significant). -/

namespace Sys2Proof

/-- The 64-bit word of registers, addresses and memory words (R4). -/
abbrev Word := BitVec 64

/-- One byte of memory or of an instruction. -/
abbrev Byte := BitVec 8

/-- A 32-bit scalar instruction word (R57). -/
abbrev IWord := BitVec 32

/-- The field of `len` bits that starts at bit `lo`. -/
def fieldAt (lo len : Nat) {w : Nat} (x : BitVec w) : BitVec len := x.extractLsb' lo len

end Sys2Proof
end

