-- ==== Sys2Proof/Fields.lean ====
section
/-! DEFINITION. The operand fields that instruction words carry: register specifiers, scopes, orders and the words of a
tile command. -/

namespace Sys2Proof

/-- A 5-bit register specifier of R60; specifier 31 has no name and decodes to nothing. -/
inductive Reg where
  | g (n : Fin 16)
  | zr | lw | le | lwf | lef | ib | ob | qa | qb | fa | fb | fc | fs | sid | lid
  deriving DecidableEq, Repr

/-- A segment register number, `s0` to `s7` (R59). -/
abbrev Seg := Fin 8

/-- The scope codes of R63 for full/empty accesses and fences. -/
inductive Scope where
  | strand | station | die | package | system
  deriving DecidableEq, Repr

/-- The scope codes of R63 for atomics. -/
inductive AScope where
  | station | die | package | system
  deriving DecidableEq, Repr

/-- The ordering codes of R63 for atomics. -/
inductive MemOrd where
  | relaxed | acquire | release | acqRel
  deriving DecidableEq, Repr

/-- A tile command word (R75): the lookahead and flags of w0, whose engine and operation an instruction
constructor names, and the seven words w1 to w7 as they stand. -/
structure Tcw where
  la : BitVec 4
  flags : BitVec 8
  w1 : IWord
  w2 : IWord
  w3 : IWord
  w4 : IWord
  w5 : IWord
  w6 : IWord
  w7 : IWord
  deriving DecidableEq, Repr

end Sys2Proof
end

