-- ==== Sys2Proof/Syntax.lean ====
section
/-! DEFINITION. The instructions and events of the machine: one constructor per row of the opcode table.
A scalar row carries the fields of its 32-bit word (R58 to R60). An engine row names the engine and operation of a
tile command word (R78) and an event row names an event; the command's words (R75) and the item that the event is
about stand in the state's work latch (`Work`), where the fetch, the engine or the schedule puts them. -/

namespace Sys2Proof

/-- One constructor per row of the opcode table. -/
inductive Instr where
  /-- Writes a + b modulo 2^64 to rd (R87). -/
  | add (d : Reg) (a : Reg) (b : Reg)
  /-- Writes a − b to rd (R87). -/
  | sub (d : Reg) (a : Reg) (b : Reg)
  /-- Writes a AND b to rd (R87). -/
  | and (d : Reg) (a : Reg) (b : Reg)
  /-- Writes a OR b to rd (R87). -/
  | or (d : Reg) (a : Reg) (b : Reg)
  /-- Writes a XOR b to rd (R87). -/
  | xor (d : Reg) (a : Reg) (b : Reg)
  /-- Writes a AND NOT b to rd (R87). -/
  | andn (d : Reg) (a : Reg) (b : Reg)
  /-- Writes a OR NOT b to rd (R87). -/
  | orn (d : Reg) (a : Reg) (b : Reg)
  /-- Writes NOT (a XOR b) to rd (R87). -/
  | xnor (d : Reg) (a : Reg) (b : Reg)
  /-- Shifts a left by b[5:0] (R87). -/
  | shl (d : Reg) (a : Reg) (b : Reg)
  /-- Shifts a right logically by b[5:0] (R87). -/
  | shr (d : Reg) (a : Reg) (b : Reg)
  /-- Shifts a right arithmetically by b[5:0] (R87). -/
  | sar (d : Reg) (a : Reg) (b : Reg)
  /-- Rotates a left by b[5:0] (R87). -/
  | rol (d : Reg) (a : Reg) (b : Reg)
  /-- Rotates a right by b[5:0] (R87). -/
  | ror (d : Reg) (a : Reg) (b : Reg)
  /-- Writes the signed minimum of a and b (R87). -/
  | min (d : Reg) (a : Reg) (b : Reg)
  /-- Writes the signed maximum of a and b (R87). -/
  | max (d : Reg) (a : Reg) (b : Reg)
  /-- Writes the unsigned minimum of a and b (R87). -/
  | minz (d : Reg) (a : Reg) (b : Reg)
  /-- Writes the unsigned maximum of a and b (R87). -/
  | maxz (d : Reg) (a : Reg) (b : Reg)
  /-- Writes 1 if a < b signed, else 0 (R87). -/
  | slt (d : Reg) (a : Reg) (b : Reg)
  /-- Writes 1 if a < b unsigned, else 0 (R87). -/
  | sltz (d : Reg) (a : Reg) (b : Reg)
  /-- Writes 1 if a = b, else 0 (R87). -/
  | seq (d : Reg) (a : Reg) (b : Reg)
  /-- Writes 1 if a ≠ b, else 0 (R87). -/
  | sne (d : Reg) (a : Reg) (b : Reg)
  /-- Writes the signed sum of a and b, saturated (R87). -/
  | addsat (d : Reg) (a : Reg) (b : Reg)
  /-- Writes the signed difference of a and b, saturated (R87). -/
  | subsat (d : Reg) (a : Reg) (b : Reg)
  /-- Counts the leading zero bits of a (R87). -/
  | clz (d : Reg) (a : Reg)
  /-- Counts the trailing zero bits of a (R87). -/
  | ctz (d : Reg) (a : Reg)
  /-- Counts the one bits of a (R87). -/
  | pop (d : Reg) (a : Reg)
  /-- Reverses the bits of a (R87). -/
  | brev (d : Reg) (a : Reg)
  /-- Reverses the bytes of a (R87). -/
  | bswap (d : Reg) (a : Reg)
  /-- Sign-extends the low byte of a (R87). -/
  | sextB (d : Reg) (a : Reg)
  /-- Sign-extends the low halfword of a (R87). -/
  | sextH (d : Reg) (a : Reg)
  /-- Sign-extends the low word of a (R87). -/
  | sextW (d : Reg) (a : Reg)
  /-- Zero-extends the low byte of a (R87). -/
  | zextB (d : Reg) (a : Reg)
  /-- Zero-extends the low halfword of a (R87). -/
  | zextH (d : Reg) (a : Reg)
  /-- Zero-extends the low word of a (R87). -/
  | zextW (d : Reg) (a : Reg)
  /-- Long-latency; writes the low 64 bits of the product (R88). -/
  | mul (d : Reg) (a : Reg) (b : Reg) (k : BitVec 4)
  /-- Long-latency; writes the high 64 bits of the signed product (R88). -/
  | mulh (d : Reg) (a : Reg) (b : Reg) (k : BitVec 4)
  /-- Long-latency; writes the high 64 bits of the unsigned product (R88). -/
  | mulhz (d : Reg) (a : Reg) (b : Reg) (k : BitVec 4)
  /-- Long-latency signed division with defined results for zero and overflow (R88). -/
  | div (d : Reg) (a : Reg) (b : Reg) (k : BitVec 4)
  /-- Long-latency unsigned division (R88). -/
  | divz (d : Reg) (a : Reg) (b : Reg) (k : BitVec 4)
  /-- Long-latency signed remainder (R88). -/
  | rem (d : Reg) (a : Reg) (b : Reg) (k : BitVec 4)
  /-- Long-latency unsigned remainder (R88). -/
  | remz (d : Reg) (a : Reg) (b : Reg) (k : BitVec 4)
  /-- Writes a + (b << 1) (R87). -/
  | adds1 (d : Reg) (a : Reg) (b : Reg)
  /-- Writes a + (b << 2) (R87). -/
  | adds2 (d : Reg) (a : Reg) (b : Reg)
  /-- Writes a + (b << 3) (R87). -/
  | adds3 (d : Reg) (a : Reg) (b : Reg)
  /-- Writes a + (b << 4) (R87). -/
  | adds4 (d : Reg) (a : Reg) (b : Reg)
  /-- Adds a sign-extended immediate (R89). -/
  | addi (d : Reg) (a : Reg) (i : BitVec 16)
  /-- ANDs with a zero-extended immediate (R89). -/
  | andi (d : Reg) (a : Reg) (i : BitVec 16)
  /-- ORs with a zero-extended immediate (R89). -/
  | ori (d : Reg) (a : Reg) (i : BitVec 16)
  /-- XORs with a zero-extended immediate (R89). -/
  | xori (d : Reg) (a : Reg) (i : BitVec 16)
  /-- Shifts left by an immediate amount (R89). -/
  | shli (d : Reg) (a : Reg) (i : BitVec 6)
  /-- Shifts right logically by an immediate amount (R89). -/
  | shri (d : Reg) (a : Reg) (i : BitVec 6)
  /-- Shifts right arithmetically by an immediate amount (R89). -/
  | sari (d : Reg) (a : Reg) (i : BitVec 6)
  /-- Rotates left by an immediate amount (R89). -/
  | roli (d : Reg) (a : Reg) (i : BitVec 6)
  /-- Signed compare with a sign-extended immediate (R89). -/
  | slti (d : Reg) (a : Reg) (i : BitVec 16)
  /-- Unsigned compare with a sign-extended immediate (R89). -/
  | sltzi (d : Reg) (a : Reg) (i : BitVec 16)
  /-- Replaces one halfword of rd with the immediate (R90). -/
  | movk (d : Reg) (h : Fin 4) (i : BitVec 16)
  /-- Multiplies by a sign-extended immediate, not long-latency (R89). -/
  | muli (d : Reg) (a : Reg) (i : BitVec 16)
  /-- Writes pc plus a scaled immediate offset to rd (R91). -/
  | adr (d : Reg) (i : BitVec 16)
  /-- Branches if a = b (R97). -/
  | brEq (a : Reg) (b : Reg) (o : BitVec 13)
  /-- Branches if a ≠ b (R97). -/
  | brNe (a : Reg) (b : Reg) (o : BitVec 13)
  /-- Branches if a < b signed (R97). -/
  | brLt (a : Reg) (b : Reg) (o : BitVec 13)
  /-- Branches if a >= b signed (R97). -/
  | brGe (a : Reg) (b : Reg) (o : BitVec 13)
  /-- Branches if a < b unsigned (R97). -/
  | brLtz (a : Reg) (b : Reg) (o : BitVec 13)
  /-- Branches if a >= b unsigned (R97). -/
  | brGez (a : Reg) (b : Reg) (o : BitVec 13)
  /-- Branches if a equals the immediate (R97). -/
  | briEq (a : Reg) (i : BitVec 5) (o : BitVec 13)
  /-- Branches if a differs from the immediate (R97). -/
  | briNe (a : Reg) (i : BitVec 5) (o : BitVec 13)
  /-- Branches if a is below the immediate, signed (R97). -/
  | briLt (a : Reg) (i : BitVec 5) (o : BitVec 13)
  /-- Branches if a is at least the immediate, signed (R97). -/
  | briGe (a : Reg) (i : BitVec 5) (o : BitVec 13)
  /-- Branches if a is below the sign-extended immediate, unsigned (R97). -/
  | briLtz (a : Reg) (i : BitVec 5) (o : BitVec 13)
  /-- Branches if a is at least the sign-extended immediate, unsigned (R97). -/
  | briGez (a : Reg) (i : BitVec 5) (o : BitVec 13)
  /-- Jumps to a pc-relative target (R98). -/
  | j (o : BitVec 26)
  /-- Jumps pc-relative and writes the return address to g15 (R98). -/
  | jl (o : BitVec 26)
  /-- Jumps to the address in ra (R98). -/
  | jr (a : Reg)
  /-- Jumps to the address in ra and writes the link to rd (R98). -/
  | jlr (d : Reg) (a : Reg)
  /-- Starts a hardware loop counted by a register (R99). -/
  | loop (c : Reg) (l : BitVec 16)
  /-- Starts a hardware loop with an immediate count (R99). -/
  | loopi (n : BitVec 10) (l : BitVec 16)
  /-- Binary32 addition, round to nearest even (R94). -/
  | fadd (d : Reg) (a : Reg) (b : Reg)
  /-- Binary32 subtraction (R94). -/
  | fsub (d : Reg) (a : Reg) (b : Reg)
  /-- Binary32 multiplication (R94). -/
  | fmul (d : Reg) (a : Reg) (b : Reg)
  /-- Long-latency binary32 division (R94). -/
  | fdiv (d : Reg) (a : Reg) (b : Reg) (k : BitVec 4)
  /-- Binary32 minimum with NaN-ignoring rules (R94). -/
  | fmin (d : Reg) (a : Reg) (b : Reg)
  /-- Binary32 maximum with NaN-ignoring rules (R94). -/
  | fmax (d : Reg) (a : Reg) (b : Reg)
  /-- Long-latency binary32 square root (R94). -/
  | fsqrt (d : Reg) (a : Reg) (k : BitVec 4)
  /-- Quiet binary32 equality compare (R94). -/
  | feq (d : Reg) (a : Reg) (b : Reg)
  /-- Binary32 less-than compare (R94). -/
  | flt (d : Reg) (a : Reg) (b : Reg)
  /-- Binary32 less-or-equal compare (R94). -/
  | fle (d : Reg) (a : Reg) (b : Reg)
  /-- Converts binary32 to int64 with nearest-even rounding (R94). -/
  | fcvtIf (d : Reg) (a : Reg)
  /-- Converts int64 to binary32 (R94). -/
  | fcvtFi (d : Reg) (a : Reg)
  /-- Inverts the sign bit of a binary32 value (R94). -/
  | fneg (d : Reg) (a : Reg)
  /-- Clears the sign bit of a binary32 value (R94). -/
  | fabs (d : Reg) (a : Reg)
  /-- Sign-extending byte load (R107). -/
  | ldB (v : Reg) (a : Reg) (s : Seg) (o : BitVec 9) (k : BitVec 4)
  /-- Sign-extending halfword load (R107). -/
  | ldH (v : Reg) (a : Reg) (s : Seg) (o : BitVec 9) (k : BitVec 4)
  /-- Sign-extending word load (R107). -/
  | ldW (v : Reg) (a : Reg) (s : Seg) (o : BitVec 9) (k : BitVec 4)
  /-- Doubleword load (R107). -/
  | ldD (v : Reg) (a : Reg) (s : Seg) (o : BitVec 9) (k : BitVec 4)
  /-- Zero-extending byte load (R107). -/
  | ldzB (v : Reg) (a : Reg) (s : Seg) (o : BitVec 9) (k : BitVec 4)
  /-- Zero-extending halfword load (R107). -/
  | ldzH (v : Reg) (a : Reg) (s : Seg) (o : BitVec 9) (k : BitVec 4)
  /-- Zero-extending word load (R107). -/
  | ldzW (v : Reg) (a : Reg) (s : Seg) (o : BitVec 9) (k : BitVec 4)
  /-- Byte store, read-modify-write of its word at the home (R107). -/
  | stB (v : Reg) (a : Reg) (s : Seg) (o : BitVec 9)
  /-- Halfword store (R107). -/
  | stH (v : Reg) (a : Reg) (s : Seg) (o : BitVec 9)
  /-- Word store (R107). -/
  | stW (v : Reg) (a : Reg) (s : Seg) (o : BitVec 9)
  /-- Doubleword store; leaves the full/empty bit unchanged (R107). -/
  | stD (v : Reg) (a : Reg) (s : Seg) (o : BitVec 9)
  /-- Indexed sign-extending byte load (R108). -/
  | ldxB (v : Reg) (a : Reg) (b : Reg) (s : Seg) (k : BitVec 4)
  /-- Indexed sign-extending halfword load (R108). -/
  | ldxH (v : Reg) (a : Reg) (b : Reg) (s : Seg) (k : BitVec 4)
  /-- Indexed sign-extending word load (R108). -/
  | ldxW (v : Reg) (a : Reg) (b : Reg) (s : Seg) (k : BitVec 4)
  /-- Indexed doubleword load (R108). -/
  | ldxD (v : Reg) (a : Reg) (b : Reg) (s : Seg) (k : BitVec 4)
  /-- Indexed zero-extending byte load (R108). -/
  | ldzxB (v : Reg) (a : Reg) (b : Reg) (s : Seg) (k : BitVec 4)
  /-- Indexed zero-extending halfword load (R108). -/
  | ldzxH (v : Reg) (a : Reg) (b : Reg) (s : Seg) (k : BitVec 4)
  /-- Indexed zero-extending word load (R108). -/
  | ldzxW (v : Reg) (a : Reg) (b : Reg) (s : Seg) (k : BitVec 4)
  /-- Indexed byte store (R108). -/
  | stxB (v : Reg) (a : Reg) (b : Reg) (s : Seg)
  /-- Indexed halfword store (R108). -/
  | stxH (v : Reg) (a : Reg) (b : Reg) (s : Seg)
  /-- Indexed word store (R108). -/
  | stxW (v : Reg) (a : Reg) (b : Reg) (s : Seg)
  /-- Indexed doubleword store (R108). -/
  | stxD (v : Reg) (a : Reg) (b : Reg) (s : Seg)
  /-- Waits for the word to be full, reads it and acquires at the scope (R111). -/
  | ldf (v : Reg) (a : Reg) (s : Seg) (o : BitVec 6) (c : Scope) (k : BitVec 4)
  /-- Waits for the word to be full, reads it, empties it and acquires (R111). -/
  | ldfe (v : Reg) (a : Reg) (s : Seg) (o : BitVec 6) (c : Scope) (k : BitVec 4)
  /-- Waits for the word to be empty, releases, stores it and sets it full (R111). -/
  | stef (v : Reg) (a : Reg) (s : Seg) (o : BitVec 6) (c : Scope)
  /-- Releases, stores the word and sets it full without waiting (R111). -/
  | stf (v : Reg) (a : Reg) (s : Seg) (o : BitVec 6) (c : Scope)
  /-- Reads whether a memory word is full (R113). -/
  | feprobe (d : Reg) (a : Reg) (b : Reg) (s : Seg) (k : BitVec 4)
  /-- Sets a memory word full and wakes its full-waiters (R113). -/
  | feset (a : Reg) (b : Reg) (s : Seg)
  /-- Sets a memory word empty and wakes its empty-waiters (R113). -/
  | feclr (a : Reg) (b : Reg) (s : Seg)
  /-- Parks until a memory word is full (R113). -/
  | fewait (a : Reg) (b : Reg) (s : Seg)
  /-- Parks until a memory word is empty (R113). -/
  | fewaite (a : Reg) (b : Reg) (s : Seg)
  /-- Clears the full bit of a general register (R114). -/
  | rempty (n : Fin 16)
  /-- Reads whether a general register is full without parking (R114). -/
  | rprobe (d : Reg) (n : Fin 16)
  /-- Atomically swaps a doubleword at its home (R116). -/
  | amoDSwap (d : Reg) (a : Reg) (b : Reg) (s : Seg) (r : MemOrd) (c : AScope)
  /-- Atomic doubleword add (R116). -/
  | amoDAdd (d : Reg) (a : Reg) (b : Reg) (s : Seg) (r : MemOrd) (c : AScope)
  /-- Atomic doubleword AND (R116). -/
  | amoDAnd (d : Reg) (a : Reg) (b : Reg) (s : Seg) (r : MemOrd) (c : AScope)
  /-- Atomic doubleword OR (R116). -/
  | amoDOr (d : Reg) (a : Reg) (b : Reg) (s : Seg) (r : MemOrd) (c : AScope)
  /-- Atomic doubleword XOR (R116). -/
  | amoDXor (d : Reg) (a : Reg) (b : Reg) (s : Seg) (r : MemOrd) (c : AScope)
  /-- Atomic doubleword signed minimum (R116). -/
  | amoDMin (d : Reg) (a : Reg) (b : Reg) (s : Seg) (r : MemOrd) (c : AScope)
  /-- Atomic doubleword signed maximum (R116). -/
  | amoDMax (d : Reg) (a : Reg) (b : Reg) (s : Seg) (r : MemOrd) (c : AScope)
  /-- Atomic doubleword unsigned minimum (R116). -/
  | amoDMinz (d : Reg) (a : Reg) (b : Reg) (s : Seg) (r : MemOrd) (c : AScope)
  /-- Atomic doubleword unsigned maximum (R116). -/
  | amoDMaxz (d : Reg) (a : Reg) (b : Reg) (s : Seg) (r : MemOrd) (c : AScope)
  /-- Atomic doubleword compare-and-swap (R116). -/
  | amoDCas (d : Reg) (a : Reg) (b : Reg) (s : Seg) (r : MemOrd) (c : AScope)
  /-- Atomic doubleword bounded increment (R116). -/
  | amoDInc (d : Reg) (a : Reg) (b : Reg) (s : Seg) (r : MemOrd) (c : AScope)
  /-- Atomically swaps a word at its home (R116). -/
  | amoWSwap (d : Reg) (a : Reg) (b : Reg) (s : Seg) (r : MemOrd) (c : AScope)
  /-- Atomic word add (R116). -/
  | amoWAdd (d : Reg) (a : Reg) (b : Reg) (s : Seg) (r : MemOrd) (c : AScope)
  /-- Atomic word AND (R116). -/
  | amoWAnd (d : Reg) (a : Reg) (b : Reg) (s : Seg) (r : MemOrd) (c : AScope)
  /-- Atomic word OR (R116). -/
  | amoWOr (d : Reg) (a : Reg) (b : Reg) (s : Seg) (r : MemOrd) (c : AScope)
  /-- Atomic word XOR (R116). -/
  | amoWXor (d : Reg) (a : Reg) (b : Reg) (s : Seg) (r : MemOrd) (c : AScope)
  /-- Atomic word signed minimum (R116). -/
  | amoWMin (d : Reg) (a : Reg) (b : Reg) (s : Seg) (r : MemOrd) (c : AScope)
  /-- Atomic word signed maximum (R116). -/
  | amoWMax (d : Reg) (a : Reg) (b : Reg) (s : Seg) (r : MemOrd) (c : AScope)
  /-- Atomic word unsigned minimum (R116). -/
  | amoWMinz (d : Reg) (a : Reg) (b : Reg) (s : Seg) (r : MemOrd) (c : AScope)
  /-- Atomic word unsigned maximum (R116). -/
  | amoWMaxz (d : Reg) (a : Reg) (b : Reg) (s : Seg) (r : MemOrd) (c : AScope)
  /-- Atomic word compare-and-swap (R116). -/
  | amoWCas (d : Reg) (a : Reg) (b : Reg) (s : Seg) (r : MemOrd) (c : AScope)
  /-- Atomic binary32 add on a word (R116). -/
  | amoWFadd (d : Reg) (a : Reg) (b : Reg) (s : Seg) (r : MemOrd) (c : AScope)
  /-- Atomic word bounded increment (R116). -/
  | amoWInc (d : Reg) (a : Reg) (b : Reg) (s : Seg) (r : MemOrd) (c : AScope)
  /-- Waits for N = 0 and acts as an acquire at the scope (R118). -/
  | fenceAcq (c : Scope)
  /-- Waits for N = 0 and acts as a release at the scope (R118). -/
  | fenceRel (c : Scope)
  /-- Full fence at the scope (R118). -/
  | fence (c : Scope)
  /-- Waits for the strand's engine commands, takes a pending engine trap, then acquires (R118). -/
  | fenceEngAcq (c : Scope)
  /-- Waits for the strand's engine commands, takes a pending engine trap, then releases (R118). -/
  | fenceEngRel (c : Scope)
  /-- Waits for the strand's engine commands, takes a pending engine trap, then fences fully (R118). -/
  | fenceEng (c : Scope)
  /-- Privileged load of a segment descriptor from memory (R119). -/
  | segld (d : Seg) (a : Reg)
  /-- Privileged store of a segment descriptor to memory (R119). -/
  | segst (d : Seg) (a : Reg)
  /-- Narrows a segment's base and limit (R120). -/
  | segnar (d : Seg) (a : Reg) (b : Reg)
  /-- Removes rights from a segment (R120). -/
  | segrgt (d : Seg) (a : Reg)
  /-- Reads a segment's base (R121). -/
  | segbase (d : Reg) (a : Seg)
  /-- Reads a segment's limit (R121). -/
  | seglim (d : Reg) (a : Seg)
  /-- Reads a segment's rights (R121). -/
  | segrd (d : Reg) (a : Seg)
  /-- Maps stash entries onto a global range (R174). -/
  | smap (d : Reg) (a : Reg) (b : Reg) (s : Seg)
  /-- Writes back and unmaps stash entries (R178). -/
  | sunmap (d : Reg) (b : Reg)
  /-- Writes back dirty stash entries as a system-scope release (R178). -/
  | sflush (d : Reg) (b : Reg)
  /-- Discards stash entries' contents, leaving them mapped and empty (R178). -/
  | sinv (d : Reg) (b : Reg)
  /-- Reads the state of a stash entry (R179). -/
  | sprobe (d : Reg) (a : Reg)
  /-- Sets the outbox target record and lane (R123). -/
  | msgt (a : Reg) (b : Reg)
  /-- Reads the strand's inbox counts without parking (R125). -/
  | poll (d : Reg)
  /-- Binds qa and qb to station queues (R126). -/
  | qbind (a : Reg) (b : Reg)
  /-- Moves the strand to the same row and column on a named die (R127). -/
  | migrate (a : Reg)
  /-- Splits a trip range among new participant strands with a join cell (R207). -/
  | rfork (d : Reg) (a : Reg) (b : Reg)
  /-- Decrements the join cell; the last finisher continues, others retire (R208). -/
  | join (a : Reg)
  /-- Creates one child strand of the task (R209). -/
  | spawn (d : Reg) (a : Reg) (b : Reg)
  /-- Marks a record to start when the current task retires (R209). -/
  | tail (a : Reg)
  /-- Leaves the slot and becomes WAITING (R209). -/
  | yield
  /-- Parks until a wake (R209). -/
  | park
  /-- Wakes a parked or held context (R209). -/
  | wake (a : Reg)
  /-- Waits for outstanding work, then retires the strand (R209). -/
  | endStrand
  /-- Cancels the issuing strand's job throughout the package (R213). -/
  | cancel
  /-- Sends a graph-node decrement to a task record (R199). -/
  | gdec (a : Reg)
  /-- Puts a word into a global queue, parking while full (R210). -/
  | qput (a : Reg) (b : Reg)
  /-- Takes a word from a global queue, parking while empty (R210). -/
  | qtake (d : Reg) (a : Reg)
  /-- Forks an EMPTY speculative child of a lineage node (R250). -/
  | lfork (d : Reg) (a : Reg) (k : BitVec 4)
  /-- Forks a node, first flattening it at depth 8 (R250). -/
  | lforkf (d : Reg) (a : Reg) (k : BitVec 4)
  /-- Flattens a node into a FULL root (R236). -/
  | lflat (d : Reg) (a : Reg) (k : BitVec 4)
  /-- Rebases a node onto an ancestor keeping its value (R237). -/
  | lrebk (d : Reg) (a : Reg) (b : Reg) (k : BitVec 4)
  /-- Rebases a node onto a new parent keeping its delta (R238). -/
  | lrebd (d : Reg) (a : Reg) (b : Reg) (k : BitVec 4)
  /-- Frees a node or makes it RETIRED, cascading frees (R239). -/
  | ldel (d : Reg) (a : Reg) (k : BitVec 4)
  /-- Commits a node and its speculative ancestors (R240). -/
  | lcmt (d : Reg) (a : Reg) (k : BitVec 4)
  /-- Reads a selected field of a node record (R251). -/
  | linfo (d : Reg) (a : Reg) (b : Reg) (k : BitVec 4)
  /-- Raises a TRAP trap with a code (R145). -/
  | trap (i : BitVec 8)
  /-- Restores the saved mode and returns to k.epc (R139). -/
  | eret
  /-- Raises a BRK trap with a code (R145). -/
  | brk (i : BitVec 8)
  /-- Reads the station's local cycle counter (R145). -/
  | cyc (d : Reg)
  /-- Reads a system register (R129). -/
  | rsr (d : Reg) (i : BitVec 8)
  /-- Writes a system register with its own write rules (R132). -/
  | wsr (a : Reg) (i : BitVec 8)
  /-- Privileged read of a word of a context record (R146). -/
  | rcx (d : Reg) (a : Reg) (i : BitVec 8)
  /-- Privileged write of a word of a context record (R146). -/
  | wcx (v : Reg) (a : Reg) (i : BitVec 8)
  /-- Parks the strand and writes a HALT record (R147). -/
  | halt
  /-- Removes cached translations of the job from every memory port (R148). -/
  | tlbinv (a : Reg)
  /-- Makes a context STORED (R149). -/
  | ctxflush (a : Reg)
  /-- Copies and optionally converts or swizzles bytes between memory and stash (R185). -/
  | cpCopy
  /-- Writes a value to consecutive words, optionally setting them full or empty (R187). -/
  | cpFill
  /-- Copies a source to the stash of several stations (R188). -/
  | cpBcast
  /-- Gathers rows by an index list (R189). -/
  | cpGather
  /-- Scatters rows by an index list (R189). -/
  | cpScatter
  /-- Cancels the strand's matching copy commands (R190). -/
  | cpCancel
  /-- Executes the embedded command of a copy node record (R191). -/
  | cpNode
  /-- Creates a FULL lineage root and stores its handle (R255). -/
  | lnRoot
  /-- Writes a ROWS delta into a node (R256). -/
  | lnWr
  /-- Writes an ELEMS delta into a node (R256). -/
  | lnWre
  /-- Writes a LOWRANK delta into a node (R256). -/
  | lnLr
  /-- Writes a RESID delta into a node (R256). -/
  | lnRes
  /-- Appends rows to an APPEND node (R256). -/
  | lnApp
  /-- Truncates a node's current rows (R257). -/
  | lnTrunc
  /-- Resolves a node and writes its rows out (R258). -/
  | lnRd
  /-- Sets an accumulator to +0 (R287). -/
  | mxZero
  /-- Adds a matrix product into an accumulator (R288). -/
  | mxMma
  /-- Computes corrected lineage products over a common ancestor (R289). -/
  | mxLin
  /-- Converts and stores an accumulator region (R290). -/
  | mxSt
  /-- Loads an accumulator from memory or stash (R291). -/
  | mxLd
  /-- Fills stash words with a value (R295). -/
  | vxFill
  /-- Writes an ascending i32 sequence (R295). -/
  | vxIota
  /-- Elementwise f32 add (R294). -/
  | vxAdd
  /-- Elementwise f32 subtract (R294). -/
  | vxSub
  /-- Elementwise f32 multiply (R294). -/
  | vxMul
  /-- Elementwise fused multiply-add (R294). -/
  | vxFma
  /-- Elementwise minimum (R294). -/
  | vxMin
  /-- Elementwise maximum (R294). -/
  | vxMax
  /-- Elementwise absolute value (R294). -/
  | vxAbs
  /-- Elementwise negation (R294). -/
  | vxNeg
  /-- Correctly rounded reciprocal (R294). -/
  | vxRcp
  /-- Correctly rounded reciprocal square root (R294). -/
  | vxRsqrt
  /-- Correctly rounded base-2 exponential (R294). -/
  | vxExp2
  /-- Correctly rounded base-2 logarithm (R294). -/
  | vxLog2
  /-- Converts elements between formats (R299). -/
  | vxCvt
  /-- Elementwise compare producing masks (R296). -/
  | vxCmp
  /-- Selects elements by a mask (R296). -/
  | vxSel
  /-- Sum reduction in a fixed tree (R297). -/
  | vxRsum
  /-- Maximum reduction (R297). -/
  | vxRmax
  /-- Argmax reduction (R297). -/
  | vxArgmax
  /-- Gathers words by index (R298). -/
  | vxGather
  /-- Scatters words by index (R298). -/
  | vxScatter
  /-- Quantizes f32 elements into scaled binary8 (R300). -/
  | vxQuant
  /-- Rewrites stash bytes in a new swizzle layout (R301). -/
  | vxSwz
  /-- All-gather over a group into the stash (R319). -/
  | clAg
  /-- Reduce-scatter over a group (R319). -/
  | clRs
  /-- All-reduce over a group in member order (R319). -/
  | clAr
  /-- Broadcast of the root's contribution (R319). -/
  | clBc
  /-- Creates a subgroup and acts as a barrier (R321). -/
  | clGrp
  /-- Samples one logit row through a stage chain (R335). -/
  | smRun
  /-- Samples the decoding slots of a sequence table (R336). -/
  | smBatch
  /-- Configures an Ember slot's base and resets its tickets (R338). -/
  | rnCfg
  /-- Takes n consecutive Ember words and writes them out (R339). -/
  | rnDraw
  /-- Opens a duplex stream object (R347). -/
  | dxOpen
  /-- Applies an input frame, cutting back on barge-in or recording a late frame (R350). -/
  | dxIn
  /-- Appends one generated or input position (R348). -/
  | dxApp
  /-- Folds played positions into the committed state (R352). -/
  | dxAck
  /-- Cuts the stream back without a frame (R351). -/
  | dxTrunc
  /-- Closes a stream, leaving K as a root (R353). -/
  | dxClose
  /-- The home recalls a block from its owning entry before serving another access (R176). -/
  | stashRecall
  /-- A word sent through ob is pushed into the target's inbox lane at its home, or dropped with MSGDROP (R123). -/
  | inboxPush
  /-- A neighbour-link word arrives and is queued or diverted on a capability mismatch (R122). -/
  | linkWordArrival
  /-- When a piece of a copy has landed, its signal word is stored full as a release (R186). -/
  | pieceSignal
  /-- A collective starts once all members' commands have arrived (R318). -/
  | collectiveStart
  /-- When a 64 KiB destination piece has landed, Lantern stores its signal word full (R320). -/
  | lanternPieceSignal
  /-- Sconce stores a token word once it is empty, as a die-scope release (R340). -/
  | tokenWordStore
  /-- A long-latency operation completes, fills its destination and updates N, D and W (R65). -/
  | longLatencyComplete
  /-- An engine delivers a completion word in the command's mode (R77). -/
  | engineCompletion
  /-- After N drains, the strand enters the trap handler in supervisor mode (R138). -/
  | trapEntry
  /-- A wake makes a parked strand WAITING or starts its activation (R51). -/
  | strandWake
  /-- A queued activation takes a cache entry and starts fetching lines 0x000–0x0FF (R44). -/
  | activationStart
  /-- An activating context becomes WAITING once its lines have arrived (R43). -/
  | activationComplete
  /-- A demand-fetched context line arrives and the parked instruction reissues (R44). -/
  | contextLineArrival
  /-- An access meets a page that is not present; the strand is dropped and a PAGE record sent (R52). -/
  | page
  /-- After the supervisor's wake, the station re-performs the faulting and later accesses (R52). -/
  | accessReperform
  /-- A migrating context arrives on the target station and becomes WAITING (R54). -/
  | migrationArrival
  /-- An access arriving over the fabric is checked against the page's key and performed or diverted (R315). -/
  | fabricAccessIn
  /-- A device becomes unreachable on every plane (R316). -/
  | deviceLost
  /-- A failed fabric link is retrained or routed around (R308). -/
  | linkFailure
  /-- A decrement is performed at a task record's home, possibly readying it (R199). -/
  | graphNodeDecrement
  /-- The task engine dispatches the best READY task and sends work packets (R201). -/
  | taskDispatch
  /-- Die 0's task engine reserves stations for PLACING gangs and dispatches a full reservation (R211). -/
  | gangPlacement
  /-- When a task's last strand ends, tails are dispatched, the state written and successors acted on (R203). -/
  | taskRetirement
  /-- A RUNNING task is stopped and saved into its save area (R215). -/
  | preemption
  /-- At every N-th lap end a class S task is checkpointed (R218). -/
  | checkpoint
  /-- A sealed LAUNCH record is parsed and decrements or dispatches its task record (R220). -/
  | launch
  /-- A sealed PREEMPT record requests pre-emption of a task (R220). -/
  | preempt
  /-- A sealed RESUME record makes a pre-empted task READY (R220). -/
  | resume
  /-- A sealed CANCEL record cancels a job (R220). -/
  | launchCancel
  /-- A user queue doorbell write makes the queue pending (R221). -/
  | doorbell
  /-- The queue scheduler visits a mapped slot and parses up to 2^k records (R221). -/
  | queueSlotVisit
  /-- A held supervisor-queue event is written when ring space frees (R141). -/
  | supqHeldEvent
  /-- Setting LIVE in a job table entry makes the job live (R137). -/
  | jobCreate
  /-- Clearing LIVE ends a job and drops its records, cells and cached lines (R137). -/
  | jobEnd
  /-- An L2 line leaves its slice and is written back if dirty (R379). -/
  | l2LineEviction
  /-- The patrol scrub reads a line and writes back a corrected one (R362). -/
  | patrolScrub
  /-- An uncorrectable error in a task-tagged line rolls the task back through its write log (R366). -/
  | rollback
  /-- At the end of a scrub period, layers over the error thresholds are marked failing (R370). -/
  | scrubPeriodEnd
  /-- A layer that stops responding is removed at once (R370). -/
  | layerHardRemoval
  /-- A Release write with GO removes a soft-failing layer (R370). -/
  | release
  /-- A write of the scrub period takes effect only for values 1–168 (R363). -/
  | scrubPeriod
  /-- Firmware lowers island clocks when module power nears its limit (R377). -/
  | throttle
  /-- Above 105 °C firmware throttles every island (R377). -/
  | thermalThrottle
  /-- At 115 °C the module stops every island until reset (R377). -/
  | thermalStop
  /-- At reset the boot ROM verifies the firmware image or enters recovery mode (R374). -/
  | deviceReset
  /-- SPDM request for supported versions (R375). -/
  | getVersion
  /-- SPDM request for capabilities (R375). -/
  | getCapabilities
  /-- SPDM request negotiating algorithms (R375). -/
  | negotiateAlgorithms
  /-- SPDM request for certificate digests (R375). -/
  | getDigests
  /-- SPDM request for the certificate chain (R375). -/
  | getCertificate
  /-- SPDM challenge signed with the alias key (R375). -/
  | challenge
  /-- SPDM request for the indexed measurements (R375). -/
  | getMeasurements
  /-- The host reads or writes device memory through the host-coherent CXL aperture, taking its place in each word's write order and removing L1 copies (R170). -/
  | hostCxlAccess
  /-- The home refuses a sub-word or full/empty store whose word's line is poisoned, and the refusal returns to the strand, which takes POISON at its next issue (R109). -/
  | storeRefused
  /-- At a supervisor request, firmware raises the fused minimum security version to its own security version (R374). -/
  | fusedMinimumRaise
  deriving DecidableEq, Repr

end Sys2Proof
end

