-- ==== Sys2Proof/Config.lean ====
section
/-! DEFINITION. What an implementation fixes and the values that the specification leaves open. An `opaque` constant
has no body: nothing can be proved of its value, so a claim holds whatever it is. -/

namespace Sys2Proof

namespace Config

/-- A free 64-bit value, one for each value of the free-value counter of the state. DESIGN CHOICE (log 14). -/
opaque freeWord : Nat → Word

/-- Whether a tie of a rounding to a one-bit precision, which has no last trailing bit (R265, R273), goes away from
zero: the specification names no even one of the two values. DESIGN CHOICE (log 12). -/
opaque tieAway : Nat → Int → Bool

/-- Whether an access of this package over the fabric is diverted at the device it reaches (R315); the keys that
another device's aperture owner recorded are no part of this machine. DESIGN CHOICE (log 13). -/
opaque remoteDiverts : Nat → Bool

/-- The partition key that an aperture's owner recorded for a page of a job (R315), by job and page number: no register or
table of this machine holds it. DESIGN CHOICE (log 21). -/
opaque pageKey : Nat → Nat → BitVec 16

/-- The four key digests that a device has fused (R374), the boot ROM's digest, and the alias key's certificate chain and
signatures (R375): the fused secret and Plomond's keys fix them, not this specification. DESIGN CHOICE (log 18). -/
opaque fusedDigest : Nat → Nat
opaque bootRomDigest : Nat
opaque aliasCertificate : Nat → List Byte
opaque aliasSign : Nat → Nat → List Nat → Nat

/-- Physical bytes of the package's HBM: 8 stacks of 64 GiB (R9, R369). -/
def hbmBytes : Nat := 2 ^ 39

/-- Stations of the package and of one die (R9). -/
def stations : Nat := 640
def stationsPerDie : Nat := 160
def dies : Nat := 4

/-- Resident contexts of one station (R12), pinned slots (R46), activations at once (R44). -/
def residentMax : Nat := 128
def pinnedMax : Nat := 12
def activationMax : Nat := 4

/-- Words of a link queue (R122), of a station queue (R126) and of an inbox lane (R36); commands of an engine
queue (R18). -/
def linkDepth : Nat := 8
def stationQueueDepth : Nat := 16
def laneDepth : Nat := 8
def commandDepth : Nat := 8

/-- The L1 data cache: 2,048 lines in 512 sets of 4 ways (R379). -/
def l1Sets : Nat := 512
def l1Ways : Nat := 4

/-- The set of L1 that a line of a job falls into; the mapping is not part of the architecture (R379). DESIGN CHOICE
(log 24). -/
opaque l1Set : Nat → Nat → Nat

/-- Lines of one L2 slice, 3.2 MiB (R12, R14), and its scope records (R165). -/
def sliceLines : Nat := 52428
def scopeRecords : Nat := 8192

/-- The set of its home slice that a virtual line falls into; the set organisation is not part of the architecture (R379). DESIGN
CHOICE (log 24). -/
opaque l2Set : Nat → Nat

/-- What a byte of memory that nothing has written reads as. DESIGN CHOICE (log 1). -/
def memoryByte : Byte := 0

end Config

end Sys2Proof
end

