-- ==== Sys2Proof/Machine/Bits.lean ====
section
/-! DEFINITION. Bit fields, extensions and byte order over words and numbers (R1 to R8, R82). -/

namespace Sys2Proof.Machine

open Sys2Proof

/-- Bits [lo + len - 1 : lo] of a number. -/
def bitsOf (x lo len : Nat) : Nat := (x >>> lo) % 2 ^ len

/-- Bit `n` of a number. -/
def bitOf (x n : Nat) : Bool := x.testBit n

/-- `x` taken as a field of `b` bits, as a signed number. -/
def signedOf (x b : Nat) : Int :=
  if (x % 2 ^ b).testBit (b - 1) && decide (0 < b) then ((x % 2 ^ b : Nat) : Int) - (2 : Int) ^ b else ((x % 2 ^ b : Nat) : Int)

/-- An integer modulo 2^64, as a word. -/
def wordOfInt (x : Int) : Word := BitVec.ofInt 64 x

/-- A number modulo 2^64, as a word. -/
def wordOf (x : Nat) : Word := BitVec.ofNat 64 x

/-- sext(x, b) of R82. -/
def sextTo (x b : Nat) : Word := wordOfInt (signedOf x b)

/-- zext(x, b) of R82. -/
def zextTo (x b : Nat) : Word := wordOf (x % 2 ^ b)

/-- Whether bits 63:56 all copy bit 55 (R83). -/
def canonical (va : Nat) : Bool :=
  bitsOf va 56 8 == (if va.testBit 55 then 255 else 0)

/-- Whether a number is a power of two between two bounds. -/
def powerOfTwo (n lo hi : Nat) : Bool :=
  decide (lo ≤ n) && decide (n ≤ hi) && n &&& (n - 1) == 0 && n != 0

/-- `x` with its field of `len` bits at `lo` replaced. -/
def setBits (x lo len v : Nat) : Nat :=
  x - (bitsOf x lo len) * 2 ^ lo + (v % 2 ^ len) * 2 ^ lo

/-- The number whose bytes, lowest first, are given (R1). -/
def leNat : List Byte → Nat
  | [] => 0
  | b :: rest => b.toNat + 256 * leNat rest

/-- The `n` lowest bytes of a number, lowest first (R1). -/
def leBytes : Nat → Nat → List Byte
  | 0, _ => []
  | n + 1, x => BitVec.ofNat 8 x :: leBytes n (x / 256)

/-- ⌈a ÷ b⌉. -/
def ceilDiv (a b : Nat) : Nat := (a + b - 1) / b

/-- A numbered list. -/
def numbered {α : Type} : Nat → List α → List (Nat × α)
  | _, [] => []
  | n, x :: rest => (n, x) :: numbered (n + 1) rest

end Sys2Proof.Machine
end

