-- ==== Sys2Proof/Machine/Formats.lean ====
section
/-! DEFINITION. Number formats and conversion (R263 to R273), the stochastic stream (R274), and binary32 arithmetic by
exact computation and one rounding (R92, R280). -/

namespace Sys2Proof.Machine

open Sys2Proof

/-- An exact value: NaN, an infinity, or (−1)^neg · m · 2^e. -/
inductive Num where
  | nan
  | inf (neg : Bool)
  | fin (neg : Bool) (m : Nat) (e : Int)
  deriving DecidableEq, Repr

def Num.zero : Num := .fin false 0 0

def Num.isNaN : Num → Bool
  | .nan => true
  | .inf _ | .fin _ _ _ => false

def Num.isZero : Num → Bool
  | .fin _ m _ => m == 0
  | .nan | .inf _ => false

def Num.neg : Num → Num
  | .nan => .nan
  | .inf s => .inf !s
  | .fin s m e => .fin (!s) m e

/-- The value of an integer. -/
def Num.ofInt (x : Int) : Num := .fin (decide (x < 0)) x.natAbs 0

/-- m · 2^k for k ≥ 0, as a number; for k < 0 rounded down. -/
def scale2 (m : Nat) (k : Int) : Nat :=
  if 0 ≤ k then m <<< k.toNat else m >>> (-k).toNat

/-- The signed value at a common exponent no greater than its own. -/
def Num.signedAt (neg : Bool) (m : Nat) (e base : Int) : Int :=
  let x : Int := ((scale2 m (e - base) : Nat) : Int)
  if neg then -x else x

/-- The exact sum of two finite values; an exact zero sum of opposite signs is +0 (R92). -/
def addFin (s1 : Bool) (m1 : Nat) (e1 : Int) (s2 : Bool) (m2 : Nat) (e2 : Int) : Num :=
  let base := min e1 e2
  let v := Num.signedAt s1 m1 e1 base + Num.signedAt s2 m2 e2 base
  if v = 0 then .fin (s1 && s2) 0 0 else .fin (decide (v < 0)) v.natAbs base

/-- The exact sum; ∞ + (−∞) is NaN. -/
def Num.add : Num → Num → Num
  | .nan, _ | _, .nan => .nan
  | .inf a, .inf b => if a = b then .inf a else .nan
  | .inf a, .fin _ _ _ => .inf a
  | .fin _ _ _, .inf b => .inf b
  | .fin s1 m1 e1, .fin s2 m2 e2 => addFin s1 m1 e1 s2 m2 e2

/-- The exact product; 0 × ∞ is NaN. -/
def Num.mul : Num → Num → Num
  | .nan, _ | _, .nan => .nan
  | .inf a, .inf b => .inf (a != b)
  | .inf a, .fin b m _ => if m = 0 then .nan else .inf (a != b)
  | .fin a m _, .inf b => if m = 0 then .nan else .inf (a != b)
  | .fin s1 m1 e1, .fin s2 m2 e2 => .fin (s1 != s2) (m1 * m2) (e1 + e2)

/-- Whether a finite value is less than another. -/
def ltFin (s1 : Bool) (m1 : Nat) (e1 : Int) (s2 : Bool) (m2 : Nat) (e2 : Int) : Bool :=
  let base := min e1 e2
  decide (Num.signedAt s1 m1 e1 base < Num.signedAt s2 m2 e2 base)

/-- x < y, false if either is NaN. -/
def Num.lt : Num → Num → Bool
  | .nan, _ | _, .nan => false
  | .inf a, .inf b => a && !b
  | .inf a, .fin _ _ _ => a
  | .fin _ _ _, .inf b => !b
  | .fin s1 m1 e1, .fin s2 m2 e2 => ltFin s1 m1 e1 s2 m2 e2

/-- x = y, false if either is NaN; the two zeros are equal. -/
def Num.eq (x y : Num) : Bool := !x.isNaN && !y.isNaN && !x.lt y && !y.lt x

/-! ### Rounding modes (R273) -/

def modeRNE : Nat := 0
def modeRZ : Nat := 1
def modeRU : Nat := 2
def modeRD : Nat := 3
def modeRSR : Nat := 4

/-- |x| = m · 2^e rounded to a multiple of 2^q, counted in those multiples. `draw` is the draw of RSR; `onebit` says that
the target has a precision of one bit. -/
def roundMag (m : Nat) (e q : Int) (mode : Nat) (neg : Bool) (draw : Nat) (onebit : Bool) : Nat :=
  if q ≤ e then m <<< (e - q).toNat
  else
    let sh := (q - e).toNat
    let a := m >>> sh
    let r := m % 2 ^ sh
    if r = 0 then a
    else
      let up :=
        if mode = modeRZ then false
        else if mode = modeRU then !neg
        else if mode = modeRD then neg
        else if mode = modeRSR then decide (draw < (r * 65536) >>> sh)
        else if 2 * r = 2 ^ sh then (if onebit then Config.tieAway m e else a % 2 == 1)
        else decide (2 ^ sh < 2 * r)
      if up then a + 1 else a

/-! ### Format codes (R263) -/

/-- The kinds of format that a code names. -/
inductive Fmt where
  /-- Precision, exponent of the least normal value, and exponent field width. -/
  | ieee (p : Nat) (emin : Int) (ebits : Nat)
  | int (bits : Nat) (signed : Bool)
  | b8 (p : Nat) (signed extended : Bool)
  deriving DecidableEq, Repr

/-- The format of a code; `e8s` is no element format (R263). -/
def fmtOf (code : Nat) : Option Fmt :=
  if code = 0x00 then some (.ieee 24 (-126) 8)
  else if code = 0x01 then some (.ieee 8 (-126) 8)
  else if code = 0x02 then some (.ieee 11 (-14) 5)
  else if code = 0x04 then some (.int 8 true)
  else if code = 0x05 then some (.int 8 false)
  else if code = 0x06 then some (.int 16 true)
  else if code = 0x07 then some (.int 32 true)
  else if 0x11 ≤ code ∧ code ≤ 0x17 then some (.b8 (code - 0x10) true true)
  else if 0x19 ≤ code ∧ code ≤ 0x1F then some (.b8 (code - 0x18) true false)
  else if 0x21 ≤ code ∧ code ≤ 0x27 then some (.b8 (code - 0x20) false true)
  else if 0x29 ≤ code ∧ code ≤ 0x2F then some (.b8 (code - 0x28) false false)
  else none

def codeE8s : Nat := 0x30

/-- Element bytes of a format. -/
def Fmt.size : Fmt → Nat
  | .ieee p _ ebits => (p + ebits) / 8
  | .int bits _ => bits / 8
  | .b8 _ _ _ => 1

def Fmt.isB8 : Fmt → Bool
  | .b8 _ _ _ => true
  | .ieee _ _ _ | .int _ _ => false

def Fmt.isInt : Fmt → Bool
  | .int _ _ => true
  | .ieee _ _ _ | .b8 _ _ _ => false

/-- Trailing bits, exponent bias of a binary8 format (R265, R266). -/
def b8Trailing (p : Nat) : Nat := p - 1
def b8Bias (p : Nat) (signed : Bool) : Nat := if signed then 2 ^ (7 - p) else 2 ^ (8 - p)

/-- The value of an IEEE-shaped pattern with `t` trailing bits, an exponent field and a bias given by emin. -/
def ieeeValue (neg : Bool) (e t tbits : Nat) (emin : Int) : Num :=
  if e = 0 then .fin neg t (emin - tbits)
  else .fin neg (2 ^ tbits + t) (emin + (e : Int) - 1 - tbits)

/-- The exact value of an element (R264 to R266). -/
def Fmt.decode : Fmt → Nat → Num
  | .ieee p emin ebits, x =>
    let t := x % 2 ^ (p - 1)
    let e := bitsOf x (p - 1) ebits
    let neg := x.testBit (p - 1 + ebits)
    if e = 2 ^ ebits - 1 then (if t = 0 then .inf neg else .nan)
    else ieeeValue neg e t (p - 1) emin
  | .int bits signed, x => Num.ofInt (if signed then signedOf x bits else ((x % 2 ^ bits : Nat) : Int))
  | .b8 p true extended, x =>
    let x := x % 256
    if x = 0x80 then .nan
    else if extended && x == 0x7F then .inf false
    else if extended && x == 0xFF then .inf true
    else ieeeValue (x.testBit 7) (bitsOf x (p - 1) (8 - p)) (x % 2 ^ (p - 1)) (p - 1) (1 - (b8Bias p true : Int))
  | .b8 p false extended, x =>
    let x := x % 256
    if x = 0xFF then .nan
    else if extended && x == 0xFE then .inf false
    else ieeeValue false (bitsOf x (p - 1) (9 - p)) (x % 2 ^ (p - 1)) (p - 1) (1 - (b8Bias p false : Int))

/-- The canonical NaN of a format (R264 to R266); an integer format's is 0 (R270). -/
def Fmt.nanCode : Fmt → Nat
  | .ieee p _ ebits => (2 ^ ebits - 1) * 2 ^ (p - 1) + 2 ^ (p - 2)
  | .int _ _ => 0
  | .b8 _ true _ => 0x80
  | .b8 _ false _ => 0xFF

/-- The code of the largest finite value M (R267, R270); for an integer format, of its upper range end. -/
def Fmt.maxCode : Fmt → Nat
  | .ieee p _ ebits => (2 ^ ebits - 1) * 2 ^ (p - 1) - 1
  | .int bits true => 2 ^ (bits - 1) - 1
  | .int bits false => 2 ^ bits - 1
  | .b8 _ true true => 0x7E
  | .b8 _ true false => 0x7F
  | .b8 _ false true => 0xFD
  | .b8 _ false false => 0xFE

/-- The code with the other sign. -/
def Fmt.negCode : Fmt → Nat → Nat
  | .ieee p _ ebits, c => c + 2 ^ (p - 1 + ebits)
  | .int bits _, c => (2 ^ bits - c) % 2 ^ bits
  | .b8 _ _ _, c => c + 0x80

/-- The code of an infinity, of a format that has one. -/
def Fmt.infCode : Fmt → Nat
  | .ieee p _ ebits => (2 ^ ebits - 1) * 2 ^ (p - 1)
  | .int _ _ => 0
  | .b8 _ true _ => 0x7F
  | .b8 _ false _ => 0xFE

/-- Whether a format has infinities: an extended target of R271. -/
def Fmt.extended : Fmt → Bool
  | .ieee _ _ _ => true
  | .int _ _ => false
  | .b8 _ _ x => x

def Fmt.unsigned : Fmt → Bool
  | .b8 _ false _ => true
  | .b8 _ true _ | .ieee _ _ _ | .int _ _ => false

/-- Precision and exponent of the least normal value of a floating format. -/
def Fmt.grid : Fmt → Nat × Int
  | .ieee p emin _ => (p, emin)
  | .int _ _ => (0, 0)
  | .b8 p s _ => (p, 1 - (b8Bias p s : Int))

/-- The code of n · 2^q, where n has at most `p` bits and q is no less than the subnormal exponent. -/
def packCode (n : Nat) (q : Int) (p : Nat) (emin : Int) : Nat :=
  -- A code below its sign is the count of grid steps from zero.
  let sub := emin - ((p : Int) - 1)
  let k := (q - sub).toNat
  if n < 2 ^ (p - 1) then n else k * 2 ^ (p - 1) + n

/-- Grid of R270: the exponent of the spacing around |x| = m · 2^e. -/
def gridExp (m : Nat) (e : Int) (p : Nat) (emin : Int) : Int :=
  max (Nat.log2 m + e) emin - ((p : Int) - 1)

/-- The result for |v| > M (R271); `wasInf` for an infinite source. -/
def overflowCode (f : Fmt) (mode : Nat) (sat neg wasInf : Bool) : Nat :=
  let big := f.maxCode
  let neg' (c : Nat) : Nat := if neg then f.negCode c else c
  match f with
  | .int bits signed => if neg then (if signed then 2 ^ (bits - 1) else 0) else big
  | .ieee _ _ _ | .b8 _ _ _ =>
    -- An unsigned target takes the sign rule of R270 after the table.
    if f.unsigned && neg then
      if f.extended && !sat then f.nanCode else 0
    else if sat || !f.extended then neg' big
    else if wasInf then neg' f.infCode
    else if mode = modeRZ then neg' big
    else if mode = modeRU then (if neg then neg' big else f.infCode)
    else if mode = modeRD then (if neg then neg' f.infCode else big)
    else neg' f.infCode

/-- The sign that a zero result carries: IEEE formats keep the source's (R270). -/
def zeroCode (f : Fmt) (neg : Bool) : Nat :=
  match f with
  | .ieee _ _ _ => if neg then f.negCode 0 else 0
  | .int _ _ | .b8 _ _ _ => 0

/-- Convert of R270. `draw` is the draw that RSR takes for this element (R273). -/
def convert (x : Num) (f : Fmt) (mode : Nat) (sat : Bool) (draw : Nat) : Nat :=
  match x with
  | .nan => f.nanCode
  | .inf neg => overflowCode f mode sat neg true
  | .fin neg m e =>
    if m = 0 then zeroCode f neg
    else
      match f with
      | .int bits signed =>
        let n := roundMag m e 0 mode neg draw false
        if n = 0 then 0
        else
          let top := if neg then (if signed then 2 ^ (bits - 1) else 0) else f.maxCode
          if top < n then overflowCode f mode sat neg false
          else if neg then f.negCode n else n
      | .ieee _ _ _ | .b8 _ _ _ =>
        let p := f.grid.1
        let emin := f.grid.2
        let q := gridExp m e p emin
        let n := roundMag m e q mode neg draw (p == 1)
        if n = 0 then zeroCode f neg
        else
          -- A carry out of the precision moves to the next exponent.
          let carried := n = 2 ^ p
          let n' := if carried then 2 ^ (p - 1) else n
          let q' := if carried then q + 1 else q
          let code := packCode n' q' p emin
          if f.maxCode < code then overflowCode f mode sat neg false
          else if neg then (if f.unsigned then (if f.extended && !sat then f.nanCode else 0) else f.negCode code)
          else code

/-- The value of a block scale code (R268). -/
def e8sValue (c : Nat) : Num := if c % 256 = 0xFF then .nan else .fin false 1 ((c % 256 : Nat) - 127)

/-! ### The stochastic stream (R274) -/

def goldenC : Nat := 0x9E3779B97F4A7C15

/-- Mix of R274. -/
def mix (z : Nat) : Nat :=
  let z := (z ^^^ (z >>> 30)) * 0xBF58476D1CE4E5B9 % 2 ^ 64
  let z := (z ^^^ (z >>> 27)) * 0x94D049BB133111EB % 2 ^ 64
  z ^^^ (z >>> 31)

/-- Output `n` of a logical station's stream. -/
def streamOutput (seed lid n : Nat) : Nat :=
  let s0 := mix (seed ^^^ (lid * goldenC % 2 ^ 64))
  mix ((s0 + (n + 1) * goldenC) % 2 ^ 64)

/-- Draw `d` after output index `q`: four 16-bit draws to an output. -/
def streamDraw (seed lid q d : Nat) : Nat := bitsOf (streamOutput seed lid (q + d / 4)) (16 * (d % 4)) 16

/-! ### Binary32 (R92, R280) -/

def f32 : Fmt := .ieee 24 (-126) 8
def bf16 : Fmt := .ieee 8 (-126) 8
def f16 : Fmt := .ieee 11 (-14) 5

def f32Value (x : Nat) : Num := f32.decode (x % 2 ^ 32)
def f32Nan : Nat := 0x7FC00000

/-- An exact value rounded to binary32, to nearest even. -/
def toF32 (x : Num) : Nat := convert x f32 modeRNE false 0

def f32IsNaN (x : Nat) : Bool := (f32Value x).isNaN

/-- A signalling NaN: the leading trailing bit is clear. -/
def f32IsSNaN (x : Nat) : Bool := f32IsNaN x && !x.testBit 22

/-- Round(x + y): the sign of an exact zero sum follows R92. -/
def f32Add (x y : Nat) : Nat := toF32 ((f32Value x).add (f32Value y))
def f32Sub (x y : Nat) : Nat := toF32 ((f32Value x).add (f32Value y).neg)
def f32Mul (x y : Nat) : Nat := toF32 ((f32Value x).mul (f32Value y))
def f32Fma (x y z : Nat) : Nat := toF32 (((f32Value x).mul (f32Value y)).add (f32Value z))

/-- A quotient to 32 more bits than either significand has, its last bit 1 if the division leaves a remainder; rounding
it to binary32 rounds the exact quotient. -/
def divNum : Num → Num → Num
  | .nan, _ | _, .nan => .nan
  | .inf _, .inf _ => .nan
  | .inf a, .fin b _ _ => .inf (a != b)
  | .fin a _ _, .inf b => .fin (a != b) 0 0
  | .fin a m1 e1, .fin b m2 e2 =>
    if m2 = 0 then (if m1 = 0 then .nan else .inf (a != b))
    else if m1 = 0 then .fin (a != b) 0 0
    else
      let k := 64 + Nat.log2 m2
      let q := (m1 <<< k) / m2
      let r := (m1 <<< k) % m2
      .fin (a != b) (2 * q + (if r = 0 then 0 else 1)) (e1 - e2 - k - 1)

/-- ⌊√n⌋ by bits, from the highest on. -/
def isqrtBits (n : Nat) : Nat → Nat → Nat
  | 0, r => r
  | k + 1, r => if (r + 2 ^ k) * (r + 2 ^ k) ≤ n then isqrtBits n k (r + 2 ^ k) else isqrtBits n k r

def isqrt (n : Nat) : Nat := isqrtBits n (Nat.log2 n / 2 + 1) 0

/-- A square root with enough bits and a sticky last bit. -/
def sqrtNum : Num → Num
  | .nan => .nan
  | .inf neg => if neg then .nan else .inf false
  | .fin neg m e =>
    if m = 0 then .fin neg 0 0
    else if neg then .nan
    else
      -- An even exponent, and at least 128 significant bits.
      let k := 128 + (e % 2).toNat
      let n := m <<< k
      let r := isqrt n
      .fin false (2 * r + (if r * r = n then 0 else 1)) ((e - k) / 2 - 1)

/-- `fmin` of R94: −0 is less than +0, one NaN yields the other operand, two yield the canonical NaN. -/
def f32Min (x y : Nat) : Nat :=
  if f32IsNaN x && f32IsNaN y then f32Nan
  else if f32IsNaN x then y % 2 ^ 32
  else if f32IsNaN y then x % 2 ^ 32
  else if (f32Value x).lt (f32Value y) then x % 2 ^ 32
  else if (f32Value y).lt (f32Value x) then y % 2 ^ 32
  else if x.testBit 31 then x % 2 ^ 32 else y % 2 ^ 32

def f32Max (x y : Nat) : Nat :=
  if f32IsNaN x && f32IsNaN y then f32Nan
  else if f32IsNaN x then y % 2 ^ 32
  else if f32IsNaN y then x % 2 ^ 32
  else if (f32Value x).lt (f32Value y) then y % 2 ^ 32
  else if (f32Value y).lt (f32Value x) then x % 2 ^ 32
  else if x.testBit 31 then y % 2 ^ 32 else x % 2 ^ 32

end Sys2Proof.Machine
end

