-- ==== Sys2Proof/Machine/Flags.lean ====
section
/-! DEFINITION. The scalar FP32 members with the exception flags that they set (R92 to R95). -/

namespace Sys2Proof.Machine

open Sys2Proof

/-- Bits of `k.fpflags` (R93). -/
def flagNV : BitVec 5 := 16
def flagDZ : BitVec 5 := 8
def flagOF : BitVec 5 := 4
def flagUF : BitVec 5 := 2
def flagNX : BitVec 5 := 1

/-- NV if an operand is a signalling NaN (R94). -/
def nvOf (x y : Nat) : BitVec 5 := if f32IsSNaN x || f32IsSNaN y then flagNV else 0

/-- Whether m · 2^e, rounded to 24 bits with an unbounded exponent, stays below the least normal value (R92). -/
def tinyAfter (neg : Bool) (m : Nat) (e : Int) : Bool :=
  let q := (Nat.log2 m : Int) + e - 23
  let n := roundMag m e q modeRNE neg 0 false
  decide (m ≠ 0) && decide ((Nat.log2 n : Int) + q < -126)

/-- An exact value rounded to binary32 with OF, UF and NX (R93). -/
def roundFlags (x : Num) : Nat × BitVec 5 :=
  match x with
  | .nan => (f32Nan, 0)
  | .inf neg => (toF32 (.inf neg), 0)
  | .fin neg m e =>
    let r := toF32 (.fin neg m e)
    match f32Value r with
    | .inf _ => (r, flagOF ||| flagNX)
    | v =>
      if m = 0 || (Num.fin neg m e).eq v then (r, 0)
      else (r, if tinyAfter neg m e then flagUF ||| flagNX else flagNX)

/-- The flags of an operation whose result is NaN though no operand is: an invalid operation (R93). -/
def invalidOf (x y : Nat) (v : Num) : BitVec 5 :=
  if v.isNaN && !f32IsNaN x && !f32IsNaN y then flagNV else 0

def fpBinary (f : Num → Num → Num) (x y : Nat) : Nat × BitVec 5 :=
  let v := f (f32Value x) (f32Value y)
  let r := roundFlags v
  (r.1, r.2 ||| nvOf x y ||| invalidOf x y v)

def fpAdd (x y : Nat) : Nat × BitVec 5 := fpBinary Num.add x y
def fpSub (x y : Nat) : Nat × BitVec 5 := fpBinary (fun a b => a.add b.neg) x y
def fpMul (x y : Nat) : Nat × BitVec 5 := fpBinary Num.mul x y

/-- DZ for a finite nonzero value divided by zero (R93). -/
def fpDiv (x y : Nat) : Nat × BitVec 5 :=
  let r := fpBinary divNum x y
  let dz : Bool := match f32Value x with
    | .fin _ m _ => m != 0 && (f32Value y).isZero
    | .nan | .inf _ => false
  (r.1, r.2 ||| if dz then flagDZ else 0)

/-- A square root is never tiny: NV and NX only (R94). -/
def fpSqrt (x : Nat) : Nat × BitVec 5 :=
  let v := sqrtNum (f32Value x)
  let r := roundFlags v
  (r.1, r.2 ||| nvOf x 0 ||| invalidOf x 0 v)

def fpMin (x y : Nat) : Nat × BitVec 5 := (f32Min x y, nvOf x y)
def fpMax (x y : Nat) : Nat × BitVec 5 := (f32Max x y, nvOf x y)

def boolNat (b : Bool) : Nat := if b then 1 else 0

def fpEq (x y : Nat) : Nat × BitVec 5 := (boolNat ((f32Value x).eq (f32Value y)), nvOf x y)

def nvAny (x y : Nat) : BitVec 5 := if f32IsNaN x || f32IsNaN y then flagNV else 0

def fpLt (x y : Nat) : Nat × BitVec 5 := (boolNat ((f32Value x).lt (f32Value y)), nvAny x y)
def fpLe (x y : Nat) : Nat × BitVec 5 :=
  (boolNat ((f32Value x).lt (f32Value y) || (f32Value x).eq (f32Value y)), nvAny x y)

/-- `fcvt.if` (R94): to the nearest even int64, clamped with NV. -/
def fpToInt (x : Nat) : Word × BitVec 5 :=
  match f32Value x with
  | .nan => (0, flagNV)
  | .inf neg => (if neg then wordOf (2 ^ 63) else wordOf (2 ^ 63 - 1), flagNV)
  | .fin neg m e =>
    let n := roundMag m e 0 modeRNE neg 0 false
    let v : Int := if neg then -(n : Int) else n
    if v < -(2 : Int) ^ 63 then (wordOf (2 ^ 63), flagNV)
    else if (2 : Int) ^ 63 - 1 < v then (wordOf (2 ^ 63 - 1), flagNV)
    else (wordOfInt v, if (Num.ofInt v).eq (.fin neg m e) then 0 else flagNX)

/-- `fcvt.fi` (R94). -/
def fpOfInt (a : Word) : Nat × BitVec 5 := roundFlags (Num.ofInt a.toInt)

end Sys2Proof.Machine
end

