-- ==== Sys2Proof/Machine/State.lean ====
section
/-! DEFINITION. The state of the package: strands, stations, memory, caches' bookkeeping, the task engine, what is in
flight between parties, and the platform; the outcome reasons; and the state right after reset. -/

namespace Sys2Proof.Machine

open Sys2Proof

/-! ### Outcome reasons -/

/-- Why a step faults. -/
inductive Fault where
  /-- Raised by a step whose turn names a station outside 0 to 639: the package has no such station (R9). Safe. DESIGN
CHOICE (log 61). -/
  | noSuchStation
  /-- Raised by the meaning of a scalar instruction when no strand is issuing: nothing but a turn of a station starts
  one, and such a state is reached by no step. Safe. -/
  | noIssuingStrand
  deriving DecidableEq, Repr

/-- Why a step is refused. -/
inductive Refusal where
  /-- Raised by an arm of `exec` for an instruction without a meaning yet. Safe. -/
  | notModelled (mnemonic : String)
  deriving DecidableEq, Repr

/-! ### Strands (R35 to R56) -/

/-- A segment descriptor (R119): base, byte limit and rights with the partition key. -/
structure SegDesc where
  base : Word
  limit : Word
  rights : BitVec 32
  deriving DecidableEq, Repr

/-- The name of a strand: its job and the virtual address of its context record (R35). -/
structure Key where
  job : Nat
  ctx : Nat
  deriving DecidableEq, Repr

/-- What the reader of a register or inbox word acquires with it: nothing, a remote fill's release with its scope,
station and context (R168), or a completion with the trap that its acquire takes and
whether a `fence.eng` waited for the command (R182, R337). -/
inductive Note where
  | plain
  | fill (scope : Scope) (station ctx : Nat)
  | completion (trap : Option (Nat × Word)) (waited : Bool)
  deriving DecidableEq, Repr, Inhabited

/-- What a long-latency operation brings at its completion (R65, R66). -/
inductive LlResult where
  | value (v : Word) (flags : BitVec 5)
  | poison (va : Nat)
  | pending
  deriving DecidableEq, Repr

/-- An outstanding long-latency operation: its destination, its instruction's address, the window instructions that
issued after it, what it brings, and its place in program order. -/
structure LlOp where
  dest : Option (Fin 16)
  addr : Word
  issued : Nat
  result : LlResult
  stamp : Nat
  deriving DecidableEq, Repr

/-- What a parked strand waits for (R50). -/
inductive Wait where
  | reg (n : Fin 16)
  | feWord (pa : Nat) (full : Bool)
  | ctxWord (ctx : Nat) (n : Fin 16) (full : Bool)
  | inbox
  | stationQueue (pid q : Nat) (push : Bool)
  | link (pid : Nat) (east push : Bool)
  | outLane (ctx : Nat) (high : Bool)
  | command (pid engine : Nat)
  | longLatency
  | drain
  | ctxLine (line : Nat)
  | pinLine (line : Nat)
  | queue (pa : Nat) (put : Bool)
  | park
  | gang
  | halt
  | double
  deriving DecidableEq, Repr

/-- What a strand waits for in its slot, without parking: N = 0 (R134, R139), or also the strand's engine commands
(R118, R209), or the write-back of a context that it flushed (R149). DEDUCED (log 26). -/
inductive Hold where
  | none
  | drain
  | engines
  | flush (ctx : Nat)
  deriving DecidableEq, Repr

/-- Where a strand is (R43). -/
inductive Place where
  | slotted (slot : Nat)
  | waiting
  | parked
  | stored
  | activating
  | held
  | moving (target : Nat)
  | ended
  deriving DecidableEq, Repr

/-- The full/empty operations (R111, R113). -/
inductive FeOp where
  | ldf | ldfe | stef | stf | probe | set | clr | wait | waite
  deriving DecidableEq, Repr

/-- The operations of atomics (R116). -/
inductive AmoOp where
  | swap | add | and | or | xor | min | max | minz | maxz | cas | fadd | inc
  deriving DecidableEq, Repr

/-- The lineage instructions (R250). -/
inductive LinOp where
  | fork | forkf | flat | rebk | rebd | del | cmt | info
  deriving DecidableEq, Repr

/-- One access of a strand, with the operand values captured at its issue (R52). -/
inductive MemReq where
  | fetch
  | load (va size : Nat) (signed : Bool)
  | store (va size : Nat) (v : Word)
  | fe (op : FeOp) (va : Nat) (v : Word) (scope : Scope)
  | amo (op : AmoOp) (va size : Nat) (b e : Word) (ord : MemOrd) (scp : AScope)
  | segld (n : Seg) (va : Nat)
  | segst (va : Nat) (d : SegDesc)
  | rcx (va idx : Nat)
  | wcx (va idx : Nat) (v : Word)
  | smap (so va len : Nat)
  | sflush (op so len : Nat)
  | join (cell : Nat)
  | tail (record : Nat)
  | gdec (record : Nat)
  | qput (q : Nat) (v : Word)
  | qtake (q : Nat)
  | lineage (op : LinOp) (h x : Word)
  deriving DecidableEq, Repr

/-- An access that met a page that is not present (R52): the access, the register its result goes to, whether it is
a long-latency operation, the page fault, whether the PAGE record has been sent and the wake has come, and its place in
program order, and the window and the destination's full bit as they were before its issue (R65). An access that a PIN line's home
refused with RETRY stands here too, with both already true (R65, R166); it is reissued, and until then its instruction has not been
issued (R102). DEDUCED (log 28). -/
structure Dropped where
  req : MemReq
  dest : Reg
  longLatency : Bool
  va : Nat
  kind : Nat
  size : Nat
  addr : Word
  told : Bool
  woken : Bool
  stamp : Nat
  retried : Bool
  window : Nat
  wasFull : Bool
  deriving DecidableEq, Repr

/-- A POISON that has been delivered and not yet taken (R66, R109): the operation's address, the word's address and
the count of instructions that issued after it, its place in program order, and whether the count still grows, as that of
a refused store does until the trap (R109). -/
structure Poison where
  opc : Word
  va : Word
  count : Nat
  stamp : Nat
  grows : Bool
  deriving DecidableEq, Repr

/-- Where a completion stands that carries a trap: a register, a word of an inbox lane, or the strand's pending
engine trap. -/
inductive AcquireSrc where
  | reg (n : Fin 16)
  | lane (high : Bool) (slot : Nat)
  | pending
  deriving DecidableEq, Repr

/-- A trap that waits for N = 0 (R66), and the completion whose trap it is, if its acquire raised it (R182, R380). -/
structure PendTrap where
  cause : Nat
  code : Nat
  tval : Word
  epc : Word
  addr : Word
  src : Option AcquireSrc
  deriving DecidableEq, Repr

/-- One inbox lane (R36): a ring of 8 words with head and count, and beside each word what its reader acquires. -/
structure Lane where
  words : Vector Word 8
  notes : Vector Note 8
  head : Nat
  count : Nat
  deriving DecidableEq, Repr

/-- A strand: the fields of its context record (R36) and where it stands. -/
structure Strand where
  key : Key
  g : Vector Word 16
  mask : BitVec 16
  mode : BitVec 16
  pc : Word
  loopStart : Word
  loopEnd : Word
  loopCount : Word
  /-- 0x0A8: outstanding long-latency operations in program order, window, outstanding engine commands. -/
  ops : List LlOp
  window : Nat
  engines : Nat
  fa : Word
  fb : Word
  fc : Word
  fs : Word
  task : Word
  joinOrParent : Word
  roundPos : Word
  fpflags : BitVec 5
  rmode : BitVec 3
  outTarget : Word
  qbind : BitVec 8
  inHigh : Lane
  inLow : Lane
  segs : Vector SegDesc 8
  epc : Word
  cause : Word
  tval : Word
  savedMode : BitVec 16
  opc : Word
  lacount : Word
  engTrap : Word
  engTval : Word
  /-- Beside the record: what the reader of each register acquires (R168, R124). -/
  notes : Vector Note 16
  place : Place
  parked : Option Wait
  /-- Order of arrival in its present state (R45, R49). -/
  since : Nat
  /-- The station that runs or last activated it (R41). -/
  station : Nat
  hold : Hold
  /-- Context lines, 0 to 15, that have arrived at the station (R44), and those an error has poisoned (R360). -/
  lines : List Nat
  badLines : List Nat
  /-- Instructions issued so far: the program order of operations. -/
  issues : Nat
  dropped : Option Dropped
  trapPend : Option PendTrap
  poison : List Poison
  /-- Sub-word or full/empty stores whose refusal is on its way (R109); the count takes in the store's own issue. -/
  refusals : List Poison
  /-- Stop at the next issue boundary: `ctxflush` (R149) or pre-emption (R215). -/
  stopping : Bool
  /-- The write-back of its record met a page that is not present (R45). -/
  blocked : Bool
  deriving DecidableEq, Repr

/-! ### Memory -/

/-- Physical memory: the newest value of every cell, the 8-byte words whose full/empty bit is 1 and those whose check
code marks them poisoned (R359), by word address. -/
structure Mem where
  cells : List Host.Cell
  full : List Nat
  poison : List Nat
  deriving DecidableEq, Repr

/-- A line in an L2 slice (R379): virtual line of a job, the physical line behind it, the attributes of its page, and
for a line that a task with a write log wrote, the task and what HBM held before (R364, R365); when the slice took the line, while
it may yet replace another one for its place; and when the line was last used. -/
structure L2Line where
  job : Nat
  vline : Nat
  pline : Nat
  ctx : Bool
  pin : Bool
  dirty : Bool
  task : Option Nat
  old : BitVec 512
  oldFull : BitVec 8
  oldPoison : BitVec 8
  place : Option Nat
  used : Nat
  deriving DecidableEq, Repr

/-- A translation table entry that a die's memory port has cached (R150). -/
structure TlbEntry where
  die : Nat
  job : Nat
  directory : Bool
  index : Nat
  entry : Word
  deriving DecidableEq, Repr

/-- The scope record of a line (R164). -/
structure ScopeRec where
  job : Nat
  vline : Nat
  scope : Scope
  station : Nat
  ctx : Nat
  deriving DecidableEq, Repr

/-- A PIN line that a station holds (R166). -/
structure PinHold where
  job : Nat
  vline : Nat
  station : Nat
  deriving DecidableEq, Repr

/-! ### Engine commands -/

/-- A command as its push captured it (R19): the operation and words, the pushing strand, its task and station, the
register values of w3 to w7, its segments, mode and rounding mode. -/
structure Cmd where
  op : Instr
  tcw : Tcw
  job : Nat
  ctx : Nat
  task : Nat
  issuer : Nat
  station : Nat
  vals : Vector Word 5
  segs : Vector SegDesc 8
  rmode : BitVec 3
  sup : Bool
  /-- The graph node that the task engine runs, if it pushed the command (R212). -/
  node : Option Nat
  seq : Nat
  /-- The address of its tile command word. -/
  addr : Word
  /-- A page that the command waits for: address, kind and size (R193). -/
  page : Option (Nat × Nat × Nat)
  /-- The draws that the command has reserved: seed, logical station and output index (R275, R276). -/
  draws : Option (Nat × Nat × Nat)
  /-- The node that the command has made BUSY, once its checks have passed (R254). -/
  begun : Option Nat
  /-- The pinned line that refused the command with RETRY, and its place in the order of arrival (R166). -/
  retry : Option (Nat × Nat)
  /-- Shape records that the command has read and keeps, with their addresses (R306). -/
  kept : List (Nat × List Byte)
  /-- What the command has read of its sources by the time it makes its node BUSY, with their addresses (R254). -/
  sources : List (Nat × List Byte)
  deriving DecidableEq, Repr

/-- A command that has ended and whose completion is not yet delivered (R77), with the trap its acquire takes. -/
structure Completion where
  cmd : Cmd
  status : Nat
  result : Nat
  trap : Option (Nat × Word)
  deriving DecidableEq, Repr

/-- A signal word that an engine has yet to store full (R186, R188, R320), with the recorded station. -/
structure Signal where
  cmd : Cmd
  va : Nat
  value : Word
  station : Nat
  lantern : Bool
  deriving DecidableEq, Repr

/-- The bookkeeping of a stash entry (R172): mapping, layout, validity, byte-dirty mask, and the full/empty and poison
bits of its words. -/
structure StashEntry where
  index : Nat
  mapped : Option (Nat × Nat)
  valid : Bool
  dirty : BitVec 256
  span : Option (Fin 8)
  full : BitVec 32
  poison : BitVec 32
  /-- The task whose writes made the entry dirty (R365). -/
  writer : Nat
  /-- The physical lines that filled it, where they are memory (R170). -/
  plines : List (Option Nat)
  deriving DecidableEq, Repr

/-! ### Copies in hand (R183 to R195) -/

/-- How a copy engine carries out a command that it has checked: the command itself or the one that its node embeds; the
parts that are still to be performed, in what its result counts; how much is done, and the bytes before the first
poisoned word; whether it prefetches mapped entries; its stash destination, its
length, the bytes of one part and how far its start lies behind a part's boundary; and its targets. -/
structure CopyPlan where
  eff : Cmd
  left : List Nat
  done : Nat
  bad : Option Nat
  prefetch : Bool
  dest : Option (Nat × Nat)
  total : Nat
  step : Nat
  skew : Nat
  targets : List Nat
  deriving DecidableEq, Repr

/-- A command that the copy engine has started; it has a plan once its checks have passed. -/
structure CopyRun where
  cmd : Cmd
  plan : Option CopyPlan
  deriving DecidableEq, Repr

/-! ### Stations -/

/-- A line of the L1 data cache (R379): 32 bytes of a job's memory, by virtual and physical line, as its home gave them. -/
structure L1Line where
  job : Nat
  vline : Nat
  pline : Nat
  data : BitVec 256
  deriving DecidableEq, Repr

/-- One word of a link queue with its sender's partition key (R122). -/
structure LinkWord where
  word : Word
  cap : BitVec 16
  deriving DecidableEq, Repr

/-- A station (R12). -/
structure Station where
  cycle : Word
  pkey : BitVec 16
  slots : Vector (Option Key) 16
  /-- The slot that issued most recently, and the strands that issued in the last three cycles (R47). -/
  lastSlot : Nat
  recent : List (Option Key)
  activations : List Key
  westIn : List LinkWord
  eastIn : List LinkWord
  queues : Vector (List Word) 8
  commands : Vector (List Cmd) 9
  /-- Commands that the copy engine has started, at most eight (R183). -/
  copies : List CopyRun
  stash : List Host.Cell
  entries : List StashEntry
  /-- Words of `acc0` to `acc3` that are not zero, by 4096 × n + 64 × row + column, and the task that holds the matrix
  engine (R282). -/
  acc : List (Nat × BitVec 32)
  accOwner : Option (Nat × Nat)
  l1 : List L1Line
  deriving DecidableEq, Repr

/-! ### What is in flight -/

/-- A wake on its way (R51); without a reason it wakes any park (R209, R213). -/
structure Wake where
  key : Key
  reason : Option Wait
  supervisor : Bool
  deriving DecidableEq, Repr

/-- A word on its way to an inbox lane (R123). -/
structure Message where
  key : Key
  high : Bool
  word : Word
  cap : BitVec 16
  sender : Key
  deriving DecidableEq, Repr

/-- A word on its way over a neighbour link (R122). -/
structure LinkMsg where
  pid : Nat
  east : Bool
  word : LinkWord
  sender : Key
  deriving DecidableEq, Repr

/-- A graph-node decrement on its way (R199), and the completion that it delivers, if a command's mode 3 sent it (R16, R77). -/
structure Decrement where
  job : Nat
  record : Nat
  party : Nat
  station : Nat
  ctx : Nat
  done : Option Completion
  deriving DecidableEq, Repr

/-- A store to a multicast page on its way back through the spine of plane 0 (R312, R313): the issuer's own copy is written
when it returns. Its strand, station and task, the address of its instruction and that instruction's place in program order,
the cell, the size, the value, whether it is an `stf` at system scope, and the capability that it carries (R315). -/
structure Multicast where
  key : Key
  station : Nat
  task : Nat
  opc : Word
  stamp : Nat
  va : Nat
  pa : Nat
  size : Nat
  value : Word
  full : Bool
  cap : BitVec 16
  deriving DecidableEq, Repr

/-- A write to a die's management block that the device has yet to act on (R363): its offset, its size in bytes and its
value. -/
structure MgmtWrite where
  die : Nat
  off : Nat
  size : Nat
  value : Word
  deriving DecidableEq, Repr

/-- A supervisor-queue event (R143): its die, and the record's fields but the sequence. -/
structure SupEvent where
  die : Nat
  code : Nat
  station : Nat
  job : Nat
  ctx : Nat
  addr : Word
  extra : List Word
  deriving DecidableEq, Repr

/-! ### Turns: which party moves next -/

/-- What an event row is about: a unit (a station, die, port or device), a job, an address, an index into the list of
what is in flight, and further values. -/
structure EventArg where
  unit : Nat
  job : Nat
  addr : Nat
  index : Nat
  data : List Nat
  deriving DecidableEq, Repr, Inhabited

/-- The work latch: for whom the instruction in hand runs. A scalar instruction or the push of a tile command runs
for a strand, with its word; the execution of a tile command runs for the engine of a station or die; an event has
its argument. DESIGN CHOICE (log 8). -/
inductive Work where
  | idle
  | strand (pid slot : Nat) (key : Key) (word : IWord) (tcw : Option Tcw)
  | engine (unit : Nat)
  | event (arg : EventArg)
  deriving DecidableEq, Repr, Inhabited

/-- A turn: one cycle of a station's clock, the head command of an engine's queue, or an event. -/
inductive Turn where
  | issue (pid : Nat)
  | engine (op : Instr) (unit : Nat)
  | event (op : Instr) (arg : EventArg)
  deriving DecidableEq, Repr, Inhabited

/-! ### The task engines (R196 to R222) -/

/-- A task on a ready list (R201): its die, priority, ticket, whether `tail` put it at the head, and whether it resumes
from its save area (R215). -/
structure ReadyTask where
  job : Nat
  record : Nat
  die : Nat
  prio : Nat
  ticket : Nat
  head : Bool
  resume : Bool
  deriving DecidableEq, Repr

/-- A gang in placement (R211): its priority, gang ticket and the stations reserved for its groups so far. -/
structure PlacingGang where
  job : Nat
  record : Nat
  prio : Nat
  ticket : Nat
  reserved : List Nat
  resume : Bool
  deriving DecidableEq, Repr

/-- Where a task stands between its dispatch and its retirement: it runs, it stops for a pre-emption (R215), it stops for
a checkpoint (R218), or its state is saved. -/
inductive TaskPhase where
  | running
  | preempting
  | checkpointing
  | preempted
  deriving DecidableEq, Repr

/-- A dispatched task: its kind, die and ticket; its `tail` records in issue order; the stations it has used; its save
area; its laps, the number of laps between checkpoints (0 for class D) and the strands that have yielded in this lap
(R218); its strands as the last checkpoint left them, if it has taken one, and the logical station of each strand of a
saved task (R10, R215); whether its writes have left the package since
its boundary, whether it needed a write-log entry and none was free, the lines whose errors rolled it back (R367), and the
lines that another task wrote after it (R368); by how much it has raised the job's count of free pages (R242, R252);
and the status with which a node's command ended (R212). -/
structure Task where
  job : Nat
  record : Nat
  kind : Nat
  die : Nat
  prio : Nat
  ticket : Nat
  gang : Bool
  tails : List Nat
  stations : List Nat
  save : Nat
  lapsN : Nat
  laps : Nat
  lapYields : List Nat
  saved : Option (List Strand)
  savedTails : List Nat
  homes : List (Nat × Nat)
  outside : Bool
  noEntry : Bool
  retried : List Nat
  others : List Nat
  pages : Int
  ended : Option Nat
  phase : TaskPhase
  deriving DecidableEq, Repr

/-- A placement cursor of a domain (R201). -/
structure Cursor where
  job : Nat
  domain : Nat
  position : Nat
  deriving DecidableEq, Repr

/-- A user queue's hardware slots (R221): the queue in each, and which slot was served when. -/
structure QueueSlots where
  slots : List (Nat × Nat)
  next : Nat
  clock : Nat
  deriving DecidableEq, Repr

/-- A collective command that waits for the commands of the other members, its group and its number there (R318); once it
has started, the pieces that are still to land, and the bytes before the first poisoned word (R320, R322). -/
structure Collective where
  cmd : Cmd
  group : Nat
  ordinal : Nat
  left : Option (List Nat)
  bad : Option Nat
  deriving DecidableEq, Repr

/-- A scalar lineage member under way (R245): the strand with its task and station, its instruction's address and place in
program order, the operation with its operands, and the node that it has made BUSY (R229). -/
structure LinRun where
  key : Key
  task : Nat
  station : Nat
  addr : Word
  stamp : Nat
  op : LinOp
  h : Word
  x : Word
  node : Nat
  deriving DecidableEq, Repr

/-- A segment register that the loader has bound to a section of an image, for the strands of one of its tasks (R34). -/
structure Binding where
  job : Nat
  record : Nat
  seg : Nat
  base : Nat
  size : Nat
  text : Bool
  deriving DecidableEq, Repr

/-- A command that a die's Sconce has started (R335, R336): the next slot, the slots sampled so far, the lowest slot that
failed with its code and detail, the token word that it has yet to store (R340), and the shape record of the logits as it read
it at its start (R306). -/
structure Sampling where
  cmd : Cmd
  next : Nat
  good : Nat
  fail : Option (Nat × Nat × Nat)
  token : Option (Nat × Word)
  record : List Byte
  deriving DecidableEq, Repr

/-- A rollback that an uncorrectable error asks for (R364, R241): the task, the address of the line, and the context
whose access found the error. -/
structure RollbackReq where
  job : Nat
  record : Nat
  line : Nat
  ctx : Nat
  deriving DecidableEq, Repr

/-! ### The core of the package -/

/-- Everything that strands and engines act on. -/
structure Core where
  strands : List Strand
  stations : List (Nat × Station)
  mem : Mem
  l2 : List L2Line
  /-- The uses of L2 lines so far, which tell the least recently used one (R379). -/
  uses : Nat
  tlb : List TlbEntry
  scopes : List ScopeRec
  pins : List PinHold
  /-- The lines that the tile fetch of the command in hand pins in L2 (R285): job and virtual line. -/
  fetched : List (Nat × Nat)
  /-- Live join cells (R207) and the group descriptors that `cl.grp` made (R321), freed when the job ends. -/
  joinCells : List Key
  groups : List Key
  /-- Jobs that the device has taken as live (R137), and those whose cancel every station has marked (R213). -/
  jobs : List Nat
  cancelled : List Nat
  bindings : List Binding
  ready : List ReadyTask
  placing : List PlacingGang
  tasks : List Task
  cursors : List Cursor
  tickets : Vector Nat 4
  gangTicket : Nat
  queueSlots : QueueSlots
  /-- Round-robin position of each die engine over its die's stations (R18), by 8 × die + engine code. -/
  turns : List (Nat × Nat)
  wakes : List Wake
  messages : List Message
  linkMsgs : List LinkMsg
  decrements : List Decrement
  /-- Multicast stores on their way back to this member, in the order of the spine (R313). -/
  multicasts : List Multicast
  completions : List Completion
  signals : List Signal
  sampling : List Sampling
  rollbacks : List RollbackReq
  collectives : List Collective
  /-- Scalar lineage members that have begun and not yet ended (R245). -/
  members : List LinRun
  /-- Supervisor-queue events held for ring space, in arrival order (R141). -/
  held : List SupEvent
  /-- Writes to the management blocks that the device has yet to act on (R363), in order. -/
  mgmtWrites : List MgmtWrite
  /-- Slots of launch windows whose seal byte has been written (R220): die and slot; pending user queues that hold no
  hardware slot (R221). -/
  seals : List (Nat × Nat)
  doorbells : List Nat
  /-- The seal bytes of user-queue slots whose record was rejected and is not parsed again yet (R221). -/
  rejected : List Nat
  /-- Those among them that the host has written again, before the doorbell of their queue (R221). -/
  rewritten : List Nat
  /-- The free-value counter: how many free values have been taken. -/
  freeNo : Nat
  /-- The counter that orders arrivals in FIFO states (R45, R49). -/
  seq : Nat
  work : Work
  deriving DecidableEq, Repr

/-! ### The platform (R358 to R377) -/

/-- One die's management block (R363), and the memory port's error counts of the running scrub period (R370). -/
structure DieMgmt where
  capacityA : Nat
  capacityB : Nat
  corrected : Nat
  uncorrected : Nat
  release : Word
  mappedA : BitVec 16
  mappedB : BitVec 16
  scrubHours : Nat
  power : Nat
  throttle : Bool
  supQueue : Nat
  window : Nat
  userTable : Nat
  jobTable : Nat
  /-- By 16 × (stack mod 2) + layer: corrected errors in the period; lines found uncorrectable; layers in phase 1. -/
  periodCorrected : List (Nat × Nat)
  periodBad : List (Nat × Nat)
  softLayers : List Nat
  deriving DecidableEq, Repr

/-- Firmware, identity and fuses (R373 to R375). -/
structure Firmware where
  /-- In recovery mode only configuration space and the mailbox answer (R374). -/
  recovery : Bool
  version : Nat
  bodyDigest : Nat
  /-- Fuses: the four key digests, their revocation bits, the minimum security version. -/
  keyDigests : List Nat
  revoked : BitVec 4
  minVersion : Nat
  deriving DecidableEq, Repr

/-- The responder's SPDM state (R375): how far the connection has been negotiated, and the responses given so far. -/
structure Spdm where
  version : Bool
  capabilities : Bool
  algorithm : Option Nat
  responses : List (List Nat)
  deriving DecidableEq, Repr

/-- The platform. -/
structure Platform where
  mgmt : Vector DieMgmt 4
  firmware : Firmware
  spdm : Spdm
  /-- Power islands, 128 of each die, whose clocks firmware has lowered, and whether the module has stopped every island (R377). -/
  throttled : List Nat
  stopped : Bool
  /-- Devices unreachable on every plane (R316), fabric links out of service (R308). -/
  lostDevices : List Nat
  /-- The device's own fabric number, 0 to 16,383, which the supervisor sets (R307). -/
  deviceNo : Nat
  failedLinks : List Nat
  /-- The mailbox event log's Memory Module Event Records: stack and layer (R370). -/
  eventLog : List (Nat × Nat)
  deriving DecidableEq, Repr

/-- The state of the machine, with the turns that are fixed so far and the number of turns taken. -/
structure State where
  core : Core
  plat : Platform
  schedule : List Turn
  turnNo : Nat
  deriving DecidableEq, Repr

end Sys2Proof.Machine

namespace Sys2Proof.Config

open Sys2Proof.Machine

/-- The turn that the package takes as its `n`-th when none is fixed: which party moves next is not part of the
architecture (R48, R171), so no proof can see it. DESIGN CHOICE (log 5). -/
opaque freeTurn : Nat → Turn

end Sys2Proof.Config

namespace Sys2Proof.Machine

open Sys2Proof

/-! ### Reset -/

def SegDesc.zero : SegDesc := ⟨0, 0, 0⟩

def Lane.empty : Lane := ⟨Vector.replicate 8 0, Vector.replicate 8 .plain, 0, 0⟩

/-- A station at its reset: every queue empty, every stash entry unmapped and zero (R173), the accumulators at the
value the log names, `k.pkey` 0 (R129). -/
def Station.reset : Station where
  cycle := 0
  pkey := 0
  slots := Vector.replicate 16 none
  lastSlot := 15
  recent := []
  activations := []
  westIn := []
  eastIn := []
  queues := Vector.replicate 8 []
  commands := Vector.replicate 9 []
  copies := []
  stash := []
  entries := []
  acc := []
  accOwner := none
  l1 := []

/-- Memory with nothing listed: every byte reads as `Config.memoryByte`, every word is empty and not poisoned. -/
def Mem.reset : Mem := ⟨[], [], []⟩

/-- DESIGN CHOICE (log 2). -/
def Core.reset : Core where
  strands := []
  stations := []
  mem := Mem.reset
  l2 := []
  uses := 0
  tlb := []
  scopes := []
  pins := []
  fetched := []
  joinCells := []
  groups := []
  jobs := []
  cancelled := []
  bindings := []
  ready := []
  placing := []
  tasks := []
  cursors := []
  tickets := Vector.replicate 4 0
  gangTicket := 0
  queueSlots := ⟨[], 0, 0⟩
  turns := []
  wakes := []
  messages := []
  linkMsgs := []
  decrements := []
  multicasts := []
  completions := []
  signals := []
  sampling := []
  rollbacks := []
  collectives := []
  members := []
  held := []
  mgmtWrites := []
  seals := []
  doorbells := []
  rejected := []
  rewritten := []
  freeNo := 0
  seq := 0
  work := .idle

/-- R363: capacities of 0x10_0000_0000 bytes and a scrub period of 24 hours; the addresses that firmware configures
are 0 until it does. DESIGN CHOICE (log 2). -/
def DieMgmt.reset : DieMgmt where
  capacityA := 0x1000000000
  capacityB := 0x1000000000
  corrected := 0
  uncorrected := 0
  release := 0
  mappedA := 0
  mappedB := 0
  scrubHours := 24
  power := 0
  throttle := false
  supQueue := 0
  window := 0
  userTable := 0
  jobTable := 0
  periodCorrected := []
  periodBad := []
  softLayers := []

def Platform.reset : Platform where
  mgmt := Vector.replicate 4 DieMgmt.reset
  firmware := ⟨true, 0, 0, (List.range 4).map Config.fusedDigest, 0, 0⟩
  spdm := ⟨false, false, none, []⟩
  throttled := []
  stopped := false
  lostDevices := []
  deviceNo := 0
  failedLinks := []
  eventLog := []

/-- The machine right after reset: no strand, no task, nothing in flight, memory with nothing listed. -/
def State.reset : State := ⟨Core.reset, Platform.reset, [], 0⟩

end Sys2Proof.Machine
end

