-- ==== Sys2Proof/Machine/Memory.lean ====
section
/-! DEFINITION. Physical memory in its canonical form: reading and writing bytes and words, full/empty bits (R106) and
poison (R359, R361). -/

namespace Sys2Proof.Machine

open Sys2Proof

/-- The byte at an address of a list of cells. -/
def cellsGet : List Host.Cell → Nat → Byte
  | [], _ => Config.memoryByte
  | (x, y) :: rest, a => if a = x then y else if a < x then Config.memoryByte else cellsGet rest a

/-- A list of cells with one byte written; the byte that an unlisted address reads as is not listed. -/
def cellsSet : List Host.Cell → Nat → Byte → List Host.Cell
  | [], a, b => if b = Config.memoryByte then [] else [(a, b)]
  | (x, y) :: rest, a, b =>
    if a < x then (if b = Config.memoryByte then (x, y) :: rest else (a, b) :: (x, y) :: rest)
    else if a = x then (if b = Config.memoryByte then rest else (a, b) :: rest)
    else (x, y) :: cellsSet rest a b

/-- Whether the cells rise strictly from a lower bound on and list no byte that reads the same unlisted. -/
def cellsFrom : Nat → List Host.Cell → Bool
  | _, [] => true
  | lo, (x, y) :: rest => decide (lo ≤ x) && decide (y ≠ Config.memoryByte) && cellsFrom (x + 1) rest

/-- Membership in a strictly rising list of numbers. -/
def risingHas : List Nat → Nat → Bool
  | [], _ => false
  | x :: rest, a => if a = x then true else if a < x then false else risingHas rest a

/-- A strictly rising list with a number put in or taken out. -/
def risingSet : List Nat → Nat → Bool → List Nat
  | [], a, v => if v then [a] else []
  | x :: rest, a, v =>
    if a < x then (if v then a :: x :: rest else x :: rest)
    else if a = x then (if v then x :: rest else rest)
    else x :: risingSet rest a v

def risingFrom : Nat → List Nat → Bool
  | _, [] => true
  | lo, x :: rest => decide (lo ≤ x) && risingFrom (x + 1) rest

/-- The canonical form of memory. -/
def Mem.wf (m : Mem) : Bool := cellsFrom 0 m.cells && risingFrom 0 m.full && risingFrom 0 m.poison

/-- The byte at a physical address. -/
def Mem.byte (m : Mem) (a : Nat) : Byte := cellsGet m.cells a

/-- Memory with one byte written. -/
def Mem.setByte (m : Mem) (a : Nat) (b : Byte) : Mem := { m with cells := cellsSet m.cells a b }

/-- The `n` bytes from an address on. -/
def Mem.bytes (m : Mem) (a : Nat) : Nat → List Byte
  | 0 => []
  | n + 1 => m.byte a :: Mem.bytes m (a + 1) n

/-- Memory with consecutive bytes written from an address on. -/
def Mem.setBytes (m : Mem) (a : Nat) : List Byte → Mem
  | [] => m
  | b :: rest => Mem.setBytes (m.setByte a b) (a + 1) rest

/-- The little-endian number of `n` bytes at an address (R1). -/
def Mem.read (m : Mem) (a n : Nat) : Nat := leNat (m.bytes a n)

/-- Memory with the low `n` bytes of a number stored at an address. -/
def Mem.write (m : Mem) (a n x : Nat) : Mem := m.setBytes a (leBytes n x)

def Mem.read64 (m : Mem) (a : Nat) : Word := wordOf (m.read a 8)
def Mem.write64 (m : Mem) (a : Nat) (w : Word) : Mem := m.write a 8 w.toNat

/-- The full/empty bit of the aligned word that holds an address (R106). -/
def Mem.isFull (m : Mem) (a : Nat) : Bool := risingHas m.full (a / 8 * 8)
def Mem.setFull (m : Mem) (a : Nat) (v : Bool) : Mem := { m with full := risingSet m.full (a / 8 * 8) v }

/-- The poison bit of the aligned word that holds an address (R359). -/
def Mem.isPoison (m : Mem) (a : Nat) : Bool := risingHas m.poison (a / 8 * 8)
def Mem.setPoison (m : Mem) (a : Nat) (v : Bool) : Mem := { m with poison := risingSet m.poison (a / 8 * 8) v }

/-- Whether any word of the 64-byte line of an address is poisoned. -/
def Mem.linePoison (m : Mem) (a : Nat) : Bool :=
  (List.range 8).any fun k => m.isPoison (a / 64 * 64 + 8 * k)

/-- Whether a word other than the address's own is poisoned in its line (R361). -/
def Mem.othersPoison (m : Mem) (a : Nat) : Bool :=
  (List.range 8).any fun k => a / 64 * 64 + 8 * k != a / 8 * 8 && m.isPoison (a / 64 * 64 + 8 * k)

/-- Every word of a line marked poisoned or not. -/
def Mem.setLinePoison (m : Mem) (a : Nat) (v : Bool) : Mem :=
  (List.range 8).foldl (fun m k => m.setPoison (a / 64 * 64 + 8 * k) v) m

/-- The words of `[a, a + n)` that are poisoned, lowest first. -/
def Mem.poisonIn (m : Mem) (a n : Nat) : List Nat :=
  m.poison.filter fun w => decide (w < a + n) && decide (a < w + 8)

/-- The data, full/empty bits and poison bits of a line. -/
def Mem.lineData (m : Mem) (a : Nat) : BitVec 512 := BitVec.ofNat 512 (m.read (a / 64 * 64) 64)
def Mem.lineFull (m : Mem) (a : Nat) : BitVec 8 :=
  BitVec.ofNat 8 ((List.range 8).foldl (fun x k => if m.isFull (a / 64 * 64 + 8 * k) then x + 2 ^ k else x) 0)
def Mem.linePoisonBits (m : Mem) (a : Nat) : BitVec 8 :=
  BitVec.ofNat 8 ((List.range 8).foldl (fun x k => if m.isPoison (a / 64 * 64 + 8 * k) then x + 2 ^ k else x) 0)

/-- A line put back as it was. -/
def Mem.restoreLine (m : Mem) (a : Nat) (d : BitVec 512) (f p : BitVec 8) : Mem :=
  (List.range 8).foldl
    (fun m k => (m.setFull (a / 64 * 64 + 8 * k) (f.getLsbD k)).setPoison (a / 64 * 64 + 8 * k) (p.getLsbD k))
    (m.write (a / 64 * 64) 64 d.toNat)

end Sys2Proof.Machine
end

