-- ==== Sys2Proof/Machine/Ops.lean ====
section
/-! DEFINITION. The named operations over the state: strands and stations, the job record, the supervisor queue, wakes,
parking and slots, taking a trap and returning from one; and how an attempt that does not complete leaves the state. -/

namespace Sys2Proof.Machine

open Sys2Proof

abbrev Outcome := Host.Outcome State Fault Refusal

/-- Why the attempt in hand does not run on: nothing of the attempt itself remains (R50, R65, R74). -/
inductive Stop where
  /-- The strand parks (R50). -/
  | park (w : Wait)
  /-- The strand waits in its slot and reissues (R118, R134). -/
  | hold (h : Hold)
  /-- A precise trap (R138): cause, code, `k.tval`, and whether `k.epc` is the next instruction. -/
  | trap (cause code : Nat) (tval : Word) (next : Bool)
  /-- A trap that the acquire of a completion takes (R182, R337, R380): where the completion stands, cause, `k.tval`. -/
  | acquired (src : AcquireSrc) (cause : Nat) (tval : Word)
  /-- A page of a job that is not present: address, kind (1 R, 2 W, 3 R then W, 4 X) and size (R52, R144). -/
  | page (job va kind size : Nat)
  /-- The strand migrates to a station; after `migrate` itself it resumes at the next instruction (R54, R127). -/
  | migrate (target : Nat) (next : Bool)
  /-- A full/empty store or a sub-word store is refused at its home: the strand goes on (R109). -/
  | refuse (va : Nat)
  /-- An engine's command ends with a status and result, with the trap that its acquire takes, and with what the memory ports have
  read of the translation tables, which stays (R223). -/
  | status (code result : Nat) (trap : Option (Nat × Word)) (tlb : List TlbEntry)
  /-- An engine's command reserves draws and then goes on (R275). -/
  | reserve (n : Nat)
  /-- A lineage command has passed its checks: it makes its node BUSY, whose record's address and state are given, and then
  goes on (R254); with what it has read of its sources, which it keeps, and what the memory ports have read of the translation
  tables, which stays (R223). -/
  | begin (node va state : Nat) (sources : List (Nat × List Byte)) (tlb : List TlbEntry)
  /-- An uncorrectable error in committed data asks for a rollback of a task (R241). -/
  | rollback (job record line ctx : Nat)
  /-- A stop that comes only after the access has got to the home of an address of a job. -/
  | reached (job va : Nat) (x : Stop)
  | fault (f : Fault)
  deriving DecidableEq, Repr

/-- An attempt: it reads the platform and changes the core, or stops. -/
abbrev Act := ReaderT Platform (StateT Core (Except Stop))

/-! ### Registers of the record (R37) -/

def Strand.sup (x : Strand) : Bool := x.mode.getLsbD 0
def Strand.pinned (x : Strand) : Bool := x.mode.getLsbD 1
def Strand.looping (x : Strand) : Bool := x.mode.getLsbD 2
def Strand.im (x : Strand) : Bool := x.mode.getLsbD 3
def Strand.live (x : Strand) : Bool := x.place != .ended

/-- Whether every access of the strand is performed and every destination filled (R54). -/
def Strand.drained (x : Strand) : Bool := x.ops.isEmpty && x.dropped.isNone && x.refusals.isEmpty

/-- Whether a decrement is one of a strand's own, not one of a command's completion. -/
def Decrement.ofStrand (k : Key) (d : Decrement) : Bool := d.job == k.job && d.ctx == k.ctx && d.done.isNone

/-- Whether an access of a strand is on its way and not yet performed: a store to a multicast page, until it has returned (R312,
R313), a decrement of a graph node (R199), and a lineage member under way (R245). -/
def Core.sending (c : Core) (k : Key) : Bool :=
  c.multicasts.any (fun x => x.key == k) || c.decrements.any (·.ofStrand k) || c.members.any fun r => r.key == k

/-- Whether the strand holds a context cache entry (R43); one that moves holds its entry until it is shipped (R54). -/
def Strand.resident (x : Strand) : Bool :=
  match x.place with
  | .slotted _ | .waiting | .parked | .activating => true
  | .moving _ => !x.drained
  | .stored | .held | .ended => false

/-- Whether the strand's record lies in memory (R43). -/
def Strand.inMemory (x : Strand) : Bool :=
  match x.place with
  | .stored | .held => true
  | .slotted _ | .waiting | .parked | .activating | .moving _ | .ended => false

def modeSup : BitVec 16 := 1
def modePin : BitVec 16 := 2
def modeLoop : BitVec 16 := 4
def modeIm : BitVec 16 := 8

/-- The bits of a mode word with one of them set or cleared. -/
def modeSet (m bit : BitVec 16) (v : Bool) : BitVec 16 := if v then m ||| bit else m &&& ~~~bit

/-! ### Strands and stations of the core -/

def Core.strand? (c : Core) (k : Key) : Option Strand := c.strands.find? fun x => x.key == k

/-- The core with a strand's state replaced. -/
def Core.setStrand (c : Core) (x : Strand) : Core :=
  { c with strands := c.strands.map fun y => if y.key = x.key then x else y }

def Core.updStrand (c : Core) (k : Key) (f : Strand → Strand) : Core :=
  { c with strands := c.strands.map fun y => if y.key = k then f y else y }

/-- The core with a strand created at its record's address, in the place of an ended one. -/
def Core.addStrand (c : Core) (x : Strand) : Core :=
  { c with strands := c.strands.filter (fun y => decide (y.key ≠ x.key)) ++ [x] }

def Core.station (c : Core) (pid : Nat) : Station :=
  match c.stations.find? fun e => e.1 == pid with
  | some (_, s) => s
  | none => Station.reset

def assocSet {α : Type} : List (Nat × α) → Nat → α → List (Nat × α)
  | [], k, v => [(k, v)]
  | (x, y) :: rest, k, v => if x = k then (k, v) :: rest else (x, y) :: assocSet rest k v

def assocGet {α : Type} (l : List (Nat × α)) (k : Nat) (d : α) : α :=
  match l with
  | [] => d
  | (x, y) :: rest => if x = k then y else assocGet rest k d

def Core.setStation (c : Core) (pid : Nat) (s : Station) : Core := { c with stations := assocSet c.stations pid s }

def Core.updStation (c : Core) (pid : Nat) (f : Station → Station) : Core := c.setStation pid (f (c.station pid))

/-- The counter of FIFO arrivals taken one further. -/
def Core.tick (c : Core) : Core := { c with seq := c.seq + 1 }

def dieOf (pid : Nat) : Nat := pid / Config.stationsPerDie
def colOf (pid : Nat) : Nat := pid % 16
def rowOf (pid : Nat) : Nat := pid % Config.stationsPerDie / 16

/-! ### Power islands (R14, R377) -/

/-- The power islands of the package: 128 to a die, of which 80 station-pair islands first, then 40 four-slice islands and 8
others. -/
def islands : Nat := 512

def pairIsland (i : Nat) : Bool := i % 128 < 80

/-- The station-pair island of a station: columns 2k and 2k + 1 of its row. -/
def islandOf (pid : Nat) : Nat := dieOf pid * 128 + rowOf pid * 8 + colOf pid / 2

/-- The two stations of a station's island. -/
def islandStations (pid : Nat) : List Nat := [pid / 2 * 2, pid / 2 * 2 + 1]

/-- Whether a station holds a live strand, or one that is to be activated there, or engine work. -/
def stationActive (c : Core) (pid : Nat) : Bool :=
  let s := c.station pid
  c.strands.any (fun x => x.live && x.station == pid && x.resident) || !s.activations.isEmpty || !s.copies.isEmpty ||
    s.commands.toList.any fun q => !q.isEmpty

/-- Whether the clock of a station runs: that of an island without a live strand and engine work is gated (R377). -/
def clockRuns (c : Core) (pid : Nat) : Bool := (islandStations pid).any (stationActive c)

/-! ### Acts -/

def stop {α : Type} (x : Stop) : Act α := throw x
def faultWith {α : Type} (f : Fault) : Act α := throw (.fault f)
def getCore : Act Core := get
def setCore (c : Core) : Act Unit := set c
def onCore (f : Core → Core) : Act Unit := modify f
def getPlatform : Act Platform := read
/-- What a function of the platform and the core gives. -/
def look {α : Type} (f : Platform → Core → α) : Act α := do
  let p ← read
  let c ← get
  pure (f p c)

/-- A free value (R154 to R171 and the values that the specification leaves open): one per draw. -/
def freeValue : Act Word := do
  let c ← get
  set { c with freeNo := c.freeNo + 1 }
  pure (Config.freeWord c.freeNo)

/-- The strand for which the instruction in hand runs. -/
def myKey : Act Key := do
  match (← get).work with
  | .strand _ _ k _ _ => pure k
  | _ => faultWith .noIssuingStrand

def myStation : Act Nat := do
  match (← get).work with
  | .strand pid _ _ _ _ => pure pid
  | _ => faultWith .noIssuingStrand

def myWord : Act IWord := do
  match (← get).work with
  | .strand _ _ _ w _ => pure w
  | _ => faultWith .noIssuingStrand

def myTcw : Act Tcw := do
  match (← get).work with
  | .strand _ _ _ _ (some t) => pure t
  | _ => faultWith .noIssuingStrand

def me : Act Strand := do
  match (← get).strand? (← myKey) with
  | some x => pure x
  | none => faultWith .noIssuingStrand

def updMe (f : Strand → Strand) : Act Unit := do
  let k ← myKey
  onCore fun c => c.updStrand k f

/-- Trap causes (R131). -/
def causeIll : Nat := 0x01
def causePriv : Nat := 0x02
def causeSeg : Nat := 0x03
def causeCanon : Nat := 0x04
def causeAlign : Nat := 0x05
def causeScope : Nat := 0x06
def causePoison : Nat := 0x07
def causeLoop : Nat := 0x08
def causeLookahead : Nat := 0x09
def causeTcw : Nat := 0x0A
def causeSwz : Nat := 0x0B
def causeTrap : Nat := 0x0C
def causeBrk : Nat := 0x0D
def causeTemp : Nat := 0x0E

def trapWith {α : Type} (cause : Nat) (tval : Word) : Act α := stop (.trap cause 0 tval false)

/-- An ILL trap whose value is the instruction word (R131). DEDUCED (log 32). -/
def illWord {α : Type} : Act α := do
  let w ← myWord
  trapWith causeIll (w.zeroExtend 64)

/-! ### Writes at a line's home (R157, R379) -/

/-- The L1 lines of every station but one that meet a condition removed (R379). -/
def dropCopies (but : Option Nat) (gone : L1Line → Bool) (c : Core) : Core :=
  if c.stations.any (fun e => e.2.l1.any gone) then
    { c with stations := c.stations.map fun e =>
        if some e.1 = but then e else (e.1, { e.2 with l1 := e.2.l1.filter fun x => !gone x }) }
  else c

/-- Whether a physical line meets the `n` bytes from an address on. -/
def lineMeets (pa n line : Nat) : Bool := decide (pa < 64 * line + 64) && decide (64 * line < pa + n)

/-- The copies of the physical lines of `n` bytes out of every L1, and those lines dirty in L2. -/
def wrotePhysical (pa n : Nat) (c : Core) : Core :=
  let c := dropCopies none (fun x => lineMeets pa n x.pline) c
  if c.l2.any (fun l => lineMeets pa n l.pline) then
    { c with l2 := c.l2.map fun l => if lineMeets pa n l.pline then { l with dirty := true } else l }
  else c

/-- A write of the device into the `n` bytes at a physical address: it takes its place in the words' write order, as any other
write does (R157). -/
def Core.deviceWrite (c : Core) (pa n : Nat) (f : Mem → Mem) : Core := wrotePhysical pa n { c with mem := f c.mem }

/-! ### Jobs (R135, R136) -/

/-- The address of the job table's entry for a job id. DEDUCED (log 22). -/
def jobEntry (p : Platform) (job : Nat) : Nat := (p.mgmt[0]).jobTable + 16 * (job % 1024)

/-- The address of a job's record. -/
def jobRecord (p : Platform) (c : Core) (job : Nat) : Nat := c.mem.read (jobEntry p job + 8) 8

/-- A job id is live while its entry holds that id with LIVE = 1 (R135). -/
def jobLive (p : Platform) (c : Core) (job : Nat) : Bool :=
  c.mem.read (jobEntry p job) 4 == job && (c.mem.read (jobEntry p job + 4) 4).testBit 0

/-- The CANCELLED flag of a live job (R135). -/
def jobCancelled (p : Platform) (c : Core) (job : Nat) : Bool :=
  c.mem.read (jobEntry p job) 4 == job && (c.mem.read (jobEntry p job + 4) 4).testBit 1

/-- A 64-bit field of a job's record. -/
def jobField (p : Platform) (c : Core) (job off : Nat) : Nat := c.mem.read (jobRecord p c job + off) 8

def setJobField (p : Platform) (c : Core) (job off : Nat) (v : Word) : Core :=
  c.deviceWrite (jobRecord p c job + off) 8 fun m => m.write64 (jobRecord p c job + off) v

/-- Entry `l` of a job's station map: a physical station, if the job has that logical one (R200). -/
def stationOf (p : Platform) (c : Core) (job l : Nat) : Option Nat :=
  let e := c.mem.read (jobRecord p c job + 0x200 + 2 * l) 2
  if l < 640 ∧ e < 640 then some e else none

/-- The logical number of a physical station in a job's map (R10). -/
def logicalOf (p : Platform) (c : Core) (job pid : Nat) : Option Nat :=
  (List.range 640).find? fun l => stationOf p c job l == some pid

/-! ### Wakes (R51, R112) -/

/-- A strand put into a list in order of arrival. -/
def insertSince (x : Strand) : List Strand → List Strand
  | [] => [x]
  | y :: rest => if x.since < y.since then x :: y :: rest else y :: insertSince x rest

/-- Strands parked for a reason, in the order they parked. -/
def waitersOf (c : Core) (w : Wait) : List Strand :=
  (c.strands.filter fun x => x.parked == some w && x.live).foldr insertSince []

/-- A wake sent to every strand that waits for a reason (R112). -/
def wakeAll (w : Wait) (c : Core) : Core :=
  { c with wakes := c.wakes ++ (waitersOf c w).map fun x => ⟨x.key, some w, false⟩ }

/-- Wakes for the strands that wait on a register of their own, whose bit a write set (R50). -/
def wakeReg (k : Key) (n : Fin 16) (c : Core) : Core :=
  match c.strand? k with
  | some x => if x.parked = some (.reg n) then { c with wakes := c.wakes ++ [⟨k, some (.reg n), false⟩] } else c
  | none => c

/-- A wake sent to one strand if it waits for a reason. -/
def wakeIf (k : Key) (w : Wait) (c : Core) : Core :=
  match c.strand? k with
  | some x => if x.parked = some w then { c with wakes := c.wakes ++ [⟨k, some w, false⟩] } else c
  | none => c

/-! ### Homes, scope records and PIN lines (R155, R164 to R166, R378) -/

/-- The die whose L2 homes an address (R378). -/
def homeDie (va : Nat) : Nat := bitsOf va 25 2

/-- The physical station whose L2 slice is the home of an address (R378). -/
def home (va : Nat) : Nat :=
  let b := bitsOf va 8 48
  let x := (b ^^^ (b >>> 16) ^^^ (b >>> 32)) % 65536
  homeDie va * 160 + (x * 160) >>> 16

def lineOf (va : Nat) : Nat := va / 64

/-- The station number that an access from another device is taken to come from: beyond this package's, one for each device
(R155). DESIGN CHOICE (log 69). -/
def foreignStation (device : Nat) : Nat := Config.stations + device
/-- The device of a station number: 0 for this package's. DESIGN CHOICE (log 69). -/
def partyDevice (station : Nat) : Nat := if station < Config.stations then 0 else station

/-- Whether a scope around a party contains another (R155): station, die and package end at the package. -/
def scopeHas (s : Scope) (station ctx station' ctx' : Nat) : Bool :=
  match s with
  | .strand => ctx == ctx' && ctx != 0
  | .station => station == station'
  | .die => dieOf station == dieOf station' && partyDevice station == partyDevice station'
  | .package => partyDevice station == partyDevice station'
  | .system => true

/-- The first `n` of the records that one slice homes, the youngest first; others stay (R165). -/
def capScopes (slice : Nat) : Nat → List ScopeRec → List ScopeRec
  | _, [] => []
  | n, r :: rest =>
    if home (r.vline * 64) = slice then
      match n with
      | 0 => capScopes slice 0 rest
      | n + 1 => r :: capScopes slice n rest
    else r :: capScopes slice n rest

/-- The wakes of the strands of a job that wait on a line's pin, in the order they came (R166). -/
def pinWakes (job vline : Nat) (c : Core) : List Wake :=
  ((waitersOf c (.pinLine vline)).filter fun x => x.key.job == job).map fun x => ⟨x.key, some (.pinLine vline), false⟩

/-- A release recorded: the line's scope record replaced, or on a PIN line the pin taken or ended (R164 to R166). -/
def recordRelease (job va station ctx : Nat) (scope : Scope) (pin : Bool) (c : Core) : Core :=
  if pin then
    let others := c.pins.filter fun h => !(h.job == job && h.vline == lineOf va)
    match scope with
    | .strand | .station => { c with pins := ⟨job, lineOf va, station⟩ :: others }
    | .die | .package | .system => { c with pins := others, wakes := c.wakes ++ pinWakes job (lineOf va) c }
  else
    let others := c.scopes.filter fun r => !(r.job == job && r.vline == lineOf va)
    let record : ScopeRec := ⟨job, lineOf va, scope, station, ctx⟩
    { c with scopes := capScopes (home va) Config.scopeRecords (record :: others) }

/-- The job under which the device's own releases are recorded, by physical line: it is no job's id (R135). DEDUCED (log 70). -/
def deviceJob : Nat := 2 ^ 32

/-- A release of the device at a physical line: every job's acquires at that line are checked against its record, and a pin of
the line ends. DEDUCED (log 70). -/
def releasePhysical (pa station : Nat) (scope : Scope) (c : Core) : Core :=
  recordRelease deviceJob pa station 0 scope false
    ((c.l2.filter fun l => l.pline == pa / 64 && l.pin).foldl
      (fun c l => recordRelease l.job (l.vline * 64) station 0 scope true c) c)

/-! ### The supervisor queue (R141 to R144) -/

def supHeader (p : Platform) (die : Nat) : Nat :=
  if h : die < 4 then (p.mgmt[die]).supQueue else 0

/-- Whether a die's queue has been given an address, a valid record count and has room. -/
def supRoom (p : Platform) (c : Core) (die : Nat) : Bool :=
  let h := supHeader p die
  let n := c.mem.read (h + 8) 8
  h != 0 && powerOfTwo n 64 65536 && decide ((c.mem.read (h + 0x10) 8 + 2 ^ 64 - c.mem.read (h + 0x18) 8) % 2 ^ 64 < n)

/-- The words of `extra` stored from an address on. -/
def writeWords (m : Mem) (a : Nat) : List Word → Mem
  | [] => m
  | w :: rest => writeWords (m.write64 a w) (a + 8) rest

/-- A record of the supervisor queue with its sequence number (R143). -/
def supRecord (a : Nat) (e : SupEvent) (sequence : Nat) (m : Mem) : Mem :=
  let m := m.write a 2 e.code
  let m := m.write (a + 2) 2 e.station
  let m := m.write (a + 4) 4 e.job
  let m := m.write (a + 8) 8 e.ctx
  let m := m.write64 (a + 0x10) e.addr
  let m := m.write (a + 0x18) 8 sequence
  writeWords (m.setBytes (a + 0x20) (List.replicate 32 0)) (a + 0x20) (e.extra.take 4)

/-- A record written to a die's queue, the producer count raised, and the signal word stored full with the new count, a
release at die scope (R141, R143). -/
def supWrite (p : Platform) (e : SupEvent) (c : Core) : Core :=
  let h := supHeader p e.die
  let n := c.mem.read (h + 8) 8
  let producer := c.mem.read (h + 0x10) 8
  let at' := c.mem.read h 8 + 64 * (producer % n)
  let c := c.deviceWrite at' 64 fun m => supRecord at' e producer m
  let c := c.deviceWrite (h + 0x10) 8 fun m => m.write (h + 0x10) 8 (producer + 1)
  let wasFull := c.mem.isFull (h + 0x20)
  let c := c.deviceWrite (h + 0x20) 8 fun m => (m.write (h + 0x20) 8 (producer + 1)).setFull (h + 0x20) true
  let c := releasePhysical (h + 0x20) (e.die * Config.stationsPerDie) .die c
  if wasFull then c else wakeAll (.feWord (h + 0x20) true) c

/-- An event sent to a die's supervisor queue; while the ring is full it is held and counted (R141). -/
def supSend (p : Platform) (e : SupEvent) (c : Core) : Core :=
  if supRoom p c e.die && c.held.all (fun x => x.die != e.die) then supWrite p e c
  else
    let h := supHeader p e.die
    let c := { c with held := c.held ++ [e] }
    if h = 0 then c
    else c.deviceWrite (h + 0x28) 8 fun m => m.write (h + 0x28) 8 (c.held.filter fun x => x.die == e.die).length

/-! ### Slots (R46, R49) -/

/-- Strands that a station's context cache holds. -/
def residents (c : Core) (pid : Nat) : List Strand :=
  c.strands.filter fun x =>
    (x.resident || (match x.place with | .moving _ => c.sending x.key | _ => false)) && x.station == pid

/-- Pinned strands that hold a slot of a station (R46). DEDUCED (log 30). -/
def pinnedSlots (c : Core) (pid : Nat) : Nat :=
  ((residents c pid).filter fun x => x.pinned && (match x.place with | .slotted _ => true | _ => false)).length

/-- The WAITING context of a station that has waited longest (R49). -/
def oldestWaiting (c : Core) (pid : Nat) : Option Strand :=
  ((residents c pid).filter fun x => x.place == .waiting).foldl
    (fun b x => match b with | none => some x | some y => if x.since < y.since then some x else some y) none

def pinFullEvent (pid : Nat) (x : Strand) : SupEvent := ⟨dieOf pid, 6, pid, x.key.job, x.key.ctx, 0, []⟩

/-- A strand put into a free slot; a PIN on a thirteenth strand stays clear (R46). -/
def enterSlot (p : Platform) (pid slot : Nat) (x : Strand) (c : Core) : Core :=
  let full := x.pinned && decide (Config.pinnedMax ≤ pinnedSlots c pid)
  let y := { x with place := .slotted slot, mode := if full then modeSet x.mode modePin false else x.mode }
  let c := (c.setStrand y).updStation pid fun s => { s with slots := s.slots.set! slot (some x.key) }
  if full then supSend p (pinFullEvent pid x) c else c

/-- Every free slot of a station takes the WAITING context that has waited longest (R49); of several free slots the
lowest-numbered takes the first of them. DESIGN CHOICE (log 81). -/
def fillSlots (p : Platform) (pid : Nat) (c : Core) : Core :=
  (List.range 16).foldl
    (fun c slot =>
      if (c.station pid).slots[slot]! = none then
        match oldestWaiting c pid with
        | some x => enterSlot p pid slot x c
        | none => c
      else c) c

/-- The slot of a strand made free, if it holds one. -/
def freeSlot (x : Strand) (c : Core) : Core :=
  match x.place with
  | .slotted slot => c.updStation x.station fun s => { s with slots := s.slots.set! slot none }
  | _ => c

/-- A strand that leaves its slot for another place, whose slot is then filled (R49). -/
def leaveTo (p : Platform) (k : Key) (place : Place) (parked : Option Wait) (c : Core) : Core :=
  match c.strand? k with
  | none => c
  | some x =>
    let c := freeSlot x c
    let c := (c.setStrand { x with place := place, parked := parked, since := c.seq }).tick
    fillSlots p x.station c

/-- A strand parks (R50); a pinned strand keeps its slot (R46). -/
def parkStrand (p : Platform) (k : Key) (w : Wait) (c : Core) : Core :=
  match c.strand? k with
  | none => c
  | some x =>
    match x.pinned, x.place with
    | true, .slotted _ => (c.setStrand { x with parked := some w, since := c.seq }).tick
    | _, _ => leaveTo p k .parked (some w) c

/-- A PIN write on a strand: on one that holds a slot it obeys the limit of 12 (R46, R133). One that is parked in its slot and
loses PIN keeps the slot until it is woken: DESIGN CHOICE (log 93). -/
def setPin (p : Platform) (k : Key) (v : Bool) (c : Core) : Core :=
  match c.strand? k with
  | none => c
  | some x =>
    match x.place with
    | .slotted _ =>
      if v && !x.pinned && decide (Config.pinnedMax ≤ pinnedSlots c x.station) then
        supSend p (pinFullEvent x.station x) c
      else c.setStrand { x with mode := modeSet x.mode modePin v }
    | _ => c.setStrand { x with mode := modeSet x.mode modePin v }

/-! ### Taking a trap and returning from one (R138, R139) -/

/-- The strand at its handler: the saved registers written, the mode word saved, LOOP cleared, IM and SUP set, and pc at
`k.tvec`. -/
def Strand.trapEntry (tvec : Word) (cause code : Nat) (multi : Bool) (tval epc opc : Word) (count : Nat)
    (x : Strand) : Strand :=
  { x with
    cause := wordOf (cause + code * 256 + (if multi then 65536 else 0))
    tval := tval
    epc := epc
    opc := opc
    lacount := wordOf count
    savedMode := x.mode
    mode := modeSet (modeSet (modeSet x.mode modeLoop false) modeIm true) modeSup true
    pc := tvec
    hold := .none
    trapPend := none }

/-- `k.tvec` of a job (R129, R136). -/
def jobTvec (p : Platform) (c : Core) (job : Nat) : Word := wordOf (jobField p c job 0x08)

/-- TrapEntry of R138 once N = 0: into the handler, or for a strand in supervisor mode a park with a DOUBLE record
(R140). `addr` is the address of the instruction that raised it. -/
def takeTrap (p : Platform) (k : Key) (cause code : Nat) (multi : Bool) (tval epc opc : Word) (count : Nat)
    (addr : Word) (c : Core) : Core :=
  match c.strand? k with
  | none => c
  | some x =>
    if x.sup then
      let c := parkStrand p k .double (c.setStrand { x with trapPend := none })
      supSend p ⟨dieOf x.station, 7, x.station, k.job, k.ctx, 0,
        [wordOf (cause + code * 256 + (if multi then 65536 else 0)), tval, addr]⟩ c
    else
      c.setStrand (x.trapEntry (jobTvec p c k.job) cause code multi tval epc opc count)

/-- A precise trap at the instruction that a strand issues: taken at once when N = 0, else once N has drained (R66). -/
def raiseTrap (p : Platform) (k : Key) (cause code : Nat) (tval epc : Word) (c : Core) : Core :=
  match c.strand? k with
  | none => c
  | some x =>
    if x.ops.isEmpty then takeTrap p k cause code false tval epc 0 0 x.pc c
    else c.setStrand { x with trapPend := some ⟨cause, code, tval, epc, x.pc, none⟩ }

/-- A completion's note without the trap that has been taken. -/
def clearLane (l : Lane) (slot : Nat) : Lane := { l with notes := l.notes.set! slot (.completion none false) }

/-- The strand with a trap of a completion no longer owed (R182, R380). -/
def Strand.clearAcquired (x : Strand) (src : AcquireSrc) : Strand :=
  match src with
  | .reg n => { x with notes := x.notes.set n (.completion none false) }
  | .lane true slot => { x with inHigh := clearLane x.inHigh slot }
  | .lane false slot => { x with inLow := clearLane x.inLow slot }
  | .pending => { x with engTrap := 0 }

/-- The trap of a completion is owed no longer once it enters the handler; a double trap leaves it (R140, R380). -/
def clearOwed (k : Key) (src : Option AcquireSrc) (c : Core) : Core :=
  match src, c.strand? k with
  | some a, some x => if x.sup then c else c.setStrand (x.clearAcquired a)
  | _, _ => c

/-- The trap that the acquire of a completion raises at the instruction in hand. -/
def raiseAcquired (p : Platform) (k : Key) (src : AcquireSrc) (cause : Nat) (tval : Word) (c : Core) : Core :=
  match c.strand? k with
  | none => c
  | some x =>
    if x.ops.isEmpty then takeTrap p k cause 0 false tval x.pc 0 0 x.pc (clearOwed k (some src) c)
    else c.setStrand { x with trapPend := some ⟨cause, 0, tval, x.pc, x.pc, some src⟩ }

/-! ### Migration's departure (R54) -/

/-- Step 1 of R54: the strand leaves its slot for another station; it is shipped, and frees its entry, once its accesses are
performed. -/
def startMigration (p : Platform) (k : Key) (target : Nat) (c : Core) : Core :=
  leaveTo p k (.moving target) none c

end Sys2Proof.Machine
end

