-- ==== Sys2Proof/Machine/Access.lean ====
section
/-! DEFINITION. Reaching memory: the home of an address (R378), translation (R150 to R152), L2 lines (R379), PIN lines
(R166), scope records (R164), stash windows (R175 to R177) and live context records (R38 to R41). -/

namespace Sys2Proof.Machine

open Sys2Proof

/-- Who makes an access: its job, its station (R154), its context (0 for an engine, R164), its task for the write log
(R365, 0 for none), and whether it is a strand. -/
structure Party where
  job : Nat
  station : Nat
  ctx : Nat
  task : Nat
  strand : Bool
  deriving DecidableEq, Repr

def Strand.party (x : Strand) : Party := ⟨x.key.job, x.station, x.key.ctx, x.task.toNat, true⟩
def Cmd.party (d : Cmd) : Party := ⟨d.job, d.station, d.ctx, d.task, false⟩

/-- The context that a release records: an engine is no strand, so no access at strand scope takes it as its own. -/
def Party.releaser (pt : Party) : Nat := if pt.strand then pt.ctx else 0

/-! ### Translation (R150 to R152) -/

/-- Where a page lies: the physical address behind a virtual one, and the page's attributes. -/
structure Mapping where
  pa : Nat
  ctx : Bool
  pin : Bool
  ap : Bool
  word : Nat
  deriving DecidableEq, Repr

/-- A table entry as a die's memory port finds it: the one that it has cached, which stands until `tlbinv`, or the one in memory
(R150). -/
def Core.tableEntry (c : Core) (die job : Nat) (directory : Bool) (index addr : Nat) : Nat :=
  match c.tlb.find? fun e => e.die == die && e.job == job && e.directory == directory && e.index == index with
  | some e => e.entry.toNat
  | none => (c.mem.read64 addr).toNat

/-- Whether a page entry is well formed: reserved bits clear, and an aperture word only on an aperture page, with
frame bits 40:32 clear in an entry for 32 MiB (R151, R152, R311). -/
def entryOk (e : Nat) (large : Bool) : Bool :=
  bitsOf e 55 4 == 0 &&
  (if large then bitsOf e 32 9 == 0 else !e.testBit 59) &&
  (if e.testBit 60 then
     bitsOf e 30 2 == 0 && bitsOf e 6 2 == 0 && (bitsOf e 0 2 != 2 || (bitsOf e 4 2 != 3 && bitsOf e 2 2 != 3))
   else bitsOf e 0 32 == 0)

def entryMapping (e off : Nat) : Mapping :=
  ⟨bitsOf e 32 23 * 65536 + off, e.testBit 62, e.testBit 61, e.testBit 60, bitsOf e 0 32⟩

/-- A group descriptor's address in the job's group table (R309), and whether it is live. -/
def groupAddr (p : Platform) (c : Core) (job g : Nat) : Nat := jobField p c job 0x70 + 64 * (g % 256)
def groupLive (p : Platform) (c : Core) (job g : Nat) : Bool := (c.mem.read (groupAddr p c job g + 8) 8).testBit 8

/-- The offset of an address in the job's translated range, if it lies there. -/
def rangeOffset (p : Platform) (c : Core) (job va : Nat) : Option Nat :=
  let base := jobField p c job 0x170
  if va < base ∨ base + jobField p c job 0x178 ≤ va then none else some (va - base)

/-- Where the directory entry, and the last-level entry, of an offset stand. The tables stand at their bases taken as physical
addresses: DEDUCED (log 22). -/
def directoryAddr (p : Platform) (c : Core) (job off : Nat) : Nat := jobField p c job 0x160 + 8 * (off / 2 ^ 25)
def lastLevelAddr (p : Platform) (c : Core) (job off : Nat) : Nat := jobField p c job 0x168 + 8 * (off / 65536)

/-- Whether a directory entry sends translation on to the last level. -/
def entryGoesOn (d : Nat) : Bool := d.testBit 63 && !d.testBit 59 && bitsOf d 60 3 == 0 && bitsOf d 55 4 == 0 && bitsOf d 0 55 == 0

/-- The mapping of an address of a job, if its page is present (R150 to R152). -/
def translated (p : Platform) (c : Core) (job va : Nat) : Option Mapping :=
  match rangeOffset p c job va with
  | none => none
  | some off =>
    let d := c.tableEntry (homeDie va) job true (off / 2 ^ 25) (directoryAddr p c job off)
    let m : Option Mapping :=
      if d.testBit 63 && d.testBit 59 then (if entryOk d true then some (entryMapping d (off % 2 ^ 25)) else none)
      else if entryGoesOn d then
        let e := c.tableEntry (homeDie va) job false (off / 65536) (lastLevelAddr p c job off)
        if e.testBit 63 && entryOk e false then some (entryMapping e (off % 65536)) else none
      else none
    m.filter fun x =>
      !(x.ap && (bitsOf x.word 0 2 == 1 || bitsOf x.word 0 2 == 2) && !groupLive p c job (bitsOf x.word 8 8))

/-! ### Stash entries -/

def stashEntry (s : Station) (i : Nat) : StashEntry :=
  match s.entries.find? fun e => e.index == i with
  | some e => e
  | none => ⟨i, none, false, 0, none, 0, 0, 0, []⟩

def setStashEntry (s : Station) (e : StashEntry) : Station :=
  { s with entries := e :: (s.entries.filter fun x => x.index != e.index) }

/-- Bytes of a station's stash from an offset on, and a store into them. -/
def stashBytes (s : Station) (o n : Nat) : List Byte := (List.range n).map fun k => cellsGet s.stash (o + k)

def setStashBytes (s : Station) (o : Nat) : List Byte → Station
  | [] => s
  | b :: rest => setStashBytes { s with stash := cellsSet s.stash o b } (o + 1) rest

/-- The entry of a station that maps a block (R174). -/
def mappedEntry (s : Station) (job block : Nat) : Option StashEntry :=
  s.entries.find? fun e => e.mapped == some (job, block)

/-! ### Landings (R172, R195) -/

/-- Part `j` of a copy covers the bytes `[partStart j, partEnd j)` of its destination. -/
def CopyPlan.partStart (x : CopyPlan) (j : Nat) : Nat := x.step * j - x.skew
def CopyPlan.partEnd (x : CopyPlan) (j : Nat) : Nat := min x.total (x.step * (j + 1) - x.skew)

/-- Whether part `j` of a copy holds one of the bytes `[lo, hi)` of its destination. -/
def CopyPlan.meets (x : CopyPlan) (lo hi j : Nat) : Bool := decide (x.partStart j < hi) && decide (lo < x.partEnd j)

/-- Whether part `j` of a copy's stash destination touches an entry. -/
def CopyPlan.touches (x : CopyPlan) (i j : Nat) : Bool :=
  match x.dest with
  | some (_, o) => decide (o + x.partStart j < 256 * (i + 1)) && decide (256 * i < o + x.partEnd j)
  | none => false

/-- Whether a copy is landing into an entry of a station: some of what it writes there has landed and some has not. -/
def CopyPlan.landing (x : CopyPlan) (pid i : Nat) : Bool :=
  match x.dest with
  | some (q, _) =>
    let parts := (List.range ((x.total + x.skew + x.step - 1) / x.step)).filter (x.touches i)
    q == pid && parts.any (fun j => x.left.contains j) && parts.any (fun j => !x.left.contains j)
  | none => false

/-- LAND of an entry (R172). -/
def landing (c : Core) (pid i : Nat) : Bool :=
  c.stations.any fun s => s.2.copies.any fun r => match r.plan with | some x => x.landing pid i | none => false

/-- A recall, `sunmap`, `sflush`, `sinv` or `smap` of an entry waits while a copy is landing into it (R176, R195). -/
def needLanded (pid i : Nat) : Act Unit := do
  if landing (← get) pid i then stop (.hold .none) else pure ()

/-! ### L2 lines (R379) -/

def findLine (c : Core) (job va : Nat) : Option L2Line :=
  c.l2.find? fun l => l.job == job && l.vline == lineOf va

/-- What an address reaches. -/
inductive Target where
  /-- A cell of memory, by physical address, with whether its line is a PIN line. -/
  | cell (pa : Nat) (pin : Bool)
  /-- A word of a die's management block (R363). -/
  | mgmt (die off : Nat)
  /-- An aperture page: its word and the local cell (R311). -/
  | aperture (word pa : Nat)
  /-- A live context record (R38 to R41). -/
  | record (k : Key) (off : Nat)
  deriving DecidableEq, Repr

/-- The live strand whose context record holds an address of a job. -/
def recordAt (c : Core) (job va : Nat) : Option Strand :=
  match c.strand? ⟨job, va / 1024 * 1024⟩ with
  | some x => if x.live then some x else none
  | none => none

def mgmtBase : Nat := 0x007FFFFF00000000

/-- The management block that holds an address (R363). -/
def mgmtAt (va : Nat) : Option (Nat × Nat) :=
  if mgmtBase ≤ va ∧ va < mgmtBase + 0x4000 ∧ (va - mgmtBase) % 0x1000 < 128 then
    some ((va - mgmtBase) / 0x1000, (va - mgmtBase) % 0x1000)
  else none

/-- Whether an extent meets a management block. -/
def mgmtMeets (va len : Nat) : Bool :=
  (List.range 4).any fun d => decide (va < mgmtBase + 0x1000 * d + 128) && decide (mgmtBase + 0x1000 * d < va + len)

/-- A write put behind those on their way to the management blocks. -/
def sendMgmt (die off size : Nat) (v : Word) (c : Core) : Core :=
  { c with mgmtWrites := c.mgmtWrites ++ [⟨die, off, size, v⟩] }

def logBase (p : Platform) (c : Core) (job : Nat) : Nat := jobField p c job 0x88
def logCount (p : Platform) (c : Core) (job : Nat) : Nat := jobField p c job 0x90 % 2 ^ 32

/-- The addresses of a job's write-log entries. -/
def logEntries (p : Platform) (c : Core) (job : Nat) : List Nat :=
  (List.range (logCount p c job)).map fun k => logBase p c job + 128 * k

/-- The first eviction of a line tagged to a task: the HBM line is copied into a free log entry; a task that finds none
free is marked (R365, R367). -/
def logLine (p : Platform) (l : L2Line) (c : Core) : Core :=
  match l.task with
  | none => c
  | some t =>
    let entries := logEntries p c l.job
    if entries.any (fun a => c.mem.read a 8 == l.vline * 64 && c.mem.read (a + 8) 8 == t) then c
    else
      match entries.find? fun a => c.mem.read a 8 == 0 with
      | none => { c with tasks := c.tasks.map fun x => if x.job = l.job ∧ x.record = t then { x with noEntry := true } else x }
      | some a =>
        c.deviceWrite a 128 fun m =>
          let m := m.write a 8 (l.vline * 64)
          let m := m.write (a + 8) 8 t
          let m := m.write (a + 0x10) 8 (l.oldFull.toNat + if l.oldPoison ≠ 0 then 256 else 0)
          let m := m.setBytes (a + 0x18) (List.replicate 40 0)
          m.write (a + 0x40) 64 l.old.toNat

/-- Where a context's record lies in memory, if its page is present. -/
def recordFrame (p : Platform) (k : Key) (c : Core) : Option Nat := (translated p c k.job k.ctx).map (·.pa)

/-- The physical address behind an offset of a record: that of the line that L2 holds of it, else what translation gives. -/
def recordCell (p : Platform) (c : Core) (k : Key) (off : Nat) : Option Nat :=
  match findLine c k.job (k.ctx + off) with
  | some l => some (l.pline * 64 + off % 64)
  | none => (recordFrame p k c).map (· + off)

/-- The record of a context that lies in memory at a physical address, and the offset in it (R41). -/
def storedAt (p : Platform) (c : Core) (pa : Nat) : Option (Key × Nat) :=
  match c.strands.find? fun x => x.inMemory && recordCell p c x.key (pa % 1024) == some pa with
  | some x => some (x.key, pa % 1024)
  | none => none

/-- The records that lie at a poisoned line of memory treat that line as poisoned (R360). -/
def poisonRecords (p : Platform) (pline : Nat) (c : Core) : Core :=
  { c with strands := c.strands.map fun x =>
      if x.inMemory && recordCell p c x.key (64 * pline % 1024) == some (64 * pline) then
        { x with badLines := risingSet x.badLines (pline % 16) true }
      else x }

/-- A cell of memory, or the word of a context record that lies there. -/
def cellTarget (p : Platform) (c : Core) (pa : Nat) (pin : Bool) : Target :=
  match storedAt p c pa with
  | some (k, off) => .record k off
  | none => .cell pa pin

/-- Whether a stash entry of some station owns a block (R175). -/
def blockOwned (c : Core) (job block : Nat) : Bool :=
  c.stations.any fun x => match mappedEntry x.2 job block with | some o => o.valid | none => false

/-- Whether a line may leave its slice: no stash entry owns it, and no tile fetch pins it (R285, R379). -/
def mayLeave (c : Core) (l : L2Line) : Bool :=
  !blockOwned c l.job (l.vline / 4 * 256) && !c.fetched.contains (l.job, l.vline)

/-- Whether two virtual lines share a set of one home slice. -/
def sharesSet (a b : Nat) : Bool := home (a * 64) == home (b * 64) && Config.l2Set a == Config.l2Set b

/-- The least recently used of the lines that may leave the set of a virtual line. -/
def leastUsed (c : Core) (vline : Nat) : Option L2Line :=
  (c.l2.filter fun l => sharesSet l.vline vline && mayLeave c l).foldl
    (fun b l => match b with | none => some l | some x => if l.used < x.used then some l else some x) none

/-- Whether the layer that holds a physical address has been mapped out (R369, R370). -/
def layerGone (p : Platform) (pa : Nat) : Bool :=
  let stack := pa / 2 ^ 36
  let layer := pa / 2 ^ 32 % 16
  if h : stack / 2 < 4 then
    (if stack % 2 = 0 then (p.mgmt[stack / 2]).mappedA else (p.mgmt[stack / 2]).mappedB).getLsbD layer
  else false

/-- Whether the memory behind an offset of a context's record has gone with its layer (R370). -/
def lineGone (p : Platform) (c : Core) (k : Key) (off : Nat) : Bool := (recordCell p c k off).any (layerGone p)

/-- Whether what lies at an offset of a strand's record is lost with a layer of memory (R370). -/
def recordGone (p : Platform) (c : Core) (x : Strand) (off : Nat) : Bool := x.inMemory && lineGone p c x.key off

/-- Whether what lies at an offset of a strand's record is poisoned (R360, R370). DEDUCED (log 132). -/
def recordBad (p : Platform) (c : Core) (x : Strand) (off : Nat) : Bool := x.badLines.contains (off / 64) || recordGone p c x off

/-- Whether HBM holds the line of an L2 copy poisoned, once a dirty copy has been written back: a clean line came out of it with
every word poisoned, or was found bad there since (R359). DEDUCED (log 86). -/
def hbmPoison (c : Core) (l : L2Line) : Bool :=
  if l.dirty then c.mem.linePoison (l.pline * 64)
  else ((List.range 8).all fun k => c.mem.isPoison (l.pline * 64 + 8 * k)) || l.oldPoison != 0

/-- A line leaves L2 (R379): a dirty one goes to HBM, which first gives its line to the write log (R365); there one poisoned
word poisons the line (R359). What only L2 held poisoned of a clean line is good again in HBM. DEDUCED (log 86). While the slice
holds the physical line under another name, its data stays there. -/
def leaveL2 (p : Platform) (l : L2Line) (c : Core) : Core :=
  let pa := l.pline * 64
  let c := if l.dirty then logLine p l c else c
  let other (x : L2Line) : Bool := x.pline == l.pline && !(x.job == l.job && x.vline == l.vline)
  if c.l2.any other then
    let still (x : L2Line) : L2Line := if other x then { x with dirty := x.dirty || l.dirty } else x
    { c with l2 := (c.l2.map still).filter fun x => !(x.job == l.job && x.vline == l.vline) }
  else
  let bad := hbmPoison c l
  let c := if bad && !l.dirty then poisonRecords p l.pline c else c
  let m := if c.mem.linePoison pa || bad then c.mem.setLinePoison pa bad else c.mem
  { c with mem := m, l2 := c.l2.filter fun x => !(x.job == l.job && x.vline == l.vline) }

/-- The slice of an address makes place for one more line: a full slice replaces the least recently used line of the set that may
leave (R379). Where none may, the line is added all the same: DESIGN CHOICE (log 91). The result tells whether another line may
yet have to give its place for it, as it may where the slice has room and the set has none: DESIGN CHOICE (log 24). -/
def makePlace (va : Nat) : Act Bool := do
  let p ← read
  let c ← get
  if (c.l2.filter fun l => home (l.vline * 64) == home va).length < Config.sliceLines then pure true
  else
    match leastUsed c (lineOf va) with
    | some x => set (leaveL2 p x c)
    | none => pure ()
    pure false

/-- A line used: it is the most recently used one of its set (R379). -/
def useLine (job va : Nat) (c : Core) : Core :=
  { c with uses := c.uses + 1
           l2 := c.l2.map fun l => if l.job == job && l.vline == lineOf va then { l with used := c.uses } else l }

/-- A line taken into its slice, the most recently used one of its set. -/
def takeLine (job va : Nat) (m : Mapping) (place : Bool) (c : Core) : Core :=
  { c with uses := c.uses + 1
           l2 := ⟨job, lineOf va, m.pa / 64, m.ctx, m.pin, false, none, 0, 0, 0, if place then some c.uses else none, c.uses⟩ :: c.l2 }

/-- The device's own access to a word at a physical address goes through L2 as ordinary data, under a name that no job's line has
(R150, R379). A layer that is gone gives no line. DESIGN CHOICE (log 116). -/
def useDeviceLine (pa : Nat) : Act Unit := do
  match findLine (← get) deviceJob pa with
  | some _ => onCore (useLine deviceJob pa)
  | none =>
    if layerGone (← read) pa then pure ()
    else
      let place ← makePlace pa
      onCore (takeLine deviceJob pa ⟨pa, false, false, false, 0⟩ place)

/-- A memory port needs a table entry: one that it has not cached it reads through L2, and caches (R150). -/
def readEntry (die job : Nat) (directory : Bool) (index addr : Nat) : Act Unit := do
  if (← get).tlb.any fun e => e.die == die && e.job == job && e.directory == directory && e.index == index then pure ()
  else
    useDeviceLine addr
    onCore fun c => { c with tlb := ⟨die, job, directory, index, c.mem.read64 addr⟩ :: c.tlb }

/-- Translation of an address of a job at its home's memory port, which reads the entries that it needs. -/
def translateVa (job va : Nat) : Act (Option Mapping) := do
  let p ← read
  match rangeOffset p (← get) job va with
  | none => pure none
  | some off => do
    readEntry (homeDie va) job true (off / 2 ^ 25) (directoryAddr p (← get) job off)
    let c ← get
    if entryGoesOn (c.tableEntry (homeDie va) job true (off / 2 ^ 25) (directoryAddr p c job off)) then
      readEntry (homeDie va) job false (off / 65536) (lastLevelAddr p c job off)
    pure (translated p (← get) job va)

/-- Whether a page of a job is present, as an activation asks (R223). -/
def pagePresent (job va : Nat) : Act Bool := do pure (← translateVa job va).isSome

/-- What the line of an address reaches, without regard to records: only a line that L2 does not hold consults translation
(R223, R379). A page that is not present stops the access with the fault of some address, kind and size. Of a layer that is gone
there is no data and L2 takes no line, so that a page that the supervisor has remapped is found (R370): DEDUCED (log 104). -/
def reachLine (job va : Nat) (fault : Nat × Nat × Nat) : Act Target := do
  match findLine (← get) job va with
  | some l =>
    onCore (useLine job va)
    pure (.cell (l.pline * 64 + va % 64) l.pin)
  | none =>
    match ← translateVa job va with
    | none => stop (.page job fault.1 fault.2.1 fault.2.2)
    | some m =>
      if m.ap && bitsOf m.word 0 2 != 0 then pure (.aperture m.word m.pa)
      else if layerGone (← read) m.pa then pure (.cell m.pa m.pin)
      else
        let place ← makePlace va
        onCore (takeLine job va m place)
        pure (.cell m.pa m.pin)

/-- A line of a context record written at its home, whose slice takes it: what lies in a layer that is gone is lost (R370). -/
def writeRecordLine (p : Platform) (k : Key) (line : Nat) (c : Core) : Core :=
  match reachLine k.job (k.ctx + 64 * line) (k.ctx, 2, 64) p c with
  | .ok (.cell pa _, c') =>
    if layerGone p pa then c'.updStrand k fun x => { x with badLines := risingSet x.badLines line true }
    else { c' with l2 := c'.l2.map fun l => if l.job == k.job && l.vline == lineOf (k.ctx + 64 * line) then { l with dirty := true } else l }
  | .ok _ | .error _ => c

/-- Lines of a context record written at their homes (R45, R202). Which of the lines that an entry holds were modified is not kept: all
of them are written. DESIGN CHOICE (log 130). -/
def writeRecord (p : Platform) (k : Key) (lines : List Nat) (c : Core) : Core :=
  lines.foldl (fun c l => writeRecordLine p k l c) c

/-- What an address reaches: a live context record, a management block, or the line that memory holds. -/
def locateFor (job va : Nat) (fault : Nat × Nat × Nat) : Act Target := do
  match recordAt (← get) job va with
  | some x =>
    if x.inMemory then
      let _ ← reachLine job va fault
    pure (.record x.key (va % 1024))
  | none =>
    match mgmtAt va with
    | some (die, off) => pure (.mgmt die off)
    | none =>
      match ← reachLine job va fault with
      | .cell pa pin => do pure (cellTarget (← read) (← get) pa pin)
      | .mgmt die off => pure (.mgmt die off)
      | .aperture word pa => pure (.aperture word pa)
      | .record k off => pure (.record k off)

/-- What an address reaches for an access of some kind and size. A page with AP = 1 and aperture kind 0 holds ordinary
lines: DESIGN CHOICE (log 71). -/
def locate (job va kind size : Nat) : Act Target := locateFor job va (va, kind, size)

/-- An access to a PIN line that another station holds receives RETRY (R166). -/
def pinCheck (pt : Party) (va : Nat) (pin : Bool) : Act Unit := do
  let c ← get
  if pin && c.pins.any (fun h => h.job == pt.job && h.vline == lineOf va && h.station != pt.station) then
    stop (.park (.pinLine (lineOf va)))

/-! ### Writes: L1 copies, dirty lines and the write log's tag -/

/-- The line out of the L1 of every station but one (R379). -/
def dropL1 (job va : Nat) (but : Option Nat) (c : Core) : Core :=
  dropCopies but (fun x => x.job == job && x.vline == va / 32) c

/-- The copies of the physical line of an address out of every L1. -/
def dropL1Physical (pa : Nat) (c : Core) : Core := dropCopies none (fun x => x.pline == pa / 64) c

/-- Whether a task has written the line of an address since its boundary: in L2, in a stash window, or in the log. -/
def taskWrote (p : Platform) (c : Core) (job record va : Nat) : Bool :=
  c.l2.any (fun l => l.job == job && l.task == some record && l.vline == lineOf va) ||
  c.stations.any (fun s => s.2.entries.any fun e =>
    e.writer == record && (e.dirty.extractLsb' (va % 256 / 64 * 64) 64) != 0 && e.mapped == some (job, va / 256 * 256)) ||
  (logEntries p c job).any fun a => c.mem.read (a + 8) 8 == record && c.mem.read a 8 != 0 && lineOf (c.mem.read a 8) == lineOf va

/-- The tasks that have written a line before the task that writes it now (R368). -/
def noteOthers (p : Platform) (pt : Party) (va : Nat) (c : Core) : Core :=
  { c with tasks := c.tasks.map fun t =>
      if pt.task ≠ 0 ∧ t.job = pt.job ∧ t.record ≠ pt.task ∧ taskWrote p c t.job t.record va = true then
        { t with others := risingSet t.others (lineOf va) true }
      else t }

/-- What HBM holds of a line before a task's write that L2 takes no line for. -/
def throughLine (pt : Party) (va pa : Nat) (c : Core) : L2Line :=
  ⟨pt.job, lineOf va, pa / 64, false, false, true, some pt.task, c.mem.lineData pa, c.mem.lineFull pa,
    if c.mem.linePoison pa then 0xFF else 0, none, 0⟩

/-- A task writes a line: at its first write the line stands in HBM as it was before; a line that another task has
written goes to HBM first (R364, R365). The cell of an aperture page has no line in L2, so that a write of it goes to HBM at once
and HBM's line into the log before it: DEDUCED (log 131). -/
def tagLine (p : Platform) (pt : Party) (va pa : Nat) (c : Core) : Core :=
  let first (l : L2Line) : Bool := l.job == pt.job && l.vline == lineOf va && pt.task != 0 && l.task != some pt.task
  let c := noteOthers p pt va c
  let c := match c.l2.find? first with
    | some l => logLine p l c
    | none => if pt.task != 0 && (findLine c pt.job va).isNone then logLine p (throughLine pt va pa c) c else c
  { c with l2 := c.l2.map fun l =>
      if first l then
        { l with dirty := true, task := some pt.task, old := c.mem.lineData pa, oldFull := c.mem.lineFull pa
                 oldPoison := if hbmPoison c l then 0xFF else 0 }
      else if l.job == pt.job && l.vline == lineOf va then { l with dirty := true }
      else l }

/-- The preparations of a write to a cell: the line leaves the L1 of every station, but for the one that stores (R379). -/
def beforeWrite (p : Platform) (pt : Party) (va pa : Nat) (own : Option Nat) (c : Core) : Core :=
  tagLine p pt va pa (dropL1 pt.job va own c)

/-! ### Scope records and PIN lines (R164 to R166) -/

/-- How scope records treat a line: an ordinary one has them; a PIN line has pins in their place (R166), and the line of an
aperture page has neither (R311). -/
inductive LineKind where
  | plain | pin | aperture
  deriving DecidableEq, Repr

def LineKind.of (pin : Bool) : LineKind := if pin then .pin else .plain

/-- The line's latest record, of a release by one of the job's parties or by the device. -/
def scopeRecord (c : Core) (job va pa : Nat) : Option ScopeRec :=
  c.scopes.find? fun r => (r.job == job && r.vline == lineOf va) || (r.job == deviceJob && r.vline == lineOf pa)

/-- An acquire checked against the line's record (R164). -/
def acquireCheck (pt : Party) (scope : Scope) (va pa : Nat) (line : LineKind) : Act Unit := do
  match line, scopeRecord (← get) pt.job va pa with
  | .plain, some r =>
    if scopeHas r.scope r.station r.ctx pt.station pt.ctx && scopeHas scope pt.station pt.ctx r.station r.ctx then pure ()
    else trapWith causeScope (wordOf va)
  | _, _ => pure ()

/-- A party's release recorded with its line (R164, R166). -/
def releaseLine (pt : Party) (va : Nat) (scope : Scope) (line : LineKind) (c : Core) : Core :=
  match line with
  | .plain => recordRelease pt.job va pt.station pt.releaser scope false c
  | .pin => recordRelease pt.job va pt.station pt.releaser scope true c
  | .aperture => c

/-! ### Stores to a live context record (R38, R39) -/

/-- A register's value alone, as an outside ordinary store writes it (R39). -/
def Strand.setValue (x : Strand) (n : Fin 16) (v : Word) : Strand := { x with g := x.g.set n v }

/-- A CTXWR event for a discarded store: the target word, the storer's context and the value, sent from the word's home
(R38, R39, R144). DEDUCED (log 36). -/
def ctxwrEvent (va job storer : Nat) (v : Word) : SupEvent :=
  ⟨homeDie va, 3, home va, job, va / 1024 * 1024, wordOf (va / 8 * 8), [wordOf storer, v]⟩

/-- An ordinary store to a register word of a live record: a whole word writes the value and leaves the bit; a part of
one, or a word beyond 0x07F, is discarded and reported (R38, R39). A record that a layer took with it takes no store (R370). -/
def recordStore (p : Platform) (pt : Party) (k : Key) (off va size : Nat) (v : Word) (c : Core) : Core :=
  if (c.strand? k).any fun x => recordGone p c x off then c
  else if h : off / 8 < 16 ∧ size = 8 then c.updStrand k fun x => x.setValue ⟨off / 8, h.1⟩ v
  else supSend p (ctxwrEvent va k.job pt.ctx v) c

/-! ### Write-back (R177) -/

/-- One word of an entry written back to its home: its dirty bytes, whole words at once; a word of which only a part is
dirty and whose other bytes are poisoned stays as it is (R109, R177), and only a line that is dirty whole loses its poison
(R361). A word of a live context record is written whole or reported (R38, R39). The result tells the words left poisoned. -/
def writeBackWord (p : Platform) (pt : Party) (s : Station) (e : StashEntry) (va : Nat) (at' : List Target) (x : Core × List Nat)
    (k : Nat) : Core × List Nat :=
  let mask := (e.dirty.extractLsb' (8 * k) 8).toNat
  let bytes := stashBytes s (e.index * 256 + 8 * k) 8
  let own := e.poison.getLsbD k
  let cell (pa : Nat) : Core × List Nat :=
    let c := beforeWrite p pt (va + 8 * k) pa none x.1
    if mask = 255 then
      let m := c.mem.setBytes pa bytes
      let whole := (e.dirty.extractLsb' (k / 8 * 64) 64).toNat == 2 ^ 64 - 1
      ({ c with mem := if own then m.setPoison pa true else if whole then m.setPoison pa false else m }, x.2)
    else if c.mem.isPoison pa then (c, x.2 ++ [k])
    else
      let m := (List.range 8).foldl
        (fun m i => if mask.testBit i then m.setByte (pa + i) (bytes.getD i 0) else m) c.mem
      ({ c with mem := if own then m.setPoison pa true else m }, x.2)
  if mask = 0 then x
  else
    match at'.getD (k / 8) (.mgmt 4 0) with
    | .cell pa _ => cell (pa + 8 * (k % 8))
    | .aperture _ pa => cell (pa + 8 * (k % 8))
    | .mgmt die off => (sendMgmt die (off + 8 * (k % 8)) 8 (wordOf (leNat bytes)) x.1, x.2)
    | .record key off => (recordStore p pt key (off + 8 * (k % 8)) (va + 8 * k) (if mask = 255 then 8 else 1) (wordOf (leNat bytes)) x.1, x.2)

/-- What each of the four lines of a mapped block reaches, for the access of a party: a page that is not present stops it with
the fault that belongs to the line (R144, R175), and a line pinned elsewhere with RETRY (R166). -/
def blockLines (pt : Party) (va : Nat) (fault : Nat → Nat × Nat × Nat) : Act (List Target) :=
  (List.range 4).mapM fun k => do
    let t ← locateFor pt.job (va + 64 * k) (fault k)
    match t with
    | .cell _ pin => pinCheck pt (va + 64 * k) pin
    | .aperture _ _ | .mgmt _ _ | .record _ _ => pure ()
    pure t

/-- An entry's dirty bytes written back (R177); the address of the first word that the write-back left poisoned. Such a word is
poisoned in the entry too, where a later reader may find it. -/
def writeBackEntry (pid : Nat) (e : StashEntry) : Act (Option Nat) := do
  match e.mapped with
  | none => pure none
  | some (job, va) =>
    if e.dirty = 0 then pure none
    else
      let pt : Party := ⟨job, pid, 0, e.writer, false⟩
      let lines ← blockLines pt va fun k => (va + 64 * k, 2, 64)
      let p ← read
      let c ← get
      let s := c.station pid
      let r := (List.range 32).foldl (writeBackWord p pt s e va lines) (c, [])
      let bad := r.2.foldl (fun m k => m ||| (1 : BitVec 32) <<< k) e.poison
      set (r.1.updStation pid fun s => setStashEntry s { e with dirty := 0, writer := 0, poison := bad })
      pure (r.2.head?.map fun k => va + 8 * k)

/-- An entry about to be written by a task: bytes that another writer made dirty go to their home first (R365). -/
def claimEntry (pid i task : Nat) : Act Unit := do
  let e := stashEntry ((← get).station pid) i
  if e.mapped.isSome && e.writer != task then
    let _ ← writeBackEntry pid e
    onCore fun c => c.updStation pid fun s => setStashEntry s { stashEntry s i with writer := task }
  else pure ()

/-! ### Ending an attempt -/

/-- What a memory port has read of the translation tables stays cached when the access faults (R150, R223). -/
def walked (p : Platform) (job va : Nat) (c : Core) : Core :=
  match translateVa job va p c with
  | .ok (_, c') => c'
  | .error _ => c

/-- What stays of a memory access that stops at the home of its line: the line in L2, what the port has read of the translation
tables, and where they stand. (R150, R223, R379). -/
def reachedLine (p : Platform) (job va : Nat) (c : Core) : Core :=
  match locateFor job va (va, 1, 8) p c with
  | .ok (_, c') => c'
  | .error (.page _ _ _ _) => walked p job va c
  | .error _ => c

/-- A rollback of a task asked for: its strands stop (R364, R366 step 1). A task that has one on its way keeps the first. -/
def requestRollback (job record line ctx : Nat) (c : Core) : Core :=
  if c.rollbacks.any fun q => q.job == job && q.record == record then c
  else { c with
    rollbacks := c.rollbacks ++ [⟨job, record, line, ctx⟩]
    strands := c.strands.map fun x =>
      if x.live && x.key.job == job && x.task.toNat == record then { x with stopping := true } else x }

/-- The core when the attempt of a strand's instruction stops: nothing of the attempt remains but what the stop does. -/
def strandStop (p : Platform) (k : Key) (x : Stop) (c : Core) : Core :=
  match c.strand? k with
  | none => c
  | some y =>
    match x with
    | .park (.pinLine line) => parkStrand p k (.pinLine line) (reachedLine p k.job (64 * line) c)
    | .park w => parkStrand p k w c
    | .reached job va x => strandStop p k x (reachedLine p job va c)
    | .hold h => c.setStrand { y with hold := h }
    | .trap cause code tval next => raiseTrap p k cause code tval (if next then y.pc + 4 else y.pc) c
    | .acquired src cause tval => raiseAcquired p k src cause tval c
    | .page job va kind size =>
      walked p job va <| c.setStrand { y with dropped := some ⟨.fetch, .zr, false, va, kind, size, y.pc, false, false, y.issues, false, y.window, false⟩ }
    | .migrate target next =>
      startMigration p k target (c.setStrand { y with pc := if next then y.pc + 4 else y.pc })
    | .rollback job record line ctx => requestRollback job record line ctx c
    | .refuse _ | .status _ _ _ _ | .reserve _ | .begin _ _ _ _ _ | .fault _ => c

/-- One attempt run on a state: its result, or the state that its stop leaves. The platform is not written. -/
def runCore (a : Act Unit) (s : State) : Outcome :=
  match a s.plat s.core with
  | .ok (_, c) => .next { s with core := c }
  | .error (.fault f) => .fault f
  | .error x =>
    match s.core.work with
    | .strand _ _ k _ _ => .next { s with core := strandStop s.plat k x s.core }
    | _ => .next s

end Sys2Proof.Machine
end

