-- ==== Sys2Proof/Machine/Words.lean ====
section
/-! DEFINITION. Loads, stores, full/empty accesses and atomics as they are performed: at memory's home, in a stash
window, on a live context record, at a management block, or through an aperture (R38 to R41, R105 to R117, R175, R311 to
R316, R359 to R363). -/

namespace Sys2Proof.Machine

open Sys2Proof

/-! ### Words of a context record (R36) -/

def laneWord (l : Lane) (i : Nat) : Word := l.words[i % 8]!

/-- 0x0F8: bindings, inbox counts and heads. -/
def Strand.bindWord (x : Strand) : Word :=
  wordOf (x.qbind.toNat + x.inHigh.count * 2 ^ 8 + x.inLow.count * 2 ^ 12 + x.inHigh.head * 2 ^ 16 + x.inLow.head * 2 ^ 19)

/-- The specifier that the lookahead word holds for an operation's destination; 16 for none. DESIGN CHOICE (log 82). -/
def destCode (d : Option (Fin 16)) : Nat := match d with | some n => n.val | none => 16

/-- 0x0A8: N, the destinations, W and the outstanding engine commands. The destinations stand oldest first, an unused
field is 0. DESIGN CHOICE (log 82). -/
def Strand.lookWord (x : Strand) : Word :=
  let dests := (x.ops.take 4).foldr (fun o acc => destCode o.dest + 32 * acc) 0
  wordOf (x.ops.length + dests * 2 ^ 8 + x.window % 16 * 2 ^ 28 + x.engines % 65536 * 2 ^ 32)

def segWord (d : SegDesc) (k : Nat) : Word :=
  if k = 0 then d.base else if k = 1 then d.limit else d.rights.zeroExtend 64

/-- Word `idx` of a strand's context record (R36). -/
def Strand.word (x : Strand) (idx : Nat) : Word :=
  if idx < 16 then x.g[idx]!
  else if idx = 16 then wordOf (x.mask.toNat + x.mode.toNat * 65536)
  else if idx = 17 then x.pc
  else if idx = 18 then x.loopStart
  else if idx = 19 then x.loopEnd
  else if idx = 20 then x.loopCount
  else if idx = 21 then x.lookWord
  else if idx = 22 then x.fa
  else if idx = 23 then x.fb
  else if idx = 24 then x.fc
  else if idx = 25 then x.fs
  else if idx = 26 then x.task
  else if idx = 27 then x.joinOrParent
  else if idx = 28 then x.roundPos
  else if idx = 29 then wordOf (x.fpflags.toNat + x.rmode.toNat * 256)
  else if idx = 30 then x.outTarget
  else if idx = 31 then x.bindWord
  else if idx < 40 then laneWord x.inHigh (idx - 32)
  else if idx < 48 then laneWord x.inLow (idx - 40)
  else if idx < 72 then segWord (x.segs.getD ((idx - 48) / 3) SegDesc.zero) ((idx - 48) % 3)
  else if idx = 72 then x.epc
  else if idx = 73 then x.cause
  else if idx = 74 then x.tval
  else if idx = 75 then x.savedMode.zeroExtend 64
  else if idx = 76 then x.opc
  else if idx = 77 then x.lacount
  else if idx = 78 then x.engTrap
  else if idx = 79 then x.engTval
  else 0

def Strand.full (x : Strand) (n : Nat) : Bool := x.mask.getLsbD n

/-- The mask bit of a register (R36). -/
def maskBit (n : Fin 16) : BitVec 16 := (1 : BitVec 16) <<< n.val

/-- A register's value and full bit, with what its reader acquires. -/
def Strand.setReg (x : Strand) (n : Fin 16) (v : Word) (full : Bool) (note : Note) : Strand :=
  { x with g := x.g.set n v, notes := x.notes.set n note
           mask := if full then x.mask ||| maskBit n else x.mask &&& ~~~(maskBit n) }

/-- A register's full bit alone. -/
def Strand.setBit (x : Strand) (n : Fin 16) (full : Bool) : Strand :=
  { x with mask := if full then x.mask ||| maskBit n else x.mask &&& ~~~(maskBit n) }

/-- The wakes that follow a change of a register's bit: the strand itself, and parties that wait on it (R40, R112).
DEDUCED (log 23). -/
def wakeBit (k : Key) (n : Fin 16) (full : Bool) (c : Core) : Core :=
  let c := if full then wakeReg k n c else c
  let waiters := (waitersOf c (.ctxWord k.ctx n full)).filter fun x => x.key.job == k.job
  { c with wakes := c.wakes ++ waiters.map fun x => ⟨x.key, some (.ctxWord k.ctx n full), false⟩ }

/-- The general registers in order. -/
def allRegs : List (Fin 16) := [0, 1, 2, 3, 4, 5, 6, 7, 8, 9, 10, 11, 12, 13, 14, 15]

/-- The wakes that follow a change of a strand's mask bits (R40, R112). -/
def wakeChanged (k : Key) (old new : BitVec 16) (c : Core) : Core :=
  if old = new then c
  else allRegs.foldl (fun c (n : Fin 16) => if old.getLsbD n == new.getLsbD n then c else wakeBit k n (new.getLsbD n) c) c

/-- A strand changed by its own instruction, with the wakes that its register bits bring. -/
def updRegs (k : Key) (f : Strand → Strand) (c : Core) : Core :=
  match c.strand? k with
  | none => c
  | some x => wakeChanged k x.mask (f x).mask (c.setStrand (f x))

/-- The strand in hand changed, with the wakes that its register bits bring. -/
def updMine (f : Strand → Strand) : Act Unit := do
  let k ← myKey
  onCore (updRegs k f)

def sendEvent (e : SupEvent) : Act Unit := do
  let p ← read
  onCore (supSend p e)

/-! ### The management block (R363) -/

/-- A word that a die's management block holds, but for the writes on their way. -/
def mgmtHeld (p : Platform) (die off : Nat) : Word :=
  if h : die < 4 then
    let m := p.mgmt[die]
    match off / 8 with
    | 0 => wordOf m.capacityA
    | 1 => wordOf m.capacityB
    | 2 => wordOf m.corrected
    | 3 => wordOf m.uncorrected
    | 4 => m.release
    | 5 => wordOf (m.mappedA.toNat + m.mappedB.toNat * 65536)
    | 6 => wordOf m.scrubHours
    | 7 => wordOf (m.power % 65536 + if m.throttle then 65536 else 0)
    | 8 => wordOf m.supQueue
    | 9 => wordOf m.window
    | 10 => wordOf (m.userTable / 4096 * 4096 + m.userTable % 16)
    | 11 => wordOf m.jobTable
    | _ => 0
  else 0

/-- Whether a write covers byte `k` of its word. -/
def MgmtWrite.covers (w : MgmtWrite) (k : Nat) : Bool := decide (w.off % 8 ≤ k) && decide (k < w.off % 8 + w.size)

/-- The word that a write's bytes make of another. -/
def MgmtWrite.merge (w : MgmtWrite) (old : Word) : Word :=
  wordOf (setBits old.toNat (8 * (w.off % 8)) (8 * w.size) w.value.toNat)

/-- Whether a write of Scrub period takes effect: it gives the hours, 1 to 168. -/
def MgmtWrite.givesHours (w : MgmtWrite) (old : Word) : Bool :=
  w.off / 8 == 6 && w.covers 0 && decide (1 ≤ (w.merge old).toNat) && decide ((w.merge old).toNat ≤ 168)

/-- What a write leaves of its word: of Release the fields that it has, of Scrub period the hours that it gives, and of any other
word, which the supervisor does not write, nothing new. -/
def MgmtWrite.leaves (w : MgmtWrite) (old : Word) : Word :=
  if w.off / 8 = 4 then w.merge old &&& 0x800000000000001F
  else if w.givesHours old then w.merge old
  else old

/-- Whether a write is of the word at an offset of a die's block. -/
def MgmtWrite.isOf (w : MgmtWrite) (die off : Nat) : Bool := w.die == die && w.off / 8 == off / 8

/-- A word of a die's management block as every access finds it: the writes on their way have been performed in order, and only
what the device does about them is still to come (R156 to R159). DEDUCED (log 103). -/
def mgmtWord (p : Platform) (c : Core) (die off : Nat) : Word :=
  (c.mgmtWrites.filter fun w => w.isOf die off).foldl (fun v w => w.leaves v) (mgmtHeld p die off)

/-! ### Apertures (R311 to R316) -/

/-- What a load brings: its value, and the word that makes it take POISON. -/
structure Loaded where
  value : Nat
  poison : Option Nat
  deriving DecidableEq, Repr

/-- The device number of member `i` of a group (R309). -/
def memberDevice (p : Platform) (c : Core) (job g i : Nat) : Nat :=
  c.mem.read (c.mem.read (groupAddr p c job g) 8 + 2 * i) 2

def groupCount (p : Platform) (c : Core) (job g : Nat) : Nat := c.mem.read (groupAddr p c job g + 0x10) 4
def groupOwn (p : Platform) (c : Core) (job g : Nat) : Nat := c.mem.read (groupAddr p c job g + 0x14) 4

/-- One element reduced with the next member's (R314). Operation 0 sum, 1 max, 2 min; format 0 `f32`, 1 `bf16`, 2
`i32`. -/
def reduceStep (op fmt : Nat) (x y : Nat) : Nat :=
  if fmt = 2 then
    let a := signedOf x 32
    let b := signedOf y 32
    if op = 0 then (x + y) % 2 ^ 32
    else if op = 1 then (if a < b then y else x) % 2 ^ 32
    else (if b < a then y else x) % 2 ^ 32
  else if op = 0 then f32Add x y
  else if op = 1 then f32Max x y
  else f32Min x y

/-- The members' elements of one place folded in ascending member order (R310, R314): `bf16` sums pass through binary32
and are rounded once. -/
def reduceList (op fmt : Nat) (xs : List Nat) : Nat :=
  match xs with
  | [] => 0
  | x :: rest =>
    if fmt = 1 then
      let wide := fun y => (y % 65536) * 65536
      let r := rest.foldl (fun a y => reduceStep op fmt a (wide y)) (wide x)
      convert (f32Value r) bf16 modeRNE false 0
    else rest.foldl (reduceStep op fmt) x

/-- Elements of an aligned 8-byte word reduced separately. -/
def reduceWords (op fmt : Nat) (ws : List Word) : Word :=
  let size := if fmt = 1 then 16 else 32
  wordOf ((List.range (64 / size)).foldl
    (fun acc i => acc + reduceList op fmt (ws.map fun w => bitsOf w.toNat (i * size) size) * 2 ^ (i * size)) 0)

/-- The kind of an aperture page for this device (R311): a remote page that names this device is its own memory (R307,
R312). -/
def apertureKind (p : Platform) (word : Nat) : Nat :=
  if bitsOf word 0 2 = 3 ∧ bitsOf word 16 14 = p.deviceNo then 0 else bitsOf word 0 2

/-- A free value that the fabric brings, unless the access was diverted where it arrived (R315). -/
def fabricValue : Act (Option Word) := do
  let c ← get
  let w ← freeValue
  pure (if Config.remoteDiverts c.freeNo then none else some w)

/-- An access over the fabric that is not performed: a CAP record of item 4 follows, with its sender's context if it has one on this
device (R144, R315). -/
def fabricDiverted (job va ctx : Nat) (cap : BitVec 16) (device : Nat) : Act Unit := do
  let st := home va
  let key := ((← get).station st).pkey
  sendEvent ⟨dieOf st, 4, st, job, ctx, wordOf (4 * 2 ^ 56 + key.toNat), [wordOf va, cap.zeroExtend 64, wordOf device]⟩

/-- The own member's word of a reducing load, compared here as at every member (R315). -/
def ownMember (pt : Party) (own : Word) (va : Nat) : Act (Option Word) := do
  let cap := ((← get).station pt.station).pkey
  if cap = Config.pageKey pt.job (va / 65536) then pure (some own)
  else
    fabricDiverted pt.job va pt.ctx cap (← read).deviceNo
    pure none

/-- The word of each member for a reducing load: the own member's cell, and a free value for another device's; none if
a device is lost (R316) or diverts the access (R315). -/
def memberWords (pt : Party) (own : Word) (g va : Nat) : Act (Option (List Word)) := do
  let p ← read
  let c ← get
  let m := groupCount p c pt.job g
  let self := groupOwn p c pt.job g
  let ids := List.range (m % 16385)
  if ids.any (fun i => i != self && p.lostDevices.contains (memberDevice p c pt.job g i)) then pure none
  else do
    let ws ← ids.mapM fun i => if i = self then ownMember pt own va else fabricValue
    pure (if ws.all Option.isSome then some (ws.filterMap id) else none)

/-- A load of an aperture page (R312, R314, R316); `whole` is false for a full/empty access or atomic, which only a
remote page sends away. DESIGN CHOICE (log 13). -/
def apertureLoad (pt : Party) (word pa va size : Nat) (whole : Bool) : Act Loaded := do
  let p ← read
  let c ← get
  let localCell : Loaded := ⟨c.mem.read pa size, if c.mem.isPoison pa || layerGone p pa then some va else none⟩
  match apertureKind p word with
  | 2 =>
    if !whole then pure localCell
    else
      match ← memberWords pt (c.mem.read64 (pa / 8 * 8)) (bitsOf word 8 8) va with
      | none => pure ⟨0, some va⟩
      | some ws =>
        let r := reduceWords (bitsOf word 2 2) (bitsOf word 4 2) ws
        pure ⟨bitsOf r.toNat (8 * (va % 8)) (8 * size), if localCell.poison.isSome then some va else none⟩
  | 3 =>
    if p.lostDevices.contains (bitsOf word 16 14) then pure ⟨0, some va⟩
    else
      match ← fabricValue with
      | none => pure ⟨0, some va⟩
      | some w => pure ⟨w.toNat % 2 ^ (8 * size), none⟩
  | _ => pure localCell

/-- The strand's task has had an effect outside the package (R367). -/
def markOutside (pt : Party) : Act Unit :=
  onCore fun c => { c with tasks := c.tasks.map fun t =>
      if t.job == pt.job && t.record == pt.task then { t with outside := true } else t }

/-! ### Loads -/

/-- The home recalls a block from the stations that own it, but for one; a landing there ends first (R176). -/
def recallFrom (job block : Nat) (but : Option Nat) : Act Unit := do
  let c ← get
  match c.stations.find? fun x => some x.1 != but && (match mappedEntry x.2 job block with | some o => o.valid | none => false) with
  | some (q, s) =>
    match mappedEntry s job block with
    | some o =>
      needLanded q o.index
      let _ ← writeBackEntry q o
      onCore fun c => c.updStation q fun s => setStashEntry s { o with dirty := 0, writer := 0, valid := false, plines := [] }
    | none => pure ()
  | none => pure ()

/-- The home recalls a block from the station that owns it (R176). -/
def recallBlock (job va : Nat) : Act Unit := recallFrom job (va / 256 * 256) none

/-- Word `j` of what a line reaches: its value, its full/empty bit and whether it is poisoned. -/
def Target.wordAt (p : Platform) (c : Core) (j : Nat) : Target → Word × Bool × Bool
  | .cell pa _ => (c.mem.read64 (pa + 8 * j), c.mem.isFull (pa + 8 * j), c.mem.isPoison (pa + 8 * j) || layerGone p pa)
  | .aperture _ pa => (c.mem.read64 (pa + 8 * j), c.mem.isFull (pa + 8 * j), c.mem.isPoison (pa + 8 * j) || layerGone p pa)
  | .mgmt die off => (mgmtWord p c die (off + 8 * j), false, false)
  | .record k off =>
    match c.strand? k with
    | some x => (x.word (off / 8 + j), false, recordBad p c x off)
    | none => (0, false, false)

/-- The physical line that a target lies in, if it is memory. -/
def Target.pline? : Target → Option Nat
  | .cell pa _ => some (pa / 64)
  | .aperture _ pa => some (pa / 64)
  | .mgmt _ _ | .record _ _ => none

/-- Bits of a list, the first lowest. -/
def bitsNat (l : List Bool) : Nat := l.foldr (fun b x => (if b then 1 else 0) + 2 * x) 0

/-- The first local touch of an EMPTY entry fills it from the home (R175); another owner is recalled first (R176). Every other access
to the block reaches the home from then on, so that no L1 serves it. A page that is not present stops it with the fault of the access
that touches. -/
def fillEntry (pid : Nat) (e : StashEntry) (fault : Nat → Nat × Nat × Nat) : Act StashEntry := do
  match e.mapped with
  | none => pure e
  | some (job, va) =>
    recallFrom job va (some pid)
    let lines ← blockLines ⟨job, pid, 0, 0, false⟩ va fault
    let p ← read
    let c ← get
    let words := (List.range 32).map fun i => (lines.getD (i / 8) (.mgmt 4 0)).wordAt p c (i % 8)
    let data := words.foldr (fun w acc => leBytes 8 w.1.toNat ++ acc) []
    let e := { e with
      valid := true, dirty := 0, full := BitVec.ofNat 32 (bitsNat (words.map fun w => w.2.1))
      poison := BitVec.ofNat 32 (bitsNat (words.map fun w => w.2.2)), plines := lines.map Target.pline? }
    onCore fun c => (dropCopies none (fun x => x.job == job && x.vline / 8 == va / 256) c).updStation pid fun s =>
      setStashEntry (setStashBytes s (e.index * 256) data) e
    pure e

/-- Whether a live context record lies in a block: no window serves it (R41). -/
def blockHasRecord (c : Core) (job va : Nat) : Bool := (recordAt c job va).isSome

/-- The entry of the strand's own station that serves an ordinary access (R175), filled. -/
def windowEntry (pt : Party) (va kind size : Nat) : Act (Option StashEntry) := do
  let c ← get
  if !pt.strand || blockHasRecord c pt.job va then pure none
  else
    match mappedEntry (c.station pt.station) pt.job (va / 256 * 256) with
    | none => pure none
    | some e => do
      let e ← if e.valid then pure e else fillEntry pt.station e fun _ => (va, kind, size)
      pure (some e)

/-! ### Apertures of one cell (R170) -/

/-- Whether a clean byte of a valid entry is not what memory holds: the cell was written through another aperture. -/
def entryStale (c : Core) (s : Station) (e : StashEntry) : Bool :=
  e.valid && (List.range 256).any fun i =>
    !e.dirty.getLsbD i &&
    (match e.plines.getD (i / 64) none with
     | some l => c.mem.byte (64 * l + i % 64) != cellsGet s.stash (256 * e.index + i)
     | none => false)

/-- Whether an L1 copy is not what memory holds. -/
def l1Stale (c : Core) (x : L1Line) : Bool := BitVec.ofNat 256 (c.mem.read (64 * x.pline + 32 * (x.vline % 2)) 32) != x.data

/-- A read that starts from here on returns what has been flushed, through whatever aperture (R170): windows and L1 copies
that memory no longer agrees with are given up, and a window's own dirty bytes are written back. -/
def refreshApertures : Act Unit := do
  let c ← get
  c.stations.forM fun s =>
    (s.2.entries.filter (entryStale c s.2)).forM fun e => do
      needLanded s.1 e.index
      let _ ← writeBackEntry s.1 e
      onCore fun c => c.updStation s.1 fun s => setStashEntry s { e with dirty := 0, writer := 0, valid := false, plines := [] }
  onCore fun c => dropCopies none (l1Stale c) c

/-- Every dirty window entry of a job written back. -/
def flushWindows (job : Nat) : Act Unit := do
  let c ← get
  c.stations.forM fun s =>
    (s.2.entries.filter fun e => e.dirty != 0 && (match e.mapped with | some (j, _) => j == job | none => false)).forM fun e => do
      needLanded s.1 e.index
      let _ ← writeBackEntry s.1 e

/-! ### The L1 data cache (R379) -/

/-- The L1 line of a job that holds an address. -/
def l1Find (s : Station) (job va : Nat) : Option L1Line := s.l1.find? fun x => x.job == job && x.vline == va / 32

/-- Whether two lines fall into one set. -/
def L1Line.sameSet (x y : L1Line) : Bool :=
  Config.l1Set x.job x.vline % Config.l1Sets == Config.l1Set y.job y.vline % Config.l1Sets

/-- A line put in as the most recently used; a set that is full loses its least recently used line. -/
def l1Insert (x : L1Line) (l : List L1Line) : List L1Line :=
  let l := l.filter fun y => !(y.job == x.job && y.vline == x.vline)
  let set := l.filter x.sameSet
  x :: (if set.length < Config.l1Ways then l
        else match set.getLast? with
          | some y => l.filter fun z => !(z.job == y.job && z.vline == y.vline)
          | none => l)

/-- The 32 bytes of a cell's L1 line as memory holds them. -/
def l1Data (m : Mem) (pa : Nat) : BitVec 256 := BitVec.ofNat 256 (m.read (pa / 32 * 32) 32)

/-- The station's L1 after an ordinary load of a cell. A line with a poisoned word, or of a layer that is gone, is not
allocated. DESIGN CHOICE (log 24). -/
def touchL1 (p : Platform) (pt : Party) (va pa : Nat) (c : Core) : Core :=
  if pt.strand && !layerGone p pa && !(List.range 4).any (fun k => c.mem.isPoison (pa / 32 * 32 + 8 * k)) then
    c.updStation pt.station fun s => { s with l1 := l1Insert ⟨pt.job, va / 32, pa / 64, l1Data c.mem pa⟩ s.l1 }
  else c

/-- A store by a strand of the station updates the station's copy, if there is one. -/
def updateL1 (pt : Party) (va pa : Nat) (c : Core) : Core :=
  if pt.strand && (l1Find (c.station pt.station) pt.job va).isSome then
    c.updStation pt.station fun s =>
      { s with l1 := s.l1.map fun x => if x.job = pt.job ∧ x.vline = va / 32 then { x with data := l1Data c.mem pa } else x }
  else c

/-- The L1 copy that serves an ordinary load of a strand; a live record or a management block is no such line. -/
def l1Hit (c : Core) (pt : Party) (va : Nat) : Option L1Line :=
  if pt.strand && (recordAt c pt.job va).isNone then l1Find (c.station pt.station) pt.job va else none

/-- The local cell of an aperture page, which every engine access reaches (R312). -/
def loadLocal (pa va size : Nat) : Act Loaded := do
  let p ← read
  let c ← get
  pure ⟨c.mem.read pa size, if c.mem.isPoison pa || layerGone p pa then some (va / 8 * 8) else none⟩

/-- An access follows those of its strand before it that reach the same word and are still on their way: a decrement of the node
whose record it reaches, and a lineage member under way, of which it may reach any word (R159). -/
def needEarlier (pt : Party) (va size : Nat) : Act Unit := do
  let c ← get
  let k : Key := ⟨pt.job, pt.ctx⟩
  if pt.strand && (c.decrements.any (fun d => d.ofStrand k && decide (va < d.record + 8) && decide (d.record < va + size)) ||
      c.members.any fun r => r.key == k) then stop (.hold .none)
  else pure ()

/-- Load(va, size) of R82: the value, and the poisoned word if there is one. A stash window serves it, else the L1 copy,
else the home. -/
def loadAt (pt : Party) (va size : Nat) : Act Loaded := do
  needEarlier pt va size
  match ← windowEntry pt va 1 size with
  | some e =>
    let s := (← get).station pt.station
    let bad := e.poison.getLsbD (va % 256 / 8)
    pure ⟨leNat (stashBytes s (e.index * 256 + va % 256) size), if bad then some va else none⟩
  | none =>
    match l1Hit (← get) pt va with
    | some x =>
      pinCheck pt va true
      onCore fun c => c.updStation pt.station fun s => { s with l1 := l1Insert x s.l1 }
      pure ⟨bitsOf x.data.toNat (8 * (va % 32)) (8 * size), none⟩
    | none =>
      recallBlock pt.job va
      match ← locate pt.job va 1 size with
      | .cell pa pin =>
        pinCheck pt va pin
        let p ← read
        onCore (touchL1 p pt va pa)
        let c ← get
        pure ⟨c.mem.read pa size, if c.mem.isPoison pa || layerGone p pa then some (va / 8 * 8) else none⟩
      | .mgmt die off => do
        let p ← read
        let c ← get
        pure ⟨bitsOf (mgmtWord p c die off).toNat (8 * (off % 8)) (8 * size), none⟩
      | .aperture word pa => if pt.strand then apertureLoad pt word pa va size true else loadLocal pa va size
      | .record k off =>
        match (← get).strand? k with
        | some x =>
          pure ⟨bitsOf (x.word (off / 8)).toNat (8 * (off % 8)) (8 * size),
            if recordBad (← read) (← get) x off then some (va / 8 * 8) else none⟩
        | none => pure ⟨0, none⟩

/-! ### Stores -/

/-- A record that a layer took with it refuses what would be written there (R109, R370). -/
def needRecord (k : Key) (off va : Nat) : Act Unit := do
  let p ← read
  let c ← get
  if (c.strand? k).any fun x => recordGone p c x off then stop (.refuse (va / 8 * 8)) else pure ()

/-- An ordinary store to a live context record (R38, R39). -/
def storeRecord (pt : Party) (k : Key) (off va size : Nat) (v : Word) : Act Unit := do
  needRecord k off va
  let p ← read
  onCore (recordStore p pt k off va size v)

/-- The launch slots, by die and number, whose seal byte is the last of some bytes (R219, R220). -/
def sealSlots (p : Platform) (pa size : Nat) : List (Nat × Nat) :=
  (List.range 4).filterMap fun die =>
    let w := (if h : die < 4 then (p.mgmt[die]).window else 0) + 64
    let last := pa + size - 1
    if w ≠ 64 ∧ w ≤ last ∧ last < w + 4096 ∧ (last - w) % 256 = 255 then some (die, (last - w) / 256) else none

/-- The line monitor notes a launch slot whose seal byte is written (R220); a rejected record of a user queue whose seal byte is
written is a new one, once its doorbell rings (R221). -/
def noteSeal (p : Platform) (pa size : Nat) (c : Core) : Core :=
  let c := if c.rejected.isEmpty then c
    else { c with rewritten := (c.rejected.filter fun a => decide (pa ≤ a) && decide (a < pa + size)) ++ c.rewritten }
  match sealSlots p pa size with
  | [] => c
  | l => { c with seals := c.seals.filter (fun x => !l.contains x) ++ l }

/-- A store into a cell of memory; a sub-word store to a poisoned word, and any store to a layer that is gone, is refused
(R109, R370); a whole word clears the poison of its own word if no other word of the line is poisoned (R361). -/
def storeCell (pt : Party) (pa va size : Nat) (v : Word) : Act Unit := do
  let p ← read
  let c ← get
  if layerGone p pa || (size != 8 && c.mem.isPoison pa) then stop (.refuse (va / 8 * 8))
  else
    onCore fun c =>
      let c := beforeWrite p pt va pa (if pt.strand then some pt.station else none) c
      let m := c.mem.write pa size v.toNat
      updateL1 pt va pa
        (noteSeal p pa size { c with mem := if size == 8 && !m.othersPoison pa then m.setPoison pa false else m })

/-- The instruction on whose behalf an access is made: its address and its place in program order. -/
def issuing : Act (Word × Nat) := do
  match (← get).work with
  | .strand _ _ k _ _ =>
    match (← get).strand? k with
    | some x => pure (match x.dropped with | some d => (d.addr, d.stamp) | none => (x.pc, x.issues))
    | none => pure (0, 0)
  | .idle | .engine _ | .event _ => pure (0, 0)

/-- A store to a multicast page leaves for every member; the issuer's own copy is written when it returns (R312, R313). -/
def sendMulticast (pt : Party) (va pa size : Nat) (v : Word) (full : Bool) : Act Unit := do
  markOutside pt
  let (opc, stamp) ← issuing
  onCore fun c => { c with multicasts := c.multicasts ++
    [⟨⟨pt.job, pt.ctx⟩, pt.station, pt.task, opc, stamp, va, pa, size, v, full, (c.station pt.station).pkey⟩] }

/-- A release follows every access before it: it waits until none of the strand's accesses is on its way (R162): a store to a
multicast page, which has to return (R313), a decrement of a node, a lineage member under way. -/
def needReturned (pt : Party) : Act Unit := do
  if pt.strand && (← get).sending ⟨pt.job, pt.ctx⟩ then stop (.hold .none) else pure ()

/-- Store(va, size, v) of R82, relaxed. -/
def storeAt (pt : Party) (va size : Nat) (v : Word) : Act Unit := do
  needEarlier pt va size
  match ← windowEntry pt va 2 size with
  | some e =>
    let o := va % 256
    claimEntry pt.station e.index pt.task
    let e := stashEntry ((← get).station pt.station) e.index
    if e.poison.getLsbD (o / 8) && size != 8 then stop (.refuse (va / 8 * 8))
    else
      let line := (e.poison.extractLsb' (o / 64 * 8) 8).toNat
      let clears := size == 8 && line &&& (255 - 2 ^ (o % 64 / 8)) == 0
      let e' := { e with
        dirty := e.dirty ||| ((BitVec.ofNat 256 (2 ^ size - 1)) <<< o)
        poison := if clears then e.poison &&& ~~~((1 : BitVec 32) <<< (o / 8)) else e.poison }
      onCore fun c => c.updStation pt.station fun s =>
        setStashEntry (setStashBytes s (e.index * 256 + o) (leBytes size v.toNat)) e'
  | none =>
    recallBlock pt.job va
    match ← locate pt.job va 2 size with
    | .cell pa pin =>
      pinCheck pt va pin
      storeCell pt pa va size v
    | .mgmt die off => onCore (sendMgmt die off size v)
    | .aperture word pa => do
      let p ← read
      match pt.strand, apertureKind p word with
      | true, 1 => sendMulticast pt va pa size v false
      | true, 3 => markOutside pt
      | _, _ => storeCell pt pa va size v
    | .record k off => storeRecord pt k off va size v

/-! ### Full/empty accesses (R40, R111 to R115) -/

/-- What a full/empty operation does to a word: stop to wait for a state of the bit, or a result, the new value and the
new bit. -/
inductive FeEffect where
  | wait (full : Bool)
  | go (result : Nat) (value : Option Word) (bit : Option Bool)
  deriving DecidableEq, Repr

/-- The effect of a full/empty operation on a word that is full or empty (R111, R113). -/
def feEffect (op : FeOp) (full : Bool) (old v : Word) : FeEffect :=
  match op with
  | .ldf => if full then .go old.toNat none none else .wait true
  | .ldfe => if full then .go old.toNat none (some false) else .wait true
  | .stef => if full then .wait false else .go 0 (some v) (some true)
  | .stf => .go 0 (some v) (some true)
  | .probe => .go (if full then 1 else 0) none none
  | .set => .go 0 none (some true)
  | .clr => .go 0 none (some false)
  | .wait => if full then .go 0 none none else .wait true
  | .waite => if full then .wait false else .go 0 none none

def FeOp.isStore : FeOp → Bool
  | .stef | .stf => true
  | .ldf | .ldfe | .probe | .set | .clr | .wait | .waite => false

def FeOp.acquires : FeOp → Bool
  | .ldf | .ldfe => true
  | .stef | .stf | .probe | .set | .clr | .wait | .waite => false

/-- Translate's kind of a full/empty operation: 1 R, 2 W, 3 R then W (R105). -/
def FeOp.kind : FeOp → Nat
  | .ldf | .probe | .wait | .waite => 1
  | .stef | .stf | .set | .clr => 2
  | .ldfe => 3

/-- An acquire of a register that a remote fill set (R168): from outside the recorded scope it is a SCOPE trap. -/
def acquireFill (pt : Party) (scope : Scope) (va : Nat) (n : Note) : Act Unit :=
  match n with
  | .fill s st cx =>
    if scopeHas s st cx pt.station pt.ctx && scopeHas scope pt.station pt.ctx st cx then pure ()
    else trapWith causeScope (wordOf va)
  | .plain | .completion _ _ => pure ()

/-- The note of a register after a full/empty operation that found it full or empty: a fill's release; what changes the bit
otherwise leaves nothing to acquire (R168), and what changes nothing leaves the note (R113). -/
def FeOp.note (op : FeOp) (pt : Party) (scope : Scope) (full : Bool) (old : Note) : Note :=
  match op with
  | .stef | .stf => .fill scope pt.station pt.releaser
  | .ldfe => .plain
  | .set => if full then old else .plain
  | .clr => if full then .plain else old
  | .ldf | .probe | .wait | .waite => old

/-- A full/empty access on a register of a live record (R40); beyond 0x07F it is refused with SEG (R38). A line that an
error has poisoned is as poisoned memory (R360). -/
def feRecord (pt : Party) (op : FeOp) (k : Key) (off va : Nat) (v : Word) (scope : Scope) : Act Loaded := do
  if h : off / 8 < 16 then
    let n : Fin 16 := ⟨off / 8, h⟩
    match (← get).strand? k with
    | none => pure ⟨0, none⟩
    | some x =>
      match feEffect op (x.full n) (x.word n) v with
      | .wait full => stop (.park (.ctxWord k.ctx n full))
      | .go r value bit =>
        let bad := recordBad (← read) (← get) x off
        if bad && op.isStore then stop (.refuse va)
        else if bad && op.acquires then pure ⟨0, some va⟩
        else do
          if op.acquires then acquireFill pt scope va x.notes[n]
          let y := match value with | some w => x.setValue n w | none => x
          let z := match bit with | some b => y.setBit n b | none => y
          onCore fun c => c.setStrand { z with notes := z.notes.set n (op.note pt scope (x.full n) x.notes[n]) }
          match bit with
          | some b => if b != x.full n then onCore (wakeBit k n b)
          | none => pure ()
          pure ⟨r, none⟩
  else trapWith causeSeg (wordOf va)

/-- A word's bit changed, and the waiters that the new state satisfies woken (R112). -/
def changeBit (p : Platform) (pt : Party) (va pa : Nat) (b : Bool) (c : Core) : Core :=
  let c := beforeWrite p pt va pa none c
  wakeAll (.feWord pa b) { c with mem := c.mem.setFull pa b }

/-- Bytes of a cell written at its home. -/
def writeCell (p : Platform) (pt : Party) (va pa size x : Nat) (c : Core) : Core :=
  let c := beforeWrite p pt va pa none c
  { c with mem := c.mem.write pa size x }

/-- A word written with a release at a scope (R111, R164). -/
def releaseWord (p : Platform) (pt : Party) (va pa : Nat) (w : Word) (scope : Scope) (line : LineKind) (c : Core) : Core :=
  releaseLine pt va scope line (writeCell p pt va pa 8 w.toNat c)

/-- A full/empty access on a cell (R111). A store that has to wait for an empty word of a poisoned line waits first. DESIGN
CHOICE (log 72). -/
def feCell (pt : Party) (op : FeOp) (pa va : Nat) (line : LineKind) (v : Word) (scope : Scope) : Act Loaded := do
  let p ← read
  let c ← get
  let full := c.mem.isFull pa
  if layerGone p pa then
    -- Every later access to a layer that is gone completes poisoned (R370).
    if op.kind == 2 then stop (.refuse va) else pure ⟨0, some va⟩
  else if op.isStore && c.mem.linePoison pa then
    match feEffect op full 0 v with
    | .wait f => stop (.park (.feWord pa f))
    | .go _ _ _ => stop (.refuse va)
  else
    match feEffect op full (c.mem.read64 pa) v with
    | .wait f => stop (.park (.feWord pa f))
    | .go r value bit =>
      if op.acquires then
        if c.mem.isPoison pa then pure ⟨0, some va⟩
        else do
          acquireCheck pt scope va pa line
          match bit with
          | some b => onCore (changeBit p pt va pa b)
          | none => pure ()
          pure ⟨r, none⟩
      else do
        match value with
        | some w => onCore (releaseWord p pt va pa w scope line)
        | none => pure ()
        match bit with
        | some b =>
          if b != full then onCore (changeBit p pt va pa b)
        | none => pure ()
        pure ⟨r, none⟩

/-- The cell of another device as a strand waits on it. -/
def remoteCell (device va : Nat) : Nat := (device + 1) * 2 ^ 64 + va

/-- A full/empty access to a remote page (R312): it is performed at the target's home, where the word's bit may make it
wait; a free value tells. A lost device, or one that diverts a load, gives zero and POISON (R315, R316). -/
def remoteFe (pt : Party) (op : FeOp) (device va : Nat) : Act Loaded := do
  let p ← read
  let v := Config.freeWord (← get).freeNo
  if p.lostDevices.contains device then pure ⟨0, if op.isStore || op == .set || op == .clr then none else some va⟩
  else
    match feEffect op (v.getLsbD 0) 0 0 with
    | .wait f => stop (.park (.feWord (remoteCell device va) f))
    | .go _ _ _ =>
      onCore fun c => { c with freeNo := c.freeNo + 1 }
      match op with
      | .stef | .stf | .set | .clr | .wait | .waite => do
        if op.isStore || op == .set || op == .clr then markOutside pt
        pure ⟨0, none⟩
      | .ldf | .ldfe | .probe => do
        if op == .ldfe then markOutside pt
        match ← fabricValue with
        | none => pure ⟨0, some va⟩
        | some w => pure ⟨if op == .probe then w.toNat % 2 else w.toNat, none⟩

/-- A full/empty access to a word of a management block, which holds no full/empty bit: loads read it, stores are ordinary, a
probe's answer is a free value, and the other minors do nothing. DESIGN CHOICE (log 92). -/
def feMgmt (op : FeOp) (die off : Nat) (v : Word) : Act Loaded := do
  match op with
  | .ldf | .ldfe => pure ⟨(mgmtWord (← read) (← get) die off).toNat, none⟩
  | .stef | .stf =>
    onCore (sendMgmt die off 8 v)
    pure ⟨0, none⟩
  | .probe => pure ⟨(← freeValue).toNat % 2, none⟩
  | .set | .clr | .wait | .waite => pure ⟨0, none⟩

/-- A full/empty access (R111, R113): `stf` on a multicast page writes every member (R312). -/
def feAt (pt : Party) (op : FeOp) (va : Nat) (v : Word) (scope : Scope) : Act Loaded := do
  if op.isStore then needReturned pt else needEarlier pt va 8
  recallBlock pt.job va
  match ← locate pt.job va op.kind 8 with
  | .cell pa pin =>
    pinCheck pt va pin
    feCell pt op pa va (.of pin) v scope
  | .mgmt die off => feMgmt op die off v
  | .aperture word pa => do
    let p ← read
    match pt.strand, apertureKind p word with
    | true, 3 => remoteFe pt op (bitsOf word 16 14) va
    | true, 1 =>
      if op == .stf then
        sendMulticast pt va pa 8 v true
        pure ⟨0, none⟩
      else feCell pt op pa va .aperture v scope
    | _, _ => feCell pt op pa va .aperture v scope
  | .record k off => feRecord pt op k off va v scope

/-! ### Atomics (R116, R117) -/

/-- Op(op, old, b, e) of R116 on values of `w` bits. -/
def amoNew (op : AmoOp) (w old b e : Nat) : Option Nat :=
  match op with
  | .swap => some b
  | .add => some ((old + b) % 2 ^ w)
  | .and => some (old &&& b)
  | .or => some (old ||| b)
  | .xor => some (old ^^^ b)
  | .min => some (if signedOf old w < signedOf b w then old else b)
  | .max => some (if signedOf b w < signedOf old w then old else b)
  | .minz => some (min old b)
  | .maxz => some (max old b)
  | .cas => if old = e then some b else none
  | .fadd => some (f32Add old b)
  | .inc => some (if b ≤ old then 0 else old + 1)

def ordAcquires : MemOrd → Bool
  | .acquire | .acqRel => true
  | .relaxed | .release => false

def ordReleases : MemOrd → Bool
  | .release | .acqRel => true
  | .relaxed | .acquire => false

def aScope : AScope → Scope
  | .station => .station
  | .die => .die
  | .package => .package
  | .system => .system

/-- An atomic on a cell. DEDUCED (log 33). -/
def amoCell (pt : Party) (op : AmoOp) (pa va size b e : Nat) (ord : MemOrd) (scp : AScope) (line : LineKind) :
    Act Loaded := do
  let p ← read
  let c ← get
  if c.mem.isPoison pa || layerGone p pa then pure ⟨0, some va⟩
  else do
    if ordAcquires ord then acquireCheck pt (aScope scp) va pa line
    let old := c.mem.read pa size
    match amoNew op (8 * size) old b e with
    | some x => onCore (writeCell p pt va pa size x)
    | none => pure ()
    if ordReleases ord then onCore (releaseLine pt va (aScope scp) line)
    pure ⟨old, none⟩

/-- An atomic on a live record: on a register's value at 0x000 to 0x07F, discarded beyond (R117). Its acquire is of the
fill that the register holds, and its release is recorded with the register (R116, R128, R168). DEDUCED (log 33). One that is
discarded is reported with its operand b, and a compare does not decide that: DESIGN CHOICE (log 121). -/
def amoRecord (pt : Party) (op : AmoOp) (k : Key) (off va size b e : Nat) (ord : MemOrd) (scp : AScope) : Act Loaded := do
  if h : off / 8 < 16 then
    match (← get).strand? k with
    | none => pure ⟨0, none⟩
    | some x =>
      if recordBad (← read) (← get) x off then pure ⟨0, some va⟩
      else do
        let n : Fin 16 := ⟨off / 8, h⟩
        if ordAcquires ord then acquireFill pt (aScope scp) va x.notes[n]
        let whole := (x.word (off / 8)).toNat
        let old := bitsOf whole (8 * (off % 8)) (8 * size)
        match amoNew op (8 * size) old b e with
        | some v => onCore fun c => c.updStrand k fun x =>
            x.setValue n (wordOf (setBits whole (8 * (off % 8)) (8 * size) v))
        | none => pure ()
        if ordReleases ord then onCore fun c => c.updStrand k fun x =>
          { x with notes := x.notes.set n (.fill (aScope scp) pt.station pt.releaser) }
        pure ⟨old, none⟩
  else do
    sendEvent (ctxwrEvent va k.job pt.ctx (wordOf b))
    pure ⟨0, none⟩

def amoAt (pt : Party) (op : AmoOp) (va size b e : Nat) (ord : MemOrd) (scp : AScope) : Act Loaded := do
  if ordReleases ord then needReturned pt else needEarlier pt va size
  recallBlock pt.job va
  match ← locate pt.job va 3 size with
  | .cell pa pin =>
    pinCheck pt va pin
    amoCell pt op pa va size b e ord scp (.of pin)
  | .mgmt die off =>
    let p ← read
    let c ← get
    let old := bitsOf (mgmtWord p c die off).toNat (8 * (off % 8)) (8 * size)
    match amoNew op (8 * size) old b e with
    | some x => onCore (sendMgmt die off size (wordOf x))
    | none => pure ()
    pure ⟨old, none⟩
  | .aperture word pa => do
    let p ← read
    if pt.strand && apertureKind p word == 3 then
      markOutside pt
      apertureLoad pt word pa va size false
    else amoCell pt op pa va size b e ord scp .aperture
  | .record k off => amoRecord pt op k off va size b e ord scp

end Sys2Proof.Machine
end

