-- ==== Sys2Proof/Machine/Operands.lean ====
section
/-! DEFINITION. Every operand form: registers and ports as sources and destinations (R60, R61, R122 to R126, R168),
offsets and segment translation (R83, R104), and the context lines that an instruction needs (R44). -/

namespace Sys2Proof.Machine

open Sys2Proof

/-- The instruction needs a context line that has not arrived: the strand parks on it (R44, R50). A line that an error
poisoned counts as not arrived (R360). DEDUCED (log 29). -/
def needLine (line : Nat) : Act Unit := do
  let x ← me
  if x.lines.contains line && !x.badLines.contains line then pure () else stop (.park (.ctxLine line))

/-- The context line of a byte offset of the record. -/
def needOffset (off : Nat) : Act Unit := needLine (off / 64)

/-! ### Neighbour links (R11, R122) -/

/-- The neighbour of a station to the east or the west in its row. -/
def neighbour (pid : Nat) (east : Bool) : Option Nat :=
  if east then (if colOf pid = 15 then none else some (pid + 1))
  else (if colOf pid = 0 then none else some (pid - 1))

/-- The queue in which a station sees words from its east or west. -/
def Station.linkIn (s : Station) (east : Bool) : List LinkWord := if east then s.eastIn else s.westIn

def Station.setLinkIn (s : Station) (east : Bool) (q : List LinkWord) : Station :=
  if east then { s with eastIn := q } else { s with westIn := q }

/-- Whether the queue that a station sees as east-out or west-out has room, words on their way counted. -/
def linkRoom (c : Core) (pid : Nat) (east : Bool) : Bool :=
  match neighbour pid east with
  | none => false
  | some n =>
    decide (((c.station n).linkIn (!east)).length +
      (c.linkMsgs.filter fun m => m.pid == n && m.east == !east).length < Config.linkDepth)

/-- A word pushed into east-out or west-out; it carries the sender station's key. -/
def pushLink (east : Bool) (w : Word) : Act Unit := do
  let pid ← myStation
  let k ← myKey
  let c ← get
  match neighbour pid east with
  | some n =>
    if linkRoom c pid east then
      let msg : LinkMsg := ⟨n, !east, ⟨w, (c.station pid).pkey⟩, k⟩
      set { c with linkMsgs := c.linkMsgs ++ [msg] }
    else stop (.park (.link pid east true))
  | none => stop (.park (.link pid east true))

/-- A word popped from east-in or west-in; the neighbour's strands that wait for room are woken. -/
def popLink (east : Bool) : Act Word := do
  let pid ← myStation
  let c ← get
  match (c.station pid).linkIn east with
  | [] => stop (.park (.link pid east false))
  | w :: rest =>
    let c := c.updStation pid fun s => s.setLinkIn east rest
    set (match neighbour pid east with | some n => wakeAll (.link n (!east) true) c | none => c)
    pure w.word

/-! ### Station queues (R126) -/

/-- The queue that `qa` or `qb` is bound to; an unbound port is ILL, met where the port is read or checked at step 5 of R74:
after PRIV, LOOKAHEAD and the waits of the sources before it. DESIGN CHOICE (log 83). -/
def boundQueue (b : Bool) : Act Nat := do
  let x ← me
  let q := x.qbind.toNat
  if b then (if q.testBit 7 then pure (bitsOf q 4 3) else illWord)
  else if q.testBit 3 then pure (bitsOf q 0 3) else illWord

def popQueue (b : Bool) : Act Word := do
  let q ← boundQueue b
  let pid ← myStation
  let c ← get
  match (c.station pid).queues[q]! with
  | [] => stop (.park (.stationQueue pid q false))
  | w :: rest =>
    set (wakeAll (.stationQueue pid q true) (c.updStation pid fun s => { s with queues := s.queues.set! q rest }))
    pure w

def queueRoom (c : Core) (pid q : Nat) : Bool :=
  decide (((c.station pid).queues[q]!).length < Config.stationQueueDepth)

def pushQueue (b : Bool) (w : Word) : Act Unit := do
  let q ← boundQueue b
  let pid ← myStation
  let c ← get
  if queueRoom c pid q then
    set (wakeAll (.stationQueue pid q false)
      (c.updStation pid fun s => { s with queues := s.queues.set! q (s.queues[q]! ++ [w]) }))
  else stop (.park (.stationQueue pid q true))

/-! ### The inbox and the outbox (R123, R124) -/

/-- What the acquire of a word takes: a completion's trap stops the reader (R182, R337). -/
def acquireNote (src : AcquireSrc) (n : Note) : Act Unit :=
  match n with
  | .completion (some (cause, tval)) _ => stop (.acquired src cause tval)
  | .completion none _ | .plain | .fill _ _ _ => pure ()

/-- A lane without its first word. -/
def Lane.pop (l : Lane) : Lane := { l with head := (l.head + 1) % 8, count := l.count - 1 }

/-- A lane with a word put in behind the others. -/
def Lane.push (l : Lane) (w : Word) (n : Note) : Lane :=
  { l with words := l.words.set! ((l.head + l.count) % 8) w
           notes := l.notes.set! ((l.head + l.count) % 8) n
           count := l.count + 1 }

/-- Strands that wait for room in a lane of a record are woken (R50, R123). -/
def wakeLane (k : Key) (high : Bool) (c : Core) : Core :=
  let waiters := (waitersOf c (.outLane k.ctx high)).filter fun x => x.key.job == k.job
  { c with wakes := c.wakes ++ waiters.map fun x => ⟨x.key, some (.outLane k.ctx high), false⟩ }

/-- A read of `ib`: the high lane if it is not empty, else the low lane (R124). -/
def popInbox : Act Word := do
  needLine 4
  needLine 5
  let x ← me
  if x.inHigh.count ≠ 0 then
    acquireNote (.lane true (x.inHigh.head % 8)) (x.inHigh.notes[x.inHigh.head % 8]!)
    updMe fun y => { y with inHigh := y.inHigh.pop }
    onCore (wakeLane x.key true)
    pure (laneWord x.inHigh x.inHigh.head)
  else if x.inLow.count ≠ 0 then
    acquireNote (.lane false (x.inLow.head % 8)) (x.inLow.notes[x.inLow.head % 8]!)
    updMe fun y => { y with inLow := y.inLow.pop }
    onCore (wakeLane x.key false)
    pure (laneWord x.inLow x.inLow.head)
  else stop (.park .inbox)

/-- The lane that the outbox target names. -/
def Strand.outKey (x : Strand) : Key := ⟨x.key.job, x.outTarget.toNat / 1024 * 1024⟩
def Strand.outHigh (x : Strand) : Bool := x.outTarget.getLsbD 0

/-- The words that a lane of a live record holds; a record that is not live holds none. -/
def laneCount (c : Core) (k : Key) (high : Bool) : Nat :=
  match c.strand? k with
  | none => 0
  | some x => if x.live then (if high then x.inHigh else x.inLow).count else 0

/-- Whether a record's lane has room, words on their way counted (R123). No more than the lane could hold are on their way to a record
that is not live, so that none finds a full lane if the record becomes live before it arrives: DESIGN CHOICE (log 117). -/
def laneRoom (c : Core) (k : Key) (high : Bool) : Bool :=
  decide (laneCount c k high + (c.messages.filter fun m => m.key == k && m.high == high).length < Config.laneDepth)

/-- A write to `ob`: the word is on its way to the target's lane. -/
def pushOut (w : Word) : Act Unit := do
  let x ← me
  let pid ← myStation
  let c ← get
  if laneRoom c x.outKey x.outHigh then
    let msg : Message := ⟨x.outKey, x.outHigh, w, (c.station pid).pkey, x.key⟩
    set { c with messages := c.messages ++ [msg] }
  else stop (.park (.outLane x.outKey.ctx x.outHigh))

/-! ### Register specifiers (R60, R61) -/

/-- A read of a general register: it parks while the register is empty (R39); if a remote fill set the bit, the read is
an acquire at the fill's scope (R168); if a completion did, it acquires the command's writes. -/
def readG (n : Fin 16) : Act Word := do
  let x ← me
  if x.full n then
    match x.notes[n] with
    | .plain => pure ()
    | .fill scope st cx =>
      let pid ← myStation
      if scopeHas scope st cx pid x.key.ctx && scopeHas scope pid x.key.ctx st cx then pure ()
      else trapWith causeScope (wordOf (x.key.ctx + 8 * n.val))
    | .completion t w => acquireNote (.reg n) (.completion t w)
    pure x.g[n]
  else stop (.park (.reg n))

/-- ReadG(n) of R82: the value of a specifier as a source. -/
def readReg (r : Reg) : Act Word :=
  match r with
  | .g n => readG n
  | .zr => pure 0
  | .lw => popLink false
  | .le => popLink true
  | .lwf => do
    let w ← popLink false
    pushLink true w
    pure w
  | .lef => do
    let w ← popLink true
    pushLink false w
    pure w
  | .ib => popInbox
  | .ob => illWord
  | .qa => popQueue false
  | .qb => popQueue true
  | .fa => do pure (← me).fa
  | .fb => do pure (← me).fb
  | .fc => do pure (← me).fc
  | .fs => do pure (← me).fs
  | .sid => do pure (wordOf ((← me).key.ctx / 1024))
  | .lid => do
    let pid ← myStation
    let k ← myKey
    match ← look fun p c => logicalOf p c k.job pid with
    | some l => pure (wordOf l)
    | none => freeValue

/-- Whether a destination can take a word: a full port parks the strand before anything of the instruction happens
(R61). -/
def destReady (r : Reg) : Act Unit :=
  match r with
  | .lw => do
    let pid ← myStation
    if linkRoom (← get) pid false then pure () else stop (.park (.link pid false true))
  | .le => do
    let pid ← myStation
    if linkRoom (← get) pid true then pure () else stop (.park (.link pid true true))
  | .ob => do
    let x ← me
    if laneRoom (← get) x.outKey x.outHigh then pure () else stop (.park (.outLane x.outKey.ctx x.outHigh))
  | .qa => do
    let q ← boundQueue false
    let pid ← myStation
    if queueRoom (← get) pid q then pure () else stop (.park (.stationQueue pid q true))
  | .qb => do
    let q ← boundQueue true
    let pid ← myStation
    if queueRoom (← get) pid q then pure () else stop (.park (.stationQueue pid q true))
  | .g _ | .zr => pure ()
  | .lwf | .lef | .ib | .fa | .fb | .fc | .fs | .sid | .lid => illWord

/-- WriteG(n, v) of R82: sets the full bit, pushes a port, or is discarded for `zr`. -/
def writeReg (r : Reg) (v : Word) : Act Unit :=
  match r with
  | .g n => updMine fun x => x.setReg n v true .plain
  | .zr => pure ()
  | .lw => pushLink false v
  | .le => pushLink true v
  | .ob => pushOut v
  | .qa => pushQueue false v
  | .qb => pushQueue true v
  | .lwf | .lef | .ib | .fa | .fb | .fc | .fs | .sid | .lid => illWord

/-! ### Offsets and segments (R83, R104) -/

/-- Rights bits of a segment (R119). -/
def rightR : Nat := 0
def rightW : Nat := 1
def rightX : Nat := 2
def rightMig : Nat := 3
def rightStash : Nat := 4
def rightSys : Nat := 5

/-- Offset(base, add) of R104. -/
def offsetOf (base : Word) (add : Int) : Act Nat := do
  let o : Int := (base.toNat : Int) + add
  if o < 0 ∨ 2 ^ 64 - 1 < o then trapWith causeSeg (wordOfInt o) else pure o.toNat

/-- Whether a segment grants a kind of access to a mode (R83): 1 R, 2 W, 3 R then W, 4 X. -/
def granted (d : SegDesc) (kind : Nat) (sup : Bool) : Bool :=
  (if kind = 4 then d.rights.getLsbD rightX
   else (kind != 1 && kind != 3 || d.rights.getLsbD rightR) && (kind != 2 && kind != 3 || d.rights.getLsbD rightW)) &&
  (sup || !d.rights.getLsbD rightSys)

/-- The checks of Translate (R83): a virtual address, or the trap that the first failing check raises. A management block is
behind no segment without SYS (R363). DEDUCED (log 89). -/
def translateSeg (d : SegDesc) (off size kind : Nat) (sup : Bool) : Except (Nat × Nat) Nat :=
  if !granted d kind sup then .error (causeSeg, off)
  else if 2 ^ 64 - 1 < off + size ∨ d.limit.toNat < off + size then .error (causeSeg, off)
  else
    let va := d.base.toNat + off
    if 2 ^ 64 - 1 < va then .error (causeCanon, va % 2 ^ 64)
    else if !canonical va then .error (causeCanon, va)
    else if va % size ≠ 0 then .error (causeAlign, va)
    else if mgmtMeets va size && !d.rights.getLsbD rightSys then .error (causeSeg, off)
    else .ok va

/-- The descriptor of a segment of the strand, once its context lines have arrived (R44). -/
def mySeg (s : Seg) : Act SegDesc := do
  needOffset (0x180 + 24 * s.val)
  needOffset (0x180 + 24 * s.val + 23)
  pure (← me).segs[s]

/-- Translate(s, off, size, kind) of R83. -/
def translate (s : Seg) (off size kind : Nat) : Act Nat := do
  let d ← mySeg s
  match translateSeg d off size kind (← me).sup with
  | .ok va => pure va
  | .error (cause, v) => trapWith cause (wordOf v)

/-- An address that an instruction uses directly, with no segment, reaches no management block (R363). DEDUCED (log 89). -/
def needOutside (va len : Nat) : Act Unit := if mgmtMeets va len then trapWith causeSeg (wordOf va) else pure ()

/-- An access through a MIG segment whose home lies on another die migrates an unpinned strand (R54), once its page is
present (R74), for which its home is asked (R150, R379). -/
def migrateCheck (s : Seg) (va size kind : Nat) : Act Unit := do
  let x ← me
  let pid ← myStation
  let d ← mySeg s
  if d.rights.getLsbD rightMig && !x.pinned && homeDie va != dieOf pid then
    match locate x.key.job va kind size (← read) (← get) with
    | .error (.page _ _ _ _) => pure ()
    | .ok _ | .error _ => stop (.reached x.key.job va (.migrate (home va) false))

end Sys2Proof.Machine
end

