-- ==== Sys2Proof/Machine/Issue.lean ====
section
/-! DEFINITION. What the instructions of one shape share: the order of checks at issue (R74), lookahead (R65), the
advance of pc with the loop-back (R57, R100), transfers (R96), and accesses that a page fault may drop (R52). -/

namespace Sys2Proof.Machine

open Sys2Proof

/-! ### Checks before the operands (R74 steps 2 and 4) -/

/-- A privileged instruction in user mode is a PRIV trap (R72, R131). -/
def needSup : Act Unit := do
  let x ← me
  let w ← myWord
  if x.sup then pure () else trapWith causePriv (w.zeroExtend 64)

/-- Whether an outstanding operation has one of some registers as its destination. -/
def opClash (writes : List Reg) (o : LlOp) : Bool :=
  match o.dest with
  | some n => writes.contains (.g n)
  | none => false

/-- LookaheadCheck of R65 for an instruction that writes `writes` and is long-latency or not. DEDUCED (log 25). -/
def lookaheadCheck (writes : List Reg) (ll : Bool) : Act Unit := do
  let x ← me
  if x.ops.isEmpty then pure ()
  else if x.window = 0 then stop (.park .drain)
  else if x.ops.any (opClash writes) then
    trapWith causeLookahead x.pc
  else if ll && decide (4 ≤ x.ops.length) then stop (.park .longLatency)
  else pure ()

/-- LookaheadIssue of R65 for an instruction that is not long-latency, and the count of instructions that have issued
after each outstanding operation (R66) and refused store (R109), whose count grows until its trap. -/
def Strand.issued (x : Strand) : Strand :=
  { x with
    window := if x.ops.isEmpty then x.window else x.window - 1
    ops := x.ops.map fun o => { o with issued := o.issued + 1 }
    refusals := x.refusals.map fun r => { r with count := r.count + 1 }
    poison := x.poison.map fun r => if r.grows then { r with count := r.count + 1 } else r
    issues := x.issues + 1 }

/-- LookaheadIssue of R65 for a long-latency instruction with lookahead `la`, destination and what it brings. -/
def Strand.issuedLong (x : Strand) (la : Nat) (dest : Option (Fin 16)) (result : LlResult) : Strand :=
  let y := x.issued
  let y := { y with
    window := if x.ops.isEmpty then la else min y.window la
    ops := y.ops ++ [⟨dest, x.pc, 0, result, x.issues⟩] }
  match dest with
  | some n => y.setBit n false
  | none => y

/-- The general register that a destination names. -/
def gprOf (r : Reg) : Option (Fin 16) :=
  match r with
  | .g n => some n
  | .zr | .lw | .le | .lwf | .lef | .ib | .ob | .qa | .qb | .fa | .fb | .fc | .fs | .sid | .lid => none

/-- Whether a destination is a general register that is full. -/
def Strand.holds (x : Strand) (r : Reg) : Bool := (gprOf r).any fun n => x.full n

/-! ### The program counter -/

/-- Whether the strand's access has been refused with RETRY: its instruction has not taken effect (R102). -/
def Strand.retrying (x : Strand) : Bool := match x.dropped with | some d => d.retried | none => false

/-- The strand past an instruction of `size` bytes, with the loop-back of R100; not before the instruction has taken effect
(R102). -/
def Strand.advance (x : Strand) (size : Nat) : Strand :=
  let next := x.pc + wordOf size
  if x.retrying then x
  else if x.looping && next == x.loopEnd then
    if 1 < x.loopCount.toNat then { x with loopCount := x.loopCount - 1, pc := x.loopStart }
    else { x with loopCount := 0, mode := modeSet x.mode modeLoop false, pc := x.loopEnd }
  else { x with pc := next }

/-- The checks of Transfer that `eret` shares (R96): the target as an address. -/
def transferCheck (t : Int) : Act Word := do
  let x ← me
  if t < 0 ∨ 2 ^ 64 - 4 < t then trapWith causeSeg x.pc
  else if t % 4 ≠ 0 then trapWith causeAlign (wordOfInt t)
  else pure (wordOfInt t)

/-- The strand at a transfer's target: a target outside the active loop's body ends the loop (R96). -/
def Strand.transferTo (x : Strand) (t : Word) : Strand :=
  let inside := decide (x.loopStart.toNat ≤ t.toNat) && decide (t.toNat < x.loopEnd.toNat)
  { x with pc := t, mode := if x.looping && !inside then modeSet x.mode modeLoop false else x.mode }

/-! ### Register-to-register shapes -/

/-- An attempt inside an attempt: its stop becomes a value, and the core stays as it was. -/
def attempt {α : Type} (a : Act α) : Act (Except Stop α) := fun p c =>
  match a p c with
  | .ok (v, c') => .ok (.ok v, c')
  | .error e => .ok (.error e, c)

/-- The stop that an attempt gave, once the instruction gets so far: a destination port's room is judged as it was before
the sources were popped (R61). -/
def raise {α : Type} (r : Except Stop α) : Act Unit :=
  match r with
  | .ok _ => pure ()
  | .error e => stop e

/-- The end of a plain instruction's issue: the result written, its place taken in the window, pc past it. -/
def retire (d : Reg) (v : Word) : Act Unit := do
  updMe fun x => x.issued
  writeReg d v
  updMe fun x => x.advance 4

/-- An instruction of two sources and a destination that is not long-latency (R86). -/
def binaryAct (f : Word → Word → Word) (d a b : Reg) : Act Unit := do
  lookaheadCheck [d] false
  let room ← attempt (destReady d)
  let x ← readReg a
  let y ← readReg b
  raise room
  retire d (f x y)

def binaryOp (f : Word → Word → Word) (d a b : Reg) (s : State) : Outcome := runCore (binaryAct f d a b) s

/-- An instruction of one source and a destination that is not long-latency. -/
def unaryAct (f : Word → Word) (d a : Reg) : Act Unit := do
  lookaheadCheck [d] false
  let room ← attempt (destReady d)
  let x ← readReg a
  raise room
  retire d (f x)

def unaryOp (f : Word → Word) (d a : Reg) (s : State) : Outcome := runCore (unaryAct f d a) s

/-- The end of a long-latency instruction's issue. -/
def retireLong (d : Reg) (la : BitVec 4) (r : LlResult) : Act Unit :=
  updMine fun x => (x.issuedLong la.toNat (gprOf d) r).advance 4

/-- A long-latency instruction of two sources (R88): its value is written at completion. -/
def binaryLongAct (f : Word → Word → Word × BitVec 5) (d a b : Reg) (la : BitVec 4) : Act Unit := do
  lookaheadCheck [d] true
  let x ← readReg a
  let y ← readReg b
  retireLong d la (.value (f x y).1 (f x y).2)

def binaryLongOp (f : Word → Word → Word × BitVec 5) (d a b : Reg) (la : BitVec 4) (s : State) : Outcome :=
  runCore (binaryLongAct f d a b la) s

/-! ### Accesses -/

/-- What an access brings: its result, or nothing yet when a page fault has dropped the strand (R52). -/
inductive Access where
  | done (r : Loaded)
  | dropped
  deriving DecidableEq, Repr

/-- The address whose home an access reaches first, and whether the station's own window may serve it (R175). -/
def MemReq.target : MemReq → Option (Nat × Bool)
  | .load va _ _ | .store va _ _ => some (va, true)
  | .rcx va idx | .wcx va idx _ => some (va + 8 * idx, false)
  | .segld _ va | .segst va _ | .fe _ va _ _ | .amo _ va _ _ _ _ _ => some (va, false)
  | .join a | .tail a | .gdec a | .qput a _ | .qtake a => some (a, false)
  | .fetch | .smap _ _ _ | .sflush _ _ _ | .lineage _ _ _ => none

/-- The address of a strand's access, if its home is what stopped it. -/
def reachedBy (pt : Party) (req : MemReq) (c : Core) : Option Nat :=
  match req.target with
  | some (va, window) =>
    if window && (mappedEntry (c.station pt.station) pt.job (va / 256 * 256)).isSome && !blockHasRecord c pt.job va then none
    else some va
  | none => none

/-- What stays of a strand's access that stopped at a home. -/
def reachedHome (p : Platform) (pt : Party) (req : MemReq) (c : Core) : Core :=
  match reachedBy pt req c with
  | some va => reachedLine p pt.job va c
  | none => c

/-- An access performed at issue. A page that is not present leaves the access to be performed again once the supervisor
has woken the strand (R52), and so does a line that another station has pinned, once its holder releases it: the operation
stands as issued, and its strand waits on the line (R50, R65, R166); its pc moves on once the reissue has taken effect (R102). A refused store leaves a POISON on its way (R109).
DESIGN CHOICE (log 6). -/
def accessMem (req : MemReq) (dest : Reg) (ll : Bool) (a : Act Loaded) : Act Access := do
  match ← attempt a with
  | .ok r => pure (.done r)
  | .error (.page job va kind size) =>
    let p ← read
    onCore (walked p job va)
    updMe fun x => { x with dropped := some ⟨req, dest, ll, va, kind, size, x.pc, false, false, x.issues, false, x.window, x.holds dest⟩ }
    pure .dropped
  | .error (.park (.pinLine line)) =>
    let k ← myKey
    let p ← read
    onCore (reachedLine p k.job (64 * line))
    updMe fun x => { x with
      dropped := some ⟨req, dest, ll, 64 * line, 0, 0, x.pc, true, true, x.issues, true, x.window, x.holds dest⟩ }
    onCore (parkStrand p k (.pinLine line))
    pure .dropped
  | .error (.refuse va) =>
    let p ← read
    onCore (reachedHome p (← me).party req)
    updMe fun x => { x with refusals := x.refusals ++ [⟨x.pc, wordOf va, 0, x.issues, true⟩] }
    pure (.done ⟨0, none⟩)
  | .error (.park w) => stopReached (.park w)
  | .error (.trap cause code tval next) => stopReached (.trap cause code tval next)
  | .error e => stop e
where
  /-- A wait or a trap at the home of the access. -/
  stopReached (e : Stop) : Act Access := do
    let pt := (← me).party
    match reachedBy pt req (← get) with
    | some va => stop (.reached pt.job va e)
    | none => stop e

/-- What a long-latency access brings at its completion. -/
def Access.result (ext : Nat → Word) : Access → LlResult
  | .done ⟨v, none⟩ => .value (ext v) 0
  | .done ⟨_, some va⟩ => .poison va
  | .dropped => .pending

/-- A POISON delivered at once, by an access that is not long-latency (R117). -/
def deliverPoison (va : Option Nat) : Act Unit :=
  match va with
  | some a => updMe fun x => { x with poison := x.poison ++ [⟨x.pc, wordOf (a / 8 * 8), 0, x.issues, false⟩] }
  | none => pure ()

/-- The end of an instruction that writes no register: its place in the window, and pc past it. -/
def retireNone : Act Unit := updMe fun x => x.issued.advance 4

/-- An instruction that waits in its slot until N = 0 (R134, R139). -/
def needDrained : Act Unit := do
  if (← me).ops.isEmpty then pure () else stop (.hold .drain)

/-- An instruction that waits in its slot until N = 0 and its engine commands have completed (R118, R209). -/
def needEngines : Act Unit := do
  let x ← me
  if x.ops.isEmpty && x.engines == 0 then pure () else stop (.hold .engines)

end Sys2Proof.Machine
end

