-- ==== Sys2Proof/Machine/Alu.lean ====
section
/-! DEFINITION. The integer register-to-register instructions (R86 to R88): the value of each, and its meaning. -/

namespace Sys2Proof.Machine

open Sys2Proof

/-! ### Values (R87, R88) -/

/-- The shift amount b[5:0]. -/
def amountOf (b : Word) : Nat := b.toNat % 64

def boolWord (b : Bool) : Word := if b then 1 else 0

/-- A sum or difference clamped to the range of a signed word (R87). -/
def clampSigned (x : Int) : Word :=
  if x < -(2 : Int) ^ 63 then wordOf (2 ^ 63) else if (2 : Int) ^ 63 - 1 < x then wordOf (2 ^ 63 - 1) else wordOfInt x

/-- Count of leading zero bits; 64 for 0. -/
def clzOf (a : Word) : Word := if a = 0 then 64 else wordOf (63 - Nat.log2 a.toNat)

/-- Count of trailing zero bits, of the first `n` bits. -/
def ctzFrom (a : Nat) : Nat → Nat → Nat
  | 0, k => k
  | n + 1, k => if a.testBit k then k else ctzFrom a n (k + 1)

def ctzOf (a : Word) : Word := wordOf (ctzFrom a.toNat 64 0)

def popOf (a : Word) : Word := wordOf ((List.range 64).filter fun i => a.getLsbD i).length

def brevOf (a : Word) : Word := a.reverse

def bswapOf (a : Word) : Word := wordOf (leNat (leBytes 8 a.toNat).reverse)

/-- ⌊a × b ÷ 2^64⌋ of signed and unsigned values. -/
def mulhOf (a b : Word) : Word := wordOfInt ((a.toInt * b.toInt).fdiv (2 ^ 64))
def mulhzOf (a b : Word) : Word := wordOf (a.toNat * b.toNat / 2 ^ 64)

def divOf (a b : Word) : Word :=
  if b = 0 then wordOf (2 ^ 64 - 1)
  else if a.toInt = -(2 : Int) ^ 63 ∧ b.toInt = -1 then a
  else wordOfInt (a.toInt.tdiv b.toInt)

def divzOf (a b : Word) : Word := if b = 0 then wordOf (2 ^ 64 - 1) else wordOf (a.toNat / b.toNat)

def remOf (a b : Word) : Word :=
  if b = 0 then a
  else if a.toInt = -(2 : Int) ^ 63 ∧ b.toInt = -1 then 0
  else wordOfInt (a.toInt - b.toInt * a.toInt.tdiv b.toInt)

def remzOf (a b : Word) : Word := if b = 0 then a else wordOf (a.toNat % b.toNat)

def slt (a b : Word) : Bool := decide (a.toInt < b.toInt)
def sltz (a b : Word) : Bool := decide (a.toNat < b.toNat)

/-- A value of R88 with no flags. -/
def plainLong (f : Word → Word → Word) (a b : Word) : Word × BitVec 5 := (f a b, 0)

/-! ### Meanings -/

def execAdd (d a b : Reg) (s : State) : Outcome := binaryOp (fun a b => a + b) d a b s
def execSub (d a b : Reg) (s : State) : Outcome := binaryOp (fun a b => a - b) d a b s
def execAnd (d a b : Reg) (s : State) : Outcome := binaryOp (fun a b => a &&& b) d a b s
def execOr (d a b : Reg) (s : State) : Outcome := binaryOp (fun a b => a ||| b) d a b s
def execXor (d a b : Reg) (s : State) : Outcome := binaryOp (fun a b => a ^^^ b) d a b s
def execAndn (d a b : Reg) (s : State) : Outcome := binaryOp (fun a b => a &&& ~~~b) d a b s
def execOrn (d a b : Reg) (s : State) : Outcome := binaryOp (fun a b => a ||| ~~~b) d a b s
def execXnor (d a b : Reg) (s : State) : Outcome := binaryOp (fun a b => ~~~(a ^^^ b)) d a b s
def execShl (d a b : Reg) (s : State) : Outcome := binaryOp (fun a b => a <<< amountOf b) d a b s
def execShr (d a b : Reg) (s : State) : Outcome := binaryOp (fun a b => a >>> amountOf b) d a b s
def execSar (d a b : Reg) (s : State) : Outcome := binaryOp (fun a b => a.sshiftRight (amountOf b)) d a b s
def execRol (d a b : Reg) (s : State) : Outcome := binaryOp (fun a b => a.rotateLeft (amountOf b)) d a b s
def execRor (d a b : Reg) (s : State) : Outcome := binaryOp (fun a b => a.rotateRight (amountOf b)) d a b s
def execMin (d a b : Reg) (s : State) : Outcome := binaryOp (fun a b => if slt a b then a else b) d a b s
def execMax (d a b : Reg) (s : State) : Outcome := binaryOp (fun a b => if slt a b then b else a) d a b s
def execMinz (d a b : Reg) (s : State) : Outcome := binaryOp (fun a b => if sltz a b then a else b) d a b s
def execMaxz (d a b : Reg) (s : State) : Outcome := binaryOp (fun a b => if sltz a b then b else a) d a b s
def execSlt (d a b : Reg) (s : State) : Outcome := binaryOp (fun a b => boolWord (slt a b)) d a b s
def execSltz (d a b : Reg) (s : State) : Outcome := binaryOp (fun a b => boolWord (sltz a b)) d a b s
def execSeq (d a b : Reg) (s : State) : Outcome := binaryOp (fun a b => boolWord (a == b)) d a b s
def execSne (d a b : Reg) (s : State) : Outcome := binaryOp (fun a b => boolWord (a != b)) d a b s
def execAddsat (d a b : Reg) (s : State) : Outcome := binaryOp (fun a b => clampSigned (a.toInt + b.toInt)) d a b s
def execSubsat (d a b : Reg) (s : State) : Outcome := binaryOp (fun a b => clampSigned (a.toInt - b.toInt)) d a b s
def execAdds1 (d a b : Reg) (s : State) : Outcome := binaryOp (fun a b => a + (b <<< 1)) d a b s
def execAdds2 (d a b : Reg) (s : State) : Outcome := binaryOp (fun a b => a + (b <<< 2)) d a b s
def execAdds3 (d a b : Reg) (s : State) : Outcome := binaryOp (fun a b => a + (b <<< 3)) d a b s
def execAdds4 (d a b : Reg) (s : State) : Outcome := binaryOp (fun a b => a + (b <<< 4)) d a b s
def execClz (d a : Reg) (s : State) : Outcome := unaryOp (fun a => clzOf a) d a s
def execCtz (d a : Reg) (s : State) : Outcome := unaryOp (fun a => ctzOf a) d a s
def execPop (d a : Reg) (s : State) : Outcome := unaryOp (fun a => popOf a) d a s
def execBrev (d a : Reg) (s : State) : Outcome := unaryOp (fun a => brevOf a) d a s
def execBswap (d a : Reg) (s : State) : Outcome := unaryOp (fun a => bswapOf a) d a s
def execSextB (d a : Reg) (s : State) : Outcome := unaryOp (fun a => sextTo a.toNat 8) d a s
def execSextH (d a : Reg) (s : State) : Outcome := unaryOp (fun a => sextTo a.toNat 16) d a s
def execSextW (d a : Reg) (s : State) : Outcome := unaryOp (fun a => sextTo a.toNat 32) d a s
def execZextB (d a : Reg) (s : State) : Outcome := unaryOp (fun a => zextTo a.toNat 8) d a s
def execZextH (d a : Reg) (s : State) : Outcome := unaryOp (fun a => zextTo a.toNat 16) d a s
def execZextW (d a : Reg) (s : State) : Outcome := unaryOp (fun a => zextTo a.toNat 32) d a s
def execMul (d a b : Reg) (la : BitVec 4) (s : State) : Outcome :=
  binaryLongOp (plainLong (fun a b => a * b)) d a b la s
def execMulh (d a b : Reg) (la : BitVec 4) (s : State) : Outcome :=
  binaryLongOp (plainLong (mulhOf)) d a b la s
def execMulhz (d a b : Reg) (la : BitVec 4) (s : State) : Outcome :=
  binaryLongOp (plainLong (mulhzOf)) d a b la s
def execDiv (d a b : Reg) (la : BitVec 4) (s : State) : Outcome :=
  binaryLongOp (plainLong (divOf)) d a b la s
def execDivz (d a b : Reg) (la : BitVec 4) (s : State) : Outcome :=
  binaryLongOp (plainLong (divzOf)) d a b la s
def execRem (d a b : Reg) (la : BitVec 4) (s : State) : Outcome :=
  binaryLongOp (plainLong (remOf)) d a b la s
def execRemz (d a b : Reg) (la : BitVec 4) (s : State) : Outcome :=
  binaryLongOp (plainLong (remzOf)) d a b la s

end Sys2Proof.Machine
end

