-- ==== Sys2Proof/Machine/Imm.lean ====
section
/-! DEFINITION. The immediate forms, `movk` and `adr` (R89 to R91). -/

namespace Sys2Proof.Machine

open Sys2Proof

/-- sext(imm16, 16) and zext(imm16, 16). -/
def sextImm (i : BitVec 16) : Word := i.signExtend 64
def zextImm (i : BitVec 16) : Word := i.zeroExtend 64

def execAddi (d a : Reg) (i : BitVec 16) (s : State) : Outcome := unaryOp (fun a => a + sextImm i) d a s
def execAndi (d a : Reg) (i : BitVec 16) (s : State) : Outcome := unaryOp (fun a => a &&& zextImm i) d a s
def execOri (d a : Reg) (i : BitVec 16) (s : State) : Outcome := unaryOp (fun a => a ||| zextImm i) d a s
def execXori (d a : Reg) (i : BitVec 16) (s : State) : Outcome := unaryOp (fun a => a ^^^ zextImm i) d a s
def execSlti (d a : Reg) (i : BitVec 16) (s : State) : Outcome := unaryOp (fun a => boolWord (slt a (sextImm i))) d a s
def execSltzi (d a : Reg) (i : BitVec 16) (s : State) : Outcome := unaryOp (fun a => boolWord (sltz a (sextImm i))) d a s
def execMuli (d a : Reg) (i : BitVec 16) (s : State) : Outcome := unaryOp (fun a => a * sextImm i) d a s
def execShli (d a : Reg) (i : BitVec 6) (s : State) : Outcome := unaryOp (fun a => a <<< i.toNat) d a s
def execShri (d a : Reg) (i : BitVec 6) (s : State) : Outcome := unaryOp (fun a => a >>> i.toNat) d a s
def execSari (d a : Reg) (i : BitVec 6) (s : State) : Outcome := unaryOp (fun a => a.sshiftRight i.toNat) d a s
def execRoli (d a : Reg) (i : BitVec 6) (s : State) : Outcome := unaryOp (fun a => a.rotateLeft i.toNat) d a s

/-- A word with one halfword replaced (R90). -/
def withHalf (old : Word) (h : Fin 4) (i : BitVec 16) : Word :=
  wordOf (setBits old.toNat (16 * h.val) 16 i.toNat)

/-- R90: the rd field names `g0` to `g15` or `zr`; any other specifier is ILL. -/
def movkAct (d : Reg) (i : BitVec 16) (h : Fin 4) : Act Unit := do
  match d with
  | .g _ | .zr => unaryAct (fun old => withHalf old h i) d d
  | .lw | .le | .lwf | .lef | .ib | .ob | .qa | .qb | .fa | .fb | .fc | .fs | .sid | .lid => illWord

def execMovk (d : Reg) (h : Fin 4) (i : BitVec 16) (s : State) : Outcome := runCore (movkAct d i h) s

/-- R91: the address of the instruction plus four times the signed immediate, modulo 2^64; no segment check. -/
def adrAct (d : Reg) (i : BitVec 16) : Act Unit := do
  lookaheadCheck [d] false
  let x ← me
  destReady d
  retire d (x.pc + sextImm i * 4)

def execAdr (d : Reg) (i : BitVec 16) (s : State) : Outcome := runCore (adrAct d i) s

end Sys2Proof.Machine
end

