-- ==== Sys2Proof/Machine/Branch.lean ====
section
/-! DEFINITION. Branches, jumps and the hardware loop (R96 to R101). -/

namespace Sys2Proof.Machine

open Sys2Proof

/-- pc + sext(off) × 4 on unbounded integers (R59, R96). -/
def targetOf (pc : Word) (off : Int) : Int := (pc.toNat : Int) + off * 4

/-- Transfer(t) of R96 at the end of an issue: its traps come before any effect of the instruction. -/
def transfer (t : Int) : Act Unit := do
  let w ← transferCheck t
  updMe fun x => x.issued.transferTo w

/-- R97: a branch whose condition holds transfers, any other falls through. -/
def branchAct (cond : Word → Word → Bool) (a : Reg) (b : Act Word) (off : BitVec 13) : Act Unit := do
  lookaheadCheck [] false
  let x ← readReg a
  let y ← b
  if cond x y then transfer (targetOf (← me).pc off.toInt)
  else retireNone

def execBrEq (a b : Reg) (o : BitVec 13) (s : State) : Outcome :=
  runCore (branchAct (fun x y => x == y) a (readReg b) o) s
def execBrNe (a b : Reg) (o : BitVec 13) (s : State) : Outcome :=
  runCore (branchAct (fun x y => x != y) a (readReg b) o) s
def execBrLt (a b : Reg) (o : BitVec 13) (s : State) : Outcome :=
  runCore (branchAct (slt) a (readReg b) o) s
def execBrGe (a b : Reg) (o : BitVec 13) (s : State) : Outcome :=
  runCore (branchAct (fun x y => !slt x y) a (readReg b) o) s
def execBrLtz (a b : Reg) (o : BitVec 13) (s : State) : Outcome :=
  runCore (branchAct (sltz) a (readReg b) o) s
def execBrGez (a b : Reg) (o : BitVec 13) (s : State) : Outcome :=
  runCore (branchAct (fun x y => !sltz x y) a (readReg b) o) s
def execBriEq (a : Reg) (i : BitVec 5) (o : BitVec 13) (s : State) : Outcome :=
  runCore (branchAct (fun x y => x == y) a (pure (i.signExtend 64)) o) s
def execBriNe (a : Reg) (i : BitVec 5) (o : BitVec 13) (s : State) : Outcome :=
  runCore (branchAct (fun x y => x != y) a (pure (i.signExtend 64)) o) s
def execBriLt (a : Reg) (i : BitVec 5) (o : BitVec 13) (s : State) : Outcome :=
  runCore (branchAct (slt) a (pure (i.signExtend 64)) o) s
def execBriGe (a : Reg) (i : BitVec 5) (o : BitVec 13) (s : State) : Outcome :=
  runCore (branchAct (fun x y => !slt x y) a (pure (i.signExtend 64)) o) s
def execBriLtz (a : Reg) (i : BitVec 5) (o : BitVec 13) (s : State) : Outcome :=
  runCore (branchAct (sltz) a (pure (i.signExtend 64)) o) s
def execBriGez (a : Reg) (i : BitVec 5) (o : BitVec 13) (s : State) : Outcome :=
  runCore (branchAct (fun x y => !sltz x y) a (pure (i.signExtend 64)) o) s

/-- R98: `j`. -/
def jAct (o : BitVec 26) : Act Unit := do
  lookaheadCheck [] false
  transfer (targetOf (← me).pc o.toInt)

def execJ (o : BitVec 26) (s : State) : Outcome := runCore (jAct o) s

/-- R98: `jl` writes the link to `g15` once the transfer has passed its checks. -/
def jlAct (o : BitVec 26) : Act Unit := do
  lookaheadCheck [.g 15] false
  let pc := (← me).pc
  transfer (targetOf pc o.toInt)
  writeReg (.g 15) (pc + 4)

def execJl (o : BitVec 26) (s : State) : Outcome := runCore (jlAct o) s

def jrAct (a : Reg) : Act Unit := do
  lookaheadCheck [] false
  let t ← readReg a
  transfer t.toNat

def execJr (a : Reg) (s : State) : Outcome := runCore (jrAct a) s

/-- R98: ra is read before rd is written. -/
def jlrAct (d a : Reg) : Act Unit := do
  lookaheadCheck [d] false
  let room ← attempt (destReady d)
  let t ← readReg a
  raise room
  let pc := (← me).pc
  transfer t.toNat
  writeReg d (pc + 4)

def execJlr (d a : Reg) (s : State) : Outcome := runCore (jlrAct d a) s

/-- LoopStart of R99: a count of zero skips the body. An end beyond 2^64 - 1 wraps: DESIGN CHOICE (log 102). -/
def Strand.startLoop (x : Strand) (count : Word) (length : BitVec 16) : Strand :=
  let start := x.pc + 4
  let stop' := x.pc + 4 + wordOf (4 * length.toNat)
  if count = 0 then { x with pc := stop' }
  else { x with loopStart := start, loopEnd := stop', loopCount := count, mode := modeSet x.mode modeLoop true, pc := start }

/-- R99, with R74's step 3 before the lookahead check. -/
def loopAct (count : Act Word) (l : BitVec 16) : Act Unit := do
  let x ← me
  if x.looping then trapWith causeLoop x.loopEnd
  else
    lookaheadCheck [] false
    let c ← count
    updMe fun y => y.issued.startLoop c l

def execLoop (c : Reg) (l : BitVec 16) (s : State) : Outcome := runCore (loopAct (readReg c) l) s

def execLoopi (n : BitVec 10) (l : BitVec 16) (s : State) : Outcome :=
  runCore (loopAct (pure (n.zeroExtend 64)) l) s

end Sys2Proof.Machine
end

