-- ==== Sys2Proof/Machine/LoadStore.lean ====
section
/-! DEFINITION. Sized loads and stores, in their displacement and indexed forms (R104 to R110). -/

namespace Sys2Proof.Machine

open Sys2Proof

/-- A loaded value extended to 64 bits (R107). -/
def extendTo (signed : Bool) (size v : Nat) : Word := if signed then sextTo v (8 * size) else zextTo v (8 * size)

/-- The virtual address of an access through a segment, after the MIG rule (R54, R83). -/
def reach (s : Seg) (off size kind : Nat) : Act Nat := do
  let va ← translate s off size kind
  migrateCheck s va size kind
  pure va

/-- A load is performed at issue and its value is written at completion (R107); `add` is the offset's second part. -/
def loadAct (v a : Reg) (s : Seg) (add : Act Int) (size : Nat) (signed : Bool) (la : BitVec 4) : Act Unit := do
  lookaheadCheck [v] true
  let base ← readReg a
  let off ← offsetOf base (← add)
  let va ← reach s off size 1
  let x ← me
  let r ← accessMem (.load va size signed) v true (loadAt x.party va size)
  retireLong v la (r.result (extendTo signed size))

/-- A store takes its value, then its address (R107). -/
def storeAct (v a : Reg) (s : Seg) (add : Act Int) (size : Nat) : Act Unit := do
  lookaheadCheck [] false
  let w ← readReg v
  let base ← readReg a
  let off ← offsetOf base (← add)
  let va ← reach s off size 2
  let x ← me
  let value := zextTo w.toNat (8 * size)
  let _ ← accessMem (.store va size value) .zr false do
    storeAt x.party va size value
    pure ⟨0, none⟩
  retireNone

/-- The displacement of the M form: sext(disp9) × size (R59). -/
def dispM (o : BitVec 9) (size : Nat) : Act Int := pure (o.toInt * size)

/-- The signed index of the indexed forms, times the size (R104). -/
def indexOf (b : Reg) (size : Nat) : Act Int := do
  let i ← readReg b
  pure (i.toInt * size)

def loadM (size : Nat) (signed : Bool) (v a : Reg) (s : Seg) (o : BitVec 9) (la : BitVec 4) (t : State) : Outcome :=
  runCore (loadAct v a s (dispM o size) size signed la) t

def storeM (size : Nat) (v a : Reg) (s : Seg) (o : BitVec 9) (t : State) : Outcome :=
  runCore (storeAct v a s (dispM o size) size) t

def loadX (size : Nat) (signed : Bool) (v a b : Reg) (s : Seg) (la : BitVec 4) (t : State) : Outcome :=
  runCore (loadAct v a s (indexOf b size) size signed la) t

def storeX (size : Nat) (v a b : Reg) (s : Seg) (t : State) : Outcome :=
  runCore (storeAct v a s (indexOf b size) size) t

def execLdB (v a : Reg) (s : Seg) (o : BitVec 9) (la : BitVec 4) (t : State) : Outcome := loadM 1 true v a s o la t
def execLdH (v a : Reg) (s : Seg) (o : BitVec 9) (la : BitVec 4) (t : State) : Outcome := loadM 2 true v a s o la t
def execLdW (v a : Reg) (s : Seg) (o : BitVec 9) (la : BitVec 4) (t : State) : Outcome := loadM 4 true v a s o la t
def execLdD (v a : Reg) (s : Seg) (o : BitVec 9) (la : BitVec 4) (t : State) : Outcome := loadM 8 true v a s o la t
def execLdzB (v a : Reg) (s : Seg) (o : BitVec 9) (la : BitVec 4) (t : State) : Outcome := loadM 1 false v a s o la t
def execLdzH (v a : Reg) (s : Seg) (o : BitVec 9) (la : BitVec 4) (t : State) : Outcome := loadM 2 false v a s o la t
def execLdzW (v a : Reg) (s : Seg) (o : BitVec 9) (la : BitVec 4) (t : State) : Outcome := loadM 4 false v a s o la t
def execStB (v a : Reg) (s : Seg) (o : BitVec 9) (t : State) : Outcome := storeM 1 v a s o t
def execStH (v a : Reg) (s : Seg) (o : BitVec 9) (t : State) : Outcome := storeM 2 v a s o t
def execStW (v a : Reg) (s : Seg) (o : BitVec 9) (t : State) : Outcome := storeM 4 v a s o t
def execStD (v a : Reg) (s : Seg) (o : BitVec 9) (t : State) : Outcome := storeM 8 v a s o t
def execLdxB (v a b : Reg) (s : Seg) (la : BitVec 4) (t : State) : Outcome := loadX 1 true v a b s la t
def execLdxH (v a b : Reg) (s : Seg) (la : BitVec 4) (t : State) : Outcome := loadX 2 true v a b s la t
def execLdxW (v a b : Reg) (s : Seg) (la : BitVec 4) (t : State) : Outcome := loadX 4 true v a b s la t
def execLdxD (v a b : Reg) (s : Seg) (la : BitVec 4) (t : State) : Outcome := loadX 8 true v a b s la t
def execLdzxB (v a b : Reg) (s : Seg) (la : BitVec 4) (t : State) : Outcome := loadX 1 false v a b s la t
def execLdzxH (v a b : Reg) (s : Seg) (la : BitVec 4) (t : State) : Outcome := loadX 2 false v a b s la t
def execLdzxW (v a b : Reg) (s : Seg) (la : BitVec 4) (t : State) : Outcome := loadX 4 false v a b s la t
def execStxB (v a b : Reg) (s : Seg) (t : State) : Outcome := storeX 1 v a b s t
def execStxH (v a b : Reg) (s : Seg) (t : State) : Outcome := storeX 2 v a b s t
def execStxW (v a b : Reg) (s : Seg) (t : State) : Outcome := storeX 4 v a b s t
def execStxD (v a b : Reg) (s : Seg) (t : State) : Outcome := storeX 8 v a b s t

end Sys2Proof.Machine
end

