-- ==== Sys2Proof/Machine/FullEmpty.lean ====
section
/-! DEFINITION. Full/empty loads and stores, the F/E minors, `rempty` and `rprobe` (R111 to R115). -/

namespace Sys2Proof.Machine

open Sys2Proof

/-- The displacement of the MS form: sext(disp6) × 8 (R59). -/
def dispMS (o : BitVec 6) : Act Int := pure (o.toInt * 8)

/-- A full/empty load (R111), or `feprobe` (R113): long-latency. -/
def feLoadAct (op : FeOp) (v a : Reg) (s : Seg) (add : Act Int) (scope : Scope) (la : BitVec 4) : Act Unit := do
  lookaheadCheck [v] true
  let base ← readReg a
  let off ← offsetOf base (← add)
  let va ← reach s off 8 op.kind
  let x ← me
  let r ← accessMem (.fe op va 0 scope) v true (feAt x.party op va 0 scope)
  retireLong v la (r.result wordOf)

/-- A full/empty store (R111): the address is formed before the value is read. -/
def feStoreAct (op : FeOp) (v a : Reg) (s : Seg) (add : Act Int) (scope : Scope) : Act Unit := do
  lookaheadCheck [] false
  let (w, base) ← feSources v a
  let off ← offsetOf base (← add)
  let va ← reach s off 8 op.kind
  let x ← me
  let _ ← accessMem (.fe op va w scope) .zr false (feAt x.party op va w scope)
  retireNone
where
  /-- An instruction reads ra first (R61, R111). -/
  feSources (v a : Reg) : Act (Word × Word) := do
    let base ← readReg a
    let w ← readReg v
    pure (w, base)

/-- An F/E minor without a register result (R113); station scope is no checked scope. -/
def feMinorAct (op : FeOp) (a b : Reg) (s : Seg) : Act Unit := do
  lookaheadCheck [] false
  let base ← readReg a
  let off ← offsetOf base (← indexOf b 8)
  let va ← reach s off 8 op.kind
  let x ← me
  match ← accessMem (.fe op va 0 .station) .zr false (feAt x.party op va 0 .station) with
  | .done r => deliverPoison r.poison
  | .dropped => pure ()
  retireNone

def execLdf (v a : Reg) (s : Seg) (o : BitVec 6) (c : Scope) (la : BitVec 4) (t : State) : Outcome :=
  runCore (feLoadAct .ldf v a s (dispMS o) c la) t

def execLdfe (v a : Reg) (s : Seg) (o : BitVec 6) (c : Scope) (la : BitVec 4) (t : State) : Outcome :=
  runCore (feLoadAct .ldfe v a s (dispMS o) c la) t

def execStef (v a : Reg) (s : Seg) (o : BitVec 6) (c : Scope) (t : State) : Outcome :=
  runCore (feStoreAct .stef v a s (dispMS o) c) t

def execStf (v a : Reg) (s : Seg) (o : BitVec 6) (c : Scope) (t : State) : Outcome :=
  runCore (feStoreAct .stf v a s (dispMS o) c) t

def execFeprobe (d a b : Reg) (s : Seg) (la : BitVec 4) (t : State) : Outcome :=
  runCore (feLoadAct .probe d a s (indexOf b 8) .station la) t

def execFeset (a b : Reg) (s : Seg) (t : State) : Outcome := runCore (feMinorAct .set a b s) t
def execFeclr (a b : Reg) (s : Seg) (t : State) : Outcome := runCore (feMinorAct .clr a b s) t
def execFewait (a b : Reg) (s : Seg) (t : State) : Outcome := runCore (feMinorAct .wait a b s) t
def execFewaite (a b : Reg) (s : Seg) (t : State) : Outcome := runCore (feMinorAct .waite a b s) t

/-- `rempty` (R114): the full bit cleared; it counts as a write of the register (R65). -/
def remptyAct (n : Fin 16) : Act Unit := do
  lookaheadCheck [.g n] false
  updMine fun x => x.setBit n false
  retireNone

def execRempty (n : Fin 16) (t : State) : Outcome := runCore (remptyAct n) t

/-- `rprobe` (R114): the full bit read without parking. -/
def rprobeAct (d : Reg) (n : Fin 16) : Act Unit := do
  lookaheadCheck [d] false
  let x ← me
  destReady d
  retire d (boolWord (x.full n))

def execRprobe (d : Reg) (n : Fin 16) (t : State) : Outcome := runCore (rprobeAct d n) t

end Sys2Proof.Machine
end

