-- ==== Sys2Proof/Machine/Atomic.lean ====
section
/-! DEFINITION. Atomics and fences (R116 to R118). -/

namespace Sys2Proof.Machine

open Sys2Proof

/-- R116, R61: the expected value (cas only), the offset and the operand are read, then the atomic is performed, and rd takes
the old value. A poisoned word gives zero and a POISON at completion (R117). -/
def atomicAct (op : AmoOp) (size : Nat) (d a b : Reg) (s : Seg) (ord : MemOrd) (scp : AScope) : Act Unit := do
  lookaheadCheck [d] false
  let room ← attempt (destReady d)
  let e ← if op == .cas then readReg d else pure 0
  let base ← readReg a
  let w ← readReg b
  raise room
  let off ← offsetOf base 0
  let va ← reach s off size 3
  let x ← me
  let bv := w.toNat % 2 ^ (8 * size)
  let ev := e.toNat % 2 ^ (8 * size)
  let r ← accessMem (.amo op va size (wordOf bv) (wordOf ev) ord scp) d false (amoAt x.party op va size bv ev ord scp)
  match r with
  | .done l =>
    deliverPoison l.poison
    retire d (zextTo l.value (8 * size))
  | .dropped => retireNone

def execAmoDSwap (d a b : Reg) (s : Seg) (r : MemOrd) (c : AScope) (t : State) : Outcome :=
  runCore (atomicAct .swap 8 d a b s r c) t
def execAmoDAdd (d a b : Reg) (s : Seg) (r : MemOrd) (c : AScope) (t : State) : Outcome :=
  runCore (atomicAct .add 8 d a b s r c) t
def execAmoDAnd (d a b : Reg) (s : Seg) (r : MemOrd) (c : AScope) (t : State) : Outcome :=
  runCore (atomicAct .and 8 d a b s r c) t
def execAmoDOr (d a b : Reg) (s : Seg) (r : MemOrd) (c : AScope) (t : State) : Outcome :=
  runCore (atomicAct .or 8 d a b s r c) t
def execAmoDXor (d a b : Reg) (s : Seg) (r : MemOrd) (c : AScope) (t : State) : Outcome :=
  runCore (atomicAct .xor 8 d a b s r c) t
def execAmoDMin (d a b : Reg) (s : Seg) (r : MemOrd) (c : AScope) (t : State) : Outcome :=
  runCore (atomicAct .min 8 d a b s r c) t
def execAmoDMax (d a b : Reg) (s : Seg) (r : MemOrd) (c : AScope) (t : State) : Outcome :=
  runCore (atomicAct .max 8 d a b s r c) t
def execAmoDMinz (d a b : Reg) (s : Seg) (r : MemOrd) (c : AScope) (t : State) : Outcome :=
  runCore (atomicAct .minz 8 d a b s r c) t
def execAmoDMaxz (d a b : Reg) (s : Seg) (r : MemOrd) (c : AScope) (t : State) : Outcome :=
  runCore (atomicAct .maxz 8 d a b s r c) t
def execAmoDCas (d a b : Reg) (s : Seg) (r : MemOrd) (c : AScope) (t : State) : Outcome :=
  runCore (atomicAct .cas 8 d a b s r c) t
def execAmoDInc (d a b : Reg) (s : Seg) (r : MemOrd) (c : AScope) (t : State) : Outcome :=
  runCore (atomicAct .inc 8 d a b s r c) t
def execAmoWSwap (d a b : Reg) (s : Seg) (r : MemOrd) (c : AScope) (t : State) : Outcome :=
  runCore (atomicAct .swap 4 d a b s r c) t
def execAmoWAdd (d a b : Reg) (s : Seg) (r : MemOrd) (c : AScope) (t : State) : Outcome :=
  runCore (atomicAct .add 4 d a b s r c) t
def execAmoWAnd (d a b : Reg) (s : Seg) (r : MemOrd) (c : AScope) (t : State) : Outcome :=
  runCore (atomicAct .and 4 d a b s r c) t
def execAmoWOr (d a b : Reg) (s : Seg) (r : MemOrd) (c : AScope) (t : State) : Outcome :=
  runCore (atomicAct .or 4 d a b s r c) t
def execAmoWXor (d a b : Reg) (s : Seg) (r : MemOrd) (c : AScope) (t : State) : Outcome :=
  runCore (atomicAct .xor 4 d a b s r c) t
def execAmoWMin (d a b : Reg) (s : Seg) (r : MemOrd) (c : AScope) (t : State) : Outcome :=
  runCore (atomicAct .min 4 d a b s r c) t
def execAmoWMax (d a b : Reg) (s : Seg) (r : MemOrd) (c : AScope) (t : State) : Outcome :=
  runCore (atomicAct .max 4 d a b s r c) t
def execAmoWMinz (d a b : Reg) (s : Seg) (r : MemOrd) (c : AScope) (t : State) : Outcome :=
  runCore (atomicAct .minz 4 d a b s r c) t
def execAmoWMaxz (d a b : Reg) (s : Seg) (r : MemOrd) (c : AScope) (t : State) : Outcome :=
  runCore (atomicAct .maxz 4 d a b s r c) t
def execAmoWCas (d a b : Reg) (s : Seg) (r : MemOrd) (c : AScope) (t : State) : Outcome :=
  runCore (atomicAct .cas 4 d a b s r c) t
def execAmoWFadd (d a b : Reg) (s : Seg) (r : MemOrd) (c : AScope) (t : State) : Outcome :=
  runCore (atomicAct .fadd 4 d a b s r c) t
def execAmoWInc (d a b : Reg) (s : Seg) (r : MemOrd) (c : AScope) (t : State) : Outcome :=
  runCore (atomicAct .inc 4 d a b s r c) t

/-- The trap of a completion that a `fence.eng` waited for and nothing has acquired yet (R182, R337). -/
def owedBy (src : AcquireSrc) (n : Note) : Option (AcquireSrc × Nat × Word) :=
  match n with
  | .completion (some (cause, tval)) true => some (src, cause, tval)
  | .completion (some _) false | .completion none _ | .plain | .fill _ _ _ => none

/-- The traps in a lane, oldest word first. -/
def laneOwed (l : Lane) (high : Bool) : List (AcquireSrc × Nat × Word) :=
  (List.range l.count).filterMap fun i => owedBy (.lane high ((l.head + i) % 8)) l.notes[(l.head + i) % 8]!

/-- The trap that a `fence.eng` takes once its waits have ended: the pending engine trap first, then that of a
completion it waited for (R380, R182, R337). DEDUCED (log 39). -/
def Strand.fenceTrap (x : Strand) : Option (AcquireSrc × Nat × Word) :=
  if x.engTrap.toNat % 256 != 0 then some (.pending, x.engTrap.toNat % 256, x.engTval)
  else (allRegs.filterMap (fun n => owedBy (.reg n) x.notes[n]) ++ laneOwed x.inHigh true ++ laneOwed x.inLow false).head?

/-- The wait of a fence (R118): N = 0, and with `eng` the strand's engine commands; then a `fence.eng` takes the trap
that it acquires (R380), and its kind is performed after the return. -/
def fenceAct (eng : Bool) : Act Unit := do
  lookaheadCheck [] false
  if eng then
    needEngines
    match (← me).fenceTrap with
    | some (src, cause, tval) => stop (.acquired src cause tval)
    | none => pure ()
  else needDrained
  retireNone

/-- Every access of the strand is performed at its issue, so an acquire, release or full fence at any scope has nothing
left to order (R118, R159). At system scope it orders the apertures of a cell (R170): a release or full fence writes back
the job's dirty window entries, wherever the strand wrote them, and after any fence a read returns what has been written
through another aperture. -/
def fenceApertures (rel : Bool) (scope : Scope) : Act Unit := do
  if scope == .system then
    let k ← myKey
    if rel then flushWindows k.job
    refreshApertures
  else pure ()

def fenceRun (eng rel : Bool) (c : Scope) : Act Unit := do
  fenceAct eng
  if rel then needReturned (← me).party
  fenceApertures rel c

def execFenceAcq (c : Scope) (t : State) : Outcome := runCore (fenceRun false false c) t
def execFenceRel (c : Scope) (t : State) : Outcome := runCore (fenceRun false true c) t
def execFence (c : Scope) (t : State) : Outcome := runCore (fenceRun false true c) t
def execFenceEngAcq (c : Scope) (t : State) : Outcome := runCore (fenceRun true false c) t
def execFenceEngRel (c : Scope) (t : State) : Outcome := runCore (fenceRun true true c) t
def execFenceEng (c : Scope) (t : State) : Outcome := runCore (fenceRun true true c) t

end Sys2Proof.Machine
end

