-- ==== Sys2Proof/WellFormed.lean ====
section
/-! DEFINITION. Which instruction terms some encoding stands for: the static part of the ILL checks of R60, R62,
R64, R67, R69 and R73. A form that these refuse has no word that decodes to it. -/

namespace Sys2Proof

/-- The Read column of R60: `ob` may not be read. -/
def Reg.readable : Reg → Bool
  | .ob => false
  | .g _ | .zr | .lw | .le | .lwf | .lef | .ib | .qa | .qb | .fa | .fb | .fc | .fs | .sid | .lid => true

/-- The Write column of R60. -/
def Reg.writable : Reg → Bool
  | .g _ | .zr | .lw | .le | .ob | .qa | .qb => true
  | .lwf | .lef | .ib | .fa | .fb | .fc | .fs | .sid | .lid => false

/-- R62: the destination of a long-latency instruction is `g0` to `g15` or `zr`. -/
def Reg.longLatencyDest : Reg → Bool
  | .g _ | .zr => true
  | .lw | .le | .lwf | .lef | .ib | .ob | .qa | .qb | .fa | .fb | .fc | .fs | .sid | .lid => false

/-- Some word, or some tile command word, or some event of the opcode table is this instruction. -/
def Instr.wf : Instr → Bool
  | .add d a b => d.writable && a.readable && b.readable
  | .sub d a b => d.writable && a.readable && b.readable
  | .and d a b => d.writable && a.readable && b.readable
  | .or d a b => d.writable && a.readable && b.readable
  | .xor d a b => d.writable && a.readable && b.readable
  | .andn d a b => d.writable && a.readable && b.readable
  | .orn d a b => d.writable && a.readable && b.readable
  | .xnor d a b => d.writable && a.readable && b.readable
  | .shl d a b => d.writable && a.readable && b.readable
  | .shr d a b => d.writable && a.readable && b.readable
  | .sar d a b => d.writable && a.readable && b.readable
  | .rol d a b => d.writable && a.readable && b.readable
  | .ror d a b => d.writable && a.readable && b.readable
  | .min d a b => d.writable && a.readable && b.readable
  | .max d a b => d.writable && a.readable && b.readable
  | .minz d a b => d.writable && a.readable && b.readable
  | .maxz d a b => d.writable && a.readable && b.readable
  | .slt d a b => d.writable && a.readable && b.readable
  | .sltz d a b => d.writable && a.readable && b.readable
  | .seq d a b => d.writable && a.readable && b.readable
  | .sne d a b => d.writable && a.readable && b.readable
  | .addsat d a b => d.writable && a.readable && b.readable
  | .subsat d a b => d.writable && a.readable && b.readable
  | .clz d a => d.writable && a.readable
  | .ctz d a => d.writable && a.readable
  | .pop d a => d.writable && a.readable
  | .brev d a => d.writable && a.readable
  | .bswap d a => d.writable && a.readable
  | .sextB d a => d.writable && a.readable
  | .sextH d a => d.writable && a.readable
  | .sextW d a => d.writable && a.readable
  | .zextB d a => d.writable && a.readable
  | .zextH d a => d.writable && a.readable
  | .zextW d a => d.writable && a.readable
  | .mul d a b _ => d.longLatencyDest && a.readable && b.readable
  | .mulh d a b _ => d.longLatencyDest && a.readable && b.readable
  | .mulhz d a b _ => d.longLatencyDest && a.readable && b.readable
  | .div d a b _ => d.longLatencyDest && a.readable && b.readable
  | .divz d a b _ => d.longLatencyDest && a.readable && b.readable
  | .rem d a b _ => d.longLatencyDest && a.readable && b.readable
  | .remz d a b _ => d.longLatencyDest && a.readable && b.readable
  | .adds1 d a b => d.writable && a.readable && b.readable
  | .adds2 d a b => d.writable && a.readable && b.readable
  | .adds3 d a b => d.writable && a.readable && b.readable
  | .adds4 d a b => d.writable && a.readable && b.readable
  | .addi d a _ => d.writable && a.readable
  | .andi d a _ => d.writable && a.readable
  | .ori d a _ => d.writable && a.readable
  | .xori d a _ => d.writable && a.readable
  | .shli d a _ => d.writable && a.readable
  | .shri d a _ => d.writable && a.readable
  | .sari d a _ => d.writable && a.readable
  | .roli d a _ => d.writable && a.readable
  | .slti d a _ => d.writable && a.readable
  | .sltzi d a _ => d.writable && a.readable
  | .movk d _ _ => d.longLatencyDest
  | .muli d a _ => d.writable && a.readable
  | .adr d _ => d.writable
  | .brEq a b _ => a.readable && b.readable
  | .brNe a b _ => a.readable && b.readable
  | .brLt a b _ => a.readable && b.readable
  | .brGe a b _ => a.readable && b.readable
  | .brLtz a b _ => a.readable && b.readable
  | .brGez a b _ => a.readable && b.readable
  | .briEq a _ _ => a.readable
  | .briNe a _ _ => a.readable
  | .briLt a _ _ => a.readable
  | .briGe a _ _ => a.readable
  | .briLtz a _ _ => a.readable
  | .briGez a _ _ => a.readable
  | .j _ => true
  | .jl _ => true
  | .jr a => a.readable
  | .jlr d a => d.writable && a.readable
  | .loop c l => c.readable && decide (l ≠ 0)
  | .loopi _ l => decide (l ≠ 0)
  | .fadd d a b => d.writable && a.readable && b.readable
  | .fsub d a b => d.writable && a.readable && b.readable
  | .fmul d a b => d.writable && a.readable && b.readable
  | .fdiv d a b _ => d.longLatencyDest && a.readable && b.readable
  | .fmin d a b => d.writable && a.readable && b.readable
  | .fmax d a b => d.writable && a.readable && b.readable
  | .fsqrt d a _ => d.longLatencyDest && a.readable
  | .feq d a b => d.writable && a.readable && b.readable
  | .flt d a b => d.writable && a.readable && b.readable
  | .fle d a b => d.writable && a.readable && b.readable
  | .fcvtIf d a => d.writable && a.readable
  | .fcvtFi d a => d.writable && a.readable
  | .fneg d a => d.writable && a.readable
  | .fabs d a => d.writable && a.readable
  | .ldB v a _ _ _ => v.longLatencyDest && a.readable
  | .ldH v a _ _ _ => v.longLatencyDest && a.readable
  | .ldW v a _ _ _ => v.longLatencyDest && a.readable
  | .ldD v a _ _ _ => v.longLatencyDest && a.readable
  | .ldzB v a _ _ _ => v.longLatencyDest && a.readable
  | .ldzH v a _ _ _ => v.longLatencyDest && a.readable
  | .ldzW v a _ _ _ => v.longLatencyDest && a.readable
  | .stB v a _ _ => v.readable && a.readable
  | .stH v a _ _ => v.readable && a.readable
  | .stW v a _ _ => v.readable && a.readable
  | .stD v a _ _ => v.readable && a.readable
  | .ldxB v a b _ _ => v.longLatencyDest && a.readable && b.readable
  | .ldxH v a b _ _ => v.longLatencyDest && a.readable && b.readable
  | .ldxW v a b _ _ => v.longLatencyDest && a.readable && b.readable
  | .ldxD v a b _ _ => v.longLatencyDest && a.readable && b.readable
  | .ldzxB v a b _ _ => v.longLatencyDest && a.readable && b.readable
  | .ldzxH v a b _ _ => v.longLatencyDest && a.readable && b.readable
  | .ldzxW v a b _ _ => v.longLatencyDest && a.readable && b.readable
  | .stxB v a b _ => v.readable && a.readable && b.readable
  | .stxH v a b _ => v.readable && a.readable && b.readable
  | .stxW v a b _ => v.readable && a.readable && b.readable
  | .stxD v a b _ => v.readable && a.readable && b.readable
  | .ldf v a _ _ _ _ => v.longLatencyDest && a.readable
  | .ldfe v a _ _ _ _ => v.longLatencyDest && a.readable
  | .stef v a _ _ _ => v.readable && a.readable
  | .stf v a _ _ _ => v.readable && a.readable
  | .feprobe d a b _ _ => d.longLatencyDest && a.readable && b.readable
  | .feset a b _ => a.readable && b.readable
  | .feclr a b _ => a.readable && b.readable
  | .fewait a b _ => a.readable && b.readable
  | .fewaite a b _ => a.readable && b.readable
  | .rempty _ => true
  | .rprobe d _ => d.writable
  | .amoDSwap d a b _ _ _ => d.writable && a.readable && b.readable
  | .amoDAdd d a b _ _ _ => d.writable && a.readable && b.readable
  | .amoDAnd d a b _ _ _ => d.writable && a.readable && b.readable
  | .amoDOr d a b _ _ _ => d.writable && a.readable && b.readable
  | .amoDXor d a b _ _ _ => d.writable && a.readable && b.readable
  | .amoDMin d a b _ _ _ => d.writable && a.readable && b.readable
  | .amoDMax d a b _ _ _ => d.writable && a.readable && b.readable
  | .amoDMinz d a b _ _ _ => d.writable && a.readable && b.readable
  | .amoDMaxz d a b _ _ _ => d.writable && a.readable && b.readable
  | .amoDCas d a b _ _ _ => d.writable && d.readable && a.readable && b.readable
  | .amoDInc d a b _ _ _ => d.writable && a.readable && b.readable
  | .amoWSwap d a b _ _ _ => d.writable && a.readable && b.readable
  | .amoWAdd d a b _ _ _ => d.writable && a.readable && b.readable
  | .amoWAnd d a b _ _ _ => d.writable && a.readable && b.readable
  | .amoWOr d a b _ _ _ => d.writable && a.readable && b.readable
  | .amoWXor d a b _ _ _ => d.writable && a.readable && b.readable
  | .amoWMin d a b _ _ _ => d.writable && a.readable && b.readable
  | .amoWMax d a b _ _ _ => d.writable && a.readable && b.readable
  | .amoWMinz d a b _ _ _ => d.writable && a.readable && b.readable
  | .amoWMaxz d a b _ _ _ => d.writable && a.readable && b.readable
  | .amoWCas d a b _ _ _ => d.writable && d.readable && a.readable && b.readable
  | .amoWFadd d a b _ _ _ => d.writable && a.readable && b.readable
  | .amoWInc d a b _ _ _ => d.writable && a.readable && b.readable
  | .fenceAcq _ => true
  | .fenceRel _ => true
  | .fence _ => true
  | .fenceEngAcq _ => true
  | .fenceEngRel _ => true
  | .fenceEng _ => true
  | .segld _ a => a.readable
  | .segst _ a => a.readable
  | .segnar _ a b => a.readable && b.readable
  | .segrgt _ a => a.readable
  | .segbase d _ => d.writable
  | .seglim d _ => d.writable
  | .segrd d _ => d.writable
  | .smap d a b _ => d.readable && a.readable && b.readable
  | .sunmap d b => d.readable && b.readable
  | .sflush d b => d.readable && b.readable
  | .sinv d b => d.readable && b.readable
  | .sprobe d a => d.writable && a.readable
  | .msgt a b => a.readable && b.readable
  | .poll d => d.writable
  | .qbind a b => a.readable && b.readable
  | .migrate a => a.readable
  | .rfork d a b => d.longLatencyDest && a.readable && b.readable
  | .join a => a.readable
  | .spawn d a b => d.longLatencyDest && a.readable && b.readable
  | .tail a => a.readable
  | .yield => true
  | .park => true
  | .wake a => a.readable
  | .endStrand => true
  | .cancel => true
  | .gdec a => a.readable
  | .qput a b => a.readable && b.readable
  | .qtake d a => d.longLatencyDest && a.readable
  | .lfork d a _ => d.longLatencyDest && a.readable
  | .lforkf d a _ => d.longLatencyDest && a.readable
  | .lflat d a _ => d.longLatencyDest && a.readable
  | .lrebk d a b _ => d.longLatencyDest && a.readable && b.readable
  | .lrebd d a b _ => d.longLatencyDest && a.readable && b.readable
  | .ldel d a _ => d.longLatencyDest && a.readable
  | .lcmt d a _ => d.longLatencyDest && a.readable
  | .linfo d a b _ => d.longLatencyDest && a.readable && b.readable
  | .trap _ => true
  | .eret => true
  | .brk _ => true
  | .cyc d => d.longLatencyDest
  | .rsr d i => d.writable && decide (i.toNat ≤ 0x11)
  | .wsr a i => a.readable && decide (i.toNat ≤ 0x11)
  | .rcx d a i => d.writable && a.readable && decide (i.toNat < 128)
  | .wcx v a _ => v.readable && a.readable
  | .halt => true
  | .tlbinv a => a.readable
  | .ctxflush a => a.readable
  | .cpCopy => true
  | .cpFill => true
  | .cpBcast => true
  | .cpGather => true
  | .cpScatter => true
  | .cpCancel => true
  | .cpNode => true
  | .lnRoot => true
  | .lnWr => true
  | .lnWre => true
  | .lnLr => true
  | .lnRes => true
  | .lnApp => true
  | .lnTrunc => true
  | .lnRd => true
  | .mxZero => true
  | .mxMma => true
  | .mxLin => true
  | .mxSt => true
  | .mxLd => true
  | .vxFill => true
  | .vxIota => true
  | .vxAdd => true
  | .vxSub => true
  | .vxMul => true
  | .vxFma => true
  | .vxMin => true
  | .vxMax => true
  | .vxAbs => true
  | .vxNeg => true
  | .vxRcp => true
  | .vxRsqrt => true
  | .vxExp2 => true
  | .vxLog2 => true
  | .vxCvt => true
  | .vxCmp => true
  | .vxSel => true
  | .vxRsum => true
  | .vxRmax => true
  | .vxArgmax => true
  | .vxGather => true
  | .vxScatter => true
  | .vxQuant => true
  | .vxSwz => true
  | .clAg => true
  | .clRs => true
  | .clAr => true
  | .clBc => true
  | .clGrp => true
  | .smRun => true
  | .smBatch => true
  | .rnCfg => true
  | .rnDraw => true
  | .dxOpen => true
  | .dxIn => true
  | .dxApp => true
  | .dxAck => true
  | .dxTrunc => true
  | .dxClose => true
  | .stashRecall => true
  | .inboxPush => true
  | .linkWordArrival => true
  | .pieceSignal => true
  | .collectiveStart => true
  | .lanternPieceSignal => true
  | .tokenWordStore => true
  | .longLatencyComplete => true
  | .engineCompletion => true
  | .trapEntry => true
  | .strandWake => true
  | .activationStart => true
  | .activationComplete => true
  | .contextLineArrival => true
  | .page => true
  | .accessReperform => true
  | .migrationArrival => true
  | .fabricAccessIn => true
  | .deviceLost => true
  | .linkFailure => true
  | .graphNodeDecrement => true
  | .taskDispatch => true
  | .gangPlacement => true
  | .taskRetirement => true
  | .preemption => true
  | .checkpoint => true
  | .launch => true
  | .preempt => true
  | .resume => true
  | .launchCancel => true
  | .doorbell => true
  | .queueSlotVisit => true
  | .supqHeldEvent => true
  | .jobCreate => true
  | .jobEnd => true
  | .l2LineEviction => true
  | .patrolScrub => true
  | .rollback => true
  | .scrubPeriodEnd => true
  | .layerHardRemoval => true
  | .release => true
  | .scrubPeriod => true
  | .throttle => true
  | .thermalThrottle => true
  | .thermalStop => true
  | .deviceReset => true
  | .getVersion => true
  | .getCapabilities => true
  | .negotiateAlgorithms => true
  | .getDigests => true
  | .getCertificate => true
  | .challenge => true
  | .getMeasurements => true
  | .hostCxlAccess => true
  | .storeRefused => true
  | .fusedMinimumRaise => true

end Sys2Proof
end

