-- ==== Sys2Proof/Decode.lean ====
section
/-! DEFINITION. The decoder, total on any bytes (R57 to R73, R75, R78), and after it the encoder, both written from
the opcode tables of "Instruction words and the opcode map". -/

namespace Sys2Proof

/-- Why some bytes are no instruction. All but the last two are an ILL trap (R67); a tile command word of an
unassigned engine or operation code is a TCW trap (R78). -/
inductive Reject where
  /-- A major opcode that R67 marks ILL. -/
  | reservedMajor
  /-- A minor, op, kind or code value that no table assigns. -/
  | reservedMinor
  /-- A branch condition that R97 gives no meaning: an ILL trap with 0. -/
  | reservedCondition
  /-- A field that the instruction does not use is not zero, a lookahead among them (R58, R64). -/
  | mustBeZero
  /-- A field holds a value that R59 to R73 do not allow there. -/
  | badOperand
  /-- An engine or operation code outside R78. -/
  | tcwCode
  /-- Fewer bytes than the instruction takes. -/
  | truncated
  deriving DecidableEq, Repr

/-! ### Fields of a scalar word (R58) -/

def fMajor (w : IWord) : BitVec 6 := fieldAt 26 6 w
def fD (w : IWord) : BitVec 5 := fieldAt 21 5 w
def fA (w : IWord) : BitVec 5 := fieldAt 16 5 w
def fB (w : IWord) : BitVec 5 := fieldAt 11 5 w
def fMinor (w : IWord) : BitVec 7 := fieldAt 4 7 w
def fLa (w : IWord) : BitVec 4 := fieldAt 0 4 w
def fImm16 (w : IWord) : BitVec 16 := fieldAt 0 16 w
def fSegM (w : IWord) : BitVec 3 := fieldAt 13 3 w
def fDisp9 (w : IWord) : BitVec 9 := fieldAt 4 9 w
def fDisp6 (w : IWord) : BitVec 6 := fieldAt 7 6 w
def fScope (w : IWord) : BitVec 3 := fieldAt 4 3 w
def fSegS (w : IWord) : BitVec 3 := fieldAt 8 3 w
def fOp (w : IWord) : BitVec 4 := fieldAt 4 4 w
def fOrd (w : IWord) : BitVec 2 := fieldAt 2 2 w
def fScp (w : IWord) : BitVec 2 := fieldAt 0 2 w
def fCond (w : IWord) : BitVec 3 := fieldAt 13 3 w
def fOff13 (w : IWord) : BitVec 13 := fieldAt 0 13 w
def fOff26 (w : IWord) : BitVec 26 := fieldAt 0 26 w
def fSysOp (w : IWord) : BitVec 4 := fieldAt 12 4 w
def fImm8 (w : IWord) : BitVec 8 := fieldAt 4 8 w
def fShKind (w : IWord) : BitVec 4 := fieldAt 12 4 w
def fShZero (w : IWord) : BitVec 6 := fieldAt 6 6 w
def fAmount (w : IWord) : BitVec 6 := fieldAt 0 6 w
def fCount10 (w : IWord) : BitVec 10 := fieldAt 16 10 w
def fFenceHi (w : IWord) : BitVec 16 := fieldAt 10 16 w
def fFenceOp (w : IWord) : BitVec 3 := fieldAt 7 3 w

/-! ### Codes of operand fields -/

/-- The number of a register specifier (R60). -/
def Reg.code : Reg → BitVec 5
  | .g n => BitVec.ofNat 5 n.val
  | .zr => 16#5 | .lw => 17#5 | .le => 18#5 | .lwf => 19#5 | .lef => 20#5 | .ib => 21#5 | .ob => 22#5
  | .qa => 23#5 | .qb => 24#5 | .fa => 25#5 | .fb => 26#5 | .fc => 27#5 | .fs => 28#5 | .sid => 29#5 | .lid => 30#5

/-- The specifier of a number; 31 is ILL in every register field (R60). -/
def Reg.ofCode (c : BitVec 5) : Except Reject Reg :=
  if h : c.toNat < 16 then .ok (.g ⟨c.toNat, h⟩) else
  match c.toNat with
  | 16 => .ok .zr | 17 => .ok .lw | 18 => .ok .le | 19 => .ok .lwf | 20 => .ok .lef | 21 => .ok .ib | 22 => .ok .ob
  | 23 => .ok .qa | 24 => .ok .qb | 25 => .ok .fa | 26 => .ok .fb | 27 => .ok .fc | 28 => .ok .fs
  | 29 => .ok .sid | 30 => .ok .lid
  | _ => .error .badOperand

/-- A field that names `g0` to `g15` and nothing else (R69). -/
def gprOfCode (c : BitVec 5) : Except Reject (Fin 16) :=
  if h : c.toNat < 16 then .ok ⟨c.toNat, h⟩ else .error .badOperand

/-- A 5-bit field that names a segment register (R72). -/
def segOfCode (c : BitVec 5) : Except Reject Seg :=
  if h : c.toNat < 8 then .ok ⟨c.toNat, h⟩ else .error .badOperand

/-- A 3-bit segment field, of which every value is legal (R59). -/
def segOfField (c : BitVec 3) : Seg := ⟨c.toNat, c.isLt⟩

/-- The halfword position of `movk`, 0 to 3 (R67). -/
def halfOfCode (c : BitVec 5) : Except Reject (Fin 4) :=
  if h : c.toNat < 4 then .ok ⟨c.toNat, h⟩ else .error .badOperand

def Scope.code : Scope → BitVec 3
  | .strand => 0#3 | .station => 1#3 | .die => 2#3 | .package => 3#3 | .system => 4#3

def Scope.ofCode (c : BitVec 3) : Except Reject Scope :=
  match c.toNat with
  | 0 => .ok .strand | 1 => .ok .station | 2 => .ok .die | 3 => .ok .package | 4 => .ok .system
  | _ => .error .badOperand

def AScope.code : AScope → BitVec 2
  | .station => 0#2 | .die => 1#2 | .package => 2#2 | .system => 3#2

def AScope.ofCode (c : BitVec 2) : AScope :=
  match c.toNat with
  | 0 => .station | 1 => .die | 2 => .package | _ => .system

def MemOrd.code : MemOrd → BitVec 2
  | .relaxed => 0#2 | .acquire => 1#2 | .release => 2#2 | .acqRel => 3#2

def MemOrd.ofCode (c : BitVec 2) : MemOrd :=
  match c.toNat with
  | 0 => .relaxed | 1 => .acquire | 2 => .release | _ => .acqRel

/-! ### Shapes of operand fields -/

/-- The fields that must be zero are (R58, R67). -/
def needZero (zero : Bool) (k : Except Reject Instr) : Except Reject Instr :=
  if zero then k else .error .mustBeZero

def withReg (c : BitVec 5) (k : Reg → Except Reject Instr) : Except Reject Instr :=
  match Reg.ofCode c with
  | .ok r => k r
  | .error e => .error e

def withGpr (c : BitVec 5) (k : Fin 16 → Except Reject Instr) : Except Reject Instr :=
  match gprOfCode c with
  | .ok r => k r
  | .error e => .error e

def withSeg (c : BitVec 5) (k : Seg → Except Reject Instr) : Except Reject Instr :=
  match segOfCode c with
  | .ok r => k r
  | .error e => .error e

def withHalf (c : BitVec 5) (k : Fin 4 → Except Reject Instr) : Except Reject Instr :=
  match halfOfCode c with
  | .ok r => k r
  | .error e => .error e

def withScope (c : BitVec 3) (k : Scope → Except Reject Instr) : Except Reject Instr :=
  match Scope.ofCode c with
  | .ok r => k r
  | .error e => .error e


def shDAB (c : Reg → Reg → Reg → Instr) (w : IWord) : Except Reject Instr :=
  needZero (fLa w == 0) <| withReg (fD w) fun d => withReg (fA w) fun a => withReg (fB w) fun b => .ok (c d a b)

def shDABk (c : Reg → Reg → Reg → BitVec 4 → Instr) (w : IWord) : Except Reject Instr :=
  withReg (fD w) fun d => withReg (fA w) fun a => withReg (fB w) fun b => .ok (c d a b (fLa w))

def shDA (c : Reg → Reg → Instr) (w : IWord) : Except Reject Instr :=
  needZero (fB w == 0 && fLa w == 0) <| withReg (fD w) fun d => withReg (fA w) fun a => .ok (c d a)

def shDAk (c : Reg → Reg → BitVec 4 → Instr) (w : IWord) : Except Reject Instr :=
  needZero (fB w == 0) <| withReg (fD w) fun d => withReg (fA w) fun a => .ok (c d a (fLa w))

def shDAi (c : Reg → Reg → BitVec 16 → Instr) (w : IWord) : Except Reject Instr :=
  withReg (fD w) fun d => withReg (fA w) fun a => .ok (c d a (fImm16 w))

def shShift (c : Reg → Reg → BitVec 6 → Instr) (w : IWord) : Except Reject Instr :=
  needZero (fShZero w == 0) <| withReg (fD w) fun d => withReg (fA w) fun a => .ok (c d a (fAmount w))

def shBr (c : Reg → Reg → BitVec 13 → Instr) (w : IWord) : Except Reject Instr :=
  withReg (fD w) fun a => withReg (fA w) fun b => .ok (c a b (fOff13 w))

def shBri (c : Reg → BitVec 5 → BitVec 13 → Instr) (w : IWord) : Except Reject Instr :=
  withReg (fD w) fun a => .ok (c a (fA w) (fOff13 w))

def shLd (c : Reg → Reg → Seg → BitVec 9 → BitVec 4 → Instr) (w : IWord) : Except Reject Instr :=
  withReg (fD w) fun v => withReg (fA w) fun a => .ok (c v a (segOfField (fSegM w)) (fDisp9 w) (fLa w))

def shSt (c : Reg → Reg → Seg → BitVec 9 → Instr) (w : IWord) : Except Reject Instr :=
  needZero (fLa w == 0) <| withReg (fD w) fun v => withReg (fA w) fun a => .ok (c v a (segOfField (fSegM w)) (fDisp9 w))

def shLdx (c : Reg → Reg → Reg → Seg → BitVec 4 → Instr) (w : IWord) : Except Reject Instr :=
  withReg (fD w) fun v => withReg (fA w) fun a => withReg (fB w) fun b => .ok (c v a b (segOfField (fSegS w)) (fLa w))

def shStx (c : Reg → Reg → Reg → Seg → Instr) (w : IWord) : Except Reject Instr :=
  needZero (fLa w == 0) <| withReg (fD w) fun v => withReg (fA w) fun a => withReg (fB w) fun b => .ok (c v a b (segOfField (fSegS w)))

def shLdf (c : Reg → Reg → Seg → BitVec 6 → Scope → BitVec 4 → Instr) (w : IWord) : Except Reject Instr :=
  withReg (fD w) fun v => withReg (fA w) fun a => withScope (fScope w) fun s => .ok (c v a (segOfField (fSegM w)) (fDisp6 w) s (fLa w))

def shStf (c : Reg → Reg → Seg → BitVec 6 → Scope → Instr) (w : IWord) : Except Reject Instr :=
  needZero (fLa w == 0) <| withReg (fD w) fun v => withReg (fA w) fun a => withScope (fScope w) fun s => .ok (c v a (segOfField (fSegM w)) (fDisp6 w) s)

def shFe (c : Reg → Reg → Seg → Instr) (w : IWord) : Except Reject Instr :=
  needZero (fD w == 0 && fLa w == 0) <| withReg (fA w) fun a => withReg (fB w) fun b => .ok (c a b (segOfField (fSegS w)))

def shAmo (c : Reg → Reg → Reg → Seg → MemOrd → AScope → Instr) (w : IWord) : Except Reject Instr :=
  withReg (fD w) fun d => withReg (fA w) fun a => withReg (fB w) fun b =>
    .ok (c d a b (segOfField (fSegS w)) (MemOrd.ofCode (fOrd w)) (AScope.ofCode (fScp w)))

def shFence (c : Scope → Instr) (w : IWord) : Except Reject Instr :=
  needZero (fFenceHi w == 0 && fLa w == 0) <| withScope (fScope w) fun s => .ok (c s)

def shSegA (c : Seg → Reg → Instr) (w : IWord) : Except Reject Instr :=
  needZero (fB w == 0 && fLa w == 0) <| withSeg (fD w) fun d => withReg (fA w) fun a => .ok (c d a)

def shSegAB (c : Seg → Reg → Reg → Instr) (w : IWord) : Except Reject Instr :=
  needZero (fLa w == 0) <| withSeg (fD w) fun d => withReg (fA w) fun a => withReg (fB w) fun b => .ok (c d a b)

def shDSeg (c : Reg → Seg → Instr) (w : IWord) : Except Reject Instr :=
  needZero (fB w == 0 && fLa w == 0) <| withReg (fD w) fun d => withSeg (fA w) fun a => .ok (c d a)

def shDB (c : Reg → Reg → Instr) (w : IWord) : Except Reject Instr :=
  needZero (fA w == 0 && fSegS w == 0 && fLa w == 0) <| withReg (fD w) fun d => withReg (fB w) fun b => .ok (c d b)

def shDAs (c : Reg → Reg → Instr) (w : IWord) : Except Reject Instr :=
  needZero (fB w == 0 && fSegS w == 0 && fLa w == 0) <| withReg (fD w) fun d => withReg (fA w) fun a => .ok (c d a)

def shAB (c : Reg → Reg → Instr) (w : IWord) : Except Reject Instr :=
  needZero (fD w == 0 && fLa w == 0) <| withReg (fA w) fun a => withReg (fB w) fun b => .ok (c a b)

def shA (c : Reg → Instr) (w : IWord) : Except Reject Instr :=
  needZero (fD w == 0 && fB w == 0 && fLa w == 0) <| withReg (fA w) fun a => .ok (c a)

def shD (c : Reg → Instr) (w : IWord) : Except Reject Instr :=
  needZero (fA w == 0 && fB w == 0 && fLa w == 0) <| withReg (fD w) fun d => .ok (c d)

def shNone (i : Instr) (w : IWord) : Except Reject Instr :=
  needZero (fD w == 0 && fA w == 0 && fB w == 0 && fLa w == 0) <| .ok i

def shSysI (c : BitVec 8 → Instr) (w : IWord) : Except Reject Instr :=
  needZero (fD w == 0 && fA w == 0 && fLa w == 0) <| .ok (c (fImm8 w))

def shSysNone (i : Instr) (w : IWord) : Except Reject Instr :=
  needZero (fD w == 0 && fA w == 0 && fImm8 w == 0 && fLa w == 0) <| .ok i

def shSysD (c : Reg → Instr) (w : IWord) : Except Reject Instr :=
  needZero (fA w == 0 && fImm8 w == 0 && fLa w == 0) <| withReg (fD w) fun d => .ok (c d)

def shSysDi (c : Reg → BitVec 8 → Instr) (w : IWord) : Except Reject Instr :=
  needZero (fA w == 0 && fLa w == 0) <| withReg (fD w) fun d => .ok (c d (fImm8 w))

def shSysAi (c : Reg → BitVec 8 → Instr) (w : IWord) : Except Reject Instr :=
  needZero (fD w == 0 && fLa w == 0) <| withReg (fA w) fun a => .ok (c a (fImm8 w))

def shSysDAi (c : Reg → Reg → BitVec 8 → Instr) (w : IWord) : Except Reject Instr :=
  needZero (fLa w == 0) <| withReg (fD w) fun d => withReg (fA w) fun a => .ok (c d a (fImm8 w))

def shSysA (c : Reg → Instr) (w : IWord) : Except Reject Instr :=
  needZero (fD w == 0 && fImm8 w == 0 && fLa w == 0) <| withReg (fA w) fun a => .ok (c a)

/-! ### Minor tables (R68 to R73) -/

def decodeAlu (w : IWord) : Except Reject Instr :=
  match (fMinor w).toNat with
  | 0x0 => shDAB .add w
  | 0x1 => shDAB .sub w
  | 0x2 => shDAB .and w
  | 0x3 => shDAB .or w
  | 0x4 => shDAB .xor w
  | 0x5 => shDAB .andn w
  | 0x6 => shDAB .orn w
  | 0x7 => shDAB .xnor w
  | 0x8 => shDAB .shl w
  | 0x9 => shDAB .shr w
  | 0xa => shDAB .sar w
  | 0xb => shDAB .rol w
  | 0xc => shDAB .ror w
  | 0x10 => shDAB .min w
  | 0x11 => shDAB .max w
  | 0x12 => shDAB .minz w
  | 0x13 => shDAB .maxz w
  | 0x14 => shDAB .slt w
  | 0x15 => shDAB .sltz w
  | 0x16 => shDAB .seq w
  | 0x17 => shDAB .sne w
  | 0x18 => shDAB .addsat w
  | 0x19 => shDAB .subsat w
  | 0x20 => shDA .clz w
  | 0x21 => shDA .ctz w
  | 0x22 => shDA .pop w
  | 0x23 => shDA .brev w
  | 0x24 => shDA .bswap w
  | 0x25 => shDA .sextB w
  | 0x26 => shDA .sextH w
  | 0x27 => shDA .sextW w
  | 0x28 => shDA .zextB w
  | 0x29 => shDA .zextH w
  | 0x2a => shDA .zextW w
  | 0x30 => shDABk .mul w
  | 0x31 => shDABk .mulh w
  | 0x32 => shDABk .mulhz w
  | 0x33 => shDABk .div w
  | 0x34 => shDABk .divz w
  | 0x35 => shDABk .rem w
  | 0x36 => shDABk .remz w
  | 0x3c => shDAB .adds1 w
  | 0x3d => shDAB .adds2 w
  | 0x3e => shDAB .adds3 w
  | 0x3f => shDAB .adds4 w
  | _ => .error .reservedMinor

def decodeShift (w : IWord) : Except Reject Instr :=
  match (fShKind w).toNat with
  | 0x0 => shShift .shli w
  | 0x1 => shShift .shri w
  | 0x2 => shShift .sari w
  | 0x3 => shShift .roli w
  | _ => .error .reservedMinor

def decodeBr (w : IWord) : Except Reject Instr :=
  match (fCond w).toNat with
  | 0x0 => shBr .brEq w
  | 0x1 => shBr .brNe w
  | 0x2 => shBr .brLt w
  | 0x3 => shBr .brGe w
  | 0x4 => shBr .brLtz w
  | 0x5 => shBr .brGez w
  | _ => .error .reservedCondition

def decodeBri (w : IWord) : Except Reject Instr :=
  match (fCond w).toNat with
  | 0x0 => shBri .briEq w
  | 0x1 => shBri .briNe w
  | 0x2 => shBri .briLt w
  | 0x3 => shBri .briGe w
  | 0x4 => shBri .briLtz w
  | 0x5 => shBri .briGez w
  | _ => .error .reservedCondition

def decodeJr (w : IWord) : Except Reject Instr :=
  match (fMinor w).toNat with
  | 0x0 => shA .jr w
  | 0x1 => shDA .jlr w
  | _ => .error .reservedMinor

def decodeFp (w : IWord) : Except Reject Instr :=
  match (fMinor w).toNat with
  | 0x0 => shDAB .fadd w
  | 0x1 => shDAB .fsub w
  | 0x2 => shDAB .fmul w
  | 0x3 => shDABk .fdiv w
  | 0x4 => shDAB .fmin w
  | 0x5 => shDAB .fmax w
  | 0x6 => shDAk .fsqrt w
  | 0x7 => shDAB .feq w
  | 0x8 => shDAB .flt w
  | 0x9 => shDAB .fle w
  | 0xa => shDA .fcvtIf w
  | 0xb => shDA .fcvtFi w
  | 0xc => shDA .fneg w
  | 0xd => shDA .fabs w
  | _ => .error .reservedMinor

def decodeIndexed (w : IWord) : Except Reject Instr :=
  match (fOp w).toNat with
  | 0x0 => shLdx .ldxB w
  | 0x1 => shLdx .ldxH w
  | 0x2 => shLdx .ldxW w
  | 0x3 => shLdx .ldxD w
  | 0x4 => shLdx .ldzxB w
  | 0x5 => shLdx .ldzxH w
  | 0x6 => shLdx .ldzxW w
  | 0x8 => shStx .stxB w
  | 0x9 => shStx .stxH w
  | 0xa => shStx .stxW w
  | 0xb => shStx .stxD w
  | _ => .error .reservedMinor

def decodeFe (w : IWord) : Except Reject Instr :=
  match (fOp w).toNat with
  | 0 => shLdx .feprobe w
  | 1 => shFe .feset w
  | 2 => shFe .feclr w
  | 3 => shFe .fewait w
  | 4 => shFe .fewaite w
  | 5 => needZero (fA w == 0 && fB w == 0 && fSegS w == 0 && fLa w == 0) <| withGpr (fD w) fun n => .ok (.rempty n)
  | 6 => needZero (fB w == 0 && fSegS w == 0 && fLa w == 0) <|
      withReg (fD w) fun d => withGpr (fA w) fun n => .ok (.rprobe d n)
  | _ => .error .reservedMinor

def decodeAmoD (w : IWord) : Except Reject Instr :=
  match (fOp w).toNat with
  | 0x0 => shAmo .amoDSwap w
  | 0x1 => shAmo .amoDAdd w
  | 0x2 => shAmo .amoDAnd w
  | 0x3 => shAmo .amoDOr w
  | 0x4 => shAmo .amoDXor w
  | 0x5 => shAmo .amoDMin w
  | 0x6 => shAmo .amoDMax w
  | 0x7 => shAmo .amoDMinz w
  | 0x8 => shAmo .amoDMaxz w
  | 0x9 => shAmo .amoDCas w
  | 0xb => shAmo .amoDInc w
  | _ => .error .reservedMinor

def decodeAmoW (w : IWord) : Except Reject Instr :=
  match (fOp w).toNat with
  | 0x0 => shAmo .amoWSwap w
  | 0x1 => shAmo .amoWAdd w
  | 0x2 => shAmo .amoWAnd w
  | 0x3 => shAmo .amoWOr w
  | 0x4 => shAmo .amoWXor w
  | 0x5 => shAmo .amoWMin w
  | 0x6 => shAmo .amoWMax w
  | 0x7 => shAmo .amoWMinz w
  | 0x8 => shAmo .amoWMaxz w
  | 0x9 => shAmo .amoWCas w
  | 0xa => shAmo .amoWFadd w
  | 0xb => shAmo .amoWInc w
  | _ => .error .reservedMinor

def decodeFence (w : IWord) : Except Reject Instr :=
  match (fFenceOp w).toNat with
  | 0x0 => shFence .fenceAcq w
  | 0x1 => shFence .fenceRel w
  | 0x2 => shFence .fence w
  | 0x4 => shFence .fenceEngAcq w
  | 0x5 => shFence .fenceEngRel w
  | 0x6 => shFence .fenceEng w
  | _ => .error .reservedMinor

def decodeSegment (w : IWord) : Except Reject Instr :=
  match (fMinor w).toNat with
  | 0x0 => shSegA .segld w
  | 0x1 => shSegA .segst w
  | 0x2 => shSegAB .segnar w
  | 0x3 => shSegA .segrgt w
  | 0x4 => shDSeg .segbase w
  | 0x5 => shDSeg .seglim w
  | 0x6 => shDSeg .segrd w
  | _ => .error .reservedMinor

def decodeStash (w : IWord) : Except Reject Instr :=
  match (fOp w).toNat with
  | 0x0 => shStx .smap w
  | 0x1 => shDB .sunmap w
  | 0x2 => shDB .sflush w
  | 0x3 => shDB .sinv w
  | 0x4 => shDAs .sprobe w
  | _ => .error .reservedMinor

def decodeMessage (w : IWord) : Except Reject Instr :=
  match (fMinor w).toNat with
  | 0x0 => shAB .msgt w
  | 0x1 => shD .poll w
  | 0x2 => shAB .qbind w
  | 0x3 => shA .migrate w
  | _ => .error .reservedMinor

def decodeTask (w : IWord) : Except Reject Instr :=
  match (fMinor w).toNat with
  | 0x0 => shDAB .rfork w
  | 0x1 => shA .join w
  | 0x2 => shDAB .spawn w
  | 0x3 => shA .tail w
  | 0x4 => shNone .yield w
  | 0x5 => shNone .park w
  | 0x6 => shA .wake w
  | 0x7 => shNone .endStrand w
  | 0x8 => shNone .cancel w
  | 0x9 => shA .gdec w
  | 0xa => shAB .qput w
  | 0xb => shDA .qtake w
  | _ => .error .reservedMinor

def decodeLineage (w : IWord) : Except Reject Instr :=
  match (fMinor w).toNat with
  | 0x0 => shDAk .lfork w
  | 0x1 => shDAk .lforkf w
  | 0x2 => shDAk .lflat w
  | 0x3 => shDABk .lrebk w
  | 0x4 => shDABk .lrebd w
  | 0x5 => shDAk .ldel w
  | 0x6 => shDAk .lcmt w
  | 0x7 => shDABk .linfo w
  | _ => .error .reservedMinor

def decodeSys (w : IWord) : Except Reject Instr :=
  match (fSysOp w).toNat with
  | 0x0 => shSysI .trap w
  | 0x1 => shSysNone .eret w
  | 0x2 => shSysI .brk w
  | 0x3 => shSysD .cyc w
  | 0x4 => shSysDi .rsr w
  | 0x5 => shSysAi .wsr w
  | 0x6 => shSysDAi .rcx w
  | 0x7 => shSysDAi .wcx w
  | 0x8 => shSysNone .halt w
  | 0x9 => shSysA .tlbinv w
  | 0xa => shSysA .ctxflush w
  | _ => .error .reservedMinor

/-- The major opcode map (R67). Major 0x3E starts a tile command word and is no scalar word. -/
def decodeRaw (w : IWord) : Except Reject Instr :=
  match (fMajor w).toNat with
  | 0x01 => decodeAlu w
  | 0x02 => shDAi .addi w
  | 0x03 => shDAi .andi w
  | 0x04 => shDAi .ori w
  | 0x05 => shDAi .xori w
  | 0x06 => decodeShift w
  | 0x07 => shDAi .slti w
  | 0x08 => shDAi .sltzi w
  | 0x09 => withReg (fD w) fun d => withHalf (fA w) fun h => .ok (.movk d h (fImm16 w))
  | 0x0a => shDAi .muli w
  | 0x0b => needZero (fA w == 0) <| withReg (fD w) fun d => .ok (.adr d (fImm16 w))
  | 0x0c => decodeBr w
  | 0x0d => decodeBri w
  | 0x0e => .ok (.j (fOff26 w))
  | 0x0f => .ok (.jl (fOff26 w))
  | 0x10 => decodeJr w
  | 0x11 => needZero (fA w == 0) <| withReg (fD w) fun c => .ok (.loop c (fImm16 w))
  | 0x12 => .ok (.loopi (fCount10 w) (fImm16 w))
  | 0x13 => decodeFp w
  | 0x14 => shLd .ldB w
  | 0x15 => shLd .ldH w
  | 0x16 => shLd .ldW w
  | 0x17 => shLd .ldD w
  | 0x18 => shLd .ldzB w
  | 0x19 => shLd .ldzH w
  | 0x1a => shLd .ldzW w
  | 0x1b => shSt .stB w
  | 0x1c => shSt .stH w
  | 0x1d => shSt .stW w
  | 0x1e => shSt .stD w
  | 0x1f => decodeIndexed w
  | 0x20 => shLdf .ldf w
  | 0x21 => shLdf .ldfe w
  | 0x22 => shStf .stef w
  | 0x23 => shStf .stf w
  | 0x24 => decodeFe w
  | 0x25 => decodeAmoD w
  | 0x26 => decodeAmoW w
  | 0x27 => decodeFence w
  | 0x28 => decodeSegment w
  | 0x29 => decodeStash w
  | 0x2a => decodeMessage w
  | 0x2c => decodeTask w
  | 0x2d => decodeLineage w
  | 0x3c => decodeSys w
  | _ => .error .reservedMajor

/-- The instruction of one scalar word: its fields, and then the static checks of R60, R62, R69 and R73. -/
def decodeWord (w : IWord) : Except Reject Instr :=
  match decodeRaw w with
  | .ok i => if i.wf then .ok i else .error .badOperand
  | .error e => .error e

/-! ### Tile command words (R75, R78) -/

/-- The operation that an engine code and an operation code name (R78). -/
def tcwOperation (engine op : Nat) : Option Instr :=
  match engine, op with
  | 0x01, 0x01 => some .cpCopy
  | 0x01, 0x02 => some .cpFill
  | 0x01, 0x03 => some .cpBcast
  | 0x01, 0x04 => some .cpGather
  | 0x01, 0x05 => some .cpScatter
  | 0x01, 0x06 => some .cpCancel
  | 0x01, 0x07 => some .cpNode
  | 0x02, 0x01 => some .lnRoot
  | 0x02, 0x02 => some .lnWr
  | 0x02, 0x03 => some .lnWre
  | 0x02, 0x04 => some .lnLr
  | 0x02, 0x05 => some .lnRes
  | 0x02, 0x06 => some .lnApp
  | 0x02, 0x07 => some .lnTrunc
  | 0x02, 0x08 => some .lnRd
  | 0x03, 0x01 => some .mxZero
  | 0x03, 0x02 => some .mxMma
  | 0x03, 0x03 => some .mxLin
  | 0x03, 0x04 => some .mxSt
  | 0x03, 0x05 => some .mxLd
  | 0x04, 0x01 => some .vxFill
  | 0x04, 0x02 => some .vxIota
  | 0x04, 0x03 => some .vxAdd
  | 0x04, 0x04 => some .vxSub
  | 0x04, 0x05 => some .vxMul
  | 0x04, 0x06 => some .vxFma
  | 0x04, 0x07 => some .vxMin
  | 0x04, 0x08 => some .vxMax
  | 0x04, 0x09 => some .vxAbs
  | 0x04, 0x0a => some .vxNeg
  | 0x04, 0x0b => some .vxRcp
  | 0x04, 0x0c => some .vxRsqrt
  | 0x04, 0x0d => some .vxExp2
  | 0x04, 0x0e => some .vxLog2
  | 0x04, 0x0f => some .vxCvt
  | 0x04, 0x10 => some .vxCmp
  | 0x04, 0x11 => some .vxSel
  | 0x04, 0x12 => some .vxRsum
  | 0x04, 0x13 => some .vxRmax
  | 0x04, 0x14 => some .vxArgmax
  | 0x04, 0x15 => some .vxGather
  | 0x04, 0x16 => some .vxScatter
  | 0x04, 0x17 => some .vxQuant
  | 0x04, 0x18 => some .vxSwz
  | 0x05, 0x01 => some .clAg
  | 0x05, 0x02 => some .clRs
  | 0x05, 0x03 => some .clAr
  | 0x05, 0x04 => some .clBc
  | 0x05, 0x05 => some .clGrp
  | 0x06, 0x01 => some .smRun
  | 0x06, 0x02 => some .smBatch
  | 0x07, 0x01 => some .rnCfg
  | 0x07, 0x02 => some .rnDraw
  | 0x08, 0x01 => some .dxOpen
  | 0x08, 0x02 => some .dxIn
  | 0x08, 0x03 => some .dxApp
  | 0x08, 0x04 => some .dxAck
  | 0x08, 0x05 => some .dxTrunc
  | 0x08, 0x06 => some .dxClose
  | _, _ => none

/-- What an instruction's bytes decode to: the instruction, and the words of a tile command. -/
structure Decoded where
  instr : Instr
  tcw : Option Tcw
  deriving DecidableEq, Repr

/-- A tile command word from its eight words, w0 first. -/
def decodeTcw (w0 w1 w2 w3 w4 w5 w6 w7 : IWord) : Except Reject Decoded :=
  match tcwOperation (fieldAt 20 6 w0).toNat (fieldAt 12 8 w0).toNat with
  | some i => .ok ⟨i, some ⟨fieldAt 8 4 w0, fieldAt 0 8 w0, w1, w2, w3, w4, w5, w6, w7⟩⟩
  | none => .error .tcwCode

/-- Four bytes as a word, the first at the lowest address (R57). -/
def wordOfBytes (b0 b1 b2 b3 : Byte) : IWord := b3 ++ b2 ++ b1 ++ b0

/-- The bytes of a word, lowest address first. -/
def bytesOfWord (w : IWord) : List Byte := [fieldAt 0 8 w, fieldAt 8 8 w, fieldAt 16 8 w, fieldAt 24 8 w]

/-- The words of a list of bytes; bytes short of a whole word are left out. -/
def wordsOfBytes : List Byte → List IWord
  | b0 :: b1 :: b2 :: b3 :: rest => wordOfBytes b0 b1 b2 b3 :: wordsOfBytes rest
  | _ => []

/-- The instruction that a list of words begins with. -/
def decodeWords : List IWord → Except Reject Decoded
  | [] => .error .truncated
  | w0 :: rest =>
    if (fMajor w0).toNat = 0x3e then
      match rest with
      | w1 :: w2 :: w3 :: w4 :: w5 :: w6 :: w7 :: _ => decodeTcw w0 w1 w2 w3 w4 w5 w6 w7
      | _ => .error .truncated
    else
      match decodeWord w0 with
      | .ok i => .ok ⟨i, none⟩
      | .error e => .error e

/-- The instruction that a list of bytes begins with. -/
def decode (bytes : List Byte) : Except Reject Decoded := decodeWords (wordsOfBytes bytes)

/-- The 32 bytes of a number whose bit 0 is the least significant bit of the first word. -/
def tableBytes (w : Nat) : List Byte := (List.range 32).map fun k => BitVec.ofNat 8 (w >>> (8 * k))

/-- What the decoder reads from an instruction whose bits are `w`, numbered as the opcode table numbers them. -/
def decodeTableWord (nbits w : Nat) : Option Instr :=
  match decode (tableBytes (w % 2 ^ nbits)) with
  | .ok d => some d.instr
  | .error _ => none

/-! ### The encoder, by the forms of R58 -/

def encR (major : BitVec 6) (d a b : BitVec 5) (minor : BitVec 7) (la : BitVec 4) : IWord :=
  major ++ d ++ a ++ b ++ minor ++ la
def encSplit (major : BitVec 6) (d a b : BitVec 5) (seg : BitVec 3) (op la : BitVec 4) : IWord :=
  major ++ d ++ a ++ b ++ seg ++ op ++ la
def encI (major : BitVec 6) (d a : BitVec 5) (imm : BitVec 16) : IWord := major ++ d ++ a ++ imm
def encShift (d a : BitVec 5) (kind : BitVec 4) (amount : BitVec 6) : IWord :=
  6#6 ++ d ++ a ++ kind ++ 0#6 ++ amount
def encM (major : BitVec 6) (v a : BitVec 5) (seg : BitVec 3) (disp : BitVec 9) (la : BitVec 4) : IWord :=
  major ++ v ++ a ++ seg ++ disp ++ la
def encMS (major : BitVec 6) (v a : BitVec 5) (seg : BitVec 3) (disp : BitVec 6) (scope : BitVec 3)
    (la : BitVec 4) : IWord :=
  major ++ v ++ a ++ seg ++ disp ++ scope ++ la
def encA (major : BitVec 6) (d a b : BitVec 5) (seg : BitVec 3) (op : BitVec 4) (ord scp : BitVec 2) : IWord :=
  major ++ d ++ a ++ b ++ seg ++ op ++ ord ++ scp
def encB (major : BitVec 6) (a b : BitVec 5) (cond : BitVec 3) (off : BitVec 13) : IWord :=
  major ++ a ++ b ++ cond ++ off
def encFence (op scope : BitVec 3) : IWord := 0x27#6 ++ 0#16 ++ op ++ scope ++ 0#4
def encSys (d a : BitVec 5) (op : BitVec 4) (imm : BitVec 8) : IWord := 0x3c#6 ++ d ++ a ++ op ++ imm ++ 0#4

def Seg.code3 (s : Seg) : BitVec 3 := BitVec.ofNat 3 s.val
def Seg.code5 (s : Seg) : BitVec 5 := BitVec.ofNat 5 s.val
def gprCode (n : Fin 16) : BitVec 5 := BitVec.ofNat 5 n.val

/-- A tile command word of an engine and operation code. -/
def encTcw (engine : BitVec 6) (op : BitVec 8) (t : Tcw) : List IWord :=
  [0x3e#6 ++ engine ++ op ++ t.la ++ t.flags, t.w1, t.w2, t.w3, t.w4, t.w5, t.w6, t.w7]

/-- The words of an instruction, the first at the lowest address; `t` holds the rest of a tile command and no scalar
instruction reads it. An event has no words. -/
def encode (i : Instr) (t : Tcw) : Option (List IWord) :=
  match i with
  | .add d a b => some [encR 0x1#6 d.code a.code b.code 0x0#7 0#4]
  | .sub d a b => some [encR 0x1#6 d.code a.code b.code 0x1#7 0#4]
  | .and d a b => some [encR 0x1#6 d.code a.code b.code 0x2#7 0#4]
  | .or d a b => some [encR 0x1#6 d.code a.code b.code 0x3#7 0#4]
  | .xor d a b => some [encR 0x1#6 d.code a.code b.code 0x4#7 0#4]
  | .andn d a b => some [encR 0x1#6 d.code a.code b.code 0x5#7 0#4]
  | .orn d a b => some [encR 0x1#6 d.code a.code b.code 0x6#7 0#4]
  | .xnor d a b => some [encR 0x1#6 d.code a.code b.code 0x7#7 0#4]
  | .shl d a b => some [encR 0x1#6 d.code a.code b.code 0x8#7 0#4]
  | .shr d a b => some [encR 0x1#6 d.code a.code b.code 0x9#7 0#4]
  | .sar d a b => some [encR 0x1#6 d.code a.code b.code 0xa#7 0#4]
  | .rol d a b => some [encR 0x1#6 d.code a.code b.code 0xb#7 0#4]
  | .ror d a b => some [encR 0x1#6 d.code a.code b.code 0xc#7 0#4]
  | .min d a b => some [encR 0x1#6 d.code a.code b.code 0x10#7 0#4]
  | .max d a b => some [encR 0x1#6 d.code a.code b.code 0x11#7 0#4]
  | .minz d a b => some [encR 0x1#6 d.code a.code b.code 0x12#7 0#4]
  | .maxz d a b => some [encR 0x1#6 d.code a.code b.code 0x13#7 0#4]
  | .slt d a b => some [encR 0x1#6 d.code a.code b.code 0x14#7 0#4]
  | .sltz d a b => some [encR 0x1#6 d.code a.code b.code 0x15#7 0#4]
  | .seq d a b => some [encR 0x1#6 d.code a.code b.code 0x16#7 0#4]
  | .sne d a b => some [encR 0x1#6 d.code a.code b.code 0x17#7 0#4]
  | .addsat d a b => some [encR 0x1#6 d.code a.code b.code 0x18#7 0#4]
  | .subsat d a b => some [encR 0x1#6 d.code a.code b.code 0x19#7 0#4]
  | .clz d a => some [encR 0x1#6 d.code a.code 0#5 0x20#7 0#4]
  | .ctz d a => some [encR 0x1#6 d.code a.code 0#5 0x21#7 0#4]
  | .pop d a => some [encR 0x1#6 d.code a.code 0#5 0x22#7 0#4]
  | .brev d a => some [encR 0x1#6 d.code a.code 0#5 0x23#7 0#4]
  | .bswap d a => some [encR 0x1#6 d.code a.code 0#5 0x24#7 0#4]
  | .sextB d a => some [encR 0x1#6 d.code a.code 0#5 0x25#7 0#4]
  | .sextH d a => some [encR 0x1#6 d.code a.code 0#5 0x26#7 0#4]
  | .sextW d a => some [encR 0x1#6 d.code a.code 0#5 0x27#7 0#4]
  | .zextB d a => some [encR 0x1#6 d.code a.code 0#5 0x28#7 0#4]
  | .zextH d a => some [encR 0x1#6 d.code a.code 0#5 0x29#7 0#4]
  | .zextW d a => some [encR 0x1#6 d.code a.code 0#5 0x2a#7 0#4]
  | .mul d a b k => some [encR 0x1#6 d.code a.code b.code 0x30#7 k]
  | .mulh d a b k => some [encR 0x1#6 d.code a.code b.code 0x31#7 k]
  | .mulhz d a b k => some [encR 0x1#6 d.code a.code b.code 0x32#7 k]
  | .div d a b k => some [encR 0x1#6 d.code a.code b.code 0x33#7 k]
  | .divz d a b k => some [encR 0x1#6 d.code a.code b.code 0x34#7 k]
  | .rem d a b k => some [encR 0x1#6 d.code a.code b.code 0x35#7 k]
  | .remz d a b k => some [encR 0x1#6 d.code a.code b.code 0x36#7 k]
  | .adds1 d a b => some [encR 0x1#6 d.code a.code b.code 0x3c#7 0#4]
  | .adds2 d a b => some [encR 0x1#6 d.code a.code b.code 0x3d#7 0#4]
  | .adds3 d a b => some [encR 0x1#6 d.code a.code b.code 0x3e#7 0#4]
  | .adds4 d a b => some [encR 0x1#6 d.code a.code b.code 0x3f#7 0#4]
  | .addi d a i => some [encI 0x2#6 d.code a.code i]
  | .andi d a i => some [encI 0x3#6 d.code a.code i]
  | .ori d a i => some [encI 0x4#6 d.code a.code i]
  | .xori d a i => some [encI 0x5#6 d.code a.code i]
  | .shli d a i => some [encShift d.code a.code 0#4 i]
  | .shri d a i => some [encShift d.code a.code 1#4 i]
  | .sari d a i => some [encShift d.code a.code 2#4 i]
  | .roli d a i => some [encShift d.code a.code 3#4 i]
  | .slti d a i => some [encI 0x7#6 d.code a.code i]
  | .sltzi d a i => some [encI 0x8#6 d.code a.code i]
  | .movk d h i => some [encI 0x9#6 d.code (BitVec.ofNat 5 h.val) i]
  | .muli d a i => some [encI 0xa#6 d.code a.code i]
  | .adr d i => some [encI 0xb#6 d.code 0#5 i]
  | .brEq a b o => some [encB 0xc#6 a.code b.code 0#3 o]
  | .brNe a b o => some [encB 0xc#6 a.code b.code 1#3 o]
  | .brLt a b o => some [encB 0xc#6 a.code b.code 2#3 o]
  | .brGe a b o => some [encB 0xc#6 a.code b.code 3#3 o]
  | .brLtz a b o => some [encB 0xc#6 a.code b.code 4#3 o]
  | .brGez a b o => some [encB 0xc#6 a.code b.code 5#3 o]
  | .briEq a i o => some [encB 0xd#6 a.code i 0#3 o]
  | .briNe a i o => some [encB 0xd#6 a.code i 1#3 o]
  | .briLt a i o => some [encB 0xd#6 a.code i 2#3 o]
  | .briGe a i o => some [encB 0xd#6 a.code i 3#3 o]
  | .briLtz a i o => some [encB 0xd#6 a.code i 4#3 o]
  | .briGez a i o => some [encB 0xd#6 a.code i 5#3 o]
  | .j o => some [0xe#6 ++ o]
  | .jl o => some [0xf#6 ++ o]
  | .jr a => some [encR 0x10#6 0#5 a.code 0#5 0x0#7 0#4]
  | .jlr d a => some [encR 0x10#6 d.code a.code 0#5 0x1#7 0#4]
  | .loop c l => some [encI 0x11#6 c.code 0#5 l]
  | .loopi n l => some [0x12#6 ++ n ++ l]
  | .fadd d a b => some [encR 0x13#6 d.code a.code b.code 0x0#7 0#4]
  | .fsub d a b => some [encR 0x13#6 d.code a.code b.code 0x1#7 0#4]
  | .fmul d a b => some [encR 0x13#6 d.code a.code b.code 0x2#7 0#4]
  | .fdiv d a b k => some [encR 0x13#6 d.code a.code b.code 0x3#7 k]
  | .fmin d a b => some [encR 0x13#6 d.code a.code b.code 0x4#7 0#4]
  | .fmax d a b => some [encR 0x13#6 d.code a.code b.code 0x5#7 0#4]
  | .fsqrt d a k => some [encR 0x13#6 d.code a.code 0#5 0x6#7 k]
  | .feq d a b => some [encR 0x13#6 d.code a.code b.code 0x7#7 0#4]
  | .flt d a b => some [encR 0x13#6 d.code a.code b.code 0x8#7 0#4]
  | .fle d a b => some [encR 0x13#6 d.code a.code b.code 0x9#7 0#4]
  | .fcvtIf d a => some [encR 0x13#6 d.code a.code 0#5 0xa#7 0#4]
  | .fcvtFi d a => some [encR 0x13#6 d.code a.code 0#5 0xb#7 0#4]
  | .fneg d a => some [encR 0x13#6 d.code a.code 0#5 0xc#7 0#4]
  | .fabs d a => some [encR 0x13#6 d.code a.code 0#5 0xd#7 0#4]
  | .ldB v a s o k => some [encM 0x14#6 v.code a.code (Seg.code3 s) o k]
  | .ldH v a s o k => some [encM 0x15#6 v.code a.code (Seg.code3 s) o k]
  | .ldW v a s o k => some [encM 0x16#6 v.code a.code (Seg.code3 s) o k]
  | .ldD v a s o k => some [encM 0x17#6 v.code a.code (Seg.code3 s) o k]
  | .ldzB v a s o k => some [encM 0x18#6 v.code a.code (Seg.code3 s) o k]
  | .ldzH v a s o k => some [encM 0x19#6 v.code a.code (Seg.code3 s) o k]
  | .ldzW v a s o k => some [encM 0x1a#6 v.code a.code (Seg.code3 s) o k]
  | .stB v a s o => some [encM 0x1b#6 v.code a.code (Seg.code3 s) o 0#4]
  | .stH v a s o => some [encM 0x1c#6 v.code a.code (Seg.code3 s) o 0#4]
  | .stW v a s o => some [encM 0x1d#6 v.code a.code (Seg.code3 s) o 0#4]
  | .stD v a s o => some [encM 0x1e#6 v.code a.code (Seg.code3 s) o 0#4]
  | .ldxB v a b s k => some [encSplit 0x1f#6 v.code a.code b.code (Seg.code3 s) 0x0#4 k]
  | .ldxH v a b s k => some [encSplit 0x1f#6 v.code a.code b.code (Seg.code3 s) 0x1#4 k]
  | .ldxW v a b s k => some [encSplit 0x1f#6 v.code a.code b.code (Seg.code3 s) 0x2#4 k]
  | .ldxD v a b s k => some [encSplit 0x1f#6 v.code a.code b.code (Seg.code3 s) 0x3#4 k]
  | .ldzxB v a b s k => some [encSplit 0x1f#6 v.code a.code b.code (Seg.code3 s) 0x4#4 k]
  | .ldzxH v a b s k => some [encSplit 0x1f#6 v.code a.code b.code (Seg.code3 s) 0x5#4 k]
  | .ldzxW v a b s k => some [encSplit 0x1f#6 v.code a.code b.code (Seg.code3 s) 0x6#4 k]
  | .stxB v a b s => some [encSplit 0x1f#6 v.code a.code b.code (Seg.code3 s) 0x8#4 0#4]
  | .stxH v a b s => some [encSplit 0x1f#6 v.code a.code b.code (Seg.code3 s) 0x9#4 0#4]
  | .stxW v a b s => some [encSplit 0x1f#6 v.code a.code b.code (Seg.code3 s) 0xa#4 0#4]
  | .stxD v a b s => some [encSplit 0x1f#6 v.code a.code b.code (Seg.code3 s) 0xb#4 0#4]
  | .ldf v a s o c k => some [encMS 0x20#6 v.code a.code (Seg.code3 s) o c.code k]
  | .ldfe v a s o c k => some [encMS 0x21#6 v.code a.code (Seg.code3 s) o c.code k]
  | .stef v a s o c => some [encMS 0x22#6 v.code a.code (Seg.code3 s) o c.code 0#4]
  | .stf v a s o c => some [encMS 0x23#6 v.code a.code (Seg.code3 s) o c.code 0#4]
  | .feprobe d a b s k => some [encSplit 0x24#6 d.code a.code b.code (Seg.code3 s) 0x0#4 k]
  | .feset a b s => some [encSplit 0x24#6 0#5 a.code b.code (Seg.code3 s) 0x1#4 0#4]
  | .feclr a b s => some [encSplit 0x24#6 0#5 a.code b.code (Seg.code3 s) 0x2#4 0#4]
  | .fewait a b s => some [encSplit 0x24#6 0#5 a.code b.code (Seg.code3 s) 0x3#4 0#4]
  | .fewaite a b s => some [encSplit 0x24#6 0#5 a.code b.code (Seg.code3 s) 0x4#4 0#4]
  | .rempty n => some [encSplit 0x24#6 (gprCode n) 0#5 0#5 0#3 0x5#4 0#4]
  | .rprobe d n => some [encSplit 0x24#6 d.code (gprCode n) 0#5 0#3 0x6#4 0#4]
  | .amoDSwap d a b s r c => some [encA 0x25#6 d.code a.code b.code (Seg.code3 s) 0x0#4 r.code c.code]
  | .amoDAdd d a b s r c => some [encA 0x25#6 d.code a.code b.code (Seg.code3 s) 0x1#4 r.code c.code]
  | .amoDAnd d a b s r c => some [encA 0x25#6 d.code a.code b.code (Seg.code3 s) 0x2#4 r.code c.code]
  | .amoDOr d a b s r c => some [encA 0x25#6 d.code a.code b.code (Seg.code3 s) 0x3#4 r.code c.code]
  | .amoDXor d a b s r c => some [encA 0x25#6 d.code a.code b.code (Seg.code3 s) 0x4#4 r.code c.code]
  | .amoDMin d a b s r c => some [encA 0x25#6 d.code a.code b.code (Seg.code3 s) 0x5#4 r.code c.code]
  | .amoDMax d a b s r c => some [encA 0x25#6 d.code a.code b.code (Seg.code3 s) 0x6#4 r.code c.code]
  | .amoDMinz d a b s r c => some [encA 0x25#6 d.code a.code b.code (Seg.code3 s) 0x7#4 r.code c.code]
  | .amoDMaxz d a b s r c => some [encA 0x25#6 d.code a.code b.code (Seg.code3 s) 0x8#4 r.code c.code]
  | .amoDCas d a b s r c => some [encA 0x25#6 d.code a.code b.code (Seg.code3 s) 0x9#4 r.code c.code]
  | .amoDInc d a b s r c => some [encA 0x25#6 d.code a.code b.code (Seg.code3 s) 0xb#4 r.code c.code]
  | .amoWSwap d a b s r c => some [encA 0x26#6 d.code a.code b.code (Seg.code3 s) 0x0#4 r.code c.code]
  | .amoWAdd d a b s r c => some [encA 0x26#6 d.code a.code b.code (Seg.code3 s) 0x1#4 r.code c.code]
  | .amoWAnd d a b s r c => some [encA 0x26#6 d.code a.code b.code (Seg.code3 s) 0x2#4 r.code c.code]
  | .amoWOr d a b s r c => some [encA 0x26#6 d.code a.code b.code (Seg.code3 s) 0x3#4 r.code c.code]
  | .amoWXor d a b s r c => some [encA 0x26#6 d.code a.code b.code (Seg.code3 s) 0x4#4 r.code c.code]
  | .amoWMin d a b s r c => some [encA 0x26#6 d.code a.code b.code (Seg.code3 s) 0x5#4 r.code c.code]
  | .amoWMax d a b s r c => some [encA 0x26#6 d.code a.code b.code (Seg.code3 s) 0x6#4 r.code c.code]
  | .amoWMinz d a b s r c => some [encA 0x26#6 d.code a.code b.code (Seg.code3 s) 0x7#4 r.code c.code]
  | .amoWMaxz d a b s r c => some [encA 0x26#6 d.code a.code b.code (Seg.code3 s) 0x8#4 r.code c.code]
  | .amoWCas d a b s r c => some [encA 0x26#6 d.code a.code b.code (Seg.code3 s) 0x9#4 r.code c.code]
  | .amoWFadd d a b s r c => some [encA 0x26#6 d.code a.code b.code (Seg.code3 s) 0xa#4 r.code c.code]
  | .amoWInc d a b s r c => some [encA 0x26#6 d.code a.code b.code (Seg.code3 s) 0xb#4 r.code c.code]
  | .fenceAcq c => some [encFence 0#3 c.code]
  | .fenceRel c => some [encFence 1#3 c.code]
  | .fence c => some [encFence 2#3 c.code]
  | .fenceEngAcq c => some [encFence 4#3 c.code]
  | .fenceEngRel c => some [encFence 5#3 c.code]
  | .fenceEng c => some [encFence 6#3 c.code]
  | .segld d a => some [encR 0x28#6 (Seg.code5 d) a.code 0#5 0x0#7 0#4]
  | .segst d a => some [encR 0x28#6 (Seg.code5 d) a.code 0#5 0x1#7 0#4]
  | .segnar d a b => some [encR 0x28#6 (Seg.code5 d) a.code b.code 0x2#7 0#4]
  | .segrgt d a => some [encR 0x28#6 (Seg.code5 d) a.code 0#5 0x3#7 0#4]
  | .segbase d a => some [encR 0x28#6 d.code (Seg.code5 a) 0#5 0x4#7 0#4]
  | .seglim d a => some [encR 0x28#6 d.code (Seg.code5 a) 0#5 0x5#7 0#4]
  | .segrd d a => some [encR 0x28#6 d.code (Seg.code5 a) 0#5 0x6#7 0#4]
  | .smap d a b s => some [encSplit 0x29#6 d.code a.code b.code (Seg.code3 s) 0x0#4 0#4]
  | .sunmap d b => some [encSplit 0x29#6 d.code 0#5 b.code 0#3 0x1#4 0#4]
  | .sflush d b => some [encSplit 0x29#6 d.code 0#5 b.code 0#3 0x2#4 0#4]
  | .sinv d b => some [encSplit 0x29#6 d.code 0#5 b.code 0#3 0x3#4 0#4]
  | .sprobe d a => some [encSplit 0x29#6 d.code a.code 0#5 0#3 0x4#4 0#4]
  | .msgt a b => some [encR 0x2a#6 0#5 a.code b.code 0x0#7 0#4]
  | .poll d => some [encR 0x2a#6 d.code 0#5 0#5 0x1#7 0#4]
  | .qbind a b => some [encR 0x2a#6 0#5 a.code b.code 0x2#7 0#4]
  | .migrate a => some [encR 0x2a#6 0#5 a.code 0#5 0x3#7 0#4]
  | .rfork d a b => some [encR 0x2c#6 d.code a.code b.code 0x0#7 0#4]
  | .join a => some [encR 0x2c#6 0#5 a.code 0#5 0x1#7 0#4]
  | .spawn d a b => some [encR 0x2c#6 d.code a.code b.code 0x2#7 0#4]
  | .tail a => some [encR 0x2c#6 0#5 a.code 0#5 0x3#7 0#4]
  | .yield => some [encR 0x2c#6 0#5 0#5 0#5 0x4#7 0#4]
  | .park => some [encR 0x2c#6 0#5 0#5 0#5 0x5#7 0#4]
  | .wake a => some [encR 0x2c#6 0#5 a.code 0#5 0x6#7 0#4]
  | .endStrand => some [encR 0x2c#6 0#5 0#5 0#5 0x7#7 0#4]
  | .cancel => some [encR 0x2c#6 0#5 0#5 0#5 0x8#7 0#4]
  | .gdec a => some [encR 0x2c#6 0#5 a.code 0#5 0x9#7 0#4]
  | .qput a b => some [encR 0x2c#6 0#5 a.code b.code 0xa#7 0#4]
  | .qtake d a => some [encR 0x2c#6 d.code a.code 0#5 0xb#7 0#4]
  | .lfork d a k => some [encR 0x2d#6 d.code a.code 0#5 0x0#7 k]
  | .lforkf d a k => some [encR 0x2d#6 d.code a.code 0#5 0x1#7 k]
  | .lflat d a k => some [encR 0x2d#6 d.code a.code 0#5 0x2#7 k]
  | .lrebk d a b k => some [encR 0x2d#6 d.code a.code b.code 0x3#7 k]
  | .lrebd d a b k => some [encR 0x2d#6 d.code a.code b.code 0x4#7 k]
  | .ldel d a k => some [encR 0x2d#6 d.code a.code 0#5 0x5#7 k]
  | .lcmt d a k => some [encR 0x2d#6 d.code a.code 0#5 0x6#7 k]
  | .linfo d a b k => some [encR 0x2d#6 d.code a.code b.code 0x7#7 k]
  | .trap i => some [encSys 0#5 0#5 0#4 i]
  | .eret => some [encSys 0#5 0#5 1#4 0#8]
  | .brk i => some [encSys 0#5 0#5 2#4 i]
  | .cyc d => some [encSys d.code 0#5 3#4 0#8]
  | .rsr d i => some [encSys d.code 0#5 4#4 i]
  | .wsr a i => some [encSys 0#5 a.code 5#4 i]
  | .rcx d a i => some [encSys d.code a.code 6#4 i]
  | .wcx v a i => some [encSys v.code a.code 7#4 i]
  | .halt => some [encSys 0#5 0#5 8#4 0#8]
  | .tlbinv a => some [encSys 0#5 a.code 9#4 0#8]
  | .ctxflush a => some [encSys 0#5 a.code 10#4 0#8]
  | .cpCopy => some (encTcw 1#6 0x1#8 t)
  | .cpFill => some (encTcw 1#6 0x2#8 t)
  | .cpBcast => some (encTcw 1#6 0x3#8 t)
  | .cpGather => some (encTcw 1#6 0x4#8 t)
  | .cpScatter => some (encTcw 1#6 0x5#8 t)
  | .cpCancel => some (encTcw 1#6 0x6#8 t)
  | .cpNode => some (encTcw 1#6 0x7#8 t)
  | .lnRoot => some (encTcw 2#6 0x1#8 t)
  | .lnWr => some (encTcw 2#6 0x2#8 t)
  | .lnWre => some (encTcw 2#6 0x3#8 t)
  | .lnLr => some (encTcw 2#6 0x4#8 t)
  | .lnRes => some (encTcw 2#6 0x5#8 t)
  | .lnApp => some (encTcw 2#6 0x6#8 t)
  | .lnTrunc => some (encTcw 2#6 0x7#8 t)
  | .lnRd => some (encTcw 2#6 0x8#8 t)
  | .mxZero => some (encTcw 3#6 0x1#8 t)
  | .mxMma => some (encTcw 3#6 0x2#8 t)
  | .mxLin => some (encTcw 3#6 0x3#8 t)
  | .mxSt => some (encTcw 3#6 0x4#8 t)
  | .mxLd => some (encTcw 3#6 0x5#8 t)
  | .vxFill => some (encTcw 4#6 0x1#8 t)
  | .vxIota => some (encTcw 4#6 0x2#8 t)
  | .vxAdd => some (encTcw 4#6 0x3#8 t)
  | .vxSub => some (encTcw 4#6 0x4#8 t)
  | .vxMul => some (encTcw 4#6 0x5#8 t)
  | .vxFma => some (encTcw 4#6 0x6#8 t)
  | .vxMin => some (encTcw 4#6 0x7#8 t)
  | .vxMax => some (encTcw 4#6 0x8#8 t)
  | .vxAbs => some (encTcw 4#6 0x9#8 t)
  | .vxNeg => some (encTcw 4#6 0xa#8 t)
  | .vxRcp => some (encTcw 4#6 0xb#8 t)
  | .vxRsqrt => some (encTcw 4#6 0xc#8 t)
  | .vxExp2 => some (encTcw 4#6 0xd#8 t)
  | .vxLog2 => some (encTcw 4#6 0xe#8 t)
  | .vxCvt => some (encTcw 4#6 0xf#8 t)
  | .vxCmp => some (encTcw 4#6 0x10#8 t)
  | .vxSel => some (encTcw 4#6 0x11#8 t)
  | .vxRsum => some (encTcw 4#6 0x12#8 t)
  | .vxRmax => some (encTcw 4#6 0x13#8 t)
  | .vxArgmax => some (encTcw 4#6 0x14#8 t)
  | .vxGather => some (encTcw 4#6 0x15#8 t)
  | .vxScatter => some (encTcw 4#6 0x16#8 t)
  | .vxQuant => some (encTcw 4#6 0x17#8 t)
  | .vxSwz => some (encTcw 4#6 0x18#8 t)
  | .clAg => some (encTcw 5#6 0x1#8 t)
  | .clRs => some (encTcw 5#6 0x2#8 t)
  | .clAr => some (encTcw 5#6 0x3#8 t)
  | .clBc => some (encTcw 5#6 0x4#8 t)
  | .clGrp => some (encTcw 5#6 0x5#8 t)
  | .smRun => some (encTcw 6#6 0x1#8 t)
  | .smBatch => some (encTcw 6#6 0x2#8 t)
  | .rnCfg => some (encTcw 7#6 0x1#8 t)
  | .rnDraw => some (encTcw 7#6 0x2#8 t)
  | .dxOpen => some (encTcw 8#6 0x1#8 t)
  | .dxIn => some (encTcw 8#6 0x2#8 t)
  | .dxApp => some (encTcw 8#6 0x3#8 t)
  | .dxAck => some (encTcw 8#6 0x4#8 t)
  | .dxTrunc => some (encTcw 8#6 0x5#8 t)
  | .dxClose => some (encTcw 8#6 0x6#8 t)
  | .stashRecall => none
  | .inboxPush => none
  | .linkWordArrival => none
  | .pieceSignal => none
  | .collectiveStart => none
  | .lanternPieceSignal => none
  | .tokenWordStore => none
  | .longLatencyComplete => none
  | .engineCompletion => none
  | .trapEntry => none
  | .strandWake => none
  | .activationStart => none
  | .activationComplete => none
  | .contextLineArrival => none
  | .page => none
  | .accessReperform => none
  | .migrationArrival => none
  | .fabricAccessIn => none
  | .deviceLost => none
  | .linkFailure => none
  | .graphNodeDecrement => none
  | .taskDispatch => none
  | .gangPlacement => none
  | .taskRetirement => none
  | .preemption => none
  | .checkpoint => none
  | .launch => none
  | .preempt => none
  | .resume => none
  | .launchCancel => none
  | .doorbell => none
  | .queueSlotVisit => none
  | .supqHeldEvent => none
  | .jobCreate => none
  | .jobEnd => none
  | .l2LineEviction => none
  | .patrolScrub => none
  | .rollback => none
  | .scrubPeriodEnd => none
  | .layerHardRemoval => none
  | .release => none
  | .scrubPeriod => none
  | .throttle => none
  | .thermalThrottle => none
  | .thermalStop => none
  | .deviceReset => none
  | .getVersion => none
  | .getCapabilities => none
  | .negotiateAlgorithms => none
  | .getDigests => none
  | .getCertificate => none
  | .challenge => none
  | .getMeasurements => none
  | .hostCxlAccess => none
  | .storeRefused => none
  | .fusedMinimumRaise => none

end Sys2Proof
end

