-- ==== Sys2Proof/Machine/Segment.lean ====
section
/-! DEFINITION. The segment instructions (R119 to R121). -/

namespace Sys2Proof.Machine

open Sys2Proof

/-- A strand as the party of an access that is no ordinary load or store: no stash window serves it (R175). -/
def Strand.homeParty (x : Strand) : Party := { x.party with strand := false }

/-- A descriptor read from memory, or refused with SEG (R119). -/
def loadDescriptor (pt : Party) (va : Nat) : Act (Option SegDesc) := do
  let b ← loadAt pt va 8
  let l ← loadAt pt (va + 8) 8
  let r ← loadAt pt (va + 16) 8
  if b.poison.isSome || l.poison.isSome || r.poison.isSome then pure none
  else if !canonical b.value || bitsOf r.value 6 10 != 0 || bitsOf r.value 32 32 != 0 then trapWith causeSeg (wordOf va)
  else pure (some ⟨wordOf b.value, wordOf l.value, BitVec.ofNat 32 r.value⟩)

/-- `segld`'s access: the segment takes the descriptor, or a POISON is delivered and it stays. -/
def segldAccess (n : Seg) (va : Nat) : Act Loaded := do
  let x ← me
  needEarlier x.party va 24
  match ← loadDescriptor x.homeParty va with
  | some d =>
    updMe fun y => { y with segs := y.segs.set n d }
    pure ⟨0, none⟩
  | none => pure ⟨0, some va⟩

/-- R119: privileged; the address is used directly and must be 8-aligned. -/
def segldAct (n : Seg) (a : Reg) : Act Unit := do
  needSup
  lookaheadCheck [] false
  let va := (← readReg a).toNat
  needOffset (0x180 + 24 * n.val)
  needOffset (0x180 + 24 * n.val + 23)
  if va % 8 ≠ 0 then trapWith causeAlign (wordOf va)
  else
    needOutside va 24
    match ← accessMem (.segld n va) .zr false (segldAccess n va) with
    | .done r => deliverPoison r.poison
    | .dropped => pure ()
    retireNone

def execSegld (d : Seg) (a : Reg) (s : State) : Outcome := runCore (segldAct d a) s

/-- `segst`'s access: the descriptor written, with zero at +0x14. -/
def segstAccess (va : Nat) (d : SegDesc) : Act Loaded := do
  let x ← me
  needEarlier x.party va 24
  storeAt x.homeParty va 8 d.base
  storeAt x.homeParty (va + 8) 8 d.limit
  storeAt x.homeParty (va + 16) 8 (d.rights.zeroExtend 64)
  pure ⟨0, none⟩

def segstAct (n : Seg) (a : Reg) : Act Unit := do
  needSup
  lookaheadCheck [] false
  let va := (← readReg a).toNat
  let d ← mySeg n
  if va % 8 ≠ 0 then trapWith causeAlign (wordOf va)
  else
    needOutside va 24
    let _ ← accessMem (.segst va d) .zr false (segstAccess va d)
    retireNone

def execSegst (d : Seg) (a : Reg) (s : State) : Outcome := runCore (segstAct d a) s

/-- `segnar` of R120; a base beyond 2^64 - 1 wraps. DESIGN CHOICE (log 73). -/
def segnarAct (n : Seg) (a b : Reg) : Act Unit := do
  lookaheadCheck [] false
  let x ← readReg a
  let l ← readReg b
  let d ← mySeg n
  if d.limit.toNat < x.toNat ∨ d.limit.toNat - x.toNat < l.toNat then trapWith causeSeg x
  else
    updMe fun y => { y with segs := y.segs.set n { d with base := d.base + x, limit := l } }
    retireNone

def execSegnar (d : Seg) (a b : Reg) (s : State) : Outcome := runCore (segnarAct d a b) s

/-- The rights that `segrgt` leaves (R120): SYS stays, and the partition key. -/
def narrowRights (r : BitVec 32) (m : Word) : BitVec 32 :=
  (r &&& 0xFFFFFFC0) ||| (((r &&& 0x3F) &&& (m.truncate 32 &&& 0x3F)) ||| (r &&& 0x20))

/-- Segrgt of R120. -/
def segrgtAct (n : Seg) (a : Reg) : Act Unit := do
  lookaheadCheck [] false
  let m ← readReg a
  let d ← mySeg n
  updMe fun y => { y with segs := y.segs.set n { d with rights := narrowRights d.rights m } }
  retireNone

def execSegrgt (d : Seg) (a : Reg) (s : State) : Outcome := runCore (segrgtAct d a) s

/-- R121: one field of a descriptor to a register. -/
def segReadAct (f : SegDesc → Word) (d : Reg) (n : Seg) : Act Unit := do
  lookaheadCheck [d] false
  let x ← mySeg n
  destReady d
  retire d (f x)

def execSegbase (d : Reg) (a : Seg) (s : State) : Outcome := runCore (segReadAct (fun x => x.base) d a) s
def execSeglim (d : Reg) (a : Seg) (s : State) : Outcome := runCore (segReadAct (fun x => x.limit) d a) s
def execSegrd (d : Reg) (a : Seg) (s : State) : Outcome := runCore (segReadAct (fun x => x.rights.zeroExtend 64) d a) s

end Sys2Proof.Machine
end

