-- ==== Sys2Proof/Machine/Stash.lean ====
section
/-! DEFINITION. The stash instructions (R172 to R180). -/

namespace Sys2Proof.Machine

open Sys2Proof

/-- The checks that the stash instructions share: none for a length of 0; else the offending value's trap, or the range
(R174, R178). -/
def stashRange (so len : Nat) : Act Unit := do
  if so % 256 ≠ 0 ∨ len % 256 ≠ 0 then trapWith causeAlign (wordOf (if so % 256 ≠ 0 then so else len))
  else if 2 ^ 20 < so + len then trapWith causeSeg (wordOf so)
  else pure ()

/-- Write-back and unmapping of an entry, once no copy is landing into it (R177, R178, R195): its bytes are kept, or zero if it
is EMPTY; a SCRATCH entry stays as it is. The result is the first word that the write-back left poisoned. -/
def unmapEntry (pid : Nat) (e : StashEntry) : Act (Option Nat) := do
  needLanded pid e.index
  if e.mapped.isNone then pure none
  else
    let bad ← writeBackEntry pid e
    onCore fun c => c.updStation pid fun s =>
      let s := if e.valid then s else setStashBytes s (e.index * 256) (List.replicate 256 0)
      setStashEntry s { e with mapped := none, valid := false, dirty := 0, writer := 0, span := none, full := 0, poison := if e.valid then e.poison else 0, plines := [] }
    pure bad

/-- One entry mapped onto a block (R174): an entry that it or the block had before is unmapped first. -/
def mapEntry (pid job i block : Nat) : Act Unit := do
  let _ ← unmapEntry pid (stashEntry ((← get).station pid) i)
  match mappedEntry ((← get).station pid) job block with
  | some e => let _ ← unmapEntry pid e
  | none => pure ()
  onCore fun c => c.updStation pid fun s => setStashEntry s ⟨i, some (job, block), false, 0, none, 0, 0, 0, []⟩

/-- `smap`'s write-backs and mappings. -/
def smapAccess (so va len : Nat) : Act Loaded := do
  let pid ← myStation
  let k ← myKey
  (List.range (len / 256)).forM fun i => mapEntry pid k.job (so / 256 + i) (va + 256 * i)
  pure ⟨0, none⟩

/-- Smap of R174. -/
def smapAct (d a b : Reg) (s : Seg) : Act Unit := do
  lookaheadCheck [] false
  let so := (← readReg d).toNat
  let base ← readReg a
  let len := (← readReg b).toNat
  let off ← offsetOf base 0
  if len = 0 then retireNone
  else
    stashRange so len
    let x ← mySeg s
    if !(x.rights.getLsbD rightR && x.rights.getLsbD rightStash) || decide (x.limit.toNat < off + len) then
      trapWith causeSeg (wordOf off)
    else
      let va ← translate s off 256 1
      if 2 ^ 64 ≤ va + len - 1 || !canonical (va + len - 1) then trapWith causeCanon (wordOf (va + len - 1))
      else
        let _ ← accessMem (.smap so va len) .zr false (smapAccess so va len)
        retireNone

def execSmap (d a b : Reg) (s : Seg) (t : State) : Outcome := runCore (smapAct d a b s) t

/-- One entry under `sunmap` (1), `sflush` (2) or `sinv` (3), once no copy is landing into it (R178). -/
def stashEntryOp (op pid i : Nat) : Act (Option Nat) := do
  let e := stashEntry ((← get).station pid) i
  needLanded pid i
  if e.mapped.isNone then pure none
  else if op = 1 then unmapEntry pid e
  else if op = 2 then writeBackEntry pid e
  else
    onCore fun c => c.updStation pid fun s =>
      setStashEntry s { e with valid := false, dirty := 0, writer := 0, full := 0, poison := 0, plines := [] }
    pure none

/-- Every entry of the range; the first word that a write-back left poisoned, if any, takes POISON (R177). What `sflush` and
`sunmap` wrote back is seen through every aperture (R170). -/
def stashOpAccess (op so len : Nat) : Act Loaded := do
  let pid ← myStation
  let bad ← (List.range (len / 256)).mapM fun i => stashEntryOp op pid (so / 256 + i)
  if op != 3 then refreshApertures
  pure ⟨0, (bad.filterMap id).head?⟩

def stashOpAct (op : Nat) (d b : Reg) : Act Unit := do
  lookaheadCheck [] false
  let so := (← readReg d).toNat
  let len := (← readReg b).toNat
  if len = 0 then retireNone
  else
    stashRange so len
    match ← accessMem (.sflush op so len) .zr false (stashOpAccess op so len) with
    | .done r => deliverPoison r.poison
    | .dropped => pure ()
    retireNone

def execSunmap (d b : Reg) (s : State) : Outcome := runCore (stashOpAct 1 d b) s
def execSflush (d b : Reg) (s : State) : Outcome := runCore (stashOpAct 2 d b) s
def execSinv (d b : Reg) (s : State) : Outcome := runCore (stashOpAct 3 d b) s

/-- The state that `sprobe` returns (R172), with LAND. -/
def entryWord (e : StashEntry) (land : Bool) : Word :=
  let va := match e.mapped with | some (_, v) => bitsOf v 8 48 * 256 | none => 0
  let sw := match e.span with | some n => 128 + n.val * 16 | none => 0
  wordOf (va + sw + (if land then 8 else 0) + (if e.dirty != 0 then 4 else 0) + (if e.valid then 2 else 0) + (if e.mapped.isSome then 1 else 0))

/-- R179. -/
def sprobeAct (d a : Reg) : Act Unit := do
  lookaheadCheck [d] false
  let room ← attempt (destReady d)
  let o := (← readReg a).toNat
  let pid ← myStation
  raise room
  if 2 ^ 20 ≤ o then trapWith causeSeg (wordOf o)
  else retire d (entryWord (stashEntry ((← get).station pid) (o / 256)) (landing (← get) pid (o / 256)))

def execSprobe (d a : Reg) (s : State) : Outcome := runCore (sprobeAct d a) s

end Sys2Proof.Machine
end

