-- ==== Sys2Proof/Machine/Message.lean ====
section
/-! DEFINITION. The message instructions (R123 to R127). -/

namespace Sys2Proof.Machine

open Sys2Proof

/-- `msgt` (R123): the outbox target of the strand's own record. -/
def msgtAct (a b : Reg) : Act Unit := do
  lookaheadCheck [] false
  let x ← readReg a
  let lane ← readReg b
  if x.toNat % 1024 ≠ 0 then trapWith causeAlign x
  else
    updMe fun y => { y with outTarget := x ||| (lane &&& 1) }
    retireNone

def execMsgt (a b : Reg) (s : State) : Outcome := runCore (msgtAct a b) s

/-- `poll` (R125): the inbox counts, without parking on an empty lane. -/
def pollAct (d : Reg) : Act Unit := do
  lookaheadCheck [d] false
  let x ← me
  destReady d
  retire d (wordOf (x.inHigh.count + 16 * x.inLow.count))

def execPoll (d : Reg) (s : State) : Outcome := runCore (pollAct d) s

/-- The binding byte that `qbind` writes (R36, R126). -/
def bindByte (a b : Nat) : BitVec 8 :=
  BitVec.ofNat 8 ((if a < 8 then a + 8 else 0) + (if b < 8 then (b + 8) * 16 else 0))

def qbindAct (a b : Reg) : Act Unit := do
  lookaheadCheck [] false
  let x ← readReg a
  let y ← readReg b
  updMe fun z => { z with qbind := bindByte x.toNat y.toNat }
  retireNone

def execQbind (a b : Reg) (s : State) : Outcome := runCore (qbindAct a b) s

/-- `migrate` (R127): towards the station of the same row and column on the named die. It is not reissued, and its loop-back, as the
last instruction of a body, applies at its issue: DESIGN CHOICE (log 109). -/
def migrateAct (a : Reg) : Act Unit := do
  lookaheadCheck [] false
  let v := (← readReg a).toNat
  let x ← me
  let pid ← myStation
  if 3 < v then trapWith causeIll (wordOf v)
  else if v = dieOf pid || x.pinned then retireNone
  else
    retireNone
    let p ← read
    onCore (startMigration p x.key (v * Config.stationsPerDie + pid % Config.stationsPerDie))

def execMigrate (a : Reg) (s : State) : Outcome := runCore (migrateAct a) s

end Sys2Proof.Machine
end

