-- ==== Sys2Proof/Machine/Sys.lean ====
section
/-! DEFINITION. The `sys` instructions and the system registers (R129 to R134, R139, R145 to R149). -/

namespace Sys2Proof.Machine

open Sys2Proof

/-! ### System registers (R129) -/

/-- Whether user mode may read a system register, and whether either mode may write it. -/
def userReads (n : Nat) : Bool := [0x06, 0x07, 0x08, 0x0A, 0x0B, 0x0E, 0x0F, 0x10, 0x11].contains n
def userWrites (n : Nat) : Bool := [0x0E, 0x0F].contains n
def supWrites (n : Nat) : Bool :=
  [0x00, 0x01, 0x02, 0x03, 0x04, 0x05, 0x0C, 0x0D, 0x0E, 0x0F, 0x10, 0x11].contains n

/-- The context line that holds a strand-held register, if it is not among those an activation fetches (R44). -/
def sysLine (n : Nat) : Option Nat := if [0x01, 0x02, 0x03, 0x10, 0x11].contains n then some 9 else none

/-- `k.lid`: the station's logical number in the job's map; a station outside the map has none (R10). DESIGN CHOICE
(log 16). -/
def logicalNumber (job pid : Nat) : Act Word := do
  match ← look fun p c => logicalOf p c job pid with
  | some l => pure (wordOf l)
  | none => freeValue

/-- The value of a system register (R129). -/
def readSys (n : Nat) : Act Word := do
  match sysLine n with
  | some l => needLine l
  | none => pure ()
  let x ← me
  let pid ← myStation
  let job (off : Nat) : Act Word := do
    useDeviceLine (jobRecord (← read) (← get) x.key.job + off)
    look fun p c => wordOf (jobField p c x.key.job off)
  match n with
  | 0x00 => pure (x.mode.zeroExtend 64)
  | 0x01 => pure x.cause
  | 0x02 => pure x.epc
  | 0x03 => pure x.tval
  | 0x04 => job 0x08
  | 0x05 => do pure ((((← get).station pid).pkey).zeroExtend 64)
  | 0x06 => pure (wordOf (x.key.job % 2 ^ 32))
  | 0x07 => job 0x10
  | 0x08 => logicalNumber x.key.job pid
  | 0x09 => pure (wordOf pid)
  | 0x0A => pure (wordOf x.key.ctx)
  | 0x0B => job 0x28
  | 0x0C => job 0x18
  | 0x0D => do pure ((← job 0x20) &&& 0xFFFF)
  | 0x0E => pure (x.fpflags.zeroExtend 64)
  | 0x0F => pure (x.rmode.zeroExtend 64)
  | 0x10 => pure x.opc
  | 0x11 => pure x.lacount
  | _ => illWord

/-- `rsr` (R134, R145). -/
def rsrAct (d : Reg) (i : BitVec 8) : Act Unit := do
  let x ← me
  let w ← myWord
  if !x.sup && !userReads i.toNat then trapWith causePriv (w.zeroExtend 64)
  else
    lookaheadCheck [d] false
    needDrained
    let v ← readSys i.toNat
    destReady d
    retire d v

def execRsr (d : Reg) (i : BitVec 8) (s : State) : Outcome := runCore (rsrAct d i) s

/-- The bits of `k.cause` that are not reserved (R130). -/
def causeMask : Word := 0x1FFFF

/-- A write of a system register (R132 to R134). -/
def writeSys (n : Nat) (v : Word) : Act Unit := do
  match sysLine n with
  | some l => needLine l
  | none => pure ()
  let x ← me
  let pid ← myStation
  let p ← read
  let job (off : Nat) (w : Word) : Act Unit := do
    useDeviceLine (jobRecord p (← get) x.key.job + off)
    onCore fun c => setJobField p c x.key.job off w
  match n with
  | 0x00 => do
    updMe fun y => { y with mode := modeSet (modeSet y.mode modeSup (v.getLsbD 0)) modeIm (v.getLsbD 3) }
    onCore (setPin p x.key (v.getLsbD 1))
  | 0x01 => updMe fun y => { y with cause := v &&& causeMask }
  | 0x02 => updMe fun y => { y with epc := v }
  | 0x03 => updMe fun y => { y with tval := v }
  | 0x04 => if v.toNat % 4 ≠ 0 then illWord else job 0x08 v
  | 0x05 => onCore fun c => c.updStation pid fun s => { s with pkey := v.truncate 16 }
  | 0x0C => job 0x18 v
  | 0x0D => job 0x20 (v &&& 0xFFFF)
  | 0x0E => updMe fun y => { y with fpflags := v.truncate 5 }
  | 0x0F => if 4 < v.toNat then trapWith causeIll v else updMe fun y => { y with rmode := v.truncate 3 }
  | 0x10 => updMe fun y => { y with opc := v }
  | 0x11 => updMe fun y => { y with lacount := v }
  | _ => illWord

/-- `wsr`: PRIV for a user write of what user mode may not write, ILL for a read-only register in supervisor mode
(R73). -/
def wsrAct (a : Reg) (i : BitVec 8) : Act Unit := do
  let x ← me
  let w ← myWord
  if !x.sup && !userWrites i.toNat then trapWith causePriv (w.zeroExtend 64)
  else if x.sup && !supWrites i.toNat then illWord
  else
    lookaheadCheck [] false
    needDrained
    let v ← readReg a
    writeSys i.toNat v
    retireNone

def execWsr (a : Reg) (i : BitVec 8) (s : State) : Outcome := runCore (wsrAct a i) s

/-! ### `trap`, `brk`, `eret`, `cyc`, `halt` -/

/-- TrapEntry(TRAP or BRK, imm8, 0, pc + 4) of R145. As the last instruction of a body it saves the loop's end, and no loop-back is
applied: DESIGN CHOICE (log 120). -/
def trapAct (cause : Nat) (i : BitVec 8) : Act Unit := do
  lookaheadCheck [] false
  stop (.trap cause i.toNat 0 true)

def execTrap (i : BitVec 8) (s : State) : Outcome := runCore (trapAct causeTrap i) s
def execBrk (i : BitVec 8) (s : State) : Outcome := runCore (trapAct causeBrk i) s

/-- The strand after Eret's two effects: the mode word from the saved mode but for PIN, which obeys R46, and pc at `k.epc`
(R139). -/
def Strand.restoredMode (x : Strand) : Strand := { x with mode := modeSet x.savedMode modePin x.pinned }
def Strand.returned (x : Strand) : Strand := { x.restoredMode with pc := x.epc }

/-- R139: a trap of eret's Transfer is raised in the restored mode, with that mode saved. -/
def eretAct : Act Unit := do
  needSup
  lookaheadCheck [] false
  needDrained
  needLine 9
  let x ← me
  let p ← read
  let pin := x.savedMode.getLsbD 1
  if 2 ^ 64 - 4 < x.epc.toNat then
    updMe Strand.restoredMode
    onCore (setPin p x.key pin)
    onCore (raiseTrap p x.key causeSeg 0 x.pc x.pc)
  else if x.epc.toNat % 4 ≠ 0 then
    updMe Strand.restoredMode
    onCore (setPin p x.key pin)
    onCore (raiseTrap p x.key causeAlign 0 x.epc x.pc)
  else
    updMe fun y => y.issued.returned
    onCore (setPin p x.key pin)

def execEret (s : State) : Outcome := runCore eretAct s

/-- The station's cycle counter at issue (R20). -/
def cycAct (d : Reg) : Act Unit := do
  lookaheadCheck [d] false
  let pid ← myStation
  retire d ((← get).station pid).cycle

def execCyc (d : Reg) (s : State) : Outcome := runCore (cycAct d) s

/-- R147: parked with pc at the next instruction, and a HALT record. -/
def haltAct : Act Unit := do
  needSup
  lookaheadCheck [] false
  needDrained
  retireNone
  let x ← me
  let pid ← myStation
  let p ← read
  onCore fun c => supSend p ⟨dieOf pid, 8, pid, x.key.job, x.key.ctx, 0, [x.pc]⟩ (parkStrand p x.key .halt c)

def execHalt (s : State) : Outcome := runCore haltAct s

/-! ### `rcx` and `wcx` (R146) -/

/-- `rcx`'s access: the resident copy or memory. -/
def rcxAccess (va idx : Nat) : Act Loaded := do
  let x ← me
  needEarlier x.party (va + 8 * idx) 8
  loadAt x.homeParty (va + 8 * idx) 8

def rcxAct (d a : Reg) (i : BitVec 8) : Act Unit := do
  needSup
  lookaheadCheck [d] false
  let room ← attempt (destReady d)
  let va := (← readReg a).toNat
  raise room
  if va % 1024 ≠ 0 then trapWith causeAlign (wordOf va)
  else
    needOutside va 1024
    match ← accessMem (.rcx va i.toNat) d false (rcxAccess va i.toNat) with
    | .done r =>
      deliverPoison r.poison
      retire d (if r.poison.isNone then wordOf r.value else 0)
    | .dropped => retireNone

def execRcx (d a : Reg) (i : BitVec 8) (s : State) : Outcome := runCore (rcxAct d a i) s

/-- The word indices that `wcx` writes (R36, R146). -/
def wcxIndex (i : Nat) : Bool := decide (i ≤ 20) || i == 30 || i == 31 || (decide (48 ≤ i) && decide (i ≤ 77))

/-- The bits of a segment's rights that are not reserved: the rights and the partition key (R119). -/
def rightsMask : BitVec 32 := 0xFFFF003F

def segWithWord (d : SegDesc) (k : Nat) (v : Word) : SegDesc :=
  if k = 0 then { d with base := v } else if k = 1 then { d with limit := v } else { d with rights := v.truncate 32 &&& rightsMask }

/-- A live record's word written by `wcx`, but for its mask, mode and PIN (R146). -/
def Strand.setWord (x : Strand) (idx : Nat) (v : Word) : Strand :=
  let x := { x with badLines := x.badLines.filter fun l => l != idx / 8 }
  if h : idx < 16 then x.setValue ⟨idx, h⟩ v
  else if idx = 17 then { x with pc := v }
  else if idx = 18 then { x with loopStart := v }
  else if idx = 19 then { x with loopEnd := v }
  else if idx = 20 then { x with loopCount := v }
  else if idx = 30 then { x with outTarget := v &&& 0xFFFFFFFFFFFFFC01 }
  else if idx = 31 then { x with qbind := v.truncate 8 }
  else if 48 ≤ idx ∧ idx < 72 then
    { x with segs := x.segs.set! ((idx - 48) / 3) (segWithWord (x.segs.getD ((idx - 48) / 3) SegDesc.zero) ((idx - 48) % 3) v) }
  else if idx = 72 then { x with epc := v }
  else if idx = 73 then { x with cause := v &&& causeMask }
  else if idx = 74 then { x with tval := v }
  else if idx = 75 then { x with savedMode := v.truncate 16 &&& 0xF }
  else if idx = 76 then { x with opc := v }
  else if idx = 77 then { x with lacount := v }
  else x

/-- Index 16 (R146): the mask and the mode word; a bit that changes from empty to full is a remote fill at package scope
(R168) and wakes the strand; PIN obeys R46. -/
def writeMaskMode (p : Platform) (k : Key) (st cx : Nat) (v : Word) (c : Core) : Core :=
  match c.strand? k with
  | none => c
  | some x =>
    let mask := v.truncate 16
    let mode := (v >>> 16).truncate 16 &&& 0xD
    let filled : List (Fin 16) := allRegs.filter fun (n : Fin 16) => mask.getLsbD n && !x.full n.val
    let notes := filled.foldl (fun ns n => ns.set! n.val (Note.fill .package st cx)) x.notes
    let x' := { x with mask := mask, mode := modeSet mode modePin x.pinned, notes := notes
                       badLines := x.badLines.filter fun l => l != 2 }
    let c := setPin p k (v.getLsbD 17) (c.setStrand x')
    wakeChanged k x.mask mask c

/-- `wcx`'s access: the resident copy, or memory for a record that is not live. -/
def wcxAccess (va idx : Nat) (v : Word) : Act Loaded := do
  let x ← me
  needEarlier x.party (va + 8 * idx) 8
  let p ← read
  match recordAt (← get) x.key.job va with
  | some y =>
    -- A record that is not resident lies in memory, behind its page.
    let _ ← locate x.key.job (va + 8 * idx) 2 8
    needRecord y.key (8 * idx) (va + 8 * idx)
    if idx = 16 then onCore (writeMaskMode p y.key x.station x.key.ctx v)
    else onCore fun c => c.updStrand y.key fun z => z.setWord idx v
  | none => storeAt x.homeParty (va + 8 * idx) 8 v
  pure ⟨0, none⟩

/-- R146; a write to the writer's own record takes effect before its next instruction. A word index that `wcx` does not
write is judged with the instruction's decoding (R74 step 1). A write of the mask may fill registers, a release (R168). The
value is read before the address: DESIGN CHOICE (log 101). As the last instruction of a body it loops back by the loop words that
stood before its own write of them: DESIGN CHOICE (log 110). -/
def wcxAct (v a : Reg) (i : BitVec 8) : Act Unit := do
  if !wcxIndex i.toNat then trapWith causeIll (i.zeroExtend 64)
  else
    needSup
    lookaheadCheck [] false
    if i.toNat = 16 then needReturned (← me).party
    let w ← readReg v
    let va := (← readReg a).toNat
    if va % 1024 ≠ 0 then trapWith causeAlign (wordOf va)
    else
      needOutside va 1024
      let x ← me
      retireNone
      match ← attempt (wcxAccess va i.toNat w) with
      | .ok _ => pure ()
      | .error (.page _ pva kind size) =>
        let p ← read
        onCore (walked p x.key.job pva)
        updMe fun y => { y with dropped := some ⟨.wcx va i.toNat w, .zr, false, pva, kind, size, x.pc, false, false, x.issues, false, x.window, false⟩ }
      | .error (.refuse rva) =>
        let p ← read
        onCore (reachedHome p x.party (.wcx va i.toNat w))
        updMe fun y => { y with refusals := y.refusals ++ [⟨x.pc, wordOf rva, 1, x.issues, true⟩] }
      | .error e => stop e

def execWcx (v a : Reg) (i : BitVec 8) (s : State) : Outcome := runCore (wcxAct v a i) s

/-! ### `tlbinv` (R148) -/

/-- Every die's cached translation of one page of a job, its region's entry included, or of all of the job. -/
def tlbDrop (p : Platform) (job : Nat) (va : Option Nat) (c : Core) : Core :=
  let base := jobField p c job 0x170
  { c with tlb := c.tlb.filter fun e =>
      !(e.job == job &&
        (match va with
         | none => true
         | some a => decide (base ≤ a) &&
             (if e.directory then e.index == (a - base) / 2 ^ 25 else e.index == (a - base) / 65536))) }

def tlbinvAct (a : Reg) : Act Unit := do
  needSup
  lookaheadCheck [] false
  let v ← readReg a
  let k ← myKey
  let p ← read
  onCore (tlbDrop p k.job (if a = .zr then none else some v.toNat))
  retireNone

def execTlbinv (a : Reg) (s : State) : Outcome := runCore (tlbinvAct a) s

/-! ### `ctxflush` (R149) -/

/-- Whether a strand is stopped for the sake of its task: a pre-emption, a checkpoint or a rollback. -/
def taskStops (c : Core) (x : Strand) : Bool :=
  (c.tasks.any fun t => t.job == x.key.job && t.record == x.task.toNat && (t.phase == .preempting || t.phase == .checkpointing)) ||
    c.rollbacks.any fun q => q.job == x.key.job && q.record == x.task.toNat

/-- A context becomes STORED: its slot and entry are freed, and the lines that its entry held written back; what it waits for stays
(R45), and so does a stop for the sake of its task (R215). -/
def storeContext (p : Platform) (k : Key) (c : Core) : Core :=
  match c.strand? k with
  | none => c
  | some x =>
    let c := freeSlot x c
    let c := c.setStrand { x with
      place := .stored, stopping := x.stopping && taskStops c x, blocked := false, lines := [] }
    fillSlots p x.station (writeRecord p k x.lines c)

/-- A write-back of a context's record that met a page that is not present: a CTXPF event, and the context stays resident and
unevictable (R45). -/
def holdWriteBack (p : Platform) (x : Strand) (stopping : Bool) (c : Core) : Core :=
  supSend p ⟨dieOf x.station, 2, x.station, x.key.job, x.key.ctx, wordOf x.key.ctx, [2]⟩
    (c.setStrand { x with blocked := true, stopping := stopping })

/-- A context stored as by an eviction: a record page that is not present keeps it resident, with a CTXPF event
(R45). -/
def evictContext (k : Key) : Act Bool := do
  let p ← read
  match (← get).strand? k with
  | none => pure true
  | some x =>
    if ← pagePresent k.job k.ctx then
      onCore (storeContext p k)
      pure true
    else
      onCore (holdWriteBack p x true)
      pure false

/-- A SLOTTED unpinned strand leaves its slot and issues nothing more; it is stored once its accesses are performed. What it waits
for, if it parked in its slot while it was pinned, stays (R45, R149). -/
def stopStrand (p : Platform) (k : Key) (c : Core) : Core :=
  let c := leaveTo p k .parked ((c.strand? k).bind Strand.parked) c
  c.updStrand k fun x => { x with stopping := true }

/-- A flush of a pinned context: its record is written back where it lies, and it stays resident, in a slot or without one (R46,
R149). The result tells whether the write-back is still to come. DEDUCED (log 30). -/
def flushPinned (x : Strand) (stopping : Bool) : Act Bool := do
  let p ← read
  if ← pagePresent x.key.job x.key.ctx then
    onCore fun c => writeRecord p x.key x.lines (c.setStrand { x with stopping := stopping })
    pure false
  else
    onCore (holdWriteBack p x stopping)
    pure true

/-- What `ctxflush` does by the target's state (R149); the result tells whether the write-back is still to come. -/
def flushTarget (k : Key) : Act Bool := do
  let p ← read
  match (← get).strand? k with
  | none => pure false
  | some x =>
    match x.place with
    | .stored | .held | .ended => pure false
    | .parked | .waiting => do
      if x.pinned then flushPinned x x.stopping
      else if x.ops.isEmpty && x.dropped.isNone then pure !(← evictContext k)
      else
        onCore fun c => c.updStrand k fun y => { y with stopping := true, place := .parked }
        pure true
    | .slotted _ => do
      if x.pinned then flushPinned x x.stopping
      else
        onCore (stopStrand p k)
        if x.ops.isEmpty && x.dropped.isNone then pure !(← evictContext k) else pure true
    | .activating | .moving _ => do
      onCore fun c => c.updStrand k fun y => { y with stopping := true }
      pure true

def ctxflushAct (a : Reg) : Act Unit := do
  needSup
  lookaheadCheck [] false
  let va := (← readReg a).toNat
  let x ← me
  if va % 1024 ≠ 0 then trapWith causeAlign (wordOf va)
  else if va = x.key.ctx then trapWith causeIll (wordOf va)
  else
    let later ← flushTarget ⟨x.key.job, va⟩
    retireNone
    if later then updMe fun y => { y with hold := .flush va } else pure ()

def execCtxflush (a : Reg) (s : State) : Outcome := runCore (ctxflushAct a) s

end Sys2Proof.Machine
end

