-- ==== Sys2Proof/Machine/Engine.lean ====
section
/-! DEFINITION. What the engines share: choosing the next command (R18, R183), operands (R76, R81, R183), reading and
writing memory and the stash (R181, R182, R193, R312, R361, R381), reserving draws (R275), and the end of a command (R77). -/

namespace Sys2Proof.Machine

open Sys2Proof

/-! ### Statuses (R77) -/

def stOk : Nat := 0
def stStale : Nat := 1
def stCancelled : Nat := 2
def stFault : Nat := 3
def stCap : Nat := 4
def stFull : Nat := 5
def stKind : Nat := 6
def stLost : Nat := 7

/-- How a command ends: its status and result, and the trap that its acquire takes. -/
structure Finish where
  status : Nat
  result : Nat
  trap : Option (Nat × Word)
  deriving DecidableEq, Repr

/-- OK with a result. -/
def finOk (r : Nat) : Finish := ⟨stOk, r, none⟩

/-- A command ends with a status, a result and the trap that its acquire takes, and nothing that it wrote so far remains. -/
def endTrap {α : Type} (status result : Nat) (trap : Option (Nat × Word)) : Act α := do
  stop (.status status result trap (← get).tlb)

def endWith {α : Type} (status result : Nat) : Act α := endTrap status result none

/-- A failed check: FAULT, result 0. -/
def faultCmd {α : Type} : Act α := endWith stFault 0

def check (b : Bool) : Act Unit := if b then pure () else faultCmd

/-! ### Descriptors (R76) -/

def descWord (t : Tcw) (i : Nat) : Nat :=
  (if i = 0 then t.w3 else if i = 1 then t.w4 else if i = 2 then t.w5 else if i = 3 then t.w6 else t.w7).toNat

def descKind (t : Tcw) (i : Nat) : Nat := bitsOf (descWord t i) 28 4
def descImm (t : Tcw) (i : Nat) : Nat := bitsOf (descWord t i) 0 28
/-- The register that a descriptor of kind 1, 4, 5 or 6 names. -/
def descReg (t : Tcw) (i : Nat) : Nat := if descKind t i = 4 then bitsOf (descWord t i) 23 5 else bitsOf (descWord t i) 0 5
def compMode (t : Tcw) : Nat := (fieldAt 24 8 t.w2).toNat
def compTag (t : Tcw) : Nat := (fieldAt 16 8 t.w2).toNat
def compReg (t : Tcw) : Nat := (fieldAt 11 5 t.w2).toNat
def tcwTarget (t : Tcw) : Nat := (fieldAt 16 16 t.w1).toNat
def tcwCap (t : Tcw) : BitVec 16 := fieldAt 0 16 t.w1

def Cmd.kind (d : Cmd) (i : Nat) : Nat := descKind d.tcw i
def Cmd.val (d : Cmd) (i : Nat) : Nat := (d.vals[i]!).toNat

/-- Whether w7 is an operand of the operation: modes 2 and 3 take it for the completion (R77). -/
def Cmd.ownsW7 (d : Cmd) : Bool := compMode d.tcw != 2 && compMode d.tcw != 3

/-- The offset of an operand of kind 1 or 4, without wrapping (R83, R104). -/
def Cmd.offset (d : Cmd) (i : Nat) : Act Nat :=
  if d.kind i = 4 then
    let o : Int := (d.val i : Int) + signedOf (descImm d.tcw i) 23
    if o < 0 ∨ 2 ^ 64 - 1 < o then faultCmd else pure o.toNat
  else pure (d.val i)

/-- A number of kind 1 or 2. -/
def Cmd.number (d : Cmd) (i : Nat) : Nat := if d.kind i = 2 then descImm d.tcw i else d.val i

/-- The checks of Translate for the whole extent of an engine's operand (R183); 1 R, 2 W. -/
def translateRange (s : SegDesc) (off len kind : Nat) (sup : Bool) : Option Nat :=
  if !granted s kind sup || decide (2 ^ 64 - 1 < off + len) || decide (s.limit.toNat < off + len) then none
  else
    let va := s.base.toNat + off
    if 2 ^ 64 - 1 < va || !canonical va || (mgmtMeets va len && !s.rights.getLsbD rightSys) then none
    else if len ≠ 0 ∧ (2 ^ 64 - 1 < va + len - 1 ∨ canonical (va + len - 1) = false) then none
    else some va

/-- The virtual address of an extent in a segment of the command. -/
def Cmd.reach (d : Cmd) (seg off len kind : Nat) : Act Nat :=
  match translateRange (d.segs.getD seg SegDesc.zero) off len kind d.sup with
  | some va => pure va
  | none => faultCmd

/-- The segment that flags [2:0] name. -/
def Cmd.seg (d : Cmd) : Nat := d.tcw.flags.toNat % 8
def Cmd.flag (d : Cmd) (n : Nat) : Bool := d.tcw.flags.getLsbD n

/-! ### Bytes with poison -/

/-- A byte and whether the word it comes from is poisoned. -/
abbrev EByte := Byte × Bool

def eNat (l : List EByte) : Nat := leNat (l.map (·.1))
def eBad (l : List EByte) : Bool := l.any (·.2)
def eBytes (n x : Nat) : List EByte := (leBytes n x).map fun b => (b, false)

/-- The chunks of `[a, a + n)` that lie in one line of `size` bytes: start and length. -/
def chunksOf (a n size : Nat) : List (Nat × Nat) :=
  if n = 0 then []
  else
    (List.range ((a % size + n + size - 1) / size)).map fun k =>
      let lo := max a ((a / size + k) * size)
      (lo, min (a + n) ((a / size + k + 1) * size) - lo)

/-- The bytes of a part of one line (R312: an aperture page is the local cell). -/
def readChunk (pt : Party) (va n : Nat) : Act (List EByte) := do
  recallBlock pt.job va
  let cell (pa : Nat) : Act (List EByte) := look fun p c =>
    (List.range n).map fun k => (c.mem.byte (pa + k), c.mem.isPoison (pa + k) || layerGone p pa)
  match ← locate pt.job va 1 n with
  | .cell pa pin =>
    pinCheck pt va pin
    cell pa
  | .aperture _ pa => cell pa
  | .mgmt die off => look fun p c =>
      (List.range n).map fun k => (BitVec.ofNat 8 ((mgmtWord p c die (off + k)).toNat >>> (8 * ((off + k) % 8))), false)
  | .record k off => look fun p c =>
      match c.strand? k with
      | some x => (List.range n).map fun i =>
          (BitVec.ofNat 8 ((x.word ((off + i) / 8)).toNat >>> (8 * ((off + i) % 8))), recordBad p c x (off + i))
      | none => []

/-- An engine's read of memory, in the order of its lines. -/
def readGlobal (pt : Party) (va n : Nat) : Act (List EByte) := do
  let parts ← (chunksOf va n 64).mapM fun x => readChunk pt x.1 x.2
  pure (parts.foldr (· ++ ·) [])

/-- The poison of a line after an engine's write of some of its bytes: a poisoned byte poisons its word, and only a
write of the whole line ends poison (R361). -/
def poisonAfter (m : Mem) (pa : Nat) (bytes : List EByte) : Mem :=
  let m := if bytes.length = 64 then m.setLinePoison pa false else m
  (List.range bytes.length).foldl
    (fun m k => if (bytes.getD k (0, false)).2 then m.setPoison (pa + k) true else m) m

/-- An engine's write of a part of one line, out of both L1 lines that it may lie in; a layer that is gone takes none, and what the writer then does is its own
(R370). A part of a live context record is written by whole words, and reported otherwise (R381). -/
def writeChunk (pt : Party) (raw : Bool) (gone : Act Unit) (va : Nat) (bytes : List EByte) : Act Unit := do
  recallBlock pt.job va
  let cell (pa : Nat) : Act Unit := do
    let p ← read
    if layerGone p pa then gone
    else onCore fun c =>
      let c := dropL1 pt.job (va + bytes.length - 1) none (beforeWrite p pt va pa none c)
      { c with mem := poisonAfter (c.mem.setBytes pa (bytes.map (·.1))) pa bytes }
  match ← locate pt.job va 2 bytes.length with
  | .cell pa pin =>
    pinCheck pt va pin
    cell pa
  | .aperture _ pa => cell pa
  | .mgmt die off =>
    if raw then pure ()
    else (chunksOf off bytes.length 8).forM fun x =>
      onCore (sendMgmt die x.1 x.2 (wordOf (eNat ((bytes.drop (x.1 - off)).take x.2))))
  | .record k off =>
    (chunksOf off bytes.length 8).forM fun x =>
      storeRecord pt k x.1 (va + (x.1 - off)) x.2 (wordOf (eNat ((bytes.drop (x.1 - off)).take x.2)))

/-- A write of the device's own structures, of which a layer that is gone takes nothing, and a management block nothing either: no
segment is behind it (R363). -/
def writeGlobal (pt : Party) (va : Nat) (bytes : List EByte) : Act Unit :=
  (chunksOf va bytes.length 64).forM fun x => writeChunk pt true (pure ()) x.1 ((bytes.drop (x.1 - va)).take x.2)

/-- A command's write of its result: it ends FAULT where a layer is gone, as an access that completes poisoned (R370). -/
def writeResult (pt : Party) (va : Nat) (bytes : List EByte) : Act Unit :=
  (chunksOf va bytes.length 64).forM fun x => writeChunk pt false faultCmd x.1 ((bytes.drop (x.1 - va)).take x.2)

/-- A little-endian number in memory. -/
def readNum (pt : Party) (va n : Nat) : Act Nat := do pure (eNat (← readGlobal pt va n))
def writeNum (pt : Party) (va n x : Nat) : Act Unit := writeGlobal pt va (eBytes n x)

/-! ### The stash (R172 to R182) -/

def stashSize : Nat := 2 ^ 20

/-- The physical offset of a logical byte under a span code (R181). -/
def swizzle (c o : Nat) : Nat :=
  let s := 16 * 2 ^ c
  let k := o / s
  k * s + 16 * ((o % s / 16) ^^^ (k % (s / 16))) + o % 16

/-- The layout that an entry records: the span code, identity for none or code 0 (R182). -/
def entrySpan (e : StashEntry) : Nat := match e.span with | some n => n.val | none => 0

/-- An EMPTY entry is filled before its bytes are used. -/
def fillForEngine (pid i : Nat) : Act Unit := do
  let e := stashEntry ((← get).station pid) i
  if e.mapped.isSome && !e.valid then
    let _ ← fillEntry pid e fun k => (match e.mapped with | some (_, va) => va + 64 * k | none => 0, 1, 64)
  else pure ()

/-- The entries of a range. -/
def entriesOf (o n : Nat) : List Nat := if n = 0 then [] else (List.range ((o + n - 1) / 256 + 1 - o / 256)).map (· + o / 256)

def stashByte (s : Station) (phys : Nat) : EByte :=
  (cellsGet s.stash phys, (stashEntry s (phys / 256)).poison.getLsbD (phys % 256 / 8))

/-- Stash bytes read in the layout that their entries record. -/
def readStash (pid o n : Nat) : Act (List EByte) := do
  (entriesOf o n).forM (fillForEngine pid)
  let s := (← get).station pid
  pure ((List.range n).map fun k =>
    stashByte s (swizzle (entrySpan (stashEntry s ((o + k) / 256))) (o + k)))

/-- One physical byte of the stash written, with the dirty bit of a mapped entry; `bad` poisons its word. -/
def putStashByte (s : Station) (phys : Nat) (b : EByte) : Station :=
  let e := stashEntry s (phys / 256)
  let bit : BitVec 32 := (1 : BitVec 32) <<< (phys % 256 / 8)
  let e := { e with
    dirty := if e.mapped.isSome then e.dirty ||| ((1 : BitVec 256) <<< (phys % 256)) else e.dirty
    poison := if b.2 then e.poison ||| bit else e.poison }
  setStashEntry (setStashBytes s phys [b.1]) e

/-- The lines that an engine's write covers whole lose their poison (R361): each of a line's four 16-byte units is among the
bytes written, whose layout is its own inverse. -/
def clearStashPoison (s : Station) (code o n : Nat) : Station :=
  let covered (phys : Nat) : Bool := (List.range 4).all fun u =>
    let a := swizzle code (phys + 16 * u)
    decide (o ≤ a) && decide (a + 16 ≤ o + n)
  let kept (e : StashEntry) : BitVec 32 := (List.range 4).foldl
    (fun m l => if covered (256 * e.index + 64 * l) then m &&& ~~~((0xFF : BitVec 32) <<< (8 * l)) else m) e.poison
  { s with entries := s.entries.map fun e => if e.poison = 0 then e else { e with poison := kept e } }

/-- An engine's write of stash bytes in a layout, which the entries record; a mapped entry keeps the identity layout and
takes the write through the station's window (R182, R185). Under span codes 5 to 7 a byte may lie in another entry than its
logical one: the logical entries record the layout and are tested for MAPPED. DESIGN CHOICE (log 74). -/
def writeStash (task pid o : Nat) (span : Option (Fin 8)) (bytes : List EByte) : Act Unit := do
  let n := bytes.length
  (entriesOf o n).forM (fillForEngine pid)
  (entriesOf o n).forM fun i => claimEntry pid i task
  let code := match span with | some c => c.val | none => 0
  onCore fun c => c.updStation pid fun s =>
    let s := clearStashPoison s code o n
    let s := (List.range n).foldl (fun s k => putStashByte s (swizzle code (o + k)) (bytes.getD k (0, false))) s
    (entriesOf o n).foldl
      (fun s i =>
        let e := stashEntry s i
        setStashEntry s { e with span := if e.mapped.isSome then none else span }) s

/-! ### Operands in memory or the stash -/

/-- A place that an engine reads or writes. -/
inductive Where where
  | mem (va : Nat)
  | stash (pid o : Nat)
  deriving DecidableEq, Repr

def Where.isStash : Where → Bool
  | .stash _ _ => true
  | .mem _ => false

/-- An operand of kind 1, 3 or 4 with its whole extent checked (R183). -/
def Cmd.place (d : Cmd) (seg i len kind : Nat) : Act Where := do
  if d.kind i = 3 then
    let o := bitsOf (descWord d.tcw i) 0 20
    check (decide (o + len ≤ stashSize))
    pure (.stash d.station o)
  else
    let off ← d.offset i
    pure (.mem (← d.reach seg off len kind))

def Where.add : Where → Nat → Where
  | .mem va, n => .mem (va + n)
  | .stash pid o, n => .stash pid (o + n)

def readAt (pt : Party) (w : Where) (n : Nat) : Act (List EByte) :=
  match w with
  | .mem va => readGlobal pt va n
  | .stash pid o => readStash pid o n

def writeAt (pt : Party) (w : Where) (bytes : List EByte) : Act Unit :=
  match w with
  | .mem va => writeResult pt va bytes
  | .stash pid o => writeStash pt.task pid o none bytes

/-! ### Shape records (R81) -/

structure Shape where
  rank : Nat
  format : Nat
  swizzleCode : Nat
  flags : Nat
  dims : List Nat
  strides : List Nat
  base : Nat
  scale : Nat
  deriving DecidableEq, Repr

def Shape.stash (x : Shape) : Bool := x.flags.testBit 0
def Shape.lineage (x : Shape) : Bool := x.flags.testBit 1
def Shape.dim (x : Shape) (i : Nat) : Nat := x.dims.getD i 1
def Shape.stride (x : Shape) (i : Nat) : Nat := x.strides.getD i 0

/-- The layout that a record names (R182): 0 for identity. -/
def Shape.span (x : Shape) : Nat := if x.flags.testBit 2 then x.swizzleCode % 8 else 0

/-- The 64 bytes of a record taken apart; none if the record breaks R81. -/
def shapeOf (b : List Byte) : Option Shape :=
  let f (o n : Nat) : Nat := leNat ((b.drop o).take n)
  let x : Shape := ⟨f 0 1, f 1 1, f 2 1, f 3 1, [f 0x08 4, f 0x0C 4, f 0x10 4, f 0x14 4],
    [f 0x18 8, f 0x20 8, f 0x28 8], f 0x30 8, f 0x38 8⟩
  if x.rank < 1 || 4 < x.rank || f 4 4 != 0 || 8 ≤ x.swizzleCode || 8 ≤ x.flags || x.flags % 4 == 3
    || x.dims.any (· == 0) || (x.dims.drop x.rank).any (· != 1) then none
  else some x

/-- A shape record at a virtual address, 64-aligned; none if it is poisoned or breaks R81. -/
def shapeAt (pt : Party) (va : Nat) : Act (Option Shape) := do
  if va % 64 ≠ 0 then pure none
  else
    let b ← readGlobal pt va 64
    pure (if eBad b then none else shapeOf (b.map (·.1)))

def readShapeAt (pt : Party) (va : Nat) : Act Shape := do
  match ← shapeAt pt va with
  | some x => pure x
  | none => faultCmd

/-- Whether one of the captured segments holds all bytes of an extent with a right, for each right of a kind (R253); one that
reaches a management block has SYS (R363). -/
def Cmd.covered (d : Cmd) (va len kind : Nat) : Bool :=
  len == 0 || (if kind = 3 then [1, 2] else [kind]).all fun k => d.segs.toList.any fun s =>
    granted s k d.sup && decide (s.base.toNat ≤ va) && decide (va + len ≤ s.base.toNat + s.limit.toNat) &&
      (!mgmtMeets va len || s.rights.getLsbD rightSys)

/-- An extent at a virtual address, checked against the captured segments. -/
def Cmd.needCover (d : Cmd) (va len kind : Nat) : Act Unit := check (d.covered va len kind)

/-- The record at an address that a command names; one that it has read and keeps is not read again (R306). -/
def Cmd.keptShape (d : Cmd) (va : Nat) : Act Shape :=
  match d.kept.find? fun x => x.1 == va with
  | some (_, b) =>
    match shapeOf b with
    | some x => pure x
    | none => faultCmd
  | none => readShapeAt d.party va

/-- The record at the virtual address that a descriptor of kind 5 names, checked as R253 states. -/
def Cmd.shape (d : Cmd) (i : Nat) : Act Shape := do
  d.needCover (d.val i) 64 1
  d.keptShape (d.val i)

/-! ### Draws (R274, R275) -/

/-- The `n` draws of a command on the stream of the executing station (R274, R275): those that it has reserved, which it does
first. -/
def reserveDraws (d : Cmd) (n : Nat) : Act (Nat → Nat) :=
  if n = 0 then pure (fun _ => 0)
  else
    match d.draws with
    | some (seed, lid, q) => pure (fun k => streamDraw seed lid q k)
    | none => stop (.reserve n)

/-- Whether a command may round under RSR: its conversion's rounding mode, or the mode captured at its push. -/
def mayDraw (d : Cmd) : Bool :=
  let mode (x : Nat) : Bool := x == 4 || (x == 7 && d.rmode.toNat == 4)
  if d.op = .cpCopy then (descImm d.tcw 3).testBit 20 && mode (bitsOf (descImm d.tcw 3) 12 3)
  else if d.op = .cpNode then true
  else if d.op = .mxSt || d.op = .vxCvt then mode (bitsOf (descImm d.tcw 2) 12 3)
  else if d.op = .vxQuant then bitsOf (descImm d.tcw 3) 19 3 == 4
  else false

/-- A command that rounds under RSR does not start until every such command pushed to its station before it has reserved
(R275). -/
def drawGate (d : Cmd) : Act Unit := do
  let s := (← get).station d.station
  let copying := s.copies.filterMap fun r => if r.plan.isNone then some r.cmd else none
  let waiting := copying ++ s.commands[1]! ++ s.commands[3]! ++ s.commands[4]!
  if mayDraw d && waiting.any (fun e => decide (e.seq < d.seq) && mayDraw e && e.draws.isNone) then stop (.hold .none)
  else pure ()

/-! ### The end of a command -/

/-- The command out of the queue and the engine that hold it; a push that waited for the entry is woken (R18). -/
def dropCmd (engine : Nat) (d : Cmd) (c : Core) : Core :=
  wakeAll (.command d.station engine) (c.updStation d.station fun s =>
    { s with commands := s.commands.set! engine ((s.commands[engine]!).filter fun x => x.seq != d.seq)
             copies := s.copies.filter fun x => x.cmd.seq != d.seq })

/-- A command that waits for nothing: neither for a page nor in the order of arrival at a pinned line. -/
def Cmd.going (d : Cmd) : Cmd := { d with page := none, retry := none }

/-- A command that has ended: its completion is on its way (R77). -/
def finishCmd (engine : Nat) (d : Cmd) (f : Finish) (c : Core) : Core :=
  let c := dropCmd engine d c
  { c with completions := c.completions ++ [⟨d.going, f.status, f.result % 2 ^ 48, f.trap⟩] }

/-- How much of a started copy is done, in what its result counts. -/
def CopyRun.done (x : CopyRun) : Nat := match x.plan with | some q => q.done | none => 0

/-- Commands taken out of every queue and engine without an end. -/
def withoutCmds (sel : Cmd → Bool) (c : Core) : Core :=
  let keep (s : Station) : Station :=
    { s with commands := s.commands.map fun q => q.filter fun x => !sel x
             copies := s.copies.filter fun x => !sel x.cmd }
  { c with stations := c.stations.map fun e => (e.1, keep e.2)
           collectives := c.collectives.filter fun x => !sel x.cmd
           sampling := c.sampling.filter fun x => !sel x.cmd }

/-- Queue entries that are free wake the pushes that waited for them (R50). -/
def wakeQueues (c : Core) : Core :=
  c.stations.foldl (fun c e => (List.range 9).foldl
    (fun c k => if ((e.2.commands[k]!).length < Config.commandDepth) then wakeAll (.command e.1 k) c else c) c) c

/-- Every queued or started command that meets a condition ends CANCELLED; the result of a copy is what it has done (R190,
R193), in the unit of the operation's own result: DESIGN CHOICE (log 94). -/
def cancelCommands (sel : Cmd → Bool) (c : Core) : Core :=
  let queued (s : Station) : List (Cmd × Nat) :=
    (List.range 9).foldr (fun e acc => ((s.commands[e]!).filter sel).map (fun d => (d, 0)) ++ acc) []
  let copying (s : Station) : List (Cmd × Nat) := (s.copies.filter fun x => sel x.cmd).map fun x => (x.cmd, x.done)
  let done : List (Cmd × Nat) := c.stations.foldr (fun e acc => queued e.2 ++ copying e.2 ++ acc) []
    ++ ((c.collectives.map (·.cmd)).filter sel ++ (c.sampling.map (·.cmd)).filter sel).map fun d => (d, 0)
  let c := withoutCmds sel c
  wakeQueues { c with completions := c.completions ++ done.map fun x => ⟨x.1.going, stCancelled, x.2 % 2 ^ 48, none⟩ }

/-- The PAGE record of a command: it names the strand that issued it (R193), and goes to that strand's station.
DEDUCED (log 37). -/
def pageEvent (d : Cmd) (page : Nat × Nat × Nat) (c : Core) : SupEvent :=
  let st := match c.strand? ⟨d.job, d.ctx⟩ with | some x => x.station | none => d.issuer
  ⟨dieOf st, 1, st, d.job, d.ctx, wordOf page.1, [wordOf page.2.1, wordOf page.2.2, d.addr]⟩

/-- A change to every command in a queue, an engine or a group. -/
def mapActive (f : Cmd → Cmd) (c : Core) : Core :=
  let station (s : Station) : Station :=
    { s with commands := s.commands.map fun q => q.map f, copies := s.copies.map fun x => { x with cmd := f x.cmd } }
  let group (x : Collective) : Collective := { x with cmd := f x.cmd }
  let run (x : Sampling) : Sampling := { x with cmd := f x.cmd }
  { c with stations := c.stations.map fun e => (e.1, station e.2)
           collectives := c.collectives.map group
           sampling := c.sampling.map run }

/-- A change to every command that has a sequence number: the active ones, and those with a signal or a completion still to be
stored. -/
def mapCmds (f : Cmd → Cmd) (c : Core) : Core :=
  let signal (x : Signal) : Signal := { x with cmd := f x.cmd }
  let ended (x : Completion) : Completion := { x with cmd := f x.cmd }
  let c := mapActive f c
  { c with signals := c.signals.map signal, completions := c.completions.map ended }

/-- A change to the active command with a sequence number. -/
def updCmd (d : Cmd) (f : Cmd → Cmd) (c : Core) : Core := mapActive (fun x => if x.seq = d.seq then f x else x) c

/-- A change to the command of one signal, which waits for itself. -/
def updSignal (i : Nat) (f : Cmd → Cmd) (c : Core) : Core :=
  { c with signals := c.signals.modify i fun x => { x with cmd := f x.cmd } }

/-- A change to the command of one completion, which waits for itself. -/
def updCompletion (i : Nat) (f : Cmd → Cmd) (c : Core) : Core :=
  { c with completions := c.completions.modify i fun x => { x with cmd := f x.cmd } }

/-- A command's work, which `upd` changes, meets a page that is not present: it waits, and a PAGE record is sent (R193). -/
def notePage (p : Platform) (d : Cmd) (upd : (Cmd → Cmd) → Core → Core) (page : Nat × Nat × Nat) (c : Core) : Core :=
  supSend p (pageEvent d page c) (upd (fun x => { x with page := some page, retry := none }) (walked p d.job page.1 c))

/-- A command at a pinned line, whose home answered with RETRY: a place that it has there stays (R166). -/
def Cmd.retryAt (line n : Nat) (d : Cmd) : Cmd :=
  match d.retry with
  | some (l, m) => { d with retry := some (line, if l = line then m else n) }
  | none => { d with retry := some (line, n) }

/-- A command's work, which `upd` changes, was refused with RETRY by a pinned line's home: it waits, and keeps its place in the
order of arrival (R166). The home has been reached (R223, R379). -/
def noteRetry (p : Platform) (d : Cmd) (upd : (Cmd → Cmd) → Core → Core) (line : Nat) (c : Core) : Core :=
  (upd (Cmd.retryAt line c.seq) (reachedLine p d.job (64 * line) c)).tick

/-- The shape records of a command as they stand, by address; one that it cannot read, or that is poisoned, is not kept. -/
def recordsOf (p : Platform) (d : Cmd) (c : Core) : List (Nat × List Byte) :=
  (List.range 5).filterMap fun i =>
    if d.kind i = 5 && d.val i % 64 == 0 then
      match readGlobal d.party (d.val i) 64 p c with
      | .ok (b, _) => if eBad b then none else some (d.val i, b.map (·.1))
      | .error _ => none
    else none

/-- The shape records that a started command keeps: it reads each once, at its start (R306). -/
def Cmd.keeping (p : Platform) (c : Core) (d : Cmd) : Cmd :=
  { d with kept := d.kept ++ (recordsOf p d c).filter fun x => d.kept.all fun y => y.1 != x.1 }

/-- A started command meets a page that is not present. -/
def markPage (p : Platform) (d : Cmd) (page : Nat × Nat × Nat) (c : Core) : Core :=
  notePage p d (fun f => updCmd d fun x => f (x.keeping p c)) page c

/-- A started command was refused with RETRY. -/
def markRetry (p : Platform) (d : Cmd) (line : Nat) (c : Core) : Core :=
  noteRetry p d (fun f => updCmd d fun x => f (x.keeping p c)) line c

/-- The commands that wait in a queue or have started and not ended. -/
def Core.activeCmds (c : Core) : List Cmd :=
  (c.stations.map fun e => e.2.commands.toList.foldr (· ++ ·) [] ++ e.2.copies.map (·.cmd)).foldr (· ++ ·) [] ++
    c.collectives.map (·.cmd) ++ c.sampling.map (·.cmd)

/-- Whether a command of a job that waits on a pinned line, or a signal or a completion of one, came before a place in the order
of arrival (R166). -/
def retryBefore (c : Core) (job line n : Nat) : Bool :=
  (c.activeCmds ++ c.signals.map (·.cmd) ++ c.completions.map (·.cmd)).any fun e =>
    e.job == job && (match e.retry with | some (l, m) => l == line && decide (m < n) | none => false)

/-- Whether a command has to wait: for a page (R193), or for accesses that came to its pinned line before it (R166). -/
def Cmd.waits (c : Core) (d : Cmd) : Bool :=
  d.page.isSome ||
  (match d.retry with
   | some (line, n) => retryBefore c d.job line n ||
       (waitersOf c (.pinLine line)).any fun x => x.key.job == d.job && decide (x.since < n)
   | none => false)

/-- The commands of a context that wait for a page go on (R193). -/
def resumeCmds (k : Key) (c : Core) : Core :=
  mapCmds (fun x => if x.job = k.job ∧ x.ctx = k.ctx then { x with page := none } else x) c

/-- The reservation of `n` draws for a command (R275): the block of the executing station's stream is consumed, whatever
becomes of the command (R276), and the issuing strand's rounding position takes its first output index. DESIGN CHOICE
(log 16). -/
def takeDraws (p : Platform) (d : Cmd) (n : Nat) (c : Core) : (Nat × Nat × Nat) × Core :=
  let (lid, c) := match logicalOf p c d.job d.station with
    | some l => (l, c)
    | none => ((Config.freeWord c.freeNo).toNat % 640, { c with freeNo := c.freeNo + 1 })
  let seed := jobField p c d.job 0x10
  let q := jobField p c d.job (0x800 + 8 * lid)
  let c := setJobField p c d.job (0x800 + 8 * lid) (wordOf (q + ceilDiv n 4))
  ((seed, lid, q), c.updStrand ⟨d.job, d.ctx⟩ fun x => { x with roundPos := wordOf q })

/-- The draws of a command reserved, with the shape records that it has read. -/
def reserveFor (p : Platform) (d : Cmd) (n : Nat) (c : Core) : Core :=
  let r := takeDraws p d n c
  updCmd d (fun x => { (x.keeping p c).going with draws := some r.1 }) r.2

/-! ### A word stored full -/

/-- A word stored full by an engine, as a release at a scope with a recorded station, which a pin of the line does not ask
(R166); an aperture page is the local cell (R312). A word of a live record beyond its registers is discarded and reported
(R381). A refused store is lost (R361), and so is one to a management block, which no address without a segment with SYS reaches
(R363): DEDUCED (log 89). -/
def storeFull (pt : Party) (recorded va : Nat) (w : Word) (scope : Scope) : Act Unit := do
  let by' : Party := { pt with station := recorded }
  let stored ← attempt do
    recallBlock pt.job va
    match ← locate pt.job va 2 8 with
    | .cell pa pin =>
      pinCheck pt va pin
      let _ ← feCell by' .stf pa va (.of pin) w scope
    | .aperture _ pa =>
      let _ ← feCell by' .stf pa va .aperture w scope
    | .record k off => do
      if 128 ≤ off then sendEvent (ctxwrEvent va k.job pt.ctx w)
      else
        let _ ← feRecord by' .stf k off va w scope
    | .mgmt _ _ => pure ()
  match stored with
  | .ok _ => pure ()
  | .error (.refuse _) | .error (.trap _ _ _ _) => do
    let p ← read
    onCore (reachedLine p pt.job va)
  | .error e => stop e

/-! ### Taking the next command (R18, R183) -/

/-- A station's command queue of an engine. -/
def Core.queue (c : Core) (pid engine : Nat) : List Cmd := (c.station pid).commands[engine]!

/-- The stations of a die from a position on, once round. -/
def roundFrom (die start : Nat) : List Nat :=
  (List.range 160).map fun k => die * 160 + (start + k) % 160

/-- The stations of the package from a position on, once round. -/
def packageFrom (start : Nat) : List Nat := (List.range 640).map fun k => (start + k) % 640

/-- The die whose Wick serves a stream command: the home of its object (R342), or the station's own for an operand that is no
address. -/
def wickDie (d : Cmd) : Nat :=
  let o : Int := if d.kind 0 = 4 then (d.val 0 : Int) + signedOf (descImm d.tcw 0) 23 else d.val 0
  if o < 0 ∨ 2 ^ 64 - 1 < o then dieOf d.station else homeDie o.toNat

/-- The record of an Ember slot; none at or above the entry count (R331). -/
def emberSlot (p : Platform) (c : Core) (job slot : Nat) : Option Nat :=
  if slot < jobField p c job 0x68 % 2 ^ 32 then some (jobField p c job 0x60 + 128 * slot) else none

/-- The die whose Ember serves a random command: the home of its slot's record (R331), or the station's own for a slot that does
not exist. -/
def emberDie (p : Platform) (c : Core) (d : Cmd) : Nat :=
  match emberSlot p c d.job (d.number 0) with
  | some r => homeDie r
  | none => dieOf d.station

/-- Whether the commands of an engine travel to the die that serves their object: those of Ember and of Wick. -/
def engineTravels (engine : Nat) : Bool := engine == 7 || engine == 8

/-- The die whose engine runs a command of a station. -/
def Cmd.servingDie (p : Platform) (c : Core) (engine : Nat) (d : Cmd) : Nat :=
  if engine = 7 then emberDie p c d else if engine = 8 then wickDie d else dieOf d.station

/-- Whether Lantern still has a station's earlier command: the next of its queue waits (R18). -/
def Core.collecting (c : Core) (pid : Nat) : Bool := c.collectives.any fun x => x.cmd.station == pid

/-- The command at the head of a station's queue, if a die's engine may run it now. -/
def headFor (p : Platform) (c : Core) (die engine pid : Nat) : Option Cmd :=
  match c.queue pid engine with
  | d :: _ =>
    if !d.waits c && d.servingDie p c engine == die && (engine != 5 || !c.collecting pid) then some d else none
  | [] => none

/-- The next command of a die's engine: one that has made its node BUSY goes on (R254); else that of the first station after
the last visited one with a command that does not wait for a page. Ember and Wick serve the stations of the whole package (R331, R342). -/
def dieNext (p : Platform) (c : Core) (die engine : Nat) : Option Cmd :=
  let round := if engineTravels engine then packageFrom (assocGet c.turns (8 * die + engine) 0)
    else roundFrom die (assocGet c.turns (8 * die + engine) 0)
  let heads := round.filterMap (headFor p c die engine)
  match heads.find? fun d => d.begun.isSome with
  | some d => some d
  | none => heads.head?

/-- The next command of a station's matrix or vector engine. -/
def stationNext (c : Core) (pid engine : Nat) : Option Cmd :=
  match c.queue pid engine with
  | d :: _ => if d.waits c then none else some d
  | [] => none

/-- The visit of a die engine moves on to the next station. -/
def passTurn (die engine : Nat) (d : Cmd) (c : Core) : Core :=
  { c with turns := assocSet c.turns (8 * die + engine) (if engineTravels engine then d.station + 1 else d.station % 160 + 1) }

/-- A command has passed its checks: its node is BUSY, with the state to restore (R228, R254), and it keeps what it has read of its
sources. -/
def beginNode (d : Cmd) (node va state : Nat) (sources : List (Nat × List Byte)) : Act Unit := do
  writeNum d.party (va + 0x2A) 1 state
  writeNum d.party (va + 0x22) 1 4
  let p ← read
  onCore fun c => updCmd d (fun x => { (x.keeping p c).going with begun := some node, sources := sources }) c

/-- The node of a command that ends before its effect is complete leaves BUSY in its saved state (R228, R254). -/
def restoreBegun (d : Cmd) : Act Unit := do
  match d.begun with
  | none => pure ()
  | some i =>
    let va := (← look fun p c => jobField p c d.job 0x40) + 64 * i
    if (← readNum d.party (va + 0x22) 1) = 4 then
      writeNum d.party (va + 0x22) 1 (← readNum d.party (va + 0x2A) 1)
      writeNum d.party (va + 0x2A) 1 0
    else pure ()

/-- A command that has begun and ends without its effect. -/
def endBegun (engine : Nat) (d : Cmd) (f : Finish) (s : State) : Outcome :=
  match restoreBegun d s.plat s.core with
  | .ok (_, c) => .next { s with core := finishCmd engine d f c }
  | .error (.page _ va kind size) => .next { s with core := markPage s.plat d (va, kind, size) s.core }
  | .error _ => .next s

/-- What stays of an engine's access that stopped at a home: the address that the stop names has been reached. -/
def engineReached (p : Platform) (d : Cmd) (e : Stop) (c : Core) : Core :=
  match e with
  | .refuse va => reachedLine p d.job va c
  | .trap cause _ tval _ => if cause = causeScope then reachedLine p d.job tval.toNat c else c
  | _ => c

/-- An execution of a command that stops: it ends, waits for a page, reserves draws first, or has to be tried again later;
`fault` is the result of one that a failed check ends. -/
def stoppedCmd (engine : Nat) (d : Cmd) (fault : Nat) (e : Stop) (s : State) : Outcome :=
  match e with
  | .status code result trap tlb =>
    endBegun engine d ⟨code, if result = 0 then fault else result, trap⟩ { s with core := { s.core with tlb := tlb } }
  | .page _ va kind size => .next { s with core := markPage s.plat d (va, kind, size) s.core }
  | .reserve n => .next { s with core := reserveFor s.plat d n s.core }
  | .begin node va state sources tlb =>
    match beginNode d node va state sources s.plat { s.core with tlb := tlb } with
    | .ok (_, c) => .next { s with core := c }
    | .error _ => .next s
  | .rollback job record line ctx =>
    endBegun engine d ⟨stCancelled, 0, none⟩ { s with core := requestRollback job record line ctx s.core }
  | .fault f => .fault f
  | .refuse _ | .trap _ _ _ _ | .acquired _ _ _ =>
    endBegun engine d ⟨stFault, fault, none⟩ { s with core := engineReached s.plat d e s.core }
  | .park (.pinLine line) => .next { s with core := markRetry s.plat d line s.core }
  | .park _ | .hold _ | .migrate _ _ | .reached _ _ _ => .next s

/-- One execution of a command. -/
def runCmd (engine : Nat) (d : Cmd) (body : Act Finish) (s : State) : Outcome :=
  match body s.plat s.core with
  | .ok (f, c) => .next { s with core := finishCmd engine d f c }
  | .error e => stoppedCmd engine d 0 e s

/-- A turn of a die's engine for an operation: nothing happens unless the next command is of that operation. -/
def runDie (engine : Nat) (op : Instr) (body : Cmd → Act Finish) (die : Nat) (s : State) : Outcome :=
  match dieNext s.plat s.core die engine with
  | none => .next s
  | some d => if d.op = op then runCmd engine d (body d) { s with core := passTurn die engine d s.core } else .next s

/-- A turn of a station's matrix or vector engine. DESIGN CHOICE (log 6). -/
def runStation (engine : Nat) (op : Instr) (body : Cmd → Act Finish) (pid : Nat) (s : State) : Outcome :=
  match stationNext s.core pid engine with
  | none => .next s
  | some d => if d.op = op then runCmd engine d (body d) s else .next s

/-! ### The order of completions (R16, R171, R283) -/

/-- The group that a command names. -/
def groupOf (d : Cmd) : Nat := if d.op = .clGrp then descImm d.tcw 0 % 256 else descImm d.tcw 3 % 256

/-- A group's home die, whose Lantern serves it (R310). -/
def groupHome (p : Platform) (c : Core) (job g : Nat) : Nat := c.mem.read (groupAddr p c job g + 8) 8 % 4

/-- The engine code of a command (R78). -/
def Cmd.engine (d : Cmd) : Nat :=
  match encode d.op d.tcw with
  | some (w :: _) => (fieldAt 20 6 w).toNat
  | some [] | none => 0

/-- The instance of an engine that executes a command: a station's, or a die's (R18): of Lantern the one on the group's home die
(R310), of Ember and Wick the one at the object's home (R331, R342). -/
def Cmd.unitNo (p : Platform) (c : Core) (d : Cmd) : Nat :=
  if d.engine = 1 ∨ d.engine = 3 ∨ d.engine = 4 then d.station
  else if d.engine = 5 then 1000 + groupHome p c d.job (groupOf d)
  else 1000 + d.servingDie p c d.engine

/-- The virtual address that w7 names in completion modes 2 and 3, used directly whatever the engine, as R34's program
does; none where it is not aligned to 8 or lies outside 64 bits. DEDUCED (log 42). -/
def Cmd.w7Addr (d : Cmd) : Option Nat :=
  let o : Int := (d.val 4 : Int) + (if d.kind 4 = 4 then signedOf (descImm d.tcw 4) 23 else 0)
  if o < 0 ∨ 2 ^ 64 - 1 < o ∨ o % 8 ≠ 0 then none else some o.toNat

/-- Where a completion goes: an inbox lane, an address of the job, or a register. -/
def Cmd.dest (d : Cmd) : Option (Nat × Nat × Nat) :=
  match compMode d.tcw with
  | 1 => some (1, d.ctx, 0)
  | 2 | 3 => d.w7Addr.map fun va => (2, va, 0)
  | 4 => some (4, d.ctx, compReg d.tcw)
  | _ => none

/-- Two completions of one engine instance that keep its order: those with one destination (R171), and all of a matrix engine
(R283). -/
def inOrder (p : Platform) (c : Core) (d e : Cmd) : Bool :=
  d.engine == e.engine && d.unitNo p c == e.unitNo p c && (d.engine == 3 || (d.job == e.job && d.dest.isSome && d.dest == e.dest))

end Sys2Proof.Machine
end

