-- ==== Sys2Proof/Machine/Push.lean ====
section
/-! DEFINITION. Pushing a tile command word: the checks at issue (R79), the capture of registers and segments (R19), the
command queue (R18), and containment at the receiving station (R79). -/

namespace Sys2Proof.Machine

open Sys2Proof

/-- Which segments a push captures: the one that flags [2:0] name (R183), all of them (R253), or none. -/
inductive SegUse where
  | none | one | all
  deriving DecidableEq, Repr

/-- What an operation accepts (R79): its engine code, its defined flag bits, the kinds of w3 to w7, and the segments
that it captures. Kind 16 × m + k stands for kind k with the bits of mask `m` zero (`zeroMask`). -/
structure CmdForm where
  engine : Nat
  flags : Nat
  kinds : List (List Nat)
  segs : SegUse
  deriving DecidableEq, Repr

/-- The bits of an immediate that an operation's entry has be zero: those of `ctl` that `cl.ag` (1), `cl.rs` and `cl.ar` (2)
or `cl.bc` (3) does not use, [27:26] among them (R317, R319); all but SAT and RM of the `cvt` of `mx.st` (4, R290); [27:16] of
the `cvt` of `vx.cvt` (5, R299). They are must-be-zero fields of R79. DEDUCED (log 90). -/
def zeroMask (m : Nat) : Nat :=
  match m with
  | 1 => 0xFFFFF00
  | 2 => 0xFFFF000
  | 3 => 0xC000F00
  | 4 => 0xFFF0FFF
  | 5 => 0xFFF0000
  | _ => 0

/-- The fields of a descriptor of a kind: must-be-zero bits zero, and a register 0 to 15. -/
def descFields (w : Nat) : Bool :=
  match bitsOf w 28 4 with
  | 0 => bitsOf w 0 28 == 0
  | 1 | 5 | 6 => bitsOf w 5 23 == 0 && decide (bitsOf w 0 5 < 16)
  | 2 => true
  | 3 => bitsOf w 20 8 == 0
  | 4 => decide (bitsOf w 23 5 < 16)
  | _ => false

/-- Whether descriptor `i` is one that the operation accepts there; modes 2 and 3 take w7 for the completion. -/
def descOk (f : CmdForm) (t : Tcw) (i : Nat) : Bool :=
  descFields (descWord t i) &&
  (if i = 4 ∧ (compMode t = 2 ∨ compMode t = 3) then descKind t i == 1 || descKind t i == 4
   else (f.kinds.getD i [0]).any fun k => k % 16 == descKind t i && descImm t i &&& zeroMask (k / 16) == 0)

/-- Whether w2 keeps R75 and R77. -/
def compOk (t : Tcw) : Bool :=
  decide (compMode t ≤ 4) && (fieldAt 0 11 t.w2 == 0) &&
  (if compMode t = 4 then decide (compReg t < 16) else compReg t == 0)

/-- The index of the first offending word of a command (R79); w0's engine and operation are decoding's. -/
def tcwOffence (f : CmdForm) (t : Tcw) (target : Bool) : Option Nat :=
  if t.flags.toNat &&& (255 - f.flags) != 0 then some 0
  else if !target then some 1
  else if !compOk t then some 2
  else (List.range 5).findSome? fun i => if descOk f t i then none else some (i + 3)

/-- The station that w1 names: 0xFFFF the own one, else a logical station of the job. -/
def targetStation (p : Platform) (c : Core) (job own : Nat) (t : Tcw) : Option Nat :=
  if tcwTarget t = 0xFFFF then some own else stationOf p c job (tcwTarget t)

/-- The value of the register that a descriptor names (R19). -/
def captureReg (t : Tcw) (i : Nat) : Act Word :=
  let k := descKind t i
  if k = 1 || k = 4 || k = 5 || k = 6 then
    if h : descReg t i < 16 then readG ⟨descReg t i, h⟩ else pure 0
  else pure 0

/-- The context lines that the captured segments need (R44). -/
def captureLines (f : CmdForm) (t : Tcw) : Act Unit :=
  match f.segs with
  | .none => pure ()
  | .one => do
    let _ ← mySeg ⟨t.flags.toNat % 8, Nat.mod_lt _ (by decide)⟩
  | .all => do
    needLine 6
    needLine 7
    needLine 8

/-- The eight words of a command as four 64-bit words, w0 lowest. -/
def tcwWords (op : Instr) (t : Tcw) : List Word :=
  match encode op t with
  | some [w0, w1, w2, w3, w4, w5, w6, w7] => [w1 ++ w0, w3 ++ w2, w5 ++ w4, w7 ++ w6]
  | _ => []

/-- The register that a mode-4 command empties at its push (R77). -/
def statusReg (t : Tcw) : Option (Fin 16) :=
  if h : compMode t = 4 ∧ compReg t < 16 then some ⟨compReg t, h.2⟩ else none

/-- The end of a push: a command more outstanding, a mode-4 register empty, and pc past the eight words. -/
def Strand.pushed (x : Strand) (t : Tcw) : Strand :=
  let y := x.issuedLong t.la.toNat none (.value 0 0)
  let y := { y with engines := y.engines + 1 }
  let y := match statusReg t with
    | some n => y.setBit n false
    | none => y
  y.advance 32

/-- A command put into a station's queue of an engine. -/
def enqueueCmd (engine : Nat) (d : Cmd) (c : Core) : Core :=
  c.updStation d.station fun s => { s with commands := s.commands.set! engine (s.commands[engine]! ++ [d]) }

/-- Push of R82 for an operation of an engine: a release towards the command, so that the strand's stores to multicast pages have
returned before it (R162, R167). A command whose capability the receiving station does not accept is diverted
at the push and needs no place in the queue: DESIGN CHOICE (log 75). -/
def pushAct (f : CmdForm) (op : Instr) : Act Unit := do
  let t ← myTcw
  let x ← me
  let pid ← myStation
  lookaheadCheck (match statusReg t with | some n => [.g n] | none => []) true
  let target ← look fun p c => targetStation p c x.key.job pid t
  match tcwOffence f t target.isSome, target with
  | some i, _ => trapWith causeTcw (wordOf i)
  | none, none => trapWith causeTcw 1
  | none, some st => do
    captureLines f t
    let v0 ← captureReg t 0
    let v1 ← captureReg t 1
    let v2 ← captureReg t 2
    let v3 ← captureReg t 3
    let v4 ← captureReg t 4
    let c ← get
    let cmd : Cmd := {
      op := op, tcw := t, job := x.key.job, ctx := x.key.ctx, task := x.task.toNat, issuer := pid, station := st
      vals := #v[v0, v1, v2, v3, v4], segs := x.segs, rmode := x.rmode, sup := x.sup, node := none, seq := c.seq
      addr := x.pc, page := none, draws := none, begun := none, retry := none, kept := [], sources := [] }
    needReturned x.party
    if (c.station st).pkey ≠ tcwCap t then
      sendEvent ⟨dieOf st, 4, st, x.key.job, x.key.ctx, wordOf (2 ^ 56 + ((c.station st).pkey).toNat), tcwWords op t⟩
      onCore fun c => { c.tick with completions := c.completions ++ [⟨cmd, stCap, 0, none⟩] }
    else if Config.commandDepth ≤ (c.queue st f.engine).length then stop (.park (.command st f.engine))
    else onCore fun c => (enqueueCmd f.engine cmd c).tick
    if f.engine = 5 then markOutside x.party
    updMine fun x => x.pushed t

/-- A command of a die's engine: its push for a strand, or its execution for the engine. -/
def dieOp (f : CmdForm) (op : Instr) (body : Cmd → Act Finish) (s : State) : Outcome :=
  match s.core.work with
  | .engine unit => runDie f.engine op body unit s
  | .idle | .strand _ _ _ _ _ | .event _ => runCore (pushAct f op) s

/-- A command of a station's matrix or vector engine. -/
def stationOp (f : CmdForm) (op : Instr) (body : Cmd → Act Finish) (s : State) : Outcome :=
  match s.core.work with
  | .engine unit => runStation f.engine op body unit s
  | .idle | .strand _ _ _ _ _ | .event _ => runCore (pushAct f op) s

end Sys2Proof.Machine
end

