-- ==== Sys2Proof/Machine/Copy.lean ====
section
/-! DEFINITION. The copy engine (R183 to R195). A command is started, then checked and planned as a whole in one turn, and
its parts land in turns of their own, in any order where the rules leave it open; its piece signals and completion are on
their way afterwards. -/

namespace Sys2Proof.Machine

open Sys2Proof

def cpCopyForm : CmdForm := ⟨1, 7, [[1, 3, 4], [1, 3, 4], [1, 2], [0, 2], [0, 1, 4]], .one⟩
def cpFillForm : CmdForm := ⟨1, 31, [[1, 3, 4], [1, 2], [1, 2], [0], [0]], .one⟩
def cpBcastForm : CmdForm := ⟨1, 7, [[3], [1, 3, 4], [1, 2], [2], [0, 1, 4]], .one⟩
def cpGatherForm : CmdForm := ⟨1, 7, [[1, 3, 4], [1, 4], [1, 3, 4], [2], [0]], .one⟩
def cpScatterForm : CmdForm := ⟨1, 7, [[1, 4], [1, 3, 4], [1, 3, 4], [2], [0]], .one⟩
def cpCancelForm : CmdForm := ⟨1, 7, [[2], [0], [0], [0], [0]], .none⟩
def cpNodeForm : CmdForm := ⟨1, 7, [[1, 4], [0], [0], [0], [0]], .one⟩

/-! ### Shared parts -/

/-- A completion word (R77). -/
def compWord (status tag result : Nat) : Word := wordOf (status % 256 * 2 ^ 56 + tag % 256 * 2 ^ 48 + result % 2 ^ 48)

/-- The base of the signal words, if the command has any: 8-aligned, and writable for its count. A copy in pieces without a base sends
no piece signals: DESIGN CHOICE (log 124). -/
def signalBase (d : Cmd) (count : Nat) : Act (Option Nat) :=
  if !d.ownsW7 || d.kind 4 == 0 || count == 0 then pure none
  else do
    let va ← d.reach d.seg (← d.offset 4) (8 * count) 2
    check (va % 8 == 0)
    pure (some va)

/-- Signal word `k` of a command, to be stored full (R186). -/
def addSignal (d : Cmd) (base : Option Nat) (k station : Nat) : Act Unit :=
  match base with
  | none => pure ()
  | some va => onCore fun c =>
      { c with signals := c.signals ++ [⟨d.going, va + 8 * k, compWord stOk (compTag d.tcw) k, station, false⟩] }

/-- Bytes of a destination before the first word with a poisoned byte, if there is one, of bytes that land at an address:
`done` bytes of the destination precede `base` (R193). -/
def beforePoison (base done at' : Nat) (bytes : List EByte) : Option Nat :=
  (bytes.findIdx? (·.2)).map fun k => done + (at' + k) / 8 * 8 - base

def Where.addr : Where → Nat
  | .mem va => va
  | .stash _ o => o

/-- Whether two extents of one space share a byte. -/
def overlaps (a : Where) (n : Nat) (b : Where) (m : Nat) : Bool :=
  let meets (x y : Nat) : Bool := decide (x < y + m) && decide (y < x + n) && n != 0 && m != 0
  match a, b with
  | .mem x, .mem y => meets x y
  | .stash p x, .stash q y => p == q && meets x y
  | .mem _, .stash _ _ | .stash _ _, .mem _ => false

/-- The rounding mode of an RM field (R184). -/
def roundingOf (d : Cmd) (rm : Nat) : Act Nat :=
  if rm < 5 then pure rm else if rm = 7 then pure (min d.rmode.toNat 4) else faultCmd

/-- Elements of `size` bytes, in order. -/
def elements (size : Nat) (bytes : List EByte) : List (List EByte) :=
  (List.range (bytes.length / size)).map fun i => (bytes.drop (i * size)).take size

/-- Each element converted once, with its draw under RSR (R270, R273). -/
def convertAll (sf df : Fmt) (mode : Nat) (sat : Bool) (draw : Nat → Nat) (bytes : List EByte) : List EByte :=
  let es := elements sf.size bytes
  let out := (List.range es.length).map fun i =>
    let e := es.getD i []
    let code := convert (sf.decode (eNat e)) df mode sat (draw i)
    (leBytes df.size code).map fun b => (b, eBad e)
  out.foldr (· ++ ·) []

/-! ### `cp.copy` (R184 to R186) -/

/-- Whether the fields of w6 keep R184. -/
def copyFields (w : Nat) : Bool :=
  decide (bitsOf w 24 4 ≤ 13) && bitsOf w 21 3 == 0 && (w.testBit 20 || bitsOf w 0 16 == 0)
    && (w.testBit 19 || bitsOf w 16 3 == 0)

/-- How a copy turns source bytes into destination bytes: the source element size, and the formats if elements are
converted. Integer formats go to themselves only, as a plain copy (R185); a conversion field that names `e8s` is a reserved
code (R263). -/
def copyFormats (w : Nat) : Act (Nat × Option (Fmt × Fmt)) :=
  if !w.testBit 20 then pure (1, none)
  else
    let sf := bitsOf w 0 6
    let df := bitsOf w 6 6
    match fmtOf sf, fmtOf df with
      | some f, some g =>
        if f.isInt || g.isInt then (if sf = df then pure (f.size, none) else faultCmd) else pure (f.size, some (f, g))
      | _, _ => faultCmd

/-- Whether the entries of a stash range map exactly a global range (R185). -/
def mapsRange (c : Core) (job : Nat) (src dst : Where) (n : Nat) : Bool :=
  match src, dst with
  | .mem va, .stash pid o =>
    (entriesOf o n).all fun i => (stashEntry (c.station pid) i).mapped == some (job, va + i * 256 - o)
  | _, _ => false

/-- Whether a copy is a prefetch: its source is exactly the global range that its destination entries map (R185). -/
def isPrefetch (c : Core) (d : Cmd) (src dst : Where) (n : Nat) : Bool :=
  dst.addr % 256 == 0 && n % 256 == 0 && mapsRange c d.job src dst n

/-- Another owner's block is recalled before a landing into mapped entries (R185, R195). -/
def takeOwnership (job : Nat) (w : Where) (n : Nat) : Act Unit :=
  match w with
  | .mem _ => pure ()
  | .stash pid o => (entriesOf o n).forM fun i => do
      let e := stashEntry ((← get).station pid) i
      match e.mapped with
      | some (_, block) => if e.valid then pure () else recallFrom job block (some pid)
      | none => pure ()

/-- Whether any entry of a destination is mapped. -/
def anyMapped (c : Core) (w : Where) (n : Nat) : Bool :=
  match w with
  | .mem _ => false
  | .stash pid o => (entriesOf o n).any fun i => (stashEntry (c.station pid) i).mapped.isSome

/-- Bytes written to a destination in a layout. -/
def landBytes (pt : Party) (w : Where) (span : Option (Fin 8)) (bytes : List EByte) : Act Unit := do
  takeOwnership pt.job w bytes.length
  match w with
  | .mem va => writeResult pt va bytes
  | .stash pid o => writeStash pt.task pid o span bytes

/-! ### Plans and parts -/

/-- How the planning of a command comes out: it has ended already, or its parts are to land. -/
inductive Planned where
  | ended (f : Finish)
  | parts (x : CopyPlan)

/-- How a part comes out: it has landed, with the amount that it adds to the result and the bytes before its first poisoned
word; or the command ends with it. -/
inductive Part where
  | landed (amount : Nat) (bad : Option Nat)
  | ended (f : Finish)

/-- Bytes of one part of a copy or fill, which ends where a multiple of it stands in the destination's space: no word and no
line is cut (R361, R381). -/
def partBytes : Nat := 128

/-- The stash place of a destination. -/
def Where.entry? : Where → Option (Nat × Nat)
  | .stash pid o => some (pid, o)
  | .mem _ => none

/-- A plan whose parts are all still to land. -/
def planOf (d : Cmd) (n : Nat) (dst : Option Where) (total step : Nat) : CopyPlan :=
  ⟨d, List.range n, 0, none, false, dst.bind Where.entry?, total, step, 0, []⟩

/-- The plan of a destination that is written from its first byte to its last. -/
def planBytes (d : Cmd) (dst : Where) (total : Nat) : CopyPlan :=
  let skew := dst.addr % partBytes
  { planOf d (ceilDiv (total + skew) partBytes) (some dst) total partBytes with skew := skew }

/-! ### `cp.copy` (R184 to R186) -/

/-- What a `cp.copy` that its checks let through does: its layout field, formats and rounding mode, the bytes of its
destination, its places and its pieces. -/
structure CopyShape where
  w : Nat
  formats : Option (Fmt × Fmt)
  mode : Nat
  total : Nat
  dst : Where
  src : Where
  pieces : Nat
  sig : Option Nat

def copyWord (d : Cmd) : Nat := if d.kind 3 = 0 then 0 else descImm d.tcw 3

/-- Bytes of one piece. -/
def pieceBytes (w : Nat) : Nat := 2 ^ (bitsOf w 24 4 + 7)

/-- The checks of R184 and R185 that the captured operands decide. -/
def copyShape (d : Cmd) : Act CopyShape := do
  let len := d.number 2
  let w := copyWord d
  check (copyFields w)
  let (size, formats) ← copyFormats w
  let mode ← roundingOf d (bitsOf w 12 3)
  check (len % size == 0)
  let n := match formats with | some (f, g) => len / f.size * g.size | none => len
  let dst ← d.place d.seg 0 n 2
  let src ← d.place d.seg 1 len 1
  check (!overlaps dst n src len)
  let pieces := if bitsOf w 24 4 = 0 then 0 else ceilDiv n (pieceBytes w)
  let sig ← signalBase d pieces
  pure ⟨w, formats, mode, n, dst, src, pieces, sig⟩

/-- The draws of a conversion under RSR. -/
def copyDraws (d : Cmd) (x : CopyShape) : Act (Nat → Nat) :=
  match x.formats with
  | some (f, _) => if x.mode = modeRSR then reserveDraws d (d.number 2 / f.size) else pure (fun _ => 0)
  | none => pure (fun _ => 0)

def planCopy (d : Cmd) : Act Planned := do
  if d.number 2 = 0 then pure (.ended (finOk 0))
  else
    drawGate d
    let x ← copyShape d
    let c ← get
    check (!(x.dst.isStash && x.w.testBit 19 && anyMapped c x.dst x.total))
    let _ ← copyDraws d x
    pure (.parts { planBytes d x.dst x.total with prefetch := isPrefetch c d x.src x.dst x.total && !x.w.testBit 20 })

/-- The entries that a prefetch touches become CLEAN with their blocks' data, the block's own dirty bytes among it (R185). -/
def prefetchBytes (pid o n : Nat) : Act (List EByte) := do
  (entriesOf o n).forM fun i => do
    let _ ← writeBackEntry pid (stashEntry ((← get).station pid) i)
    let e := stashEntry ((← get).station pid) i
    let _ ← fillEntry pid e fun k => (match e.mapped with | some (_, va) => va + 64 * k | none => 0, 1, 64)
  readStash pid o n

/-- The `n` bytes of a copy's output from byte `lo` on; of converted elements, those that lie in part beside them are cut. -/
def copyBytes (d : Cmd) (x : CopyShape) (lo n : Nat) : Act (List EByte) := do
  match x.formats with
  | none => readAt d.party (x.src.add lo) n
  | some (f, g) =>
    let first := lo / g.size
    let raw ← readAt d.party (x.src.add (first * f.size)) ((ceilDiv (lo + n) g.size - first) * f.size)
    let draw ← copyDraws d x
    let out := convertAll f g x.mode (x.w.testBit 15) (fun k => draw (first + k)) raw
    pure ((out.drop (lo % g.size)).take n)

/-- The pieces of a size that part `j` completes: those of its bytes to which no other part left belongs (R186). -/
def CopyPlan.completes (p : CopyPlan) (size pieces j : Nat) : List Nat :=
  (List.range pieces).filter fun k =>
    p.meets (size * k) (size * (k + 1)) j && !(p.left.any fun i => i != j && p.meets (size * k) (size * (k + 1)) i)

/-- Part `j` of a copy, and the signals of the pieces that it completes (R186). A prefetch whose entries have been mapped
elsewhere since lands as another copy does. -/
def copyPart (p : CopyPlan) (j : Nat) : Act Part := do
  let d := p.eff
  let x ← copyShape d
  let lo := p.partStart j
  let n := p.partEnd j - lo
  let bytes ← match p.prefetch && mapsRange (← get) d.job (x.src.add (lo / 256 * 256)) (x.dst.add (lo / 256 * 256)) n, x.dst with
    | true, .stash pid o => prefetchBytes pid (o + lo) n
    | _, _ => do
      let out ← copyBytes d x lo n
      landBytes d.party (x.dst.add lo) (if x.w.testBit 19 then some ⟨bitsOf x.w 16 3, Nat.mod_lt _ (by decide)⟩ else none) out
      pure out
  (p.completes (pieceBytes x.w) x.pieces j).forM fun k =>
    addSignal d x.sig k (if x.dst.isStash then d.station else d.issuer)
  pure (.landed n (beforePoison x.dst.addr 0 (x.dst.addr + lo) bytes))

/-! ### `cp.fill` (R187) -/

/-- A word's bit set full or empty by an engine: in memory, in a stash entry, or on a live record (R106, R381). -/
def fillBit (pt : Party) (b : Bool) (w : Where) : Act Unit :=
  match w with
  | .stash pid o => onCore fun c => c.updStation pid fun s =>
      let e := stashEntry s (o / 256)
      let bit : BitVec 32 := (1 : BitVec 32) <<< (o % 256 / 8)
      setStashEntry s { e with full := if b then e.full ||| bit else e.full &&& ~~~bit }
  | .mem va => do
    let p ← read
    match ← locate pt.job va 2 8 with
    | .cell pa _ => onCore (changeBit p pt va pa b)
    | .aperture _ pa => onCore (changeBit p pt va pa b)
    | .mgmt _ _ => pure ()
    | .record k off =>
      if h : off / 8 < 16 then
        onCore fun c => wakeBit k ⟨off / 8, h⟩ b (c.updStrand k fun x =>
          let y := x.setBit ⟨off / 8, h⟩ b
          { y with notes := y.notes.set (off / 8) .plain })
      else pure ()

def planFill (d : Cmd) : Act Planned := do
  check (!(d.flag 3 && d.flag 4))
  let n := d.number 2
  if n = 0 then pure (.ended (finOk 0))
  else
    let dst ← d.place d.seg 0 (8 * n) 2
    check (dst.addr % 8 == 0)
    pure (.parts (planBytes d dst (8 * n)))

/-- The words of a part of a fill. -/
def fillPart (p : CopyPlan) (j : Nat) : Act Part := do
  let d := p.eff
  let n := d.number 2
  let dst ← d.place d.seg 0 (8 * n) 2
  let m := (p.partEnd j - p.partStart j) / 8
  let at' := dst.add (p.partStart j)
  landBytes d.party at' none ((List.replicate m (eBytes 8 (d.number 1))).foldr (· ++ ·) [])
  if d.flag 3 || d.flag 4 then
    (List.range m).forM fun k => fillBit d.party (d.flag 3) (at'.add (8 * k))
  pure (.landed m none)

/-! ### `cp.bcast` (R188) -/

def bcastOffset (d : Cmd) : Nat := bitsOf (descWord d.tcw 0) 0 20

def planBcast (d : Cmd) : Act Planned := do
  let w := descImm d.tcw 3
  let first := bitsOf w 0 10
  let count := bitsOf w 10 10
  let stride := bitsOf w 20 8
  check (decide (1 ≤ count) && decide (count ≤ 640) && decide (1 ≤ stride))
  let targets ← (List.range count).mapM fun i => do
    match ← look fun p c => stationOf p c d.job (first + i * stride) with
    | some pid => pure pid
    | none => faultCmd
  check (decide (bcastOffset d + d.number 2 ≤ stashSize))
  let _ ← d.place d.seg 1 (d.number 2) 1
  let _ ← signalBase d count
  pure (.parts { planOf d count none 0 1 with targets := targets })

/-- One target's landing with its signal, or its CAP record. -/
def bcastPart (p : CopyPlan) (i : Nat) : Act Part := do
  let d := p.eff
  let pid := p.targets.getD i 0
  let key := ((← get).station pid).pkey
  if key ≠ tcwCap d.tcw then
    sendEvent ⟨dieOf pid, 4, pid, d.job, d.ctx, wordOf (2 ^ 56 + key.toNat), tcwWords d.op d.tcw⟩
    pure (.landed 0 none)
  else
    let src ← d.place d.seg 1 (d.number 2) 1
    let sig ← signalBase d p.targets.length
    let bytes ← readAt d.party src (d.number 2)
    landBytes d.party (.stash pid (bcastOffset d)) none bytes
    addSignal d sig i pid
    pure (.landed 1 (beforePoison (bcastOffset d) 0 (bcastOffset d) bytes))

/-! ### `cp.gather` and `cp.scatter` (R189) -/

/-- Row `i` at a base: the row's place, if it passes the checks of R183. -/
def rowAt (d : Cmd) (i row size kind : Nat) : Act (Option Where) := do
  if d.kind i = 3 then
    let o := bitsOf (descWord d.tcw i) 0 20 + row * size
    pure (if o + size ≤ stashSize then some (.stash d.station o) else none)
  else
    let off ← d.offset i
    pure ((translateRange (d.segs.getD d.seg SegDesc.zero) (off + row * size) size kind d.sup).map .mem)

def rowSize (d : Cmd) : Nat := 16 * bitsOf (descImm d.tcw 3) 0 14
def rowCount (d : Cmd) : Nat := bitsOf (descImm d.tcw 3) 14 14

def planRows (d : Cmd) : Act Planned := do
  if rowCount d = 0 then pure (.ended (finOk 0))
  else
    check (rowSize d != 0)
    let _ ← d.place d.seg 2 (4 * rowCount d) 1
    let dst := if d.kind 0 = 3 then some (Where.stash d.station (bitsOf (descWord d.tcw 0) 0 20)) else none
    pure (.parts (planOf d (rowCount d) dst (rowCount d * rowSize d) (rowSize d)))

/-- Source and destination of row `i`, if its index can be read and both pass the checks. A poisoned index fails as a check does:
DESIGN CHOICE (log 111). -/
def rowPlaces (d : Cmd) (i : Nat) : Act (Option (Where × Where)) := do
  let gather := d.op == .cpGather
  let list ← d.place d.seg 2 (4 * rowCount d) 1
  let e ← readAt d.party (list.add (4 * i)) 4
  let src ← rowAt d 1 (if gather then eNat e else i) (rowSize d) 1
  let dst ← rowAt d 0 (if gather then i else eNat e) (rowSize d) 2
  match eBad e, src, dst with
  | false, some a, some b => pure (some (a, b))
  | _, _, _ => pure none

/-- Bytes of a gathered row in the word that it shares with the row before, which writes them with its own: the rows of a
gather lie one behind the other, and no word of them is written in two parts (R381). -/
def sharedHead (d : Cmd) (dst : Where) : Nat := if d.op = .cpGather then (8 - dst.addr % 8) % 8 else 0

/-- What of row `i + 1` is written with row `i`. -/
def nextHead (d : Cmd) (i n : Nat) : Act (List EByte) := do
  if n = 0 || rowCount d ≤ i + 1 then pure []
  else
    match ← rowPlaces d (i + 1) with
    | some (a, _) => readAt d.party a n
    | none => pure []

/-- Row `i`; one whose address fails a check ends the command with its number, and every smaller row is written. -/
def rowPart (p : CopyPlan) (i : Nat) : Act Part := do
  let d := p.eff
  match ← rowPlaces d i with
  | some (a, b) => do
    let shared := sharedHead d b
    let skip := if i = 0 then 0 else shared
    let own ← readAt d.party a (rowSize d)
    let more ← nextHead d i shared
    let bytes := own.drop skip ++ more
    landBytes d.party (b.add skip) none bytes
    pure (.landed 1 (beforePoison b.addr (i * rowSize d) (b.addr + skip) bytes))
  | none => pure (.ended ⟨stFault, i, none⟩)

/-! ### `cp.cancel` (R190) -/

def isCopyOp (op : Instr) : Bool :=
  op == .cpCopy || op == .cpFill || op == .cpBcast || op == .cpGather || op == .cpScatter || op == .cpCancel || op == .cpNode

def cpCancelRun (d : Cmd) : Act Finish := do
  let w := descImm d.tcw 0
  let sel (e : Cmd) : Bool :=
    isCopyOp e.op && e.station == d.station && e.job == d.job && e.ctx == d.ctx && e.seq != d.seq &&
      (w.testBit 8 || compTag e.tcw == w % 256)
  let s := (← get).station d.station
  let n := ((s.commands[1]! ++ s.copies.map (·.cmd)).filter sel).length
  onCore (cancelCommands sel)
  pure (finOk n)

/-! ### `cp.node` (R191) -/

/-- The argument block of a node: word n, and the segments. -/
def argWord (pt : Party) (block n : Nat) : Act Word := do
  pure (wordOf (← readNum pt (block + 8 * n) 8))

def argSegs (pt : Party) (block : Nat) : Act (Vector SegDesc 8) := do
  let b ← readGlobal pt (block + 0x80) 192
  let f (o n : Nat) : Nat := eNat ((b.drop o).take n)
  let seg (i : Nat) : SegDesc :=
    ⟨wordOf (f (24 * i) 8), wordOf (f (24 * i + 8) 8), BitVec.ofNat 32 (f (24 * i + 16) 4) &&& rightsMask⟩
  pure #v[seg 0, seg 1, seg 2, seg 3, seg 4, seg 5, seg 6, seg 7]

/-- The value that a descriptor of an embedded command takes from the argument block. -/
def argValue (pt : Party) (block : Nat) (t : Tcw) (i : Nat) : Act Word :=
  let k := descKind t i
  if (k = 1 || k = 4 || k = 5 || k = 6) && decide (descReg t i < 16) then argWord pt block (descReg t i) else pure 0

/-- A command whose words and captured values come from a record and its argument block. -/
def embeddedCmd (d : Cmd) (op : Instr) (t : Tcw) (block : Nat) : Act Cmd := do
  let v0 ← argValue d.party block t 0
  let v1 ← argValue d.party block t 1
  let v2 ← argValue d.party block t 2
  let v3 ← argValue d.party block t 3
  let v4 ← argValue d.party block t 4
  let segs ← argSegs d.party block
  pure { d with op := op, tcw := t, vals := #v[v0, v1, v2, v3, v4], segs := segs }

/-- The eight words at an address, decoded as a command. -/
def readTcw (pt : Party) (va : Nat) : Act (Option (Instr × Tcw)) := do
  let b ← readGlobal pt va 32
  if eBad b then pure none
  else
    match decode (b.map (·.1)) with
    | .ok ⟨op, some t⟩ => pure (some (op, t))
    | _ => pure none

/-- The form of an operation that a copy node may run. -/
def copyForm (op : Instr) : Option CmdForm :=
  if op = .cpCopy then some cpCopyForm
  else if op = .cpFill then some cpFillForm
  else if op = .cpBcast then some cpBcastForm
  else if op = .cpGather then some cpGatherForm
  else if op = .cpScatter then some cpScatterForm
  else none

/-- The record that a `cp.node` names: an operand of its segment, or the record that the task engine runs (R212). -/
def nodeRecord (d : Cmd) : Act Nat := do
  match d.node with
  | some r => pure r
  | none => d.reach d.seg (← d.offset 0) 128 1

/-- The command that a `cp.node` embeds. Poison in its tile command word fails a check; in the kind, the argument pointer and the
argument block it is passed over: DESIGN CHOICE (log 112). -/
def nodeCommand (d : Cmd) : Act Cmd := do
  let record ← nodeRecord d
  check (record % 128 == 0)
  let kind ← readNum d.party (record + 6) 1
  check (kind == 1)
  match ← readTcw d.party (record + 0x60) with
  | none => faultCmd
  | some (op, t) =>
    match copyForm op with
    | none => faultCmd
    | some f => do
      check (compMode t == 0 && (tcwOffence f t true).isNone)
      let block ← readNum d.party (record + 0x18) 8
      embeddedCmd d op t block

/-! ### Every operation's plan, parts and end -/

def planCmd (d : Cmd) : Act Planned :=
  if d.op = .cpCopy then planCopy d
  else if d.op = .cpFill then planFill d
  else if d.op = .cpBcast then planBcast d
  else planRows d

/-- The checks of a command, or of the one that its node embeds. -/
def planAct (d : Cmd) : Act Planned := do
  planCmd (← if d.op = .cpNode then nodeCommand d else pure d)

def partAct (p : CopyPlan) (j : Nat) : Act Part :=
  if p.eff.op = .cpCopy then copyPart p j
  else if p.eff.op = .cpFill then fillPart p j
  else if p.eff.op = .cpBcast then bcastPart p j
  else rowPart p j

/-- The end of a command whose parts have all been performed: FAULT with what precedes the first poisoned word, CAP where a
target of a broadcast has diverted it, else OK. A broadcast that has met both ends FAULT: DESIGN CHOICE (log 95). -/
def CopyPlan.finish (p : CopyPlan) : Finish :=
  match p.bad with
  | some n => ⟨stFault, n, none⟩
  | none => if p.done < p.targets.length then ⟨stCap, p.done, none⟩ else finOk p.done

def minBad (a b : Option Nat) : Option Nat :=
  match a, b with
  | some x, some y => some (min x y)
  | some x, none => some x
  | none, y => y

/-- The plan once a part has landed. -/
def CopyPlan.after (p : CopyPlan) (j amount : Nat) (bad : Option Nat) : CopyPlan :=
  { p with left := p.left.filter (· != j), done := p.done + amount, bad := minBad p.bad bad }

/-- The part that lands next: rows in ascending order, else any of those left. -/
def CopyPlan.next (p : CopyPlan) (draw : Nat) : Nat :=
  if p.eff.op = .cpGather ∨ p.eff.op = .cpScatter then p.left.headD 0
  else p.left.getD (draw % max 1 p.left.length) 0

/-- A whole command performed at once, part by part, as the task engine does on a resume (R194). -/
def copyParts (p : CopyPlan) : List Nat → Act Finish
  | [] => pure p.finish
  | j :: rest => do
    match ← partAct p j with
    | .landed n bad => copyParts (p.after j n bad) rest
    | .ended f => pure f

def copyWhole (d : Cmd) : Act Finish := do
  let plan ← match ← attempt (planAct d) with
    | .ok x => pure x
    | .error (.reserve n) => do
      let p ← read
      let r := takeDraws p d n (← get)
      set r.2
      planAct { d with draws := some r.1 }
    | .error e => stop e
  match plan with
  | .ended f => pure f
  | .parts p => copyParts p p.left

/-! ### The engine's turns (R18, R183) -/

/-- The head command of the queue is started: it leaves the queue. -/
def startCopy (d : Cmd) (c : Core) : Core :=
  let c := c.updStation d.station fun s =>
    { s with commands := s.commands.set! 1 ((s.commands[1]!).filter fun x => x.seq != d.seq), copies := s.copies ++ [⟨d, none⟩] }
  wakeAll (.command d.station 1) c

/-- The command at the head of the queue, if it is of an operation and may start. -/
def copyStart (c : Core) (pid : Nat) (op : Instr) : Option Cmd :=
  match c.queue pid 1 with
  | d :: _ => if d.op = op && decide ((c.station pid).copies.length < 8) then some d else none
  | [] => none

/-- The plan of a started command replaced; the command goes on. -/
def setPlan (d : Cmd) (p : CopyPlan) (c : Core) : Core :=
  c.updStation d.station fun s =>
    { s with copies := s.copies.map fun x => if x.cmd.seq = d.seq then ⟨x.cmd.going, some p⟩ else x }

/-- A started command goes on: it is checked and planned, or one of its parts is performed. -/
def copyTurn (x : CopyRun) (draw : Nat) (s : State) : Outcome :=
  match x.plan with
  | none =>
    match planAct x.cmd s.plat s.core with
    | .ok (.ended f, c) => .next { s with core := finishCmd 1 x.cmd f c }
    | .ok (.parts p, c) => .next { s with core := setPlan x.cmd p c }
    | .error e => stoppedCmd 1 x.cmd 0 e s
  | some p =>
    match partAct p (p.next draw) s.plat s.core with
    | .ok (.ended f, c) => .next { s with core := finishCmd 1 x.cmd f c }
    | .ok (.landed n bad, c) =>
      let q := p.after (p.next draw) n bad
      .next { s with core := if q.left.isEmpty then finishCmd 1 x.cmd q.finish c else setPlan x.cmd q c }
    | .error e => stoppedCmd 1 x.cmd p.done e s

/-- A turn of a copy engine: it starts the next command, or goes on with one that it has started. Up to eight run at once
and complete in any order, so a free value chooses among them and among the parts of one. -/
def runCopyEngine (op : Instr) (pid : Nat) (s : State) : Outcome :=
  let draw := (Config.freeWord s.core.freeNo).toNat
  let s' := { s with core := { s.core with freeNo := s.core.freeNo + 1 } }
  let started := (s.core.station pid).copies.filter fun x => x.cmd.op == op && !x.cmd.waits s.core
  match copyStart s.core pid op, started[draw / 2 % started.length]? with
  | some d, some e => if draw % 2 = 0 then .next { s' with core := startCopy d s'.core } else copyTurn e (draw / 16) s'
  | some d, none => .next { s' with core := startCopy d s'.core }
  | none, some e => copyTurn e (draw / 16) s'
  | none, none => .next s

/-- `cp.cancel` runs when the engine accepts it, ahead of queue order. -/
def runCancel (pid : Nat) (s : State) : Outcome :=
  match (s.core.queue pid 1).find? fun d => d.op == .cpCancel with
  | some d => runCmd 1 d (cpCancelRun d) s
  | none => .next s

/-- A copy command: its push for a strand, or a turn of the engine. -/
def copyOp (f : CmdForm) (op : Instr) (s : State) : Outcome :=
  match s.core.work with
  | .engine unit => runCopyEngine op unit s
  | .idle | .strand _ _ _ _ _ | .event _ => runCore (pushAct f op) s

def execCpCopy (s : State) : Outcome := copyOp cpCopyForm .cpCopy s
def execCpFill (s : State) : Outcome := copyOp cpFillForm .cpFill s
def execCpBcast (s : State) : Outcome := copyOp cpBcastForm .cpBcast s
def execCpGather (s : State) : Outcome := copyOp cpGatherForm .cpGather s
def execCpScatter (s : State) : Outcome := copyOp cpScatterForm .cpScatter s
def execCpCancel (s : State) : Outcome :=
  match s.core.work with
  | .engine unit => runCancel unit s
  | .idle | .strand _ _ _ _ _ | .event _ => runCore (pushAct cpCancelForm .cpCancel) s
def execCpNode (s : State) : Outcome := copyOp cpNodeForm .cpNode s

end Sys2Proof.Machine
end

