-- ==== Sys2Proof/Machine/Loam.lean ====
section
/-! DEFINITION. Loam's model (R225 to R247): the lineage table and handles, deltas and the page pool, resolution, fork,
flatten, rebase, deletion, commit, truncation, and what an error in a node leaves. An operation that makes its node BUSY
(R229) is two steps: its checks, and its effect. -/

namespace Sys2Proof.Machine

open Sys2Proof

/-! ### Failures (R244) -/

def lnDepth : Int := -1
def lnNoSpace : Int := -2
def lnBadHandle : Int := -3
def lnShape : Int := -4
def lnBusy : Int := -5
def lnKind : Int := -6

/-- Why a lineage operation does not complete. -/
inductive LinFail where
  /-- A refusal with its scalar status. -/
  | refuse (code : Int)
  /-- A LOST node or chain; or an error found in the speculative data of a node, which is to become LOST (R241). -/
  | lost (hit : Option Nat)
  /-- A BUSY node: a command waits, a scalar member returns −5. -/
  | busy
  /-- A shape record that breaks R81. -/
  | badShape
  deriving DecidableEq, Repr

abbrev Loam := ExceptT LinFail Act

def refuseWith {α : Type} (code : Int) : Loam α := throw (.refuse code)
/-- DEDUCED (log 44). -/
def linCheck (b : Bool) (code : Int) : Loam Unit := if b then pure () else refuseWith code

/-! ### Node records (R228) -/

def kFull : Nat := 0
def kRows : Nat := 1
def kElems : Nat := 2
def kLowrank : Nat := 3
def kResid : Nat := 4
def kAppend : Nat := 5
def kEmpty : Nat := 6

def nsFree : Nat := 0
def nsLive : Nat := 1
def nsSpec : Nat := 2
def nsRetired : Nat := 3
def nsBusy : Nat := 4
def nsLost : Nat := 5

structure Node where
  parent : Nat
  shape : Nat
  delta : Nat
  bytes : Nat
  rows : Nat
  kind : Nat
  depth : Nat
  state : Nat
  flags : Nat
  children : Nat
  gen : Nat
  saved : Nat
  rank : Nat
  committed : Nat
  deriving DecidableEq, Repr

def nodeOf (b : List Byte) : Node :=
  let f (o n : Nat) : Nat := leNat ((b.drop o).take n)
  ⟨f 0x00 8, f 0x08 8, f 0x10 8, f 0x18 4, f 0x1C 4, f 0x20 1, f 0x21 1, f 0x22 1, f 0x23 1, f 0x24 4, f 0x28 2, f 0x2A 1,
    f 0x2C 4, f 0x30 4⟩

def Node.toBytes (n : Node) : List Byte :=
  leBytes 8 n.parent ++ leBytes 8 n.shape ++ leBytes 8 n.delta ++ leBytes 4 n.bytes ++ leBytes 4 n.rows ++
  leBytes 1 n.kind ++ leBytes 1 n.depth ++ leBytes 1 n.state ++ leBytes 1 n.flags ++ leBytes 4 n.children ++
  leBytes 2 n.gen ++ leBytes 1 n.saved ++ leBytes 1 0 ++ leBytes 4 n.rank ++ leBytes 4 n.committed ++ leBytes 12 0

def Node.cm (n : Node) : Bool := n.flags.testBit 1
def Node.mark (n : Node) : Bool := n.flags.testBit 0

/-- Whether the fields of a record hold what R228 lets them hold: kind, state and depth, and the reserved bits of the flags and of
the generation zero. -/
def Node.ok (n : Node) : Bool :=
  decide (n.kind ≤ 6) && decide (n.state ≤ 5) && decide (n.depth ≤ 8) && decide (n.flags < 4) && decide (n.gen < 2 ^ 15)

/-- The checks that Loam makes on every record it reads (R228). -/
def recordOk (b : List Byte) : Bool :=
  (nodeOf b).ok && leNat ((b.drop 0x34).take 12) == 0 && leNat ((b.drop 0x2B).take 1) == 0

def indexOfHandle (h : Nat) : Nat := h % 2 ^ 48
def handleOf (gen i : Nat) : Nat := gen % 2 ^ 15 * 2 ^ 48 + i
def Node.handle (n : Node) (i : Nat) : Nat := handleOf n.gen i

/-- The table's base and record count of a job, and the pool's page list and its length (R225). -/
def tableBase (job : Nat) : Act Nat := look fun p c => jobField p c job 0x40
def tableEntries (job : Nat) : Act Nat := look fun p c => c.mem.read (jobRecord p c job + 0x48) 4
def poolPages (job : Nat) : Act Nat := look fun p c => c.mem.read (jobRecord p c job + 0x4C) 4
def poolList (job : Nat) : Act Nat := look fun p c => jobField p c job 0x50

def nodeAddr (pt : Party) (i : Nat) : Act Nat := do pure ((← tableBase pt.job) + 64 * i)

/-- A record as it stands, with whether a word of it is poisoned. -/
def rawNode (pt : Party) (i : Nat) : Act (Node × List EByte) := do
  let b ← readGlobal pt (← nodeAddr pt i) 64
  pure (nodeOf (b.map (·.1)), b)

def writeNode (pt : Party) (i : Nat) (n : Node) : Act Unit := do
  writeGlobal pt (← nodeAddr pt i) (n.toBytes.map fun b => (b, false))

/-- Every record of the table that is not FREE, with its index, those that break R228 among them: what the free pages and the nodes
below another are known by. -/
def usedNodes (pt : Party) : Act (List (Nat × Node)) := do
  let all ← (List.range (← tableEntries pt.job)).mapM fun i => do
    if i = 0 then pure none
    else
      let (n, _) ← rawNode pt i
      pure (if n.state = nsFree then none else some (i, n))
  pure (all.filterMap id)

/-- The indices of a node's chain within a list of records, the node first. -/
def chainIn (l : List (Nat × Node)) : Nat → Nat → List Nat
  | 0, _ => []
  | fuel + 1, i =>
    match l.find? fun x => x.1 == i with
    | none => []
    | some (_, n) => i :: (if n.parent = 0 then [] else chainIn l fuel (indexOfHandle n.parent))

/-- The nodes below a node. -/
def belowOf (pt : Party) (i : Nat) : Act (List (Nat × Node)) := do
  let l ← usedNodes pt
  pure (l.filter fun x => x.1 != i && (chainIn l 16 x.1).contains i)

/-- A node whose speculative data is destroyed: LOST, or LOST once it leaves BUSY. -/
def Node.lose (n : Node) : Node :=
  if n.state = nsSpec then { n with state := nsLost }
  else if n.state = nsBusy ∧ n.saved = nsSpec then { n with saved := nsLost }
  else n

/-- A node with CM = 0 that an error has hit is LOST, and the SPEC nodes below it with it (R241). -/
def loseNode (pt : Party) (i : Nat) : Act Unit := do
  let below ← belowOf pt i
  let (n, _) ← rawNode pt i
  ((i, n) :: below.filter fun x => x.2.ok).forM fun x => if x.2.lose != x.2 then writeNode pt x.1 x.2.lose else pure ()

/-- An uncorrectable error found in a node (R241): speculative data makes the node LOST with the SPEC nodes below it, once what
the operation did so far is undone; committed data asks for a rollback of the task. -/
def damaged {α : Type} (pt : Party) (i : Nat) (n : Node) (line : Nat) : Loam α := do
  if n.cm then stop (.rollback pt.job pt.task line pt.ctx) else throw (.lost (some i))

/-- An operation whole: one that is refused leaves everything as it was before it (R244, R249, R254), but for the nodes that an
error destroys (R241) and what a memory port has read of the translation tables (R223). -/
def settled {α : Type} (pt : Party) (a : Loam α) : Act (Except LinFail α) := do
  let before ← get
  match ← a.run with
  | .ok v => pure (.ok v)
  | .error e => do
    set { before with tlb := (← get).tlb }
    match e with
    | .lost (some i) => loseNode pt i
    | .lost none | .refuse _ | .busy | .badShape => pure ()
    pure (.error e)

/-- Whether a lineage operation of a job has made its node BUSY and not yet ended: a scalar member, or a command. -/
def lineageGoing (c : Core) (job : Nat) : Bool :=
  c.members.any (fun r => r.key.job == job) || c.activeCmds.any fun d => d.job == job && d.begun.isSome

/-- The operations of a job that change its lineage take effect one after another: one that has passed its checks waits for one that
has made its node BUSY, which so keeps the pages, the record and the chain that its checks found (R242, R245, R249, R254). DESIGN
CHOICE (log 118). -/
def needTurn (job : Nat) : Act Unit := do
  if lineageGoing (← get) job then stop (.hold .none) else pure ()

/-- A record read by Loam: BADHANDLE if it breaks R228. -/
def readNode (pt : Party) (i : Nat) : Loam Node := do
  let (n, b) ← rawNode pt i
  if eBad b then damaged pt i n (← nodeAddr pt i)
  else if recordOk (b.map (·.1)) then pure n
  else refuseWith lnBadHandle

/-- The nodes below a node, read by Loam. -/
def descendantsOf (pt : Party) (i : Nat) : Loam (List (Nat × Node)) := do
  (← belowOf pt i).mapM fun x => do pure (x.1, ← readNode pt x.1)

/-- A handle accepted or refused (R226): the index and record. -/
def accept (pt : Party) (h : Nat) : Loam (Nat × Node) := do
  let i := indexOfHandle h
  if h = 0 ∨ 2 ^ 63 ≤ h ∨ i < 1 ∨ (← tableEntries pt.job) ≤ i then refuseWith lnBadHandle
  else
    let n ← readNode pt i
    if n.state = nsFree ∨ n.state = nsRetired ∨ n.gen ≠ bitsOf h 48 15 then refuseWith lnBadHandle
    else pure (i, n)

/-- The nodes from the root down to a node. -/
def chainUp (pt : Party) : Nat → Nat × Node → List (Nat × Node) → Loam (List (Nat × Node))
  | 0, _, _ => refuseWith lnBadHandle
  | fuel + 1, x, acc =>
    if x.2.parent = 0 then pure (x :: acc)
    else do
      let i := indexOfHandle x.2.parent
      let n ← readNode pt i
      chainUp pt fuel (i, n) (x :: acc)

def chainOf (pt : Party) (x : Nat × Node) : Loam (List (Nat × Node)) := chainUp pt 9 x []

/-- LOST before BUSY, on a node or its chain (R249, R254). -/
def chainUsable (lost : Bool) (l : List (Nat × Node)) : Loam Unit := do
  if lost && l.any (fun x => x.2.state == nsLost) then throw (.lost none)
  else if l.any (fun x => x.2.state == nsBusy) then throw .busy
  else pure ()

/-! ### Geometry (R231, R232) -/

/-- A node's format, row length, capacity, row bytes and element bytes, and dim 1 with whether dims 2 and 3 are 1. -/
structure Geo where
  fmt : Fmt
  code : Nat
  dim0 : Nat
  cap : Nat
  w : Nat
  e : Nat
  dim1 : Nat
  flat : Bool
  deriving DecidableEq, Repr

def roundUp16 (n : Nat) : Nat := (n + 15) / 16 * 16

def geoOf (x : Shape) : Option Geo :=
  (fmtOf x.format).map fun f =>
    ⟨f, x.format, x.dim 0, x.dim 1 * x.dim 2 * x.dim 3, roundUp16 (x.dim 0 * f.size), f.size,
      x.dim 1, x.dim 2 == 1 && x.dim 3 == 1⟩

def geometry (pt : Party) (n : Node) : Loam Geo := do
  match ← shapeAt pt n.shape with
  | none => throw .badShape
  | some x =>
    match geoOf x with
    | some g => pure g
    | none => throw .badShape

/-! ### Deltas (R231) -/

/-- The parts of a delta: its count, rows of element codes, row indices, elements, and the tables of LOWRANK and
RESID. -/
structure Delta where
  n : Nat
  rows : List (List Nat)
  idx : List Nat
  elems : List (Nat × Nat)
  u : List (List Nat)
  v : List (List Nat)
  codes : List (List Nat)
  scales : List (List Nat)
  deriving DecidableEq, Repr

def Delta.empty : Delta := ⟨0, [], [], [], [], [], [], []⟩

/-- `count` numbers of `size` bytes from an offset on. -/
def numsAt (b : List Byte) (o size count : Nat) : List Nat :=
  (List.range count).map fun k => leNat ((b.drop (o + k * size)).take size)

/-- `count` rows of `len` numbers whose rows lie `step` bytes apart. -/
def tableAt (b : List Byte) (o step size len count : Nat) : List (List Nat) :=
  (List.range count).map fun i => numsAt b (o + i * step) size len

def unpackDelta (g : Geo) (kind : Nat) (b : List Byte) : Delta :=
  let n := leNat (b.take 4)
  let d := { Delta.empty with n := n }
  if kind = kFull ∨ kind = kAppend then { d with rows := tableAt b 16 g.w g.e g.dim0 n }
  else if kind = kRows then
    { d with idx := numsAt b 16 4 n, rows := tableAt b (16 + roundUp16 (4 * n)) g.w g.e g.dim0 n }
  else if kind = kElems then
    { d with elems := (List.range n).map fun k => (leNat ((b.drop (16 + 8 * k)).take 4), leNat ((b.drop (20 + 8 * k)).take 4)) }
  else if kind = kLowrank then
    { d with u := tableAt b 16 (2 * n) 2 n g.cap, v := tableAt b (16 + roundUp16 (2 * g.cap * n)) (2 * n) 2 n g.dim0 }
  else if kind = kResid then
    let cw := roundUp16 g.dim0
    let sw := roundUp16 (ceilDiv g.dim0 32)
    { d with codes := tableAt b 16 cw 1 g.dim0 g.cap, scales := tableAt b (16 + g.cap * cw) sw 1 (ceilDiv g.dim0 32) g.cap }
  else d

def padTo (n : Nat) (b : List Byte) : List Byte := b ++ List.replicate (n - b.length) 0

def packNums (size : Nat) (l : List Nat) : List Byte := l.foldr (fun x acc => leBytes size x ++ acc) []

/-- A row of codes in its row bytes, pad bytes zero. -/
def packRow (g : Geo) (r : List Nat) : List Byte := padTo g.w (packNums g.e r)

def packRows (g : Geo) (rs : List (List Nat)) : List Byte := rs.foldr (fun r acc => packRow g r ++ acc) []

def packTable (size step : Nat) (rs : List (List Nat)) : List Byte :=
  rs.foldr (fun r acc => padTo step (packNums size r) ++ acc) []

def padded16 (b : List Byte) : List Byte := padTo (roundUp16 b.length) b

def packDelta (g : Geo) (kind : Nat) (d : Delta) : List Byte :=
  let head := padTo 16 (leBytes 4 d.n)
  if kind = kFull ∨ kind = kAppend then head ++ packRows g d.rows
  else if kind = kRows then head ++ padded16 (packNums 4 d.idx) ++ packRows g d.rows
  else if kind = kElems then head ++ d.elems.foldr (fun x acc => leBytes 4 x.1 ++ leBytes 4 x.2 ++ acc) []
  else if kind = kLowrank then head ++ padded16 (packTable 2 0 d.u) ++ packTable 2 0 d.v
  else if kind = kResid then
    head ++ packTable 1 (roundUp16 g.dim0) d.codes ++ packTable 1 (roundUp16 (ceilDiv g.dim0 32)) d.scales
  else []

/-- A node's delta; an error in it is handled under R241. -/
def readDelta (pt : Party) (x : Nat × Node) (g : Geo) : Loam Delta := do
  if x.2.kind = kEmpty ∨ x.2.bytes = 0 then pure Delta.empty
  else
    let b ← readGlobal pt x.2.delta x.2.bytes
    if eBad b then damaged pt x.1 x.2 x.2.delta else pure (unpackDelta g x.2.kind (b.map (·.1)))

/-! ### Resolution (R233) -/

/-- The exact sum of products, as FP32() takes it. -/
def exactSum (l : List Num) : Num :=
  match l with
  | [] => Num.zero
  | x :: rest => rest.foldl Num.add x

def productAt (us vs : List Nat) (k : Nat) : Num := (bf16.decode (us.getD k 0)).mul (bf16.decode (vs.getD k 0))

/-- Round(FP32(v + d), fmt, RNE). -/
def addRounded (f : Fmt) (v d : Nat) : Nat :=
  convert (f32Value (toF32 ((f.decode v).add (f32Value d)))) f modeRNE false 0

/-- The correction of LOWRANK at a row and column. -/
def lowrankAt (d : Delta) (i j : Nat) : Nat :=
  toF32 (exactSum ((List.range d.n).map fun k => productAt (d.u.getD i []) (d.v.getD j []) k))

/-- The signed extended binary8 format with precision 4 of residual codes. -/
def b8p4 : Fmt := .b8 4 true true

def residNum (d : Delta) (i j : Nat) : Num :=
  (b8p4.decode ((d.codes.getD i []).getD j 0)).mul (e8sValue ((d.scales.getD i []).getD (j / 32) 0))

def mapCells (v : List (List Nat)) (f : Nat → Nat → Nat → Nat) : List (List Nat) :=
  (List.range v.length).map fun i =>
    let r := v.getD i []
    (List.range r.length).map fun j => f i j (r.getD j 0)

/-- One node's delta applied to the value so far. -/
def applyDelta (g : Geo) (n : Node) (d : Delta) (v : List (List Nat)) : List (List Nat) :=
  let out :=
    if n.kind = kFull then d.rows
    else if n.kind = kRows then
      (List.range d.n).foldl (fun v k => v.set (d.idx.getD k v.length) (d.rows.getD k [])) v
    else if n.kind = kElems then
      d.elems.foldl (fun v x => v.set (x.1 / g.dim0) ((v.getD (x.1 / g.dim0) []).set (x.1 % g.dim0) x.2)) v
    else if n.kind = kLowrank then mapCells v fun i j x => addRounded g.fmt x (lowrankAt d i j)
    else if n.kind = kResid then mapCells v fun i j x => addRounded g.fmt x (toF32 (residNum d i j))
    else if n.kind = kAppend then v ++ d.rows.take (n.rows - v.length)
    else v
  out.take n.rows

/-- The value of the nodes of a chain, applied in order. -/
def resolveFrom (pt : Party) (g : Geo) : List (Nat × Node) → List (List Nat) → Loam (List (List Nat))
  | [], v => pure v
  | x :: rest, v => do
    let d ← readDelta pt x g
    resolveFrom pt g rest (applyDelta g x.2 d v)

/-- Resolve(h): rows of element codes. -/
def resolve (pt : Party) (x : Nat × Node) : Loam (Geo × List (List Nat)) := do
  let l ← chainOf pt x
  let g ← geometry pt x.2
  pure (g, ← resolveFrom pt g l [])

/-! ### The page pool (R231, R242) -/

def pageSize : Nat := 65536
def pagesOf (bytes : Nat) : Nat := ceilDiv bytes pageSize

/-- Pages that the deltas of used records occupy. -/
def usedPages (pt : Party) : Act (List Nat) := do
  let l ← usedNodes pt
  pure (l.foldr (fun x acc => (List.range (pagesOf x.2.bytes)).map (fun k => x.2.delta + pageSize * k) ++ acc) [])

def readPool (pt : Party) : Act (List Nat) := do
  let base ← poolList pt.job
  (List.range (← poolPages pt.job)).mapM fun k => readNum pt (base + 8 * k) 8

/-- The first page, in list order, of a free run of `k` pages. -/
def findRun (pool used : List Nat) (k : Nat) : Option Nat :=
  pool.find? fun a => (List.range k).all fun j => pool.contains (a + pageSize * j) && !used.contains (a + pageSize * j)

def freePageCount (job : Nat) : Act Nat := look fun p c => jobField p c job 0x28

/-- The job's count of free pages raised, a write of the task that an undoing takes back (R252, R355). -/
def addFreePages (pt : Party) (k : Int) : Act Unit := do
  let p ← read
  let n ← freePageCount pt.job
  onCore fun c => { setJobField p c pt.job 0x28 (wordOfInt (n + k)) with
    tasks := c.tasks.map fun t => if t.job = pt.job ∧ t.record = pt.task then { t with pages := t.pages + k } else t }

/-- `k.lareserve` (R129). -/
def reserveOf (job : Nat) : Act Nat := look fun p c => jobField p c job 0x18

/-- The page test: a strand's operation keeps the reserve, the stream engine's own may draw on it. DEDUCED (log 43). -/
def pageTest (pt : Party) (engine : Bool) (k : Nat) : Loam Nat := do
  if k = 0 then pure 0
  else
    let n ← freePageCount pt.job
    let keep ← reserveOf pt.job
    if n < k + (if engine then 0 else keep) then refuseWith lnNoSpace
    else
      match findRun (← readPool pt) (← usedPages pt) k with
      | some a => pure a
      | none => refuseWith lnNoSpace

/-- A node with a new delta: its pages written, the record changed, then the old pages freed (R242, R256). -/
def putDelta (pt : Party) (engine : Bool) (i : Nat) (n : Node) (g : Geo) (kind : Nat) (d : Delta) : Loam Node := do
  let b := if kind = kEmpty then [] else packDelta g kind d
  let a ← pageTest pt engine (pagesOf b.length)
  writeGlobal pt a (b.map fun x => (x, false))
  let n' := { n with kind := kind, delta := a, bytes := b.length, rank := if kind = kLowrank then d.n else 0 }
  writeNode pt i n'
  addFreePages pt ((pagesOf n.bytes : Int) - pagesOf b.length)
  pure n'

/-! ### Records (R227) -/

/-- The first FREE record of `n` from an index on; each record that is read is checked (R228). -/
def freeFrom (pt : Party) : Nat → Nat → Loam (Nat × Nat)
  | _, 0 => refuseWith lnNoSpace
  | i, n + 1 => do
    let x ← readNode pt i
    if x.state = nsFree then pure (i, x.gen) else freeFrom pt (i + 1) n

/-- The FREE record with the lowest index. -/
def freeRecord (pt : Party) : Loam (Nat × Nat) := do freeFrom pt 1 ((← tableEntries pt.job) - 1)

/-- A node's child count changed by one, and a RETIRED node at 0 freed, up the chain (R239). DEDUCED (log 45). -/
def dropChild (pt : Party) : Nat → Nat → Loam Unit
  | 0, _ => pure ()
  | fuel + 1, h => do
    if h = 0 then pure ()
    else
      let i := indexOfHandle h
      let (n, _) ← rawNode pt i
      if n.state = nsRetired ∧ n.children ≤ 1 then
        writeNode pt i ⟨0, 0, 0, 0, 0, 0, 0, nsFree, 0, 0, (n.gen + 1) % 2 ^ 15, 0, 0, 0⟩
        addFreePages pt (pagesOf n.bytes)
        dropChild pt fuel n.parent
      else writeNode pt i { n with children := n.children - 1 }

/-- A record freed: every field zero but the generation, which steps on (R227). -/
def freeNode (pt : Party) (i : Nat) (n : Node) : Loam Unit := do
  writeNode pt i ⟨0, 0, 0, 0, 0, 0, 0, nsFree, 0, 0, (n.gen + 1) % 2 ^ 15, 0, 0, 0⟩
  addFreePages pt (pagesOf n.bytes)
  dropChild pt 16 n.parent

/-! ### Fork, flatten, rebase (R235 to R238) -/

/-- An EMPTY speculative child (R240, R250). -/
def forkNode (pt : Party) (mark : Bool) (i : Nat) (n : Node) : Loam Nat := do
  linCheck (decide (n.depth < 8)) lnDepth
  let (j, gen) ← freeRecord pt
  writeNode pt j ⟨n.handle i, n.shape, 0, 0, n.rows, kEmpty, n.depth + 1, nsSpec, if mark then 1 else 0, 0, gen, 0, 0, 0⟩
  let (m, _) ← rawNode pt i
  writeNode pt i { m with children := m.children + 1 }
  pure (handleOf gen j)

/-- Every depth below a node changed by the same amount. -/
def moveDepths (pt : Party) (l : List (Nat × Node)) (delta : Int) : Loam Unit :=
  l.forM fun x => writeNode pt x.1 { x.2 with depth := ((x.2.depth : Int) + delta).toNat }

/-- Pages of a FULL delta of a node's current rows (R250). -/
def fullPages (g : Geo) (n : Node) : Nat := pagesOf (16 + n.rows * g.w)

def flattenNode (pt : Party) (engine : Bool) (i : Nat) (n : Node) : Loam Unit := do
  if n.parent = 0 then pure ()
  else
    let (g, v) ← resolve pt (i, n)
    let below ← descendantsOf pt i
    let m ← putDelta pt engine i n g kFull { Delta.empty with n := n.rows, rows := v }
    dropChild pt 16 n.parent
    writeNode pt i { m with parent := 0, depth := 0 }
    moveDepths pt below (-(n.depth : Int))

/-- The rows that a node keeps when those of its parent change: one that is not of kind APPEND never holds more than its parent
(R234), and an APPEND node no more than it has stored behind them. DEDUCED (log 105). -/
def keptRows (n : Node) (old new : Nat) : Nat :=
  if n.kind = kAppend then min n.rows (new + (n.rows - old)) else min n.rows new

/-- The nodes of a list, each after its parent, with the rows that they keep; `known` gives the rows of their parents before and
after. -/
def keepRows : List (Nat × Nat × Nat) → List (Nat × Node) → List (Nat × Node)
  | _, [] => []
  | known, x :: rest =>
    match known.find? fun y => y.1 == indexOfHandle x.2.parent with
    | some (_, old, new) =>
      let r := keptRows x.2 old new
      (x.1, { x.2 with rows := r }) :: keepRows ((x.1, x.2.rows, r) :: known) rest
    | none => x :: keepRows known rest

/-- Nodes in order of depth. -/
def byDepth (l : List (Nat × Node)) : List (Nat × Node) :=
  (List.range 9).foldr (fun d acc => (l.filter fun x => x.2.depth == d) ++ acc) []

/-- A node under another parent: parent, depths and child counts (R237, R238), and the rows of the nodes below one whose own rows
were `old`. -/
def reparent (pt : Party) (i : Nat) (n : Node) (a old : Nat) : Loam Unit := do
  let below ← descendantsOf pt i
  let (pa, _) ← rawNode pt a
  writeNode pt i { n with parent := pa.handle a, depth := pa.depth + 1 }
  moveDepths pt (keepRows [(i, old, n.rows)] (byDepth below)) ((pa.depth : Int) + 1 - n.depth)
  let (pa, _) ← rawNode pt a
  writeNode pt a { pa with children := pa.children + 1 }
  dropChild pt 16 n.parent

/-- The delta that rebase keep chooses from the differing elements. -/
def keepDelta (g : Geo) (n : Node) (vh va : List (List Nat)) : Nat × Delta :=
  let cells := (List.range n.rows).foldr
    (fun i acc => ((List.range g.dim0).filterMap fun j =>
      if (vh.getD i []).getD j 0 = (va.getD i []).getD j 0 then none else some (i, j)) ++ acc) []
  if cells = [] then (kEmpty, Delta.empty)
  else if 4 * cells.length ≤ n.rows * g.dim0 then
    let es : List (Nat × Nat) := cells.map fun (x : Nat × Nat) => (x.1 * g.dim0 + x.2, (vh.getD x.1 []).getD x.2 0)
    (kElems, { Delta.empty with n := es.length, elems := es })
  else
    let rows := (List.range n.rows).filter fun i => cells.any fun (x : Nat × Nat) => x.1 == i
    (kRows, { Delta.empty with n := rows.length, idx := rows, rows := rows.map fun i => vh.getD i [] })

/-- Rebase keep (R237); `a` is a strict ancestor. -/
def rebaseKeep (pt : Party) (engine : Bool) (i : Nat) (n : Node) (a : Nat × Node) : Loam Unit := do
  let (g, vh) ← resolve pt (i, n)
  let (_, va) ← resolve pt a
  let (kind, d) := keepDelta g n vh va
  let m ← putDelta pt engine i n g kind d
  reparent pt i m a.1 n.rows

/-- Rows after rebase drop (R238): the rows of the new parent plus what an APPEND node had appended. -/
def dropRows (n p : Node) (oldParentRows : Nat) : Nat :=
  if n.kind = kAppend then p.rows + (n.rows - oldParentRows) else min n.rows p.rows

/-- Rebase drop: SHAPE for an APPEND node beyond the capacity, then DEPTH (R238, R250). -/
def rebaseDrop (pt : Party) (i : Nat) (n : Node) (a : Nat × Node) (cap : Nat) : Loam Unit := do
  let old ← if n.parent = 0 then pure 0 else do
    let (m, _) ← rawNode pt (indexOfHandle n.parent)
    pure m.rows
  let rows := dropRows n a.2 old
  linCheck (n.kind != kAppend || decide (rows ≤ cap)) lnShape
  let below ← descendantsOf pt i
  let deepest := below.foldl (fun x y => max x y.2.depth) n.depth
  linCheck (decide (a.2.depth + 1 + (deepest - n.depth) ≤ 8)) lnDepth
  reparent pt i { n with rows := rows } a.1 n.rows

/-! ### Deletion, commit, truncation (R239, R240, R243) -/

/-- 0 if the node is freed, 1 if it becomes RETIRED. -/
def deleteNode (pt : Party) (i : Nat) (n : Node) : Loam Nat := do
  if n.children = 0 then
    freeNode pt i n
    pure 0
  else
    writeNode pt i { n with state := nsRetired }
    pure 1

def commitNode (pt : Party) (x : Nat × Node) : Loam Unit := do
  let l ← chainOf pt x
  l.forM fun y => do
    let n := y.2
    let m := { n with flags := if n.cm then n.flags else n.flags + 2, state := if n.state = nsSpec then nsLive else n.state }
    writeNode pt y.1 (if y.1 = x.1 then { m with committed := m.rows } else m)

def truncateNode (pt : Party) (i : Nat) (n : Node) (t : Nat) : Loam Nat := do
  linCheck (n.children == 0) lnBusy
  let m := { n with rows := min n.rows t, committed := min n.committed t }
  if m ≠ n then writeNode pt i m else pure ()
  pure m.rows

end Sys2Proof.Machine
end

