-- ==== Sys2Proof/Machine/Lineage.lean ====
section
/-! DEFINITION. The scalar lineage instructions (R248 to R252) and the operations of the lineage engine (R253 to R261). -/

namespace Sys2Proof.Machine

open Sys2Proof

/-! ### Scalar members -/

/-- The status that a failed member returns (R249): a LOST resolution is −3. A node's shape record that no longer obeys R81, or is
poisoned, is −4: DESIGN CHOICE (log 129). -/
def failCode : LinFail → Int
  | .refuse c => c
  | .lost _ => lnBadHandle
  | .busy => lnBusy
  | .badShape => lnShape

/-- Pages for a member, and a FREE record where it makes a node, before anything is written (R242, R249). -/
def needRoom (pt : Party) (begun : Bool) (k : Nat) (record : Bool) : Loam Unit := do
  if record then
    let _ ← freeRecord pt
  let _ ← pageTest pt begun k

/-- The shapes of two nodes are the same (R232). -/
def sameShape (g h : Geo) : Bool := g.code == h.code && g.dim0 == h.dim0 && g.cap == h.cap

def linFork (pt : Party) (x : Nat × Node) : Loam Int := do
  pure (← forkNode pt false x.1 x.2)

/-- `lforkf`: a node at depth 8 is flattened first (R235). -/
def linForkFlat (pt : Party) (begun : Bool) (x : Nat × Node) : Loam Int := do
  if x.2.depth < 8 then linFork pt x
  else
    let g ← geometry pt x.2
    needRoom pt begun (fullPages g x.2) true
    flattenNode pt begun x.1 x.2
    let (n, _) ← rawNode pt x.1
    linFork pt (x.1, n)

def linFlat (pt : Party) (begun : Bool) (x : Nat × Node) : Loam Int := do
  flattenNode pt begun x.1 x.2
  pure (x.2.handle x.1)

def linKeep (pt : Party) (begun : Bool) (x a : Nat × Node) : Loam Int := do
  let l ← chainOf pt x
  linCheck (x.1 != a.1 && l.any (fun y => y.1 == a.1) && decide (x.2.rows ≤ a.2.rows)) lnShape
  rebaseKeep pt begun x.1 x.2 a
  pure (x.2.handle x.1)

def linDrop (pt : Party) (x a : Nat × Node) : Loam Int := do
  let l ← chainOf pt a
  let g ← geometry pt x.2
  let h ← geometry pt a.2
  linCheck (sameShape g h && !(l.any fun y => y.1 == x.1) && (!x.2.cm || a.2.cm)) lnShape
  rebaseDrop pt x.1 x.2 a g.cap
  pure (x.2.handle x.1)

/-- The field that `linfo` reads (R251). -/
def linInfo (pt : Party) (x : Nat × Node) (sel : Nat) : Loam Int := do
  let n := x.2
  match sel with
  | 0 => pure ((n.gen * 2 ^ 32 + n.flags * 2 ^ 24 + n.state * 2 ^ 16 + n.depth * 2 ^ 8 + n.kind : Nat) : Int)
  | 1 => pure n.parent
  | 2 => pure n.rows
  | 3 => pure n.children
  | 4 => pure n.bytes
  | 5 => pure n.committed
  | 6 => pure n.rank
  | 7 => pure n.shape
  | _ => do
    match (← chainOf pt x).head? with
    | some r => pure (r.2.handle r.1)
    | none => refuseWith lnBadHandle

/-- A member's checks in the order of R249, then its effect (R250). One that has begun has passed the page test, and the reserve is
not asked again (R242). -/
def linMember (pt : Party) (begun : Bool) (op : LinOp) (h x : Nat) : Loam Int := do
  let a ← accept pt h
  let b ← match op with
    | .rebk | .rebd => accept pt x
    | .fork | .forkf | .flat | .del | .cmt | .info => pure a
  match op with
  | .info => linInfo pt a x
  | .del => do
    chainUsable false (← chainOf pt a)
    pure (← deleteNode pt a.1 a.2)
  | .fork | .forkf | .flat | .rebk | .rebd | .cmt => do
    let l ← chainOf pt a
    let m ← if b.1 = a.1 then pure [] else chainOf pt b
    chainUsable true (l ++ m)
    match op with
    | .fork => linFork pt a
    | .forkf => linForkFlat pt begun a
    | .flat => linFlat pt begun a
    | .rebk => linKeep pt begun a b
    | .rebd => linDrop pt a b
    | .cmt | .del | .info => do
      commitNode pt a
      pure (a.2.handle a.1)

/-! ### Members of more than one step (R229, R236, R245) -/

/-- A node BUSY, with the state to restore (R228). -/
def busyNode (pt : Party) (i : Nat) : Act Unit := do
  let (n, _) ← rawNode pt i
  writeNode pt i { n with state := nsBusy, saved := n.state }

/-- A BUSY node back in its saved state. -/
def restoreNode (pt : Party) (i : Nat) : Act Unit := do
  let (n, _) ← rawNode pt i
  if n.state = nsBusy then writeNode pt i { n with state := n.saved, saved := 0 } else pure ()

/-- Whether a member's effect on a node, once it has passed its checks, takes more than one step: a flatten, and a rebase keep,
which write a new delta. DEDUCED (log 88). -/
def longMember (op : LinOp) (n : Node) : Bool :=
  match op with
  | .flat => n.parent != 0
  | .rebk => true
  | .forkf => n.depth == 8
  | .fork | .rebd | .del | .cmt | .info => false

/-- The status that rd takes. -/
def statusOf (r : Except LinFail Int) : Int :=
  match r with
  | .ok v => v
  | .error e => failCode e

/-- The party of a member under way. -/
def LinRun.party (r : LinRun) : Party :=
  ⟨r.key.job, home r.key.ctx, r.key.ctx, r.task, true⟩

/-- A member under way ends: its node leaves BUSY with the whole effect performed, for which everything that its checks found still
stands (log 118), but for what an error has destroyed (R241). The status that rd takes. -/
def endMember (r : LinRun) : Act Int := do
  restoreNode r.party r.node
  let v ← settled r.party (linMember r.party true r.op r.h.toNat r.x.toNat)
  onCore fun c => { c with members := c.members.filter fun y => !(y.key == r.key && y.stamp == r.stamp) }
  pure (statusOf v)

/-- A member under way ends without effect: its node leaves BUSY. -/
def abandonMember (r : LinRun) : Act Unit := do
  restoreNode r.party r.node
  onCore fun c => { c with members := c.members.filter fun y => !(y.key == r.key && y.stamp == r.stamp) }

/-- The member of a strand's instruction that is under way. -/
def memberOf (c : Core) (k : Key) (stamp : Nat) : Option LinRun := c.members.find? fun r => r.key == k && r.stamp == stamp

/-- A member performed at the home of its record: the status that rd takes. One whose effect takes more than one step makes
its node BUSY once its checks have passed, and is then under way. -/
def linStep (op : LinOp) (h x : Word) : Act Loaded := do
  let y ← me
  let (addr, stamp) ← issuing
  match memberOf (← get) y.key stamp with
  | some r => pure ⟨(wordOfInt (← endMember r)).toNat, none⟩
  | none =>
    let before ← get
    match ← settled y.homeParty (linMember y.homeParty false op h.toNat x.toNat) with
    | .error e => pure ⟨(wordOfInt (failCode e)).toNat, none⟩
    | .ok v => do
      if op != .info then needTurn y.key.job
      let after ← get
      let node := indexOfHandle h.toNat
      set before
      let (n, _) ← rawNode y.homeParty node
      if longMember op n then
        busyNode y.homeParty node
        onCore fun c => { c with members := c.members ++ [⟨y.key, y.task.toNat, y.station, addr, stamp, op, h, x, node⟩] }
        pure ⟨0, none⟩
      else
        set after
        pure ⟨(wordOfInt v).toNat, none⟩

/-- What a member brings: nothing yet while it is under way. -/
def memberResult (r : Access) : Act LlResult := do
  let y ← me
  let (_, stamp) ← issuing
  pure (if (memberOf (← get) y.key stamp).isSome then .pending else r.result wordOf)

/-- LinScalar of R248: a release towards the records, so that the strand's stores to multicast pages have returned before it (R162,
R245). -/
def lineageAct (op : LinOp) (d a b : Reg) (la : BitVec 4) : Act Unit := do
  lookaheadCheck [d] true
  let h ← readReg a
  let x ← readReg b
  if op == .info && decide (8 < x.toNat) then trapWith causeIll x
  else
    needReturned (← me).party
    let r ← accessMem (.lineage op h x) d true (linStep op h x)
    retireLong d la (← memberResult r)

def execLfork (d a : Reg) (la : BitVec 4) (s : State) : Outcome := runCore (lineageAct .fork d a .zr la) s
def execLforkf (d a : Reg) (la : BitVec 4) (s : State) : Outcome := runCore (lineageAct .forkf d a .zr la) s
def execLflat (d a : Reg) (la : BitVec 4) (s : State) : Outcome := runCore (lineageAct .flat d a .zr la) s
def execLrebk (d a b : Reg) (la : BitVec 4) (s : State) : Outcome := runCore (lineageAct .rebk d a b la) s
def execLrebd (d a b : Reg) (la : BitVec 4) (s : State) : Outcome := runCore (lineageAct .rebd d a b la) s
def execLdel (d a : Reg) (la : BitVec 4) (s : State) : Outcome := runCore (lineageAct .del d a .zr la) s
def execLcmt (d a : Reg) (la : BitVec 4) (s : State) : Outcome := runCore (lineageAct .cmt d a .zr la) s
def execLinfo (d a b : Reg) (la : BitVec 4) (s : State) : Outcome := runCore (lineageAct .info d a b la) s

/-! ### Commands: frame (R253, R254) -/

def lnForm (kinds : List (List Nat)) : CmdForm := ⟨2, 0, kinds, .all⟩
def lnRootForm : CmdForm := lnForm [[1, 4], [5], [0, 1, 2], [0], [0]]
def lnWrForm : CmdForm := lnForm [[6], [1, 4], [1, 4], [1, 2], [0]]
def lnWreForm : CmdForm := lnForm [[6], [1, 4], [1, 2], [0], [0]]
def lnLrForm : CmdForm := lnForm [[6], [1, 4], [1, 4], [1, 2], [0]]
def lnResForm : CmdForm := lnForm [[6], [1, 4], [1, 4], [0], [0]]
def lnAppForm : CmdForm := lnForm [[6], [1, 4], [1, 2], [0], [0]]
def lnTruncForm : CmdForm := lnForm [[6], [1, 2], [0], [0], [0]]
def lnRdForm : CmdForm := lnForm [[6], [1, 3, 4], [0, 1, 2], [0, 1, 2], [0]]

/-- A scalar status in the 48 result bits of a completion (R244). -/
def result48 (c : Int) : Nat := (c % (2 : Int) ^ 48).toNat

/-- How a command ends that a lineage operation refuses (R244); a BUSY node makes it wait. The result of LOST is 0: DESIGN CHOICE (log
128). A node's shape record that no longer obeys R81, or is poisoned, ends it FAULT with result 0: DESIGN CHOICE (log 129). -/
def failFinish (e : LinFail) : Act Finish :=
  match e with
  | .refuse c => pure ⟨if c = lnKind then stKind else stFault, result48 c, none⟩
  | .lost _ => pure ⟨stLost, 0, none⟩
  | .busy => stop (.hold .none)
  | .badShape => pure ⟨stFault, 0, none⟩

def runLoam (pt : Party) (a : Loam Finish) : Act Finish := do
  match ← settled pt a with
  | .ok f => pure f
  | .error e => failFinish e

/-- The node of a command: handle checks, then LOST, then BUSY (R254 steps 2 to 4). -/
def cmdNode (d : Cmd) (i : Nat) : Loam (Nat × Node) := do
  let x ← accept d.party (d.val i)
  chainUsable true (← chainOf d.party x)
  pure x

/-- A source of a command: covered, and read without poison; both failures are FAULT. A command that has made its node BUSY keeps
what it has read. -/
def sourceBytes (d : Cmd) (va n : Nat) : Act (List Byte) := do
  match d.sources.find? fun x => x.1 == va && x.2.length == n with
  | some x => pure x.2
  | none => do
    d.needCover va n 1
    let b ← readGlobal d.party va n
    check (!eBad b)
    onCore (updCmd d fun x => { x with sources := x.sources ++ [(va, b.map (·.1))] })
    pure (b.map (·.1))

/-! ### `ln.root` (R255) -/

/-- The address of source row `i`. -/
def sourceRow (x : Shape) (e i : Nat) : Nat :=
  let s1 := if x.stride 0 = 0 then x.dim 0 * e else x.stride 0
  let s2 := if x.stride 1 = 0 then s1 * x.dim 1 else x.stride 1
  let s3 := if x.stride 2 = 0 then s2 * x.dim 2 else x.stride 2
  x.base + i % x.dim 1 * s1 + i / x.dim 1 % x.dim 2 * s2 + i / (x.dim 1 * x.dim 2) * s3

def lnRootLoam (d : Cmd) : Loam Finish := do
  let out ← d.offset 0
  check (out % 8 == 0)
  d.needCover out 8 2
  let x ← d.shape 1
  match geoOf x with
  | none => refuseWith lnShape
  | some g =>
    linCheck (x.flags == 0 && x.scale == 0) lnShape
    let n := if d.kind 2 = 0 then g.cap else d.number 2
    linCheck (decide (n ≤ g.cap)) lnShape
    let rows ← (List.range n).mapM fun i => do pure (numsAt (← sourceBytes d (sourceRow x g.e i) (g.dim0 * g.e)) 0 g.e g.dim0)
    let (j, gen) ← freeRecord d.party
    let node : Node := ⟨0, d.val 1, 0, 0, n, kFull, 0, nsLive, 2, 0, gen, 0, 0, n⟩
    let _ ← putDelta d.party false j node g kFull { Delta.empty with n := n, rows := rows }
    writeResult d.party out (eBytes 8 (handleOf gen j))
    pure (finOk j)

def lnRootRun (d : Cmd) : Act Finish := runLoam d.party do
  let f ← lnRootLoam d
  needTurn d.job
  pure f

/-! ### Commands on a node (R254) -/

/-- A command on a node: once it has passed its checks it makes the node BUSY, which lasts until its effect is complete (R254). What
its checks found still stands then, but for what an error has destroyed (R241). -/
def lnWrite (d : Cmd) (a : Loam Finish) : Act Finish := do
  match d.begun with
  | some i => do
    restoreNode d.party i
    runLoam d.party a
  | none =>
    match ← settled d.party a with
    | .error e => failFinish e
    | .ok _ => do
      needTurn d.job
      let i := indexOfHandle (d.val 0)
      let sources := match (← get).activeCmds.find? fun x => x.seq == d.seq with
        | some x => x.sources
        | none => []
      let (n, _) ← rawNode d.party i
      stop (.begin i (← nodeAddr d.party i) n.state sources (← get).tlb)

/-! ### The writes (R256) -/

/-- The own checks that all writes share: KIND, then BUSY, then SHAPE for an integer format. -/
def writeChecks (x : Nat × Node) (g : Geo) (kind : Nat) : Loam Unit := do
  linCheck (x.2.kind == kEmpty || x.2.kind == kind) lnKind
  linCheck (x.2.children == 0) lnBusy
  linCheck (!(g.fmt.isInt && (kind == kLowrank || kind == kResid))) lnShape

/-- An association put in, in ascending order of its key; a later one replaces an earlier. -/
def putSorted {α : Type} (l : List (Nat × α)) (k : Nat) (v : α) : List (Nat × α) :=
  match l with
  | [] => [(k, v)]
  | (x, y) :: rest => if k < x then (k, v) :: (x, y) :: rest else if k = x then (k, v) :: rest else (x, y) :: putSorted rest k v

def lnWrLoam (d : Cmd) : Loam Finish := do
  let n := d.number 3
  let idxVa ← d.offset 2
  d.needCover idxVa (4 * n) 1
  let x ← cmdNode d 0
  if n = 0 then pure (finOk x.2.bytes)
  else
    let g ← geometry d.party x.2
    let srcVa ← d.offset 1
    d.needCover srcVa (n * g.w) 1
    writeChecks x g kRows
    let idx := numsAt (← sourceBytes d idxVa (4 * n)) 0 4 n
    linCheck (idx.all fun i => decide (i < g.cap)) lnShape
    let rows := tableAt (← sourceBytes d srcVa (n * g.w)) 0 g.w g.e g.dim0 n
    let old ← readDelta d.party x g
    let merged := (List.range n).foldl (fun l k => putSorted l (idx.getD k 0) (rows.getD k []))
      (old.idx.zip old.rows)
    let m ← putDelta d.party d.begun.isSome x.1 x.2 g kRows
      { Delta.empty with n := merged.length, idx := merged.map (·.1), rows := merged.map (·.2) }
    pure (finOk m.bytes)

def lnWreLoam (d : Cmd) : Loam Finish := do
  let n := d.number 2
  let va ← d.offset 1
  d.needCover va (8 * n) 1
  let x ← cmdNode d 0
  if n = 0 then pure (finOk x.2.bytes)
  else
    let g ← geometry d.party x.2
    writeChecks x g kElems
    let b ← sourceBytes d va (8 * n)
    let new := (List.range n).map fun k => (leNat ((b.drop (8 * k)).take 4), leNat ((b.drop (8 * k + 4)).take 4))
    linCheck (new.all fun y => decide (y.1 < g.cap * g.dim0) && decide (y.2 < 2 ^ (8 * g.e))) lnShape
    let old ← readDelta d.party x g
    let merged := new.foldl (fun l y => putSorted l y.1 y.2) old.elems
    let m ← putDelta d.party d.begun.isSome x.1 x.2 g kElems { Delta.empty with n := merged.length, elems := merged }
    pure (finOk m.bytes)

/-- Rows of two tables side by side. -/
def joinColumns (n : Nat) (a b : List (List Nat)) : List (List Nat) :=
  (List.range n).map fun i => a.getD i [] ++ b.getD i []

def lnLrLoam (d : Cmd) : Loam Finish := do
  let r := d.number 3
  let x ← cmdNode d 0
  if r = 0 then pure (finOk x.2.bytes)
  else
    let g ← geometry d.party x.2
    let uVa ← d.offset 1
    let vVa ← d.offset 2
    d.needCover uVa (2 * g.cap * r) 1
    d.needCover vVa (2 * g.dim0 * r) 1
    writeChecks x g kLowrank
    linCheck (decide (r ≤ 64) && decide (x.2.rank + r ≤ 64)) lnShape
    let u := tableAt (← sourceBytes d uVa (2 * g.cap * r)) 0 (2 * r) 2 r g.cap
    let v := tableAt (← sourceBytes d vVa (2 * g.dim0 * r)) 0 (2 * r) 2 r g.dim0
    let old ← readDelta d.party x g
    let m ← putDelta d.party d.begun.isSome x.1 x.2 g kLowrank
      { Delta.empty with n := x.2.rank + r, u := joinColumns g.cap old.u u, v := joinColumns g.dim0 old.v v }
    pure (finOk m.bytes)

def lnResLoam (d : Cmd) : Loam Finish := do
  let x ← cmdNode d 0
  let g ← geometry d.party x.2
  let cVa ← d.offset 1
  let sVa ← d.offset 2
  let cw := roundUp16 g.dim0
  let sn := ceilDiv g.dim0 32
  let sw := roundUp16 sn
  d.needCover cVa (g.cap * cw) 1
  d.needCover sVa (g.cap * sw) 1
  writeChecks x g kResid
  let codes := tableAt (← sourceBytes d cVa (g.cap * cw)) 0 cw 1 g.dim0 g.cap
  let scales := tableAt (← sourceBytes d sVa (g.cap * sw)) 0 sw 1 sn g.cap
  let m ← putDelta d.party d.begun.isSome x.1 x.2 g kResid { Delta.empty with n := g.cap, codes := codes, scales := scales }
  pure (finOk m.bytes)

def lnAppLoam (d : Cmd) : Loam Finish := do
  let n := d.number 2
  let x ← cmdNode d 0
  if n = 0 then pure (finOk x.2.rows)
  else
    let g ← geometry d.party x.2
    let va ← d.offset 1
    d.needCover va (n * g.w) 1
    writeChecks x g kAppend
    let below ← if x.2.parent = 0 then pure 0 else do
      let (p, _) ← rawNode d.party (indexOfHandle x.2.parent)
      pure p.rows
    linCheck (decide (x.2.rows + n ≤ g.cap) && decide (below ≤ x.2.rows)) lnShape
    let new := tableAt (← sourceBytes d va (n * g.w)) 0 g.w g.e g.dim0 n
    let old ← readDelta d.party x g
    let rows := old.rows.take (x.2.rows - below) ++ new
    let _ ← putDelta d.party d.begun.isSome x.1 { x.2 with rows := x.2.rows + n } g kAppend
      { Delta.empty with n := rows.length, rows := rows }
    pure (finOk (x.2.rows + n))

def lnTruncLoam (d : Cmd) : Loam Finish := do
  let x ← cmdNode d 0
  pure (finOk (← truncateNode d.party x.1 x.2 (d.number 1)))

/-! ### `ln.rd` (R258) -/

def lnRdLoam (d : Cmd) : Loam Finish := do
  let x ← cmdNode d 0
  let g ← geometry d.party x.2
  let first := if d.kind 2 = 0 then 0 else d.number 2
  let count := if d.kind 3 = 0 then x.2.rows - first else d.number 3
  let out ← if d.kind 1 = 3 then do
      let o := bitsOf (descWord d.tcw 1) 0 20
      check (decide (o + count * g.w ≤ stashSize))
      pure (Where.stash d.station o)
    else do
      let va ← d.offset 1
      d.needCover va (count * g.w) 2
      pure (Where.mem va)
  linCheck (decide (first + count ≤ x.2.rows)) lnShape
  if count = 0 then pure (finOk 0)
  else
    let (g, v) ← resolve d.party x
    landBytes d.party out none ((packRows g ((v.drop first).take count)).map fun b => (b, false))
    pure (finOk count)

def lnWrRun (d : Cmd) : Act Finish := lnWrite d (lnWrLoam d)
def lnWreRun (d : Cmd) : Act Finish := lnWrite d (lnWreLoam d)
def lnLrRun (d : Cmd) : Act Finish := lnWrite d (lnLrLoam d)
def lnResRun (d : Cmd) : Act Finish := lnWrite d (lnResLoam d)
def lnAppRun (d : Cmd) : Act Finish := lnWrite d (lnAppLoam d)
def lnTruncRun (d : Cmd) : Act Finish := lnWrite d (lnTruncLoam d)
def lnRdRun (d : Cmd) : Act Finish := lnWrite d (lnRdLoam d)

def execLnRoot (s : State) : Outcome := dieOp lnRootForm .lnRoot lnRootRun s
def execLnWr (s : State) : Outcome := dieOp lnWrForm .lnWr lnWrRun s
def execLnWre (s : State) : Outcome := dieOp lnWreForm .lnWre lnWreRun s
def execLnLr (s : State) : Outcome := dieOp lnLrForm .lnLr lnLrRun s
def execLnRes (s : State) : Outcome := dieOp lnResForm .lnRes lnResRun s
def execLnApp (s : State) : Outcome := dieOp lnAppForm .lnApp lnAppRun s
def execLnTrunc (s : State) : Outcome := dieOp lnTruncForm .lnTrunc lnTruncRun s
def execLnRd (s : State) : Outcome := dieOp lnRdForm .lnRd lnRdRun s

end Sys2Proof.Machine
end

