-- ==== Sys2Proof/Machine/Matrix.lean ====
section
/-! DEFINITION. The matrix engine (R282 to R292): its accumulators, operands (R284, R247, R182), block scales (R269), chunked
sums (R277), and corrected lineage products (R278). -/

namespace Sys2Proof.Machine

open Sys2Proof

/-! ### Commands that may end on the way with their effects kept -/

/-- An engine's run that can end early with what it has done so far. -/
abbrev Run := ExceptT Finish Act

def runRun (a : Run Finish) : Act Finish := do
  let r ← a.run
  match r with
  | .ok f | .error f => pure f

/-- A lineage read by another engine; `bad` is how a refusal ends the command (R247, R289). -/
def viaLoam {α : Type} (pt : Party) (bad : Int → Finish) (a : Loam α) : Run α := do
  let r ← (settled pt a : Act (Except LinFail α))
  match r with
  | .ok v => pure v
  | .error (.refuse c) => throw (bad c)
  | .error (.lost _) => throw ⟨stLost, 0, none⟩
  | .error .busy => (stop (.hold .none) : Act α)
  | .error .badShape => throw ⟨stFault, 0, none⟩

def plainFault : Int → Finish := fun _ => ⟨stFault, 0, none⟩
def codeFault : Int → Finish := fun c => ⟨stFault, result48 c, none⟩

/-! ### Accumulators (R282, R283) -/

def accKey (n r c : Nat) : Nat := 4096 * n + 64 * r + c

/-- Element (r, c) of an accumulator. -/
def accElem (s : Station) (n r c : Nat) : Nat :=
  match s.acc.find? fun x => x.1 == accKey n r c with
  | some (_, v) => v.toNat
  | none => 0

/-- The cells of an accumulator that are not zero, in ascending order, from a function of row and column. -/
def accCells (n : Nat) (f : Nat → Nat → Nat) : List (Nat × BitVec 32) :=
  (List.range 4096).filterMap fun k =>
    let v := BitVec.ofNat 32 (f (k / 64) (k % 64))
    if v = 0 then none else some (4096 * n + k, v)

/-- An accumulator replaced whole. -/
def setAcc (s : Station) (n : Nat) (f : Nat → Nat → Nat) : Station :=
  { s with acc := s.acc.filter (fun x => decide (x.1 < 4096 * n)) ++ accCells n f ++
      s.acc.filter (fun x => decide (4096 * (n + 1) ≤ x.1)) }

def putAcc (pid n : Nat) (f : Nat → Nat → Nat) : Act Unit := onCore fun c => c.updStation pid fun s => setAcc s n f

/-- The matrix engine released: no holder, and every element +0 (R282). -/
def Station.releaseMatrix (s : Station) : Station := { s with acc := [], accOwner := none }

/-- The engine taken for the command's task; a command of another task waits at the head of the queue (R282). -/
def takeMatrix (d : Cmd) : Act Unit := do
  match ((← get).station d.station).accOwner with
  | none => onCore fun c => c.updStation d.station fun s => { s with accOwner := some (d.job, d.task) }
  | some o => if o = (d.job, d.task) then pure () else stop (.hold .none)

/-- The accumulator that w3 names. -/
def accOf (d : Cmd) : Act Nat := do
  check (decide (d.number 0 ≤ 3))
  pure (d.number 0)

/-! ### Operands (R284) -/

/-- Where an operand's elements come from. -/
inductive MatSrc where
  | mem (base stride : Nat)
  | stash (base stride : Nat)
  | value (rows : List (List Nat))
  deriving DecidableEq, Repr

/-- A matrix operand: `rows` along dim1, `cols` along dim0. -/
structure MatOp where
  fmt : Fmt
  rows : Nat
  cols : Nat
  src : MatSrc
  scale : Nat
  /-- The layout that the record names (R182). -/
  span : Nat
  deriving DecidableEq, Repr

/-- The stash entries of an operand are SCRATCH (R284). -/
def stashOperand (d : Cmd) (x : Shape) (extent : Nat) : Act Unit := do
  check (decide (x.base + extent ≤ stashSize))
  let s := (← get).station d.station
  check ((entriesOf x.base extent).all fun i => (stashEntry s i).mapped.isNone)

/-- What R284 asks of a record's format, dims 2 and 3 and stride. -/
def recordFormat (x : Shape) : Act (Fmt × Nat) := do
  match fmtOf x.format with
  | none => faultCmd
  | some f =>
    let stride := if x.stride 0 = 0 then x.dim 0 * f.size else x.stride 0
    check (x.dim 2 == 1 && x.dim 3 == 1 && stride % f.size == 0)
    pure (f, stride)

/-- The checks of R284 on an operand whose data is no lineage node. -/
def plainOperand (d : Cmd) (x : Shape) (scaled source : Bool) : Act MatOp := do
  let (f, stride) ← recordFormat x
  check (x.base % f.size == 0)
  check (source || decide (x.dim 0 * f.size ≤ stride))
  check (x.scale == 0 || (scaled && f.isB8))
  let extent := (x.dim 1 - 1) * stride + x.dim 0 * f.size
  if x.stash then
    stashOperand d x extent
    pure ⟨f, x.dim 1, x.dim 0, .stash x.base stride, x.scale, x.span⟩
  else
    d.needCover x.base extent (if source then 1 else 2)
    pure ⟨f, x.dim 1, x.dim 0, .mem x.base stride, x.scale, 0⟩

/-- A source operand: the record's data, or Resolve of its handle with the format and dims of the node's own shape (R247). -/
def sourceOperand (d : Cmd) (i : Nat) (scaled : Bool) : Run MatOp := do
  let x ← d.shape i
  if x.lineage then
    let _ ← recordFormat x
    check (x.scale == 0)
    let (g, v) ← viaLoam d.party plainFault do
      let n ← accept d.party x.base
      chainUsable true (← chainOf d.party n)
      resolve d.party n
    check g.flat
    pure ⟨g.fmt, g.dim1, g.dim0, .value v, 0, 0⟩
  else plainOperand d x scaled true

/-- The layout that a record names is that of every stash entry that the first `c` elements of the first `r` rows lie in: a
mismatch is FAULT with the offset of the first such entry, and SWZ at the acquire (R182). The check is one of R284's, and so
precedes those that the operations add. DEDUCED (log 79). -/
def layoutCheck (d : Cmd) (o : MatOp) (r c : Nat) : Act Unit := do
  match o.src with
  | .stash base stride =>
    let s := (← get).station d.station
    let es := ((List.range r).map fun i => entriesOf (base + i * stride) (c * o.fmt.size)).foldr (· ++ ·) []
    match (es.filter fun i => entrySpan (stashEntry s i) != o.span).min? with
    | some i => endTrap stFault (i * 256) (some (causeSwz, wordOf (i * 256)))
    | none => pure ()
  | .mem _ _ | .value _ => pure ()

/-- An element of a lineage operand beyond the node's current rows: the specification states none, so it is a free value.
DESIGN CHOICE (log 87). -/
def freeElem (f : Fmt) : Act (Nat × Bool) := do pure ((← freeValue).toNat % 2 ^ (8 * f.size), false)

/-- A global operand read by the tile fetch unit, line by line; each line stays in L2 until the command has ended (R285). -/
def readTile (d : Cmd) (va n : Nat) : Act (List EByte) := do
  let parts ← (chunksOf va n 64).mapM fun x => do
    let b ← readChunk d.party x.1 x.2
    onCore fun c => { c with fetched := (d.job, lineOf x.1) :: c.fetched }
    pure b
  pure (parts.foldr (· ++ ·) [])

/-- The lines that a command has fetched are held no longer; they have been used until now (R285, R379). -/
def releaseTiles (a : Act Finish) : Act Finish := do
  let f ← a
  onCore fun c => { c.fetched.foldl (fun c x => useLine x.1 (64 * x.2) c) c with fetched := [] }
  pure f

/-- The first `c` elements of the first `r` rows, with poison. -/
def loadElems (d : Cmd) (o : MatOp) (r c : Nat) : Act (List (List (Nat × Bool))) :=
  let cells (b : List EByte) : List (Nat × Bool) := (elements o.fmt.size b).map fun e => (eNat e, eBad e)
  match o.src with
  | .value v => (List.range r).mapM fun i =>
      match v[i]? with
      | some row => pure ((row.take c).map fun x => (x, false))
      | none => (List.range c).mapM fun _ => freeElem o.fmt
  | .mem base stride => (List.range r).mapM fun i => do
      pure (cells (← readTile d (base + i * stride) (c * o.fmt.size)))
  | .stash base stride => (List.range r).mapM fun i => do
      pure (cells (← readStash d.station (base + i * stride) (c * o.fmt.size)))

/-- An operand word is poisoned: every element of the accumulator becomes the canonical NaN (R292), once all operands have been
read (R283). -/
def poisonAcc {α : Type} (d : Cmd) (n : Nat) : Run α := do
  putAcc d.station n fun _ _ => f32Nan
  throw ⟨stFault, 0, none⟩

/-- The scale table of an operand lies in the captured segments: ⌈K ÷ 32⌉ bytes for each index of its other dimension (R269,
R284). -/
def scaleCheck (d : Cmd) (o : MatOp) (other k : Nat) : Act Unit :=
  if o.scale = 0 then pure () else d.needCover o.scale (other * ceilDiv k 32) 1

/-- The scale table of an operand (R269), and whether it is poisoned. -/
def loadScales (d : Cmd) (o : MatOp) (other k : Nat) : Act (Option (List (List Nat)) × Bool) := do
  if o.scale = 0 then pure (none, false)
  else
    let per := ceilDiv k 32
    let b ← readTile d o.scale (other * per)
    pure (some (tableAt (b.map (·.1)) 0 per 1 per other), eBad b)

/-- The vectors along K of an operand, one for each index of the other dimension, scaled, and whether one of its words is
poisoned; `alongCols` says that K runs along dim0. -/
def loadVectors (d : Cmd) (o : MatOp) (alongCols : Bool) (other k : Nat) : Act (List (List Num) × Bool) := do
  let (scales, bad) ← loadScales d o other k
  let cells ← if alongCols then loadElems d o other k else loadElems d o k other
  let vectors := (List.range other).map fun i => (List.range k).map fun j =>
    let code := ((if alongCols then (cells.getD i []).getD j (0, false) else (cells.getD j []).getD i (0, false))).1
    let v := o.fmt.decode code
    match scales with
    | none => v
    | some t => v.mul (e8sValue ((t.getD i []).getD (j / 32) 0))
  pure (vectors, bad || cells.any fun row => row.any (·.2))

/-! ### Chunked sums (R277) -/

/-- Elements to a chunk, by the wider of two operands. -/
def chunkSize (f g : Fmt) : Nat :=
  let w := max f.size g.size
  if w = 1 then 64 else if w = 2 then 32 else 16

/-- The limit on K of one command (R288). -/
def kLimit (f g : Fmt) : Nat :=
  let w := max f.size g.size
  if w = 1 then 16384 else if w = 2 then 8192 else 1024

/-- ⌊log2 |p|⌋ of a nonzero finite product. -/
def numLog : Num → Option Int
  | .fin _ m e => if m = 0 then none else some ((Nat.log2 m : Int) + e)
  | .nan | .inf _ => none

/-- A finite product truncated towards zero to a multiple of 2^q, in those multiples. -/
def truncNum (q : Int) : Num → Int
  | .fin neg m e => if neg then -((scale2 m (e - q) : Nat) : Int) else ((scale2 m (e - q) : Nat) : Int)
  | .nan | .inf _ => 0

/-- The sum of one chunk, as a binary32 code. -/
def chunkSum (ps : List Num) : Nat :=
  let infs := ps.filterMap fun p => match p with | .inf s => some s | .nan | .fin _ _ _ => none
  if ps.any Num.isNaN || (infs.contains true && infs.contains false) then f32Nan
  else
    match infs with
    | s :: _ => toF32 (.inf s)
    | [] =>
      match ps.filterMap numLog with
      | [] => 0
      | x :: rest =>
        let q := rest.foldl max x - 47
        let total := ps.foldl (fun acc p => acc + truncNum q p) 0
        if total = 0 then 0 else toF32 (.fin (decide (total < 0)) total.natAbs q)

/-- Chunks(y, x, w): the chunks of the products added to y in order. -/
def chunkLoop (kc : Nat) : Nat → List Num → Nat → Nat
  | 0, _, y => y
  | fuel + 1, ps, y =>
    match ps with
    | [] => y
    | _ :: _ => chunkLoop kc fuel (ps.drop kc) (f32Add y (chunkSum (ps.take kc)))

def chunks (kc y : Nat) (xs ws : List Num) : Nat :=
  let ps := xs.zipWith Num.mul ws
  chunkLoop kc ps.length ps y

/-! ### `mx.zero` and `mx.mma` (R287, R288) -/

def mxForm (flags : Nat) (kinds : List (List Nat)) : CmdForm := ⟨3, flags, kinds, .all⟩
def mxZeroForm : CmdForm := mxForm 0 [[2], [0], [0], [0], [0]]
def mxMmaForm : CmdForm := mxForm 3 [[2], [5], [5], [0, 1, 2], [0]]
def mxLinForm : CmdForm := mxForm 1 [[2], [5], [1, 4], [0, 1, 2], [0]]
def mxStForm : CmdForm := mxForm 1 [[2], [5], [0, 66], [0], [0]]
def mxLdForm : CmdForm := mxForm 0 [[2], [5], [0], [0], [0]]

def mxZeroRun (d : Cmd) : Act Finish := do
  let n ← accOf d
  putAcc d.station n fun _ _ => 0
  pure (finOk 0)

/-- The K extent and the other extent of an operand. -/
def extents (o : MatOp) (alongCols : Bool) : Nat × Nat := if alongCols then (o.cols, o.rows) else (o.rows, o.cols)

/-- The layout check of the elements that a product over K reads. -/
def layoutOf (d : Cmd) (o : MatOp) (alongCols : Bool) (other k : Nat) : Act Unit :=
  if alongCols then layoutCheck d o other k else layoutCheck d o k other

def mxMma (d : Cmd) : Run Finish := do
  let n ← accOf d
  let a ← sourceOperand d 1 true
  let b ← sourceOperand d 2 true
  let aCols := !d.flag 0
  let bCols := d.flag 1
  let (ak, m) := extents a aCols
  let (bk, cols) := extents b bCols
  let k := if d.kind 3 = 0 then ak else d.number 3
  scaleCheck d a m k
  scaleCheck d b cols k
  layoutOf d a aCols m (min k ak)
  layoutOf d b bCols cols (min k bk)
  check (decide (m ≤ 64) && decide (cols ≤ 64))
  check (decide (k ≤ ak) && decide (k ≤ bk) && decide (k ≤ kLimit a.fmt b.fmt))
  if k = 0 then pure (finOk 0)
  else
    let (xs, badA) ← loadVectors d a aCols m k
    let (ws, badB) ← loadVectors d b bCols cols k
    if badA || badB then poisonAcc d n
    let s := (← get).station d.station
    let kc := chunkSize a.fmt b.fmt
    putAcc d.station n fun r c =>
      if r < m ∧ c < cols then chunks kc (accElem s n r c) (xs.getD r []) (ws.getD c []) else accElem s n r c
    pure (finOk k)

def mxMmaRun (d : Cmd) : Act Finish := releaseTiles (runRun (mxMma d))

/-! ### `mx.lin` (R278, R289) -/

/-- One node after the ancestor, with its delta and its resolved value. -/
structure LinNode where
  index : Nat
  node : Node
  delta : Delta
  value : List (List Nat)
  deriving DecidableEq, Repr

/-- Column `c` of a value, its first k rows. -/
def columnOf (f : Fmt) (v : List (List Nat)) (k c : Nat) : List Num :=
  (List.range k).map fun i => f.decode ((v.getD i []).getD c 0)

/-- The rank terms t of a LOWRANK node for one row of X. -/
def rankTerms (xf : Fmt) (d : Delta) (k : Nat) (x : List Num) : List Num :=
  (List.range d.n).map fun r =>
    f32Value (chunks (chunkSize xf bf16) 0 x ((List.range k).map fun i => bf16.decode ((d.u.getD i []).getD r 0)))

/-- The correction of one node for one row: the columns of y (R278). -/
def linCorrect (xf wf : Fmt) (k : Nat) (y0 : List Nat) (x : List Num) (y : List Nat) (n : LinNode) : List Nat :=
  let d := n.delta
  let kc := chunkSize xf wf
  let again (c : Nat) : Nat := chunks kc (y0.getD c 0) x (columnOf wf n.value k c)
  let each (f : Nat → Nat → Nat) : List Nat := (List.range y.length).map fun c => f c (y.getD c 0)
  if n.node.kind = kFull then each fun c _ => again c
  else if n.node.kind = kRows then
    if d.idx.any fun i => decide (i < n.node.rows) then each fun c _ => again c else y
  else if n.node.kind = kElems then
    let cols := (d.elems.filter fun e => decide (e.1 / y.length < n.node.rows)).map fun e => e.1 % y.length
    each fun c v => if cols.contains c then again c else v
  else if n.node.kind = kLowrank then
    let t := rankTerms xf d k x
    each fun c v => chunks 16 v t ((List.range d.n).map fun r => bf16.decode ((d.v.getD c []).getD r 0))
  else if n.node.kind = kResid then
    each fun c v => chunks (chunkSize xf b8p4) v x ((List.range k).map fun i => residNum d i c)
  else y

/-- The nodes of a chain from the ancestor on; none if the ancestor is not in it. -/
def tailFrom (a : Nat) : List (Nat × Node) → Option (List (Nat × Node))
  | [] => none
  | x :: rest => if x.1 = a then some (x :: rest) else tailFrom a rest

/-- The nodes after the ancestor, with deltas and values. -/
def loadTail (pt : Party) (g : Geo) (l : List (Nat × Node)) : Loam (List LinNode) :=
  l.mapM fun x => do
    let dl ← readDelta pt x g
    let (_, v) ← resolve pt x
    pure ⟨x.1, x.2, dl, v⟩

def mxLin (d : Cmd) : Run Finish := do
  let n ← accOf d
  -- 1. X, the block's reserved fields and its count.
  let xo ← sourceOperand d 1 true
  let xCols := !d.flag 0
  let (xk, m) := extents xo xCols
  let k := if d.kind 3 = 0 then xk else d.number 3
  scaleCheck d xo m k
  layoutOf d xo xCols m (min k xk)
  let block ← d.offset 2
  check (block % 64 == 0)
  d.needCover block 256 1
  let eb ← readTile d block 256
  if eBad eb then
    let _ ← loadVectors d xo xCols m (min k xk)
    poisonAcc d n
  let b := eb.map (·.1)
  let f (o len : Nat) : Nat := leNat ((b.drop o).take len)
  let count := f 0x08 4
  check (f 0x0C 4 == 0 && leNat (b.drop 0xD0) == 0 && decide (1 ≤ count) && decide (count ≤ 16))
  let map := (b.drop 0x90).take 64
  -- 2. Handles.
  let anc ← viaLoam d.party codeFault (accept d.party (f 0 8))
  let leaves ← (List.range count).mapM fun j => viaLoam d.party codeFault (accept d.party (f (0x10 + 8 * j) 8))
  -- 3. LOST, BUSY.
  let chainA ← viaLoam d.party codeFault (chainOf d.party anc)
  let chains ← leaves.mapM fun x => viaLoam d.party codeFault (chainOf d.party x)
  viaLoam d.party codeFault (chainUsable true (chainA ++ chains.foldr (· ++ ·) []))
  -- 4. SHAPE.
  let bad : Finish := codeFault lnShape
  let g ← viaLoam d.party codeFault (geometry d.party anc.2)
  let tails ← chains.mapM fun l => do
    match tailFrom anc.1 l with
    | none => throw bad
    | some t => do
      let ok ← t.mapM fun x => do
        let h ← viaLoam d.party codeFault (geometry d.party x.2)
        pure (sameShape g h && decide (k ≤ x.2.rows))
      if ok.all id then pure (t.drop 1) else throw bad
  if 64 < m ∨ 64 < g.dim0 ∨ xk < k ∨ kLimit xo.fmt g.fmt < k then throw bad
  if (map.take m).any fun x => x.toNat != 0xFF && decide (count ≤ x.toNat) then throw bad
  if k = 0 then pure (finOk 0)
  else
    let (xs, badX) ← loadVectors d xo xCols m k
    let (_, va) ← viaLoam d.party codeFault (resolve d.party anc)
    let nodes ← tails.mapM fun t => viaLoam d.party codeFault (loadTail d.party g t)
    if badX then poisonAcc d n
    let s := (← get).station d.station
    let row (r : Nat) : List Nat :=
      let y0 := (List.range g.dim0).map fun c => accElem s n r c
      let x := xs.getD r []
      let y := (List.range g.dim0).map fun c => chunks (chunkSize xo.fmt g.fmt) (y0.getD c 0) x (columnOf g.fmt va k c)
      (nodes.getD (map.getD r 0).toNat []).foldl (fun y l => linCorrect xo.fmt g.fmt k y0 x y l) y
    let rows := (List.range m).map fun r => if (map.getD r 0).toNat = 0xFF then [] else row r
    putAcc d.station n fun r c =>
      match (rows.getD r [])[c]? with
      | some v => v
      | none => accElem s n r c
    pure (finOk ((map.take m).filter fun x => x.toNat != 0xFF).length)

def mxLinRun (d : Cmd) : Act Finish := releaseTiles (runRun (mxLin d))

/-! ### `mx.st` and `mx.ld` (R290, R291) -/

/-- The destination of `mx.st`: no scale and no lineage. -/
def destOperand (d : Cmd) (i : Nat) : Act (Shape × MatOp) := do
  let x ← d.shape i
  check (!x.lineage && x.scale == 0)
  pure (x, ← plainOperand d x false false)

/-- A row of bytes at each stride; rows without a gap between them are one write. -/
def storeRows (d : Cmd) (x : Shape) (o : MatOp) (rows : List (List EByte)) : Act Unit := do
  let span : Option (Fin 8) := if x.flags.testBit 2 then some ⟨x.swizzleCode % 8, Nat.mod_lt _ (by decide)⟩ else none
  match o.src with
  | .mem base stride =>
    if stride = o.cols * o.fmt.size then writeGlobal d.party base (rows.foldr (· ++ ·) [])
    else (List.range rows.length).forM fun i => writeGlobal d.party (base + i * stride) (rows.getD i [])
  | .stash base stride =>
    if stride = o.cols * o.fmt.size then writeStash d.task d.station base span (rows.foldr (· ++ ·) [])
    else (List.range rows.length).forM fun i => writeStash d.task d.station (base + i * stride) span (rows.getD i [])
  | .value _ => pure ()

/-- The row-major index of the first element whose word is poisoned. -/
def firstPoisoned (d : Cmd) (o : MatOp) : Act (Option Nat) := do
  let cells ← loadElems d o o.rows o.cols
  pure ((List.range (o.rows * o.cols)).find? fun k =>
    match (cells.getD (k / o.cols) [])[k % o.cols]? with
    | some x => x.2
    | none => false)

/-- The accumulator converted and stored (R290). -/
def mxSt (d : Cmd) : Act Finish := do
  drawGate d
  let n ← accOf d
  let (x, o) ← destOperand d 1
  check (decide (o.rows ≤ 64) && decide (o.cols ≤ 64))
  let w := if d.kind 2 = 0 then 0 else descImm d.tcw 2
  check (bitsOf w 0 12 == 0 && bitsOf w 16 12 == 0)
  let mode ← roundingOf d (bitsOf w 12 3)
  let draw ← if mode = modeRSR then reserveDraws d (o.rows * o.cols) else pure (fun _ => 0)
  let s := (← get).station d.station
  let rows := (List.range o.rows).map fun r =>
    ((List.range o.cols).map fun c =>
      eBytes o.fmt.size (convert (f32Value (accElem s n r c)) o.fmt mode (w.testBit 15) (draw (r * o.cols + c)))).foldr
        (· ++ ·) []
  storeRows d x o rows
  if d.flag 0 then putAcc d.station n fun _ _ => 0
  match ← firstPoisoned d o with
  | some i => pure ⟨stFault, i, none⟩
  | none => pure (finOk (o.rows * o.cols))

def mxStRun (d : Cmd) : Act Finish := releaseTiles (mxSt d)

def mxLd (d : Cmd) : Run Finish := do
  let n ← accOf d
  let o ← sourceOperand d 1 false
  layoutCheck d o o.rows o.cols
  check (decide (1 ≤ o.rows) && decide (o.rows ≤ 64) && decide (1 ≤ o.cols) && decide (o.cols ≤ 64))
  let cells ← loadElems d o o.rows o.cols
  if cells.any fun row => row.any (·.2) then poisonAcc d n
  else
    putAcc d.station n fun r c =>
      match (cells.getD r [])[c]? with
      | some (x, _) => toF32 (o.fmt.decode x)
      | none => 0
    pure (finOk (o.rows * o.cols))

def mxLdRun (d : Cmd) : Act Finish := releaseTiles (runRun (mxLd d))

/-- A turn of a station's matrix engine: the command at the head takes the engine for its task, or waits (R282). -/
def runMatrix (op : Instr) (body : Cmd → Act Finish) (pid : Nat) (s : State) : Outcome :=
  match stationNext s.core pid 3 with
  | none => .next s
  | some d =>
    if d.op = op then
      match takeMatrix d s.plat s.core with
      | .ok (_, c) => runCmd 3 d (body d) { s with core := c }
      | .error _ => .next s
    else .next s

/-- A command of the matrix engine: its push for a strand, or its execution for the engine. -/
def matrixOp (f : CmdForm) (op : Instr) (body : Cmd → Act Finish) (s : State) : Outcome :=
  match s.core.work with
  | .engine unit => runMatrix op body unit s
  | .idle | .strand _ _ _ _ _ | .event _ => runCore (pushAct f op) s

def execMxZero (s : State) : Outcome := matrixOp mxZeroForm .mxZero mxZeroRun s
def execMxMma (s : State) : Outcome := matrixOp mxMmaForm .mxMma mxMmaRun s
def execMxLin (s : State) : Outcome := matrixOp mxLinForm .mxLin mxLinRun s
def execMxSt (s : State) : Outcome := matrixOp mxStForm .mxSt mxStRun s
def execMxLd (s : State) : Outcome := matrixOp mxLdForm .mxLd mxLdRun s

end Sys2Proof.Machine
end

