-- ==== Sys2Proof/Machine/Task.lean ====
section
/-! DEFINITION. The task instructions (R206 to R210, R213), the context pool (R35, R207), and domains (R200). -/

namespace Sys2Proof.Machine

open Sys2Proof

/-! ### The context pool (R35, R207) -/

def poolBase (p : Platform) (c : Core) (job : Nat) : Nat := jobField p c job 0x30
def poolFrames (p : Platform) (c : Core) (job : Nat) : Nat := jobField p c job 0x38 / 1024

/-- The frames of a pool that hold one of some addresses, added to a rising list. -/
def addFrames (base frames : Nat) (l addrs : List Nat) : List Nat :=
  addrs.foldl (fun l a => if base ≤ a ∧ (a - base) / 1024 < frames then risingSet l ((a - base) / 1024) true else l) l

/-- The frames that live records or join cells occupy, rising. -/
def usedFrames (p : Platform) (c : Core) (job : Nat) : List Nat :=
  let records := (c.strands.filter fun x => x.live && x.key.job == job).map (·.key.ctx)
  let cells := (c.joinCells.filter fun k => k.job == job).map (·.ctx)
  addFrames (poolBase p c job) (poolFrames p c job) (addFrames (poolBase p c job) (poolFrames p c job) [] records) cells

def freeFrames (p : Platform) (c : Core) (job : Nat) : Nat := poolFrames p c job - (usedFrames p c job).length

/-- The `x`-th number that a rising list does not hold. -/
def nthFree (used : List Nat) (x : Nat) : Nat := used.foldl (fun i u => if u ≤ i then i + 1 else i) x

/-- A frame for a new record: which free frame is not part of the architecture. DESIGN CHOICE (log 15). -/
def takeFrame (job : Nat) : Act Nat := do
  let n ← look fun p c => freeFrames p c job
  let v ← freeValue
  let used ← look fun p c => usedFrames p c job
  let base ← look fun p c => poolBase p c job
  pure (base + 1024 * nthFree used (v.toNat % n))

/-- Free join cells of frames that cells occupy already. -/
def partialCells (c : Core) (job : Nat) : List Nat :=
  let cells := (c.joinCells.filter fun k => k.job == job).map (·.ctx)
  let frames := cells.foldl (fun l a => risingSet l (a / 1024) true) []
  (frames.foldr (fun f acc => (List.range 16).map (fun k => f * 1024 + 64 * k) ++ acc) []).filter fun a => !cells.contains a

/-- Whether the pool can hold `n` records and one join cell. -/
def poolHolds (p : Platform) (c : Core) (job n : Nat) : Bool :=
  decide (n + (if (partialCells c job).isEmpty then 1 else 0) ≤ freeFrames p c job)

/-- A fresh join cell, while `n` records more are to be held; which free cell is not part of the architecture. DESIGN
CHOICE (log 15). -/
def takeCell (job n : Nat) : Act Nat := do
  let spare ← look fun _ c => partialCells c job
  let free ← look fun p c => freeFrames p c job
  let used ← look fun p c => usedFrames p c job
  let base ← look fun p c => poolBase p c job
  let v := (← freeValue).toNat
  let fresh := if n < free then free else 0
  let i := v / 16 % (spare.length + fresh)
  let cell := if i < spare.length then spare.getD i 0 else base + 1024 * nthFree used (i - spare.length) + 64 * (v % 16)
  onCore fun c => { c with joinCells := ⟨job, cell⟩ :: c.joinCells }
  pure cell

/-! ### Domains (R200) -/

/-- The quadrant of a logical station within its die (R10). -/
def quadrantOf (l : Nat) : Nat := 2 * (if 5 ≤ l % 160 / 16 then 1 else 0) + (if 8 ≤ l % 16 then 1 else 0)

/-- The logical stations that a domain field names; none for a level or index out of range. -/
def domainStations (d : Nat) : Option (List Nat) :=
  let i := d % 4096
  match d / 4096 with
  | 0 => if i = 0 then some (List.range 640) else none
  | 1 => if i < 4 then some ((List.range 160).map (· + 160 * i)) else none
  | 2 =>
    if i < 16 then some (((List.range 160).map (· + 160 * (i / 4))).filter fun l => quadrantOf l == i % 4) else none
  | 3 => if i < 40 then some ((List.range 16).map (· + 16 * i)) else none
  | 4 => if i < 640 then some [i] else none
  | _ => none

/-- A domain's mapped stations, physical, in ascending logical order; none if the domain is not valid. -/
def domainMapped (p : Platform) (c : Core) (job d : Nat) : List Nat :=
  match domainStations d with
  | some l => l.filterMap (stationOf p c job)
  | none => []

/-! ### Creating strands -/

/-- A strand whose record holds nothing yet: every register full and zero, not activated (R202). DESIGN CHOICE (log
3). -/
def Strand.fresh (k : Key) (station : Nat) : Strand where
  key := k
  g := Vector.replicate 16 0
  mask := 0xFFFF
  mode := 0
  pc := 0
  loopStart := 0
  loopEnd := 0
  loopCount := 0
  ops := []
  window := 0
  engines := 0
  fa := 0
  fb := 0
  fc := 0
  fs := 0
  task := 0
  joinOrParent := 0
  roundPos := 0
  fpflags := 0
  rmode := 0
  outTarget := 0
  qbind := 0
  inHigh := Lane.empty
  inLow := Lane.empty
  segs := Vector.replicate 8 SegDesc.zero
  epc := 0
  cause := 0
  tval := 0
  savedMode := 0
  opc := 0
  lacount := 0
  engTrap := 0
  engTval := 0
  notes := Vector.replicate 16 .plain
  place := .stored
  parked := none
  since := 0
  station := station
  hold := .none
  lines := []
  badLines := []
  issues := 0
  dropped := none
  trapPend := none
  poison := []
  refusals := []
  stopping := false
  blocked := false

/-- What a new strand takes from its creator (R207, R209): task, segments, shadows, rounding mode, and the mode without
PIN and LOOP. -/
def Strand.childOf (x : Strand) (k : Key) (station : Nat) (pc parent : Word) : Strand :=
  { Strand.fresh k station with
    mode := modeSet (modeSet x.mode modePin false) modeLoop false
    pc := pc
    fa := x.fa
    fb := x.fb
    fc := x.fc
    fs := x.fs
    task := x.task
    joinOrParent := parent
    rmode := x.rmode
    segs := x.segs }

/-- The stations that a task has used, with one more. -/
def noteStation (job record pid : Nat) (c : Core) : Core :=
  { c with tasks := c.tasks.map fun t =>
      if t.job = job ∧ t.record = record then { t with stations := risingSet t.stations pid true } else t }

/-- The lines of a record that hold what R36 describes: 0x000 to 0x27F. -/
def recordLines : List Nat := [0, 1, 2, 3, 4, 5, 6, 7, 8, 9]

/-- A new strand's record written at its home (R379), and its activation queued at its station (R44). -/
def createStrand (p : Platform) (x : Strand) (c : Core) : Core :=
  let c := writeRecord p x.key recordLines (c.addStrand { x with since := c.seq }).tick
  let c := c.updStation x.station fun s => { s with activations := s.activations ++ [x.key] }
  noteStation x.key.job x.task.toNat x.station c

/-- Before a strand of a job is placed on a station, the station's entries of other jobs are evicted (R205). -/
def evictForeign (job pid : Nat) : Act Unit := do
  let s := (← get).station pid
  (s.entries.filter fun e => match e.mapped with | some (j, _) => j != job | none => false).forM fun e => do
    let _ ← unmapEntry pid e

/-- The same for each of the stations that strands of a job are to be placed on. -/
def evictFor (job : Nat) (places : List Nat) : Act Unit :=
  (places.foldl (fun l s => risingSet l s true) []).forM (evictForeign job)

/-! ### `rfork` (R207) -/

/-- The slots of a station that new participants may count on: less the contexts that take one before them. -/
def emptySlots (c : Core) (pid : Nat) : Nat :=
  let s := c.station pid
  let coming := ((residents c pid).filter fun x => x.place == .waiting || x.place == .activating).length
  (s.slots.toList.filter fun k => k.isNone).length - (coming + s.activations.length)

/-- The mapped stations of a forker's die in the order of R207, from its row on. -/
def forkOrder (p : Platform) (c : Core) (job l : Nat) : List Nat :=
  let base := l / 160 * 160
  let row := l / 16 * 16
  let east := (List.range (16 - l % 16)).map (· + l)
  let west := ((List.range (l % 16)).map (· + row)).reverse
  let quad := ((List.range 160).map (· + base)).filter fun m => quadrantOf m == quadrantOf l && m / 16 != l / 16
  let rest := ((List.range 160).map (· + base)).filter fun m => quadrantOf m != quadrantOf l && m / 16 != l / 16
  (east ++ west ++ quad ++ rest).filterMap (stationOf p c job)

/-- The mapped stations of the forker's die once round, from the forker's station on. -/
def forkRound (p : Platform) (c : Core) (job l : Nat) : List Nat :=
  ((List.range 160).map fun k => l / 160 * 160 + (l % 160 + k) % 160).filterMap (stationOf p c job)

/-- Where `n` participants go. A forker on a station outside the job's map has no logical number, and takes its physical number as
one: DESIGN CHOICE (log 107). -/
def forkPlaces (p : Platform) (c : Core) (job pid n : Nat) : List Nat :=
  let l := (logicalOf p c job pid).getD pid
  let slots := ((forkOrder p c job l).foldr (fun s acc => List.replicate (emptySlots c s) s ++ acc) []).take n
  let ring := forkRound p c job l
  slots ++ (List.range (n - slots.length)).map fun k => ring.getD (k % ring.length) pid

/-- The largest number of participants: `k.rgrain`, or 256 for 0. -/
def recruitCap (p : Platform) (c : Core) (job : Nat) : Nat :=
  let r := jobField p c job 0x20 % 65536
  if r = 0 then 256 else r

/-- The trip range of participant `j`. -/
def tripRange (c g q j : Nat) : Word × Word := (wordOf (j * q * g), wordOf (min c ((j + 1) * q * g)))

/-- The registers of a participant: its range, and the join cell in rd. -/
def Strand.withTrip (x : Strand) (d : Reg) (cell : Word) (r : Word × Word) : Strand :=
  let x := (x.setReg 1 r.1 true .plain).setReg 2 r.2 true .plain
  match gprOf d with
  | some n => x.setReg n cell true .plain
  | none => x

/-- A port as the destination takes the forker's word; a participant writes no port. DEDUCED (log 85). -/
def rforkAct (d a b : Reg) : Act Unit := do
  lookaheadCheck [d, .g 1, .g 2] false
  let room ← attempt (destReady d)
  let cv ← readReg a
  let gv ← readReg b
  raise room
  needDrained
  let p ← read
  let x ← me
  let pid ← myStation
  let job := x.key.job
  let c := cv.toNat
  let g := if gv = 0 then 1 else gv.toNat
  if (← get).cancelled.contains job then retire d (wordOfInt (-1))
  else if c = 0 then
    updMine fun y => (y.setReg 1 0 true .plain).setReg 2 0 true .plain
    retire d 0
  else
    let k := ceilDiv c g
    let q := ceilDiv k (min k (recruitCap p (← get) job))
    let n := ceilDiv k q
    if !poolHolds p (← get) job (n - 1) then retire d (wordOfInt (-2))
    else
      needReturned x.party
      let places := forkPlaces p (← get) job pid (n - 1)
      let cell ← takeCell job (n - 1)
      writeGlobal x.homeParty cell (eBytes 8 n ++ eBytes 8 x.key.ctx ++ eBytes 48 0)
      evictFor job places
      (List.range (n - 1)).forM fun i => do
        let ctx ← takeFrame job
        let y := x.childOf ⟨job, ctx⟩ (places.getD i pid) (x.pc + 4) (wordOf cell)
        let y := { y with g := x.g, mask := x.mask }
        onCore (createStrand p (y.withTrip d (wordOf cell) (tripRange c g q (i + 1))))
      updMine fun y => { y.withTrip .zr (wordOf cell) (tripRange c g q 0) with joinOrParent := wordOf cell }
      retire d (wordOf cell)

def execRfork (d a b : Reg) (s : State) : Outcome := runCore (rforkAct d a b) s

/-! ### The end of a strand (R208, R209) and laps (R218) -/

/-- The live strands of a task. -/
def taskStrands (c : Core) (job record : Nat) : List Strand :=
  c.strands.filter fun x => x.live && x.key.job == job && x.task.toNat == record

/-- A lap ends when every live strand of the task has executed `yield` since the last one; at every N-th the strands of a
task with a save area stop for a checkpoint (R218). -/
def endLap (t : Task) (c : Core) : Core :=
  let live := taskStrands c t.job t.record
  if t.lapsN = 0 || t.phase != .running || live.isEmpty || !(live.all fun x => t.lapYields.contains x.key.ctx) then c
  else
    let due := (t.laps + 1) % t.lapsN == 0 && t.save != 0
    let t' := { t with laps := t.laps + 1, lapYields := [], phase := if due then .checkpointing else t.phase }
    let c := { c with tasks := c.tasks.map fun u => if u.job = t.job ∧ u.record = t.record then t' else u }
    if due then
      { c with strands := c.strands.map fun x =>
          if x.live && x.key.job == t.job && x.task.toNat == t.record then { x with stopping := true } else x }
    else c

def checkLap (job record : Nat) (c : Core) : Core :=
  match c.tasks.find? fun t => t.job == job && t.record == record with
  | some t => endLap t c
  | none => c

/-- A strand retires or dies: its slot and its cache entry are free, and it is ENDED. -/
def retireStrand (p : Platform) (k : Key) (c : Core) : Core :=
  match c.strand? k with
  | none => c
  | some x => checkLap k.job x.task.toNat (leaveTo p k .ended none c)

def endStrandAct : Act Unit := do
  lookaheadCheck [] false
  needEngines
  let p ← read
  let k ← myKey
  retireNone
  onCore (retireStrand p k)

def execEndStrand (s : State) : Outcome := runCore endStrandAct s

/-! ### `join` (R208) -/

/-- `join`'s access: the count falls by one; the last finisher frees the cell, every other strand retires. DEDUCED
(log 65). -/
def joinAccess (cell : Nat) : Act Loaded := do
  let x ← me
  let p ← read
  let r ← amoAt x.homeParty .add cell 8 (2 ^ 64 - 1) 0 .acqRel .package
  if 1 < (wordOf r.value).toInt then onCore (retireStrand p x.key)
  else onCore fun c => { c with joinCells := c.joinCells.filter fun k => !(k.job == x.key.job && k.ctx == cell) }
  pure r

def joinAct (a : Reg) : Act Unit := do
  lookaheadCheck [] false
  let j ← readReg a
  let k ← myKey
  if j.toInt ≤ 0 then retireNone
  else if !((← get).joinCells.contains ⟨k.job, j.toNat⟩) || j.toNat % 64 != 0 then trapWith causeIll j
  else
    needEngines
    needReturned (← me).party
    match ← accessMem (.join j.toNat) .zr false (joinAccess j.toNat) with
    | .done r => deliverPoison r.poison
    | .dropped => pure ()
    retireNone

def execJoin (a : Reg) (s : State) : Outcome := runCore (joinAct a) s

/-! ### `spawn`, `tail`, `yield`, `park`, `wake` (R209) -/

def spawnAct (d a b : Reg) : Act Unit := do
  lookaheadCheck [d] false
  let room ← attempt (destReady d)
  let e ← readReg a
  let v ← readReg b
  raise room
  let p ← read
  let x ← me
  let pid ← myStation
  if e.toNat % 4 ≠ 0 then trapWith causeAlign e
  else if (← get).cancelled.contains x.key.job then retire d (wordOfInt (-1))
  else if freeFrames p (← get) x.key.job = 0 then retire d (wordOfInt (-2))
  else
    needReturned x.party
    evictFor x.key.job [pid]
    let ctx ← takeFrame x.key.job
    let y := x.childOf ⟨x.key.job, ctx⟩ pid e (wordOf x.key.ctx)
    let y := ((y.setReg 0 x.task true .plain).setReg 1 v true .plain).setReg 2 (wordOf x.key.ctx) true .plain
    onCore (createStrand p y)
    retire d (wordOf ctx)

def execSpawn (d a b : Reg) (s : State) : Outcome := runCore (spawnAct d a b) s

/-- `tail`'s access: the record must be IDLE with count 0 and of the job; the task holds it until it retires. -/
def tailAccess (record : Nat) : Act Loaded := do
  let x ← me
  let pt := x.homeParty
  needEarlier x.party record 128
  let count ← readNum pt record 4
  let state ← readNum pt (record + 7) 1
  let job ← readNum pt (record + 0x58) 4
  if count ≠ 0 ∨ state ≠ 0 ∨ job ≠ x.key.job then trapWith causeIll (wordOf record)
  else
    onCore fun c => { c with tasks := c.tasks.map fun t =>
      if t.job = x.key.job ∧ t.record = x.task.toNat then { t with tails := t.tails ++ [record] } else t }
    pure ⟨0, none⟩

def tailAct (a : Reg) : Act Unit := do
  lookaheadCheck [] false
  let r ← readReg a
  if r.toNat % 128 ≠ 0 then trapWith causeAlign r
  else
    needOutside r.toNat 128
    let _ ← accessMem (.tail r.toNat) .zr false (tailAccess r.toNat)
    retireNone

def execTail (a : Reg) (s : State) : Outcome := runCore (tailAct a) s

/-- A pinned strand keeps its slot, which has just issued and so stands last in the rotation (R47). -/
def yieldAct : Act Unit := do
  lookaheadCheck [] false
  retireNone
  let p ← read
  let x ← me
  if x.pinned then pure () else onCore (leaveTo p x.key .waiting none)
  onCore fun c => checkLap x.key.job x.task.toNat { c with tasks := c.tasks.map fun t =>
    if t.job = x.key.job ∧ t.record = x.task.toNat then { t with lapYields := risingSet t.lapYields x.key.ctx true } else t }

def execYield (s : State) : Outcome := runCore yieldAct s

def parkAct : Act Unit := do
  lookaheadCheck [] false
  retireNone
  let p ← read
  let k ← myKey
  onCore (parkStrand p k .park)

def execPark (s : State) : Outcome := runCore parkAct s

/-- The wake is on its way; what it acts on is decided as it arrives (R51). In user mode it acts on a strand that `park`
parked. -/
def wakeAct (a : Reg) : Act Unit := do
  lookaheadCheck [] false
  let v ← readReg a
  let x ← me
  if v.toNat % 1024 ≠ 0 then trapWith causeAlign v
  else
    let w : Wake := ⟨⟨x.key.job, v.toNat⟩, if x.sup then none else some .park, x.sup⟩
    onCore fun c => { c with wakes := c.wakes ++ [w] }
    retireNone

def execWake (a : Reg) (s : State) : Outcome := runCore (wakeAct a) s

/-! ### `cancel` (R213) -/

/-- The state byte of a record discarded from the ready lists; a page that is not present is passed over. -/
def discardRecord (job record : Nat) : Act Unit := do
  let _ ← attempt (writeNum ⟨job, 0, 0, 0, false⟩ (record + 7) 1 5)

/-- The job table entry's CANCELLED flag set, if the entry holds the job's id (R135). -/
def flagCancelled (p : Platform) (job : Nat) (c : Core) : Core :=
  let a := jobEntry p job + 4
  if c.mem.read (jobEntry p job) 4 = job then c.deviceWrite a 4 fun m => m.write a 4 (m.read a 4 ||| 2) else c

/-- The cancel of a job: every station marks it, its contexts are woken, its commands end, its PIN lines are free (R166), and
its tasks that do not run yet are discarded. -/
def cancelJob (job : Nat) : Act Unit := do
  let p ← read
  let c ← get
  (c.ready.filter fun t => t.job == job).forM fun t => discardRecord job t.record
  (c.placing.filter fun t => t.job == job).forM fun t => discardRecord job t.record
  onCore fun c =>
    let woken : List Wake := (c.strands.filter fun x => x.live && x.key.job == job).map fun x => ⟨x.key, none, true⟩
    let c := cancelCommands (fun d => d.job == job && d.begun.isNone) (flagCancelled p job c)
    { c with
      cancelled := if c.cancelled.contains job then c.cancelled else job :: c.cancelled
      wakes := c.wakes ++ woken
      pins := c.pins.filter fun h => h.job != job
      ready := c.ready.filter fun t => t.job != job
      placing := c.placing.filter fun t => t.job != job }

def cancelAct : Act Unit := do
  lookaheadCheck [] false
  let k ← myKey
  retireNone
  cancelJob k.job

def execCancel (s : State) : Outcome := runCore cancelAct s

/-! ### `gdec` (R199, R206) -/

/-- The decrement leaves for its home, once its page is present. -/
def gdecAccess (record : Nat) : Act Loaded := do
  let x ← me
  let _ ← locate x.key.job record 3 8
  onCore fun c => { c with decrements := c.decrements ++ [⟨x.key.job, record, x.key.job, x.station, x.key.ctx, none⟩] }
  pure ⟨0, none⟩

def gdecAct (a : Reg) : Act Unit := do
  lookaheadCheck [] false
  let r ← readReg a
  if r.toNat % 128 ≠ 0 then trapWith causeAlign r
  else
    needOutside r.toNat 128
    needReturned (← me).party
    let _ ← accessMem (.gdec r.toNat) .zr false (gdecAccess r.toNat)
    retireNone

def execGdec (a : Reg) (s : State) : Outcome := runCore (gdecAct a) s

/-! ### Global queues (R210) -/

/-- Where the wait list of a queue stands: the physical address of its header. -/
def queueHome (job q : Nat) : Act Nat := do
  match ← locate job q 3 8 with
  | .cell pa _ => pure pa
  | .aperture _ pa => pure pa
  | .mgmt _ _ | .record _ _ => pure q

/-- The header's four words, or the poisoned word met. -/
structure QueueHead where
  ring : Nat
  capacity : Nat
  puts : Nat
  takes : Nat
  poison : Option Nat
  deriving DecidableEq, Repr

def queueHead (pt : Party) (q : Nat) : Act QueueHead := do
  let r ← loadAt pt q 8
  let n ← loadAt pt (q + 8) 8
  let a ← loadAt pt (q + 16) 8
  let b ← loadAt pt (q + 24) 8
  pure ⟨r.value, n.value, a.value, b.value, r.poison.or (n.poison.or (a.poison.or b.poison))⟩

/-- A step on a queue; a capacity that is no power of two in 2 to 65,536 is ILL. -/
def queueStep (q : Nat) (put : Bool) (step : Party → QueueHead → Nat → Act Loaded) : Act Loaded := do
  let x ← me
  let pt := x.homeParty
  needEarlier x.party q 64
  let pa ← queueHome x.key.job q
  let h ← queueHead pt q
  if h.poison.isSome then pure ⟨0, h.poison⟩
  else if !powerOfTwo h.capacity 2 65536 then trapWith causeIll (wordOf q)
  else if put && (h.puts + 2 ^ 64 - h.takes) % 2 ^ 64 == h.capacity then stop (.park (.queue pa true))
  else if !put && h.puts == h.takes then stop (.park (.queue pa false))
  else step pt h pa

/-- `qput`'s access: ordinary stores of the ring's word and of the count, after which a pin of the header's line stands as it did:
DESIGN CHOICE (log 123). -/
def qputAccess (q : Nat) (v : Word) : Act Loaded :=
  queueStep q true fun pt h pa => do
    storeAt pt (h.ring + 8 * (h.puts % h.capacity)) 8 v
    storeAt pt (q + 16) 8 (wordOf (h.puts + 1))
    onCore (wakeAll (.queue pa false))
    pure ⟨0, none⟩

def qtakeAccess (q : Nat) : Act Loaded :=
  queueStep q false fun pt h pa => do
    needEarlier { pt with strand := true } (h.ring + 8 * (h.takes % h.capacity)) 8
    let r ← loadAt pt (h.ring + 8 * (h.takes % h.capacity)) 8
    storeAt pt (q + 24) 8 (wordOf (h.takes + 1))
    onCore (wakeAll (.queue pa true))
    pure ⟨if r.poison.isSome then 0 else r.value, r.poison⟩

def qputAct (a b : Reg) : Act Unit := do
  lookaheadCheck [] false
  let q ← readReg a
  let v ← readReg b
  if q.toNat % 64 ≠ 0 then trapWith causeAlign q
  else
    needOutside q.toNat 64
    needReturned (← me).party
    match ← accessMem (.qput q.toNat v) .zr false (qputAccess q.toNat v) with
    | .done r => deliverPoison r.poison
    | .dropped => pure ()
    retireNone

def execQput (a b : Reg) (s : State) : Outcome := runCore (qputAct a b) s

def qtakeAct (d a : Reg) : Act Unit := do
  lookaheadCheck [d] false
  let room ← attempt (destReady d)
  let q ← readReg a
  raise room
  if q.toNat % 64 ≠ 0 then trapWith causeAlign q
  else
    needOutside q.toNat 64
    match ← accessMem (.qtake q.toNat) d false (qtakeAccess q.toNat) with
    | .done r =>
      deliverPoison r.poison
      retire d (wordOf r.value)
    | .dropped => retireNone

def execQtake (d a : Reg) (s : State) : Outcome := runCore (qtakeAct d a) s

end Sys2Proof.Machine
end

