-- ==== Sys2Proof/Machine/TaskEngine.lean ====
section
/-! DEFINITION. The task engines: task records (R196, R197), decrements (R199), dispatch (R201, R202, R205, R212), gangs
(R211), retirement (R203, R204), and the write log's entries of a task (R365). -/

namespace Sys2Proof.Machine

open Sys2Proof

/-- One event for the package: it changes the core, or cannot happen yet and changes nothing but what a memory port has read of
the translation tables (R223). -/
def runEvent (a : EventArg → Act Unit) (s : State) : Outcome :=
  match s.core.work with
  | .event arg =>
    match a arg s.plat s.core with
    | .ok (_, c) => .next { s with core := c }
    | .error (.fault f) => .fault f
    | .error (.page job va _ _) => .next { s with core := walked s.plat job va s.core }
    | .error _ => .next s
  | .idle | .strand _ _ _ _ _ | .engine _ => .next s

/-- An event whose condition does not hold does not happen. -/
def notYet {α : Type} : Act α := stop (.hold .none)

/-- DEDUCED (log 9). -/
def require (b : Bool) : Act Unit := if b then pure () else notYet

/-- What an engine still does for a command that has run, by the change that `upd` makes to it: a page that is not present has
it wait, with a PAGE record (R193), and so does a line that another station has pinned, in the order of arrival (R166). -/
def forCmd (d : Cmd) (upd : (Cmd → Cmd) → Core → Core) (a : Act Unit) : Act Unit := do
  require (!d.waits (← get))
  let p ← read
  match ← attempt a with
  | .ok _ => pure ()
  | .error (.page _ va kind size) => onCore (notePage p d upd (va, kind, size))
  | .error (.park (.pinLine line)) => onCore (noteRetry p d upd line)
  | .error e => stop e

/-! ### Task records (R196, R197) -/

def trReady : Nat := 1
def trPlacing : Nat := 2
def trRunning : Nat := 3
def trRetired : Nat := 4
def trCancelled : Nat := 5
def trPreempted : Nat := 6
def trFault : Nat := 7

/-- The task engine as the party of an access. DEDUCED (log 51). -/
def enginePt (job record : Nat) : Party := ⟨job, home record, 0, 0, false⟩

structure Record where
  count : Nat
  classPrio : Nat
  kind : Nat
  state : Nat
  entry : Nat
  strands : Nat
  gang : Nat
  domain : Nat
  arg : Nat
  fa : Nat
  fb : Nat
  fc : Nat
  fs : Nat
  list : Nat
  successors : Nat
  lapsN : Nat
  save : Nat
  job : Nat
  flags : Nat
  deriving DecidableEq, Repr

def Record.prio (r : Record) : Nat := r.classPrio % 256
def Record.classS (r : Record) : Bool := r.classPrio / 2 ^ 14 == 1

def recordOf (b : List Byte) : Record :=
  let f (o n : Nat) : Nat := leNat ((b.drop o).take n)
  ⟨f 0 4, f 4 2, f 6 1, f 7 1, f 8 8, f 0x10 4, f 0x14 2, f 0x16 2, f 0x18 8, f 0x20 8, f 0x28 8, f 0x30 8, f 0x38 8,
    f 0x40 8, f 0x48 4, f 0x4C 4, f 0x50 8, f 0x58 4, f 0x5C 4⟩

def readRecord (job va : Nat) : Act Record := do
  pure (recordOf ((← readGlobal (enginePt job va) va 128).map (·.1)))

def setRecordState (job va st : Nat) : Act Unit := writeNum (enginePt job va) (va + 7) 1 st

/-! ### Readying a record (R199) -/

def isCollectiveOp (op : Instr) : Bool :=
  op == .clAg || op == .clRs || op == .clAr || op == .clBc || op == .clGrp

/-- Whether the embedded command of a node is one that R191 or R212 allows. DEDUCED (log 53). A copy command that breaks its operation's
own form (R79) fails here, a collective command not before it is run: DESIGN CHOICE (log 127). -/
def nodeAllowed (kind : Nat) (op : Instr) (t : Tcw) : Bool :=
  let plain := compMode t == 0 && (List.range 5).all fun i => descKind t i ≤ 4
  if kind = 1 then
    match copyForm op with
    | some f => plain && (tcwOffence f t true).isNone
    | none => false
  else plain && isCollectiveOp op

/-- The checks of R199 on a record whose count has reached 0; a gang of more groups than the domain has stations never fits, of
whatever kind (R211). -/
def recordChecks (job va : Nat) (r : Record) : Act Bool := do
  let stations ← look fun p c => domainMapped p c job r.domain
  let common := decide (r.kind ≤ 2) && decide (r.classPrio / 2 ^ 14 ≤ 1) && r.classPrio / 256 % 64 == 0 && r.flags == 0
    && !stations.isEmpty
  if !common then pure false
  else if stations.length < r.gang then pure false
  else if r.kind = 0 then
    pure (decide (1 ≤ r.strands) && r.entry % 4 == 0 &&
      (r.gang == 0 || (r.strands % r.gang == 0 && decide (r.strands / r.gang ≤ 12))))
  else
    match ← readTcw (enginePt job va) (va + 0x60) with
    | some (op, t) => pure (nodeAllowed r.kind op t)
    | none => pure false

/-- The order of placement (R211): priority, then gang tickets. -/
def gangBefore (a b : PlacingGang) : Bool := decide (b.prio < a.prio) || (a.prio == b.prio && decide (a.ticket < b.ticket))

/-- A gang in placement; gangs behind it in the order of placement release what they have reserved (R211). -/
def placeGang (g : PlacingGang) (c : Core) : Core :=
  { c with placing := g :: c.placing.map fun x => if gangBefore g x then { x with reserved := [] } else x }

/-- A gang enters PLACING with the package's next gang ticket. -/
def enterPlacing (job va prio : Nat) (resume : Bool) (c : Core) : Core :=
  { placeGang ⟨job, va, prio, c.gangTicket, [], resume⟩ c with gangTicket := c.gangTicket + 1 }

/-- A task put on the ready list of the die that holds the domain's lowest mapped station (R199, R200). -/
def enterReady (job va prio die : Nat) (head resume : Bool) (c : Core) : Core :=
  let ticket := if head then c.seq else c.tickets.getD die 0
  let c := if head then c.tick else { c with tickets := c.tickets.set! die (ticket + 1) }
  { c with ready := ⟨job, va, die, prio, ticket, head, resume⟩ :: c.ready }

/-- What follows when a record's count is 0: it is readied, stays in its state, or goes to FAULT; the result tells whether
it went to FAULT. A gang that `tail` has named takes the next gang ticket, with no head position: DESIGN CHOICE (log 113). -/
def readyRecord (job va : Nat) (head : Bool) : Act Bool := do
  let r ← readRecord job va
  if 8 ≤ r.state then
    setRecordState job va trFault
    pure true
  else if r.state ≠ 0 then pure false
  else if !(← recordChecks job va r) then
    setRecordState job va trFault
    pure true
  else if r.gang ≠ 0 then
    setRecordState job va trPlacing
    onCore (enterPlacing job va r.prio false)
    pure false
  else
    setRecordState job va trReady
    let stations ← look fun p c => domainMapped p c job r.domain
    onCore (enterReady job va r.prio (dieOf (stations.headD 0)) head false)
    pure false

/-- A graph-node decrement performed at the record's home (R199); the result tells whether it took the record to FAULT. -/
def decrementRecord (d : Decrement) : Act Bool := do
  let r ← readRecord d.job d.record
  if (← get).cancelled.contains r.job then pure false
  else if r.job ≠ d.party % 2 ^ 32 then
    let st := home d.record
    let key := ((← get).station st).pkey
    sendEvent ⟨dieOf st, 4, st, d.party, d.ctx, wordOf (3 * 2 ^ 56 + key.toNat), [wordOf d.record, wordOf d.party]⟩
    pure false
  else if r.count = 0 then pure false
  else
    writeNum (enginePt d.job d.record) d.record 4 (r.count - 1)
    if r.count = 1 then readyRecord d.job d.record false else pure false

/-! ### What a delivery leaves at its strand (R16, R77, R380) -/

/-- The context record of a strand that is not resident lies in memory: while its page is not present, nothing that
writes it happens. A word that is on its way to its inbox stays there, and no PAGE or CTXPF record tells: DESIGN CHOICE (log 122). -/
def reachRecord (k : Key) : Act Unit := do
  let _ ← locate k.job k.ctx 2 8

/-- The strand of a context, if it is live. -/
def liveStrand (c : Core) (k : Key) : Option Strand :=
  match c.strand? k with
  | some x => if x.live then some x else none
  | none => none

/-- Whether a completion's trap is held pending in the strand (R380). -/
def trapHeld (x : Completion) : Bool :=
  match x.trap with
  | some (cause, _) => compMode x.cmd.tcw == 0 || (cause == causeSwz && (compMode x.cmd.tcw == 2 || compMode x.cmd.tcw == 3))
  | none => false

/-- The issuing strand after a delivery: one command fewer outstanding, and a pending trap unless it holds one. -/
def Strand.afterDelivery (y : Strand) (x : Completion) : Strand :=
  let y := { y with engines := y.engines - 1 }
  match trapHeld x && y.engTrap == 0, x.trap with
  | true, some (cause, tval) => { y with engTrap := wordOf cause, engTval := tval }
  | _, _ => y

/-- A completion that stands in its destination: the strand that pushed the command has one fewer outstanding. -/
def noteDelivered (x : Completion) : Act Unit := do
  let k : Key := ⟨x.cmd.job, x.cmd.ctx⟩
  match liveStrand (← get) k with
  | some _ =>
    reachRecord k
    onCore fun c => c.updStrand k fun y => y.afterDelivery x
  | none => pure ()

/-- Whether the completion that a decrement delivers comes after none that keeps its order, among those before it (R171, R283). -/
def decrementNext (p : Platform) (before : List Decrement) (c : Core) (d : Decrement) : Bool :=
  match d.done with
  | none => true
  | some x => before.all fun g => match g.done with | some y => !inOrder p c y.cmd x.cmd | none => true

/-- GRAPH_NODE_DECREMENT: one of the decrements on their way arrives; the argument tells which. With it a mode-3 completion is
delivered. -/
def graphNodeDecrementAct (e : EventArg) : Act Unit := do
  match (← get).decrements[e.index]? with
  | none => notYet
  | some d =>
    require (← look fun p c => decrementNext p (c.decrements.take e.index) c d)
    let _ ← decrementRecord d
    match d.done with
    | some x => noteDelivered x
    | none => pure ()
    onCore fun c => { c with decrements := c.decrements.eraseIdx e.index }

def execGraphNodeDecrement (s : State) : Outcome := runEvent graphNodeDecrementAct s

/-! ### The write log of a job (R365) -/

/-- The entries that a task holds. -/
def taskEntries (p : Platform) (c : Core) (job record : Nat) : List Nat :=
  (logEntries p c job).filter fun a => c.mem.read a 8 != 0 && c.mem.read (a + 8) 8 == record

/-- A task's boundary: its entries are free, and no line and no stash window carries its tag (R364, R365). -/
def closeLog (p : Platform) (job record : Nat) (c : Core) : Core :=
  let c' := (taskEntries p c job record).foldl (fun x a => x.deviceWrite a 8 fun m => m.write a 8 0) c
  let mine (e : StashEntry) : Bool := e.writer == record && (match e.mapped with | some (j, _) => j == job | none => false)
  { c' with
    l2 := c'.l2.map fun l => if l.job = job ∧ l.task = some record then { l with task := none } else l
    stations := c'.stations.map fun s =>
      (s.1, { s.2 with entries := s.2.entries.map fun e => if mine e then { e with writer := 0 } else e }) }

/-! ### Dispatch (R201, R202, R205, R212) -/

/-- The job's segment template (R136, R202). -/
def templateSegs (p : Platform) (c : Core) (job : Nat) : Vector SegDesc 8 :=
  Vector.ofFn fun (n : Fin 8) =>
    ⟨wordOf (jobField p c job (0xA0 + 24 * n.val)), wordOf (jobField p c job (0xA8 + 24 * n.val)),
      BitVec.ofNat 32 (jobField p c job (0xB0 + 24 * n.val)) &&& rightsMask⟩

/-- A segment that the loader has bound: R and X for `text`, R and W otherwise, and the job's partition key, as its stations
hold it (R34, R376). -/
def Binding.desc (b : Binding) (pkey : BitVec 16) : SegDesc :=
  ⟨wordOf b.base, wordOf b.size, BitVec.ofNat 32 ((if b.text then 5 else 3) + pkey.toNat * 65536)⟩

/-- The segments of an initial strand: the template, and what the loader has bound for the tasks of an image (R34, R202). The registers
that an image does not bind keep the template's descriptors: DESIGN CHOICE (log 119). -/
def initialSegs (p : Platform) (c : Core) (job record station : Nat) : Vector SegDesc 8 :=
  (c.bindings.filter fun b => b.job == job && b.record == record).foldl
    (fun segs b => segs.set! b.seg (b.desc (c.station station).pkey)) (templateSegs p c job)

/-- Initial strand `i` of a task (R202). -/
def initialStrand (segs : Vector SegDesc 8) (job va : Nat) (r : Record) (i ctx station : Nat) : Strand :=
  let x := Strand.fresh ⟨job, ctx⟩ station
  let x := ((x.setReg 0 (wordOf va) true .plain).setReg 1 (wordOf i) true .plain).setReg 2 (wordOf r.strands) true .plain
  { x with
    pc := wordOf r.entry
    task := wordOf va
    fa := wordOf r.fa
    fb := wordOf r.fb
    fc := wordOf r.fc
    fs := wordOf r.fs
    segs := segs
    mode := if r.gang ≠ 0 then modePin else 0 }

/-- The task as its dispatch makes it. A class S record with laps N = 0 is a task of class D: DESIGN CHOICE (log 114). -/
def newTask (job va : Nat) (r : Record) (die ticket : Nat) : Task where
  job := job
  record := va
  kind := r.kind
  die := die
  prio := r.prio
  ticket := ticket
  gang := r.gang != 0
  tails := []
  stations := []
  save := r.save
  lapsN := if r.classS then r.lapsN else 0
  laps := 0
  lapYields := []
  saved := none
  savedTails := []
  homes := []
  outside := false
  noEntry := false
  retried := []
  others := []
  pages := 0
  ended := none
  phase := .running

/-- The strands of a task created on their stations. -/
def createInitial (job va : Nat) (r : Record) (places : List Nat) : Act Unit := do
  evictFor job places
  let p ← read
  (List.range r.strands).forM fun i => do
    let segs ← look fun p c => initialSegs p c job va (places.getD i 0)
    let ctx ← takeFrame job
    onCore (createStrand p (initialStrand segs job va r i ctx (places.getD i 0)))

/-- A command that the task engine pushes for a node or a record of a save area. -/
def nodeCmd (job task pid : Nat) (op : Instr) (t : Tcw) (node : Option Nat) (seq : Nat) : Cmd where
  op := op
  tcw := t
  job := job
  ctx := 0
  task := task
  issuer := pid
  station := pid
  vals := Vector.replicate 5 0
  segs := Vector.replicate 8 SegDesc.zero
  rmode := 0
  sup := false
  node := node
  seq := seq
  addr := 0
  page := none
  draws := none
  begun := none
  retry := none
  kept := []
  sources := []

/-- A copy or collective node pushes its embedded command (R212). -/
def runNode (job va : Nat) (r : Record) (pid : Nat) : Act Unit := do
  match ← readTcw (enginePt job va) (va + 0x60) with
  | none => notYet
  | some (op, t) =>
    let engine := if r.kind = 1 then 1 else 5
    require (decide (((← get).queue pid engine).length < Config.commandDepth))
    let seq := (← get).seq
    let d ← if r.kind = 1 then pure (nodeCmd job va pid .cpNode t (some va) seq)
      else embeddedCmd (nodeCmd job va pid op t (some va) seq) op t r.arg
    onCore fun c =>
      let c := (enqueueCmd engine d c).tick
      { c with tasks := c.tasks.map fun x =>
          if x.job = job ∧ x.record = va then { x with outside := x.outside || engine == 5 } else x }

/-- The order in which a die dispatches (R201): priority, then records of `tail`, then tickets. Records of `tail` of different tasks
at one priority are served in the order in which they came: DESIGN CHOICE (log 97). -/
def readyBefore (a b : ReadyTask) : Bool :=
  decide (b.prio < a.prio) || (a.prio == b.prio &&
    ((a.head && !b.head) || (a.head == b.head && decide (a.ticket < b.ticket))))

def bestReady (c : Core) (die : Nat) : Option ReadyTask :=
  (c.ready.filter fun t => t.die == die).foldl
    (fun b t => match b with | none => some t | some u => if readyBefore t u then some t else some u) none

/-- A domain's placement cursor (R201), kept for each job and domain field; a gang's dispatch does not move it. DESIGN CHOICE
(log 100). -/
def cursorOf (c : Core) (job domain : Nat) : Nat :=
  match c.cursors.find? fun x => x.job == job && x.domain == domain with
  | some x => x.position
  | none => 0

/-- The cursor of a domain moved. DESIGN CHOICE (log 100). -/
def setCursor (job domain position : Nat) (c : Core) : Core :=
  { c with cursors := ⟨job, domain, position⟩ :: c.cursors.filter fun x => !(x.job == job && x.domain == domain) }

/-- The lines whose errors have rolled a task back before (R367). -/
def retriedLines (c : Core) (job record : Nat) : List Nat :=
  match c.tasks.find? fun x => x.job == job && x.record == record with
  | some x => x.retried
  | none => []

/-- A task dispatched for the first time, or again from its beginning (R218). -/
def dispatchNew (t : ReadyTask) : Act Unit := do
  let r ← readRecord t.job t.record
  let stations ← look fun p c => domainMapped p c t.job r.domain
  require !stations.isEmpty
  onCore fun c => { c with tasks := c.tasks.filter (fun x => !(x.job == t.job && x.record == t.record))
    ++ [{ newTask t.job t.record r t.die t.ticket with retried := retriedLines c t.job t.record }] }
  setRecordState t.job t.record trRunning
  if r.kind = 0 then
    require (decide (r.strands ≤ freeFrames (← read) (← get) t.job))
    let m := stations.length
    let cur := cursorOf (← get) t.job r.domain
    createInitial t.job t.record r ((List.range r.strands).map fun i => stations.getD ((cur + i) % m) 0)
    onCore (setCursor t.job r.domain ((cur + r.strands) % m))
  else runNode t.job t.record r (stations.headD 0)

/-! ### Gangs (R211) -/

/-- The gang that leads the order of placement. -/
def leadingGang (c : Core) : Option PlacingGang :=
  c.placing.foldl (fun b g => match b with | none => some g | some u => if gangBefore g u then some g else some u) none

/-- Strands with PIN = 1 of a station, those that a save has stored not counted. -/
def pinnedOf (c : Core) (pid : Nat) : Nat :=
  (c.strands.filter fun x => x.live && x.pinned && x.station == pid && !(x.stopping && x.inMemory)).length

/-- Reservations made in ascending logical order, until a gang has as many as it has groups. -/
def reserveStations (c : Core) (need size : Nat) (have' : List Nat) : List Nat → List Nat
  | [] => have'
  | s :: rest =>
    if have'.length < need ∧ !have'.contains s ∧ pinnedOf c s + size ≤ Config.pinnedMax then
      reserveStations c need size (have' ++ [s]) rest
    else reserveStations c need size have' rest

/-- The strands of each group of a gang: of a node none, whose strand count is ignored (R196, R212). DESIGN CHOICE (log 99). -/
def Record.groupSize (r : Record) : Nat := if r.kind = 0 then r.strands / r.gang else 0

/-- A gang dispatched in one step, by the die that holds the lowest of its domain's stations (R200): group `j` on the `j`-th
reserved station, and a node on the domain's lowest (R212). -/
def dispatchGang (g : PlacingGang) (r : Record) (stations reserved : List Nat) : Act Unit := do
  let die := dieOf (stations.headD 0)
  onCore fun c => { c with
    placing := c.placing.filter fun x => !(x.job == g.job && x.record == g.record)
    tasks := c.tasks.filter (fun x => !(x.job == g.job && x.record == g.record))
      ++ [{ newTask g.job g.record r die g.ticket with retried := retriedLines c g.job g.record }] }
  setRecordState g.job g.record trRunning
  if r.kind = 0 then
    require (decide (r.strands ≤ freeFrames (← read) (← get) g.job))
    createInitial g.job g.record r ((List.range r.strands).map fun i => reserved.getD (i / r.groupSize) 0)
  else runNode g.job g.record r (stations.headD 0)

/-! ### Retirement (R203, R204) -/

/-- The whole successor list: address and kind of each entry. -/
def successorList (job record : Nat) (r : Record) : Act (List (Nat × Nat)) :=
  (List.range r.successors).mapM fun k => do
    let w ← readNum (enginePt job record) (r.list + 8 * k) 8
    pure (bitsOf w 0 56, bitsOf w 56 8)

/-- Every mapped entry of a station evicted (R177). -/
def evictStation (pid : Nat) : Act Unit := do
  (((← get).station pid).entries.filter fun e => e.mapped.isSome).forM fun e => do
    let _ ← unmapEntry pid e

/-- The flush of R204: the entries of the task's stations are evicted (R205), and a release at system scope is performed on
behalf of the task, so that whoever reads afterwards finds what was written (R170). -/
def taskFlush (t : Task) : Act Unit := do
  t.stations.forM evictStation
  flushWindows t.job
  refreshApertures

/-- A decrement of a task's successor leaves for its home. -/
def sendDecrement (t : Task) (record : Nat) : Act Unit :=
  onCore fun c => { c with decrements := c.decrements ++ [⟨t.job, record, t.job, home t.record, 0, none⟩] }

/-- A successor entry acted on (R198). A decrement that the fabric carries leaves this package, unless the aperture page names
this device. DEDUCED (log 58). -/
def actSuccessor (t : Task) (e : Nat × Nat) : Act Unit := do
  match e.2 with
  | 0 => sendDecrement t e.1
  | 1 => storeFull (enginePt t.job t.record) (enginePt t.job t.record).station e.1 (wordOf (t.record % 2 ^ 48)) .system
  | 2 =>
    let p ← read
    match ← locate t.job e.1 3 8 with
    | .aperture word _ =>
      if apertureKind p word = 3 then markOutside ⟨t.job, home t.record, 0, t.record, false⟩ else sendDecrement t e.1
    | .cell _ _ | .mgmt _ _ | .record _ _ => sendDecrement t e.1
  | _ => pure ()

/-- The matrix engines that a task holds are released (R282). -/
def releaseEngines (job record : Nat) (c : Core) : Core :=
  { c with stations := c.stations.map fun e =>
      (e.1, if e.2.accOwner = some (job, record) then e.2.releaseMatrix else e.2) }

/-- The task's end: its matrix engines released, its log entries freed, and itself gone from the engine and its lists. -/
def closeTask (p : Platform) (t : Task) (c : Core) : Core :=
  let c := closeLog p t.job t.record (releaseEngines t.job t.record c)
  { c with tasks := c.tasks.filter fun x => !(x.job == t.job && x.record == t.record)
           ready := c.ready.filter fun x => !(x.job == t.job && x.record == t.record)
           placing := c.placing.filter fun x => !(x.job == t.job && x.record == t.record) }

/-- Whether a store of a task to a multicast page is still on its way back (R313). -/
def taskSending (c : Core) (t : Task) : Bool := c.multicasts.any fun x => x.key.job == t.job && x.task == t.record

/-- Whether nothing of a task runs any more, and everything that its strands wrote is performed (R162, R203). DEDUCED (log 52). -/
def taskDone (c : Core) (t : Task) : Bool :=
  if t.kind = 0 then (taskStrands c t.job t.record).isEmpty && !taskSending c t else t.ended.isSome || c.cancelled.contains t.job

/-- Whether a rollback of a task is on its way: it comes before the task's end, and restores the log first (R372). -/
def rollbackDue (c : Core) (t : Task) : Bool := c.rollbacks.any fun q => q.job == t.job && q.record == t.record

/-- TASK_RETIREMENT of the task at a record: tails, state, successors (R203). -/
def taskRetirementAct (e : EventArg) : Act Unit := do
  let p ← read
  match (← get).tasks.find? fun t => t.job == e.job && t.record == e.addr with
  | none => notYet
  | some t =>
    let cancelled := (← get).cancelled.contains t.job
    require (taskDone (← get) t && (t.phase != .preempted || cancelled) && !rollbackDue (← get) t)
    let r ← readRecord t.job t.record
    let list ← successorList t.job t.record r
    let failed := list.any (fun x => 3 ≤ x.2) || (match t.ended with | some st => st != stOk | none => false)
    if cancelled then
      if t.phase != .preempted then setRecordState t.job t.record trCancelled
    else
      t.tails.forM fun va => do
        let _ ← readyRecord t.job va true
      if failed then setRecordState t.job t.record trFault
      else
        setRecordState t.job t.record trRetired
        if list.any fun x => x.2 != 0 then taskFlush t
        list.forM (actSuccessor t)
    onCore (closeTask p t)

def execTaskRetirement (s : State) : Outcome := runEvent taskRetirementAct s

end Sys2Proof.Machine
end

