-- ==== Sys2Proof/Machine/Collective.lean ====
section
/-! DEFINITION. Lantern, the collective engine (R309, R310, R317 to R323): the `cl.` operations, the start of a
collective, and the engines' signal words (R186, R188, R320). What another member contributes is a free value. -/

namespace Sys2Proof.Machine

open Sys2Proof

/-- The form of a collective whose `ctl` has zero bits by a mask (R317, R319). -/
def clForm (mask : Nat) : CmdForm := ⟨5, 7, [[3], [1, 3, 4], [1, 2], [16 * mask + 2], [0, 1, 4]], .one⟩
def clAgForm : CmdForm := clForm 1
def clRsForm : CmdForm := clForm 2
def clBcForm : CmdForm := clForm 3
def clGrpForm : CmdForm := ⟨5, 7, [[2], [2], [2], [2], [0]], .none⟩

/-! ### A command reaches its group's Lantern (R310, R318) -/

/-- The operation's form, checked again on a collective node's embedded command (R212). -/
def collectiveForm (op : Instr) : CmdForm :=
  if op = .clGrp then clGrpForm else if op = .clAg then clAgForm else if op = .clBc then clBcForm else clRsForm

/-- A command taken from its queue waits for the commands of the other members; one that names no live group, or breaks
its form, ends at once. DEDUCED (log 49). -/
def admitCollective (d : Cmd) : Act Unit := do
  let live ← look fun p c => groupLive p c d.job (groupOf d)
  check (live && (d.node.isNone || (tcwOffence (collectiveForm d.op) d.tcw true).isNone))
  onCore fun c =>
    let x : Collective := ⟨d, groupOf d, c.seq, none, none⟩
    { (dropCmd 5 d c).tick with collectives := c.collectives ++ [x] }

/-- A turn of a die's Lantern for an operation. -/
def runLantern (op : Instr) (die : Nat) (s : State) : Outcome :=
  match dieNext s.plat s.core die 5 with
  | none => .next s
  | some d =>
    if d.op = op then
      let c := passTurn die 5 d s.core
      match admitCollective d s.plat c with
      | .ok (_, c') => .next { s with core := c' }
      | .error (.fault f) => .fault f
      | .error _ => .next { s with core := finishCmd 5 d ⟨stFault, 0, none⟩ c }
    else .next s

def lanternOp (f : CmdForm) (op : Instr) (s : State) : Outcome :=
  match s.core.work with
  | .engine unit => runLantern op unit s
  | .idle | .strand _ _ _ _ _ | .event _ => runCore (pushAct f op) s

def execClAg (s : State) : Outcome := lanternOp clAgForm .clAg s
def execClRs (s : State) : Outcome := lanternOp clRsForm .clRs s
def execClAr (s : State) : Outcome := lanternOp clRsForm .clAr s
def execClBc (s : State) : Outcome := lanternOp clBcForm .clBc s
def execClGrp (s : State) : Outcome := lanternOp clGrpForm .clGrp s

/-! ### What the members bring -/

/-- The group of a collective as its descriptor states it (R309): members, own index, and the index of a member that is
lost. -/
structure Members where
  count : Nat
  own : Nat
  lost : Option Nat
  deriving DecidableEq, Repr

def membersOf (p : Platform) (c : Core) (job g : Nat) : Members :=
  let n := groupCount p c job g % 16385
  let own := groupOwn p c job g
  ⟨n, own, (List.range n).find? fun i => i != own && p.lostDevices.contains (memberDevice p c job g i)⟩

/-- Bytes that another member contributes: free values, and whether each of its words is poisoned. DESIGN CHOICE (log
13). -/
def freeBytes (n : Nat) : Act (List EByte) := do
  let ws ← (List.range (ceilDiv n 8)).mapM fun _ => do
    let v ← freeValue
    let bad ← freeValue
    pure ((leBytes 8 v.toNat).map fun b => (b, bad.getLsbD 0))
  pure ((ws.foldr (· ++ ·) []).take n)

/-- The contributions in member order; the own member's is read, every other is free. -/
def contributions (m : Members) (own : List EByte) : Act (List (List EByte)) :=
  (List.range m.count).mapM fun i => if i = m.own then pure own else freeBytes own.length

/-- How the other members' commands meet this one (R318, R322, R323): alike, or with an outcome that ends this member's
command. One device alone cannot tell, so a free value does. -/
def membersAgree (m : Members) : Act Unit := do
  match m.lost with
  | some i => endWith stLost i
  | none =>
    if m.count ≤ 1 then pure ()
    else
      let v := (← freeValue).toNat
      let other := (m.own + 1 + v / 4 % (m.count - 1)) % m.count
      match v % 4 with
      | 1 => endWith stFault 0
      | 2 => endWith stCap other
      | 3 => endWith stCancelled other
      | _ => pure ()

/-- Between two pieces a cancel of another member's job, or its pre-emption of class D, may end the collective with that member's
index (R323). One device alone cannot tell, so a free value does. -/
def membersGoOn (m : Members) : Act Unit := do
  if m.count ≤ 1 || m.lost.isSome then pure ()
  else
    let v := (← freeValue).toNat
    if v % 4 = 3 then endWith stCancelled ((m.own + 1 + v / 4 % (m.count - 1)) % m.count) else pure ()

/-- Elements reduced over the members in member order; a word that a poisoned word takes part in is poisoned (R322). -/
def reduceMembers (op fmt : Nat) (ms : List (List EByte)) : List EByte :=
  let size := if fmt = 1 then 2 else 4
  let parts := ms.map (elements size)
  let n := (parts.headD []).length
  let one (i : Nat) : List EByte :=
    let es := parts.map fun p => p.getD i []
    (leBytes size (reduceList op fmt (es.map eNat))).map fun b => (b, es.any eBad)
  ((List.range n).map one).foldr (· ++ ·) []

/-! ### The operations (R319) -/

/-- The fields of `ctl`. -/
structure Ctl where
  op : Nat
  fmt : Nat
  root : Nat
  rest : Nat
  deriving DecidableEq, Repr

def ctlOf (d : Cmd) : Ctl :=
  let w := descImm d.tcw 3
  ⟨bitsOf w 8 2, bitsOf w 10 2, bitsOf w 12 14, bitsOf w 26 2⟩

/-- The size of an element of a format. -/
def ctlSize (fmt : Nat) : Nat := if fmt = 1 then 2 else 4

/-- The requirements of R319 on a length and the fields of `ctl`. -/
def collectiveOk (op : Instr) (m l : Nat) (x : Ctl) : Bool :=
  x.rest == 0 &&
  (if op = .clAg then l % 16 == 0 && decide (m * l ≤ 2 ^ 20) && x.op == 0 && x.fmt == 0 && x.root == 0
   else if op = .clRs then l % (16 * m) == 0 && x.op != 3 && x.fmt != 3 && x.root == 0
   else if op = .clAr then l % ctlSize x.fmt == 0 && decide (l ≤ 2 ^ 20) && x.op != 3 && x.fmt != 3 && x.root == 0
   else l % 16 == 0 && decide (x.root < m) && x.op == 0 && x.fmt == 0)

/-- The number of bytes that land. -/
def collectiveSize (op : Instr) (m l : Nat) : Nat :=
  if op = .clAg then m * l else if op = .clRs then l / m else l

/-- Bytes `[lo, lo + n)` of what lands, from the own contribution of `l` bytes. -/
def collectiveBytes (d : Cmd) (m : Members) (x : Ctl) (src : Where) (l lo n : Nat) : Act (List EByte) := do
  if d.op = .clAg then
    let parts ← (List.range m.count).mapM fun i => do
      let a := max lo (i * l)
      let k := min (lo + n) ((i + 1) * l) - a
      if i = m.own then readAt d.party (src.add (a - i * l)) k else freeBytes k
    pure (parts.foldr (· ++ ·) [])
  else if d.op = .clRs then
    pure (reduceMembers x.op x.fmt (← contributions m (← readAt d.party (src.add (m.own * (l / m.count) + lo)) n)))
  else if d.op = .clAr then pure (reduceMembers x.op x.fmt (← contributions m (← readAt d.party (src.add lo) n)))
  else if x.root = m.own then readAt d.party (src.add lo) n
  else freeBytes n

/-- The base of the signal words: every one of them on a PIN page (R320). -/
def collectiveSignals (d : Cmd) (pieces : Nat) : Act (Option Nat) := do
  match ← signalBase d pieces with
  | none => pure none
  | some va =>
    (List.range pieces).forM fun k => do
      match ← translateVa d.job (va + 8 * k) with
      | some m => check m.pin
      | none => stop (.page d.job (va + 8 * k) 2 8)
    pure (some va)

def addLanternSignal (d : Cmd) (base : Option Nat) (k : Nat) : Act Unit :=
  match base with
  | none => pure ()
  | some va => onCore fun c =>
      let s : Signal := ⟨d.going, va + 8 * k, compWord stOk (compTag d.tcw) k, d.station, true⟩
      { c with signals := c.signals ++ [s] }

/-- How a turn of a collective comes out: it has ended, or pieces of it are still to land. -/
inductive Progress where
  | ended (f : Finish)
  | more (left : List Nat) (bad : Option Nat)

/-- Bytes of one piece of a collective (R320). -/
def lanternPiece : Nat := 65536

/-- The start of a collective but `cl.grp` at this member: its checks, and how the other members meet it. -/
def collectiveCheck (d : Cmd) (m : Members) : Act Progress := do
  let l := d.number 2
  let ctl := ctlOf d
  if l = 0 then
    membersAgree m
    pure (.ended (finOk 0))
  else
    check (collectiveOk d.op m.count l ctl)
    let n := collectiveSize d.op m.count l
    let dst ← d.place d.seg 0 n 2
    let _ ← d.place d.seg 1 l 1
    check (!anyMapped (← get) dst n)
    let _ ← collectiveSignals d (ceilDiv n lanternPiece)
    membersAgree m
    pure (.more (List.range (ceilDiv n lanternPiece)) none)

/-- Piece `k` of a collective lands, and is signalled (R320); a member that is lost ends the command, and no later piece is
signalled (R322). -/
def collectivePiece (d : Cmd) (m : Members) (left : List Nat) (bad : Option Nat) (k : Nat) : Act Progress := do
  match m.lost with
  | some i => endWith stLost i
  | none =>
    let l := d.number 2
    let n := collectiveSize d.op m.count l
    let dst ← d.place d.seg 0 n 2
    let src ← d.place d.seg 1 l 1
    let lo := lanternPiece * k
    let sig ← signalBase d (ceilDiv n lanternPiece)
    let out ← collectiveBytes d m (ctlOf d) src l lo (min n (lo + lanternPiece) - lo)
    writeAt d.party (dst.add lo) out
    addLanternSignal d sig k
    let rest := left.filter (· != k)
    let bad := minBad bad (beforePoison dst.addr 0 (dst.addr + lo) out)
    if rest.isEmpty then pure (.ended (match bad with | some b => ⟨stFault, b, none⟩ | none => finOk n))
    else pure (.more rest bad)

/-! ### `cl.grp` (R321) -/

/-- Where the next descriptor and member list go in the job's group region: behind those of the groups that `cl.grp` has
made. DEDUCED (log 50). -/
def groupSpace (p : Platform) (c : Core) (job : Nat) : Nat :=
  (c.groups.filter fun k => k.job == job).foldl
    (fun a k => max a ((c.mem.read (groupAddr p c job k.ctx) 8 + 2 * groupCount p c job k.ctx + 63) / 64 * 64))
    (jobField p c job 0x78)

/-- The list of member numbers, and the index of the own device among them if it is one. -/
def subgroup (m : Members) (first count stride : Nat) : List Nat × Option Nat :=
  let l := (List.range count).map fun i => first + i * stride
  (l, l.findIdx? (· == m.own))

/-- A descriptor: list, control, count, own index, sequence 0. -/
def writeDescriptor (a list control count own : Nat) (c : Core) : Core :=
  c.deviceWrite a 64 fun m =>
    let m := m.write a 8 list
    let m := m.write (a + 8) 8 control
    let m := m.write (a + 0x10) 4 count
    let m := m.write (a + 0x14) 4 own
    m.setBytes (a + 0x18) (List.replicate 40 0)

/-- DESIGN CHOICE (log 17). -/
def clGrpRun (d : Cmd) (m : Members) : Act Finish := do
  let p ← read
  let parent := groupOf d
  let new := bitsOf (descImm d.tcw 0) 8 8
  let first := bitsOf (descImm d.tcw 1) 0 14
  let count := bitsOf (descImm d.tcw 2) 0 14
  let stride := bitsOf (descImm d.tcw 3) 0 14
  let c ← get
  let base := groupSpace p c d.job
  let room := jobField p c d.job 0x78 + jobField p c d.job 0x80
  check (decide (16 ≤ new) && !groupLive p c d.job new && decide (1 ≤ count)
    && decide (first + (count - 1) * stride < m.count) && decide (base + 64 + 2 * count ≤ room))
  membersAgree m
  let (l, own) := subgroup m first count stride
  let ownIndex ← match own with
    | some i => pure i
    | none => do pure ((← freeValue).toNat % 2 ^ 32)
  let c ← get
  let devices := l.map fun i => memberDevice p c d.job parent i
  let home := c.mem.read (groupAddr p c d.job parent + 8) 8 % 4
  onCore fun c =>
    let list := base + 64
    let c := c.deviceWrite list (2 * count) fun m => m.setBytes list (packed devices)
    let c := { c with groups := ⟨d.job, new⟩ :: c.groups }
    writeDescriptor (groupAddr p c d.job new) list (home + 256) count ownIndex
      (writeDescriptor base list (home + 256) count ownIndex c)
  pure (finOk (match own with | some i => i | none => 2 ^ 48 - 1))
where
  packed (devices : List Nat) : List Byte := devices.foldr (fun x acc => leBytes 2 x ++ acc) []

/-! ### COLLECTIVE_START (R318) -/

/-- The waiting command that a group's Lantern takes next: the one that reached it first. A station's commands are executed in
the order of its queue (R18). -/
def firstCollective (c : Core) (x : Collective) : Bool :=
  c.collectives.all fun y =>
    !((y.cmd.job == x.cmd.job && y.group == x.group) || y.cmd.station == x.cmd.station) || decide (x.ordinal ≤ y.ordinal)

/-- A collective counted in its group's sequence (R309). -/
def countCollective (p : Platform) (job g : Nat) (c : Core) : Core :=
  let a := groupAddr p c job g + 0x18
  c.deviceWrite a 8 fun m => m.write a 8 (m.read a 8 + 1)

/-- One turn of a collective: its start, or one of the pieces that are left, in any order. -/
def turnCollective (x : Collective) : Act Progress := do
  let p ← read
  let m := membersOf p (← get) x.cmd.job x.group
  match x.left with
  | some l =>
    membersGoOn m
    let v ← freeValue
    collectivePiece x.cmd m l x.bad (l.getD (v.toNat % max 1 l.length) 0)
  | none =>
    onCore (countCollective p x.cmd.job x.group)
    if x.cmd.op = .clGrp then pure (.ended (← clGrpRun x.cmd m)) else collectiveCheck x.cmd m

/-- The core once a collective has ended at this member. -/
def endCollective (x : Collective) (f : Finish) (c : Core) : Core :=
  finishCmd 5 x.cmd f { c with collectives := c.collectives.filter fun y => y.cmd.seq != x.cmd.seq }

/-- A collective whose pieces still land. -/
def keepCollective (x : Collective) (left : List Nat) (bad : Option Nat) (c : Core) : Core :=
  { c with collectives := c.collectives.map fun y => if y.cmd.seq = x.cmd.seq then { y with cmd := y.cmd.going, left := some left, bad := bad } else y }

/-- COLLECTIVE_START: all members' commands have arrived for the waiting command that the argument tells, which starts, or goes
on with its pieces. -/
def collectiveStart (a : EventArg) (s : State) : Outcome :=
  match s.core.collectives[a.index]? with
  | none => .next s
  | some x =>
    if firstCollective s.core x && !x.cmd.waits s.core then
      -- The free value that decided the outcome is not drawn again.
      let counted (c : Core) : Core :=
        { (if x.left.isNone then countCollective s.plat x.cmd.job x.group c else c) with freeNo := c.freeNo + 1 }
      match turnCollective x s.plat s.core with
      | .ok (.ended f, c) => .next { s with core := endCollective x f c }
      | .ok (.more l bad, c) => .next { s with core := keepCollective x l bad c }
      | .error (.status code result trap tlb) =>
        .next { s with core := endCollective x ⟨code, result, trap⟩ (counted { s.core with tlb := tlb }) }
      | .error (.page _ va kind size) => .next { s with core := markPage s.plat x.cmd (va, kind, size) s.core }
      | .error (.fault f) => .fault f
      | .error (.park (.pinLine line)) => .next { s with core := markRetry s.plat x.cmd line s.core }
      | .error (.park _) | .error (.hold _) | .error (.migrate _ _) | .error (.reserve _) | .error (.begin _ _ _ _ _)
      | .error (.rollback _ _ _ _) | .error (.reached _ _ _) => .next s
      | .error e => .next { s with core := endCollective x ⟨stFault, 0, none⟩ (counted (engineReached s.plat x.cmd e s.core)) }
    else .next s

def execCollectiveStart (s : State) : Outcome :=
  match s.core.work with
  | .event a => collectiveStart a s
  | .idle | .strand _ _ _ _ _ | .engine _ => .next s

/-! ### Signal words (R186, R188, R320) -/

/-- One of the signals on their way is stored; the argument tells which. -/
def signalAct (lantern : Bool) (e : EventArg) : Act Unit := do
  match (← get).signals[e.index]? with
  | none => notYet
  | some s =>
    require (s.lantern == lantern)
    forCmd s.cmd (updSignal e.index) do
      storeFull s.cmd.party s.station s.va s.value .station
      onCore fun c => { c with signals := c.signals.eraseIdx e.index }

def execPieceSignal (s : State) : Outcome := runEvent (signalAct false) s
def execLanternPieceSignal (s : State) : Outcome := runEvent (signalAct true) s

end Sys2Proof.Machine
end

