-- ==== Sys2Proof/Machine/Reperform.lean ====
section
/-! DEFINITION. A strand that a page fault has dropped (R52): its PAGE record, and the access performed again once the
supervisor has woken it; and contexts that `ctxflush` waits for (R149). -/

namespace Sys2Proof.Machine

open Sys2Proof

/-! ### Rejoining the ready set (R51) -/

/-- A stored context's activation queued at the station that last activated it (R44). -/
def queueActivation (k : Key) (c : Core) : Core :=
  match c.strand? k with
  | none => c
  | some x => c.updStation x.station fun s =>
      { s with activations := if s.activations.contains k then s.activations else s.activations ++ [k] }

/-- A strand back in the ready set: from its cache entry it becomes WAITING, from memory it enters activation. -/
def rejoin (p : Platform) (k : Key) (c : Core) : Core :=
  match c.strand? k with
  | none => c
  | some x =>
    match x.place with
    | .parked => fillSlots p x.station (c.setStrand { x with place := .waiting, parked := none, since := c.seq }).tick
    | .stored => queueActivation k (c.setStrand { x with parked := none })
    | .slotted _ | .waiting | .activating | .held | .moving _ | .ended => c.setStrand { x with parked := none }

/-- A woken strand rejoins the ready set; one that a page fault has dropped waits for its access (R51, R56). -/
def wakeStrand (p : Platform) (k : Key) (c : Core) : Core :=
  match c.strand? k with
  | none => c
  | some x => if x.dropped.isSome then c.setStrand { x with parked := none } else rejoin p k c

/-! ### Contexts that a `ctxflush` waits for (R149) -/

/-- Whether a `ctxflush` waits for a context to be stored. -/
def flushWaits (c : Core) (k : Key) : Bool := c.strands.any fun x => x.hold == .flush k.ctx && x.key.job == k.job

/-- A flushed context is stored once nothing of it is outstanding; a pinned one stays resident. -/
def settleFlush (k : Key) : Act Unit := do
  let c ← get
  match c.strand? k with
  | none => pure ()
  | some x =>
    let idle := x.drained && !x.blocked &&
      (match x.place with
       | .parked | .waiting | .slotted _ => true
       | .stored | .activating | .held | .moving _ | .ended => false)
    if flushWaits c k && x.stopping && idle then
      let _ ← if x.pinned then flushPinned x (taskStops c x) else evictContext k
    else pure ()

/-! ### PAGE (R52, R144) -/

/-- PAGE: the record goes to the die of the strand's station, and an unpinned strand leaves its slot. -/
def pageAct (e : EventArg) : Act Unit := do
  let k : Key := ⟨e.job, e.addr⟩
  let p ← read
  match (← get).strand? k with
  | none => notYet
  | some x =>
    match x.dropped with
    | none => notYet
    | some d =>
      require !d.told
      onCore (supSend p ⟨dieOf x.station, 1, x.station, k.job, k.ctx, wordOf d.va, [wordOf d.kind, wordOf d.size, d.addr]⟩)
      onCore fun c => c.setStrand { x with dropped := some { d with told := true } }
      match x.pinned, x.place with
      | false, .slotted _ => onCore (leaveTo p k .parked none)
      | _, _ => pure ()

def execPage (s : State) : Outcome := runEvent pageAct s

/-! ### ACCESS_REPERFORM (R52) -/

/-- The access of a request, as its first performance. -/
def reperform (x : Strand) (r : MemReq) : Act Loaded :=
  match r with
  | .fetch => pure ⟨0, none⟩
  | .load va size _ => loadAt x.party va size
  | .store va size v => do
    storeAt x.party va size v
    pure ⟨0, none⟩
  | .fe op va v scope => feAt x.party op va v scope
  | .amo op va size b e ord scp => amoAt x.party op va size b.toNat e.toNat ord scp
  | .segld n va => segldAccess n va
  | .segst va d => segstAccess va d
  | .rcx va idx => rcxAccess va idx
  | .wcx va idx v => wcxAccess va idx v
  | .smap so va len => smapAccess so va len
  | .sflush op so len => stashOpAccess op so len
  | .join cell => joinAccess cell
  | .tail record => tailAccess record
  | .gdec record => gdecAccess record
  | .qput q v => qputAccess q v
  | .qtake q => qtakeAccess q
  | .lineage op h y => linStep op h y

/-- The value that an access's destination takes (R107, R116). -/
def MemReq.extend (r : MemReq) (v : Nat) : Word :=
  match r with
  | .load _ size signed => if signed then sextTo v (8 * size) else zextTo v (8 * size)
  | .amo _ _ size _ _ _ _ => zextTo v (8 * size)
  | .fetch | .store _ _ _ | .fe _ _ _ _ | .segld _ _ | .segst _ _ | .rcx _ _ | .wcx _ _ _ | .smap _ _ _ | .sflush _ _ _
  | .join _ | .tail _ | .gdec _ | .qput _ _ | .qtake _ | .lineage _ _ _ => wordOf v

/-- The long-latency operation of an instruction with what it brings. -/
def Strand.bring (x : Strand) (addr : Word) (r : LlResult) : Strand :=
  { x with ops := x.ops.map fun o => if o.addr = addr ∧ o.result = .pending then { o with result := r } else o }

/-- The counts of the instructions issued after each operation and refused store that came before an instruction, without it. -/
def Strand.uncounted (x : Strand) (stamp : Nat) : Strand :=
  { x with
    ops := x.ops.map fun o => if o.stamp < stamp then { o with issued := o.issued - 1 } else o
    refusals := x.refusals.map fun r => if r.stamp < stamp then { r with count := r.count - 1 } else r
    poison := x.poison.map fun r => if r.grows && decide (r.stamp < stamp) then { r with count := r.count - 1 } else r }

/-- The strand as if the instruction at `addr` had not issued: its operation is gone, the window is as it was unless the operations
before it have completed since, and a destination that was full is full (R65). A loop-back that its issue applied stays applied:
DESIGN CHOICE (log 115). -/
def Strand.unissued (x : Strand) (d : Dropped) : Strand :=
  let ops := x.ops.filter fun o => !(o.addr == d.addr && o.result == .pending)
  let y := { x with pc := d.addr, dropped := none, ops := ops, window := if ops.isEmpty then 0 else d.window }.uncounted d.stamp
  match gprOf d.dest with
  | some n => if d.longLatency && d.wasFull then y.setBit n true else y
  | none => y

/-- The strand once its access has taken effect: an instruction that RETRY had held back is passed only now (R102). -/
def Strand.effected (x : Strand) (d : Dropped) : Strand :=
  let y := { x with dropped := none }
  if d.retried then y.advance 4 else y

/-- What the access brings goes to its destination, zero for a poisoned word (R138), and the strand issues again at its pc. -/
def finishReperform (d : Dropped) (r : Loaded) : Act Unit := do
  if (memberOf (← get) (← myKey) d.stamp).isSome then pure ()
  else if d.longLatency then
    updMe fun x => x.bring d.addr (match r.poison with | some va => .poison va | none => .value (d.req.extend r.value) 0)
  else
    writeReg d.dest (if r.poison.isSome then 0 else d.req.extend r.value)
    match r.poison with
    | some va => updMe fun x => { x with poison := x.poison ++ [⟨d.addr, wordOf (va / 8 * 8), 0, d.stamp, false⟩] }
    | none => pure ()
  updMe fun x => x.effected d

/-- How a performance that does not complete leaves the strand (R52, R109). -/
def reperformStop (k : Key) (x : Strand) (d : Dropped) (e : Stop) : Act Unit := do
  let p ← read
  match e with
  | .park w => onCore fun c => parkStrand p k w (reachedHome p x.party d.req c)
  | .page job va kind size =>
    let later := { d with va := va, kind := kind, size := size, told := false, woken := false, retried := false }
    onCore fun c => (walked p job va c).updStrand k fun y => { y.effected d with dropped := some later }
  | .refuse va =>
    onCore (reachedHome p x.party d.req)
    onCore fun c => c.setStrand { x.effected d with refusals := x.refusals ++ [⟨d.addr, wordOf va, 1, d.stamp, true⟩] }
    onCore (rejoin p k)
  | .trap cause code tval next =>
    onCore (reachedHome p x.party d.req)
    onCore (updRegs k fun y => y.unissued d)
    onCore (rejoin p k)
    onCore (raiseTrap p k cause code tval (if next then d.addr + 4 else d.addr))
  | .rollback job record line ctx =>
    match memberOf (← get) k d.stamp with
    | some r => abandonMember r
    | none => pure ()
    onCore (updRegs k fun y => y.unissued d)
    onCore (rejoin p k)
    onCore (requestRollback job record line ctx)
  | .fault f => faultWith f
  | .reached _ _ _ | .hold _ | .acquired _ _ _ | .migrate _ _ | .status _ _ _ _ | .reserve _ | .begin _ _ _ _ _ => notYet

/-- The access of a dropped strand performed again. One that waits for a word's bit, or for room, parks, and is performed again
at its wake. -/
def performDropped (k : Key) (x : Strand) (d : Dropped) : Act Unit := do
  let w := (← get).work
  onCore fun c => { c with work := .strand x.station 0 k 0 none }
  match ← attempt (do
    let r ← reperform x d.req
    finishReperform d r) with
  | .ok _ => do
    let p ← read
    onCore (rejoin p k)
  | .error stop => reperformStop k x d stop
  onCore fun c => { c with work := w }
  settleFlush k

/-- ACCESS_REPERFORM for a context that the supervisor has woken. -/
def reperformAct (e : EventArg) : Act Unit := do
  let k : Key := ⟨e.job, e.addr⟩
  match (← get).strand? k with
  | none => notYet
  | some x =>
    match x.dropped with
    | none => notYet
    | some d =>
      require (d.woken && x.parked.isNone)
      performDropped k x d

def execAccessReperform (s : State) : Outcome := runEvent reperformAct s

end Sys2Proof.Machine
end

