-- ==== Sys2Proof/Machine/Delivery.lean ====
section
/-! DEFINITION. What is on its way to a strand as it arrives: words of links and inboxes (R122, R123), completions of
long-latency operations (R65, R66) and of engine commands (R77, R380), refused stores (R109), and the entry into a trap
handler (R138). -/

namespace Sys2Proof.Machine

open Sys2Proof

def argKey (e : EventArg) : Key := ⟨e.job, e.addr⟩

/-! ### LINK_WORD_ARRIVAL and INBOX_PUSH (R122, R123) -/

/-- A word whose capability does not match: a CAP record of item 2 at the receiving station (R144). -/
def wordCapEvent (pid job ctx : Nat) (key : BitVec 16) (w : Word) (cap : BitVec 16) : SupEvent :=
  ⟨dieOf pid, 4, pid, job, ctx, wordOf (2 * 2 ^ 56 + key.toNat), [w, cap.zeroExtend 64]⟩

/-- The first word of a queue that is on its way arrives. -/
def linkArrivalAct (e : EventArg) : Act Unit := do
  match (← get).linkMsgs[e.index]? with
  | none => notYet
  | some m =>
    require (((← get).linkMsgs.take e.index).all fun y => !(y.pid == m.pid && y.east == m.east))
    onCore fun c => { c with linkMsgs := c.linkMsgs.eraseIdx e.index }
    let key := ((← get).station m.pid).pkey
    if m.word.cap = key then
      onCore fun c => wakeAll (.link m.pid m.east false)
        (c.updStation m.pid fun s => s.setLinkIn m.east (s.linkIn m.east ++ [m.word]))
    else
      sendEvent (wordCapEvent m.pid m.sender.job m.sender.ctx key m.word.word m.word.cap)
      onCore fun c => match neighbour m.pid m.east with
        | some n => wakeAll (.link n (!m.east) true) c
        | none => c

def execLinkWordArrival (s : State) : Outcome := runEvent linkArrivalAct s

/-- A word put into a lane of a live record, and the strand woken if it waits for its inbox. -/
def pushLane (k : Key) (high : Bool) (w : Word) (n : Note) (c : Core) : Core :=
  wakeIf k .inbox (c.updStrand k fun x =>
    if high then { x with inHigh := x.inHigh.push w n } else { x with inLow := x.inLow.push w n })

/-- A word on its way to an inbox arrives; words of one sender to one lane arrive in the order sent. -/
def inboxPushAct (e : EventArg) : Act Unit := do
  match (← get).messages[e.index]? with
  | none => notYet
  | some m =>
    require (((← get).messages.take e.index).all fun y => !(y.key == m.key && y.high == m.high && y.sender == m.sender))
    match liveStrand (← get) m.key with
    | none =>
      let st := home m.key.ctx
      sendEvent ⟨dieOf st, 5, st, m.key.job, m.sender.ctx, wordOf m.key.ctx, [m.word]⟩
      onCore (wakeLane m.key m.high)
    | some x =>
      reachRecord m.key
      let key := ((← get).station x.station).pkey
      if m.cap = key then onCore (pushLane m.key m.high m.word .plain)
      else
        sendEvent (wordCapEvent x.station m.sender.job m.sender.ctx key m.word m.cap)
        onCore (wakeLane m.key m.high)
    onCore fun c => { c with messages := c.messages.eraseIdx e.index }

def execInboxPush (s : State) : Outcome := runEvent inboxPushAct s

/-! ### LONG_LATENCY_COMPLETE (R65, R66) -/

/-- LookaheadComplete of R65 for operation `i`: its destination full with its value, or with zero and a POISON. -/
def Strand.completed (x : Strand) (i : Nat) (o : LlOp) (v : Word) (flags : BitVec 5) (poison : Option Nat) : Strand :=
  let ops := x.ops.eraseIdx i
  let y := { x with
    ops := ops
    window := if ops.isEmpty then 0 else x.window
    fpflags := x.fpflags ||| flags
    poison := match poison with
      | some va => x.poison ++ [⟨o.addr, wordOf (va / 8 * 8), o.issued, o.stamp, false⟩]
      | none => x.poison }
  match o.dest with
  | some n => y.setReg n v true .plain
  | none => y

/-- The wakes that follow a completion. -/
def wakeCompleted (k : Key) (o : LlOp) (c : Core) : Core :=
  let c := match o.dest with
    | some n => wakeBit k n true c
    | none => c
  let c := wakeIf k .longLatency c
  match c.strand? k with
  | some x => if x.ops.isEmpty then wakeIf k .drain c else c
  | none => c

/-- A member under way ends (R245): its operation has what it brings. Where a page is not present the access is performed again
at the supervisor's wake (R250, R52); where committed data is damaged, it ends without effect and its task is rolled back (R241,
R252): what it brings then is undone with the task. DEDUCED (log 88). -/
def memberTurn (r : LinRun) : Act Unit := do
  match ← attempt (endMember r) with
  | .ok v => onCore fun c => c.updStrand r.key fun x => { x with ops := x.ops.map fun o =>
      if o.stamp = r.stamp ∧ o.result = .pending then { o with result := .value (wordOfInt v) 0 } else o }
  | .error (.page job va kind size) =>
    let p ← read
    onCore fun c => (walked p job va c).updStrand r.key fun x =>
      { x with dropped := some ⟨.lineage r.op r.h r.x, .zr, true, va, kind, size, r.addr, false, false, r.stamp, false, x.window, false⟩ }
  | .error (.rollback job record line ctx) => do
    abandonMember r
    onCore fun c => requestRollback job record line ctx (c.updStrand r.key fun x => { x with ops := x.ops.map fun o =>
      if o.stamp = r.stamp ∧ o.result = .pending then { o with result := .value (wordOfInt lnBadHandle) 0 } else o })
  | .error e => stop e

/-- LONG_LATENCY_COMPLETE of one of a strand's operations; the argument tells which. A lineage member under way ends first, even
if its strand has died (R252). -/
def longCompleteAct (e : EventArg) : Act Unit := do
  let k := argKey e
  match liveStrand (← get) k with
  | none =>
    match (← get).members.find? fun r => r.key == k with
    | some r => memberTurn r
    | none => notYet
  | some x =>
    match x.ops[e.index]? with
    | none => notYet
    | some o =>
      reachRecord k
      match o.result with
      | .pending =>
        match memberOf (← get) k o.stamp with
        | some r =>
          require x.dropped.isNone
          memberTurn r
        | none => notYet
      | .value v flags => onCore fun c => wakeCompleted k o (c.setStrand (x.completed e.index o v flags none))
      | .poison va => onCore fun c => wakeCompleted k o (c.setStrand (x.completed e.index o 0 0 (some va)))
      settleFlush k

def execLongLatencyComplete (s : State) : Outcome := runEvent longCompleteAct s

/-! ### STORE_REFUSED (R109) -/

/-- A refusal returns to its strand, which takes POISON at its next issue. DEDUCED (log 27). -/
def storeRefusedAct (e : EventArg) : Act Unit := do
  let k := argKey e
  match liveStrand (← get) k with
  | none => notYet
  | some x =>
    match x.refusals[e.index]? with
    | none => notYet
    | some r =>
      reachRecord k
      onCore fun c => c.setStrand { x with refusals := x.refusals.eraseIdx e.index, poison := x.poison ++ [{ r with count := r.count - 1 }] }

def execStoreRefused (s : State) : Outcome := runEvent storeRefusedAct s

/-! ### TRAP_ENTRY (R66, R138) -/

/-- The POISON that is earliest in program order. -/
def earliestPoison : List Poison → Option Poison
  | [] => none
  | e :: rest =>
    match earliestPoison rest with
    | some f => if f.stamp < e.stamp then some f else some e
    | none => some e

/-- A slotted strand with N = 0 takes its POISON, or else the trap that waited for N = 0. DEDUCED (log 40). -/
def trapEntryAct (e : EventArg) : Act Unit := do
  let k := argKey e
  let p ← read
  match liveStrand (← get) k with
  | none => notYet
  | some x =>
    require (x.ops.isEmpty && x.parked.isNone && x.dropped.isNone && !(← get).cancelled.contains k.job &&
      (match x.place with | .slotted _ => true | _ => false))
    match if x.im then none else earliestPoison x.poison with
    | some q =>
      onCore fun c => takeTrap p k causePoison 0 (decide (1 < x.poison.length)) q.va x.pc q.opc q.count x.pc
        (c.setStrand { x with poison := [] })
    | none =>
      match x.trapPend with
      | some t => onCore fun c => takeTrap p k t.cause t.code false t.tval t.epc 0 0 t.addr (clearOwed k t.src c)
      | none => notYet

def execTrapEntry (s : State) : Outcome := runEvent trapEntryAct s

/-! ### ENGINE_COMPLETION (R77, R171, R182, R337, R380) -/

def Completion.word (x : Completion) : Word := compWord x.status (compTag x.cmd.tcw) x.result

/-- A mode-4 completion word fills its register; a strand that waits for it is ready in the cycle of delivery (R16, R51). -/
def fillStatus (p : Platform) (k : Key) (n : Fin 16) (w : Word) (note : Note) (c : Core) : Core :=
  let c := c.updStrand k fun x => x.setReg n w true note
  let ready : Bool := match c.strand? k with | some x => x.parked == some (.reg n) && !x.stopping | none => false
  wakeBit k n true (if ready then wakeStrand p k c else c)

/-- What a completion does in its mode; one that decrements a graph node is delivered with the node's count (R16). -/
def deliverMode (x : Completion) : Act Unit := do
  let d := x.cmd
  let p ← read
  let k : Key := ⟨d.job, d.ctx⟩
  match compMode d.tcw, liveStrand (← get) k with
  | 1, some y => do
    reachRecord k
    require (laneRoom (← get) k false)
    onCore (pushLane k false x.word (.completion x.trap (y.hold == .engines)))
    noteDelivered x
  | 2, _ => do
    match d.w7Addr with
    | some va => storeFull d.party d.station va x.word .station
    | none => pure ()
    noteDelivered x
  | 3, _ =>
    match d.w7Addr with
    | some va => onCore fun c => { c with decrements := c.decrements ++ [⟨d.job, va, d.job, d.station, d.ctx, some x⟩] }
    | none => noteDelivered x
  | 4, some y => do
    reachRecord k
    match statusReg d.tcw with
    | some n => onCore (fillStatus p k n x.word (.completion x.trap (y.hold == .engines)))
    | none => pure ()
    noteDelivered x
  | _, _ => noteDelivered x

/-- Whether a completion's turn has come: none before it that keeps its order is still to be delivered, as its word or with its
decrement (R16, R171, R283). -/
def inTurn (p : Platform) (c : Core) (i : Nat) (d : Cmd) : Bool :=
  (c.completions.take i).all (fun y => !inOrder p c y.cmd d) &&
    c.decrements.all fun g => match g.done with | some y => !inOrder p c y.cmd d | none => true

/-- ENGINE_COMPLETION of an ended command, after its signals; the argument tells which. A node's command ends its task
(R212). -/
def engineCompletionAct (e : EventArg) : Act Unit := do
  let p ← read
  let c ← get
  match c.completions[e.index]? with
  | none => notYet
  | some x =>
    let d := x.cmd
    require (!(c.signals.any fun s => s.cmd.seq == d.seq) && inTurn p c e.index d)
    forCmd d (updCompletion e.index) do
      match d.node with
      | some record => onCore fun c => { c with tasks := c.tasks.map fun t =>
          if t.job = d.job ∧ t.record = record then { t with ended := some x.status } else t }
      | none => deliverMode x
      onCore fun c => { c with completions := c.completions.eraseIdx e.index }

def execEngineCompletion (s : State) : Outcome := runEvent engineCompletionAct s

end Sys2Proof.Machine
end

