-- ==== Sys2Proof/Machine/Context.lean ====
section
/-! DEFINITION. Contexts between their states (R43): wakes (R51, R53, R56), activation and eviction (R44, R45), context
lines (R44, R360) and the arrival of a migration (R54). -/

namespace Sys2Proof.Machine

open Sys2Proof

/-- A CTXPF record (R144): 1 activation, 2 write-back, 3 a poisoned line with its offset. -/
def ctxpfEvent (x : Strand) (extra : List Word) : SupEvent :=
  ⟨dieOf x.station, 2, x.station, x.key.job, x.key.ctx, wordOf x.key.ctx, extra⟩

/-! ### STRAND_WAKE -/

/-- Whether a wake ends a park: the event that the strand waits for, a user's `wake` of a `park`, or the supervisor's. -/
def wakeMatches (w : Wake) (x : Strand) : Bool :=
  match x.parked with
  | none => false
  | some r => w.reason == some r || (w.reason.isNone && (w.supervisor || r == .park))

/-- A wake of a strand whose job is cancelled (R56, R213): it gives up what it waits for and dies, at its next issue, at the
activation that starts, on its arrival, or at once if it is HELD. -/
def dyingWake (p : Platform) (k : Key) (x : Strand) (c : Core) : Core :=
  let c := c.setStrand { x with parked := none, dropped := none, blocked := false, stopping := false, hold := .none }
  match x.place with
  | .held => retireStrand p k c
  | .stored | .parked => rejoin p k c
  | .slotted _ | .waiting | .activating | .moving _ | .ended => c

/-- A held write-back completes, unless its page is still not present (R45): an unpinned context that holds no slot is then STORED. -/
def finishWriteBack (p : Platform) (k : Key) (x : Strand) (c : Core) : Core :=
  let c := walked p k.job k.ctx c
  match recordFrame p k c, x.pinned, x.place with
  | none, _, _ => holdWriteBack p x x.stopping c
  | some _, false, .parked | some _, false, .waiting => storeContext p k c
  | some _, _, _ => writeRecord p k x.lines (c.updStrand k fun y => { y with blocked := false })

/-- What the supervisor's wake of a context does beside ending a park (R45, R52, R53, R193). DESIGN CHOICE (log 41). -/
def supervisorWake (p : Platform) (k : Key) (x : Strand) (c : Core) : Core :=
  if x.place = .held then queueActivation k (c.updStrand k fun y => { y with place := .stored })
  else if x.dropped.isSome then
    c.updStrand k fun y => { y with dropped := y.dropped.map fun d => if d.told then { d with woken := true } else d }
  else if x.blocked then finishWriteBack p k x c
  else if x.place = .stored ∧ x.parked = none then queueActivation k c
  else c

/-- A line's holder has released it: the access that waits for it is reissued at once (R50, R166). -/
def reissuePinned (w : Wake) : Act Unit := do
  match w.reason, liveStrand (← get) w.key with
  | some (.pinLine _), some x =>
    match x.dropped with
    | some d => if d.woken && x.parked.isNone then performDropped w.key x d
    | none => pure ()
  | _, _ => pure ()

/-- What a wake does as it arrives. A strand that has been stopped takes no wake until it is stored or resumed (R149, R215),
but for one that lets its outstanding access or write-back end; a wake that finds nothing to end has no effect (R51). The
supervisor's wake of a context whose write-back is held completes the write-back and leaves its park (R45). -/
def wakeArrives (p : Platform) (w : Wake) (x : Strand) : Act Unit := do
  if (← get).cancelled.contains w.key.job then onCore (dyingWake p w.key x)
  else
    require (!x.stopping || x.blocked || x.dropped.isSome)
    if wakeMatches w x && !(w.supervisor && x.blocked) then
      onCore (wakeStrand p w.key)
      reissuePinned w
    if w.supervisor then
      match liveStrand (← get) w.key with
      | some y => onCore (supervisorWake p w.key y)
      | none => pure ()
      settleFlush w.key

/-- Whether a wake is another that must arrive before: the accesses that wait for a PIN line are reissued in the order in which
they came (R166). -/
def wakesBefore (v w : Wake) : Bool :=
  v.key.job == w.key.job && v.reason == w.reason && (match w.reason with | some (.pinLine _) => true | _ => false)

/-- Whether a command came to a pinned line before the strand of a wake did (R166). -/
def commandBefore (c : Core) (w : Wake) : Bool :=
  match w.reason, c.strand? w.key with
  | some (.pinLine line), some x => x.parked == w.reason && retryBefore c w.key.job line x.since
  | _, _ => false

/-- STRAND_WAKE: one of the wakes on their way arrives. The supervisor's also lets the context's commands go on that wait for
a page (R193). -/
def strandWakeAct (e : EventArg) : Act Unit := do
  let p ← read
  match (← get).wakes[e.index]? with
  | none => notYet
  | some w =>
    require ((((← get).wakes.take e.index).all fun v => !wakesBefore v w) && !commandBefore (← get) w)
    onCore fun c => { c with wakes := c.wakes.eraseIdx e.index }
    if w.supervisor then onCore (resumeCmds w.key)
    match liveStrand (← get) w.key with
    | none => pure ()
    | some x => wakeArrives p w x

def execStrandWake (s : State) : Outcome := runEvent strandWakeAct s

/-! ### Cache entries (R45) -/

/-- Whether a context that holds no slot may be evicted (R45): a pinned one never may (R46), and one that a page fault has
dropped may be once it is woken. -/
def Strand.evictable (x : Strand) : Bool :=
  !x.pinned && !x.blocked && (match x.dropped with | some d => d.woken | none => true)

/-- The strand of a list that entered its state first. -/
def oldestOf (l : List Strand) : Option Strand := (l.foldr insertSince []).head?

/-- The context that an eviction chooses: the unpinned PARKED one that parked first, else the unpinned WAITING one that has
waited longest. DEDUCED (log 31). -/
def evictionChoice (c : Core) (pid : Nat) : Option Strand :=
  let l := (residents c pid).filter Strand.evictable
  match oldestOf (l.filter fun x => x.place == .parked) with
  | some x => some x
  | none => oldestOf (l.filter fun x => x.place == .waiting)

/-- A cache entry for a context: whether there is one. An eviction whose write-back meets a page that is not present
leaves its context unevictable, with a CTXPF record. -/
def takeEntry (pid : Nat) : Act Bool := do
  let p ← read
  let c ← get
  if (residents c pid).length < Config.residentMax then pure true
  else
    match evictionChoice c pid with
    | none => notYet
    | some x =>
      if ← pagePresent x.key.job x.key.ctx then
        onCore (storeContext p x.key)
        pure true
      else
        onCore (holdWriteBack p x x.stopping)
        pure false

/-! ### ACTIVATION_START, CONTEXT_LINE_ARRIVAL, ACTIVATION_COMPLETE (R44, R53, R360) -/

/-- The context at the head of a station's activation queue leaves it. -/
def dropActivation (pid : Nat) (c : Core) : Core :=
  c.updStation pid fun s => { s with activations := s.activations.tail }

/-- A context held for its record's page or for a poisoned line. A flush that waits for its activation has nothing left to store
(R149); a stop for the sake of its task stays (R215). -/
def holdContext (p : Platform) (x : Strand) (extra : List Word) (c : Core) : Core :=
  supSend p (ctxpfEvent x extra) (c.setStrand { x with place := .held, stopping := x.stopping && taskStops c x })

/-- ACTIVATION_START of the head of a station's activation queue. -/
def activationStartAct (e : EventArg) : Act Unit := do
  let pid := e.unit
  let p ← read
  let c ← get
  match (c.station pid).activations with
  | [] => notYet
  | k :: _ =>
    match liveStrand c k with
    | none => onCore (dropActivation pid)
    | some x =>
      if x.place ≠ .stored then onCore (dropActivation pid)
      else if c.cancelled.contains k.job then onCore fun c => retireStrand p k (dropActivation pid c)
      else
        require (decide ((c.strands.filter fun y => y.place == .activating && y.station == pid).length < Config.activationMax))
        if !(← pagePresent k.job k.ctx) then onCore fun c => holdContext p x [1] (dropActivation pid c)
        else
          match [0, 1, 2, 3].find? fun l => recordBad p c x (64 * l) with
          | some l => onCore fun c => holdContext p x [3, wordOf (64 * l)] (dropActivation pid c)
          | none =>
            if ← takeEntry pid then
              onCore fun c => (dropActivation pid c).updStrand k fun y => { y with place := .activating, station := pid, lines := [] }
            else pure ()

def execActivationStart (s : State) : Outcome := runEvent activationStartAct s

/-- CONTEXT_LINE_ARRIVAL of a line of a context, which its home brings out of L2 (R44, R379): one of lines 0 to 3 while it is activating, else the line that its strand
parks on. A poisoned line sends a CTXPF record: an activation is held (R360), and a strand that waits for the line goes on
waiting. -/
def lineArrivalAct (e : EventArg) : Act Unit := do
  let k := argKey e
  let p ← read
  match liveStrand (← get) k with
  | none => notYet
  | some x =>
    require (!x.lines.contains e.index && (if x.place = .activating then decide (e.index < 4) else x.parked == some (.ctxLine e.index)))
    let _ ← reachLine k.job (k.ctx + 64 * e.index) (k.ctx, 1, 64)
    let bad ← look fun p c => x.badLines.contains e.index || lineGone p c k (64 * e.index)
    if x.place = .activating ∧ bad then
      onCore (holdContext p { x with lines := [] } [3, wordOf (64 * e.index)])
    else
      onCore fun c =>
        let c := c.setStrand { x with lines := e.index :: x.lines }
        if bad then supSend p (ctxpfEvent x [3, wordOf (64 * e.index)]) c
        else wakeIf k (.ctxLine e.index) c

def execContextLineArrival (s : State) : Outcome := runEvent lineArrivalAct s

/-- ACTIVATION_COMPLETE: a context whose lines 0x000 to 0x0FF have arrived becomes WAITING. -/
def activationCompleteAct (e : EventArg) : Act Unit := do
  let k := argKey e
  let p ← read
  match liveStrand (← get) k with
  | none => notYet
  | some x =>
    require (x.place == .activating && [0, 1, 2, 3].all fun l => x.lines.contains l)
    onCore fun c => fillSlots p x.station ((c.setStrand { x with place := .waiting, since := c.seq }).tick)
    settleFlush k

def execActivationComplete (s : State) : Outcome := runEvent activationCompleteAct s

/-! ### MIGRATION_ARRIVAL (R54) -/

/-- A context whose accesses are all performed arrives at its target, once the lines of its record that are not resident have been
fetched, and one of a cancelled job dies there (R56). -/
def migrationArrivalAct (e : EventArg) : Act Unit := do
  let k := argKey e
  let p ← read
  match liveStrand (← get) k with
  | none => notYet
  | some x =>
    match x.place with
    | .moving target =>
      require (x.drained && !(← get).sending k)
      if (← get).cancelled.contains k.job then onCore (retireStrand p k)
      else if ← takeEntry target then
        ((List.range 10).filter fun l => !x.lines.contains l).forM fun l => do
          let _ ← reachLine k.job (k.ctx + 64 * l) (k.ctx, 1, 64)
        onCore fun c =>
          let y := { x with place := .waiting, station := target, lines := List.range 10, since := c.seq, parked := none }
          noteStation k.job x.task.toNat target (fillSlots p target (c.setStrand y).tick)
        settleFlush k
      else pure ()
    | .slotted _ | .waiting | .parked | .stored | .activating | .held | .ended => notYet

def execMigrationArrival (s : State) : Outcome := runEvent migrationArrivalAct s

end Sys2Proof.Machine
end

