-- ==== Sys2Proof/Machine/Fp.lean ====
section
/-! DEFINITION. The scalar FP32 members (R92 to R95). -/

namespace Sys2Proof.Machine

open Sys2Proof

/-- The sticky flags with more set (R93). -/
def setFlags (f : BitVec 5) : Act Unit := updMe fun x => { x with fpflags := x.fpflags ||| f }

/-- An FP32 member of two sources that is not long-latency: its flags are set at issue (R95). -/
def fpBinaryAct (f : Nat → Nat → Nat × BitVec 5) (d a b : Reg) : Act Unit := do
  lookaheadCheck [d] false
  let room ← attempt (destReady d)
  let x ← readReg a
  let y ← readReg b
  raise room
  let r := f (x.toNat % 2 ^ 32) (y.toNat % 2 ^ 32)
  setFlags r.2
  retire d (wordOf r.1)

/-- An FP32 member of one 64-bit source that is not long-latency. -/
def fpUnaryAct (f : Word → Word × BitVec 5) (d a : Reg) : Act Unit := do
  lookaheadCheck [d] false
  let room ← attempt (destReady d)
  let x ← readReg a
  raise room
  let r := f x
  setFlags r.2
  retire d r.1

def longOf (f : Nat → Nat → Nat × BitVec 5) (a b : Word) : Word × BitVec 5 :=
  let r := f (a.toNat % 2 ^ 32) (b.toNat % 2 ^ 32)
  (wordOf r.1, r.2)

def execFadd (d a b : Reg) (s : State) : Outcome := runCore (fpBinaryAct fpAdd d a b) s
def execFsub (d a b : Reg) (s : State) : Outcome := runCore (fpBinaryAct fpSub d a b) s
def execFmul (d a b : Reg) (s : State) : Outcome := runCore (fpBinaryAct fpMul d a b) s
def execFmin (d a b : Reg) (s : State) : Outcome := runCore (fpBinaryAct fpMin d a b) s
def execFmax (d a b : Reg) (s : State) : Outcome := runCore (fpBinaryAct fpMax d a b) s
def execFeq (d a b : Reg) (s : State) : Outcome := runCore (fpBinaryAct fpEq d a b) s
def execFlt (d a b : Reg) (s : State) : Outcome := runCore (fpBinaryAct fpLt d a b) s
def execFle (d a b : Reg) (s : State) : Outcome := runCore (fpBinaryAct fpLe d a b) s

/-- R94: long-latency; flags are set at completion (R95). -/
def execFdiv (d a b : Reg) (la : BitVec 4) (s : State) : Outcome := binaryLongOp (longOf fpDiv) d a b la s

def execFsqrt (d a : Reg) (la : BitVec 4) (s : State) : Outcome :=
  binaryLongOp (longOf fun x _ => fpSqrt x) d a .zr la s

def execFcvtIf (d a : Reg) (s : State) : Outcome := runCore (fpUnaryAct (fun x => fpToInt (x.toNat % 2 ^ 32)) d a) s

def execFcvtFi (d a : Reg) (s : State) : Outcome :=
  runCore (fpUnaryAct (fun x => (wordOf (fpOfInt x).1, (fpOfInt x).2)) d a) s

/-- `fneg` and `fabs` are bit operations and set no flag (R94). -/
def execFneg (d a : Reg) (s : State) : Outcome :=
  unaryOp (fun x => wordOf ((x.toNat % 2 ^ 32) ^^^ 2 ^ 31)) d a s

def execFabs (d a : Reg) (s : State) : Outcome := unaryOp (fun x => wordOf (x.toNat % 2 ^ 31)) d a s

end Sys2Proof.Machine
end

