-- ==== Sys2Proof/Machine/Preempt.lean ====
section
/-! DEFINITION. Stopping and saving a task, resuming it, checkpoints and the undoing of a task's writes (R194, R215 to
R218, R366), with the dispatch events that resume. -/

namespace Sys2Proof.Machine

open Sys2Proof

/-! ### Stopping (R215 steps 1 and 2) -/

def updTask (job record : Nat) (f : Task → Task) (c : Core) : Core :=
  { c with tasks := c.tasks.map fun t => if t.job = job ∧ t.record = record then f t else t }

def updStrands (job record : Nat) (f : Strand → Strand) (c : Core) : Core :=
  { c with strands := c.strands.map fun x => if x.live && x.key.job == job && x.task.toNat == record then f x else x }

/-- The strands of a task leave the rotation at their next issue boundary. -/
def stopTask (job record : Nat) (phase : TaskPhase) (c : Core) : Core :=
  updStrands job record (fun x => { x with stopping := true }) (updTask job record (fun t => { t with phase := phase }) c)

/-- A strand has nothing outstanding, and is on its way to no station. -/
def strandStill (c : Core) (x : Strand) : Bool :=
  x.drained && !c.sending x.key && x.trapPend.isNone &&
  (match x.place with
   | .activating | .moving _ => false
   | .slotted _ | .waiting | .parked | .stored | .held | .ended => true)

def ownCmd (t : Task) (d : Cmd) : Bool := d.job == t.job && d.task == t.record

/-- Whether a lineage or stream command that has begun is still to end (R260, R355). -/
def begunCmd (c : Core) (t : Task) : Bool :=
  c.stations.any fun e => [2, 8].any fun k => (e.2.commands[k]!).any fun d => ownCmd t d && d.begun.isSome

/-- Every strand of a task is still, no command that has started goes on (R260, R341, R355), and every piece that has landed
is signalled (R194). -/
def taskStill (c : Core) (t : Task) : Bool :=
  (taskStrands c t.job t.record).all (strandStill c) && !(c.sampling.any fun x => ownCmd t x.cmd) && !begunCmd c t
    && !(c.signals.any fun x => ownCmd t x.cmd && !x.lantern)

/-! ### What is saved (R194, R216, R217) -/

/-- The TCW of a copy-node record: completion mode 0, and no completion operand (R191, R194). -/
def nodeTcw (t : Tcw) : Tcw :=
  { t with w2 := t.w2 &&& 0x00FF0000, w7 := if compMode t = 2 ∨ compMode t = 3 then 0 else t.w7 }

def wordBytes (ws : List Word) : List EByte := ws.foldr (fun w acc => eBytes 8 w.toNat ++ acc) []

/-- The argument block of a command: the value of each register that a descriptor names, and the segments (R191). -/
def argBlock (d : Cmd) : List EByte :=
  let value (n : Nat) : Word :=
    match (List.range 5).find? fun i =>
      (d.kind i == 1 || d.kind i == 4 || d.kind i == 5 || d.kind i == 6) && descReg d.tcw i == n with
    | some i => d.vals[i]!
    | none => 0
  wordBytes ((List.range 16).map value) ++
    wordBytes (d.segs.toList.foldr (fun s acc => s.base :: s.limit :: s.rights.zeroExtend 64 :: acc) [])

/-- A copy command as a copy-node record with its argument block: a record of kind 1 in the domain of its station.
DEDUCED (log 53). -/
def copyRecord (job logical at' : Nat) (d : Cmd) : List EByte :=
  eBytes 6 0 ++ eBytes 1 1 ++ eBytes 1 0 ++ eBytes 8 0 ++ eBytes 4 0 ++ eBytes 2 0 ++ eBytes 2 (0x4000 + logical) ++
    eBytes 8 (at' + 128) ++ eBytes 56 0 ++ eBytes 4 job ++ eBytes 4 0 ++ wordBytes (tcwWords d.op (nodeTcw d.tcw)) ++
    argBlock d

/-- A queued command of another engine as a replay record with its argument block (R217). -/
def replayRecord (logical engine position : Nat) (d : Cmd) : List EByte :=
  eBytes 2 logical ++ eBytes 1 engine ++ eBytes 1 0 ++ eBytes 4 position ++ eBytes 8 d.ctx ++ eBytes 80 0 ++
    wordBytes (tcwWords d.op d.tcw) ++ argBlock d

/-- The engines whose queued commands are recorded for replay. -/
def replayEngines : List Nat := [2, 3, 4, 6, 7, 8]

/-- The first 4 KiB of a station record: the logical station and the layout of the 4,096 entries (R216). -/
def layoutBytes (logical : Nat) (s : Station) : List EByte :=
  let nibble (i : Nat) : Nat := match (stashEntry s i).span with | some n => 8 + n.val | none => 0
  eBytes 2 logical ++ eBytes 62 0 ++
    (List.range 2048).foldr (fun k acc => eBytes 1 (nibble (2 * k) + 16 * nibble (2 * k + 1)) ++ acc) [] ++ eBytes 1984 0

/-- An accumulator word of a station. -/
def accWord (s : Station) (i : Nat) : Nat :=
  match s.acc.find? fun e => e.1 == i with
  | some e => e.2.toNat
  | none => 0

def accBytes (s : Station) : List EByte := (List.range 16384).foldr (fun i acc => eBytes 4 (accWord s i) ++ acc) []

def stationRecordSize : Nat := 0x111000

/-- A station record written (R216); the accumulators are those of the task, if it holds the matrix engine (R282). -/
def saveStation (pt : Party) (va logical pid : Nat) (held : Bool) : Act Unit := do
  let s := (← get).station pid
  let s := if held then s else { s with acc := [] }
  writeGlobal pt va (layoutBytes logical s)
  writeGlobal pt (va + 0x1000) (accBytes s)
  writeGlobal pt (va + 0x11000) ((List.range stashSize).map (stashByte s))

/-- A run of whole numbers: the first and how many. -/
def addRun (runs : List (Nat × Nat)) (k : Nat) : List (Nat × Nat) :=
  match runs with
  | (a, n) :: rest => if a = k + 1 then (k, n + 1) :: rest else (k, 1) :: (a, n) :: rest
  | [] => [(k, 1)]

/-- The pieces of a copy that are not yet signalled, in runs. -/
def CopyPlan.unsignalled (x : CopyPlan) (pieces size : Nat) : List (Nat × Nat) :=
  ((List.range pieces).filter fun k => x.left.any (x.meets (size * k) (size * (k + 1)))).foldr (fun k l => addRun l k) []

/-- An operand of a copy moved on by some bytes: an offset in the stash, or the value of register `i`. -/
def movedOperand (d : Cmd) (i n : Nat) : Act (Nat × Word) := do
  if d.kind i = 3 then pure (3 * 2 ^ 28 + bitsOf (descWord d.tcw i) 0 20 + n, 0)
  else
    let off ← d.offset i
    pure (2 ^ 28 + i, wordOf (off + n))

/-- The layout field of a copy with the rounding mode that its push captured in place of the dynamic one. -/
def fixedRounding (d : Cmd) : Nat :=
  let w := copyWord d
  if bitsOf w 12 3 = 7 then setBits w 12 3 (min d.rmode.toNat 4) else w

/-- The descriptor of a copy's layout field. -/
def layoutDesc (d : Cmd) : Nat := if d.kind 3 = 0 then 0 else 2 * 2 ^ 28 + fixedRounding d

/-- The part of a copy that covers a run of its pieces: offsets and signal base moved on, the values in registers 0 to 4.
DEDUCED (log 77). -/
def pieceCmd (d : Cmd) (x : CopyShape) (run : Nat × Nat) : Act Cmd := do
  let size := pieceBytes x.w
  let lo := size * run.1
  let n := min x.total (size * (run.1 + run.2)) - lo
  let toSource (k : Nat) : Nat := match x.formats with | some (f, g) => k / g.size * f.size | none => k
  let (dst, v0) ← movedOperand d 0 lo
  let (src, v1) ← movedOperand d 1 (toSource lo)
  let (sig, v4) ← if !d.ownsW7 || d.kind 4 == 0 then pure (0, 0) else movedOperand d 4 (8 * run.1)
  pure { d with
    tcw := { d.tcw with
      w3 := BitVec.ofNat 32 dst, w4 := BitVec.ofNat 32 src, w5 := BitVec.ofNat 32 (2 ^ 28 + 2)
      w6 := BitVec.ofNat 32 (layoutDesc d), w7 := BitVec.ofNat 32 sig
      w2 := if d.ownsW7 then d.tcw.w2 else d.tcw.w2 &&& 0x00FF0000 }
    vals := #v[v0, v1, wordOf (toSource n), 0, v4] }

/-- A command to be done again as a whole. -/
def wholeCmd (d : Cmd) : Cmd :=
  if d.op = .cpCopy then { d with tcw := { d.tcw with w6 := BitVec.ofNat 32 (layoutDesc d) } } else d

/-- What is left of a copy command: the pieces not yet signalled, or the whole of one that has none. A `cp.node` leaves the
command that it embeds, or itself where its record fails a check, which no record may embed and so ends FAULT when it is run again;
a `cp.cancel` leaves nothing (R191, R194). -/
def remainder (x : CopyRun) : Act (List Cmd) := do
  match x.plan with
  | some p =>
    if p.eff.op = .cpCopy then
      match ← attempt (copyShape p.eff) with
      | .ok y =>
        if y.pieces = 0 then pure [wholeCmd p.eff]
        else (p.unsignalled y.pieces (pieceBytes y.w)).mapM (pieceCmd p.eff y)
      | .error _ => pure [wholeCmd p.eff]
    else pure [p.eff]
  | none =>
    if x.cmd.op = .cpCancel then pure []
    else if x.cmd.op = .cpNode then
      match ← attempt (nodeCommand x.cmd) with
      | .ok e => pure [wholeCmd e]
      | .error (.status _ _ _ _) => pure [x.cmd]
      | .error e => stop e
    else pure [wholeCmd x.cmd]

/-- What is left of the copy commands of a task, by logical station. -/
def remainders (t : Task) (all : List (Nat × Nat)) : Act (List (Nat × Cmd)) := do
  let c ← get
  let runs : List (Nat × CopyRun) := all.foldr (fun (x : Nat × Nat) acc =>
    (((c.station x.2).copies ++ (c.queue x.2 1).map fun d => CopyRun.mk d none).filter fun r => ownCmd t r.cmd).map
      (fun r => (x.1, r)) ++ acc) []
  let out ← runs.mapM fun x => do
    let l ← remainder x.2
    pure (l.map fun d => (x.1, d))
  pure (out.foldr (· ++ ·) [])

/-- A task's commands taken out without an end; what waited for their places goes on (R50). -/
def removeCmds (sel : Cmd → Bool) (c : Core) : Core := wakeQueues (withoutCmds sel c)

/-- The stations with the logical number of each. -/
def logicalPairs (p : Platform) (c : Core) (job : Nat) (pids : List Nat) : List (Nat × Nat) :=
  pids.filterMap fun s => (logicalOf p c job s).map fun l => (l, s)

/-- A station that queues no activation of a context. -/
def Station.forget (s : Station) (k : Key) : Station :=
  { s with activations := s.activations.filter fun x => x != k }

/-- A context out of every activation queue. -/
def forgetKey (k : Key) (c : Core) : Core :=
  { c with stations := c.stations.map fun (e : Nat × Station) => (e.1, e.2.forget k) }

/-- A strand stored as by `ctxflush`, its PIN bit kept in the stored mode word; it stays stopped. -/
def storeStopped (p : Platform) (k : Key) (c : Core) : Core :=
  (forgetKey k (storeContext p k c)).updStrand k fun x => { x with stopping := true }

/-- Steps 3 to 6 of R215: what the task's engines and stations hold goes to its save area, and its strands are
stored. DEDUCED (log 54). A station outside the job's map has no logical number: nothing of it is saved, its strands return to
logical station 0, and the task's commands in its queues are dropped: DESIGN CHOICE (log 106). -/
def saveTask (t : Task) : Act Unit := do
  let p ← read
  let pt := enginePt t.job t.save
  let c ← get
  let all := logicalPairs p c t.job (c.stations.map (·.1))
  let own := logicalPairs p c t.job ((c.stations.map (·.1)).filter fun s =>
    t.stations.contains s || (c.station s).accOwner == some (t.job, t.record))
  let copies ← remainders t all
  let replays : List (List EByte) := all.foldr (fun (x : Nat × Nat) acc =>
    replayEngines.foldr (fun e acc' =>
      ((numbered 0 (c.queue x.2 e)).filter fun y => ownCmd t y.2).map (fun y => replayRecord x.1 e y.1 y.2) ++ acc') acc) []
  onCore (cancelCommands fun d => ownCmd t d && d.node.isNone && (isCopyOp d.op || isCollectiveOp d.op))
  onCore (removeCmds (ownCmd t))
  own.forM fun x => evictStation x.2
  (taskStrands (← get) t.job t.record).forM fun x => do
    require (← pagePresent x.key.job x.key.ctx)
    onCore (updTask t.job t.record fun u =>
      { u with homes := (x.key.ctx, (logicalOf p c t.job x.station).getD 0) :: u.homes.filter fun h => h.1 != x.key.ctx })
    onCore (storeStopped p x.key)
  let base := t.save + 0x40
  (numbered 0 copies).forM fun x =>
    writeGlobal pt (base + 448 * x.1) (copyRecord t.job x.2.1 (base + 448 * x.1) x.2.2)
  let base2 := base + 448 * copies.length
  (numbered 0 replays).forM fun x => writeGlobal pt (base2 + 448 * x.1) x.2
  let base3 := base2 + 448 * replays.length
  (numbered 0 own).forM fun x => saveStation pt (base3 + stationRecordSize * x.1) x.2.1 x.2.2 ((c.station x.2.2).accOwner == some (t.job, t.record))
  onCore (releaseEngines t.job t.record)
  let used := base3 + stationRecordSize * own.length - t.save
  writeGlobal pt t.save (eBytes 8 used ++ eBytes 8 copies.length ++ eBytes 8 own.length ++ eBytes 8 t.laps
    ++ eBytes 8 replays.length ++ eBytes 24 0)

/-! ### Undoing a task's writes (R366 steps 1 to 4) -/

/-- A strand that is discarded: its slot and cache entry are free, and nothing of it is left. -/
def discardStrand (p : Platform) (k : Key) (c : Core) : Core :=
  let c := leaveTo p k .ended none c
  forgetKey k { c with strands := c.strands.filter (fun x => x.key != k), members := c.members.filter fun r => r.key != k }

/-- The waiters that a line's full/empty bits, restored by an undoing, now satisfy (R106, R112). -/
def wakeLine (old : Mem) (pline : Nat) (c : Core) : Core :=
  (List.range 8).foldl
    (fun c k =>
      let pa := 64 * pline + 8 * k
      if old.isFull pa == c.mem.isFull pa then c else wakeAll (.feWord pa (c.mem.isFull pa)) c) c

/-- A line of a job that memory has restored out of a station's window: its dirty bytes are lost, an entry with no other dirty bytes is
EMPTY, and another takes the line as memory now holds it. -/
def Station.giveUp (m : Mem) (job vline : Nat) (s : Station) : Station :=
  match mappedEntry s job (vline / 4 * 256) with
  | none => s
  | some e =>
    if !e.valid then s
    else
      let k := vline % 4
      let bits (b : BitVec 32) (f : Nat → Bool) : BitVec 32 :=
        (b &&& ~~~((0xFF : BitVec 32) <<< (8 * k))) ||| (BitVec.ofNat 32 (bitsNat ((List.range 8).map f)) <<< (8 * k))
      let rest := e.dirty &&& ~~~(BitVec.ofNat 256 (2 ^ 64 - 1) <<< (64 * k))
      match rest != 0, e.plines.getD k none with
      | true, some pl =>
        setStashEntry (setStashBytes s (256 * e.index + 64 * k) ((List.range 64).map fun i => m.byte (64 * pl + i)))
          { e with dirty := rest, full := bits e.full fun j => m.isFull (64 * pl + 8 * j)
                   poison := bits e.poison fun j => m.isPoison (64 * pl + 8 * j) }
      | _, _ => setStashEntry s { e with valid := false, dirty := 0, writer := 0, plines := [] }

/-- A restored line out of every window (R366 step 3). -/
def giveUpLine (job vline : Nat) (c : Core) : Core :=
  { c with stations := c.stations.map fun x => (x.1, x.2.giveUp c.mem job vline) }

/-- The lines of L2 that a task has tagged give way to what HBM held, in the windows that hold them too; the task's dirty stash words
are dropped. -/
def dropTagged (t : Task) (c : Core) : Core :=
  let mine (l : L2Line) : Bool := l.job == t.job && l.task == some t.record
  let lines := c.l2.filter mine
  let m := lines.foldl (fun m l => m.restoreLine (l.pline * 64) l.old l.oldFull l.oldPoison) c.mem
  let entry (e : StashEntry) : StashEntry :=
    match e.mapped with
    | some (j, _) =>
      if j == t.job && e.writer == t.record && e.dirty != 0 then { e with valid := false, dirty := 0, writer := 0, plines := [] }
      else e
    | none => e
  let c' := { c with
    mem := m
    l2 := c.l2.filter fun l => !mine l
    stations := c.stations.map fun x => (x.1, { x.2 with entries := x.2.entries.map entry }) }
  lines.foldl (fun c' l => giveUpLine t.job l.vline (dropL1Physical (l.pline * 64) (wakeLine c.mem l.pline c'))) c'

/-- Where a line of a job lies: as L2 holds it, else as translation gives it (R223). -/
def lineAddr (job va : Nat) : Act (Option Nat) := do
  match findLine (← get) job va with
  | some l => pure (some (l.pline * 64))
  | none =>
    match ← translateVa job va with
    | some m => pure (some m.pa)
    | none => pure none

/-- One log entry written back to its line, and freed: whether the line is restored, which it is not where its layer is gone
(R370), and whether another task had written it. -/
def undoEntry (t : Task) (a : Nat) : Act (Bool × Bool) := do
  let c ← get
  let va := c.mem.read a 8
  let info := c.mem.read (a + 0x10) 8
  let data := BitVec.ofNat 512 (c.mem.read (a + 0x40) 64)
  match ← lineAddr t.job va with
  | none => stop (.page t.job va 2 64)
  | some pa =>
    let p ← read
    let c ← get
    let gone := layerGone p pa
    let keep (mem : Mem) : Mem :=
      if gone then mem else mem.restoreLine pa data (BitVec.ofNat 8 info) (if info.testBit 8 then 0xFF else 0)
    let c' := wakeLine c.mem (pa / 64) { c with
      mem := keep c.mem
      l2 := c.l2.filter fun l => !(l.job == t.job && l.vline == lineOf va) }
    set ((giveUpLine t.job (lineOf va) (dropL1Physical pa c')).deviceWrite a 8 fun m => m.write a 8 0)
    pure (!gone, !gone && t.others.contains (lineOf va))

/-- The task's strands, commands and writes since its boundary are gone; the results are the lines restored from the log
and those among them that another task had written. DEDUCED (log 55). -/
def undoTask (t : Task) : Act (Nat × Nat) := do
  let p ← read
  (taskStrands (← get) t.job t.record).forM fun x => onCore (discardStrand p x.key)
  onCore (cancelCommands (ownCmd t))
  onCore fun c => { c with
    completions := c.completions.filter fun x => !ownCmd t x.cmd
    signals := c.signals.filter fun x => !ownCmd t x.cmd }
  onCore (releaseEngines t.job t.record)
  onCore (dropTagged t)
  let free ← look fun p c => jobField p c t.job 0x28
  onCore fun c => updTask t.job t.record (fun u => { u with pages := 0 })
    { setJobField p c t.job 0x28 (wordOfInt ((free : Int) - t.pages)) with
      members := c.members.filter fun r => !(r.key.job == t.job && r.task == t.record) }
  let entries ← look fun p c => taskEntries p c t.job t.record
  let done ← entries.mapM (undoEntry t)
  pure ((done.filter (·.1)).length, (done.filter (·.2)).length)

/-- A class S task back at its checkpoint, stored and stopped: its strands and `tail` records as they were then. -/
def toCheckpoint (t : Task) (saved : List Strand) (c : Core) : Core :=
  let back := saved.map fun x => { x with place := .stored, stopping := true, lines := [] }
  updTask t.job t.record (fun u => { u with tails := u.savedTails, lapYields := [] })
    (back.foldl (fun c x => c.addStrand x) c)

/-! ### PREEMPTION and CHECKPOINT (R215, R218) -/

def findTask (job record : Nat) : Act Task := do
  match (← get).tasks.find? fun t => t.job == job && t.record == record with
  | some t => pure t
  | none => notYet

/-- PREEMPTION of the task at a record, once its strands are still; a rollback that is due comes first (R372). -/
def preemptionAct (e : EventArg) : Act Unit := do
  let t ← findTask e.job e.addr
  require (t.phase == .preempting && taskStill (← get) t && !(← get).cancelled.contains t.job && !rollbackDue (← get) t)
  if t.lapsN = 0 then saveTask t
  else
    let _ ← undoTask t
    onCore (updTask t.job t.record fun u => { u with ended := none })
    t.stations.forM evictStation
    match t.saved with
    | some l =>
      onCore (toCheckpoint t l)
      let lap ← readNum (enginePt t.job t.save) (t.save + 0x18) 8
      onCore (updTask t.job t.record fun u => { u with laps := lap })
    | none => pure ()
  onCore (updTask t.job t.record fun u => { u with phase := .preempted })
  setRecordState t.job t.record trPreempted

def execPreemption (s : State) : Outcome := runEvent preemptionAct s

/-! ### Resuming (R215, R217) -/

/-- A copy-node record of a save area run as by `cp.node`: its status. -/
def runSavedCopy (t : Task) (va : Nat) : Act Nat := do
  let pt := enginePt t.job va
  let domain ← readNum pt (va + 0x16) 2
  match ← look fun p c => stationOf p c t.job (domain % 4096), ← readTcw pt (va + 0x60) with
  | some pid, some (op, w) =>
    if (copyForm op).isNone then pure stFault
    else do
      let d ← embeddedCmd (nodeCmd t.job t.record pid op w none (← get).seq) op w (va + 128)
      onCore Core.tick
      match ← attempt (copyWhole d) with
      | .ok f => pure f.status
      | .error (.status code _ _ _) => pure code
      | .error e => stop e
  | _, _ => pure stFault

/-- The end of a copy node whose command was saved: OK if every record of it ended OK (R212, R215). -/
def endNode (t : Task) (codes : List Nat) (c : Core) : Core :=
  if t.kind = 1 && !codes.isEmpty then
    updTask t.job t.record (fun u => { u with ended := some ((codes.find? (· != stOk)).getD stOk) }) c
  else c

/-- A station record reloaded onto its logical station, whose mapped entries go to their homes first (R205); the accumulators are taken once no other task holds the matrix engine
(R282). -/
def loadStation (t : Task) (va : Nat) : Act Unit := do
  let pt := enginePt t.job va
  let l ← readNum pt va 2
  match ← look fun p c => stationOf p c t.job l with
  | none => pure ()
  | some pid =>
    evictStation pid
    let s := (← get).station pid
    let layout ← readGlobal pt (va + 0x40) 2048
    let acc ← readGlobal pt (va + 0x1000) 65536
    let data ← readGlobal pt (va + 0x11000) stashSize
    let nibble (i : Nat) : Nat := ((layout.getD (i / 2) (0, false)).1.toNat >>> (4 * (i % 2))) % 16
    let bad (i : Nat) : Nat := (List.range 32).foldl
      (fun x k => if eBad ((data.drop (256 * i + 8 * k)).take 8) then x + 2 ^ k else x) 0
    let entry (i : Nat) : StashEntry :=
      ⟨i, none, false, 0, if 8 ≤ nibble i then some ⟨nibble i % 8, Nat.mod_lt _ (by decide)⟩ else none, 0,
        BitVec.ofNat 32 (bad i), 0, []⟩
    let word (i : Nat) : Nat := eNat ((acc.drop (4 * i)).take 4)
    let words : List (Nat × BitVec 32) :=
      ((List.range 16384).filter fun i => word i != 0).map fun i => (i, BitVec.ofNat 32 (word i))
    require (words.isEmpty || s.accOwner.isNone || s.accOwner == some (t.job, t.record))
    let free (s : Station) : Bool := !words.isEmpty && (s.accOwner.isNone || s.accOwner == some (t.job, t.record))
    onCore fun c => c.updStation pid fun s =>
      { setStashBytes s 0 (data.map (·.1)) with
        entries := (List.range 4096).map entry
        acc := if free s then words else s.acc
        accOwner := if free s then some (t.job, t.record) else s.accOwner }

/-- A replay record pushed into its engine's queue on its logical station (R217), which keeps no rounding mode and no privilege: they
are those of the issuing strand as it stands. DESIGN CHOICE (log 96). -/
def replayCmd (t : Task) (va : Nat) : Act Unit := do
  let pt := enginePt t.job va
  let l ← readNum pt va 2
  let engine ← readNum pt (va + 2) 1
  let issuer ← readNum pt (va + 8) 8
  match ← look fun p c => stationOf p c t.job l, ← readTcw pt (va + 0x60) with
  | some pid, some (op, w) =>
    require (decide (((← get).queue pid engine).length < Config.commandDepth))
    let d ← embeddedCmd (nodeCmd t.job t.record pid op w none (← get).seq) op w (va + 128)
    let c ← get
    let (mode, sup) := match c.strand? ⟨t.job, issuer⟩ with | some x => (x.rmode, x.sup) | none => (0, false)
    onCore fun c => (enqueueCmd engine { d with ctx := issuer, rmode := mode, sup := sup } c).tick
  | _, _ => pure ()

/-- A stored strand woken at its logical station; only the supervisor's wake ends a halt or a double trap (R140, R147). -/
def reviveStrand (p : Platform) (t : Task) (x : Strand) (c : Core) : Core :=
  let home := match t.homes.find? fun h => h.1 == x.key.ctx with | some h => stationOf p c t.job h.2 | none => none
  let keep := match x.parked with | some .halt | some .double => true | _ => false
  let y := { x with stopping := false, place := .stored, station := home.getD x.station, since := c.seq
                    parked := if keep then x.parked else none }
  let c := (c.setStrand y).tick
  let c := if keep then c
    else c.updStation y.station fun s => { s with activations := s.activations ++ [y.key] }
  noteStation t.job t.record y.station c

/-- The save area brought back: copies, station records, replays, and then the strands. -/
def reviveTask (t : Task) : Act Unit := do
  let p ← read
  let pt := enginePt t.job t.save
  let copies ← readNum pt (t.save + 8) 8
  let records ← readNum pt (t.save + 16) 8
  let replays ← readNum pt (t.save + 32) 8
  let base := t.save + 0x40
  let codes ← (List.range copies).mapM fun i => runSavedCopy t (base + 448 * i)
  onCore (endNode t codes)
  (List.range records).forM fun i =>
    loadStation t (base + 448 * copies + 448 * replays + stationRecordSize * i)
  (List.range replays).forM fun i => replayCmd t (base + 448 * copies + 448 * i)
  (taskStrands (← get) t.job t.record).forM fun x => onCore (reviveStrand p t x)

/-- CHECKPOINT of a class S task: saved, its log restarted, and resumed (R218); a rollback that is due comes first (R372). -/
def checkpointAct (e : EventArg) : Act Unit := do
  let t ← findTask e.job e.addr
  require (t.phase == .checkpointing && taskStill (← get) t && !(← get).cancelled.contains t.job && !rollbackDue (← get) t)
  saveTask t
  let p ← read
  let strands := taskStrands (← get) t.job t.record
  onCore (closeLog p t.job t.record)
  onCore (updTask t.job t.record fun u =>
    { u with phase := .running, saved := some strands, savedTails := u.tails, outside := false, noEntry := false, retried := [], others := [], pages := 0 })
  reviveTask (← findTask e.job e.addr)

def execCheckpoint (s : State) : Outcome := runEvent checkpointAct s

/-! ### TASK_DISPATCH and GANG_PLACEMENT (R201, R211, R215) -/

/-- Whether a pre-empted task goes on where it was: a collective node whose command has not ended, and a class S task that has taken
no checkpoint, have no saved state and restart from their dispatch (R218, R323). -/
def Task.resumable (t : Task) : Bool := (t.kind != 2 || t.ended.isSome) && (t.lapsN == 0 || t.saved.isSome)

/-- A pre-empted task taken up again; one without a saved state restarts from its dispatch. -/
def resumeTask (t : ReadyTask) : Act Unit := do
  let task ← findTask t.job t.record
  if !task.resumable then dispatchNew t
  else
    onCore (updTask t.job t.record fun u => { u with phase := .running, ticket := t.ticket })
    setRecordState t.job t.record trRunning
    let places ← look fun p c => task.homes.filterMap fun h => stationOf p c t.job h.2
    evictFor t.job places
    reviveTask (← findTask t.job t.record)

/-- TASK_DISPATCH of the best READY task of a die. -/
def taskDispatchAct (e : EventArg) : Act Unit := do
  match bestReady (← get) e.unit with
  | none => notYet
  | some t =>
    onCore fun c => { c with ready := c.ready.filter fun x => !(x.job == t.job && x.record == t.record) }
    if t.resume then resumeTask t else dispatchNew t

def execTaskDispatch (s : State) : Outcome := runEvent taskDispatchAct s

/-- The logical station that a strand of a saved task returns to. -/
def Task.homeOf (t : Task) (ctx : Nat) : Option Nat := (t.homes.find? fun h => h.1 == ctx).map (·.2)

/-- The stations that a pre-empted gang's groups return to, each able to take its pinned strands again; strands that have ended, and
children, which are not pinned, need no reservation (R211, R215). -/
def gangHomes (p : Platform) (c : Core) (t : Task) : Option (List Nat) :=
  let pinned := (taskStrands c t.job t.record).filter Strand.pinned
  let homes := pinned.filterMap fun x => (t.homeOf x.key.ctx).bind fun l => stationOf p c t.job l
  let stations := homes.foldl (fun l s => risingSet l s true) []
  if stations.all fun s => decide (pinnedOf c s + (homes.filter fun x => x == s).length ≤ Config.pinnedMax) then
    some stations
  else none

/-- GANG_PLACEMENT: the leading gang reserves what it can, and is dispatched once every group has its station. -/
def gangPlacementAct (_ : EventArg) : Act Unit := do
  match leadingGang (← get) with
  | none => notYet
  | some g =>
    let r ← readRecord g.job g.record
    let saved ← look fun _ c => c.tasks.find? fun t => t.job == g.job && t.record == g.record
    match g.resume, saved.filter Task.resumable with
    | true, some t =>
      match gangHomes (← read) (← get) t with
      | none => notYet
      | some _ =>
        onCore fun c => { c with placing := c.placing.filter fun x => !(x.job == g.job && x.record == g.record) }
        resumeTask ⟨g.job, g.record, t.die, g.prio, g.ticket, false, true⟩
    | _, _ =>
      let stations ← look fun p c => domainMapped p c g.job r.domain
      let reserved := reserveStations (← get) r.gang r.groupSize g.reserved stations
      if r.gang ≤ reserved.length && decide (r.kind ≠ 0 ∨ r.strands ≤ freeFrames (← read) (← get) g.job) then
        dispatchGang g r stations reserved
      else
        require (decide (g.reserved.length < reserved.length))
        onCore fun c => { c with placing := c.placing.map fun x =>
          if x.job = g.job ∧ x.record = g.record then { x with reserved := reserved } else x }

def execGangPlacement (s : State) : Outcome := runEvent gangPlacementAct s

end Sys2Proof.Machine
end

