-- ==== Sys2Proof/Machine/Launch.lean ====
section
/-! DEFINITION. Launch records: the launch windows (R219, R220) and the user queues of die 0's dispatcher (R221). -/

namespace Sys2Proof.Machine

open Sys2Proof

/-! ### A job begins (R136, R137, R173) -/

/-- What the device sets in the record of a new job: `k.lapool` to the pool's page count, the stream counters to 0. -/
def initRecord (p : Platform) (job : Nat) (c : Core) : Core :=
  let r := jobRecord p c job
  let c := c.deviceWrite (r + 0x28) 8 fun m => m.write (r + 0x28) 8 (m.read (r + 0x4C) 4)
  c.deviceWrite (r + 0x800) 5120 fun m => m.setBytes (r + 0x800) (List.replicate 5120 0)

/-- The stash of a station as a job finds it: SCRATCH entries with unswizzled zero bytes. -/
def clearStash (pid : Nat) (c : Core) : Core := c.updStation pid fun s => { s with stash := [], entries := [] }

/-- Every entry of the stations of a job's map is SCRATCH as it starts (R173); what was mapped there goes to its home first.
DEDUCED (log 78). -/
def startStations (job : Nat) : Act Unit := do
  let mapped ← look fun p c => (c.stations.map (·.1)).filter fun pid => (logicalOf p c job pid).isSome
  mapped.forM fun pid => do
    let _ ← attempt (evictStation pid)
    onCore (clearStash pid)

/-- The device takes a job whose table entry has become LIVE, at its JOB_CREATE or where it first meets it. -/
def takeJob (job : Nat) : Act Unit := do
  let p ← read
  startStations job
  onCore fun c => { initRecord p job c with
    jobs := job :: c.jobs
    cancelled := c.cancelled.filter fun j => j != job }

/-- Whether a job is live, as the device sees its table entry: one that has just become LIVE has its record set first. -/
def meetJob (job : Nat) : Act Bool := do
  let p ← read
  let c ← get
  if !jobLive p c job then pure false
  else if c.jobs.contains job then pure true
  else
    takeJob job
    pure true

/-! ### A parse (R220) -/

def lcOk : Nat := 0
def lcStale : Nat := 1
def lcSkip : Nat := 2
def lcBadOp : Nat := 3
def lcBadJob : Nat := 4
def lcBadRec : Nat := 5
def lcFault : Nat := 6

/-- A launch window or a user queue's ring: where its status and expected words stand, its slots and their number. -/
structure LaunchRing where
  status : Nat
  expected : Nat
  base : Nat
  slots : Nat
  deriving DecidableEq, Repr

structure LaunchRecord where
  op : Nat
  job : Nat
  record : Nat
  clean : Bool
  mark : Nat
  deriving DecidableEq, Repr

/-- The 256 bytes of a slot taken apart. -/
def launchRecord (c : Core) (a : Nat) : LaunchRecord :=
  ⟨c.mem.read a 1, c.mem.read (a + 4) 4, c.mem.read (a + 8) 8,
    c.mem.read (a + 1) 3 == 0 && c.mem.read (a + 0x10) 239 == 0, c.mem.read (a + 0xFF) 1⟩

/-- Whether the task at a record is running, and no rollback of it is due (R372). -/
def runningTask (c : Core) (job record : Nat) : Bool :=
  c.tasks.any (fun t => t.job == job && t.record == record && t.phase != .preempted) &&
  !(c.rollbacks.any fun q => q.job == job && q.record == record)

/-- A pre-empted record made READY; a gang is placed again once its full reservation can be made (R215). -/
def resumeRecord (l : LaunchRecord) (r : Record) : Act Unit := do
  setRecordState l.job l.record trReady
  if r.gang ≠ 0 then onCore (enterPlacing l.job l.record r.prio true)
  else
    let stations ← look fun p c => domainMapped p c l.job r.domain
    onCore (enterReady l.job l.record r.prio (dieOf (stations.headD 0)) false true)

/-- The effect of an accepted record: its code. LAUNCH of an IDLE record with count 0 dispatches it at once, also where a `tail` has
named it (R220): DESIGN CHOICE (log 98). -/
def performLaunch (l : LaunchRecord) (r : Record) : Act Nat := do
  match l.op with
  | 1 => do
    let bad ← if r.count = 0 ∧ r.state = 0 then readyRecord l.job l.record false
      else decrementRecord ⟨l.job, l.record, l.job, home l.record, 0, none⟩
    pure (if bad then lcFault else lcOk)
  | 2 => do
    onCore (stopTask l.job l.record .preempting)
    pure lcOk
  | 3 => do
    resumeRecord l r
    pure lcOk
  | _ => do
    cancelJob l.job
    pure lcOk

/-- A pre-emption of a gang in placement has nothing to stop: the gang stays PLACING, and what it has reserved is released
(R222). DEDUCED (log 68). -/
def releasePlacing (job record : Nat) (c : Core) : Core :=
  { c with placing := c.placing.map fun g => if g.job = job ∧ g.record = record then { g with reserved := [] } else g }

/-- The code of a sealed slot, its effect performed if it is accepted. A record that names a cancelled job is BADJOB: DESIGN CHOICE (log
125). -/
def launchCode (ring : LaunchRing) (slot e : Nat) (l : LaunchRecord) : Act Nat := do
  let behind := (e + 256 - l.mark) % 256
  if (1 ≤ behind && behind ≤ 128) || l.mark % ring.slots != slot then pure lcStale
  else if l.mark ≠ e then pure lcSkip
  else if l.op < 1 || 4 < l.op || !l.clean then pure lcBadOp
  else if !(← meetJob l.job) || (← get).cancelled.contains l.job then pure lcBadJob
  else
    let r ← readRecord l.job l.record
    if r.job ≠ l.job then pure lcBadJob
    else if l.op == 2 && l.record % 128 == 0 && r.state == trPlacing then do
      onCore (releasePlacing l.job l.record)
      pure lcBadRec
    else if l.record % 128 != 0
        || (l.op == 2 && (r.save == 0 || r.state != trRunning || !runningTask (← get) l.job l.record))
        || (l.op == 3 && r.state != trPreempted) then pure lcBadRec
    else performLaunch l r

/-- The status word after a parse (R219). -/
def launchStatus (old code e mark : Nat) : Word :=
  let accepted := code == lcOk || code == lcFault
  wordOf (code * 2 ^ 56 + e * 2 ^ 48 + (if accepted then bitsOf old 40 8 else mark) * 2 ^ 40
    + (if accepted then (bitsOf old 0 40 + 1) % 2 ^ 40 else bitsOf old 0 40))

/-- One slot parsed; the result is its code. -/
def parseSlot (ring : LaunchRing) (slot : Nat) : Act Nat := do
  let c ← get
  let e := c.mem.read ring.expected 8 % 256
  let l := launchRecord c (ring.base + 256 * slot)
  let code ← launchCode ring slot e l
  let e' := if code == lcStale || code == lcSkip then e else (e + 1) % 256
  onCore fun c =>
    let c := c.deviceWrite ring.status 8 fun m => m.write64 ring.status (launchStatus (m.read ring.status 8) code e' l.mark)
    c.deviceWrite ring.expected 8 fun m => m.write ring.expected 8 e'
  pure code

/-! ### Launch windows (R219) -/

def windowRing (p : Platform) (die : Nat) : LaunchRing :=
  let w := if h : die < 4 then (p.mgmt[die]).window else 0
  ⟨w, w + 8, w + 64, 16⟩

/-- The place of a sealed slot in the order of the seals (R171, R220). -/
def sealRank (c : Core) (ring : LaunchRing) (slot : Nat) : Nat :=
  ((launchRecord c (ring.base + 256 * slot)).mark + 384 - c.mem.read ring.expected 8 % 256) % 256

/-- Whether no sealed slot of a window comes before one in seal order. -/
def firstSeal (c : Core) (ring : LaunchRing) (die slot : Nat) : Bool :=
  c.seals.all fun x => x.1 != die || decide (sealRank c ring slot ≤ sealRank c ring x.2)

/-- The first sealed slot of a die's window, whose op is among `ops`, parsed: the argument names the die and the slot. In
recovery mode no window parses (R374). DEDUCED (log 59). -/
def windowAct (ops : Nat → Bool) (e : EventArg) : Act Unit := do
  let p ← read
  require !p.firmware.recovery
  let ring := windowRing p e.unit
  require ((← get).seals.contains (e.unit, e.index) && firstSeal (← get) ring e.unit e.index)
  let l := launchRecord (← get) (ring.base + 256 * e.index)
  require (ops l.op)
  let _ ← parseSlot ring e.index
  onCore fun c => { c with seals := c.seals.filter fun x => x != (e.unit, e.index) }

/-- LAUNCH also parses a slot whose op is none of the four. -/
def execLaunch (s : State) : Outcome := runEvent (windowAct fun op => op != 2 && op != 3 && op != 4) s
def execPreempt (s : State) : Outcome := runEvent (windowAct fun op => op == 2) s
def execResume (s : State) : Outcome := runEvent (windowAct fun op => op == 3) s
def execLaunchCancel (s : State) : Outcome := runEvent (windowAct fun op => op == 4) s

/-! ### User queues (R221) -/

/-- The descriptor of a user queue. -/
def queueDesc (p : Platform) (q : Nat) : Nat := (p.mgmt[0]).userTable / 4096 * 4096 + 64 * (q % 4096)

/-- The records that one visit may parse. -/
def sliceOf (p : Platform) : Nat := 2 ^ min ((p.mgmt[0]).userTable % 16) 12

def queueControl (p : Platform) (c : Core) (q : Nat) : Nat := c.mem.read (queueDesc p q + 8) 8

/-- Doorbell less Consumed of a queue with VALID = 1. -/
def queuePending (p : Platform) (c : Core) (q : Nat) : Nat :=
  if (queueControl p c q).testBit 16 then
    (c.mem.read (queueDesc p q + 0x10) 8 + 2 ^ 64 - c.mem.read (queueDesc p q + 0x18) 8) % 2 ^ 64
  else 0

def queueMapped (c : Core) (q : Nat) : Bool := c.queueSlots.slots.any fun x => x.1 == q

/-- The ring of a user queue: its status, expected and base words and its slots. -/
def queueRing (p : Platform) (c : Core) (q : Nat) : LaunchRing :=
  let d := queueDesc p q
  ⟨d + 0x28, d + 0x20, c.mem.read d 8, queueControl p c q % 65536⟩

/-- A doorbell of a queue announces the records that the host has written again in place of rejected ones. -/
def announceRewritten (ring : LaunchRing) (c : Core) : Core :=
  let here (a : Nat) : Bool := c.rewritten.contains a && decide (ring.base ≤ a) && decide (a < ring.base + 256 * ring.slots)
  { c with rejected := c.rejected.filter fun a => !here a, rewritten := c.rewritten.filter fun a => !here a }

/-- DOORBELL: the host writes a queue's count of records; a pending queue that holds no slot is to be mapped. In recovery
mode the device does not answer (R374). A doorbell of a queue that is not VALID leaves its count, and the queue is mapped at its next
doorbell once it is VALID: DESIGN CHOICE (log 126). -/
def doorbellAct (e : EventArg) : Act Unit := do
  let p ← read
  require (!p.firmware.recovery && (p.mgmt[0]).userTable / 4096 != 0)
  onCore fun c =>
    let c := c.deviceWrite (queueDesc p e.index + 0x10) 8 fun m => m.write (queueDesc p e.index + 0x10) 8 (e.data.headD 0)
    let q := e.index % 4096
    let c := if (queueControl p c q).testBit 16 then announceRewritten (queueRing p c q) c else c
    if queuePending p c q ≠ 0 && !queueMapped c q && !c.doorbells.contains q then
      { c with doorbells := c.doorbells ++ [q] }
    else c

def execDoorbell (s : State) : Outcome := runEvent doorbellAct s

/-- The slot that was served least recently. -/
def oldestSlot (l : List (Nat × Nat)) : Nat :=
  ((numbered 0 l).foldl (fun (b : Option (Nat × Nat × Nat)) x => match b with
    | none => some x
    | some y => if x.2.2 < y.2.2 then some x else some y) none).elim 0 (·.1)

/-- A pending queue mapped onto a free slot, or onto the one that was served least recently; the queue that loses it keeps
its counts in its descriptor and, while it is pending, waits for a slot again. -/
def mapQueue (p : Platform) (c : Core) : Core :=
  match c.doorbells with
  | [] => c
  | q :: rest =>
    let s := c.queueSlots
    if s.slots.length < 64 then
      { c with doorbells := rest, queueSlots := { s with slots := s.slots ++ [(q, s.clock)] } }
    else
      let i := oldestSlot s.slots
      let old := (s.slots.getD i (0, 0)).1
      { c with doorbells := if queuePending p c old ≠ 0 then rest ++ [old] else rest
               queueSlots := { s with slots := s.slots.set i (q, s.clock) } }

/-- The slot that a queue's next record stands in: the first from slot E mod slots on whose record has not been rejected, unless a
doorbell has announced another in its place. DEDUCED (log 60). -/
def nextSlot (c : Core) (ring : LaunchRing) : Option Nat :=
  ((List.range ring.slots).map fun r => (c.mem.read ring.expected 8 % 256 + r) % ring.slots).find? fun s =>
    !c.rejected.contains (ring.base + 256 * s + 255)

/-- A number of records of a queue parsed one after another; each adds 1 to Consumed. A rejected record that leaves E as it was is
not parsed again until the host has written it again and rung the doorbell (R221). DEDUCED (log 60). -/
def parseQueue (q : Nat) : Nat → Act Unit
  | 0 => pure ()
  | n + 1 => do
    let p ← read
    let c ← get
    let d := queueDesc p q
    let ring := queueRing p c q
    match nextSlot c ring with
    | none => pure ()
    | some slot => do
      let code ← parseSlot ring slot
      if code == lcStale || code == lcSkip then
        onCore fun c => { c with rejected := (ring.base + 256 * slot + 255) :: c.rejected }
      onCore fun c => c.deviceWrite (d + 0x18) 8 fun m => m.write (d + 0x18) 8 (m.read (d + 0x18) 8 + 1)
      parseQueue q n

/-- QUEUE_SLOT_VISIT: the scheduler's visit to the next mapped slot. -/
def queueSlotVisitAct (_ : EventArg) : Act Unit := do
  let p ← read
  require !p.firmware.recovery
  onCore (mapQueue p)
  let c ← get
  let s := c.queueSlots
  require !s.slots.isEmpty
  let i := s.next % s.slots.length
  let q := (s.slots.getD i (0, 0)).1
  if powerOfTwo (queueControl p c q % 65536) 16 256 then parseQueue q (min (queuePending p c q) (sliceOf p))
  onCore fun c => { c with queueSlots :=
    { slots := c.queueSlots.slots.set i (q, c.queueSlots.clock + 1), next := i + 1, clock := c.queueSlots.clock + 1 } }

def execQueueSlotVisit (s : State) : Outcome := runEvent queueSlotVisitAct s

end Sys2Proof.Machine
end

