-- ==== Sys2Proof/Machine/Jobs.lean ====
section
/-! DEFINITION. Jobs as they begin and end (R136, R137), and supervisor-queue events that waited for ring space (R141). -/

namespace Sys2Proof.Machine

open Sys2Proof

/-! ### JOB_CREATE and JOB_END (R137) -/

/-- JOB_CREATE: a job whose table entry has become LIVE. -/
def jobCreateAct (e : EventArg) : Act Unit := do
  let p ← read
  let c ← get
  require (jobLive p c e.job && !c.jobs.contains e.job)
  takeJob e.job

def execJobCreate (s : State) : Outcome := runEvent jobCreateAct s

/-- The descriptors that `cl.grp` made for a job are no longer live (R321). -/
def freeGroups (p : Platform) (job : Nat) (c : Core) : Core :=
  let mine := c.groups.filter fun k => k.job == job
  let c' := mine.foldl (fun x k => x.deviceWrite (groupAddr p c job k.ctx + 8) 8 fun m => m.write (groupAddr p c job k.ctx + 8) 8 0) c
  { c' with groups := c.groups.filter fun k => k.job != job }

/-- What the package holds for a job dropped: scope records, pins, join cells, cached lines and translations. -/
def dropJob (job : Nat) (c : Core) : Core :=
  dropCopies none (fun x => x.job == job) { c with
    strands := c.strands.filter fun x => x.live || x.key.job != job
    scopes := c.scopes.filter fun r => r.job != job
    pins := c.pins.filter fun h => h.job != job
    joinCells := c.joinCells.filter fun k => k.job != job
    l2 := c.l2.filter fun l => l.job != job
    tlb := c.tlb.filter fun t => t.job != job
    cursors := c.cursors.filter fun x => x.job != job
    bindings := c.bindings.filter fun b => b.job != job
    members := c.members.filter fun r => r.key.job != job
    jobs := c.jobs.filter fun j => j != job }

/-- JOB_END: a job whose table entry is no longer LIVE. -/
def jobEndAct (e : EventArg) : Act Unit := do
  let p ← read
  let c ← get
  require (!jobLive p c e.job && c.jobs.contains e.job)
  onCore fun c => dropJob e.job (freeGroups p e.job c)

def execJobEnd (s : State) : Outcome := runEvent jobEndAct s

/-! ### SUPQ_HELD_EVENT (R141) -/

/-- The first held event of a die is written once its ring has room, and the held count falls. -/
def supqHeldAct (e : EventArg) : Act Unit := do
  let p ← read
  let c ← get
  match c.held.findIdx? fun x => x.die == e.unit with
  | none => notYet
  | some i =>
    match c.held[i]? with
    | none => notYet
    | some x =>
      require (supRoom p c e.unit)
      onCore fun c =>
        let c := supWrite p x { c with held := c.held.eraseIdx i }
        c.deviceWrite (supHeader p e.unit + 0x28) 8 fun m =>
          m.write (supHeader p e.unit + 0x28) 8 (c.held.filter fun y => y.die == e.unit).length

def execSupqHeldEvent (s : State) : Outcome := runEvent supqHeldAct s

end Sys2Proof.Machine
end

