-- ==== Sys2Proof/Machine/Digest.lean ====
section
/-! DEFINITION. The signature scheme of a firmware image (R373): SHA-256, MGF1 and the verification of RSASSA-PSS, with the
constants of those standards. -/

namespace Sys2Proof.Machine

open Sys2Proof

/-- Bytes as a number, the first byte the highest. -/
def beNat (b : List Byte) : Nat := b.foldl (fun x y => 256 * x + y.toNat) 0

/-- The `n` bytes of a number, the highest first. -/
def beBytes (n x : Nat) : List Byte := (leBytes n x).reverse

/-! ### SHA-256 -/

abbrev W32 := BitVec 32

/-- The first 64 primes: a number below 312 is prime if no smaller one from 2 to 17 divides it. -/
def shaPrimes : List Nat :=
  (List.range 312).filter fun p => decide (2 ≤ p) && (List.range 18).all fun d => decide (d < 2) || decide (p ≤ d) || p % d != 0

/-- The largest number of `n` more bits above `r` whose power `k` is at most `x`. -/
def rootBits (k x : Nat) : Nat → Nat → Nat
  | 0, r => r
  | n + 1, r => rootBits k x n (if (r + 2 ^ n) ^ k ≤ x then r + 2 ^ n else r)

/-- The first 32 bits after the point of the `k`-th root of a number below 2^12. -/
def rootFraction (k p : Nat) : Nat := rootBits k (p * 2 ^ (32 * k)) 38 0 % 2 ^ 32

/-- Words of 32 bits as one number, the first lowest. -/
def packWords (l : List Nat) : Nat := l.foldr (fun w acc => acc * 2 ^ 32 + w) 0

/-- The round constants of SHA-256, from the cube roots of the primes. PRESUMED (log 84). -/
def shaRoundTable : Nat := packWords (shaPrimes.map (rootFraction 3))

/-- The initial hash value of SHA-256, from the square roots of the first eight primes. PRESUMED (log 84). -/
def shaStartTable : Nat := packWords ((shaPrimes.take 8).map (rootFraction 2))

/-- Word `k` of a table. -/
def tableWord (t k : Nat) : W32 := BitVec.ofNat 32 (t >>> (32 * k))

/-- The eight working words. -/
structure ShaState where
  a : W32
  b : W32
  c : W32
  d : W32
  e : W32
  f : W32
  g : W32
  h : W32
  deriving DecidableEq, Repr

/-- The hash value before the first block. -/
def shaStart : ShaState :=
  let w := tableWord shaStartTable
  ⟨w 0, w 1, w 2, w 3, w 4, w 5, w 6, w 7⟩

/-- The message schedule: the 64 words of a block, built from its first 16; `acc` holds them latest first. -/
def shaSchedule : Nat → List W32 → List W32
  | 0, acc => acc.reverse
  | n + 1, acc =>
    let w (k : Nat) : W32 := acc.getD (k - 1) 0
    let s0 := (w 15).rotateRight 7 ^^^ (w 15).rotateRight 18 ^^^ (w 15) >>> 3
    let s1 := (w 2).rotateRight 17 ^^^ (w 2).rotateRight 19 ^^^ (w 2) >>> 10
    shaSchedule n ((w 16 + s0 + w 7 + s1) :: acc)

/-- One round with its schedule word and constant. -/
def shaRound (s : ShaState) (x : W32 × W32) : ShaState :=
  let t1 := s.h + (s.e.rotateRight 6 ^^^ s.e.rotateRight 11 ^^^ s.e.rotateRight 25)
    + ((s.e &&& s.f) ^^^ (~~~s.e &&& s.g)) + x.2 + x.1
  let t2 := (s.a.rotateRight 2 ^^^ s.a.rotateRight 13 ^^^ s.a.rotateRight 22)
    + ((s.a &&& s.b) ^^^ (s.a &&& s.c) ^^^ (s.b &&& s.c))
  ⟨t1 + t2, s.a, s.b, s.c, s.d + t1, s.e, s.f, s.g⟩

/-- The hash value after a block of 64 bytes. -/
def shaBlock (h : ShaState) (b : List Byte) : ShaState :=
  let first := (List.range 16).map fun k => BitVec.ofNat 32 (beNat ((b.drop (4 * k)).take 4))
  let s := ((shaSchedule 48 first.reverse).zip ((List.range 64).map (tableWord shaRoundTable))).foldl shaRound h
  ⟨h.a + s.a, h.b + s.b, h.c + s.c, h.d + s.d, h.e + s.e, h.f + s.f, h.g + s.g, h.h + s.h⟩

/-- The message padded to whole blocks: a one bit, zeros, and its length in bits. -/
def shaPadded (m : List Byte) : List Byte :=
  m ++ [0x80] ++ List.replicate ((119 - m.length % 64) % 64) 0 ++ beBytes 8 (8 * m.length)

/-- The 32 bytes of a message's SHA-256. -/
def sha256Bytes (m : List Byte) : List Byte :=
  let p := shaPadded m
  let s := (List.range (p.length / 64)).foldl (fun h k => shaBlock h ((p.drop (64 * k)).take 64)) shaStart
  [s.a, s.b, s.c, s.d, s.e, s.f, s.g, s.h].foldr (fun w acc => beBytes 4 w.toNat ++ acc) []

/-- A digest as the number that its bytes spell where they stand in an image. -/
def sha256 (m : List Byte) : Nat := leNat (sha256Bytes m)

/-! ### RSASSA-PSS -/

/-- The first `n` bytes of MGF1 with SHA-256. -/
def mgf1 (seed : List Byte) (n : Nat) : List Byte :=
  ((List.range (ceilDiv n 32)).foldr (fun k acc => sha256Bytes (seed ++ beBytes 4 k) ++ acc) []).take n

/-- x^(2^k) modulo n. -/
def squares (n : Nat) : Nat → Nat → Nat
  | 0, x => x
  | k + 1, x => squares n k (x * x % n)

/-- The RSA public operation with exponent 65537. -/
def rsaPublic (n s : Nat) : Nat := squares n 16 (s % n) * s % n

/-- The encoded message verified against a message's digest: trailer, padding and salted hash, for a modulus of 3,072 bits and
a salt of 32 bytes. -/
def pssEncoded (em digest : List Byte) : Bool :=
  let masked := em.take 351
  let h := (em.drop 351).take 32
  let db := (masked.zip (mgf1 h 351)).map fun x => x.1 ^^^ x.2
  let db := match db with | b :: rest => (b &&& 0x7F) :: rest | [] => []
  let salt := db.drop 319
  em.length == 384 && (em.drop 383 == [0xBC]) && decide ((em.headD 0).toNat < 128) &&
  (db.take 318).all (· == 0) && (db.drop 318).headD 0 == 1 &&
  sha256Bytes (List.replicate 8 0 ++ digest ++ salt) == h

/-- Whether a signature of 384 bytes over some bytes verifies under a modulus of 3,072 bits, both with the highest byte
first. -/
def pssVerifies (modulus signature signed : List Byte) : Bool :=
  let n := beNat modulus
  let s := beNat signature
  decide (2 ^ 3071 ≤ n) && decide (s < n) && pssEncoded (beBytes 384 (rsaPublic n s)) (sha256Bytes signed)

end Sys2Proof.Machine
end

