-- ==== Sys2Proof/Machine/Stream.lean ====
section
/-! DEFINITION. Wick, the stream engine (R342 to R357): stream objects, cuts, and `dx.open` to `dx.close`. -/

namespace Sys2Proof.Machine

open Sys2Proof

def dxForm (kinds : List (List Nat)) (flags : Nat) : CmdForm := ⟨8, flags, kinds, .all⟩
def dxOpenForm : CmdForm := dxForm [[1, 4], [6], [6], [0], [0]] 0
def dxInForm : CmdForm := dxForm [[1, 4], [1, 4], [0], [0], [0]] 0
def dxAppForm : CmdForm := dxForm [[1, 4], [1, 2], [1, 4], [0, 1, 4], [0]] 3
def dxAckForm : CmdForm := dxForm [[1, 4], [1, 2], [0], [0], [0]] 0
def dxTruncForm : CmdForm := dxForm [[1, 4], [1, 2], [0], [0], [0]] 0
def dxCloseForm : CmdForm := dxForm [[1, 4], [0], [0], [0], [0]] 0

/-! ### The stream object (R342, R343) -/

structure StreamObj where
  g : Nat
  p : Nat
  t : Nat
  bg : Nat
  owed : Nat
  isOpen : Bool
  kv : Nat
  live : Nat
  fault : Nat
  next : Nat
  marks : List Nat
  deriving DecidableEq, Repr

def streamOf (b : List Byte) : StreamObj :=
  let w (k : Nat) : Nat := leNat ((b.drop (8 * k)).take 8)
  ⟨w 0, w 1, w 2, w 3 % 2 ^ 32, bitsOf (w 3) 32 8, (w 3).testBit 63, w 4, w 5, w 6, w 7, (List.range 8).map fun j => w (8 + j)⟩

def StreamObj.bgWord (o : StreamObj) : Nat := (if o.isOpen then 2 ^ 63 else 0) + o.owed % 256 * 2 ^ 32 + o.bg % 2 ^ 32

def StreamObj.toBytes (o : StreamObj) : List Byte :=
  packNums 8 ([o.g, o.p, o.t, o.bgWord, o.kv, o.live, o.fault, o.next] ++ o.marks)

/-- The mark of a position: the handle in its slot. -/
def StreamObj.mark (o : StreamObj) (q : Nat) : Nat := o.marks.getD (q % 8) 0
def StreamObj.setMark (o : StreamObj) (q h : Nat) : StreamObj := { o with marks := o.marks.set (q % 8) h }

/-- The positions from `a` up to `b`, `b` not among them. -/
def positions (a b : Nat) : List Nat := (List.range (b - a)).map (a + ·)

/-- The slots of the positions from `a` up to `b` zero. -/
def StreamObj.clearMarks (o : StreamObj) (a b : Nat) : StreamObj :=
  (positions a b).foldl (fun o q => o.setMark q 0) o

/-- What the object's own words satisfy while it is open (R344). -/
def StreamObj.consistent (o : StreamObj) : Bool :=
  decide (o.t ≤ o.g) && decide (o.p ≤ o.g) && decide (o.g - o.p ≤ 8) &&
  (List.range 8).all fun j => (o.marks.getD j 0 != 0) == (positions o.p (min o.g (o.p + 8))).any fun q => q % 8 == j

def readStream (d : Cmd) (va : Nat) : Act StreamObj := do
  let b ← readGlobal d.party va 128
  check (!eBad b)
  pure (streamOf (b.map (·.1)))

def writeStream (d : Cmd) (va : Nat) (o : StreamObj) : Act Unit :=
  writeGlobal d.party va (o.toBytes.map fun b => (b, false))

/-! ### Ending a stream command (R346) -/

/-- How a stream command ends that an operation refuses: nothing that it did remains. -/
def streamFail (e : LinFail) : Act Finish :=
  match e with
  | .refuse c => endWith (if c = lnKind then stKind else stFault) (result48 c)
  | .lost _ => pure ⟨stLost, 0, none⟩
  | .busy => stop (.hold .none)
  | .badShape => faultCmd

def runStream (pt : Party) (a : Loam Finish) : Act Finish := do
  match ← settled pt a with
  | .ok f => do
    needTurn pt.job
    pure f
  | .error e => streamFail e

/-- The page test for every page that a command may take (R242, R346 step 6). -/
def streamPages (pt : Party) (k : Nat) : Loam Unit := do
  linCheck (decide (k ≤ (← freePageCount pt.job))) lnNoSpace

/-- A node's record as it stands now. -/
def nodeNow (pt : Party) (h : Nat) : Loam (Nat × Node) := do
  let (n, _) ← rawNode pt (indexOfHandle h)
  pure (indexOfHandle h, n)

/-- An error in the data that a resolution reads is met before anything is written (R241). -/
def probe (pt : Party) (x : Nat × Node) : Loam Unit := do
  let _ ← resolve pt x

/-! ### The window (R345) -/

/-- The handle of the node that holds S_q, for q in [P, G]. -/
def holderOf (pt : Party) (o : StreamObj) (q : Nat) : Loam Nat := do
  if q < o.g then pure (o.mark q)
  else
    let (_, n) ← nodeNow pt o.live
    pure (if n.kind = kEmpty then n.parent else o.live)

/-- The handle of K, which holds S_P. -/
def committedOf (pt : Party) (o : StreamObj) : Loam Nat := holderOf pt o o.p

/-- Nodes deleted in order, each once, none of `skip`: only those that carry MARK and whose handle is live. -/
def deleteMarks (pt : Party) : List Nat → List Nat → Loam Unit
  | [], _ => pure ()
  | h :: rest, skip => do
    let (i, n) ← nodeNow pt h
    if h ≠ 0 ∧ !skip.contains i ∧ n.mark ∧ n.state ≠ nsFree ∧ n.state ≠ nsRetired ∧ n.gen = bitsOf h 48 15 then
      let _ ← deleteNode pt i n
    else pure ()
    deleteMarks pt rest (i :: skip)

/-- K made a root; its base goes if it has no child left and carries MARK. -/
def flattenCommitted (pt : Party) (o : StreamObj) : Loam Unit := do
  let (i, n) ← nodeNow pt (← committedOf pt o)
  if n.parent = 0 then pure ()
  else
    flattenNode pt true i n
    let (b, m) ← nodeNow pt n.parent
    if m.children = 0 ∧ m.state ≠ nsRetired then deleteMarks pt [handleOf m.gen b] [] else pure ()

/-- The pages of the flatten that a node at some depth asks for. -/
def depthPages (pt : Party) (o : StreamObj) (depth : Nat) : Loam Nat := do
  if depth ≤ 8 then pure 0
  else
    let x ← nodeNow pt (← committedOf pt o)
    if x.2.parent = 0 then pure 0
    else
      probe pt x
      pure (fullPages (← geometry pt x.2) x.2)

/-- The depth rule: before a node would stand at depth 9, K is flattened. -/
def depthRule (pt : Party) (o : StreamObj) (depth : Nat) : Loam Unit :=
  if depth ≤ 8 then pure () else flattenCommitted pt o

/-- A cut to position c (R349). -/
def cutStream (pt : Party) (o : StreamObj) (c : Nat) : Loam StreamObj := do
  if o.g ≤ c then pure o
  else
    let target := o.mark c
    let (_, m) ← nodeNow pt target
    let (l, live) ← nodeNow pt o.live
    let kv ← nodeNow pt o.kv
    streamPages pt (← depthPages pt o (m.depth + 1))
    let _ ← truncateNode pt kv.1 kv.2 c
    depthRule pt o (m.depth + 1)
    let keep := [indexOfHandle target]
    let newLive ← if live.kind = kEmpty then do
        let (_, live) ← nodeNow pt o.live
        let a ← nodeNow pt target
        let g ← geometry pt live
        rebaseDrop pt l live a g.cap
        pure o.live
      else do
        deleteMarks pt [o.live] keep
        let a ← nodeNow pt target
        forkNode pt true a.1 a.2
    let former := if live.kind = kEmpty then [live.parent] else []
    deleteMarks pt (former ++ ((positions (c + 1) o.g).map o.mark).reverse) keep
    pure { o.clearMarks c o.g with g := c, live := newLive }

/-! ### The checks that every command makes (R346) -/

/-- Steps 1 and 2 but for the frame record: the object, read. -/
def streamObject (d : Cmd) (shouldOpen : Bool) : Act (Nat × StreamObj) := do
  let va ← d.offset 0
  d.needCover va 128 3
  match ← locate d.job va 3 128 with
  | .mgmt _ _ | .aperture _ _ | .record _ _ => faultCmd
  | .cell _ pin =>
    check (va % 128 == 0 && pin)
    let o ← readStream d va
    check (o.isOpen == shouldOpen && (!shouldOpen || o.consistent))
    pure (va, o)

/-- Step 3 on handles: acceptance of all, the KV node's children, LOST, BUSY. DEDUCED (log 48). -/
def streamHandles (pt : Party) (kv : Nat) (others : List Nat) : Loam (Nat × Node) := do
  let k ← accept pt kv
  let rest ← others.mapM fun h => accept pt h
  linCheck (k.2.children == 0) lnBusy
  let chains ← (k :: rest).mapM fun x => chainOf pt x
  chainUsable true (chains.foldr (· ++ ·) [])
  pure k

/-- Steps 3 and 4 for an open object. -/
def streamNodes (d : Cmd) (o : StreamObj) : Loam (Nat × Node) := do
  let k ← streamHandles d.party o.kv (o.live :: o.marks.filter (· != 0))
  check (k.2.rows == o.g && k.2.committed == o.p)
  pure k

/-! ### The commands -/

/-- `dx.open` (R347). -/
def dxOpenLoam (d : Cmd) : Loam Finish := do
  let (va, _) ← streamObject d false
  let kv ← streamHandles d.party (d.val 1) [d.val 2]
  let root ← accept d.party (d.val 2)
  let below ← if kv.2.parent = 0 then pure 0 else do
    let (n, _) ← rawNode d.party (indexOfHandle kv.2.parent)
    pure n.rows
  linCheck (decide (1 ≤ kv.2.depth) && (kv.2.kind == kEmpty || kv.2.kind == kAppend) && decide (below ≤ kv.2.rows)
    && root.2.state == nsLive && root.2.parent == 0) lnShape
  let g := kv.2.rows
  let flags := if kv.2.cm then kv.2.flags else kv.2.flags + 2
  writeNode d.party kv.1 { kv.2 with state := nsLive, flags := flags, committed := g }
  writeStream d va ⟨g, g, g, 0, 0, true, d.val 1, d.val 2, 0, 0, List.replicate 8 0⟩
  pure (finOk g)

/-- The frame record of `dx.in` (R350): number, tag, flags, count, reserved. -/
def readFrame (d : Cmd) : Act (Nat × Nat × Nat × Nat × Nat) := do
  let va ← d.offset 1
  check (va % 32 == 0)
  let b ← sourceBytes d va 32
  let f (o n : Nat) : Nat := leNat ((b.drop o).take n)
  pure (f 0 8, f 8 8, f 16 4, f 20 4, f 24 8)

/-- A late frame (R350, R357). -/
def lateFrame (d : Cmd) (va : Nat) (o : StreamObj) (number tag code : Nat) : Act Finish := do
  let n := min 255 (bitsOf o.fault 48 8 + 1)
  writeStream d va { o with fault := code * 2 ^ 56 + n * 2 ^ 48 + number % 2 ^ 48 }
  sendEvent ⟨homeDie va, 9, d.station, d.job, d.ctx, wordOf va, [wordOf number, wordOf tag, wordOf code]⟩
  pure ⟨stStale, number % 2 ^ 48, none⟩

/-- `dx.in` (R350). -/
def dxInLoam (d : Cmd) : Loam Finish := do
  let va0 ← d.offset 0
  d.needCover va0 128 3
  let (number, tag, flags, count, reserved) ← readFrame d
  let (va, o) ← streamObject d true
  let _ ← streamNodes d o
  check (reserved == 0 && decide (flags < 2))
  if number < o.next then lateFrame d va o number tag 2
  else if tag < o.t then lateFrame d va o number tag 1
  else
    linCheck (decide (o.owed + count ≤ 255)) lnShape
    let c := min (max tag o.p) o.g
    let o' ← if flags = 1 then do
        let x ← cutStream d.party o c
        pure { x with t := c, bg := (x.bg + 1) % 2 ^ 32 }
      else pure o
    let o' := { o' with next := (number + 1) % 2 ^ 64, owed := o'.owed + count }
    writeStream d va o'
    pure (finOk o'.bg)

/-- The state update of `dx.app` as it stands at its operand, in the delta layout (R231); none where kind 0 is given. -/
def readUpdate (d : Cmd) (g : Geo) : Loam (Option (List Byte)) := do
  if d.kind 3 = 0 then pure none
  else
    let va ← d.offset 3
    if d.flag 1 then
      let n := 16 + g.cap * (roundUp16 g.dim0 + roundUp16 (ceilDiv g.dim0 32))
      pure (some (← sourceBytes d va n))
    else
      let head ← sourceBytes d va 16
      pure (some (← sourceBytes d va (16 + 8 * leNat (head.take 4))))

/-- The delta of an update, checked as R256 states; none where it changes nothing. -/
def updateDelta (d : Cmd) (g : Geo) (b : List Byte) : Loam (Option (Nat × Delta)) := do
  if d.flag 1 then
    linCheck (!g.fmt.isInt) lnShape
    pure (some (kResid, { unpackDelta g kResid b with n := g.cap }))
  else
    let new := (unpackDelta g kElems b).elems
    linCheck (new.all fun y => decide (y.1 < g.cap * g.dim0) && decide (y.2 < 2 ^ (8 * g.e))) lnShape
    let merged := new.foldl (fun l y => putSorted l y.1 y.2) []
    pure (if merged.isEmpty then none else some (kElems, { Delta.empty with n := merged.length, elems := merged }))

/-- The effect of `dx.app` once its checks have passed (R348). -/
def appendPosition (d : Cmd) (o : StreamObj) (kv : Nat × Node) (g lg : Geo) (rows : List (List Nat))
    (upd : Option (Nat × Delta)) : Loam StreamObj := do
  let pt := d.party
  let (l, live) ← nodeNow pt o.live
  let updPages := match upd with
    | some (kind, x) => pagesOf (packDelta lg kind x).length
    | none => 0
  let deep ← if live.kind = kEmpty then pure 0 else depthPages pt o (live.depth + 1)
  streamPages pt (pagesOf (16 + rows.length * g.w) + updPages + deep)
  let _ ← putDelta pt true kv.1 { kv.2 with rows := o.g + 1 } g kAppend { Delta.empty with n := rows.length, rows := rows }
  let (mark, target) ← if live.kind = kEmpty then pure (live.parent, o.live)
    else do
      depthRule pt o (live.depth + 1)
      let (_, live) ← nodeNow pt o.live
      pure (o.live, ← forkNode pt true l live)
  match upd with
  | some (kind, x) => do
    let (i, n) ← nodeNow pt target
    let _ ← putDelta pt true i n lg kind x
  | none => pure ()
  pure { o.setMark o.g mark with live := target, g := o.g + 1, owed := if d.flag 0 then o.owed - 1 else o.owed }

/-- `dx.app` (R348). -/
def dxAppLoam (d : Cmd) : Loam Finish := do
  let (va, o) ← streamObject d true
  let kv ← streamNodes d o
  let g ← geometry d.party kv.2
  let (_, live) ← nodeNow d.party o.live
  let lg ← geometry d.party live
  let row ← sourceBytes d (← d.offset 2) g.w
  let update ← readUpdate d lg
  if d.number 1 % 2 ^ 32 ≠ o.bg then pure ⟨stStale, o.bg, none⟩
  else if !d.flag 0 ∧ 0 < o.owed then pure ⟨stStale, o.bg, none⟩
  else
    check (!d.flag 0 || decide (0 < o.owed))
    if o.g - o.p = 8 then pure ⟨stFull, o.g % 2 ^ 48, none⟩
    else
      linCheck (decide (o.g + 1 ≤ g.cap)) lnShape
      let upd ← match update with
        | some b => updateDelta d lg b
        | none => pure none
      linCheck (kv.2.kind == kEmpty || kv.2.kind == kAppend) lnKind
      let old ← readDelta d.party kv g
      let below ← if kv.2.parent = 0 then pure 0 else do
        let (n, _) ← rawNode d.party (indexOfHandle kv.2.parent)
        pure n.rows
      linCheck (decide (below ≤ o.g)) lnShape
      linCheck (upd.isNone || live.kind != kEmpty || live.children == 0) lnBusy
      let o' ← appendPosition d o kv g lg (old.rows.take (o.g - below) ++ [numsAt row 0 g.e g.dim0]) upd
      writeStream d va o'
      pure (finOk o'.g)

/-- `dx.ack` (R352). -/
def dxAckLoam (d : Cmd) : Loam Finish := do
  let pt := d.party
  let (va, o) ← streamObject d true
  let _ ← streamNodes d o
  let pos := d.number 1
  linCheck (decide (o.p ≤ pos) && decide (pos ≤ o.g)) lnShape
  if pos = o.p then pure (finOk o.p)
  else
    let a ← nodeNow pt (← holderOf pt o pos)
    match (← chainOf pt a).head? with
    | none => refuseWith lnBadHandle
    | some b =>
      if b.1 ≠ a.1 then rebaseKeep pt true a.1 a.2 b else pure ()
      deleteMarks pt ((positions o.p pos).map o.mark).reverse [a.1, b.1]
      let (i, n) ← nodeNow pt (a.2.handle a.1)
      commitNode pt (i, n)
      let kv ← nodeNow pt o.kv
      writeNode pt kv.1 { kv.2 with committed := pos }
      writeStream d va { o.clearMarks o.p pos with p := pos }
      pure (finOk pos)

/-- `dx.trunc` (R351). -/
def dxTruncLoam (d : Cmd) : Loam Finish := do
  let (va, o) ← streamObject d true
  let _ ← streamNodes d o
  let pos := d.number 1
  linCheck (decide (o.p ≤ pos) && decide (pos ≤ o.g)) lnShape
  let x ← cutStream d.party o pos
  let o' := { x with t := pos, bg := (x.bg + 1) % 2 ^ 32 }
  writeStream d va o'
  pure (finOk o'.bg)

/-- `dx.close` (R353). -/
def dxCloseLoam (d : Cmd) : Loam Finish := do
  let pt := d.party
  let (va, o) ← streamObject d true
  let _ ← streamNodes d o
  let k ← nodeNow pt (← committedOf pt o)
  let (_, live) ← nodeNow pt o.live
  if k.2.parent = 0 then pure ()
  else
    probe pt k
    streamPages pt (fullPages (← geometry pt k.2) k.2)
  flattenCommitted pt o
  let former := if live.kind = kEmpty then [live.parent] else []
  deleteMarks pt (o.live :: former ++ ((positions o.p o.g).map o.mark).reverse) [k.1]
  writeStream d va ⟨0, 0, 0, 0, 0, false, o.kv, k.2.handle k.1, 0, 0, List.replicate 8 0⟩
  pure (finOk k.1)

def dxOpenRun (d : Cmd) : Act Finish := runStream d.party (dxOpenLoam d)
def dxInRun (d : Cmd) : Act Finish := runStream d.party (dxInLoam d)
def dxAppRun (d : Cmd) : Act Finish := runStream d.party (dxAppLoam d)
def dxAckRun (d : Cmd) : Act Finish := runStream d.party (dxAckLoam d)
def dxTruncRun (d : Cmd) : Act Finish := runStream d.party (dxTruncLoam d)
def dxCloseRun (d : Cmd) : Act Finish := runStream d.party (dxCloseLoam d)

def execDxOpen (s : State) : Outcome := dieOp dxOpenForm .dxOpen dxOpenRun s
def execDxIn (s : State) : Outcome := dieOp dxInForm .dxIn dxInRun s
def execDxApp (s : State) : Outcome := dieOp dxAppForm .dxApp dxAppRun s
def execDxAck (s : State) : Outcome := dieOp dxAckForm .dxAck dxAckRun s
def execDxTrunc (s : State) : Outcome := dieOp dxTruncForm .dxTrunc dxTruncRun s
def execDxClose (s : State) : Outcome := dieOp dxCloseForm .dxClose dxCloseRun s

end Sys2Proof.Machine
end

