-- ==== Sys2Proof/Machine/Ras.lean ====
section
/-! DEFINITION. Lines and errors: recalls (R176), evictions (R379), patrol scrub (R360, R362), rollback (R364 to R368),
accesses of the host (R170) and of other devices over the fabric (R315). -/

namespace Sys2Proof.Machine

open Sys2Proof

/-! ### STASH_RECALL and L2_LINE_EVICTION -/

/-- STASH_RECALL of the block of a job that a station owns (R176). -/
def stashRecallAct (e : EventArg) : Act Unit := do
  let block := e.addr / 256 * 256
  require ((← get).stations.any fun x => match mappedEntry x.2 e.job block with | some o => o.valid | none => false)
  recallBlock e.job block

def execStashRecall (s : State) : Outcome := runEvent stashRecallAct s

/-- Whether a slice may have needed the place of a line for another of its set: for one that it took after the line's last use, and
for whose place it has not yet replaced a line. -/
def L2Line.wants (m l : L2Line) : Bool :=
  (match m.place with | some t => decide (l.used < t) | none => false) && sharesSet m.vline l.vline

/-- L2_LINE_EVICTION of the line of a set that was the least recently used of those that may leave when the slice took another
line: whether the set had room for that one depends on the organisation of the slice, no part of the architecture (R379). DESIGN
CHOICE (log 24). -/
def lineEvictionAct (e : EventArg) : Act Unit := do
  let p ← read
  let c ← get
  match c.l2[e.index]? with
  | none => notYet
  | some l =>
    match c.l2.find? fun m => m.wants l with
    | none => notYet
    | some m =>
      require (leastUsed c l.vline == some l)
      onCore fun c => leaveL2 p l { c with l2 := c.l2.map fun x => if x = m then { x with place := none } else x }

def execL2LineEviction (s : State) : Outcome := runEvent lineEvictionAct s

/-! ### PATROL_SCRUB (R360, R362, R364, R370) -/

/-- The counts of a die's management block after an error in a layer: 1 corrected, 2 uncorrectable in a line. -/
def DieMgmt.countError (m : DieMgmt) (layer line kind : Nat) : DieMgmt :=
  if kind = 1 then
    { m with corrected := m.corrected + 1
             periodCorrected := assocSet m.periodCorrected layer (assocGet m.periodCorrected layer 0 + 1) }
  else
    { m with uncorrected := m.uncorrected + 1
             periodBad := if m.periodBad.contains (layer, line) then m.periodBad else (layer, line) :: m.periodBad }

def Platform.updMgmt (p : Platform) (die : Nat) (f : DieMgmt → DieMgmt) : Platform :=
  if h : die < 4 then { p with mgmt := p.mgmt.set die (f p.mgmt[die]) } else p

/-- The die, and the layer within it, of a physical address (R369). -/
def stackDie (pa : Nat) : Nat := pa / 2 ^ 36 / 2
def layerKey (pa : Nat) : Nat := 16 * (pa / 2 ^ 36 % 2) + pa / 2 ^ 32 % 16

/-- The lines of a task's stash windows that lie at a physical line and that it has made dirty. -/
def windowLines (c : Core) (t : Task) (pline : Nat) : List Nat :=
  c.stations.foldr (fun s acc => s.2.entries.foldr (fun e acc =>
    match e.mapped with
    | some (j, va) =>
      if j = t.job ∧ e.writer = t.record then
        ((List.range 4).filter fun k =>
          (e.dirty.extractLsb' (64 * k) 64) != 0 && e.plines.getD k none == some pline).map (fun k => va + 64 * k) ++ acc
      else acc
    | none => acc) acc) []

/-- Those of some lines of a job that lie at a physical line. -/
def linesAt (job pline : Nat) (l : List Nat) : Act (List Nat) := do
  let found ← l.mapM fun va => do
    match ← lineAddr job va with
    | some pa => pure (if pa / 64 = pline then some va else none)
    | none => pure none
  pure (found.filterMap id)

/-- The virtual lines of a task that lie at a physical line: those that it has tagged in L2, in a stash window or in its log,
and those whose errors have rolled it back before (R364, R367). -/
def taskLinesAt (t : Task) (pline : Nat) : Act (List Nat) := do
  let p ← read
  let c ← get
  let tagged := (c.l2.filter fun l => l.job == t.job && l.task == some t.record && l.pline == pline).map fun l => l.vline * 64
  let others ← linesAt t.job pline ((taskEntries p c t.job t.record).map (fun a => c.mem.read a 8) ++ t.retried)
  pure (tagged ++ windowLines c t pline ++ others)

/-- Whether a task waits to be dispatched or placed, again after a rollback or a pre-emption. -/
def taskWaits (c : Core) (t : Task) : Bool :=
  c.ready.any (fun x => x.job == t.job && x.record == t.record) || c.placing.any fun x => x.job == t.job && x.record == t.record

/-- The lines of a task at a physical line that an error rolls back: all of a running task, and of one that waits to go on after a
rollback those whose errors rolled it back, which meet the error again before it writes them (R364, R367). -/
def rollbackLines (t : Task) (pline : Nat) : Act (List Nat) := do
  let p ← read
  let c ← get
  if t.phase != .preempted then taskLinesAt t pline
  else if taskWaits c t then linesAt t.job pline (t.retried.filter fun va => !taskWrote p c t.job t.record va)
  else pure []

/-- An uncorrectable error found in a line: every task that has written it is to be rolled back (R364). -/
def findRollbacks (pline ctx : Nat) : Act Unit := do
  (← get).tasks.forM fun t => do
    match ← rollbackLines t pline with
    | va :: _ => onCore (requestRollback t.job t.record va ctx)
    | [] => pure ()

/-- The place within an extent of a job's memory that lies at a physical line. -/
def extentAt (job va len pline : Nat) : Act (Option Nat) := do
  let pages := (List.range ((va + len + 65535) / 65536 - va / 65536)).map (· + va / 65536)
  let found ← pages.mapM fun k => do
    match ← translateVa job (65536 * k) with
    | some m =>
      let a := 65536 * k + (64 * pline - m.pa)
      pure (if m.pa ≤ 64 * pline ∧ 64 * pline < m.pa + 65536 ∧ va < a + 64 ∧ a < va + len then some a else none)
    | none => pure none
  pure (found.findSome? id)

/-- The lineage nodes of a job whose record or delta lies at a physical line (R241). -/
def lineageAt (job pline : Nat) : Act (List (Nat × Node)) := do
  let pt : Party := ⟨job, 0, 0, 0, false⟩
  let nodes ← usedNodes pt
  let hit ← nodes.mapM fun x => do
    let record ← extentAt job (← nodeAddr pt x.1) 64 pline
    let delta ← extentAt job x.2.delta x.2.bytes pline
    pure (if record.isSome || delta.isSome then some x else none)
  pure (hit.filterMap id)

/-- An error in lineage data that no command reads (R241): a node with CM = 0 is LOST with the SPEC nodes below it. The result
tells whether there was such a node, whose error rolls no task back. For committed data the tasks are those that have written
the line. DEDUCED (log 57). -/
def scrubLineage (pline : Nat) : Act Bool := do
  let jobs := (← get).jobs
  let lost ← jobs.mapM fun job => do
    let hit ← lineageAt job pline
    let spec := hit.filter fun x => !x.2.cm
    spec.forM fun x => loseNode ⟨job, 0, 0, 0, false⟩ x.1
    pure (!spec.isEmpty)
  pure (lost.any id)

/-- The line poisoned in HBM, and with it the record that lies there (R360). A line that L2 holds keeps its data there, and only
what HBM holds is poisoned: it shows once the line has left L2 (R379). -/
def poisonLine (p : Platform) (pline : Nat) (c : Core) : Core :=
  if c.l2.any fun l => l.pline == pline then
    { c with l2 := c.l2.map fun l => if l.pline = pline then { l with oldPoison := 0xFF } else l }
  else
    let c := poisonRecords p pline c
    { c with mem := c.mem.setLinePoison (64 * pline) true }

/-- An uncorrectable error in a line of HBM, found by the scrub or by the read of a context: the line is poisoned, and what
wrote it is rolled back. -/
def badLine (pline ctx : Nat) : Act Unit := do
  let p ← read
  onCore (poisonLine p pline)
  if !(← scrubLineage pline) then findRollbacks pline ctx

/-- An uncorrectable error in a word of a line that L2 holds, found by the access of a context or of none: that word alone is
poisoned (R360, R368). -/
def badL2Word (pa ctx : Nat) : Act Unit := do
  require ((← get).l2.any fun l => l.pline == pa / 64)
  onCore fun c => { c with mem := c.mem.setPoison pa true }
  if !(← scrubLineage (pa / 64)) then findRollbacks (pa / 64) ctx

/-- Whether an error in a line rolls a task of its job back (R364, R367): the line carries the tag of a running task, or the task waits
to go on after such an error in that line and has not written it since. -/
def rolledBack (p : Platform) (c : Core) (t : Task) (va : Nat) : Bool :=
  if t.phase != .preempted then taskWrote p c t.job t.record va
  else taskWaits c t && t.retried.any (fun a => lineOf a == lineOf va) && !taskWrote p c t.job t.record va

/-- An uncorrectable error in a word of a station's stash, found by the access of a context or of none: that word alone is poisoned,
and the tasks whose tag its line carries, in the window, in L2 or in the log, are rolled back (R360, R364, R368). -/
def badStashWord (pid o ctx : Nat) : Act Unit := do
  require (decide (pid < Config.stations) && decide (o < stashSize))
  let e := stashEntry ((← get).station pid) (o / 256)
  onCore fun c => c.updStation pid fun s => setStashEntry s { e with poison := e.poison ||| ((1 : BitVec 32) <<< (o % 256 / 8)) }
  match e.mapped with
  | some (job, va) =>
    let line := va + o % 256 / 64 * 64
    if e.valid then
      let p ← read
      (← get).tasks.forM fun t =>
        onCore fun c => if t.job == job && rolledBack p c t line then requestRollback job t.record line ctx c else c
    else pure ()
  | none => pure ()

/-- An uncorrectable error in a line of a record that a context cache holds: it is treated as poisoned (R360). -/
def badContextLine (k : Key) (line : Nat) : Act Unit := do
  match (← get).strand? k with
  | none => notYet
  | some x =>
    require (x.resident && decide (line < 16))
    onCore (Core.setStrand · { x with badLines := risingSet x.badLines line true })

/-- What an error is in, by the argument's unit (R360): a line of HBM found by the scrub or (1) by the read of a context that the
data names, a word of a line in L2 (2), found by the context that the data names, a word of a stash (3) at a station and offset,
found by the context that comes after them, a line of a resident context (4). -/
def badUnit (e : EventArg) : Act Unit :=
  match e.unit with
  | 1 => badLine (e.addr / 64) (e.data.headD 0)
  | 2 => badL2Word (e.addr / 8 * 8) (e.data.headD 0)
  | 3 => badStashWord (e.data.headD 0) (e.data.getD 1 0) (e.data.getD 2 0)
  | 4 => badContextLine ⟨e.job, e.addr⟩ (e.data.headD 0)
  | _ => badLine (e.addr / 64) 0

/-- Whether an error is in a line of HBM: only those count (R360). -/
def hbmError (e : EventArg) : Bool := e.unit != 2 && e.unit != 3 && e.unit != 4

/-- PATROL_SCRUB of the line at a physical address, or another error that is found: the index tells how many symbols or bits
are wrong. One is corrected in place; two or more are detected, not corrected (R358 to R360). DEDUCED (log 57). -/
def patrolScrub (e : EventArg) (s : State) : Outcome :=
  let pa := e.addr / 64 * 64
  if hbmError e && (decide (Config.hbmBytes ≤ pa) || layerGone s.plat pa) then .next s
  else
    let counted (kind : Nat) : Platform :=
      if hbmError e then s.plat.updMgmt (stackDie pa) fun m => m.countError (layerKey pa) (pa / 64) kind else s.plat
    match e.index with
    | 0 => .next s
    | 1 => .next { s with plat := counted 1 }
    | _ =>
      match badUnit e s.plat s.core with
      | .ok (_, c) => .next { s with core := c, plat := counted 2 }
      | .error (.fault f) => .fault f
      | .error _ => .next s

def execPatrolScrub (s : State) : Outcome :=
  match s.core.work with
  | .event e => patrolScrub e s
  | .idle | .strand _ _ _ _ _ | .engine _ => .next s

/-! ### ROLLBACK (R366 to R368, R372) -/

/-- The code of R368: 1 relaunched, or why the task goes to FAULT. -/
def rollbackCode (p : Platform) (c : Core) (t : Task) (line : Nat) : Nat :=
  if t.noEntry then 2 else if t.outside then 3
  else if t.retried.any (fun va => lineOf va == lineOf line) && !taskWrote p c t.job t.record line then 4 else 1

/-- A rolled-back task READY again with its ticket, or in placement if it is a gang; class S resumes from its checkpoint. -/
def relaunch (t : Task) (line : Nat) : Act Unit := do
  onCore (updTask t.job t.record fun u =>
    { u with phase := .preempted, noEntry := false, outside := false, ended := none, tails := [], lapYields := [], others := []
             retried := line :: u.retried.filter (· != line) })
  match t.saved with
  | some l =>
    onCore (toCheckpoint t l)
    let lap ← readNum (enginePt t.job t.save) (t.save + 0x18) 8
    onCore (updTask t.job t.record fun u => { u with laps := lap })
  | none => onCore (updTask t.job t.record fun u => { u with laps := 0 })
  let resume := t.saved.isSome
  setRecordState t.job t.record trReady
  if t.gang then
    onCore (placeGang ⟨t.job, t.record, t.prio, t.ticket, [], resume⟩)
  else
    onCore fun c => { c with ready := ⟨t.job, t.record, t.die, t.prio, t.ticket, false, resume⟩ :: c.ready }

/-- ROLLBACK of the first request's task. A cancel wins: the log is restored and the task becomes CANCELLED. DEDUCED
(log 56). The record names the station at the task record's home: DESIGN CHOICE (log 76). -/
def rollbackAct (_ : EventArg) : Act Unit := do
  let p ← read
  match (← get).rollbacks with
  | [] => notYet
  | q :: _ =>
    let t? := (← get).tasks.find? fun t => t.job == q.job && t.record == q.record
    onCore fun c => { c with rollbacks := c.rollbacks.filter fun r => !(r.job == q.job && r.record == q.record) }
    match t? with
    | none => pure ()
    | some t =>
      require (taskStill (← get) t)
      let code ← look fun p c => rollbackCode p c t q.line
      let (restored, others) ← undoTask t
      if (← get).cancelled.contains t.job then
        setRecordState t.job t.record trCancelled
        onCore (closeTask p t)
      else
        if code = 1 then relaunch t q.line
        else
          setRecordState t.job t.record trFault
          onCore (closeTask p t)
        sendEvent ⟨t.die, 0x0B, home t.record, t.job, q.ctx, wordOf t.record,
          [wordOf code, wordOf q.line, wordOf restored, wordOf others]⟩

def execRollback (s : State) : Outcome := runEvent rollbackAct s

/-! ### HOST_CXL_ACCESS (R170, R379) -/

/-- Bytes of the host stored into a part of a line: they leave every L1, full/empty bits stay, and only a whole line ends
poison but for a whole word that alone was poisoned (R361). What lies in a live context's record is stored there by whole
words, and reported otherwise (R38, R39, R41). DEDUCED (log 63). -/
def hostStore (p : Platform) (pa : Nat) (bytes : List Byte) (c : Core) : Core :=
  match storedAt p c pa with
  | some (k, off) =>
    (chunksOf off bytes.length 8).foldl (fun c x =>
      recordStore p ⟨k.job, foreignStation 0, 0, 0, false⟩ k x.1 (k.ctx + x.1) x.2
        (wordOf (leNat ((bytes.drop (x.1 - off)).take x.2))) c) c
  | none =>
    let c := dropL1Physical pa { c with l2 := c.l2.map fun l => if l.pline = pa / 64 then { l with dirty := true } else l }
    noteSeal p pa bytes.length { c with mem := poisonAfter (c.mem.setBytes pa bytes) pa (bytes.map fun b => (b, false)) }

/-- The words that bytes at an address touch, set full: the loader writing an image (R34, R106). -/
def loadedFull (pa n : Nat) (c : Core) : Core :=
  (List.range 8).foldl (fun c k =>
    let w := pa / 64 * 64 + 8 * k
    if pa < w + 8 ∧ w < pa + n then wakeAll (.feWord w true) { c with mem := c.mem.setFull w true } else c) c

/-- The loader binds a segment register to a section of an image, for the strands of one of its tasks (R34). -/
def bindingOf (e : EventArg) : Binding :=
  let f (i : Nat) : Nat := e.data.getD i 0
  ⟨e.job, e.addr, f 0 % 8, f 1, f 2, f 3 != 0⟩

/-- HOST_CXL_ACCESS at a physical address within one line: a write of the argument's bytes, or with none a read, which
changes nothing here; with index 1 the host is the loader writing an image, whose words are full, and with index 2 the loader
binding a segment register (R34). In recovery mode the device does not answer (R374). DEDUCED (log 11). -/
def hostAccessAct (e : EventArg) : Act Unit := do
  let p ← read
  if e.index = 2 then
    require !p.firmware.recovery
    onCore fun c => { c with
      bindings := bindingOf e :: c.bindings.filter (fun b => !(b.job == e.job && b.record == e.addr && b.seg == (bindingOf e).seg)) }
  else
    let n := e.data.length
    require (!p.firmware.recovery && decide (e.addr + n ≤ Config.hbmBytes) && decide (e.addr % 64 + n ≤ 64) && !layerGone p e.addr)
    if n = 0 then pure ()
    else
      onCore (hostStore p e.addr (e.data.map fun x => BitVec.ofNat 8 x))
      if e.index = 1 then onCore (loadedFull e.addr n)

def execHostCxlAccess (s : State) : Outcome := runEvent hostAccessAct s

/-! ### FABRIC_ACCESS_IN (R312 to R315) -/

/-- An access that arrives over the fabric, in its effect here: its kind (0 load, 1 store, 2 `stf`, 3 to 10 the other full/empty operations, 11
to 22 the atomics, 23 the change of a remote word's bit that wakes who waits on it here, 24 a successor's decrement), size,
operands, capability, issuing device, and an atomic's order. -/
structure FabricAccess where
  kind : Nat
  size : Nat
  value : Word
  expect : Word
  cap : BitVec 16
  device : Nat
  ord : MemOrd
  deriving DecidableEq, Repr

def fabricAccess (e : EventArg) : FabricAccess :=
  let f (i : Nat) : Nat := e.data.getD i 0
  ⟨f 0 % 25, 2 ^ (f 1 % 4), wordOf (f 2), wordOf (f 3), BitVec.ofNat 16 (f 4), f 5, MemOrd.ofCode (BitVec.ofNat 2 (f 6))⟩

def fabricFe : List FeOp := [.stf, .ldf, .ldfe, .stef, .probe, .set, .clr, .wait, .waite]
def fabricAmo : List AmoOp := [.swap, .add, .and, .or, .xor, .min, .max, .minz, .maxz, .cas, .fadd, .inc]

/-- A decrement of another device's task that reaches a record here (R198): its party is the job that the value names. -/
def fabricDecrement (job va : Nat) (x : FabricAccess) : Act Unit := do
  if ← meetJob job then
    let _ ← decrementRecord ⟨job, va, x.value.toNat, home va, 0, none⟩

/-- The access performed on the local cell, at system scope (R312). It comes through no segment, and so reaches no management block
(R363). -/
def performFabric (job va : Nat) (x : FabricAccess) : Act Unit := do
  let pt : Party := ⟨job, foreignStation x.device, 0, 0, false⟩
  if mgmtMeets va x.size then pure ()
  else if x.kind = 0 then
    let _ ← loadAt pt va x.size
  else if x.kind = 1 then storeAt pt va x.size (zextTo x.value.toNat (8 * x.size))
  else if x.kind = 2 then storeFull pt pt.station va x.value .system
  else if x.kind = 24 then fabricDecrement job va x
  else
    match fabricFe[x.kind - 2]? with
    | some op =>
      let _ ← feAt pt op va x.value .system
    | none =>
      let n := 8 * x.size
      let op := fabricAmo.getD (x.kind - 11) .swap
      let _ ← amoAt pt op va x.size (x.value.toNat % 2 ^ n) (x.expect.toNat % 2 ^ n) x.ord .system

/-- Whether an access has a size that its kind may have, and is aligned to it. -/
def fabricSized (x : FabricAccess) (va : Nat) : Bool :=
  if x.kind < 2 then va % x.size == 0
  else if x.kind < 11 then va % 8 == 0
  else if x.kind < 23 then va % x.size == 0 && (if x.kind = 21 then x.size == 4 else x.size == 4 || x.size == 8)
  else x.kind != 24 || va % 128 == 0

/-- The own copy of a multicast store written at its return (R312, R313). -/
def returnStore (x : Multicast) : Act Unit := do
  let pt : Party := ⟨x.key.job, x.station, x.key.ctx, x.task, false⟩
  if x.full then
    let _ ← feCell { pt with strand := true } .stf x.pa x.va .aperture x.value .system
  else storeCell pt x.pa x.va x.size x.value

/-- A POISON for the strand of a store that was refused after other instructions had issued (R109). -/
def refusedLater (x : Multicast) (va : Nat) (c : Core) : Core :=
  c.updStrand x.key fun y =>
    if y.live then { y with poison := y.poison ++ [⟨x.opc, wordOf va, y.issues - x.stamp - 1, x.stamp, true⟩] } else y

/-- The first multicast store on its way returns through the spine, which keeps them in order (R313); its capability is compared
here as at every member (R315). -/
def multicastReturn : Act Unit := do
  match (← get).multicasts with
  | [] => notYet
  | x :: rest =>
    if x.cap = Config.pageKey x.key.job (x.va / 65536) then
      match ← attempt (returnStore x) with
      | .error (.refuse va) => onCore (refusedLater x va)
      | _ => pure ()
    else fabricDiverted x.key.job x.va x.key.ctx x.cap (← read).deviceNo
    onCore fun c => { c with multicasts := rest }

/-- The state of a remote word's bit has changed: its waiters here try again. DESIGN CHOICE (log 13). -/
def remoteWake (device va : Nat) : Act Unit :=
  onCore fun c =>
    let w := remoteCell device va
    wakeAll (.feWord w false) (wakeAll (.feWord w true) { c with freeNo := c.freeNo + 1 })

/-- FABRIC_ACCESS_IN: without data, an own multicast store returns; else the access is performed, or a CAP record of item 4
follows if its capability is not the key that the aperture's owner recorded for the page. A store that the home refuses is
lost. In recovery mode the device does not answer (R374). -/
def fabricInAct (e : EventArg) : Act Unit := do
  let p ← read
  require !p.firmware.recovery
  let x := fabricAccess e
  if e.data.isEmpty then multicastReturn
  else if x.kind = 23 then remoteWake x.device e.addr
  else
    require (fabricSized x e.addr && !(← get).cancelled.contains e.job)
    if x.cap = Config.pageKey e.job (e.addr / 65536) then
      match ← attempt (performFabric e.job e.addr x) with
      | .ok _ => pure ()
      | .error (.refuse _) | .error (.trap _ _ _ _) | .error (.park _) => onCore (reachedLine p e.job e.addr)
      | .error f => stop f
    else fabricDiverted e.job e.addr 0 x.cap x.device

def execFabricAccessIn (s : State) : Outcome := runEvent fabricInAct s

end Sys2Proof.Machine
end

