-- ==== Sys2Proof/Machine/Platform.lean ====
section
/-! DEFINITION. The platform: scrub periods, layers mapped out (R370, R371), writes of the management block (R363), power
and temperature (R377), reset and firmware (R373, R374), attestation (R375), and the fabric's devices and links (R308,
R316). -/

namespace Sys2Proof.Machine

open Sys2Proof

/-- An event that may change the platform too; none where it does not happen. -/
def runPlatform (f : EventArg → State → Option State) (s : State) : Outcome :=
  match s.core.work with
  | .event e => match f e s with
    | some s' => .next s'
    | none => .next s
  | .idle | .strand _ _ _ _ _ | .engine _ => .next s

/-! ### Layers (R369 to R371) -/

/-- The stack and the layer that a die and a key name. -/
def stackOf (die key : Nat) : Nat := 2 * die + key / 16 % 2
def layerBase (die key : Nat) : Nat := stackOf die key * 2 ^ 36 + key % 16 * 2 ^ 32

/-- A MAPOUT record (R371): 1 pending, 2 removed after release, 3 removed hard. DEDUCED (log 38). -/
def mapoutEvent (m : DieMgmt) (die key phase : Nat) : SupEvent :=
  ⟨die, 0x0A, die * 160, 0, 0, 0, [wordOf phase, wordOf (layerBase die key), wordOf (stackOf die key * 256 + key % 16),
    wordOf (assocGet m.periodCorrected key 0)]⟩

def DieMgmt.gone (m : DieMgmt) (key : Nat) : Bool := if key < 16 then m.mappedA.getLsbD (key % 16) else m.mappedB.getLsbD (key % 16)

/-- The management block after a layer's removal. -/
def DieMgmt.removeLayer (m : DieMgmt) (key : Nat) : DieMgmt :=
  let bit : BitVec 16 := (1 : BitVec 16) <<< (key % 16)
  let m := { m with softLayers := m.softLayers.filter (· != key) }
  if key < 16 then { m with capacityA := m.capacityA - 2 ^ 32, mappedA := m.mappedA ||| bit }
  else { m with capacityB := m.capacityB - 2 ^ 32, mappedB := m.mappedB ||| bit }

/-- The context records of memory whose page lies in a layer that goes are lost (R370). -/
def loseRecords (p : Platform) (first : Nat) (c : Core) : Core :=
  let lost (x : Strand) : Bool :=
    x.inMemory && (recordFrame p x.key c).any fun pa => decide (first ≤ pa / 64) && decide (pa / 64 < first + 2 ^ 26)
  { c with strands := c.strands.map fun x => if lost x then { x with badLines := List.range 16 } else x }

/-- Steps 1 to 4 of R370; the lines that L2 holds of the layer leave it (R379), and no L1 copy serves them any more. -/
def removeLayer (die key phase : Nat) (s : State) : State :=
  if h : die < 4 then
    let m := s.plat.mgmt[die]
    if m.gone key then s
    else
      let plat := s.plat.updMgmt die fun m => m.removeLayer key
      let plat := { plat with eventLog := plat.eventLog ++ [(stackOf die key, key % 16)] }
      let first := layerBase die key / 64
      let core := loseRecords s.plat first s.core
      let c := dropCopies none (fun x => decide (first ≤ x.pline) && decide (x.pline < first + 2 ^ 26))
        { core with l2 := s.core.l2.filter fun l => !(decide (first ≤ l.pline) && decide (l.pline < first + 2 ^ 26)) }
      { s with plat := plat, core := supSend plat (mapoutEvent m die key phase) c }
  else s

/-- LAYER_HARD_REMOVAL: a layer of a die does not respond. -/
def hardRemoval (e : EventArg) (s : State) : Option State :=
  if e.unit < 4 ∧ e.index < 32 then some (removeLayer e.unit e.index 3 s) else none

def execLayerHardRemoval (s : State) : Outcome := runPlatform hardRemoval s

/-- A layer's errors of the period judged: hard over 16 lines, soft over 1,024 corrected errors. -/
def judgeLayer (die : Nat) (s : State) (key : Nat) : State :=
  if h : die < 4 then
    let m := s.plat.mgmt[die]
    if m.gone key then s
    else if 16 < (m.periodBad.filter fun x => x.1 == key).length then removeLayer die key 3 s
    else if 1024 < assocGet m.periodCorrected key 0 ∧ !m.softLayers.contains key then
      let plat := s.plat.updMgmt die fun m => { m with softLayers := m.softLayers ++ [key] }
      { s with plat := plat, core := supSend plat (mapoutEvent m die key 1) s.core }
    else s
  else s

/-- SCRUB_PERIOD_END of a die: its layers are judged, and the counts of the period begin again. -/
def scrubPeriodEnd (e : EventArg) (s : State) : Option State :=
  if e.unit < 4 then
    let s := (List.range 32).foldl (judgeLayer e.unit) s
    some { s with plat := s.plat.updMgmt e.unit fun m => { m with periodCorrected := [], periodBad := [] } }
  else none

def execScrubPeriodEnd (s : State) : Outcome := runPlatform scrubPeriodEnd s

/-! ### Writes of the management block (R363, R370) -/

/-- The write on its way that the argument tells, and the state without it; the writes of one word arrive in their order. -/
def takeWrite (e : EventArg) (s : State) : Option (MgmtWrite × State) :=
  match s.core.mgmtWrites[e.index]? with
  | some w =>
    if (s.core.mgmtWrites.take e.index).any fun v => v.isOf w.die w.off then none
    else some (w, { s with core := { s.core with mgmtWrites := s.core.mgmtWrites.eraseIdx e.index } })
  | none => none

/-- The 8-byte word that a write leaves. -/
def MgmtWrite.word (w : MgmtWrite) (p : Platform) : Word := w.leaves (mgmtHeld p w.die w.off)

/-- RELEASE: with GO = 1 it removes a layer that is in phase 1, else it is ignored; a write that leaves the byte of GO out
starts nothing. -/
def releaseWrite (e : EventArg) (s : State) : Option State :=
  match takeWrite e s with
  | none => none
  | some (w, s) =>
    if w.off / 8 ≠ 4 then none
    else
      let v := w.word s.plat
      let key := bitsOf v.toNat 0 5
      let s := { s with plat := s.plat.updMgmt w.die fun m => { m with release := v } }
      if h : w.die < 4 then
        if w.covers 7 && v.getLsbD 63 && (s.plat.mgmt[w.die]).softLayers.contains key then some (removeLayer w.die key 2 s)
        else some s
      else some s

def execRelease (s : State) : Outcome := runPlatform releaseWrite s

/-- SCRUB_PERIOD: 1 to 168 hours take effect, every other value is ignored, and so is a write of the word's other bytes
(`MgmtWrite.leaves`). A write of a word that the supervisor does not write is lost. -/
def scrubPeriodWrite (e : EventArg) (s : State) : Option State :=
  match takeWrite e s with
  | none => none
  | some (w, s) =>
    if w.off / 8 = 4 then none
    else if w.givesHours (mgmtHeld s.plat w.die w.off) then
      some { s with plat := s.plat.updMgmt w.die fun m => { m with scrubHours := (w.word s.plat).toNat } }
    else some s

def execScrubPeriod (s : State) : Outcome := runPlatform scrubPeriodWrite s

/-! ### Power and temperature (R377) -/

def Platform.mapMgmt (p : Platform) (f : DieMgmt → DieMgmt) : Platform := { p with mgmt := p.mgmt.map f }

/-- THROTTLE: firmware lowers the clock of a station-pair island at a module power, and sets THROTTLE. -/
def throttleEvent (e : EventArg) (s : State) : Option State :=
  if e.unit < islands ∧ pairIsland e.unit = true then
    let p := s.plat.mapMgmt fun m => { m with power := e.index % 65536, throttle := true }
    some { s with plat := { p with throttled := risingSet p.throttled e.unit true } }
  else none

def execThrottle (s : State) : Outcome := runPlatform throttleEvent s

/-- THERMAL_THROTTLE: every island. -/
def thermalThrottle (_ : EventArg) (s : State) : Option State :=
  let p := s.plat.mapMgmt fun m => { m with throttle := true }
  some { s with plat := { p with throttled := List.range islands } }

def execThermalThrottle (s : State) : Outcome := runPlatform thermalThrottle s

/-- THERMAL_STOP: every island stops until a reset. DEDUCED (log 10). -/
def thermalStop (_ : EventArg) (s : State) : Option State := some { s with plat := { s.plat with stopped := true } }

def execThermalStop (s : State) : Outcome := runPlatform thermalStop s

/-! ### Reset and firmware (R373, R374) -/

/-- An image's header and body taken apart. -/
structure Image where
  magic : Nat
  headerVersion : Nat
  version : Nat
  length : Nat
  digest : Nat
  reserved : Bool
  signature : List Byte
  modulus : List Byte
  signed : List Byte
  body : List Byte
  deriving DecidableEq, Repr

def imageOf (b : List Byte) : Image :=
  let part (o n : Nat) : List Byte := (b.drop o).take n
  let zero (o n : Nat) : Bool := (part o n).all (· == 0)
  let length := leNat (part 0x10 8)
  ⟨leNat (part 0 4), leNat (part 4 4), leNat (part 8 4), length, leNat (part 0x40 32),
    zero 0x0C 4 && zero 0x18 40 && zero 0x60 32 && zero 0x380 128, part 0x80 384, part 0x200 384, part 0 0x80, part 0x400 length⟩

/-- The position of a digest among the fused ones, if it is there and not revoked. -/
def keyAccepted (f : Firmware) (digest : Nat) : Bool :=
  (List.range 4).any fun i => f.keyDigests[i]? == some digest && !f.revoked.getLsbD i

/-- Whether the boot ROM accepts an image (R374). -/
def imageAccepted (f : Firmware) (b : List Byte) : Bool :=
  let x := imageOf b
  x.magic == 0x464D4C50 && x.headerVersion == 1 && x.reserved && x.body.length == x.length &&
  keyAccepted f (sha256 x.modulus) && pssVerifies x.modulus x.signature x.signed &&
  sha256 x.body == x.digest && decide (f.minVersion ≤ x.version)

/-- The addresses that firmware configures in a die's management block (R363): supervisor queue and launch window of each
die, user queue table and job table of die 0. -/
def configured (l : List Nat) (die : Nat) : DieMgmt :=
  { DieMgmt.reset with
    supQueue := l.getD (2 * die) 0
    window := l.getD (2 * die + 1) 0
    userTable := if die = 0 then l.getD 8 0 else 0
    jobTable := if die = 0 then l.getD 9 0 else 0 }

/-- DEVICE_RESET: everything at its reset; the boot ROM reads the image that the argument's numbers from the tenth on give,
and firmware that it accepts configures the addresses that the first ten give; the unit is the device number that the
supervisor assigns at system start (R307). Fuses stay, and so does what is outside the device. DESIGN CHOICE (log 20). -/
def deviceReset (e : EventArg) (s : State) : Option State :=
  let f := s.plat.firmware
  let image := (e.data.drop 10).map fun x => BitVec.ofNat 8 x
  let x := imageOf image
  let good := imageAccepted f image
  let fw : Firmware := { f with recovery := !good, version := if good then x.version else 0, bodyDigest := if good then x.digest else 0 }
  let mgmt : Vector DieMgmt 4 := Vector.ofFn fun (d : Fin 4) => if good then configured e.data d.val else DieMgmt.reset
  let plat : Platform := { Platform.reset with
    firmware := fw, mgmt := mgmt, lostDevices := s.plat.lostDevices, deviceNo := e.unit % 16384
    failedLinks := s.plat.failedLinks }
  let core : Core := { Core.reset with freeNo := s.core.freeNo, work := s.core.work }
  some { s with core := core, plat := plat }

def execDeviceReset (s : State) : Outcome := runPlatform deviceReset s

/-- FUSED_MINIMUM_RAISE: firmware raises the fused minimum to its own security version. -/
def raiseMinimum (_ : EventArg) (s : State) : Option State :=
  let f := s.plat.firmware
  if f.recovery then none
  else some { s with plat := { s.plat with firmware := { f with minVersion := max f.minVersion f.version } } }

def execFusedMinimumRaise (s : State) : Outcome := runPlatform raiseMinimum s

/-! ### Attestation (R375) -/

/-- Request codes of SPDM 1.2; a response's is the request's less 0x80, and an error's is 0x7F. PRESUMED (log 19). -/
def spdmVersion : Nat := 0x84
def spdmDigests : Nat := 0x81
def spdmCertificate : Nat := 0x82
def spdmChallenge : Nat := 0x83
def spdmMeasurements : Nat := 0xE0
def spdmCapabilities : Nat := 0xE1
def spdmAlgorithms : Nat := 0xE3

/-- A response added to those given. -/
def respond (r : List Nat) (s : State) : State :=
  { s with plat := { s.plat with spdm := { s.plat.spdm with responses := s.plat.spdm.responses ++ [r] } } }

def spdmError (s : State) : State := respond [0x7F] s

/-- Whether the connection has been negotiated. -/
def Spdm.negotiated (x : Spdm) : Bool := x.version && x.capabilities && x.algorithm.isSome

/-- The certificate chain of the alias key, which the identity key certifies. -/
def aliasChain (f : Firmware) : List Byte := Config.aliasCertificate f.bodyDigest

/-- GET_VERSION: SPDM 1.2; it begins a new connection. -/
def getVersion (_ : EventArg) (s : State) : Option State :=
  some (respond [spdmVersion - 0x80, 0x12]
    { s with plat := { s.plat with spdm := { s.plat.spdm with version := true, capabilities := false, algorithm := none } } })

def execGetVersion (s : State) : Outcome := runPlatform getVersion s

/-- GET_CAPABILITIES: certificates, challenges and signed measurements; no sessions. -/
def getCapabilities (_ : EventArg) (s : State) : Option State :=
  if s.plat.spdm.version then
    some (respond [spdmCapabilities - 0x80, 1, 1, 1, 0]
      { s with plat := { s.plat with spdm := { s.plat.spdm with capabilities := true, algorithm := none } } })
  else some (spdmError s)

def execGetCapabilities (s : State) : Outcome := runPlatform getCapabilities s

/-- NEGOTIATE_ALGORITHMS: bit 0 of the argument offers RSASSA_3072, bit 1 RSAPSS_3072, bit 2 SHA-256. -/
def negotiateAlgorithms (e : EventArg) (s : State) : Option State :=
  let offered := e.index
  let pick : Option Nat := if !offered.testBit 2 then none else if offered.testBit 1 then some 1 else if offered.testBit 0 then some 0 else none
  match s.plat.spdm.capabilities, pick with
  | true, some a =>
    some (respond [spdmAlgorithms - 0x80, a, 2]
      { s with plat := { s.plat with spdm := { s.plat.spdm with algorithm := some a } } })
  | _, _ => some (spdmError s)

def execNegotiateAlgorithms (s : State) : Outcome := runPlatform negotiateAlgorithms s

/-- A request that needs a negotiated connection. -/
def attest (r : State → Nat → List Nat) (s : State) : Option State :=
  match s.plat.spdm.negotiated, s.plat.spdm.algorithm with
  | true, some a => some (respond (r s a) s)
  | _, _ => some (spdmError s)

/-- GET_DIGESTS: the SHA-256 of the certificate chain. -/
def getDigests (_ : EventArg) (s : State) : Option State :=
  attest (fun s _ => [spdmDigests - 0x80, sha256 (aliasChain s.plat.firmware)]) s

def execGetDigests (s : State) : Outcome := runPlatform getDigests s

/-- GET_CERTIFICATE: the bytes of the chain. -/
def getCertificate (_ : EventArg) (s : State) : Option State :=
  attest (fun s _ => (spdmCertificate - 0x80) :: (aliasChain s.plat.firmware).map (·.toNat)) s

def execGetCertificate (s : State) : Outcome := runPlatform getCertificate s

/-- A response signed with the alias key, over the nonce and the values. -/
def signedWith (f : Firmware) (algorithm : Nat) (l : List Nat) : List Nat := l ++ [Config.aliasSign f.bodyDigest algorithm l]

/-- CHALLENGE: the chain's SHA-256 and the nonce, signed. -/
def challenge (e : EventArg) (s : State) : Option State :=
  attest (fun s a => signedWith s.plat.firmware a [spdmChallenge - 0x80, sha256 (aliasChain s.plat.firmware), e.index]) s

def execChallenge (s : State) : Outcome := runPlatform challenge s

/-- The measurements: boot ROM digest, body digest, security version, fused minimum with revocation bits. -/
def measurement (f : Firmware) (i : Nat) : List Nat :=
  match i with
  | 1 => [1, Config.bootRomDigest]
  | 2 => [2, f.bodyDigest]
  | 3 => [3, f.version]
  | 4 => [4, f.minVersion, f.revoked.toNat]
  | _ => []

/-- GET_MEASUREMENTS of one index, or of all for 255. -/
def getMeasurements (e : EventArg) (s : State) : Option State :=
  let l (f : Firmware) : List Nat := if e.unit = 255 then (List.range 5).foldr (fun i acc => measurement f i ++ acc) [] else measurement f e.unit
  attest (fun s a => signedWith s.plat.firmware a ([spdmMeasurements - 0x80] ++ l s.plat.firmware ++ [e.index])) s

def execGetMeasurements (s : State) : Outcome := runPlatform getMeasurements s

/-! ### The fabric (R308, R316) -/

/-- DEVICE_LOST: no plane reaches a device. DESIGN CHOICE (log 62). -/
def deviceLost (e : EventArg) (s : State) : Option State :=
  if e.unit < 16384 then some { s with plat := { s.plat with lostDevices := risingSet s.plat.lostDevices e.unit true } } else none

def execDeviceLost (s : State) : Outcome := runPlatform deviceLost s

/-- LINK_FAILURE: a link is retrained, or goes out of service and is routed around on the remaining planes; no program sees
it. -/
def linkFailure (e : EventArg) (s : State) : Option State :=
  some { s with plat := { s.plat with failedLinks := risingSet s.plat.failedLinks e.unit (e.index != 0) } }

def execLinkFailure (s : State) : Outcome := runPlatform linkFailure s

end Sys2Proof.Machine
end

