-- ==== Sys2Proof/Machine/Vector.lean ====
section
/-! DEFINITION. The vector engine (R280, R293 to R302). -/

namespace Sys2Proof.Machine

open Sys2Proof

/-! ### Correctly rounded functions (R280) -/

/-- 1 ÷ √x to 96 or more bits, its last bit set when the root is not exact. -/
def rsqrtNum : Num → Num
  | .nan => .nan
  | .inf neg => if neg then .nan else .fin false 0 0
  | .fin neg m e =>
    if m = 0 then .inf neg
    else if neg then .nan
    else
      let odd := (e % 2).toNat
      let m' := m <<< odd
      let r := isqrt (2 ^ 192 / m')
      .fin false (2 * r + (if r * r * m' = 2 ^ 192 then 0 else 1)) (-96 - (e - odd) / 2 - 1)

/-- 2^(2^−1), 2^(2^−2) and so on to 256 bits after the point. -/
def rootsOfTwo : Nat → Nat → List Nat
  | 0, _ => []
  | k + 1, c =>
    let r := isqrt (c <<< 256)
    r :: rootsOfTwo k r

/-- 2^f for a fraction of 160 bits, to about 250 bits: the product of the roots that its bits select. -/
def exp2Fraction (f : Nat) : Nat :=
  let rs := rootsOfTwo 160 (2 ^ 257)
  (List.range 160).foldl (fun acc i => if f.testBit (159 - i) then (acc * rs.getD i 0) >>> 256 else acc) (2 ^ 256)

/-- 2^x of a binary32 value. No value but an integer's is a binary32 number or half way between two, so a last bit set
below 256 bits rounds as the exact power does. -/
def exp2Num : Num → Num
  | .nan => .nan
  | .inf neg => if neg then .fin false 0 0 else .inf false
  | .fin neg m e =>
    if !neg && decide (128 ≤ scale2 m e) then .inf false
    else if neg && decide (150 ≤ scale2 m e) then .fin false 0 0
    else
      let x : Int := if neg then -((scale2 m (e + 160) : Nat) : Int) else ((scale2 m (e + 160) : Nat) : Int)
      let k := x / (2 : Int) ^ 160
      let f := (x % (2 : Int) ^ 160).toNat
      if f = 0 then .fin false 1 k else .fin false (2 * exp2Fraction f + 1) (k - 257)

/-- The bits of log2 of y · 2^−400 for 1 ≤ y · 2^−400 < 2, by squaring. -/
def log2Bits : Nat → Nat → Nat → Nat
  | 0, _, acc => acc
  | k + 1, y, acc =>
    let s := (y * y) >>> 400
    if 2 ^ 401 ≤ s then log2Bits k (s >>> 1) (2 * acc + 1) else log2Bits k s (2 * acc)

/-- log2 x of a binary32 value to 200 bits after the point; only a power of two has a logarithm with fewer. -/
def log2Num : Num → Num
  | .nan => .nan
  | .inf neg => if neg then .nan else .inf false
  | .fin neg m e =>
    if m = 0 then .inf true
    else if neg then .nan
    else
      let n : Int := (Nat.log2 m : Int) + e
      if m = 2 ^ Nat.log2 m then Num.ofInt n
      else
        let y := scale2 m (400 - (Nat.log2 m : Int))
        let v : Int := 2 * (n * (2 : Int) ^ 200 + (log2Bits 200 y 0 : Nat)) + 1
        .fin (decide (v < 0)) v.natAbs (-201)

/-! ### Operands and checks (R293) -/

def vxForm (flags : Nat) (kinds : List (List Nat)) : CmdForm := ⟨4, flags, kinds, .none⟩
def vxBinaryForm : CmdForm := vxForm 0 [[1, 3, 4], [1, 3, 4], [1, 3, 4], [1, 2], [0]]
def vxUnaryForm : CmdForm := vxForm 0 [[1, 3, 4], [1, 3, 4], [0], [1, 2], [0]]
def vxFillForm : CmdForm := vxForm 0 [[1, 3, 4], [1, 2], [0], [1, 2], [0]]
def vxCvtForm : CmdForm := vxForm 0 [[1, 3, 4], [1, 3, 4], [82], [1, 2], [0]]
def vxCmpForm : CmdForm := vxForm 3 [[1, 3, 4], [1, 3, 4], [1, 3, 4], [1, 2], [0]]
def vxQuantForm : CmdForm := vxForm 0 [[1, 3, 4], [1, 3, 4], [1, 3, 4], [2], [0]]
def vxSwzForm : CmdForm := vxForm 15 [[1, 3, 4], [1, 3, 4], [0], [1, 2], [0]]

/-- A stash extent that an operation touches, with its element size. -/
structure VOp where
  o : Nat
  bytes : Nat
  size : Nat
  deriving DecidableEq, Repr

/-- The stash offset of an operand. -/
def vecOffset (d : Cmd) (i : Nat) : Act Nat := do
  let o ← if d.kind i = 3 then pure (bitsOf (descWord d.tcw i) 0 20) else d.offset i
  check (decide (o < stashSize))
  pure o

def VOp.inRange (v : VOp) : Bool := decide (v.o + v.bytes ≤ stashSize) && v.o % v.size == 0

def VOp.meets (v w : VOp) : Bool :=
  decide (v.o < w.o + w.bytes) && decide (w.o < v.o + v.bytes) && v.bytes != 0 && w.bytes != 0

/-- A destination coincides with a source of its element size, or does not overlap it. -/
def VOp.clear (dst src : VOp) : Bool := dst == src || !dst.meets src

/-- Every entry of the extents is SCRATCH, and unswizzled but for those of `loose` (R182, R293). -/
def vecEntries (d : Cmd) (strict loose : List VOp) : Act Unit := do
  let s := (← get).station d.station
  check ((strict ++ loose).all fun v => (entriesOf v.o v.bytes).all fun i => (stashEntry s i).mapped.isNone)
  match (strict.foldr (fun v acc => entriesOf v.o v.bytes ++ acc) []).find? fun i => (stashEntry s i).span.isSome with
  | some i => endTrap stFault (i * 256) (some (causeSwz, wordOf (i * 256)))
  | none => pure ()

/-- The checks of an operation with one destination. -/
def vecCheck (d : Cmd) (dst : VOp) (srcs : List VOp) : Act Unit := do
  check ((dst :: srcs).all VOp.inRange && srcs.all fun s => dst.clear s)
  vecEntries d (dst :: srcs) []

def readElems (d : Cmd) (o size n : Nat) : Act (List (Nat × Bool)) := do
  let b ← readStash d.station o (n * size)
  pure ((elements size b).map fun e => (eNat e, eBad e))

/-- Elements written; FAULT with the index of the first poisoned one (R302). -/
def writeElems (d : Cmd) (o size : Nat) (l : List (Nat × Bool)) (result : Nat) : Act Finish := do
  writeStash d.task d.station o none (l.foldr (fun x acc => (leBytes size x.1).map (fun b => (b, x.2)) ++ acc) [])
  match l.findIdx? (·.2) with
  | some i => pure ⟨stFault, i, none⟩
  | none => pure (finOk result)

/-- The element count, in w6. -/
def vecCount (d : Cmd) : Nat := d.number 3

/-! ### Elementwise operations (R294 to R296) -/

/-- An operation of two sources; `keep` says that it reads dst too. -/
def vecBinary (f : Nat → Nat → Nat → Nat) (keep : Bool) (d : Cmd) : Act Finish := do
  let n := vecCount d
  if n = 0 then pure (finOk 0)
  else
    let o ← vecOffset d 0
    let a ← vecOffset d 1
    let b ← vecOffset d 2
    vecCheck d ⟨o, 4 * n, 4⟩ [⟨a, 4 * n, 4⟩, ⟨b, 4 * n, 4⟩]
    let xs ← readElems d a 4 n
    let ys ← readElems d b 4 n
    let zs ← readElems d o 4 n
    let out := (List.range n).map fun i =>
      let x := xs.getD i (0, false)
      let y := ys.getD i (0, false)
      let z := zs.getD i (0, false)
      (f x.1 y.1 z.1, x.2 || y.2 || (keep && z.2))
    writeElems d o 4 out n

def vecUnary (f : Nat → Nat) (d : Cmd) : Act Finish := do
  let n := vecCount d
  if n = 0 then pure (finOk 0)
  else
    let o ← vecOffset d 0
    let a ← vecOffset d 1
    vecCheck d ⟨o, 4 * n, 4⟩ [⟨a, 4 * n, 4⟩]
    let xs ← readElems d a 4 n
    writeElems d o 4 (xs.map fun x => (f x.1, x.2)) n

/-- `vx.fill` and `vx.iota`: words computed from a value and the index (R295). -/
def vecIndex (f : Nat → Nat → Nat) (d : Cmd) : Act Finish := do
  let n := vecCount d
  if n = 0 then pure (finOk 0)
  else
    let o ← vecOffset d 0
    vecCheck d ⟨o, 4 * n, 4⟩ []
    writeElems d o 4 ((List.range n).map fun i => (f (d.number 1 % 2 ^ 32) i, false)) n

/-- A NaN made canonical, any other code changed. -/
def vecSign (f : Nat → Nat) (x : Nat) : Nat := if f32IsNaN x then f32Nan else f x

def cmpHolds (p x y : Nat) : Bool :=
  if p = 0 then (f32Value x).eq (f32Value y)
  else if p = 1 then (f32Value x).lt (f32Value y)
  else if p = 2 then (f32Value x).lt (f32Value y) || (f32Value x).eq (f32Value y)
  else !(f32Value x).eq (f32Value y)

def vxFillRun (d : Cmd) : Act Finish := vecIndex (fun v _ => v) d
def vxIotaRun (d : Cmd) : Act Finish := vecIndex (fun v i => (v + i) % 2 ^ 32) d
def vxAddRun (d : Cmd) : Act Finish := vecBinary (fun x y _ => f32Add x y) false d
def vxSubRun (d : Cmd) : Act Finish := vecBinary (fun x y _ => f32Sub x y) false d
def vxMulRun (d : Cmd) : Act Finish := vecBinary (fun x y _ => f32Mul x y) false d
def vxFmaRun (d : Cmd) : Act Finish := vecBinary (fun x y z => f32Fma x y z) true d
def vxMinRun (d : Cmd) : Act Finish := vecBinary (fun x y _ => f32Min x y) false d
def vxMaxRun (d : Cmd) : Act Finish := vecBinary (fun x y _ => f32Max x y) false d
def vxAbsRun (d : Cmd) : Act Finish := vecUnary (vecSign fun x => x % 2 ^ 31) d
def vxNegRun (d : Cmd) : Act Finish := vecUnary (vecSign fun x => x ^^^ 2 ^ 31) d
def vxRcpRun (d : Cmd) : Act Finish := vecUnary (fun x => toF32 (divNum (Num.ofInt 1) (f32Value x))) d
def vxRsqrtRun (d : Cmd) : Act Finish := vecUnary (fun x => toF32 (rsqrtNum (f32Value x))) d
def vxExp2Run (d : Cmd) : Act Finish := vecUnary (fun x => toF32 (exp2Num (f32Value x))) d
def vxLog2Run (d : Cmd) : Act Finish := vecUnary (fun x => toF32 (log2Num (f32Value x))) d
def vxCmpRun (d : Cmd) : Act Finish :=
  vecBinary (fun x y _ => if cmpHolds (d.tcw.flags.toNat % 4) x y then 0xFFFFFFFF else 0) false d
def vxSelRun (d : Cmd) : Act Finish := vecBinary (fun x y z => if z ≠ 0 then x else y) true d

/-! ### Reductions (R297) -/

/-- One level of the pairwise tree: lane i with lane i + h. -/
def treeLevel {α : Type} (f : α → α → α) (l : List α) : List α :=
  (l.take (l.length / 2)).zipWith f (l.drop (l.length / 2))

/-- The fixed tree over 64 lanes (R280). -/
def tree64 {α : Type} (f : α → α → α) (fill : α) (l : List α) : α :=
  let l := l ++ List.replicate (64 - l.length) fill
  ((treeLevel f (treeLevel f (treeLevel f (treeLevel f (treeLevel f (treeLevel f l)))))).head?).getD fill

/-- Blocks of 64 reduced by the tree, then combined in ascending order. -/
def reduceBlocks {α : Type} (f : α → α → α) (fill : α) (l : List α) : α :=
  let blocks := (List.range (ceilDiv l.length 64)).map fun j => tree64 f fill ((l.drop (64 * j)).take 64)
  match blocks with
  | [] => fill
  | x :: rest => rest.foldl f x

def vecReduce (size align : Nat) (f : List Nat → List Nat × Nat) (d : Cmd) : Act Finish := do
  let n := vecCount d
  if n = 0 then pure (finOk 0)
  else
    let o ← vecOffset d 0
    let a ← vecOffset d 1
    vecCheck d ⟨o, size, align⟩ [⟨a, 4 * n, 4⟩]
    let xs ← readElems d a 4 n
    let bad := xs.any (·.2)
    let (out, r) := f (xs.map (·.1))
    writeElems d o 4 (out.map fun x => (x, bad)) r

def vxRsumRun (d : Cmd) : Act Finish :=
  vecReduce 4 4 (fun l => ([if l.any f32IsNaN then f32Nan else reduceBlocks f32Add 0 l], l.length)) d

/-- The maximum; elements that are all NaN give the canonical NaN whatever the fill. -/
def vxRmaxRun (d : Cmd) : Act Finish :=
  vecReduce 4 4 (fun l => ([if l.all f32IsNaN then f32Nan else reduceBlocks f32Max 0xFF800000 l], l.length)) d

/-- x before y in fmax's order: −0 below +0. -/
def maxBelow (x y : Nat) : Bool :=
  (f32Value x).lt (f32Value y) || ((f32Value x).isZero && (f32Value y).isZero && x.testBit 31 && !y.testBit 31)

def argCombine (x y : Nat × Nat) : Nat × Nat :=
  if f32IsNaN x.1 && f32IsNaN y.1 then (f32Nan, 0xFFFFFFFF)
  else if f32IsNaN x.1 then y
  else if f32IsNaN y.1 then x
  else if maxBelow x.1 y.1 then y
  else if maxBelow y.1 x.1 then x
  else if x.2 ≤ y.2 then x else y

def vxArgmaxRun (d : Cmd) : Act Finish :=
  vecReduce 8 8 (fun l =>
    let r := reduceBlocks argCombine (f32Nan, 0xFFFFFFFF) (l.zip (List.range l.length))
    let r := if l.all f32IsNaN then (f32Nan, 0xFFFFFFFF) else r
    ([r.2, r.1], r.2)) d

/-! ### Gather and scatter (R298) -/

/-- The words that indices address from a base; a poisoned index addresses none. -/
def indexed (base : Nat) (idx : List (Nat × Bool)) : List VOp :=
  idx.filterMap fun x => if x.2 then none else some ⟨base + 4 * x.1, 4, 4⟩

def vxGatherRun (d : Cmd) : Act Finish := do
  let n := vecCount d
  if n = 0 then pure (finOk 0)
  else
    let o ← vecOffset d 0
    let a ← vecOffset d 1
    let b ← vecOffset d 2
    let dst : VOp := ⟨o, 4 * n, 4⟩
    let ix : VOp := ⟨b, 4 * n, 4⟩
    check (dst.inRange && ix.inRange && a % 4 == 0 && !dst.meets ix)
    vecEntries d [dst, ix] []
    let idx ← readElems d b 4 n
    let words := indexed a idx
    check (words.all fun w => w.inRange && !dst.meets w)
    vecEntries d words []
    let out ← idx.mapM fun x => do
      if x.2 then pure (0, true)
      else pure ((← readElems d (a + 4 * x.1) 4 1).getD 0 (0, false))
    writeElems d o 4 out n

def vxScatterRun (d : Cmd) : Act Finish := do
  let n := vecCount d
  if n = 0 then pure (finOk 0)
  else
    let o ← vecOffset d 0
    let a ← vecOffset d 1
    let b ← vecOffset d 2
    let src : VOp := ⟨a, 4 * n, 4⟩
    let ix : VOp := ⟨b, 4 * n, 4⟩
    check (src.inRange && ix.inRange && o % 4 == 0)
    vecEntries d [src, ix] []
    let idx ← readElems d b 4 n
    let words := indexed o idx
    check (words.all fun w => w.inRange && !w.meets src && !w.meets ix)
    vecEntries d words []
    let xs ← readElems d a 4 n
    (List.range n).forM fun i => do
      let x := idx.getD i (0, false)
      let v := xs.getD i (0, false)
      if x.2 then pure ()
      else
        let _ ← writeElems d (o + 4 * x.1) 4 [v] 0
    match (idx.zip xs).findIdx? fun x => x.1.2 || x.2.2 with
    | some i => pure ⟨stFault, i, none⟩
    | none => pure (finOk n)

/-! ### Conversion, quantization, layout (R299 to R301) -/

def vxCvtRun (d : Cmd) : Act Finish := do
  let n := vecCount d
  if n = 0 then pure (finOk 0)
  else
    drawGate d
    let w := descImm d.tcw 2
    check (bitsOf w 16 12 == 0)
    let mode ← roundingOf d (bitsOf w 12 3)
    match fmtOf (bitsOf w 0 6), fmtOf (bitsOf w 6 6) with
    | some sf, some df => do
      let o ← vecOffset d 0
      let a ← vecOffset d 1
      vecCheck d ⟨o, n * df.size, df.size⟩ [⟨a, n * sf.size, sf.size⟩]
      let draw ← if mode = modeRSR then reserveDraws d n else pure (fun _ => 0)
      let xs ← readElems d a sf.size n
      let out := (List.range n).map fun i =>
        let x := xs.getD i (0, false)
        (convert (sf.decode x.1) df mode (w.testBit 15) (draw i), x.2)
      writeElems d o df.size out n
    | _, _ => faultCmd

/-- ⌊log2 M⌋ of a format. -/
def maxLog (f : Fmt) : Int := (numLog (f.decode f.maxCode)).getD 0

/-- The scale byte of a block (R300). -/
def quantScale (f : Fmt) (xs : List Nat) : Nat :=
  match xs.filterMap fun x => numLog (f32Value x) with
  | [] => 0x7F
  | x :: rest =>
    let c := rest.foldl max x - maxLog f + 127
    if c < 0 then 0 else if 0xFE < c then 0xFE else c.toNat

/-- x · 2^k exactly. -/
def scaleNum (k : Int) : Num → Num
  | .fin s m e => .fin s m (e + k)
  | .nan => .nan
  | .inf s => .inf s

def vxQuantRun (d : Cmd) : Act Finish := do
  let w := descImm d.tcw 3
  let n := bitsOf w 0 18
  if n = 0 then pure (finOk 0)
  else
    drawGate d
    let mode := bitsOf w 19 3
    check (decide (mode ≤ 4))
    match fmtOf (bitsOf w 22 6) with
    | none => faultCmd
    | some f => do
      check f.isB8
      let o ← vecOffset d 0
      let a ← vecOffset d 1
      let sc ← vecOffset d 2
      let blocks := ceilDiv n 32
      let dst : VOp := ⟨o, n, 1⟩
      let src : VOp := ⟨a, 4 * n, 4⟩
      let scs : VOp := ⟨sc, blocks, 1⟩
      check (dst.inRange && src.inRange && scs.inRange && !dst.meets src && !scs.meets src && !scs.meets dst)
      vecEntries d [dst, src, scs] []
      let draw ← if mode = modeRSR then reserveDraws d n else pure (fun _ => 0)
      let xs ← readElems d a 4 n
      let block (b : Nat) : List (Nat × Bool) := (xs.drop (32 * b)).take 32
      let scales := (List.range blocks).map fun b => (quantScale f ((block b).map (·.1)), (block b).any (·.2))
      let out := (List.range n).map fun i =>
        let c := scales.getD (i / 32) (0, false)
        (convert (scaleNum (127 - (c.1 : Int)) (f32Value ((xs.getD i (0, false)).1))) f mode (w.testBit 18) (draw i), c.2)
      let _ ← writeElems d sc 1 scales 0
      writeElems d o 1 out n

def vxSwzRun (d : Cmd) : Act Finish := do
  let n := vecCount d
  if n = 0 then pure (finOk 0)
  else
    let o ← vecOffset d 0
    let a ← vecOffset d 1
    let dst : VOp := ⟨o, n, 256⟩
    let src : VOp := ⟨a, n, 256⟩
    check (n % 256 == 0 && dst.inRange && src.inRange && (o == a || !dst.meets src))
    if o = a then vecEntries d [] [src] else vecEntries d [dst] [src]
    let b ← readStash d.station a n
    let span : Option (Fin 8) :=
      if d.flag 3 then some ⟨d.tcw.flags.toNat % 8, Nat.mod_lt _ (by decide)⟩ else none
    writeStash d.task d.station o span b
    match b.findIdx? (·.2) with
    | some i => pure ⟨stFault, i, none⟩
    | none => pure (finOk n)

/-! ### The operations -/

def vectorOp (f : CmdForm) (op : Instr) (body : Cmd → Act Finish) (s : State) : Outcome := stationOp f op body s

def execVxFill (s : State) : Outcome := vectorOp vxFillForm .vxFill vxFillRun s
def execVxIota (s : State) : Outcome := vectorOp vxFillForm .vxIota vxIotaRun s
def execVxAdd (s : State) : Outcome := vectorOp vxBinaryForm .vxAdd vxAddRun s
def execVxSub (s : State) : Outcome := vectorOp vxBinaryForm .vxSub vxSubRun s
def execVxMul (s : State) : Outcome := vectorOp vxBinaryForm .vxMul vxMulRun s
def execVxFma (s : State) : Outcome := vectorOp vxBinaryForm .vxFma vxFmaRun s
def execVxMin (s : State) : Outcome := vectorOp vxBinaryForm .vxMin vxMinRun s
def execVxMax (s : State) : Outcome := vectorOp vxBinaryForm .vxMax vxMaxRun s
def execVxAbs (s : State) : Outcome := vectorOp vxUnaryForm .vxAbs vxAbsRun s
def execVxNeg (s : State) : Outcome := vectorOp vxUnaryForm .vxNeg vxNegRun s
def execVxRcp (s : State) : Outcome := vectorOp vxUnaryForm .vxRcp vxRcpRun s
def execVxRsqrt (s : State) : Outcome := vectorOp vxUnaryForm .vxRsqrt vxRsqrtRun s
def execVxExp2 (s : State) : Outcome := vectorOp vxUnaryForm .vxExp2 vxExp2Run s
def execVxLog2 (s : State) : Outcome := vectorOp vxUnaryForm .vxLog2 vxLog2Run s
def execVxCvt (s : State) : Outcome := vectorOp vxCvtForm .vxCvt vxCvtRun s
def execVxCmp (s : State) : Outcome := vectorOp vxCmpForm .vxCmp vxCmpRun s
def execVxSel (s : State) : Outcome := vectorOp vxBinaryForm .vxSel vxSelRun s
def execVxRsum (s : State) : Outcome := vectorOp vxUnaryForm .vxRsum vxRsumRun s
def execVxRmax (s : State) : Outcome := vectorOp vxUnaryForm .vxRmax vxRmaxRun s
def execVxArgmax (s : State) : Outcome := vectorOp vxUnaryForm .vxArgmax vxArgmaxRun s
def execVxGather (s : State) : Outcome := vectorOp vxBinaryForm .vxGather vxGatherRun s
def execVxScatter (s : State) : Outcome := vectorOp vxBinaryForm .vxScatter vxScatterRun s
def execVxQuant (s : State) : Outcome := vectorOp vxQuantForm .vxQuant vxQuantRun s
def execVxSwz (s : State) : Outcome := vectorOp vxSwzForm .vxSwz vxSwzRun s

end Sys2Proof.Machine
end

