-- ==== Sys2Proof/Machine/Sampler.lean ====
section
/-! DEFINITION. The sampler engine Sconce (R324 to R330, R335 to R337, R340) and the random engine Ember (R331 to R333,
R338, R339). -/

namespace Sys2Proof.Machine

open Sys2Proof

/-! ### e^x (R327) -/

/-- Terms of the series of e^f for a fraction of 400 bits. -/
def expSeries : Nat → Nat → Nat → Nat → Nat → Nat
  | 0, _, _, _, acc => acc
  | fuel + 1, k, f, term, acc => expSeries fuel (k + 1) f (((term * f) >>> 400) / k) (acc + term)

/-- e to 400 bits after the point. -/
def eFixed : Nat := expSeries 100 1 (2 ^ 400) (2 ^ 400) 0

def expUp : Nat → Nat → Nat
  | 0, v => v
  | n + 1, v => expUp n ((v * eFixed) >>> 400)

def expDown : Nat → Nat → Nat
  | 0, v => v
  | n + 1, v => expDown n ((v <<< 400) / eFixed)

/-- e^x of a binary32 value. The power of a nonzero binary32 value is irrational, so a last bit set far below 24 bits
rounds as the exact power does. -/
def expNum : Num → Num
  | .nan => .nan
  | .inf neg => if neg then .fin false 0 0 else .inf false
  | .fin neg m e =>
    if m = 0 then Num.ofInt 1
    else if !neg && decide (89 ≤ scale2 m e) then .inf false
    else if neg && decide (110 ≤ scale2 m e) then .fin false 0 0
    else
      let x : Int := if neg then -((scale2 m (e + 400) : Nat) : Int) else ((scale2 m (e + 400) : Nat) : Int)
      let n := x / (2 : Int) ^ 400
      let f := (x % (2 : Int) ^ 400).toNat
      let s := expSeries 100 1 f (2 ^ 400) 0
      let v := if 0 ≤ n then expUp n.toNat s else expDown (-n).toNat s
      .fin false (2 * v + 1) (-401)

def f32Exp (x : Nat) : Nat := toF32 (expNum (f32Value x))
def f32Div (x y : Nat) : Nat := toF32 (divNum (f32Value x) (f32Value y))
def f32Lt (x y : Nat) : Bool := (f32Value x).lt (f32Value y)
def f32IsInf (x : Nat) (neg : Bool) : Bool := x % 2 ^ 32 == (if neg then 0xFF800000 else 0x7F800000)

/-! ### Ember (R331 to R333) -/

/-- word(s, c) of R332. -/
def emberWord (seed slot c : Nat) : Nat :=
  let k := mix (mix (seed ^^^ (slot * goldenC % 2 ^ 64)) ^^^ goldenC)
  let z := mix ((k + (c / 2 + 1) * goldenC) % 2 ^ 64)
  if c % 2 = 0 then bitsOf z 0 32 else bitsOf z 32 32

/-- The record of a slot. -/
def emberRecord (job slot : Nat) : Act (Option Nat) := look fun p c => emberSlot p c job slot

/-- Takes are no writes of a task: no rollback gives a ticket back (R341). -/
def Cmd.emberParty (d : Cmd) : Party := { d.party with task := 0 }

/-- The ring: the words of the next 16 tickets. -/
def fillRing (d : Cmd) (rec' slot c0 next : Nat) : Act Unit := do
  let seed ← look fun p c => jobField p c d.job 0x10
  let entry (i : Nat) : Nat := emberWord seed slot ((c0 + (next + (i + 16 - next % 16) % 16)) % 2 ^ 64)
  writeGlobal d.emberParty (rec' + 0x40) ((List.range 16).foldr (fun i acc => eBytes 4 (entry i) ++ acc) [])

/-- `n` takes in one step: the words, and c0 + t; none from a slot that is not configured. -/
def emberTake (d : Cmd) (slot n : Nat) : Act (Option (List Nat × Nat)) := do
  match ← emberRecord d.job slot with
  | none => pure none
  | some r =>
    let pt := d.emberParty
    let c0 ← readNum pt r 8
    let t ← readNum pt (r + 8) 8
    let flags ← readNum pt (r + 0x18) 8
    if !flags.testBit 0 then pure none
    else
      let seed ← look fun p c => jobField p c d.job 0x10
      writeNum pt (r + 8) 8 (t + n)
      fillRing d r slot c0 ((t + n) % 2 ^ 64)
      pure (some ((List.range n).map fun k => emberWord seed slot ((c0 + t + k) % 2 ^ 64), (c0 + t) % 2 ^ 64))

def rnForm (kinds : List (List Nat)) : CmdForm := ⟨7, 0, kinds, .all⟩
def rnCfgForm : CmdForm := rnForm [[1, 2], [0, 1, 2], [0], [0], [0]]
def rnDrawForm : CmdForm := rnForm [[1, 2], [1, 3, 4], [1, 2], [0], [0]]

/-- `rn.cfg` (R338). -/
def rnCfgRun (d : Cmd) : Act Finish := do
  let slot := d.number 0
  let base := if d.kind 1 = 0 then 0 else d.number 1
  match ← emberRecord d.job slot with
  | none => pure ⟨stFault, slot, none⟩
  | some r =>
    let pt := d.emberParty
    writeNum pt r 8 base
    writeNum pt (r + 8) 8 0
    let flags ← readNum pt (r + 0x18) 8
    writeNum pt (r + 0x18) 8 (flags ||| 1)
    fillRing d r slot base 0
    pure (finOk slot)

/-- An address operand of kind 1 or 4: a virtual address of the job (R253, R334). -/
def Cmd.address (d : Cmd) (i : Nat) : Act Nat := d.offset i

/-- `rn.draw` (R339). -/
def rnDrawRun (d : Cmd) : Act Finish := do
  let slot := d.number 0
  let n := d.number 2
  check (decide (n ≤ 65536))
  let out ← if d.kind 1 = 3 then pure (bitsOf (descWord d.tcw 1) 0 20) else d.address 1
  check (out % 4 == 0)
  if d.kind 1 = 3 then check (decide (out + 4 * n ≤ stashSize)) else d.needCover out (4 * n) 2
  if n = 0 then pure (finOk 0)
  else
    match ← emberTake d slot n with
    | none => pure ⟨stFault, slot, none⟩
    | some (ws, c) =>
      let bytes := ws.foldr (fun w acc => eBytes 4 w ++ acc) []
      if d.kind 1 = 3 then writeStash d.task d.station out none bytes else writeGlobal d.party out bytes
      pure (finOk c)

def execRnCfg (s : State) : Outcome := dieOp rnCfgForm .rnCfg rnCfgRun s
def execRnDraw (s : State) : Outcome := dieOp rnDrawForm .rnDraw rnDrawRun s

/-! ### Sampling: faults and sources (R327, R328, R337) -/

/-- A sample that can fail with a code and a detail of R337. -/
abbrev Sample := ExceptT (Nat × Nat) Act

def failWith {α : Type} (code detail : Nat) : Sample α := throw (code, detail)
def sampleCheck (b : Bool) (code detail : Nat) : Sample Unit := if b then pure () else failWith code detail

/-- An engine's check whose failure is a fault of R337. DEDUCED (log 46). -/
def tryCheck {α : Type} (code detail : Nat) (a : Act α) : Sample α := do
  let r ← (attempt a : Act (Except Stop α))
  match r with
  | .ok v => pure v
  | .error (.status _ _ _ _) => failWith code detail
  | .error e => (stop e : Act α)

def logitFormats : List Nat := [0, 1, 2]
def maskFormats : List Nat := [5]

/-- The shape record of a row source: logits, or a bias or mask of a stage; `detail` is its SCB, or 0 for the logits. -/
def sourceRecord (d : Cmd) (va detail : Nat) : Sample Shape :=
  tryCheck 2 detail do
    d.needCover va 64 1
    d.keptShape va

/-- The row source that a shape record names (R284, R247, R328). -/
def sourceOf (d : Cmd) (x : Shape) (detail : Nat) (formats : List Nat) : Sample MatOp := do
  let (f, stride) ← tryCheck 2 detail (recordFormat x)
  sampleCheck (x.scale == 0) 2 detail
  if x.lineage then
    let r ← (settled d.party (do
      let n ← accept d.party x.base
      chainUsable true (← chainOf d.party n)
      resolve d.party n) : Act (Except LinFail (Geo × List (List Nat))))
    match r with
    | .ok (g, v) => do
      sampleCheck (formats.contains g.code && g.flat) 2 detail
      pure ⟨g.fmt, g.dim1, g.dim0, .value v, 0, 0⟩
    | .error (.lost _) => failWith 7 (x.base % 2 ^ 48)
    | .error .busy => (stop (.hold .none) : Act MatOp)
    | .error (.refuse _) | .error .badShape => failWith 2 detail
  else
    sampleCheck (formats.contains x.format && x.base % f.size == 0) 2 detail
    if x.stash then
      tryCheck 2 detail (stashOperand d x ((x.dim 1 - 1) * stride + x.dim 0 * f.size))
      pure ⟨f, x.dim 1, x.dim 0, .stash x.base stride, 0, x.span⟩
    else pure ⟨f, x.dim 1, x.dim 0, .mem x.base stride, 0, 0⟩

/-- A row source by the address of its shape record. -/
def sampleSource (d : Cmd) (va detail : Nat) (formats : List Nat) : Sample MatOp := do
  sourceOf d (← sourceRecord d va detail) detail formats

/-- Row `r` of a source as element codes; a row outside the segments is code 0 for the logits and code 2 for a stage. A
poisoned word is code 0. -/
def sampleRow (d : Cmd) (o : MatOp) (r detail : Nat) : Sample (List Nat) := do
  let size := o.fmt.size
  let cells (b : List EByte) : Sample (List Nat) := do
    sampleCheck (!eBad b) 0 0
    pure ((elements size b).map eNat)
  match o.src with
  | .value v =>
    match v[r]? with
    | some row => pure row
    | none => do
      let free ← ((List.range o.cols).mapM fun _ => freeElem o.fmt : Act (List (Nat × Bool)))
      pure (free.map (·.1))
  | .mem base stride => do
    tryCheck (if detail = 0 then 0 else 2) detail (d.needCover (base + r * stride) (o.cols * size) 1)
    cells (← readGlobal d.party (base + r * stride) (o.cols * size))
  | .stash base stride => do
    tryCheck 2 detail (layoutCheck d { o with src := .stash (base + r * stride) stride } 1 o.cols)
    cells (← readStash d.station (base + r * stride) (o.cols * size))

/-! ### Stage control blocks (R326, R328) -/

structure Scb where
  addr : Nat
  kind : Nat
  p0 : Nat
  p1 : Nat
  p2 : Nat
  p3 : Nat
  deriving DecidableEq, Repr

/-- Whether a block's parameters lie in their ranges. -/
def scbRange (b : Scb) : Bool :=
  match b.kind with
  | 0 => b.p0 == 0 && b.p1 == 0 && b.p2 == 0 && b.p3 == 0
  | 4 => f32Lt 0 b.p0 && !f32IsInf b.p0 false && decide (b.p1 ≤ 65536)
  | 5 => decide (1 ≤ b.p0)
  | 6 => f32Lt 0 b.p0
  | 7 => !f32IsNaN b.p0 && !f32Lt b.p0 0 && !f32Lt 0x3F800000 b.p0
  | _ => true

/-- The whole chain, checked before any stage runs. -/
def readChain (d : Cmd) : Nat → Nat → List Scb → Sample (List Scb)
  | 0, addr, _ => failWith 1 addr
  | fuel + 1, addr, seen => do
    sampleCheck (addr % 32 == 0) 1 addr
    tryCheck 0 0 (d.needCover addr 32 1)
    let e ← readGlobal d.party addr 32
    sampleCheck (!eBad e) 0 0
    let b := e.map (·.1)
    let f (o n : Nat) : Nat := leNat ((b.drop o).take n)
    let x : Scb := ⟨addr, f 0 1, f 8 4, f 0xC 4, f 0x10 4, f 0x14 4⟩
    let single := x.kind == 1 || x.kind == 5 || x.kind == 6 || x.kind == 7
    let bad := decide (7 < x.kind) || f 1 7 != 0 || (single && seen.any fun y => y.kind == x.kind) || !scbRange x
    sampleCheck (!bad) 1 addr
    if x.kind = 0 then pure (seen ++ [x]) else readChain d fuel (f 0x18 8) (seen ++ [x])

/-! ### The pipeline (R327 to R329) -/

/-- The logits as they stand, with the tokens that live, and whether the draw is greedy. -/
structure Row where
  logits : List (Nat × Bool)
  greedy : Bool
  deriving DecidableEq, Repr

/-- The live tokens and their logits, ascending. -/
def Row.live (r : Row) : List (Nat × Nat) := (numbered 0 r.logits).filterMap fun x => if x.2.2 then some (x.1, x.2.1) else none

/-- A change of each live token's logit, and of whether it lives; one that turns NaN is masked. -/
def Row.update (r : Row) (f : Nat → Nat → Nat × Bool) : Row :=
  { r with logits := (numbered 0 r.logits).map fun x =>
      if x.2.2 then
        let y := f x.1 x.2.1
        (y.1, y.2 && !f32IsNaN y.1)
      else x.2 }

/-- Whether a value comes after another in descending order. A NaN, which no stage has masked yet, is the largest of none.
DESIGN CHOICE (log 80). -/
def f32After (x y : Nat) : Bool := f32Lt x y || (f32IsNaN x && !f32IsNaN y)

/-- The token with the largest logit, the lowest index among equals. -/
def topToken : List (Nat × Nat) → Option (Nat × Nat)
  | [] => none
  | x :: rest => some (rest.foldl (fun b y => if f32After b.2 y.2 then y else b) x)

/-- Tokens by descending value, the lower index first at equal values. -/
def insertDesc (x : Nat × Nat) : List (Nat × Nat) → List (Nat × Nat)
  | [] => [x]
  | y :: rest => if f32After x.2 y.2 then y :: insertDesc x rest else x :: y :: rest

def sortDesc (l : List (Nat × Nat)) : List (Nat × Nat) := l.foldr insertDesc []

/-- exp(l − m), the difference rounded first. -/
def expBelow (m l : Nat) : Nat := f32Exp (f32Sub l m)

def sumF32 (l : List Nat) : Nat := l.foldl f32Add 0

/-- The tokens up to the first at which the sum reaches a bound. -/
def takeUntil (bound : Nat) : Nat → List (Nat × Nat) → List Nat
  | _, [] => []
  | a, x :: rest =>
    let a' := f32Add a x.2
    if !f32IsNaN a' && !f32IsNaN bound && !f32Lt a' bound then [x.1] else x.1 :: takeUntil bound a' rest

/-- The temperature stage of R329. -/
def tempStage (b : Scb) (r : Row) : Sample Row := do
  let t := b.p0
  if f32IsNaN t then failWith 6 b.addr
  else if t % 2 ^ 31 < 0x38800000 then pure { r with greedy := true }
  else if t.testBit 31 then failWith 6 b.addr
  else if f32IsInf t false then pure (r.update fun _ _ => (0, true))
  else pure (r.update fun _ l => (f32Div l t, true))

/-- A stage's vector: dim0 = V, every other dim 1. -/
def stageVector (d : Cmd) (b : Scb) (v : Nat) (formats : List Nat) : Sample (Fmt × List Nat) := do
  let o ← sampleSource d (b.p0 + b.p1 * 2 ^ 32) b.addr formats
  sampleCheck (o.cols == v && o.rows == 1) 2 b.addr
  pure (o.fmt, ← sampleRow d o 0 b.addr)

/-- A code of a narrower format as binary32, exactly. -/
def widen (f : Fmt) (x : Nat) : Nat := toF32 (f.decode x)

/-- The tokens of a penalty's list. -/
def penaltyIds (d : Cmd) (b : Scb) : Sample (List Nat) := do
  let a := b.p2 + b.p3 * 2 ^ 32
  tryCheck 0 0 (d.needCover a (4 * b.p1) 1)
  let e ← readGlobal d.party a (4 * b.p1)
  sampleCheck (!eBad e) 0 0
  pure ((elements 4 e).map eNat)

def runStage (d : Cmd) (b : Scb) (r : Row) : Sample Row := do
  match b.kind with
  | 1 => tempStage b r
  | 2 => do
    let (f, v) ← stageVector d b r.logits.length logitFormats
    pure (r.update fun i l => (f32Add l (widen f (v.getD i 0)), true))
  | 3 => do
    let (_, v) ← stageVector d b r.logits.length maskFormats
    pure (r.update fun i l => (l, v.getD i 0 != 0))
  | 4 => do
    let ids ← penaltyIds d b
    pure (r.update fun i l =>
      (if ids.contains i then (if f32Lt 0 l then f32Div l b.p0 else f32Mul l b.p0) else l, true))
  | 5 =>
    let kept := ((sortDesc r.live).take b.p0).map (·.1)
    pure (r.update fun i l => (l, kept.contains i))
  | 6 =>
    match topToken r.live with
    | none => pure r
    | some m =>
      if !f32Lt b.p0 0x3F800000 then pure r
      else
        let q := r.live.map fun x => (x.1, expBelow m.2 x.2)
        let kept := takeUntil (f32Mul b.p0 (sumF32 (q.map (·.2)))) 0 (sortDesc q)
        pure (r.update fun i l => (l, kept.contains i))
  | 7 =>
    match topToken r.live with
    | none => pure r
    | some m => pure (r.update fun _ l => (l, !f32Lt (expBelow m.2 l) b.p0))
  | _ => pure r

/-- Every live token whose logit is NaN is masked, as after each stage (R327). -/
def Row.maskNaN (r : Row) : Row := r.update fun _ l => (l, true)

/-- The stages in order; the end block is the draw, which masks nothing. -/
def runStages (d : Cmd) : List Scb → Row → Sample Row
  | [], r => pure r
  | b :: rest, r =>
    if b.kind = 0 then runStages d rest r
    else do runStages d rest (← runStage d b r).maskNaN

/-! ### The draw (R330) -/

/-- The running sums of the exponentials, ascending, with their tokens. -/
def runningSums : Nat → List (Nat × Nat) → List (Nat × Nat)
  | _, [] => []
  | s, x :: rest => (x.1, f32Add s x.2) :: runningSums (f32Add s x.2) rest

def drawToken (d : Cmd) (eslot : Nat) (r : Row) : Sample Nat := do
  let live := r.live.filter fun x => !f32IsInf x.2 true
  match topToken live with
  | none => failWith 3 0
  | some m =>
    if r.greedy || live.length == 1 || live.any (fun x => f32IsInf x.2 false) then pure m.1
    else
      let sums := runningSums 0 (live.map fun x => (x.1, expBelow m.2 x.2))
      let last := sums.getLast?.getD (0, 0)
      let taken ← (emberTake d eslot 1 : Act (Option (List Nat × Nat)))
      match taken with
      | none => failWith 4 eslot
      | some (ws, _) =>
        let u := toF32 (.fin false (ws.headD 0 / 256) (-24))
        let t := f32Mul u last.2
        pure (((sums.find? fun x => f32Lt t x.2).getD last).1)

/-- A row sampled by a chain. Every mask bit is clear at the start: a NaN is masked after the first stage (R327). -/
def sampleToken (d : Cmd) (o : MatOp) (row chain eslot : Nat) : Sample Nat := do
  let logits ← sampleRow d o row 0
  let blocks ← readChain d 16 chain []
  let start : Row := ⟨logits.map fun x => (widen o.fmt x, true), false⟩
  drawToken d eslot (← runStages d blocks start)

/-- The checks of R327 on the logits that a shape record names, with those of the command on dim1. -/
def logitSource (d : Cmd) (x : Shape) (rows : Nat → Bool) : Sample MatOp := do
  let o ← sourceOf d x 0 logitFormats
  sampleCheck (decide (1 ≤ o.cols) && decide (o.cols ≤ 2 ^ 18) && rows o.rows) 2 0
  pure o

/-! ### `sm.run` and `sm.batch` (R335 to R337) -/

def smForm (kinds : List (List Nat)) : CmdForm := ⟨6, 0, kinds, .all⟩
def smRunForm : CmdForm := smForm [[5], [1, 4], [1, 2], [0, 1, 4], [0]]
def smBatchForm : CmdForm := smForm [[1, 4], [1, 2], [1, 2], [5], [0]]

/-- How Sconce goes on with a command: it has ended, or it has more to do. -/
inductive SamplingStep where
  | ended (f : Finish)
  | more (x : Sampling)
  deriving DecidableEq, Repr

/-- A failed command: TEMP raises a trap at the acquire of its completion (R337). -/
def sampleFinish (code result detail : Nat) : Finish :=
  ⟨stFault, result, if code = 6 then some (causeTemp, wordOf detail) else none⟩

/-- `sm.run` up to its token, whose word is stored next if `out` is present. -/
def smRunStart (d : Cmd) : Act SamplingStep := do
  let body : Sample (Nat × Option Nat) := do
    let out ← tryCheck 0 0 (if d.kind 3 = 0 then pure none else do
      let a ← d.address 3
      check (a % 8 == 0)
      d.needCover a 8 2
      pure (some a))
    let chain ← tryCheck 0 0 (do
      let a ← d.address 1
      d.needCover a 32 1
      pure a)
    let o ← logitSource d (← sourceRecord d (d.val 0) 0) (fun n => n == 1)
    pure (← sampleToken d o 0 chain (d.number 2), out)
  match ← (body.run : Act (Except (Nat × Nat) (Nat × Option Nat))) with
  | .error (code, detail) => pure (.ended (sampleFinish code detail detail))
  | .ok (token, none) => pure (.ended (finOk token))
  | .ok (token, some a) => pure (.more ⟨d, 0, token, none, some (a, wordOf token), []⟩)

/-- The operand checks of `sm.batch`, which end it before any slot is read. -/
def smBatchStart (d : Cmd) : Act SamplingStep := do
  let first := d.number 1
  let count := d.number 2
  let body : Sample (List Byte) := do
    tryCheck 0 0 (do
      let table ← d.address 0
      check (table % 64 == 0 && decide (count ≤ 4096))
      d.needCover (table + 64 * first) (64 * count) 3)
    let x ← sourceRecord d (d.val 3) 0
    let _ ← logitSource d x (fun n => decide (first + count ≤ n))
    match d.kept.find? fun r => r.1 == d.val 3 with
    | some (_, b) => pure b
    | none => pure ((← readGlobal d.party (d.val 3) 64).map (·.1))
  match ← (body.run : Act (Except (Nat × Nat) (List Byte))) with
  | .error (code, detail) => pure (.ended ⟨stFault, 0x800000000000 + code * 2 ^ 32 + detail % 2 ^ 32, none⟩)
  | .ok record => pure (if count = 0 then .ended (finOk 0) else .more ⟨d, first, 0, none, none, record⟩)

/-- The KV handle of a slot (R336). -/
def checkKv (d : Cmd) (h : Nat) : Sample Unit := do
  if h = 0 then pure ()
  else
    let r ← (settled d.party (accept d.party h) : Act (Except LinFail (Nat × Node)))
    match r with
    | .ok (_, n) => sampleCheck (n.state != nsLost) 7 (h % 2 ^ 48)
    | .error (.lost _) => failWith 7 (h % 2 ^ 48)
    | .error .busy => (stop (.hold .none) : Act Unit)
    | .error (.refuse _) | .error .badShape => failWith 5 (h % 2 ^ 48)

/-- A slot in state DECODE or above sampled: its token (R324, R336). -/
def sampleSlot (d : Cmd) (record : List Byte) (i slot : Nat) (b : List Byte) : Sample Nat := do
  let f (o n : Nat) : Nat := leNat ((b.drop o).take n)
  sampleCheck (f 0 1 == 2) 1 slot
  checkKv d (f 0x10 8)
  let o ← match shapeOf record with
    | some x => logitSource d x (fun _ => true)
    | none => failWith 2 0
  sampleToken d o i (f 0x18 8) (f 0x20 4)

/-- A slot after a successful sample, but for its token word (R325). DEDUCED (log 47). -/
def slotSampled (d : Cmd) (slot token : Nat) (b : List Byte) : Act Unit := do
  let f (o n : Nat) : Nat := leNat ((b.drop o).take n)
  writeNum d.party (slot + 0x24) 4 token
  writeNum d.party (slot + 0xC) 4 (f 0xC 4 + 1)
  writeNum d.party (slot + 1) 1 (f 1 1 &&& 0xFE)
  writeNum d.party (slot + 0x30) 8 0
  if token = f 4 4 then writeNum d.party slot 1 3

/-- A slot after a failed sample. -/
def slotFailed (d : Cmd) (slot code detail : Nat) (b : List Byte) : Act Unit := do
  writeNum d.party (slot + 1) 1 ((b.getD 1 0).toNat ||| 1)
  writeNum d.party (slot + 0x30) 8 (code * 2 ^ 56 + detail % 2 ^ 48)

/-- The end of `sm.batch` (R336, R337). -/
def batchFinish (x : Sampling) : Finish :=
  match x.fail with
  | some (i, code, detail) => sampleFinish code i detail
  | none => finOk x.good

/-- The next slot of `sm.batch`, or its end. -/
def smBatchNext (x : Sampling) : Act SamplingStep := do
  let d := x.cmd
  if d.number 1 + d.number 2 ≤ x.next then pure (.ended (batchFinish x))
  else
    let slot := (← d.address 0) + 64 * x.next
    let b := (← readGlobal d.party slot 64).map (·.1)
    let state := (b.getD 0 0).toNat
    if state = 0 ∨ state = 1 ∨ state = 3 then pure (.more { x with next := x.next + 1 })
    else
      match ← ((sampleSlot d x.record x.next slot b).run : Act (Except (Nat × Nat) Nat)) with
      | .ok token => do
        slotSampled d slot token b
        pure (.more { x with next := x.next + 1, good := x.good + 1, token := some (slot + 0x28, wordOf token) })
      | .error (code, detail) => do
        slotFailed d slot code detail b
        pure (.more { x with next := x.next + 1, fail := if x.fail.isSome then x.fail else some (x.next, code, detail) })

/-! ### Sconce's turns (R334, R340) -/

/-- The core after a turn of Sconce for a command. -/
def sconceAfter (d : Cmd) (r : SamplingStep) (c : Core) : Core :=
  let c := { c with sampling := c.sampling.filter fun x => x.cmd.seq != d.seq }
  match r with
  | .ended f => finishCmd 6 d f c
  | .more x => { dropCmd 6 d c with sampling := { x with cmd := x.cmd.going } :: c.sampling }

/-- A turn for a command; a page that is not present, or a node that is BUSY, makes it wait. -/
def sconceTurn (d : Cmd) (body : Act SamplingStep) (s : State) : Outcome :=
  match body s.plat s.core with
  | .ok (r, c) => .next { s with core := sconceAfter d r c }
  | .error (.status code result trap tlb) =>
    .next { s with core := sconceAfter d (.ended ⟨code, result, trap⟩) { s.core with tlb := tlb } }
  | .error (.page _ va kind size) => .next { s with core := markPage s.plat d (va, kind, size) s.core }
  | .error (.rollback job record line ctx) =>
    .next { s with core := sconceAfter d (.ended ⟨stCancelled, 0, none⟩) (requestRollback job record line ctx s.core) }
  | .error (.fault f) => .fault f
  | .error (.park (.pinLine line)) => .next { s with core := markRetry s.plat d line s.core }
  | .error (.park _) | .error (.hold _) | .error (.migrate _ _) | .error (.reserve _) | .error (.begin _ _ _ _ _)
  | .error (.reached _ _ _) => .next s
  | .error e => .next { s with core := sconceAfter d (.ended ⟨stFault, 0, none⟩) (engineReached s.plat d e s.core) }

/-- The command that a die's Sconce has started. -/
def sconceBusy (c : Core) (die : Nat) : Option Sampling := c.sampling.find? fun x => dieOf x.cmd.station == die

/-- A turn of a die's Sconce for an operation: it goes on with the command it has started, or starts the next. -/
def runSconce (op : Instr) (start : Cmd → Act SamplingStep) (next : Sampling → Act SamplingStep) (die : Nat) (s : State) :
    Outcome :=
  match sconceBusy s.core die with
  | some x =>
    if x.cmd.op = op && x.token.isNone && !x.cmd.waits s.core then sconceTurn x.cmd (next x) s else .next s
  | none =>
    match dieNext s.plat s.core die 6 with
    | none => .next s
    | some d => if d.op = op then sconceTurn d (start d) { s with core := passTurn die 6 d s.core } else .next s

def samplerOp (f : CmdForm) (op : Instr) (start : Cmd → Act SamplingStep) (next : Sampling → Act SamplingStep)
    (s : State) : Outcome :=
  match s.core.work with
  | .engine unit => runSconce op start next unit s
  | .idle | .strand _ _ _ _ _ | .event _ => runCore (pushAct f op) s

/-- `sm.run` ends once its token word is stored. -/
def smRunNext (x : Sampling) : Act SamplingStep := pure (.ended (finOk x.good))

def execSmRun (s : State) : Outcome := samplerOp smRunForm .smRun smRunStart smRunNext s
def execSmBatch (s : State) : Outcome := samplerOp smBatchForm .smBatch smBatchStart smBatchNext s

/-- A token word stored as `stef` does; a word of a live record beyond its registers is discarded and reported (R381). -/
def storeToken (pt : Party) (va : Nat) (v : Word) : Act Unit := do
  match ← locate pt.job va 2 8 with
  | .record k off => do
    if 128 ≤ off then sendEvent (ctxwrEvent va k.job pt.ctx v)
    else
      let _ ← feAt pt .stef va v .die
  | .cell _ _ | .mgmt _ _ | .aperture _ _ =>
    let _ ← feAt pt .stef va v .die

/-- TOKEN_WORD_STORE of a die's Sconce: stored as `stef` does, once the word is empty, as a release at die scope with the
queue's station recorded (R340). A refused store is lost. -/
def tokenWordStoreAct (e : EventArg) : Act Unit := do
  match sconceBusy (← get) e.unit with
  | none => notYet
  | some x =>
    match x.token with
    | none => notYet
    | some (va, v) =>
      forCmd x.cmd (updCmd x.cmd) do
        let p ← read
        match ← attempt (storeToken x.cmd.party va v) with
        | .ok _ => tokenStored x
        | .error (.refuse _) =>
          onCore (reachedLine p x.cmd.job va)
          tokenStored x
        | .error (.park (.pinLine line)) => stop (.park (.pinLine line))
        | .error (.park _) => onCore (reachedLine p x.cmd.job va)
        | .error e => stop e
where
  /-- The token's store has been performed, or is lost. -/
  tokenStored (x : Sampling) : Act Unit :=
    onCore fun c => { c with sampling := c.sampling.map fun y =>
      if y.cmd.seq = x.cmd.seq then { y with cmd := y.cmd.going, token := none } else y }

def execTokenWordStore (s : State) : Outcome := runEvent tokenWordStoreAct s

end Sys2Proof.Machine
end

