-- ==== Sys2Proof/Machine/Dispatch.lean ====
section
/-! DEFINITION. One arm per constructor of `Instr`: a direct call of its meaning. -/

namespace Sys2Proof.Machine

open Sys2Proof

/-- What an instruction, a tile command or an event does to the package. -/
def exec (i : Instr) (s : State) : Host.Outcome State Fault Refusal :=
  match i with
  | .add d a b => Sys2Proof.Machine.execAdd d a b s
  | .sub d a b => Sys2Proof.Machine.execSub d a b s
  | .and d a b => Sys2Proof.Machine.execAnd d a b s
  | .or d a b => Sys2Proof.Machine.execOr d a b s
  | .xor d a b => Sys2Proof.Machine.execXor d a b s
  | .andn d a b => Sys2Proof.Machine.execAndn d a b s
  | .orn d a b => Sys2Proof.Machine.execOrn d a b s
  | .xnor d a b => Sys2Proof.Machine.execXnor d a b s
  | .shl d a b => Sys2Proof.Machine.execShl d a b s
  | .shr d a b => Sys2Proof.Machine.execShr d a b s
  | .sar d a b => Sys2Proof.Machine.execSar d a b s
  | .rol d a b => Sys2Proof.Machine.execRol d a b s
  | .ror d a b => Sys2Proof.Machine.execRor d a b s
  | .min d a b => Sys2Proof.Machine.execMin d a b s
  | .max d a b => Sys2Proof.Machine.execMax d a b s
  | .minz d a b => Sys2Proof.Machine.execMinz d a b s
  | .maxz d a b => Sys2Proof.Machine.execMaxz d a b s
  | .slt d a b => Sys2Proof.Machine.execSlt d a b s
  | .sltz d a b => Sys2Proof.Machine.execSltz d a b s
  | .seq d a b => Sys2Proof.Machine.execSeq d a b s
  | .sne d a b => Sys2Proof.Machine.execSne d a b s
  | .addsat d a b => Sys2Proof.Machine.execAddsat d a b s
  | .subsat d a b => Sys2Proof.Machine.execSubsat d a b s
  | .clz d a => Sys2Proof.Machine.execClz d a s
  | .ctz d a => Sys2Proof.Machine.execCtz d a s
  | .pop d a => Sys2Proof.Machine.execPop d a s
  | .brev d a => Sys2Proof.Machine.execBrev d a s
  | .bswap d a => Sys2Proof.Machine.execBswap d a s
  | .sextB d a => Sys2Proof.Machine.execSextB d a s
  | .sextH d a => Sys2Proof.Machine.execSextH d a s
  | .sextW d a => Sys2Proof.Machine.execSextW d a s
  | .zextB d a => Sys2Proof.Machine.execZextB d a s
  | .zextH d a => Sys2Proof.Machine.execZextH d a s
  | .zextW d a => Sys2Proof.Machine.execZextW d a s
  | .mul d a b k => Sys2Proof.Machine.execMul d a b k s
  | .mulh d a b k => Sys2Proof.Machine.execMulh d a b k s
  | .mulhz d a b k => Sys2Proof.Machine.execMulhz d a b k s
  | .div d a b k => Sys2Proof.Machine.execDiv d a b k s
  | .divz d a b k => Sys2Proof.Machine.execDivz d a b k s
  | .rem d a b k => Sys2Proof.Machine.execRem d a b k s
  | .remz d a b k => Sys2Proof.Machine.execRemz d a b k s
  | .adds1 d a b => Sys2Proof.Machine.execAdds1 d a b s
  | .adds2 d a b => Sys2Proof.Machine.execAdds2 d a b s
  | .adds3 d a b => Sys2Proof.Machine.execAdds3 d a b s
  | .adds4 d a b => Sys2Proof.Machine.execAdds4 d a b s
  | .addi d a imm => Sys2Proof.Machine.execAddi d a imm s
  | .andi d a imm => Sys2Proof.Machine.execAndi d a imm s
  | .ori d a imm => Sys2Proof.Machine.execOri d a imm s
  | .xori d a imm => Sys2Proof.Machine.execXori d a imm s
  | .shli d a imm => Sys2Proof.Machine.execShli d a imm s
  | .shri d a imm => Sys2Proof.Machine.execShri d a imm s
  | .sari d a imm => Sys2Proof.Machine.execSari d a imm s
  | .roli d a imm => Sys2Proof.Machine.execRoli d a imm s
  | .slti d a imm => Sys2Proof.Machine.execSlti d a imm s
  | .sltzi d a imm => Sys2Proof.Machine.execSltzi d a imm s
  | .movk d h imm => Sys2Proof.Machine.execMovk d h imm s
  | .muli d a imm => Sys2Proof.Machine.execMuli d a imm s
  | .adr d imm => Sys2Proof.Machine.execAdr d imm s
  | .brEq a b o => Sys2Proof.Machine.execBrEq a b o s
  | .brNe a b o => Sys2Proof.Machine.execBrNe a b o s
  | .brLt a b o => Sys2Proof.Machine.execBrLt a b o s
  | .brGe a b o => Sys2Proof.Machine.execBrGe a b o s
  | .brLtz a b o => Sys2Proof.Machine.execBrLtz a b o s
  | .brGez a b o => Sys2Proof.Machine.execBrGez a b o s
  | .briEq a imm o => Sys2Proof.Machine.execBriEq a imm o s
  | .briNe a imm o => Sys2Proof.Machine.execBriNe a imm o s
  | .briLt a imm o => Sys2Proof.Machine.execBriLt a imm o s
  | .briGe a imm o => Sys2Proof.Machine.execBriGe a imm o s
  | .briLtz a imm o => Sys2Proof.Machine.execBriLtz a imm o s
  | .briGez a imm o => Sys2Proof.Machine.execBriGez a imm o s
  | .j o => Sys2Proof.Machine.execJ o s
  | .jl o => Sys2Proof.Machine.execJl o s
  | .jr a => Sys2Proof.Machine.execJr a s
  | .jlr d a => Sys2Proof.Machine.execJlr d a s
  | .loop c l => Sys2Proof.Machine.execLoop c l s
  | .loopi n l => Sys2Proof.Machine.execLoopi n l s
  | .fadd d a b => Sys2Proof.Machine.execFadd d a b s
  | .fsub d a b => Sys2Proof.Machine.execFsub d a b s
  | .fmul d a b => Sys2Proof.Machine.execFmul d a b s
  | .fdiv d a b k => Sys2Proof.Machine.execFdiv d a b k s
  | .fmin d a b => Sys2Proof.Machine.execFmin d a b s
  | .fmax d a b => Sys2Proof.Machine.execFmax d a b s
  | .fsqrt d a k => Sys2Proof.Machine.execFsqrt d a k s
  | .feq d a b => Sys2Proof.Machine.execFeq d a b s
  | .flt d a b => Sys2Proof.Machine.execFlt d a b s
  | .fle d a b => Sys2Proof.Machine.execFle d a b s
  | .fcvtIf d a => Sys2Proof.Machine.execFcvtIf d a s
  | .fcvtFi d a => Sys2Proof.Machine.execFcvtFi d a s
  | .fneg d a => Sys2Proof.Machine.execFneg d a s
  | .fabs d a => Sys2Proof.Machine.execFabs d a s
  | .ldB v a g o k => Sys2Proof.Machine.execLdB v a g o k s
  | .ldH v a g o k => Sys2Proof.Machine.execLdH v a g o k s
  | .ldW v a g o k => Sys2Proof.Machine.execLdW v a g o k s
  | .ldD v a g o k => Sys2Proof.Machine.execLdD v a g o k s
  | .ldzB v a g o k => Sys2Proof.Machine.execLdzB v a g o k s
  | .ldzH v a g o k => Sys2Proof.Machine.execLdzH v a g o k s
  | .ldzW v a g o k => Sys2Proof.Machine.execLdzW v a g o k s
  | .stB v a g o => Sys2Proof.Machine.execStB v a g o s
  | .stH v a g o => Sys2Proof.Machine.execStH v a g o s
  | .stW v a g o => Sys2Proof.Machine.execStW v a g o s
  | .stD v a g o => Sys2Proof.Machine.execStD v a g o s
  | .ldxB v a b g k => Sys2Proof.Machine.execLdxB v a b g k s
  | .ldxH v a b g k => Sys2Proof.Machine.execLdxH v a b g k s
  | .ldxW v a b g k => Sys2Proof.Machine.execLdxW v a b g k s
  | .ldxD v a b g k => Sys2Proof.Machine.execLdxD v a b g k s
  | .ldzxB v a b g k => Sys2Proof.Machine.execLdzxB v a b g k s
  | .ldzxH v a b g k => Sys2Proof.Machine.execLdzxH v a b g k s
  | .ldzxW v a b g k => Sys2Proof.Machine.execLdzxW v a b g k s
  | .stxB v a b g => Sys2Proof.Machine.execStxB v a b g s
  | .stxH v a b g => Sys2Proof.Machine.execStxH v a b g s
  | .stxW v a b g => Sys2Proof.Machine.execStxW v a b g s
  | .stxD v a b g => Sys2Proof.Machine.execStxD v a b g s
  | .ldf v a g o c k => Sys2Proof.Machine.execLdf v a g o c k s
  | .ldfe v a g o c k => Sys2Proof.Machine.execLdfe v a g o c k s
  | .stef v a g o c => Sys2Proof.Machine.execStef v a g o c s
  | .stf v a g o c => Sys2Proof.Machine.execStf v a g o c s
  | .feprobe d a b g k => Sys2Proof.Machine.execFeprobe d a b g k s
  | .feset a b g => Sys2Proof.Machine.execFeset a b g s
  | .feclr a b g => Sys2Proof.Machine.execFeclr a b g s
  | .fewait a b g => Sys2Proof.Machine.execFewait a b g s
  | .fewaite a b g => Sys2Proof.Machine.execFewaite a b g s
  | .rempty n => Sys2Proof.Machine.execRempty n s
  | .rprobe d n => Sys2Proof.Machine.execRprobe d n s
  | .amoDSwap d a b g r c => Sys2Proof.Machine.execAmoDSwap d a b g r c s
  | .amoDAdd d a b g r c => Sys2Proof.Machine.execAmoDAdd d a b g r c s
  | .amoDAnd d a b g r c => Sys2Proof.Machine.execAmoDAnd d a b g r c s
  | .amoDOr d a b g r c => Sys2Proof.Machine.execAmoDOr d a b g r c s
  | .amoDXor d a b g r c => Sys2Proof.Machine.execAmoDXor d a b g r c s
  | .amoDMin d a b g r c => Sys2Proof.Machine.execAmoDMin d a b g r c s
  | .amoDMax d a b g r c => Sys2Proof.Machine.execAmoDMax d a b g r c s
  | .amoDMinz d a b g r c => Sys2Proof.Machine.execAmoDMinz d a b g r c s
  | .amoDMaxz d a b g r c => Sys2Proof.Machine.execAmoDMaxz d a b g r c s
  | .amoDCas d a b g r c => Sys2Proof.Machine.execAmoDCas d a b g r c s
  | .amoDInc d a b g r c => Sys2Proof.Machine.execAmoDInc d a b g r c s
  | .amoWSwap d a b g r c => Sys2Proof.Machine.execAmoWSwap d a b g r c s
  | .amoWAdd d a b g r c => Sys2Proof.Machine.execAmoWAdd d a b g r c s
  | .amoWAnd d a b g r c => Sys2Proof.Machine.execAmoWAnd d a b g r c s
  | .amoWOr d a b g r c => Sys2Proof.Machine.execAmoWOr d a b g r c s
  | .amoWXor d a b g r c => Sys2Proof.Machine.execAmoWXor d a b g r c s
  | .amoWMin d a b g r c => Sys2Proof.Machine.execAmoWMin d a b g r c s
  | .amoWMax d a b g r c => Sys2Proof.Machine.execAmoWMax d a b g r c s
  | .amoWMinz d a b g r c => Sys2Proof.Machine.execAmoWMinz d a b g r c s
  | .amoWMaxz d a b g r c => Sys2Proof.Machine.execAmoWMaxz d a b g r c s
  | .amoWCas d a b g r c => Sys2Proof.Machine.execAmoWCas d a b g r c s
  | .amoWFadd d a b g r c => Sys2Proof.Machine.execAmoWFadd d a b g r c s
  | .amoWInc d a b g r c => Sys2Proof.Machine.execAmoWInc d a b g r c s
  | .fenceAcq c => Sys2Proof.Machine.execFenceAcq c s
  | .fenceRel c => Sys2Proof.Machine.execFenceRel c s
  | .fence c => Sys2Proof.Machine.execFence c s
  | .fenceEngAcq c => Sys2Proof.Machine.execFenceEngAcq c s
  | .fenceEngRel c => Sys2Proof.Machine.execFenceEngRel c s
  | .fenceEng c => Sys2Proof.Machine.execFenceEng c s
  | .segld d a => Sys2Proof.Machine.execSegld d a s
  | .segst d a => Sys2Proof.Machine.execSegst d a s
  | .segnar d a b => Sys2Proof.Machine.execSegnar d a b s
  | .segrgt d a => Sys2Proof.Machine.execSegrgt d a s
  | .segbase d a => Sys2Proof.Machine.execSegbase d a s
  | .seglim d a => Sys2Proof.Machine.execSeglim d a s
  | .segrd d a => Sys2Proof.Machine.execSegrd d a s
  | .smap d a b g => Sys2Proof.Machine.execSmap d a b g s
  | .sunmap d b => Sys2Proof.Machine.execSunmap d b s
  | .sflush d b => Sys2Proof.Machine.execSflush d b s
  | .sinv d b => Sys2Proof.Machine.execSinv d b s
  | .sprobe d a => Sys2Proof.Machine.execSprobe d a s
  | .msgt a b => Sys2Proof.Machine.execMsgt a b s
  | .poll d => Sys2Proof.Machine.execPoll d s
  | .qbind a b => Sys2Proof.Machine.execQbind a b s
  | .migrate a => Sys2Proof.Machine.execMigrate a s
  | .rfork d a b => Sys2Proof.Machine.execRfork d a b s
  | .join a => Sys2Proof.Machine.execJoin a s
  | .spawn d a b => Sys2Proof.Machine.execSpawn d a b s
  | .tail a => Sys2Proof.Machine.execTail a s
  | .yield => Sys2Proof.Machine.execYield s
  | .park => Sys2Proof.Machine.execPark s
  | .wake a => Sys2Proof.Machine.execWake a s
  | .endStrand => Sys2Proof.Machine.execEndStrand s
  | .cancel => Sys2Proof.Machine.execCancel s
  | .gdec a => Sys2Proof.Machine.execGdec a s
  | .qput a b => Sys2Proof.Machine.execQput a b s
  | .qtake d a => Sys2Proof.Machine.execQtake d a s
  | .lfork d a k => Sys2Proof.Machine.execLfork d a k s
  | .lforkf d a k => Sys2Proof.Machine.execLforkf d a k s
  | .lflat d a k => Sys2Proof.Machine.execLflat d a k s
  | .lrebk d a b k => Sys2Proof.Machine.execLrebk d a b k s
  | .lrebd d a b k => Sys2Proof.Machine.execLrebd d a b k s
  | .ldel d a k => Sys2Proof.Machine.execLdel d a k s
  | .lcmt d a k => Sys2Proof.Machine.execLcmt d a k s
  | .linfo d a b k => Sys2Proof.Machine.execLinfo d a b k s
  | .trap imm => Sys2Proof.Machine.execTrap imm s
  | .eret => Sys2Proof.Machine.execEret s
  | .brk imm => Sys2Proof.Machine.execBrk imm s
  | .cyc d => Sys2Proof.Machine.execCyc d s
  | .rsr d imm => Sys2Proof.Machine.execRsr d imm s
  | .wsr a imm => Sys2Proof.Machine.execWsr a imm s
  | .rcx d a imm => Sys2Proof.Machine.execRcx d a imm s
  | .wcx v a imm => Sys2Proof.Machine.execWcx v a imm s
  | .halt => Sys2Proof.Machine.execHalt s
  | .tlbinv a => Sys2Proof.Machine.execTlbinv a s
  | .ctxflush a => Sys2Proof.Machine.execCtxflush a s
  | .cpCopy => Sys2Proof.Machine.execCpCopy s
  | .cpFill => Sys2Proof.Machine.execCpFill s
  | .cpBcast => Sys2Proof.Machine.execCpBcast s
  | .cpGather => Sys2Proof.Machine.execCpGather s
  | .cpScatter => Sys2Proof.Machine.execCpScatter s
  | .cpCancel => Sys2Proof.Machine.execCpCancel s
  | .cpNode => Sys2Proof.Machine.execCpNode s
  | .lnRoot => Sys2Proof.Machine.execLnRoot s
  | .lnWr => Sys2Proof.Machine.execLnWr s
  | .lnWre => Sys2Proof.Machine.execLnWre s
  | .lnLr => Sys2Proof.Machine.execLnLr s
  | .lnRes => Sys2Proof.Machine.execLnRes s
  | .lnApp => Sys2Proof.Machine.execLnApp s
  | .lnTrunc => Sys2Proof.Machine.execLnTrunc s
  | .lnRd => Sys2Proof.Machine.execLnRd s
  | .mxZero => Sys2Proof.Machine.execMxZero s
  | .mxMma => Sys2Proof.Machine.execMxMma s
  | .mxLin => Sys2Proof.Machine.execMxLin s
  | .mxSt => Sys2Proof.Machine.execMxSt s
  | .mxLd => Sys2Proof.Machine.execMxLd s
  | .vxFill => Sys2Proof.Machine.execVxFill s
  | .vxIota => Sys2Proof.Machine.execVxIota s
  | .vxAdd => Sys2Proof.Machine.execVxAdd s
  | .vxSub => Sys2Proof.Machine.execVxSub s
  | .vxMul => Sys2Proof.Machine.execVxMul s
  | .vxFma => Sys2Proof.Machine.execVxFma s
  | .vxMin => Sys2Proof.Machine.execVxMin s
  | .vxMax => Sys2Proof.Machine.execVxMax s
  | .vxAbs => Sys2Proof.Machine.execVxAbs s
  | .vxNeg => Sys2Proof.Machine.execVxNeg s
  | .vxRcp => Sys2Proof.Machine.execVxRcp s
  | .vxRsqrt => Sys2Proof.Machine.execVxRsqrt s
  | .vxExp2 => Sys2Proof.Machine.execVxExp2 s
  | .vxLog2 => Sys2Proof.Machine.execVxLog2 s
  | .vxCvt => Sys2Proof.Machine.execVxCvt s
  | .vxCmp => Sys2Proof.Machine.execVxCmp s
  | .vxSel => Sys2Proof.Machine.execVxSel s
  | .vxRsum => Sys2Proof.Machine.execVxRsum s
  | .vxRmax => Sys2Proof.Machine.execVxRmax s
  | .vxArgmax => Sys2Proof.Machine.execVxArgmax s
  | .vxGather => Sys2Proof.Machine.execVxGather s
  | .vxScatter => Sys2Proof.Machine.execVxScatter s
  | .vxQuant => Sys2Proof.Machine.execVxQuant s
  | .vxSwz => Sys2Proof.Machine.execVxSwz s
  | .clAg => Sys2Proof.Machine.execClAg s
  | .clRs => Sys2Proof.Machine.execClRs s
  | .clAr => Sys2Proof.Machine.execClAr s
  | .clBc => Sys2Proof.Machine.execClBc s
  | .clGrp => Sys2Proof.Machine.execClGrp s
  | .smRun => Sys2Proof.Machine.execSmRun s
  | .smBatch => Sys2Proof.Machine.execSmBatch s
  | .rnCfg => Sys2Proof.Machine.execRnCfg s
  | .rnDraw => Sys2Proof.Machine.execRnDraw s
  | .dxOpen => Sys2Proof.Machine.execDxOpen s
  | .dxIn => Sys2Proof.Machine.execDxIn s
  | .dxApp => Sys2Proof.Machine.execDxApp s
  | .dxAck => Sys2Proof.Machine.execDxAck s
  | .dxTrunc => Sys2Proof.Machine.execDxTrunc s
  | .dxClose => Sys2Proof.Machine.execDxClose s
  | .stashRecall => Sys2Proof.Machine.execStashRecall s
  | .inboxPush => Sys2Proof.Machine.execInboxPush s
  | .linkWordArrival => Sys2Proof.Machine.execLinkWordArrival s
  | .pieceSignal => Sys2Proof.Machine.execPieceSignal s
  | .collectiveStart => Sys2Proof.Machine.execCollectiveStart s
  | .lanternPieceSignal => Sys2Proof.Machine.execLanternPieceSignal s
  | .tokenWordStore => Sys2Proof.Machine.execTokenWordStore s
  | .longLatencyComplete => Sys2Proof.Machine.execLongLatencyComplete s
  | .engineCompletion => Sys2Proof.Machine.execEngineCompletion s
  | .trapEntry => Sys2Proof.Machine.execTrapEntry s
  | .strandWake => Sys2Proof.Machine.execStrandWake s
  | .activationStart => Sys2Proof.Machine.execActivationStart s
  | .activationComplete => Sys2Proof.Machine.execActivationComplete s
  | .contextLineArrival => Sys2Proof.Machine.execContextLineArrival s
  | .page => Sys2Proof.Machine.execPage s
  | .accessReperform => Sys2Proof.Machine.execAccessReperform s
  | .migrationArrival => Sys2Proof.Machine.execMigrationArrival s
  | .fabricAccessIn => Sys2Proof.Machine.execFabricAccessIn s
  | .deviceLost => Sys2Proof.Machine.execDeviceLost s
  | .linkFailure => Sys2Proof.Machine.execLinkFailure s
  | .graphNodeDecrement => Sys2Proof.Machine.execGraphNodeDecrement s
  | .taskDispatch => Sys2Proof.Machine.execTaskDispatch s
  | .gangPlacement => Sys2Proof.Machine.execGangPlacement s
  | .taskRetirement => Sys2Proof.Machine.execTaskRetirement s
  | .preemption => Sys2Proof.Machine.execPreemption s
  | .checkpoint => Sys2Proof.Machine.execCheckpoint s
  | .launch => Sys2Proof.Machine.execLaunch s
  | .preempt => Sys2Proof.Machine.execPreempt s
  | .resume => Sys2Proof.Machine.execResume s
  | .launchCancel => Sys2Proof.Machine.execLaunchCancel s
  | .doorbell => Sys2Proof.Machine.execDoorbell s
  | .queueSlotVisit => Sys2Proof.Machine.execQueueSlotVisit s
  | .supqHeldEvent => Sys2Proof.Machine.execSupqHeldEvent s
  | .jobCreate => Sys2Proof.Machine.execJobCreate s
  | .jobEnd => Sys2Proof.Machine.execJobEnd s
  | .l2LineEviction => Sys2Proof.Machine.execL2LineEviction s
  | .patrolScrub => Sys2Proof.Machine.execPatrolScrub s
  | .rollback => Sys2Proof.Machine.execRollback s
  | .scrubPeriodEnd => Sys2Proof.Machine.execScrubPeriodEnd s
  | .layerHardRemoval => Sys2Proof.Machine.execLayerHardRemoval s
  | .release => Sys2Proof.Machine.execRelease s
  | .scrubPeriod => Sys2Proof.Machine.execScrubPeriod s
  | .throttle => Sys2Proof.Machine.execThrottle s
  | .thermalThrottle => Sys2Proof.Machine.execThermalThrottle s
  | .thermalStop => Sys2Proof.Machine.execThermalStop s
  | .deviceReset => Sys2Proof.Machine.execDeviceReset s
  | .getVersion => Sys2Proof.Machine.execGetVersion s
  | .getCapabilities => Sys2Proof.Machine.execGetCapabilities s
  | .negotiateAlgorithms => Sys2Proof.Machine.execNegotiateAlgorithms s
  | .getDigests => Sys2Proof.Machine.execGetDigests s
  | .getCertificate => Sys2Proof.Machine.execGetCertificate s
  | .challenge => Sys2Proof.Machine.execChallenge s
  | .getMeasurements => Sys2Proof.Machine.execGetMeasurements s
  | .hostCxlAccess => Sys2Proof.Machine.execHostCxlAccess s
  | .storeRefused => Sys2Proof.Machine.execStoreRefused s
  | .fusedMinimumRaise => Sys2Proof.Machine.execFusedMinimumRaise s

end Sys2Proof.Machine
end

