-- ==== Sys2Proof/Machine/Fetch.lean ====
section
/-! DEFINITION. One cycle of a station: which slot issues (R47), the fetch of its instruction through `s0` (R57, R80), the
checks that precede execution (R74, R79), and how a turn begins and ends. -/

namespace Sys2Proof.Machine

open Sys2Proof

/-! ### Which slot issues (R47) -/

/-- Whether what a strand waits for in its slot has come (R118, R134, R139, R149, R209). -/
def holdOver (c : Core) (x : Strand) : Bool :=
  match x.hold with
  | .none => true
  | .drain => x.ops.isEmpty
  | .engines => x.ops.isEmpty && x.engines == 0
  | .flush ctx =>
    match c.strand? ⟨x.key.job, ctx⟩ with
    | none => true
    | some y => (!y.stopping && !y.blocked) || !y.live || y.inMemory

/-- Whether a slotted strand is ready: it waits for nothing, no trap of it is on its way, and no POISON is to be taken
(R66, R138). A strand of a cancelled job is ready to die (R213). -/
def Strand.ready (c : Core) (x : Strand) : Bool :=
  x.parked.isNone && x.dropped.isNone &&
  (c.cancelled.contains x.key.job ||
    (x.trapPend.isNone && (x.poison.isEmpty || x.im) && holdOver c x && !x.stopping))

/-- The order in which a cycle looks at the slots. -/
def slotOrder (s : Nat) : List Nat := (List.range 16).map fun k => (s + 1 + k) % 16

/-- The strand that a slot would issue, if the slot is eligible. -/
def eligible (c : Core) (st : Station) (i : Nat) : Option (Nat × Key) :=
  match st.slots[i]! with
  | none => none
  | some k =>
    if st.recent.contains (some k) then none
    else
      match c.strand? k with
      | some x => if x.ready c then some (i, k) else none
      | none => none

def pickSlot (c : Core) (pid : Nat) : Option (Nat × Key) :=
  (slotOrder (c.station pid).lastSlot).findSome? (eligible c (c.station pid))

/-- A cycle in which nothing issues, and one in which a slot does. -/
def Station.idleCycle (s : Station) : Station := { s with recent := (none :: s.recent).take 3 }
def Station.issueCycle (s : Station) (slot : Nat) (k : Key) : Station :=
  { s with recent := (some k :: s.recent).take 3, lastSlot := slot }

/-! ### Fetch (R57, R75, R80) -/

/-- Bytes of a code line; an aperture page is the local cell. -/
def fetchBytes (pt : Party) (va n : Nat) : Act (List EByte) := do
  recallBlock pt.job va
  let cell (pa : Nat) : Act (List EByte) := look fun p c =>
    (List.range n).map fun k => (c.mem.byte (pa + k), c.mem.isPoison (pa + k) || layerGone p pa)
  match ← locate pt.job va 4 n with
  | .cell pa pin =>
    pinCheck pt va pin
    cell pa
  | .aperture _ pa => cell pa
  | .mgmt _ _ | .record _ _ => readChunk pt va n

/-- A fetched instruction: what decoding gives, with its first word. -/
structure Fetched where
  instr : Instr
  word : IWord
  tcw : Option Tcw
  deriving DecidableEq, Repr

def firstWord (b : List EByte) : IWord := BitVec.ofNat 32 (eNat (b.take 4))

/-- A fetch that meets a poisoned word takes POISON before the instruction (R361). DEDUCED (log 35). -/
def fetchPoison (va : Nat) : Act (Option Fetched) := do
  updMe fun x =>
    let e : Poison := ⟨x.pc, wordOf (va / 8 * 8), 0, x.issues, false⟩
    { x with poison := if x.poison.contains e then x.poison else x.poison ++ [e] }
  pure none

/-- The register that the mode-4 field of a tile command's third word names (R65, R77). -/
def statusField (b : List EByte) : List Reg :=
  let w := eNat ((b.drop 8).take 4)
  if h : bitsOf w 24 8 = 4 ∧ bitsOf w 11 5 < 16 then [.g ⟨bitsOf w 11 5, h.2⟩] else []

/-- The instruction that the bytes begin with, or the trap of R74 step 1 or of R79. -/
def decodeFetched (w : IWord) (b : List EByte) : Act (Option Fetched) :=
  match decode (b.map (·.1)) with
  | .ok d => pure (some ⟨d.instr, w, d.tcw⟩)
  | .error .tcwCode => do
    lookaheadCheck (statusField b) true
    trapWith causeTcw 0
  | .error .reservedCondition => trapWith causeIll 0
  | .error .reservedMajor | .error .reservedMinor | .error .mustBeZero | .error .badOperand | .error .truncated =>
    trapWith causeIll (w.zeroExtend 64)

/-- Whether an active loop ends strictly inside a tile command word (R80). -/
def Strand.loopEndsInside (x : Strand) : Bool :=
  x.looping && decide (x.pc.toNat < x.loopEnd.toNat) && decide (x.loopEnd.toNat < x.pc.toNat + 32)

/-- What stops an instruction once its word has been fetched, of which its home stays reached (R223, R379). -/
def afterFetch {α : Type} (job va : Nat) (a : Act α) : Act α := do
  match ← attempt a with
  | .ok v => pure v
  | .error e => stop (.reached job va e)

/-- The instruction at pc, fetched through `s0`. A fetch migrates no strand, whatever the rights of `s0`: DESIGN CHOICE (log 108). -/
def fetchAct : Act (Option Fetched) := do
  let x ← me
  let va ← translate 0 x.pc.toNat 4 4
  let b ← fetchBytes x.party va 4
  if eBad b then fetchPoison va
  else
    let w := firstWord b
    if (fMajor w).toNat = 0x3E then
      if va % 32 ≠ 0 ∨ x.loopEndsInside then afterFetch x.key.job va (trapWith causeIll (w.zeroExtend 64))
      else
        let va ← afterFetch x.key.job va (translate 0 x.pc.toNat 32 4)
        let b ← fetchBytes x.party va 32
        if eBad b then fetchPoison va else afterFetch x.key.job va (decodeFetched w b)
    else afterFetch x.key.job va (decodeFetched w b)

/-! ### A turn -/

/-- How a station's cycle begins: it is over, or an instruction runs on a state. -/
inductive Begin where
  | over (o : Outcome)
  | run (i : Instr) (s : State)

def State.idle (s : State) : State := { s with core := { s.core with work := .idle } }

/-- The strand's instruction is fetched; its work latch is set for its execution. -/
def beginStrand (pid slot : Nat) (k : Key) (s : State) : Begin :=
  let c := { s.core.updStrand k (fun x => { x with hold := .none }) with work := .strand pid slot k 0 none }
  match fetchAct s.plat c with
  | .ok (some f, c') => .run f.instr { s with core := { c' with work := .strand pid slot k f.word f.tcw } }
  | .ok (none, c') => .over (.next (State.idle { s with core := c' }))
  | .error (.fault f) => .over (.fault f)
  | .error x => .over (.next (State.idle { s with core := strandStop s.plat k x c }))

/-- One cycle of a station's clock (R20, R47), which does not run in a gated island (R377): a strand of a cancelled job dies at
its issue (R213). -/
def beginIssue (pid : Nat) (s : State) : Begin :=
  if Config.stations ≤ pid then .over (.fault .noSuchStation)
  else if !clockRuns s.core pid then .over (.next s)
  else
    let c := s.core.updStation pid fun st => { st with cycle := st.cycle + 1 }
    match pickSlot c pid with
    | none => .over (.next { s with core := c.updStation pid Station.idleCycle })
    | some (slot, k) =>
      let c := c.updStation pid fun st => st.issueCycle slot k
      if c.cancelled.contains k.job then .over (.next { s with core := retireStrand s.plat k c })
      else beginStrand pid slot k { s with core := c }

/-- The words of a tile command that names nothing. -/
def Tcw.blank : Tcw := ⟨0, 0, 0, 0, 0, 0, 0, 0, 0⟩

/-- Whether a constructor names a tile command operation, and whether it names an event. -/
def isTileOp (op : Instr) : Bool :=
  match encode op Tcw.blank with
  | some (_ :: _ :: _) => true
  | some [_] | some [] | none => false
def isEventOp (op : Instr) : Bool := (encode op Tcw.blank).isNone

/-- How a turn begins. A module that has stopped takes no turn but a reset (R377). -/
def beginTurn (t : Turn) (s : State) : Begin :=
  match t with
  | .issue pid => if s.plat.stopped then .over (.next s) else beginIssue pid s
  | .engine op unit =>
    if isTileOp op && !s.plat.stopped then .run op { s with core := { s.core with work := .engine unit } } else .over (.next s)
  | .event op arg =>
    if isEventOp op && (!s.plat.stopped || op == .deviceReset) then
      .run op { s with core := { s.core with work := .event arg } }
    else .over (.next s)

/-- The turn that the package takes next (R48, R171): the first of those that are fixed, else a free one. -/
def State.nextTurn (s : State) : Turn :=
  match s.schedule with
  | t :: _ => t
  | [] => Config.freeTurn s.turnNo

def State.taken (s : State) : State := { s with schedule := s.schedule.tail, turnNo := s.turnNo + 1 }

/-- The end of a turn: the work latch is idle. -/
def endTurn (o : Outcome) : Outcome :=
  match o with
  | .next s => .next s.idle
  | .fault f => .fault f
  | .refused r => .refused r

end Sys2Proof.Machine
end

