-- ==== Sys2Proof/Machine/Place.lean ====
section
/-! DEFINITION. Placing one instruction where the package fetches next: a strand in slot 0 of station 0 whose pc is at the
instruction's bytes. It stands for the load of a program by the host and its launch (R219, R223), which take several
events before a first instruction issues. -/

namespace Sys2Proof.Machine

open Sys2Proof

/-- The job, the context record, and the address of the code, virtual and physical, of the placed strand. -/
def placedKey : Key := ⟨0, 0x400⟩
def placedCode : Nat := 0x10000

/-- `s0` of the placed strand: the first 128 KiB of the job, readable, writable and executable by a user strand. -/
def placedSeg : SegDesc := ⟨0, 0x20000, 7⟩

/-- A user strand in slot 0 of station 0, whose every register is zero and full and whose context lines are all
there. DESIGN CHOICE (log 4). -/
def placedStrand : Strand where
  key := placedKey
  g := Vector.replicate 16 0
  mask := 0xFFFF
  mode := 0
  pc := wordOf placedCode
  loopStart := 0
  loopEnd := 0
  loopCount := 0
  ops := []
  window := 0
  engines := 0
  fa := 0
  fb := 0
  fc := 0
  fs := 0
  task := 0
  joinOrParent := 0
  roundPos := 0
  fpflags := 0
  rmode := 0
  outTarget := 0
  qbind := 0
  inHigh := Lane.empty
  inLow := Lane.empty
  segs := (Vector.replicate 8 SegDesc.zero).set 0 placedSeg
  epc := 0
  cause := 0
  tval := 0
  savedMode := 0
  opc := 0
  lacount := 0
  engTrap := 0
  engTval := 0
  notes := Vector.replicate 16 .plain
  place := .slotted 0
  parked := none
  since := 0
  station := 0
  hold := .none
  lines := List.range 16
  badLines := []
  issues := 0
  dropped := none
  trapPend := none
  poison := []
  refusals := []
  stopping := false
  blocked := false

/-- The line of the placed code in its home L2, so that no table walk is needed to fetch from it. -/
def placedLine : L2Line := ⟨0, placedCode / 64, placedCode / 64, false, false, false, none, 0, 0, 0, none, 0⟩

/-- Memory with 32 bytes of code at the placed address, none of its words poisoned. -/
def placeBytes (b : List Byte) (m : Mem) : Mem :=
  let m := m.setBytes placedCode b
  [0, 8, 16, 24].foldl (fun m k => m.setPoison (placedCode + k) false) m

/-- Station 0 with the placed strand in slot 0, the slot that its next cycle issues. -/
def placeSlot (s : Station) : Station :=
  { s with slots := s.slots.set 0 (some placedKey), lastSlot := 15, recent := [] }

/-- The core with a strand about to issue the instruction that `b` encodes. -/
def placeCore (b : List Byte) (c : Core) : Core :=
  let c := (c.addStrand placedStrand).updStation 0 placeSlot
  { c with
    mem := placeBytes b c.mem
    l2 := placedLine :: c.l2
    cancelled := c.cancelled.filter (· != 0)
    pins := c.pins.filter fun h => h.job != 0 || h.vline != placedCode / 64
    work := .idle }

/-- The state whose next turn is station 0's, with that strand in slot 0. -/
def placeState (b : List Byte) (s : State) : State :=
  { s with core := placeCore b s.core, plat := { s.plat with stopped := false }, schedule := [.issue 0] }

end Sys2Proof.Machine
end

