-- ==== Sys2Proof/Machine/Step.lean ====
section
/-! DEFINITION. One step: the package takes its next turn. A station's turn fetches and executes one instruction of a strand,
an engine's turn executes one tile command, and an event's turn is the event. -/

namespace Sys2Proof.Machine

open Sys2Proof

/-- One step. -/
def step (s : State) : Host.Outcome State Fault Refusal :=
  match beginTurn s.nextTurn s.taken with
  | .over o => endTurn o
  | .run i t => endTurn (exec i t)

/-- The state whose next step fetches and runs the instruction with bits `w`, numbered as the opcode table numbers
them. -/
def State.withFetchWord (s : State) (nbits w : Nat) : State := placeState (tableBytes (w % 2 ^ nbits)) s

end Sys2Proof.Machine
end

