-- ==== Sys2Proof/Safety.lean ====
section
/-! DEFINITION. The terms in which the statements speak: the instruction in hand and its strand, operands that can be
read, a destination that can take a word, lookahead that lets an instruction issue, and the invariants of the machine. -/

namespace Sys2Proof.Machine

open Sys2Proof

/-! ### The instruction in hand -/

/-- The turn in hand issues, at station `pid`, the instruction word `w` with command `t` of strand `k`, whose state is
`x`. -/
def InHand (s : State) (pid : Nat) (k : Key) (w : IWord) (t : Option Tcw) (x : Strand) : Prop :=
  (∃ slot, s.core.work = .strand pid slot k w t) ∧ s.core.strand? k = some x

/-- R65 lets an instruction issue that writes `writes` and is long-latency or not: no operation is outstanding, or the
window is open, no outstanding operation has one of these destinations, and a long-latency one finds room for a fifth. -/
def MayIssue (x : Strand) (writes : List Reg) (long : Bool) : Prop :=
  x.ops = [] ∨
  (x.window ≠ 0 ∧ (∀ o ∈ x.ops, ∀ n, o.dest = some n → Reg.g n ∉ writes) ∧ (long = true → x.ops.length < 4))

/-- The source `r` can be read: it gives `v` and leaves the core `c'`, from which a port's word has been taken. -/
def Reads (p : Platform) (c : Core) (r : Reg) (v : Word) (c' : Core) : Prop := readReg r p c = .ok (v, c')

/-- The destination `d` can take a word. -/
def Room (p : Platform) (c : Core) (d : Reg) : Prop := destReady d p c = .ok ((), c)

/-- The instruction of strand `k` ends: it takes its place in the window, `v` goes to `d`, and the pc moves on. -/
def Retires (p : Platform) (k : Key) (c : Core) (d : Reg) (v : Word) (c' : Core) : Prop :=
  ∃ c1, writeReg d v p (c.updStrand k Strand.issued) = .ok ((), c1) ∧ c' = c1.updStrand k fun x => x.advance 4

/-- The instruction of strand `k` ends and writes no register. -/
def Core.passed (c : Core) (k : Key) : Core := c.updStrand k fun x => x.issued.advance 4

/-- A long-latency instruction of strand `k` ends its issue: destination, lookahead and what it will bring. -/
def Core.passedLong (c : Core) (k : Key) (d : Reg) (la : BitVec 4) (r : LlResult) : Core :=
  updRegs k (fun x => (x.issuedLong la.toNat (gprOf d) r).advance 4) c

/-! ### Memory as the statements read it -/

/-- No stash entry of any station maps the block of an address, and the address reaches an ordinary cell of memory that
is no PIN line: `pa`, in the core `c'` with the translation cached. -/
def PlainCell (p : Platform) (c : Core) (job va kind size pa : Nat) (c' : Core) : Prop :=
  (∀ e ∈ c.stations, mappedEntry e.2 job (va / 256 * 256) = none) ∧
  locate job va kind size p c = .ok (.cell pa false, c')

/-- Whether an address lies in the entries of a job's write log (R365). -/
def inLog (p : Platform) (c : Core) (job a : Nat) : Prop :=
  logBase p c job ≤ a ∧ a < logBase p c job + 128 * logCount p c job

/-! ### Invariants -/

/-- R374: out of recovery, the firmware's version is at least the fused minimum. -/
def Firmware.sound (f : Firmware) : Prop := f.recovery = false → f.minVersion ≤ f.version

end Sys2Proof.Machine
end

