-- ==== Sys2Proof/Certificates/Slice0/Obligations.lean ====
section
/-! DEFINITION. The statements for the provers, and the tables of instructions of one shape that they quantify over. -/

namespace Sys2Proof.Claims

open Sys2Proof Sys2Proof.Machine

/-! ### Instructions of one shape, with what the specification gives as their value -/

/-- Two sources and a destination, not long-latency (R87). -/
def binaryTable : List ((Reg → Reg → Reg → Instr) × (Word → Word → Word)) :=
  [(.add, fun a b => a + b), (.sub, fun a b => a - b), (.and, fun a b => a &&& b), (.or, fun a b => a ||| b),
   (.xor, fun a b => a ^^^ b), (.andn, fun a b => a &&& ~~~b), (.orn, fun a b => a ||| ~~~b),
   (.xnor, fun a b => ~~~(a ^^^ b)),
   (.shl, fun a b => a <<< (b.toNat % 64)), (.shr, fun a b => a >>> (b.toNat % 64)),
   (.sar, fun a b => a.sshiftRight (b.toNat % 64)), (.rol, fun a b => a.rotateLeft (b.toNat % 64)),
   (.ror, fun a b => a.rotateRight (b.toNat % 64)),
   (.min, fun a b => if a.toInt ≤ b.toInt then a else b), (.max, fun a b => if a.toInt ≤ b.toInt then b else a),
   (.minz, fun a b => if a.toNat ≤ b.toNat then a else b), (.maxz, fun a b => if a.toNat ≤ b.toNat then b else a),
   (.slt, fun a b => if a.toInt < b.toInt then 1 else 0), (.sltz, fun a b => if a.toNat < b.toNat then 1 else 0),
   (.seq, fun a b => if a = b then 1 else 0), (.sne, fun a b => if a = b then 0 else 1),
   (.addsat, fun a b => BitVec.ofInt 64 (Max.max (-(2 : Int) ^ 63) (Min.min ((2 : Int) ^ 63 - 1) (a.toInt + b.toInt)))),
   (.subsat, fun a b => BitVec.ofInt 64 (Max.max (-(2 : Int) ^ 63) (Min.min ((2 : Int) ^ 63 - 1) (a.toInt - b.toInt)))),
   (.adds1, fun a b => a + b * 2), (.adds2, fun a b => a + b * 4), (.adds3, fun a b => a + b * 8),
   (.adds4, fun a b => a + b * 16)]

/-- The minors of major 0x01 that name an instruction (R87, R88). -/
def aluMinors : List Nat :=
  [0x00, 0x01, 0x02, 0x03, 0x04, 0x05, 0x06, 0x07, 0x08, 0x09, 0x0A, 0x0B, 0x0C, 0x10, 0x11, 0x12, 0x13, 0x14, 0x15, 0x16,
   0x17, 0x18, 0x19, 0x20, 0x21, 0x22, 0x23, 0x24, 0x25, 0x26, 0x27, 0x28, 0x29, 0x2A, 0x30, 0x31, 0x32, 0x33, 0x34, 0x35,
   0x36, 0x3C, 0x3D, 0x3E, 0x3F]

/-- One source and a destination, not long-latency, with flags set by none of them (R87, R94). -/
def unaryTable : List ((Reg → Reg → Instr) × (Word → Word)) :=
  [(.clz, clzOf), (.ctz, ctzOf), (.pop, popOf), (.brev, fun a => a.reverse),
   (.bswap, fun a => a.extractLsb' 0 8 ++ a.extractLsb' 8 8 ++ a.extractLsb' 16 8 ++ a.extractLsb' 24 8 ++
      a.extractLsb' 32 8 ++ a.extractLsb' 40 8 ++ a.extractLsb' 48 8 ++ a.extractLsb' 56 8),
   (.sextB, fun a => (a.truncate 8).signExtend 64), (.sextH, fun a => (a.truncate 16).signExtend 64),
   (.sextW, fun a => (a.truncate 32).signExtend 64), (.zextB, fun a => (a.truncate 8).zeroExtend 64),
   (.zextH, fun a => (a.truncate 16).zeroExtend 64), (.zextW, fun a => (a.truncate 32).zeroExtend 64),
   (.fneg, fun a => (a.truncate 32 ^^^ 0x80000000#32).zeroExtend 64),
   (.fabs, fun a => (a.truncate 32 &&& 0x7FFFFFFF#32).zeroExtend 64)]

/-- One source, a 16-bit immediate and a destination (R89). -/
def imm16Table : List ((Reg → Reg → BitVec 16 → Instr) × (Word → BitVec 16 → Word)) :=
  [(.addi, fun a i => a + i.signExtend 64), (.andi, fun a i => a &&& i.zeroExtend 64),
   (.ori, fun a i => a ||| i.zeroExtend 64), (.xori, fun a i => a ^^^ i.zeroExtend 64),
   (.slti, fun a i => if a.toInt < i.toInt then 1 else 0),
   (.sltzi, fun a i => if a.toNat < (i.signExtend 64).toNat then 1 else 0), (.muli, fun a i => a * i.signExtend 64)]

/-- One source, a 6-bit shift amount and a destination (R89). -/
def imm6Table : List ((Reg → Reg → BitVec 6 → Instr) × (Word → BitVec 6 → Word)) :=
  [(.shli, fun a i => a <<< i.toNat), (.shri, fun a i => a >>> i.toNat), (.sari, fun a i => a.sshiftRight i.toNat),
   (.roli, fun a i => a.rotateLeft i.toNat)]

/-- Two sources and a destination, long-latency: the value and the flags that the completion brings (R88, R94). -/
def longTable : List ((Reg → Reg → Reg → BitVec 4 → Instr) × (Word → Word → Word × BitVec 5)) :=
  [(.mul, fun a b => (a * b, 0)), (.mulh, fun a b => (BitVec.ofInt 64 (a.toInt * b.toInt / 2 ^ 64), 0)),
   (.mulhz, fun a b => (BitVec.ofNat 64 (a.toNat * b.toNat / 2 ^ 64), 0)),
   (.div, fun a b => (if b = 0 then BitVec.ofInt 64 (-1) else BitVec.ofInt 64 (a.toInt.tdiv b.toInt), 0)),
   (.divz, fun a b => (if b = 0 then BitVec.ofInt 64 (-1) else BitVec.ofNat 64 (a.toNat / b.toNat), 0)),
   (.rem, fun a b => (if b = 0 then a else BitVec.ofInt 64 (a.toInt.tmod b.toInt), 0)),
   (.remz, fun a b => (if b = 0 then a else BitVec.ofNat 64 (a.toNat % b.toNat), 0)),
   (.fdiv, fun a b => longOf fpDiv a b)]

/-- The FP32 members of two sources, as the model's FP32 functions compute them: value and flags (R92 to R95). -/
def fpBinaryTable : List ((Reg → Reg → Reg → Instr) × (Nat → Nat → Nat × BitVec 5)) :=
  [(.fadd, fpAdd), (.fsub, fpSub), (.fmul, fpMul), (.fmin, fpMin), (.fmax, fpMax), (.feq, fpEq), (.flt, fpLt), (.fle, fpLe)]

/-- Conversions between FP32 and integers: value and flags (R94). -/
def convertTable : List ((Reg → Reg → Instr) × (Word → Word × BitVec 5)) :=
  [(.fcvtIf, fun a => fpToInt (a.toNat % 2 ^ 32)), (.fcvtFi, fun a => (wordOf (fpOfInt a).1, (fpOfInt a).2))]

/-- Branches on two registers, with their conditions (R97). -/
def branchTable : List ((Reg → Reg → BitVec 13 → Instr) × (Word → Word → Prop)) :=
  [(.brEq, fun a b => a = b), (.brNe, fun a b => a ≠ b), (.brLt, fun a b => a.toInt < b.toInt),
   (.brGe, fun a b => b.toInt ≤ a.toInt), (.brLtz, fun a b => a.toNat < b.toNat), (.brGez, fun a b => b.toNat ≤ a.toNat)]

/-- Branches on a register and a 5-bit immediate. -/
def branchImmTable : List ((Reg → BitVec 5 → BitVec 13 → Instr) × (Word → Word → Prop)) :=
  [(.briEq, fun a b => a = b), (.briNe, fun a b => a ≠ b), (.briLt, fun a b => a.toInt < b.toInt),
   (.briGe, fun a b => b.toInt ≤ a.toInt), (.briLtz, fun a b => a.toNat < b.toNat), (.briGez, fun a b => b.toNat ≤ a.toNat)]

/-- Loads with a displacement, with size and sign (R107). -/
def loadTable : List ((Reg → Reg → Seg → BitVec 9 → BitVec 4 → Instr) × Nat × Bool) :=
  [(.ldB, 1, true), (.ldH, 2, true), (.ldW, 4, true), (.ldD, 8, true), (.ldzB, 1, false), (.ldzH, 2, false), (.ldzW, 4, false)]

/-- Loads with an index register. -/
def loadIndexTable : List ((Reg → Reg → Reg → Seg → BitVec 4 → Instr) × Nat × Bool) :=
  [(.ldxB, 1, true), (.ldxH, 2, true), (.ldxW, 4, true), (.ldxD, 8, true), (.ldzxB, 1, false), (.ldzxH, 2, false),
   (.ldzxW, 4, false)]

/-- Stores with a displacement, and with an index register, with their sizes (R107). -/
def storeTable : List ((Reg → Reg → Seg → BitVec 9 → Instr) × Nat) := [(.stB, 1), (.stH, 2), (.stW, 4), (.stD, 8)]
def storeIndexTable : List ((Reg → Reg → Reg → Seg → Instr) × Nat) := [(.stxB, 1), (.stxH, 2), (.stxW, 4), (.stxD, 8)]

/-- The value that a load of `n` bytes brings: sign- or zero-extended (R107). -/
def extended (n : Nat) (signed : Bool) (v : Nat) : Word :=
  if signed then (BitVec.ofNat (8 * n) v).signExtend 64 else (BitVec.ofNat (8 * n) v).zeroExtend 64

/-- No access of the strand is on its way: a store to a multicast page that has not returned (R313), a decrement of a node (R199), a
lineage member under way (R245). -/
def NothingSent (c : Core) (k : Key) : Prop :=
  (∀ m ∈ c.multicasts, m.key ≠ k) ∧ (∀ d ∈ c.decrements, ¬ (d.job = k.job ∧ d.ctx = k.ctx ∧ d.done = none)) ∧
  ∀ r ∈ c.members, r.key ≠ k

/-- The same of the strand that makes an access; an engine's command has none. -/
def NothingOwn (c : Core) (pt : Party) : Prop := pt.strand = true → NothingSent c ⟨pt.job, pt.ctx⟩

end Sys2Proof.Claims

open Sys2Proof Sys2Proof.Machine Sys2Proof.Claims

/-! ### Integer and FP32 instructions -/

/-- R86, R87, R94: where lookahead lets it issue, its sources can be read, a before b, and its destination has room, at first and once they are read, an
instruction of two sources, or of one source that sets no flag, completes: its value goes to rd, nothing else is written,
and the pc moves on. Every minor of major 0x01 outside the tables is refused. -/
def Obligations.AluCompletes : Prop :=
  (∀ e ∈ binaryTable, ∀ (d a b : Reg) (s : State) (pid : Nat) (k : Key) (w : IWord) (t : Option Tcw) (x : Strand)
    (va vb : Word) (c1 c2 : Core),
    InHand s pid k w t x → MayIssue x [d] false → Reads s.plat s.core a va c1 → Reads s.plat c1 b vb c2 →
    Room s.plat s.core d → Room s.plat c2 d →
    ∃ c3, Retires s.plat k c2 d (e.2 va vb) c3 ∧ exec (e.1 d a b) s = .next { s with core := c3 }) ∧
  (∀ e ∈ unaryTable, ∀ (d a : Reg) (s : State) (pid : Nat) (k : Key) (w : IWord) (t : Option Tcw) (x : Strand)
    (va : Word) (c1 : Core),
    InHand s pid k w t x → MayIssue x [d] false → Reads s.plat s.core a va c1 → Room s.plat s.core d → Room s.plat c1 d →
    ∃ c2, Retires s.plat k c1 d (e.2 va) c2 ∧ exec (e.1 d a) s = .next { s with core := c2 }) ∧
  (∀ w : IWord, fieldAt 26 6 w = 1#6 → (fieldAt 4 7 w).toNat ∉ aluMinors → ∃ e, decodeWord w = .error e)

/-- R89 to R91: the immediate forms; `movk` replaces one halfword of `g0` to `g15` (of `zr` it
writes nothing), and `adr` adds four times its
immediate to the address of the instruction. -/
def Obligations.ImmediateCompletes : Prop :=
  ∀ (d a : Reg) (s : State) (pid : Nat) (k : Key) (w : IWord) (t : Option Tcw) (x : Strand) (va : Word) (c1 : Core),
    InHand s pid k w t x → MayIssue x [d] false →
    (Reads s.plat s.core a va c1 → Room s.plat s.core d → Room s.plat c1 d →
      (∀ e ∈ imm16Table, ∀ i, ∃ c2, Retires s.plat k c1 d (e.2 va i) c2 ∧ exec (e.1 d a i) s = .next { s with core := c2 }) ∧
      (∀ e ∈ imm6Table, ∀ i, ∃ c2, Retires s.plat k c1 d (e.2 va i) c2 ∧ exec (e.1 d a i) s = .next { s with core := c2 })) ∧
    (∀ (i : BitVec 16) (h : Fin 4), (a = .zr ∨ ∃ n, a = .g n) → d = a → Reads s.plat s.core a va c1 →
      ∃ c2, Retires s.plat k c1 d
          ((va &&& ~~~(0xFFFF#64 <<< (16 * h.val))) ||| (i.zeroExtend 64 <<< (16 * h.val))) c2 ∧
        exec (.movk d h i) s = .next { s with core := c2 }) ∧
    (∀ i : BitVec 16, Room s.plat s.core d →
      ∃ c2, Retires s.plat k s.core d (x.pc + i.signExtend 64 * 4) c2 ∧ exec (.adr d i) s = .next { s with core := c2 })

/-- R88, R94: a long-latency instruction issues: its destination is empty, and what its completion will bring is fixed;
division by zero gives all ones, and the most negative number over −1 wraps. -/
def Obligations.LongLatencyIssues : Prop :=
  ∀ (d a b : Reg) (la : BitVec 4) (s : State) (pid : Nat) (k : Key) (w : IWord) (t : Option Tcw) (x : Strand)
    (va vb : Word) (c1 c2 : Core),
    InHand s pid k w t x → MayIssue x [d] true → Reads s.plat s.core a va c1 →
    (∀ e ∈ longTable, Reads s.plat c1 b vb c2 →
      exec (e.1 d a b la) s = .next { s with core := c2.passedLong k d la (.value (e.2 va vb).1 (e.2 va vb).2) }) ∧
    (∀ r, r = fpSqrt (va.toNat % 2 ^ 32) →
      exec (.fsqrt d a la) s = .next { s with core := c1.passedLong k d la (.value (wordOf r.1) r.2) })

/-- Whether 32 bits are a NaN, and a signalling one (R92). -/
def Sys2Proof.Claims.isNan (n : Nat) : Bool := decide (0x7F800000 < n % 2 ^ 31)
def Sys2Proof.Claims.isSNan (n : Nat) : Bool := isNan n && decide (n / 2 ^ 22 % 2 = 0)

/-- What R92 to R94 say of particular operands of the members of two sources, as x, y, result and flags: the sums and differences of
infinities and zeros, ties to even, exact and inexact subnormal results, tininess after rounding, overflow, and the order of the
zeros. -/
def Sys2Proof.Claims.fpCases : List ((Nat → Nat → Nat × BitVec 5) × List (Nat × Nat × Nat × BitVec 5)) :=
  [(fpAdd, [(0x7F800000, 0x7F800000, 0x7F800000, 0), (0x7F800000, 0xFF800000, 0x7FC00000, 16), (0x3F800000, 0xFF800000, 0xFF800000, 0),
      (0, 0x80000000, 0, 0), (0x80000000, 0x80000000, 0x80000000, 0), (1, 1, 2, 0), (0x007FFFFF, 1, 0x00800000, 0),
      (0x00800000, 0x80000001, 0x007FFFFF, 0), (0x3F800000, 0x33800000, 0x3F800000, 1), (0x3F800001, 0x33800000, 0x3F800002, 1),
      (0x7F7FFFFF, 0x7F7FFFFF, 0x7F800000, 5)]),
   (fpSub, [(0x7F800000, 0x7F800000, 0x7FC00000, 16), (0x7F800000, 0xFF800000, 0x7F800000, 0), (0x80000000, 0, 0x80000000, 0),
      (0x80000000, 0x80000000, 0, 0), (2, 1, 1, 0), (0x3F800000, 0x40200000, 0xBFC00000, 0), (0xFF7FFFFF, 0x7F7FFFFF, 0xFF800000, 5)]),
   (fpMul, [(0, 0x7F800000, 0x7FC00000, 16), (0x80000000, 0xFF800000, 0x7FC00000, 16), (0xC0000000, 0x7F800000, 0xFF800000, 0),
      (0x80000000, 0x3F800000, 0x80000000, 0), (0x00800000, 0x3F000000, 0x00400000, 0), (1, 0x3F000000, 0, 3), (3, 0x3F000000, 2, 3),
      (0x3F7FFFFF, 0x00800000, 0x00800000, 3), (0x3F800001, 0x007FFFFF, 0x00800000, 1), (0x7F000000, 0x40000000, 0x7F800000, 5)]),
   (fpMin, [(0, 0x80000000, 0x80000000, 0), (0x80000000, 0, 0x80000000, 0), (0xFF800000, 1, 0xFF800000, 0), (1, 2, 1, 0),
      (0x80000001, 0x80000002, 0x80000002, 0)]),
   (fpMax, [(0, 0x80000000, 0, 0), (0x80000000, 0, 0, 0), (0x7F800000, 1, 0x7F800000, 0), (1, 2, 2, 0),
      (0x80000001, 0x80000002, 0x80000001, 0)]),
   (fpEq, [(0, 0x80000000, 1, 0), (0x7F800000, 0x7F800000, 1, 0), (1, 2, 0, 0)]),
   (fpLt, [(0x80000000, 0, 0, 0), (0xFF800000, 0x80000001, 1, 0), (0x80000002, 0x80000001, 1, 0), (1, 1, 0, 0)]),
   (fpLe, [(0, 0x80000000, 1, 0), (1, 1, 1, 0), (2, 1, 0, 0)])]

/-- The same of the conversions (R94): the limits, ties to even, the zeros and a subnormal; and of integers that binary32 does not
hold. -/
def Sys2Proof.Claims.toIntCases : List (Nat × Int × BitVec 5) :=
  [(0x5F000000, 2 ^ 63 - 1, 16), (0x5EFFFFFF, 0x7FFFFF8000000000, 0), (0xDF000000, -2 ^ 63, 0), (0xDF000001, -2 ^ 63, 16),
   (0x7F800000, 2 ^ 63 - 1, 16), (0xFF800000, -2 ^ 63, 16), (0xC0200000, -2, 1), (0x40200000, 2, 1), (0x3FC00000, 2, 1),
   (0x3F000000, 0, 1), (0x80000000, 0, 0), (1, 0, 1), (0x4B800001, 0x1000002, 0)]
def Sys2Proof.Claims.ofIntCases : List (Int × Nat × BitVec 5) :=
  [(0, 0, 0), (-1, 0xBF800000, 0), (0x1000001, 0x4B800000, 1), (0x1000003, 0x4B800002, 1), (2 ^ 63 - 1, 0x5F000000, 1),
   (-2 ^ 63, 0xDF000000, 0)]

/-- R92 to R95: the FP32 members that are not long-latency: the low halves of the sources are operated on, the flags are
set at issue, and the result is zero-extended. Of their functions: a NaN operand gives the canonical NaN, or to `fmin` and `fmax` the
other operand, and to a comparison 0, NV where one is signalling (to `flt` and `fle` by any); what a finite number makes of an
infinity and of its own negation; and the particular values and flags of the tables. -/
def Obligations.Fp32Completes : Prop :=
  (∀ x y : Nat, x < 2 ^ 32 → y < 2 ^ 32 →
    let nv : BitVec 5 := if isSNan x ∨ isSNan y then 16 else 0
    ((isNan x ∨ isNan y) → (∀ f ∈ [fpAdd, fpSub, fpMul], f x y = (0x7FC00000, nv)) ∧ fpEq x y = (0, nv) ∧
      fpLt x y = (0, 16) ∧ fpLe x y = (0, 16) ∧
      ∀ f ∈ [fpMin, fpMax], f x y = (if isNan x ∧ isNan y then 0x7FC00000 else if isNan x then y else x, nv)) ∧
    (y % 2 ^ 31 < 0x7F800000 → ∀ z ∈ [0x7F800000, 0xFF800000], fpAdd z y = (z, 0) ∧ fpAdd y z = (z, 0) ∧ fpSub z y = (z, 0)) ∧
    (0 < x → x < 0x7F800000 → fpAdd x (x + 2 ^ 31) = (0, 0) ∧ fpAdd (x + 2 ^ 31) x = (0, 0) ∧ fpSub x x = (0, 0)) ∧
    (isNan x → ∀ a : Word, a.toNat % 2 ^ 32 = x → ∀ e ∈ convertTable.take 1, e.2 a = (0, 16))) ∧
  (∀ e ∈ fpCases, ∀ q ∈ e.2, e.1 q.1 q.2.1 = q.2.2) ∧
  (∀ e ∈ convertTable.take 1, ∀ q ∈ toIntCases, e.2 (BitVec.ofNat 64 q.1) = (BitVec.ofInt 64 q.2.1, q.2.2)) ∧
  (∀ e ∈ convertTable.drop 1, ∀ q ∈ ofIntCases, e.2 (BitVec.ofInt 64 q.1) = (BitVec.ofNat 64 q.2.1, q.2.2)) ∧
  ∀ (d a b : Reg) (s : State) (pid : Nat) (k : Key) (w : IWord) (t : Option Tcw) (x : Strand) (va vb : Word)
    (c1 c2 : Core),
    InHand s pid k w t x → MayIssue x [d] false → Reads s.plat s.core a va c1 → Room s.plat s.core d →
    (∀ e ∈ fpBinaryTable, Reads s.plat c1 b vb c2 → Room s.plat c2 d →
      let r := e.2 (va.toNat % 2 ^ 32) (vb.toNat % 2 ^ 32)
      ∃ c3, Retires s.plat k (c2.updStrand k fun y => { y with fpflags := y.fpflags ||| r.2 }) d (wordOf r.1) c3 ∧
        exec (e.1 d a b) s = .next { s with core := c3 }) ∧
    (∀ e ∈ convertTable, Room s.plat c1 d →
      ∃ c3, Retires s.plat k (c1.updStrand k fun y => { y with fpflags := y.fpflags ||| (e.2 va).2 }) d (e.2 va).1 c3 ∧
        exec (e.1 d a) s = .next { s with core := c3 })

/-! ### Control flow -/

/-- R96, R97: a branch whose condition holds goes to pc + 4 × offset, an active loop ending where the target lies outside
its body; any other goes on; a target outside the address space is a SEG trap at the branch. -/
def Obligations.BranchesComplete : Prop :=
  ∀ (s : State) (pid : Nat) (k : Key) (w : IWord) (t : Option Tcw) (x : Strand) (off : BitVec 13) (i : Instr)
    (va vb : Word) (c : Core) (cond : Prop),
    InHand s pid k w t x → MayIssue x [] false →
    ((∃ a b c1, ∃ e ∈ branchTable, Reads s.plat s.core a va c1 ∧ Reads s.plat c1 b vb c ∧ i = e.1 a b off ∧
        cond = e.2 va vb) ∨
      (∃ a imm, ∃ e ∈ branchImmTable, Reads s.plat s.core a va c ∧ vb = imm.signExtend 64 ∧ i = e.1 a imm off ∧
        cond = e.2 va vb)) →
    (¬ cond → exec i s = .next { s with core := c.passed k }) ∧
    (∀ tgt : Int, tgt = (x.pc.toNat : Int) + off.toInt * 4 → cond →
      (0 ≤ tgt → tgt ≤ 2 ^ 64 - 4 → tgt % 4 = 0 →
        exec i s = .next { s with core := c.updStrand k fun y => y.issued.transferTo (BitVec.ofInt 64 tgt) }) ∧
      (tgt < 0 ∨ 2 ^ 64 - 4 < tgt →
        exec i s = .next { s with core := raiseTrap s.plat k causeSeg 0 x.pc x.pc s.core }))

/-- R98: `j` and `jl` are majors 0x0E and 0x0F with a 26-bit offset, `jr` and `jlr` minors 0 and 1 of major 0x10 whose other
fields are zero. `j` and `jl` go to pc + 4 × offset, `jr` and `jlr` to a register's value; `jl` leaves the address of the next
instruction in `g15`, and `jlr` in rd, whose old value, where it is the source too, is the target. A target outside the
address space is a SEG trap with the pc, and one that is no multiple of four an ALIGN trap with the target; a trap leaves the
link register unwritten. A transfer is one instruction of a lookahead window. -/
def Obligations.JumpsComplete : Prop :=
  (∀ off : BitVec 26, decodeWord (0x38000000#32 + off.zeroExtend 32) = .ok (.j off) ∧
    decodeWord (0x3C000000#32 + off.zeroExtend 32) = .ok (.jl off)) ∧
  (∀ d a : Reg, ((Instr.jr a).wf = true → decodeWord (0x40000000#32 + a.code.zeroExtend 32 * 0x10000) = .ok (.jr a)) ∧
    ((Instr.jlr d a).wf = true →
      decodeWord (0x40000010#32 + d.code.zeroExtend 32 * 0x200000 + a.code.zeroExtend 32 * 0x10000) = .ok (.jlr d a))) ∧
  (∀ w : IWord, fieldAt 26 6 w = 0x10#6 →
    (fieldAt 11 5 w ≠ 0 ∨ fieldAt 0 4 w ≠ 0 ∨ 1 < (fieldAt 4 7 w).toNat ∨ fieldAt 4 7 w = 0 ∧ fieldAt 21 5 w ≠ 0) →
    ∃ e, decodeWord w = .error e) ∧
  ∀ (s : State) (pid : Nat) (k : Key) (w : IWord) (t : Option Tcw) (x : Strand), InHand s pid k w t x →
    (∀ off : BitVec 26, ∀ tgt : Int, tgt = (x.pc.toNat : Int) + off.toInt * 4 →
      (0 ≤ tgt → tgt ≤ 2 ^ 64 - 4 → tgt % 4 = 0 →
        (MayIssue x [] false →
          exec (.j off) s =
            .next { s with core := s.core.updStrand k fun y => y.issued.transferTo (BitVec.ofInt 64 tgt) }) ∧
        (MayIssue x [.g 15] false →
          exec (.jl off) s = .next { s with core := (updRegs k (fun y => y.setReg 15 (x.pc + 4) true .plain)
            (s.core.updStrand k fun y => y.issued.transferTo (BitVec.ofInt 64 tgt))) })) ∧
      (tgt < 0 ∨ 2 ^ 64 - 4 < tgt →
        (MayIssue x [] false →
          exec (.j off) s = .next { s with core := raiseTrap s.plat k causeSeg 0 x.pc x.pc s.core }) ∧
        (MayIssue x [.g 15] false →
          exec (.jl off) s = .next { s with core := raiseTrap s.plat k causeSeg 0 x.pc x.pc s.core }))) ∧
    (∀ a va c1, Reads s.plat s.core a va c1 →
      (va.toNat % 4 = 0 →
        (MayIssue x [] false →
          exec (.jr a) s = .next { s with core := c1.updStrand k fun y => y.issued.transferTo va }) ∧
        (∀ d, MayIssue x [d] false → Room s.plat s.core d → Room s.plat c1 d →
          ∃ c2, writeReg d (x.pc + 4) s.plat (c1.updStrand k fun y => y.issued.transferTo va) = .ok ((), c2) ∧
            exec (.jlr d a) s = .next { s with core := c2 })) ∧
      (∀ cause value, (2 ^ 64 - 4 < va.toNat ∧ cause = causeSeg ∧ value = x.pc ∨
          va.toNat < 2 ^ 64 - 4 ∧ va.toNat % 4 ≠ 0 ∧ cause = causeAlign ∧ value = va) →
        (MayIssue x [] false →
          exec (.jr a) s = .next { s with core := raiseTrap s.plat k cause 0 value x.pc s.core }) ∧
        (∀ d, MayIssue x [d] false → Room s.plat s.core d →
          exec (.jlr d a) s = .next { s with core := raiseTrap s.plat k cause 0 value x.pc s.core })))

/-- R99, R100: a loop whose count is not zero begins with its body after the instruction; one whose count is zero skips it;
within an active loop the instruction is a LOOP trap, before the lookahead check. Past the
last instruction of the body the pc goes back to its start while the count is above one, and else the loop ends. The loop's end and
the pc of a loop of count 0 are taken modulo 2^64: the model's choice (assumption log 102). -/
def Obligations.LoopsComplete : Prop :=
  (∀ (s : State) (pid : Nat) (k : Key) (w : IWord) (t : Option Tcw) (x : Strand) (len : BitVec 16) (i : Instr)
    (n : Word) (c : Core),
    InHand s pid k w t x →
    ((∃ a, i = .loop a len ∧ Reads s.plat s.core a n c) ∨ (∃ m : BitVec 10, i = .loopi m len ∧ n = m.zeroExtend 64 ∧ c = s.core)) →
    (x.looping = true → exec i s = .next { s with core := raiseTrap s.plat k causeLoop 0 x.loopEnd x.pc s.core }) ∧
    (x.looping = false → MayIssue x [] false →
      (n = 0 → exec i s = .next { s with core := (c.updStrand k fun y =>
        { y.issued with pc := x.pc + 4 + 4 * len.zeroExtend 64 }) }) ∧
      (n ≠ 0 → exec i s = .next { s with core := (c.updStrand k fun y =>
        { y.issued with pc := x.pc + 4, loopStart := x.pc + 4, loopEnd := x.pc + 4 + 4 * len.zeroExtend 64
                        loopCount := n, mode := y.mode ||| 4 }) }))) ∧
  (∀ (x : Strand) (size : Nat), x.dropped = none → x.mode.getLsbD 2 = true → x.pc + BitVec.ofNat 64 size = x.loopEnd →
    (1 < x.loopCount.toNat →
      x.advance size = { x with loopCount := x.loopCount - 1, pc := x.loopStart }) ∧
    (x.loopCount.toNat ≤ 1 →
      x.advance size = { x with loopCount := 0, pc := x.loopEnd, mode := x.mode &&& ~~~4 }))

/-! ### Loads and stores -/

/-- The second part of an access's offset added to its base (R104). -/
def Sys2Proof.Claims.OffsetIs (base : Word) (add : Int) (off : Nat) : Prop :=
  (off : Int) = (base.toNat : Int) + add ∧ off < 2 ^ 64

/-- R104, R107: a load issues where its operands can be read, its segment grants it and the access is performed: what it
brings, extended, is its destination's at completion, or a POISON is. From an ordinary cell of memory it brings the bytes
stored there, lowest first, and the station's L1 has the line, if it is good; where the L1 has it already, it brings the
bytes that the L1 holds (R379), unless another station holds the line as a PIN line (R166); an own access of before that is on its
way has it wait (R159).
What the specification leaves open here is the model's: assumption log 6. -/
def Obligations.LoadsComplete : Prop :=
  ∀ (s : State) (pid : Nat) (k : Key) (w : IWord) (t : Option Tcw) (x : Strand) (v : Reg) (n : Seg) (la : BitVec 4)
    (i : Instr) (size : Nat) (signed : Bool) (c1 c2 : Core) (va : Nat) (r : Loaded),
    InHand s pid k w t x → MayIssue x [v] true →
    (∃ a base off, ((∃ e ∈ loadTable, ∃ o : BitVec 9, i = e.1 v a n o la ∧ e.2 = (size, signed) ∧
          Reads s.plat s.core a base c1 ∧ OffsetIs base (o.toInt * size) off) ∨
        (∃ e ∈ loadIndexTable, ∃ b idx c0, i = e.1 v a b n la ∧ e.2 = (size, signed) ∧
          Reads s.plat s.core a base c0 ∧ Reads s.plat c0 b idx c1 ∧ OffsetIs base (idx.toInt * size) off)) ∧
      reach n off size 1 s.plat c1 = .ok (va, c1)) →
    (loadAt x.party va size s.plat c1 = .ok (r, c2) →
      exec i s = .next { s with core := (c2.passedLong k v la
        (match r.poison with | none => .value (extended size signed r.value) 0 | some a => .poison a)) }) ∧
    (∀ pa, NothingSent c1 k → PlainCell s.plat c1 x.key.job va 1 size pa c2 → layerGone s.plat pa = false →
      (l1Find (c1.station x.station) x.key.job va = none →
        exec i s = .next { s with core := ((touchL1 s.plat x.party va pa c2).passedLong k v la
          (if c2.mem.isPoison pa then .poison (va / 8 * 8)
           else .value (extended size signed (c2.mem.read pa size)) 0)) }) ∧
      (∀ y, l1Find (c1.station x.station) x.key.job va = some y →
        (∀ h ∈ c1.pins, h.job = x.key.job → h.vline = va / 64 → h.station = x.station) →
        exec i s = .next { s with core := ((c1.updStation x.station fun z => { z with l1 := l1Insert y z.l1 }).passedLong k v la
          (.value (extended size signed (y.data.toNat / 2 ^ (8 * (va % 32)) % 2 ^ (8 * size))) 0)) }))

/-- R107: a store issues where its operands can be read, value first, its segment grants it and the access is performed,
and writes no register. That it is performed at the instruction's issue is the model's: assumption log 6. -/
def Obligations.StoresComplete : Prop :=
  ∀ (s : State) (pid : Nat) (k : Key) (w : IWord) (t : Option Tcw) (x : Strand) (v : Reg) (n : Seg) (i : Instr)
    (size : Nat) (value : Word) (c1 c2 : Core) (va : Nat),
    InHand s pid k w t x → MayIssue x [] false →
    (∃ a base off c0, Reads s.plat s.core v value c0 ∧
      ((∃ e ∈ storeTable, ∃ o : BitVec 9, i = e.1 v a n o ∧ e.2 = size ∧
          Reads s.plat c0 a base c1 ∧ OffsetIs base (o.toInt * size) off) ∨
        (∃ e ∈ storeIndexTable, ∃ b idx c', i = e.1 v a b n ∧ e.2 = size ∧
          Reads s.plat c0 a base c' ∧ Reads s.plat c' b idx c1 ∧ OffsetIs base (idx.toInt * size) off)) ∧
      reach n off size 2 s.plat c1 = .ok (va, c1)) →
    storeAt x.party va size ((value.truncate (8 * size)).zeroExtend 64) s.plat c1 = .ok ((), c2) →
    exec i s = .next { s with core := c2.passed k }

/-- R105 to R108 with R4: a store of `size` bytes to an ordinary cell of memory is performed, and writes exactly those
bytes, lowest first: every other byte outside its job's write log (R365), which takes what the line held where another task has written
it, reads as it did once the home was reached, and as before where no line of L2 has a writer whose log could take it; and so does
every full/empty bit.
What the specification leaves open here is the model's: assumption log 6. -/
def Obligations.StoreWritesItsBytes : Prop :=
  ∀ (p : Platform) (c c1 : Core) (pt : Party) (va size pa : Nat) (v : Word),
    c.mem.wf = true → size ∈ [1, 2, 4, 8] → va % size = 0 → pa % 64 = va % 64 →
    NothingOwn c pt → PlainCell p c pt.job va 2 size pa c1 → layerGone p pa = false → (size = 8 ∨ c1.mem.isPoison pa = false) →
    ∃ c2, storeAt pt va size v p c = .ok ((), c2) ∧
      (∀ j < size, c2.mem.byte (pa + j) = (v >>> (8 * j)).truncate 8) ∧
      (∀ a, a < pa ∨ pa + size ≤ a → ¬ inLog p c1 pt.job a → c2.mem.byte a = c1.mem.byte a) ∧
      ((∀ l ∈ c.l2, l.task = none) → ∀ a, a < pa ∨ pa + size ≤ a → c2.mem.byte a = c.mem.byte a) ∧
      c2.mem.full = c.mem.full

/-- A sized load (kind 1) or store (kind 2) of `size` bytes through segment `n` that lookahead lets issue and whose operands can be
read, in its displacement and its indexed form, with the two parts of its offset (R104, R107). -/
def Sys2Proof.Claims.SizedAccess (s : State) (x : Strand) (n : Seg) (i : Instr) (size kind : Nat) (base : Word) (add : Int) :
    Prop :=
  (kind = 1 ∧ ∃ r la, MayIssue x [r] true ∧
    ((∃ e ∈ loadTable, ∃ a c1, ∃ o : BitVec 9, i = e.1 r a n o la ∧ e.2.1 = size ∧ add = o.toInt * size ∧
        Reads s.plat s.core a base c1) ∨
      (∃ e ∈ loadIndexTable, ∃ a b idx c0 c1, i = e.1 r a b n la ∧ e.2.1 = size ∧ add = idx.toInt * size ∧
        Reads s.plat s.core a base c0 ∧ Reads s.plat c0 b idx c1))) ∨
  (kind = 2 ∧ MayIssue x [] false ∧ ∃ r value c0, Reads s.plat s.core r value c0 ∧
    ((∃ e ∈ storeTable, ∃ a c1, ∃ o : BitVec 9, i = e.1 r a n o ∧ e.2 = size ∧ add = o.toInt * size ∧
        Reads s.plat c0 a base c1) ∨
      (∃ e ∈ storeIndexTable, ∃ a b idx c' c1, i = e.1 r a b n ∧ e.2 = size ∧ add = idx.toInt * size ∧
        Reads s.plat c0 a base c' ∧ Reads s.plat c' b idx c1)))

/-- The core in which an access of the instruction in hand leaves its strand when the access itself makes it wait or trap: `c1` is
the core in which it was made, and the line of its address has been reached at its home (R150, R223, R379). -/
def Sys2Proof.Claims.Reached (s : State) (x : Strand) (req : MemReq) (c1 c : Core) : Prop :=
  c.strand? x.key = some x ∧
  c = (match reachedBy x.party req c1 with | some va => reachedLine s.plat x.key.job va s.core | none => s.core)

/-- R83, R131: what `Translate` gives: the checks in order, rights and mode first, then the limit, then a canonical address,
then its alignment, and that a segment without SYS reaches no management block (R363); and the virtual address where all
pass. A failing check of a load's or store's translation, in its displacement and its indexed form, is the trap
that it names, and so is an offset below 0 or above 2^64 - 1, a SEG trap with the offset modulo 2^64 (R104); nothing is written or
loaded. The trap at a management block is the model's: assumption log 89. -/
def Obligations.TranslationChecks : Prop :=
  (∀ (d : SegDesc) (off size kind : Nat) (sup : Bool), 1 ≤ size → off < 2 ^ 64 → kind ∈ [1, 2, 3, 4] →
    (translateSeg d off size kind sup =
      if (kind = 1 ∨ kind = 3) ∧ d.rights.getLsbD 0 = false ∨ (kind = 2 ∨ kind = 3) ∧ d.rights.getLsbD 1 = false ∨
          kind = 4 ∧ d.rights.getLsbD 2 = false ∨ d.rights.getLsbD 5 = true ∧ sup = false ∨
          d.limit.toNat < off + size ∨ 2 ^ 64 - 1 < off + size then .error (causeSeg, off)
      else if 2 ^ 64 ≤ d.base.toNat + off ∨ canonical (d.base.toNat + off) = false then
        .error (causeCanon, (d.base.toNat + off) % 2 ^ 64)
      else if (d.base.toNat + off) % size ≠ 0 then .error (causeAlign, d.base.toNat + off)
      else if mgmtMeets (d.base.toNat + off) size = true ∧ d.rights.getLsbD 5 = false then .error (causeSeg, off)
      else .ok (d.base.toNat + off))) ∧
  (∀ (s : State) (pid : Nat) (k : Key) (w : IWord) (t : Option Tcw) (x : Strand) (n : Seg) (size kind : Nat) (i : Instr)
    (base : Word) (add : Int),
    InHand s pid k w t x → Claims.SizedAccess s x n i size kind base add →
    (∀ off cause v, OffsetIs base add off →
      x.lines.contains ((0x180 + 24 * n.val) / 64) = true → x.lines.contains ((0x180 + 24 * n.val + 23) / 64) = true →
      x.badLines = [] → translateSeg x.segs[n] off size kind x.sup = .error (cause, v) →
      exec i s = .next { s with core := raiseTrap s.plat k cause 0 (BitVec.ofNat 64 v) x.pc s.core }) ∧
    ((base.toNat : Int) + add < 0 ∨ 2 ^ 64 ≤ (base.toNat : Int) + add →
      exec i s = .next { s with core := raiseTrap s.plat k causeSeg 0 (BitVec.ofInt 64 ((base.toNat : Int) + add)) x.pc s.core }))

/-! ### Full/empty words and atomics -/

/-- R111, R113, R114: full/empty loads, `feprobe`, stores and the other minors, where the access is performed; the
register's own bit, written by `rempty` and read by `rprobe`. That the access is performed, and its value fixed, at the issue is the
model's: assumption log 6. -/
def Obligations.FullEmptyCompletes : Prop :=
  ∀ (s : State) (pid : Nat) (k : Key) (w : IWord) (t : Option Tcw) (x : Strand) (n : Seg) (r : Loaded)
    (c1 c2 : Core) (va off : Nat) (base : Word),
    InHand s pid k w t x →
    (∀ e ∈ [(Instr.ldf, FeOp.ldf), (.ldfe, .ldfe)], ∀ v a (o : BitVec 6) scope la,
      MayIssue x [v] true → Reads s.plat s.core a base c1 → OffsetIs base (o.toInt * 8) off →
      reach n off 8 e.2.kind s.plat c1 = .ok (va, c1) → feAt x.party e.2 va 0 scope s.plat c1 = .ok (r, c2) →
      exec (e.1 v a n o scope la) s = .next { s with core := (c2.passedLong k v la
        (match r.poison with | none => .value (BitVec.ofNat 64 r.value) 0 | some q => .poison q)) }) ∧
    (∀ e ∈ [(Instr.stef, FeOp.stef), (.stf, .stf)], ∀ v a (o : BitVec 6) scope value c0,
      MayIssue x [] false → Reads s.plat s.core a base c0 → Reads s.plat c0 v value c1 → OffsetIs base (o.toInt * 8) off →
      reach n off 8 2 s.plat c1 = .ok (va, c1) → feAt x.party e.2 va value scope s.plat c1 = .ok (r, c2) →
      exec (e.1 v a n o scope) s = .next { s with core := c2.passed k }) ∧
    (∀ a b idx c0, Reads s.plat s.core a base c0 → Reads s.plat c0 b idx c1 → OffsetIs base (idx.toInt * 8) off →
      (∀ d la, MayIssue x [d] true → reach n off 8 1 s.plat c1 = .ok (va, c1) →
        feAt x.party .probe va 0 .station s.plat c1 = .ok (r, c2) →
        exec (.feprobe d a b n la) s = .next { s with core := (c2.passedLong k d la
          (match r.poison with | none => .value (BitVec.ofNat 64 r.value) 0 | some q => .poison q)) }) ∧
      (∀ e ∈ [(Instr.feset, FeOp.set), (.feclr, .clr), (.fewait, .wait), (.fewaite, .waite)], MayIssue x [] false →
        reach n off 8 e.2.kind s.plat c1 = .ok (va, c1) → feAt x.party e.2 va 0 .station s.plat c1 = .ok (r, c2) →
        exec (e.1 a b n) s = .next { s with core := c2.passed k })) ∧
    (∀ m : Fin 16, MayIssue x [.g m] false →
      exec (.rempty m) s = .next { s with core := (updRegs k (fun y => y.setBit m false) s.core).passed k }) ∧
    (∀ d (m : Fin 16), MayIssue x [d] false → Room s.plat s.core d →
      ∃ c3, Retires s.plat k s.core d (if x.mask.getLsbD m.val then 1 else 0) c3 ∧
        exec (.rprobe d m) s = .next { s with core := c3 })

/-- What a full/empty operation leaves of a word of memory at `pa`, whose bit was `full`: its value and its bit; every other
byte, and the bit of every other word, as before; and the strands that wait for a bit that has changed woken (R112). -/
def Sys2Proof.Claims.FeLeaves (c1 c2 : Core) (pa : Nat) (full : Bool) (value : Word) (bit : Bool) : Prop :=
  c2.mem.read64 pa = value ∧ c2.mem.isFull pa = bit ∧
  (∀ a, a < pa ∨ pa + 8 ≤ a → c2.mem.byte a = c1.mem.byte a) ∧
  (∀ a, a / 8 ≠ pa / 8 → c2.mem.isFull a = c1.mem.isFull a) ∧
  c2.wakes = c1.wakes ++ (if bit = full then [] else
    (waitersOf c1 (.feWord pa bit)).map fun x => ⟨x.key, some (.feWord pa bit), false⟩)

/-- R111 to R113: what each full/empty operation does to an ordinary word of memory that is full or empty: it waits, or gives
its result and leaves the word and its bit as the rule says: `stef` and `stf` store a value and make it full, `ldfe`, `feset`
and `feclr` change the bit alone, and the others nothing. Every other word stays, and a change of the bit wakes the strands
that wait for it. That they are those of the physical word, whatever its virtual names, is the model's: assumption log 23. -/
def Obligations.FullEmptyWords : Prop :=
  ∀ (p : Platform) (c c1 : Core) (pt : Party) (op : FeOp) (va pa : Nat) (v old : Word) (scope : Scope) (full : Bool),
    c.mem.wf = true → pa % 8 = 0 → va % 64 = pa % 64 → PlainCell p c pt.job va op.kind 8 pa c1 → layerGone p pa = false →
    c1.mem.linePoison pa = false → c1.mem.isFull pa = full → c1.mem.read64 pa = old →
    (∀ e ∈ c1.scopes, ¬ (e.job = pt.job ∧ e.vline = va / 64) ∧ ¬ (e.job = deviceJob ∧ e.vline = pa / 64)) →
    (∀ l ∈ c1.l2, l.task = none ∨ l.task = some pt.task) → Claims.NothingOwn c pt →
    match op, full with
    | .ldf, true => ∃ c2, feAt pt op va v scope p c = .ok (⟨old.toNat, none⟩, c2) ∧ Claims.FeLeaves c1 c2 pa full old true
    | .ldfe, true => ∃ c2, feAt pt op va v scope p c = .ok (⟨old.toNat, none⟩, c2) ∧ Claims.FeLeaves c1 c2 pa full old false
    | .ldf, false | .ldfe, false | .wait, false => feAt pt op va v scope p c = .error (.park (.feWord pa true))
    | .stef, true | .waite, true => feAt pt op va v scope p c = .error (.park (.feWord pa false))
    | .stef, false | .stf, _ => ∃ c2, feAt pt op va v scope p c = .ok (⟨0, none⟩, c2) ∧ Claims.FeLeaves c1 c2 pa full v true
    | .probe, b => ∃ c2, feAt pt op va v scope p c = .ok (⟨if b then 1 else 0, none⟩, c2) ∧
        Claims.FeLeaves c1 c2 pa full old b
    | .set, _ => ∃ c2, feAt pt op va v scope p c = .ok (⟨0, none⟩, c2) ∧ Claims.FeLeaves c1 c2 pa full old true
    | .clr, _ => ∃ c2, feAt pt op va v scope p c = .ok (⟨0, none⟩, c2) ∧ Claims.FeLeaves c1 c2 pa full old false
    | .wait, true | .waite, false => ∃ c2, feAt pt op va v scope p c = .ok (⟨0, none⟩, c2) ∧
        Claims.FeLeaves c1 c2 pa full old full

/-- The atomics, with their operation, their size and the value that the word takes; none where nothing is written
(R116). -/
def Sys2Proof.Claims.atomicTable :
    List ((Reg → Reg → Reg → Seg → MemOrd → AScope → Instr) × AmoOp × Nat × (Nat → Nat → Nat → Option Nat)) :=
  let signed (n x : Nat) : Int := (BitVec.ofNat n x).toInt
  [(.amoDSwap, .swap, 8, fun _ b _ => some b), (.amoDAdd, .add, 8, fun o b _ => some ((o + b) % 2 ^ 64)),
   (.amoDAnd, .and, 8, fun o b _ => some (o &&& b)), (.amoDOr, .or, 8, fun o b _ => some (o ||| b)),
   (.amoDXor, .xor, 8, fun o b _ => some (o ^^^ b)),
   (.amoDMin, .min, 8, fun o b _ => some (if signed 64 o < signed 64 b then o else b)),
   (.amoDMax, .max, 8, fun o b _ => some (if signed 64 b < signed 64 o then o else b)),
   (.amoDMinz, .minz, 8, fun o b _ => some (if o < b then o else b)),
   (.amoDMaxz, .maxz, 8, fun o b _ => some (if b < o then o else b)),
   (.amoDCas, .cas, 8, fun o b e => if o = e then some b else none),
   (.amoDInc, .inc, 8, fun o b _ => some (if b ≤ o then 0 else o + 1)),
   (.amoWSwap, .swap, 4, fun _ b _ => some b), (.amoWAdd, .add, 4, fun o b _ => some ((o + b) % 2 ^ 32)),
   (.amoWAnd, .and, 4, fun o b _ => some (o &&& b)), (.amoWOr, .or, 4, fun o b _ => some (o ||| b)),
   (.amoWXor, .xor, 4, fun o b _ => some (o ^^^ b)),
   (.amoWMin, .min, 4, fun o b _ => some (if signed 32 o < signed 32 b then o else b)),
   (.amoWMax, .max, 4, fun o b _ => some (if signed 32 b < signed 32 o then o else b)),
   (.amoWMinz, .minz, 4, fun o b _ => some (if o < b then o else b)),
   (.amoWMaxz, .maxz, 4, fun o b _ => some (if b < o then o else b)),
   (.amoWCas, .cas, 4, fun o b e => if o = e then some b else none),
   (.amoWFadd, .fadd, 4, fun o b _ => some (f32Add o b)),
   (.amoWInc, .inc, 4, fun o b _ => some (if b ≤ o then 0 else o + 1))]

/-- R61, R116: an atomic reads rd for `cas` only, then ra, then rb; where the access is performed rd takes the old value,
zero-extended. -/
def Obligations.AtomicsComplete : Prop :=
  ∀ e ∈ atomicTable, ∀ (s : State) (pid : Nat) (k : Key) (w : IWord) (t : Option Tcw) (x : Strand) (d a b : Reg)
    (n : Seg) (ord : MemOrd) (scope : AScope) (ev bv base : Word) (c0 c1 c2 c3 : Core) (va old : Nat),
    InHand s pid k w t x → MayIssue x [d] false →
    (if e.2.1 = .cas then Reads s.plat s.core d ev c0 else ev = 0 ∧ c0 = s.core) →
    Reads s.plat c0 a base c1 → Reads s.plat c1 b bv c2 → Room s.plat s.core d →
    reach n base.toNat e.2.2.1 3 s.plat c2 = .ok (va, c2) →
    amoAt x.party e.2.1 va e.2.2.1 (bv.toNat % 2 ^ (8 * e.2.2.1)) (ev.toNat % 2 ^ (8 * e.2.2.1)) ord scope s.plat c2 =
      .ok (⟨old, none⟩, c3) →
    Room s.plat c3 d →
    ∃ c4, Retires s.plat k c3 d (BitVec.ofNat 64 (old % 2 ^ (8 * e.2.2.1))) c4 ∧
      exec (e.1 d a b n ord scope) s = .next { s with core := c4 }

/-- R116, R106: on an ordinary cell of memory a relaxed atomic gives the old value and leaves the new one, or the cell as
it was where there is no new one; the word's full/empty bit is unchanged. -/
def Obligations.AtomicsOnMemory : Prop :=
  ∀ e ∈ atomicTable, ∀ (p : Platform) (c c1 : Core) (pt : Party) (va pa b ev : Nat) (scope : AScope),
    c.mem.wf = true → NothingOwn c pt → PlainCell p c pt.job va 3 e.2.2.1 pa c1 → layerGone p pa = false → c1.mem.isPoison pa = false →
    b < 2 ^ (8 * e.2.2.1) → ev < 2 ^ (8 * e.2.2.1) → ¬ inLog p c1 pt.job pa →
    (∀ l ∈ c1.l2, l.task = none ∨ l.task = some pt.task) →
    ∃ c2, amoAt pt e.2.1 va e.2.2.1 b ev .relaxed scope p c = .ok (⟨c1.mem.read pa e.2.2.1, none⟩, c2) ∧
      c2.mem.full = c.mem.full ∧
      c2.mem.read pa e.2.2.1 = (e.2.2.2 (c1.mem.read pa e.2.2.1) b ev).getD (c1.mem.read pa e.2.2.1)

/-! ### Fences, segments and the stash -/

/-- The lines of the context record that hold a segment's descriptor have arrived and are good (R44). -/
def Sys2Proof.Claims.SegReady (x : Strand) (n : Seg) : Prop :=
  ∀ o ∈ [0x180 + 24 * n.val, 0x180 + 24 * n.val + 23], x.lines.contains (o / 64) = true ∧ x.badLines.contains (o / 64) = false

/-- R118, R170, R313, R380: with nothing outstanding a fence completes; a fence at system scope orders the apertures of a
cell, which is nothing where no station holds a copy, and a release or full fence waits until nothing of the strand is
on its way. A fence with operations outstanding, or a `fence.eng` with engine commands outstanding, waits. A
`fence.eng` whose waits have ended takes the pending engine trap, with its cause and value, at the fence, and no trap is
pending afterwards.
What the specification leaves open here is the model's: assumption log 26. -/
def Obligations.FencesComplete : Prop :=
  (∀ (s : State) (pid : Nat) (k : Key) (w : IWord) (t : Option Tcw) (x : Strand) (scope : Scope) (c : Core),
    InHand s pid k w t x →
    (x.ops = [] →
      (∀ e ∈ [(false, Instr.fenceAcq scope, Instr.fenceEngAcq scope), (true, .fenceRel scope, .fenceEngRel scope),
          (true, .fence scope, .fenceEng scope)],
        fenceApertures e.1 scope s.plat (s.core.passed k) = .ok ((), c) → (e.1 = true → Claims.NothingSent s.core k) →
        exec e.2.1 s = .next { s with core := c } ∧
        (x.engines = 0 → x.fenceTrap = none → exec e.2.2 s = .next { s with core := c })) ∧
      (¬ Claims.NothingSent s.core k → ∀ i ∈ [Instr.fenceRel scope, .fence scope],
        exec i s = .next { s with core := s.core.setStrand { x with hold := .none } }) ∧
      (x.engines ≠ 0 → ∀ i ∈ [Instr.fenceEngAcq scope, .fenceEngRel scope, .fenceEng scope],
        exec i s = .next { s with core := s.core.setStrand { x with hold := .engines } })) ∧
    (x.ops ≠ [] → x.window ≠ 0 → ∀ i ∈ [Instr.fenceAcq scope, .fenceRel scope, .fence scope],
      exec i s = .next { s with core := s.core.setStrand { x with hold := .drain } }) ∧
    ((scope ≠ .system ∨ ∀ e ∈ s.core.stations, e.2.entries = [] ∧ e.2.l1 = []) →
      ∀ rel, fenceApertures rel scope s.plat (s.core.passed k) = .ok ((), s.core.passed k))) ∧
  (∀ (s : State) (pid : Nat) (k : Key) (w : IWord) (t : Option Tcw) (x : Strand) (scope : Scope),
    InHand s pid k w t x → x.sup = false → x.ops = [] → x.engines = 0 → x.engTrap.toNat % 256 ≠ 0 →
    ∀ i ∈ [Instr.fenceEngAcq scope, .fenceEngRel scope, .fenceEng scope],
      ∃ u y, exec i s = .next u ∧ u.core.strand? k = some y ∧ y.engTrap = 0 ∧ y.epc = x.pc ∧
        y.cause = BitVec.ofNat 64 (x.engTrap.toNat % 256) ∧ y.tval = x.engTval ∧ y.sup = true)

/-- R119, R120, R121: the segment instructions; `segnar` narrows within the limit and else traps with the new base offset,
and `segrgt` clears rights but keeps SYS. `segld` of a descriptor whose base is not canonical, or whose reserved fields are not zero, is
a SEG trap with the address, and no segment changes. A new base beyond 2^64 - 1 wraps: the model's choice (assumption log 73). -/
def Obligations.SegmentsComplete : Prop :=
  ∀ (s : State) (pid : Nat) (k : Key) (w : IWord) (t : Option Tcw) (x : Strand) (n : Seg) (a b d : Reg)
    (va vb : Word) (c1 c2 c3 : Core),
    InHand s pid k w t x → SegReady x n →
    (MayIssue x [] false → Reads s.plat s.core a va c1 →
      (Reads s.plat c1 b vb c2 →
        (va.toNat + vb.toNat ≤ x.segs[n].limit.toNat →
          exec (.segnar n a b) s = .next { s with core := (c2.updStrand k fun y =>
            { y with segs := y.segs.set n ⟨x.segs[n].base + va, vb, x.segs[n].rights⟩ }).passed k }) ∧
        (x.segs[n].limit.toNat < va.toNat + vb.toNat →
          exec (.segnar n a b) s = .next { s with core := raiseTrap s.plat k causeSeg 0 va x.pc s.core })) ∧
      exec (.segrgt n a) s = .next { s with core := (c1.updStrand k fun y =>
        { y with segs := y.segs.set n ⟨x.segs[n].base, x.segs[n].limit,
            (x.segs[n].rights &&& 0xFFFFFFC0#32) ||| (x.segs[n].rights &&& (va.truncate 32 &&& 0x3F#32)) |||
              (x.segs[n].rights &&& 0x20#32)⟩ }).passed k } ∧
      (x.sup = true → va.toNat % 8 = 0 → mgmtMeets va.toNat 24 = false → NothingSent s.core k →
        (∀ desc, loadDescriptor x.homeParty va.toNat s.plat c1 = .ok (some desc, c3) →
          exec (.segld n a) s = .next { s with core := (c3.updStrand k fun y =>
            { y with segs := y.segs.set n desc }).passed k }) ∧
        (∀ b l r c4 c5 c, loadAt x.homeParty va.toNat 8 s.plat c1 = .ok (⟨b, none⟩, c4) →
          loadAt x.homeParty (va.toNat + 8) 8 s.plat c4 = .ok (⟨l, none⟩, c5) →
          loadAt x.homeParty (va.toNat + 16) 8 s.plat c5 = .ok (⟨r, none⟩, c3) →
          canonical b = false ∨ r / 2 ^ 6 % 2 ^ 10 ≠ 0 ∨ r / 2 ^ 32 % 2 ^ 32 ≠ 0 →
          Claims.Reached s x (.segld n va.toNat) c1 c →
          exec (.segld n a) s = .next { s with core := raiseTrap s.plat k causeSeg 0 va x.pc c }) ∧
        (∀ r, segstAccess va.toNat x.segs[n] s.plat c1 = .ok (r, c3) →
          exec (.segst n a) s = .next { s with core := c3.passed k }))) ∧
    (MayIssue x [d] false → Room s.plat s.core d →
      ∀ e ∈ [(Instr.segbase d n, x.segs[n].base), (.seglim d n, x.segs[n].limit),
          (.segrd d n, x.segs[n].rights.zeroExtend 64)],
        ∃ c', Retires s.plat k s.core d e.2 c' ∧ exec e.1 s = .next { s with core := c' })

/-- What a station holds is quiet: no copy is landing in its stash, no entry of it is dirty, and no window or L1 copy of the
package differs from memory. -/
def Sys2Proof.Claims.Quiet (c : Core) (pid : Nat) : Prop :=
  (∀ i, landing c pid i = false) ∧ (∀ y ∈ (c.station pid).entries, y.dirty = 0) ∧
  ∀ z ∈ c.stations, (∀ y ∈ z.2.entries, entryStale c z.2 y = false) ∧ ∀ y ∈ z.2.l1, l1Stale c y = false

/-- An entry after `sunmap` (1), `sflush` (2) or `sinv` (3) of it, where it has nothing to write back: `sunmap` leaves it
unmapped, and `sinv` EMPTY (R178). -/
def Sys2Proof.Claims.entryAfter (op : Nat) (e : StashEntry) : StashEntry :=
  if e.mapped = none then e
  else if op = 1 then
    { e with mapped := none, valid := false, dirty := 0, writer := 0, span := none, full := 0, plines := []
             poison := if e.valid then e.poison else 0 }
  else if op = 2 then e
  else { e with valid := false, dirty := 0, writer := 0, full := 0, poison := 0, plines := [] }

/-- The word of `sprobe` (R172, R179): the mapped block's address at [55:8], SW and SPAN, LAND, DIRTY, VALID and MAPPED. -/
def Sys2Proof.Claims.probed (e : StashEntry) (land : Bool) : Word :=
  (match e.mapped with | some (_, va) => BitVec.ofNat 64 (va / 256 % 2 ^ 48 * 256) | none => 0) |||
  (match e.span with | some n => BitVec.ofNat 64 (128 + 16 * n.val) | none => 0) |||
  (if land then 8 else 0) ||| (if e.dirty ≠ 0 then 4 else 0) ||| (if e.valid then 2 else 0) ||| (if e.mapped ≠ none then 1 else 0)

/-- The traps of a stash range that is not empty: ALIGN with the offset, or else the length, that is no multiple of 256, and SEG
with the offset where the range passes the end of the stash (R174, R178). -/
def Sys2Proof.Claims.RangeTraps (s : State) (k : Key) (x : Strand) (i : Instr) (so len : Word) : Prop :=
  len ≠ 0 →
    (so.toNat % 256 ≠ 0 → exec i s = .next { s with core := raiseTrap s.plat k causeAlign 0 so x.pc s.core }) ∧
    (so.toNat % 256 = 0 → len.toNat % 256 ≠ 0 →
      exec i s = .next { s with core := raiseTrap s.plat k causeAlign 0 len x.pc s.core }) ∧
    (so.toNat % 256 = 0 → len.toNat % 256 = 0 → 2 ^ 20 < so.toNat + len.toNat →
      exec i s = .next { s with core := raiseTrap s.plat k causeSeg 0 so x.pc s.core })

/-- R172 to R179: the stash instructions; a length of zero does nothing, an offset or a length that is no multiple of 256 is
an ALIGN trap, and a range that passes the end of the stash a SEG trap; so is an `smap` that its segment does not allow, with R83's other traps for its first block, and CANON for its last byte.
`smap` of entries of which none is mapped and none has a copy landing into it leaves them EMPTY on the blocks; `sunmap`, `sflush` and `sinv` leave their
entries as their rules say; `sprobe` gives the state of an entry.
What the specification leaves open here is the model's: assumption log 64. -/
def Obligations.StashCompletes : Prop :=
  (∀ (s : State) (pid : Nat) (k : Key) (w : IWord) (t : Option Tcw) (x : Strand) (d a b : Reg) (n : Seg)
    (so va len : Word) (c1 c2 c3 c4 : Core),
    InHand s pid k w t x → MayIssue x [] false → Reads s.plat s.core d so c1 →
    (∀ e ∈ [(Instr.sunmap d b, 1), (.sflush d b, 2), (.sinv d b, 3)], Reads s.plat c1 b len c2 →
      (len = 0 → exec e.1 s = .next { s with core := c2.passed k }) ∧
      (len ≠ 0 → so.toNat % 256 = 0 → len.toNat % 256 = 0 → so.toNat + len.toNat ≤ 2 ^ 20 →
        (∀ u, stashOpAccess e.2 so.toNat len.toNat s.plat c2 = .ok (⟨u, none⟩, c3) →
          exec e.1 s = .next { s with core := c3.passed k }) ∧
        (Claims.Quiet c2 pid →
          ∃ u, exec e.1 s = .next u ∧ u.plat = s.plat ∧ u.core.mem = c2.mem ∧
            (∀ i, stashEntry (u.core.station pid) i =
              if i < so.toNat / 256 ∨ so.toNat / 256 + len.toNat / 256 ≤ i then stashEntry (c2.station pid) i
              else Claims.entryAfter e.2 (stashEntry (c2.station pid) i)) ∧
            (∀ o, stashBytes (u.core.station pid) o 1 =
              if so.toNat ≤ o ∧ o < so.toNat + len.toNat ∧ e.2 = 1 ∧
                  (stashEntry (c2.station pid) (o / 256)).mapped ≠ none ∧ (stashEntry (c2.station pid) (o / 256)).valid = false
              then [0] else stashBytes (c2.station pid) o 1))) ∧
      Claims.RangeTraps s k x e.1 so len) ∧
    (Reads s.plat c1 a va c2 → Reads s.plat c2 b len c3 →
      (len = 0 → exec (.smap d a b n) s = .next { s with core := c3.passed k }) ∧
      Claims.RangeTraps s k x (.smap d a b n) so len ∧
      (len ≠ 0 → so.toNat % 256 = 0 → len.toNat % 256 = 0 → so.toNat + len.toNat ≤ 2 ^ 20 → SegReady x n →
        (x.segs[n].rights.getLsbD 0 = false ∨ x.segs[n].rights.getLsbD 4 = false ∨
          x.segs[n].limit.toNat < va.toNat + len.toNat) →
        exec (.smap d a b n) s = .next { s with core := raiseTrap s.plat k causeSeg 0 va x.pc s.core }) ∧
      (len ≠ 0 → so.toNat % 256 = 0 → len.toNat % 256 = 0 → so.toNat + len.toNat ≤ 2 ^ 20 → SegReady x n →
        x.segs[n].rights.getLsbD 0 = true → x.segs[n].rights.getLsbD 4 = true →
        va.toNat + len.toNat ≤ x.segs[n].limit.toNat →
        (∀ cause v, translateSeg x.segs[n] va.toNat 256 1 x.sup = .error (cause, v) →
          exec (.smap d a b n) s = .next { s with core := raiseTrap s.plat k cause 0 (BitVec.ofNat 64 v) x.pc s.core }) ∧
        (∀ at', translateSeg x.segs[n] va.toNat 256 1 x.sup = .ok at' →
          (2 ^ 64 ≤ at' + len.toNat - 1 ∨ canonical (at' + len.toNat - 1) = false) → exec (.smap d a b n) s = .next { s with
            core := raiseTrap s.plat k causeCanon 0 (BitVec.ofNat 64 (at' + len.toNat - 1)) x.pc s.core })) ∧
      (len ≠ 0 → so.toNat % 256 = 0 → len.toNat % 256 = 0 → so.toNat + len.toNat ≤ 2 ^ 20 → SegReady x n →
        x.segs[n].rights.getLsbD 0 = true → x.segs[n].rights.getLsbD 4 = true →
        va.toNat + len.toNat ≤ x.segs[n].limit.toNat → (x.sup = true ∨ x.segs[n].rights.getLsbD 5 = false) →
        ∀ at', at' = x.segs[n].base.toNat + va.toNat → at' % 256 = 0 → at' + len.toNat ≤ 2 ^ 64 → canonical at' = true →
          canonical (at' + len.toNat - 1) = true →
          (mgmtMeets at' 256 = false ∨ x.segs[n].rights.getLsbD 5 = true) →
          (∀ r, smapAccess so.toNat at' len.toNat s.plat c3 = .ok (r, c4) →
            exec (.smap d a b n) s = .next { s with core := c4.passed k }) ∧
          ((∀ y ∈ (c3.station pid).entries, y.mapped = none) → (∀ i < len.toNat / 256, landing c3 pid (so.toNat / 256 + i) = false) →
            ∃ u, exec (.smap d a b n) s = .next u ∧ u.plat = s.plat ∧ u.core.mem = c3.mem ∧
              (u.core.station pid).stash = (c3.station pid).stash ∧
              ∀ i, stashEntry (u.core.station pid) i =
                if i < so.toNat / 256 ∨ so.toNat / 256 + len.toNat / 256 ≤ i then stashEntry (c3.station pid) i
                else ⟨i, some (k.job, at' + 256 * (i - so.toNat / 256)), false, 0, none, 0, 0, 0, []⟩)))) ∧
  (∀ (s : State) (pid : Nat) (k : Key) (w : IWord) (t : Option Tcw) (x : Strand) (d a : Reg) (o : Word) (c1 : Core),
    InHand s pid k w t x → MayIssue x [d] false → Reads s.plat s.core a o c1 → Room s.plat s.core d → Room s.plat c1 d →
    (o.toNat < 2 ^ 20 →
      ∃ c2, Retires s.plat k c1 d (Claims.probed (stashEntry (c1.station pid) (o.toNat / 256))
          (landing c1 pid (o.toNat / 256))) c2 ∧
        exec (.sprobe d a) s = .next { s with core := c2 }) ∧
    (2 ^ 20 ≤ o.toNat → exec (.sprobe d a) s = .next { s with core := raiseTrap s.plat k causeSeg 0 o x.pc s.core }))

/-! ### Messages and migration -/

/-- R123, R125, R126, R127: `msgt` sets the outbox target, `poll` counts the inbox, `qbind` binds the queue ports, and
`migrate` sends an unpinned strand to the station of the same place on the named die. As the last instruction of a body it loops back
as it issues: the model's choice (assumption log 109). -/
def Obligations.MessagesComplete : Prop :=
  ∀ (s : State) (pid : Nat) (k : Key) (w : IWord) (t : Option Tcw) (x : Strand) (a b d : Reg) (va vb : Word)
    (c1 c2 : Core),
    InHand s pid k w t x →
    (MayIssue x [] false → Reads s.plat s.core a va c1 →
      (Reads s.plat c1 b vb c2 →
        (va.toNat % 1024 = 0 → exec (.msgt a b) s = .next { s with core :=
          (c2.updStrand k fun y => { y with outTarget := va ||| (vb &&& 1) }).passed k }) ∧
        (va.toNat % 1024 ≠ 0 →
          exec (.msgt a b) s = .next { s with core := raiseTrap s.plat k causeAlign 0 va x.pc s.core }) ∧
        exec (.qbind a b) s = .next { s with core := (c2.updStrand k fun y => { y with
          qbind := BitVec.ofNat 8 ((if va.toNat < 8 then va.toNat + 8 else 0) +
            16 * (if vb.toNat < 8 then vb.toNat + 8 else 0)) }).passed k }) ∧
      (va.toNat ≤ 3 → (va.toNat = pid / 160 ∨ x.pinned = true) →
        exec (.migrate a) s = .next { s with core := c1.passed k }) ∧
      (va.toNat ≤ 3 → va.toNat ≠ pid / 160 → x.pinned = false →
        exec (.migrate a) s =
          .next { s with core := leaveTo s.plat k (.moving (va.toNat * 160 + pid % 160)) none (c1.passed k) }) ∧
      (3 < va.toNat → exec (.migrate a) s = .next { s with core := raiseTrap s.plat k causeIll 0 va x.pc s.core })) ∧
    (MayIssue x [d] false → Room s.plat s.core d →
      ∃ c', Retires s.plat k s.core d (BitVec.ofNat 64 (x.inHigh.count + 16 * x.inLow.count)) c' ∧
        exec (.poll d) s = .next { s with core := c' })

/-! ### Traps, system registers and the supervisor's instructions -/

/-- R138, R145: `trap` and `brk` with nothing outstanding, in user mode: the saved registers are written, the mode word is
saved, LOOP is cleared, IM and SUP are set, the pc is `k.tvec`, and nothing else of the machine changes. R140: either of a
strand in supervisor mode parks it, and a DOUBLE record goes to its die's supervisor queue; its saved registers stay. As the last
instruction of a body it saves the loop's end, with no loop-back: the model's choice (assumption log 120). -/
def Obligations.SoftwareTrapsEnter : Prop :=
  (∀ (s : State) (pid : Nat) (k : Key) (w : IWord) (t : Option Tcw) (x : Strand) (code : BitVec 8),
    InHand s pid k w t x → x.sup = false → x.ops = [] →
    ∀ e ∈ [(Instr.trap code, 0x0C), (.brk code, 0x0D)],
      exec e.1 s = .next { s with core := s.core.setStrand { x with
        cause := BitVec.ofNat 64 (e.2 + 256 * code.toNat), tval := 0, epc := x.pc + 4, opc := 0, lacount := 0
        savedMode := x.mode, mode := ((x.mode &&& ~~~4) ||| 8) ||| 1
        pc := BitVec.ofNat 64 (jobField s.plat s.core k.job 8), hold := .none, trapPend := none } }) ∧
  (∀ (s : State) (pid : Nat) (k : Key) (w : IWord) (t : Option Tcw) (x : Strand) (code : BitVec 8),
    InHand s pid k w t x → x.sup = true → x.ops = [] →
    ∀ e ∈ [(Instr.trap code, 0x0C), (.brk code, 0x0D)],
      exec e.1 s = .next { s with core := (supSend s.plat
        ⟨x.station / 160, 7, x.station, k.job, k.ctx, 0, [BitVec.ofNat 64 (e.2 + 256 * code.toNat), 0, x.pc]⟩
        (parkStrand s.plat k .double (s.core.setStrand { x with trapPend := none }))) })

/-- R139, R46: `eret` in supervisor mode restores the saved mode word and goes to `k.epc`; the PIN that it brings back stays
clear where twelve pinned strands hold slots of the station already. -/
def Obligations.EretReturns : Prop :=
  ∀ (s : State) (pid : Nat) (k : Key) (w : IWord) (t : Option Tcw) (x : Strand),
    InHand s pid k w t x → x.sup = true → x.ops = [] → x.lines.contains 9 = true → x.badLines.contains 9 = false →
    x.epc.toNat ≤ 2 ^ 64 - 4 → x.epc.toNat % 4 = 0 →
    ∃ u y, exec .eret s = .next u ∧ u.core.strand? k = some y ∧ y.pc = x.epc ∧ y.g = x.g ∧
      y.mask = x.mask ∧ y.epc = x.epc ∧ y.cause = x.cause ∧ y.tval = x.tval ∧ y.opc = x.opc ∧ u.plat = s.plat ∧
      ((x.savedMode.getLsbD 1 = true → x.pinned = true ∨ pinnedSlots s.core x.station < 12) →
        y.mode = x.savedMode ∧ u.core.mem = s.core.mem) ∧
      (∀ slot, x.savedMode.getLsbD 1 = true → x.pinned = false → x.place = .slotted slot → 12 ≤ pinnedSlots s.core x.station →
        y.mode = x.savedMode &&& ~~~2)

/-- R72, R73, R129, R131, R146: a privileged instruction, an `rsr` of a register that user mode cannot read or a `wsr` of one
that it cannot write is in user mode a PRIV trap that leaves the word in `k.tval`; `wcx` of an index that it does not write is
ILL before that in either mode, with the index, those above 127 among them. A word of `rsr` or `wsr` with a register number above
0x11, and one of `rcx` with an index above 127, is no instruction: it is not decoded (R73). -/
def Obligations.PrivilegedTraps : Prop :=
  (∀ (s : State) (pid : Nat) (k : Key) (w : IWord) (t : Option Tcw) (x : Strand) (d a : Reg) (i : BitVec 8),
    InHand s pid k w t x → wcxIndex i.toNat = false →
    exec (.wcx d a i) s = .next { s with core := raiseTrap s.plat k causeIll 0 (i.zeroExtend 64) x.pc s.core }) ∧
  (∀ w : IWord, fieldAt 26 6 w = 0x3C#6 →
    ((fieldAt 12 4 w = 4#4 ∨ fieldAt 12 4 w = 5#4) ∧ 0x11 < (fieldAt 4 8 w).toNat ∨ fieldAt 12 4 w = 6#4 ∧ 127 < (fieldAt 4 8 w).toNat) →
    ∃ e, decodeWord w = .error e) ∧
  ∀ (s : State) (pid : Nat) (k : Key) (w : IWord) (t : Option Tcw) (x : Strand) (n : Seg) (d a : Reg) (i : BitVec 8),
    InHand s pid k w t x → x.sup = false →
    (∀ j ∈ [Instr.eret, .halt, .segld n a, .segst n a, .tlbinv a, .ctxflush a],
      exec j s = .next { s with core := raiseTrap s.plat k causePriv 0 (w.zeroExtend 64) x.pc s.core }) ∧
    (i.toNat < 128 →
      exec (.rcx d a i) s = .next { s with core := raiseTrap s.plat k causePriv 0 (w.zeroExtend 64) x.pc s.core }) ∧
    (18 ≤ i.toNat → (Instr.rsr d i).wf = false ∧ (Instr.wsr a i).wf = false) ∧
    (128 ≤ i.toNat → (Instr.rcx d a i).wf = false) ∧
    (wcxIndex i.toNat = true →
      exec (.wcx d a i) s = .next { s with core := raiseTrap s.plat k causePriv 0 (w.zeroExtend 64) x.pc s.core }) ∧
    (i.toNat ≤ 0x11 → i.toNat ∉ [0x06, 0x07, 0x08, 0x0A, 0x0B, 0x0E, 0x0F, 0x10, 0x11] →
      exec (.rsr d i) s = .next { s with core := raiseTrap s.plat k causePriv 0 (w.zeroExtend 64) x.pc s.core }) ∧
    (i.toNat ≤ 0x11 → i.toNat ∉ [0x0E, 0x0F] →
      exec (.wsr a i) s = .next { s with core := raiseTrap s.plat k causePriv 0 (w.zeroExtend 64) x.pc s.core })

/-- The core in which a word of the job's record has been reached through L2, as ordinary data (R150, R379). -/
def Sys2Proof.Claims.jobReached (p : Platform) (c : Core) (job off : Nat) : Core :=
  match useDeviceLine (jobRecord p c job + off) p c with
  | .ok (_, c') => c'
  | .error _ => c

/-- The system registers that the strand and its station hold, with their values (R129). -/
def Sys2Proof.Claims.sysValues (c : Core) (pid : Nat) (x : Strand) : List (BitVec 8 × Word) :=
  [(0x00, x.mode.zeroExtend 64), (0x01, x.cause), (0x02, x.epc), (0x03, x.tval),
   (0x05, (c.station pid).pkey.zeroExtend 64), (0x06, BitVec.ofNat 64 (x.key.job % 2 ^ 32)), (0x09, BitVec.ofNat 64 pid),
   (0x0A, BitVec.ofNat 64 x.key.ctx), (0x0E, x.fpflags.zeroExtend 64), (0x0F, x.rmode.zeroExtend 64), (0x10, x.opc), (0x11, x.lacount)]

/-- The system registers that the job's record holds, with the offset of each in it and the bits that it has (R129, R136). -/
def Sys2Proof.Claims.jobValues : List (BitVec 8 × Nat × Nat) :=
  [(0x04, 0x08, 64), (0x07, 0x10, 64), (0x0B, 0x28, 64), (0x0C, 0x18, 64), (0x0D, 0x20, 16)]

/-- The system registers that take every value, with the effect of a write (R46, R129 to R133). -/
def Sys2Proof.Claims.sysWrites (p : Platform) (pid : Nat) (k : Key) (v : Word) (c : Core) : List (BitVec 8 × Core) :=
  [(0x00, setPin p k (v.getLsbD 1) (c.updStrand k fun y => { y with
      mode := modeSet (modeSet y.mode modeSup (v.getLsbD 0)) modeIm (v.getLsbD 3) })),
   (0x01, c.updStrand k fun y => { y with cause := v &&& 0x1FFFF#64 }), (0x02, c.updStrand k fun y => { y with epc := v }),
   (0x03, c.updStrand k fun y => { y with tval := v }), (0x05, c.updStation pid fun z => { z with pkey := v.truncate 16 }),
   (0x0C, setJobField p (jobReached p c k.job 0x18) k.job 0x18 v),
   (0x0D, setJobField p (jobReached p c k.job 0x20) k.job 0x20 (v &&& 0xFFFF)),
   (0x0E, c.updStrand k fun y => { y with fpflags := v.truncate 5 }), (0x10, c.updStrand k fun y => { y with opc := v }),
   (0x11, c.updStrand k fun y => { y with lacount := v })]

/-- R129, R132 to R134: `rsr` with nothing outstanding gives the register's value, in supervisor mode every register's. `wsr`
with nothing outstanding writes it; `k.rmode` takes 0 to 4 and any other value is ILL with that value, and so is a `k.tvec`
that is no multiple of four, with the word; a read-only register, and an index that names none, is ILL in supervisor mode
(R73). Those of the job's record are read and written through L2 (R150, R379): the line's name there is the model's (assumption log
116). `k.lid` is the station's number in the job's map, and a free value where it has none (assumption log 16). -/
def Obligations.SystemRegisters : Prop :=
  (∀ (s : State) (pid : Nat) (k : Key) (w : IWord) (t : Option Tcw) (x : Strand) (d : Reg),
    InHand s pid k w t x → x.ops = [] → x.lines.contains 9 = true → x.badLines.contains 9 = false → Room s.plat s.core d →
    ∀ e ∈ sysValues s.core pid x,
      (x.sup = true ∨ e.1.toNat ∈ [0x06, 0x07, 0x08, 0x0A, 0x0B, 0x0E, 0x0F, 0x10, 0x11]) →
      ∃ c', Retires s.plat k s.core d e.2 c' ∧ exec (.rsr d e.1) s = .next { s with core := c' }) ∧
  (∀ (s : State) (pid : Nat) (k : Key) (w : IWord) (t : Option Tcw) (x : Strand) (d : Reg),
    InHand s pid k w t x → x.ops = [] →
    ∀ e ∈ jobValues, (x.sup = true ∨ e.1.toNat = 0x07 ∨ e.1.toNat = 0x0B) →
      ∀ c, c = jobReached s.plat s.core k.job e.2.1 → Room s.plat c d →
      ∃ c', Retires s.plat k c d (BitVec.ofNat 64 (jobField s.plat c k.job e.2.1 % 2 ^ e.2.2)) c' ∧
        exec (.rsr d e.1) s = .next { s with core := c' }) ∧
  (∀ (s : State) (pid : Nat) (k : Key) (w : IWord) (t : Option Tcw) (x : Strand) (d : Reg),
    InHand s pid k w t x → x.ops = [] →
    (Room s.plat s.core d → ∀ l, logicalOf s.plat s.core k.job pid = some l →
      ∃ c', Retires s.plat k s.core d (BitVec.ofNat 64 l) c' ∧ exec (.rsr d 0x08) s = .next { s with core := c' }) ∧
    (Room s.plat { s.core with freeNo := s.core.freeNo + 1 } d → logicalOf s.plat s.core k.job pid = none →
      ∃ v c', Retires s.plat k { s.core with freeNo := s.core.freeNo + 1 } d v c' ∧
        exec (.rsr d 0x08) s = .next { s with core := c' }) ∧
    (x.sup = true → ∀ i : BitVec 8, 0x11 < i.toNat →
      exec (.rsr d i) s = .next { s with core := raiseTrap s.plat k causeIll 0 (w.zeroExtend 64) x.pc s.core })) ∧
  (∀ (s : State) (pid : Nat) (k : Key) (w : IWord) (t : Option Tcw) (x : Strand) (a : Reg) (v : Word) (c1 : Core),
    InHand s pid k w t x → x.ops = [] → x.lines.contains 9 = true → x.badLines.contains 9 = false →
    (Reads s.plat s.core a v c1 →
      (∀ e ∈ sysWrites s.plat pid k v c1, (x.sup = true ∨ e.1 = 0x0E#8) →
        exec (.wsr a e.1) s = .next { s with core := e.2.passed k }) ∧
      (x.sup = true → v.toNat % 4 = 0 →
        exec (.wsr a 0x04) s = .next { s with core :=
          (setJobField s.plat (jobReached s.plat c1 k.job 0x08) k.job 0x08 v).passed k }) ∧
      (x.sup = true → v.toNat % 4 ≠ 0 →
        exec (.wsr a 0x04) s = .next { s with core := raiseTrap s.plat k causeIll 0 (w.zeroExtend 64) x.pc s.core }) ∧
      (v.toNat ≤ 4 → exec (.wsr a 0x0F) s = .next { s with core :=
        (c1.updStrand k fun y => { y with rmode := v.truncate 3 }).passed k }) ∧
      (4 < v.toNat → exec (.wsr a 0x0F) s = .next { s with core := raiseTrap s.plat k causeIll 0 v x.pc s.core })) ∧
    (x.sup = true → ∀ i : BitVec 8, (0x06 ≤ i.toNat ∧ i.toNat ≤ 0x0B ∨ 0x11 < i.toNat) →
      exec (.wsr a i) s = .next { s with core := raiseTrap s.plat k causeIll 0 (w.zeroExtend 64) x.pc s.core }))

/-- R20, R146 to R149: `cyc` in either mode; `halt`, `rcx`, `wcx`, `tlbinv` and `ctxflush` in supervisor mode.
As the last instruction of a body `wcx` loops back by the loop words of before its write.
What the specification leaves open here is the model's: assumption log 16, 26, 101, 110 and 130. -/
def Obligations.SupervisorCompletes : Prop :=
  ∀ (s : State) (pid : Nat) (k : Key) (w : IWord) (t : Option Tcw) (x : Strand) (d a : Reg) (i : BitVec 8)
    (va value : Word) (c0 c1 c2 : Core),
    InHand s pid k w t x →
    (MayIssue x [d] false → Room s.plat s.core d →
      ∃ c', Retires s.plat k s.core d (s.core.station pid).cycle c' ∧ exec (.cyc d) s = .next { s with core := c' }) ∧
    (x.sup = true →
      (x.ops = [] → exec .halt s = .next { s with core := (supSend s.plat
        ⟨pid / 160, 8, pid, k.job, k.ctx, 0, [(x.issued.advance 4).pc]⟩ (parkStrand s.plat k .halt (s.core.passed k))) }) ∧
      (MayIssue x [d] false → Reads s.plat s.core a va c1 → va.toNat % 1024 = 0 → mgmtMeets va.toNat 1024 = false →
        Room s.plat s.core d → Room s.plat c1 d → ∀ r, rcxAccess va.toNat i.toNat s.plat c1 = .ok (⟨r, none⟩, c2) → Room s.plat c2 d →
          ∃ c', Retires s.plat k c2 d (BitVec.ofNat 64 r) c' ∧ exec (.rcx d a i) s = .next { s with core := c' }) ∧
      (MayIssue x [] false →
        (Reads s.plat s.core d value c0 → Reads s.plat c0 a va c1 → va.toNat % 1024 = 0 → wcxIndex i.toNat = true →
          (i.toNat = 16 → Claims.NothingSent s.core k) →
          mgmtMeets va.toNat 1024 = false →
          ∀ r, wcxAccess va.toNat i.toNat value s.plat (c1.passed k) = .ok (r, c2) →
            exec (.wcx d a i) s = .next { s with core := c2 }) ∧
        (Reads s.plat s.core a va c1 →
          exec (.tlbinv a) s = .next { s with core :=
            (tlbDrop s.plat k.job (if a = .zr then none else some va.toNat) c1).passed k } ∧
          (va.toNat % 1024 = 0 → va.toNat ≠ k.ctx →
            ∀ later, flushTarget ⟨k.job, va.toNat⟩ s.plat c1 = .ok (later, c2) →
              exec (.ctxflush a) s = .next { s with core :=
                if later then (c2.passed k).updStrand k fun y => { y with hold := .flush va.toNat } else c2.passed k }) ∧
          (va.toNat = k.ctx → k.ctx % 1024 = 0 →
            exec (.ctxflush a) s = .next { s with core := raiseTrap s.plat k causeIll 0 va x.pc s.core }))))

/-! ### Tasks and strands -/

namespace Sys2Proof.Claims

/-- The frame that the context pool gives next, and the pool after it (R35). -/
def nextFrame (p : Platform) (job : Nat) (c : Core) : Nat × Core :=
  match takeFrame job p c with
  | .ok r => r
  | .error _ => (0, c)

/-- A participant's registers: its trips in g1 and g2, the join cell in rd (R207). -/
def tripRegs (x : Strand) (d : Reg) (cell lo hi : Nat) : Strand :=
  let y := (x.setReg 1 (BitVec.ofNat 64 lo) true .plain).setReg 2 (BitVec.ofNat 64 hi) true .plain
  match d with
  | .g n => y.setReg n (BitVec.ofNat 64 cell) true .plain
  | _ => y

/-- Participants `is` made one after another: each a new strand with a copy of the forker's registers, segments, shadows
and rounding mode, its mode without PIN and LOOP, its pc after the `rfork` (R207). -/
def recruits (p : Platform) (x : Strand) (d : Reg) (cell count g q : Nat) (places : List Nat) (own : Nat) :
    List Nat → Core → Core
  | [], c => c
  | i :: rest, c =>
    let f := nextFrame p x.key.job c
    let y := { Strand.fresh ⟨x.key.job, f.1⟩ (places.getD i own) with
      g := x.g, mask := x.mask, mode := x.mode &&& ~~~2 &&& ~~~4, pc := x.pc + 4, fa := x.fa, fb := x.fb, fc := x.fc, fs := x.fs,
      task := x.task, joinOrParent := BitVec.ofNat 64 cell, rmode := x.rmode, segs := x.segs }
    recruits p x d cell count g q places own rest
      (createStrand p (tripRegs y d cell ((i + 1) * q * g) (min count ((i + 2) * q * g))) f.2)

end Sys2Proof.Claims

/-- R207, R214: `rfork` of a range: −1 where the job is cancelled, 0 for no trips, −2 where the pool cannot hold the
records and the cell, and otherwise, once nothing of the strand is on its way (R162), a join cell that counts the
participants, n − 1 new strands, and the first range for the forker.
A participant writes no port that rd names, and a forker outside the job's map is numbered by its station.
What the specification leaves open here is the model's: assumption log 3, 15, 85, 107 and 130. -/
def Obligations.ForkRecruits : Prop :=
  ∀ (s : State) (pid : Nat) (k : Key) (w : IWord) (t : Option Tcw) (x : Strand) (d a b : Reg) (cv gv : Word)
    (c0 c1 c2 c3 c4 : Core) (g q n cap cell : Nat),
    InHand s pid k w t x → MayIssue x [d, .g 1, .g 2] false → x.ops = [] → Room s.plat s.core d →
    Reads s.plat s.core a cv c0 → Reads s.plat c0 b gv c1 → g = (if gv = 0 then 1 else gv.toNat) →
    (c1.cancelled.contains k.job = true → Room s.plat c1 d →
      ∃ c', Retires s.plat k c1 d (BitVec.ofInt 64 (-1)) c' ∧ exec (.rfork d a b) s = .next { s with core := c' }) ∧
    (c1.cancelled.contains k.job = false →
      (cv = 0 → ∀ c', c' = updRegs k (fun y => (y.setReg 1 0 true .plain).setReg 2 0 true .plain) c1 → Room s.plat c' d →
        ∃ c'', Retires s.plat k c' d 0 c'' ∧ exec (.rfork d a b) s = .next { s with core := c'' }) ∧
      (cv ≠ 0 → cap = (if jobField s.plat c1 k.job 0x20 % 65536 = 0 then 256 else jobField s.plat c1 k.job 0x20 % 65536) →
        q = ceilDiv (ceilDiv cv.toNat g) (min (ceilDiv cv.toNat g) cap) → n = ceilDiv (ceilDiv cv.toNat g) q →
        (poolHolds s.plat c1 k.job (n - 1) = false → Room s.plat c1 d →
          ∃ c', Retires s.plat k c1 d (BitVec.ofInt 64 (-2)) c' ∧ exec (.rfork d a b) s = .next { s with core := c' }) ∧
        (poolHolds s.plat c1 k.job (n - 1) = true → Claims.NothingSent c1 k → takeCell k.job (n - 1) s.plat c1 = .ok (cell, c2) →
          writeGlobal x.homeParty cell (eBytes 8 n ++ eBytes 8 k.ctx ++ eBytes 48 0) s.plat c2 = .ok ((), c3) →
          evictFor k.job (forkPlaces s.plat c1 k.job pid (n - 1)) s.plat c3 = .ok ((), c4) →
          let c5 := updRegs k (fun y => { tripRegs y .zr cell 0 (min cv.toNat (q * g)) with
              joinOrParent := BitVec.ofNat 64 cell })
            (recruits s.plat x d cell cv.toNat g q (forkPlaces s.plat c1 k.job pid (n - 1)) pid (List.range (n - 1)) c4)
          Room s.plat c5 d →
            ∃ c', Retires s.plat k c5 d (BitVec.ofNat 64 cell) c' ∧ exec (.rfork d a b) s = .next { s with core := c' })))

/-- R208: `join` of a value not above 0 does nothing; of a value that is no live join cell of the job it is ILL; otherwise,
with nothing outstanding, the count falls by one: the last finisher frees the cell and goes on, any other strand
retires. A join that waits keeps its slot.
What the specification leaves open here is the model's: assumption log 26. -/
def Obligations.JoinCompletes : Prop :=
  ∀ (s : State) (pid : Nat) (k : Key) (w : IWord) (t : Option Tcw) (x : Strand) (a : Reg) (j : Word) (c1 c2 : Core)
    (left : Nat),
    InHand s pid k w t x → MayIssue x [] false → Reads s.plat s.core a j c1 →
    (j.toInt ≤ 0 → exec (.join a) s = .next { s with core := c1.passed k }) ∧
    (0 < j.toInt → (c1.joinCells.contains ⟨k.job, j.toNat⟩ = false ∨ j.toNat % 64 ≠ 0) →
      exec (.join a) s = .next { s with core := raiseTrap s.plat k causeIll 0 j x.pc s.core }) ∧
    (0 < j.toInt → c1.joinCells.contains ⟨k.job, j.toNat⟩ = true → j.toNat % 64 = 0 →
      (x.ops ≠ [] ∨ x.engines ≠ 0 → exec (.join a) s = .next { s with core := s.core.setStrand { x with hold := .engines } }) ∧
      (x.ops = [] → x.engines = 0 → Claims.NothingSent s.core k →
        amoAt x.homeParty .add j.toNat 8 (2 ^ 64 - 1) 0 .acqRel .package s.plat c1 = .ok (⟨left, none⟩, c2) →
        (1 < (BitVec.ofNat 64 left).toInt →
          exec (.join a) s = .next { s with core := (retireStrand s.plat k c2).passed k }) ∧
        ((BitVec.ofNat 64 left).toInt ≤ 1 →
          exec (.join a) s = .next { s with core := ({ c2 with
            joinCells := c2.joinCells.filter fun y => !(y.job == k.job && y.ctx == j.toNat) } : Core).passed k })))

/-- R205, R209, R214: `spawn` at a 4-aligned address: −1 where the job is cancelled, −2 where the pool has no frame, and
otherwise, once nothing of the strand is on its way (R162) and the station's entries of other jobs are evicted, the child's context address and one new strand of the task at the station, with the registers that the rule gives.
What the specification leaves open here is the model's: assumption log 3, 15 and 130. -/
def Obligations.SpawnCompletes : Prop :=
  ∀ (s : State) (pid : Nat) (k : Key) (w : IWord) (t : Option Tcw) (x : Strand) (d a b : Reg) (e v : Word)
    (c0 c1 ce c2 : Core) (ctx : Nat),
    InHand s pid k w t x → MayIssue x [d] false → Room s.plat s.core d → Reads s.plat s.core a e c0 → Reads s.plat c0 b v c1 →
    (e.toNat % 4 ≠ 0 → exec (.spawn d a b) s = .next { s with core := raiseTrap s.plat k causeAlign 0 e x.pc s.core }) ∧
    (e.toNat % 4 = 0 →
      (c1.cancelled.contains k.job = true → Room s.plat c1 d →
        ∃ c', Retires s.plat k c1 d (BitVec.ofInt 64 (-1)) c' ∧ exec (.spawn d a b) s = .next { s with core := c' }) ∧
      (c1.cancelled.contains k.job = false →
        (freeFrames s.plat c1 k.job = 0 → Room s.plat c1 d →
          ∃ c', Retires s.plat k c1 d (BitVec.ofInt 64 (-2)) c' ∧ exec (.spawn d a b) s = .next { s with core := c' }) ∧
        ((∀ y ∈ (c1.station pid).entries, y.mapped = none ∨ ∃ va, y.mapped = some (k.job, va)) →
          evictFor k.job [pid] s.plat c1 = .ok ((), c1)) ∧
        (freeFrames s.plat c1 k.job ≠ 0 → Claims.NothingSent c1 k → evictFor k.job [pid] s.plat c1 = .ok ((), ce) →
          nextFrame s.plat k.job ce = (ctx, c2) →
          ∃ y : Strand, y.key = ⟨k.job, ctx⟩ ∧ y.station = pid ∧ y.pc = e ∧ y.mask = 0xFFFF ∧
            y.g = #v[x.task, v, BitVec.ofNat 64 k.ctx, 0, 0, 0, 0, 0, 0, 0, 0, 0, 0, 0, 0, 0] ∧
            y.mode = x.mode &&& ~~~2 &&& ~~~4 ∧ y.segs = x.segs ∧ y.fa = x.fa ∧ y.fb = x.fb ∧ y.fc = x.fc ∧ y.fs = x.fs ∧
            y.rmode = x.rmode ∧ y.fpflags = 0 ∧ y.roundPos = 0 ∧ y.loopStart = 0 ∧ y.loopEnd = 0 ∧ y.loopCount = 0 ∧
            y.task = x.task ∧ y.joinOrParent = BitVec.ofNat 64 k.ctx ∧ y.ops = [] ∧
            (Room s.plat (createStrand s.plat y c2) d → ∃ c', Retires s.plat k (createStrand s.plat y c2) d (BitVec.ofNat 64 ctx) c' ∧
              exec (.spawn d a b) s = .next { s with core := c' }))))

/-- R209: `yield`, `park`, `wake` and `end`. A pinned strand that yields keeps its slot, and so does an `end` that waits.
What the specification leaves open here is the model's: assumption log 26. -/
def Obligations.StrandControlCompletes : Prop :=
  ∀ (s : State) (pid : Nat) (k : Key) (w : IWord) (t : Option Tcw) (x : Strand) (a : Reg) (v : Word) (c1 : Core),
    InHand s pid k w t x → MayIssue x [] false →
    (let c := if x.pinned then s.core.passed k else leaveTo s.plat k .waiting none (s.core.passed k)
     exec .yield s = .next { s with core := checkLap k.job x.task.toNat { c with tasks := c.tasks.map fun u =>
        if u.job = k.job ∧ u.record = x.task.toNat then { u with lapYields := risingSet u.lapYields k.ctx true } else u } }) ∧
    exec .park s = .next { s with core := parkStrand s.plat k .park (s.core.passed k) } ∧
    (x.ops = [] → x.engines = 0 → exec .endStrand s = .next { s with core := retireStrand s.plat k (s.core.passed k) }) ∧
    (x.ops ≠ [] ∨ x.engines ≠ 0 → exec .endStrand s = .next { s with core := s.core.setStrand { x with hold := .engines } }) ∧
    (Reads s.plat s.core a v c1 →
      (v.toNat % 1024 = 0 → exec (.wake a) s = .next { s with core := ({ c1 with
        wakes := c1.wakes ++ [⟨⟨k.job, v.toNat⟩, if x.sup then none else some .park, x.sup⟩] } : Core).passed k }) ∧
      (v.toNat % 1024 ≠ 0 →
        exec (.wake a) s = .next { s with core := raiseTrap s.plat k causeAlign 0 v x.pc s.core }))

/-- R199, R209: `tail` of an idle record of the job whose count is 0 leaves it to the task, and of any other record is ILL;
`gdec`, once nothing of the strand is on its way (R162), sends a decrement to the record's home. -/
def Obligations.TailAndGdecComplete : Prop :=
  ∀ (s : State) (pid : Nat) (k : Key) (w : IWord) (t : Option Tcw) (x : Strand) (a : Reg) (r : Word)
    (c1 c2 c3 c4 : Core) (count state job : Nat) (where' : Target),
    InHand s pid k w t x → MayIssue x [] false → Reads s.plat s.core a r c1 →
    (r.toNat % 128 ≠ 0 → ∀ i ∈ [Instr.tail a, .gdec a],
      exec i s = .next { s with core := raiseTrap s.plat k causeAlign 0 r x.pc s.core }) ∧
    (r.toNat % 128 = 0 → mgmtMeets r.toNat 128 = false → Claims.NothingSent c1 k →
      (readNum x.homeParty r.toNat 4 s.plat c1 = .ok (count, c2) →
        readNum x.homeParty (r.toNat + 7) 1 s.plat c2 = .ok (state, c3) →
        readNum x.homeParty (r.toNat + 0x58) 4 s.plat c3 = .ok (job, c4) →
        (count = 0 ∧ state = 0 ∧ job = k.job →
          exec (.tail a) s = .next { s with core := ({ c4 with tasks := c4.tasks.map fun u =>
            if u.job = k.job ∧ u.record = x.task.toNat then { u with tails := u.tails ++ [r.toNat] } else u } : Core).passed k }) ∧
        (¬ (count = 0 ∧ state = 0 ∧ job = k.job) → ∀ c, Claims.Reached s x (.tail r.toNat) c1 c →
          exec (.tail a) s = .next { s with core := raiseTrap s.plat k causeIll 0 r x.pc c })) ∧
      (locate k.job r.toNat 3 8 s.plat c1 = .ok (where', c2) →
        exec (.gdec a) s = .next { s with core := ({ c2 with
          decrements := c2.decrements ++ [⟨k.job, r.toNat, k.job, x.station, k.ctx, none⟩] } : Core).passed k }))

/-- R210: `qput`, once nothing of the strand is on its way (R162), and `qtake` on a queue whose header can be read: a full or
empty queue parks the strand; otherwise the element is stored at, or loaded from, the slot that the count names, the count rises by one, and the strands that wait
for the change are woken. A capacity that is no power of two from 2 to 65,536 is ILL. -/
def Obligations.QueuesComplete : Prop :=
  ∀ (s : State) (pid : Nat) (k : Key) (w : IWord) (t : Option Tcw) (x : Strand) (a b d : Reg) (q v : Word)
    (c1 c2 c3 c4 c5 : Core) (pa : Nat) (h : QueueHead),
    InHand s pid k w t x → q.toNat % 64 = 0 → mgmtMeets q.toNat 64 = false → h.poison = none →
    (MayIssue x [] false → (∃ c0, Reads s.plat s.core a q c0 ∧ Reads s.plat c0 b v c1) → Claims.NothingSent c1 k →
      queueHome k.job q.toNat s.plat c1 = .ok (pa, c2) → queueHead x.homeParty q.toNat s.plat c2 = .ok (h, c3) →
      (∀ c, Claims.Reached s x (.qput q.toNat v) c1 c →
        (powerOfTwo h.capacity 2 65536 = false →
          exec (.qput a b) s = .next { s with core := raiseTrap s.plat k causeIll 0 q x.pc c }) ∧
        (powerOfTwo h.capacity 2 65536 = true → (h.puts + 2 ^ 64 - h.takes) % 2 ^ 64 = h.capacity →
          exec (.qput a b) s = .next { s with core := parkStrand s.plat k (.queue pa true) c })) ∧
      (powerOfTwo h.capacity 2 65536 = true →
        ((h.puts + 2 ^ 64 - h.takes) % 2 ^ 64 ≠ h.capacity →
          storeAt x.homeParty (h.ring + 8 * (h.puts % h.capacity)) 8 v s.plat c3 = .ok ((), c4) →
          storeAt x.homeParty (q.toNat + 16) 8 (BitVec.ofNat 64 (h.puts + 1)) s.plat c4 = .ok ((), c5) →
          exec (.qput a b) s = .next { s with core := (wakeAll (.queue pa false) c5).passed k }))) ∧
    (MayIssue x [d] false → Room s.plat s.core d → Reads s.plat s.core a q c1 → Claims.NothingSent c1 k →
      queueHome k.job q.toNat s.plat c1 = .ok (pa, c2) → queueHead x.homeParty q.toNat s.plat c2 = .ok (h, c3) →
      (∀ c, Claims.Reached s x (.qtake q.toNat) c1 c →
        (powerOfTwo h.capacity 2 65536 = false →
          exec (.qtake d a) s = .next { s with core := raiseTrap s.plat k causeIll 0 q x.pc c }) ∧
        (powerOfTwo h.capacity 2 65536 = true → h.puts = h.takes →
          exec (.qtake d a) s = .next { s with core := parkStrand s.plat k (.queue pa false) c })) ∧
      (powerOfTwo h.capacity 2 65536 = true →
        (h.puts ≠ h.takes → ∀ value,
          loadAt x.homeParty (h.ring + 8 * (h.takes % h.capacity)) 8 s.plat c3 = .ok (⟨value, none⟩, c4) →
          storeAt x.homeParty (q.toNat + 24) 8 (BitVec.ofNat 64 (h.takes + 1)) s.plat c4 = .ok ((), c5) →
          Room s.plat (wakeAll (.queue pa true) c5) d →
          ∃ c', Retires s.plat k (wakeAll (.queue pa true) c5) d (BitVec.ofNat 64 value) c' ∧
            exec (.qtake d a) s = .next { s with core := c' })))

/-- The commands that a package has in its queues and engines: queued, started as copies, admitted by Lantern, and started by
Sconce. -/
def Sys2Proof.Claims.HasCmd (c : Core) (d : Cmd) : Prop :=
  (∃ z ∈ c.stations, (∃ q ∈ z.2.commands.toList, d ∈ q) ∨ ∃ y ∈ z.2.copies, y.cmd = d) ∨
    (∃ y ∈ c.collectives, y.cmd = d) ∨ ∃ y ∈ c.sampling, y.cmd = d

/-- The first part of a cancel: the records of the job's ready tasks, and of its gangs in placement, become CANCELLED (R213). -/
def Sys2Proof.Claims.discards (job : Nat) (c : Core) : Act Unit := do
  (c.ready.filter fun t => t.job == job).forM fun t => discardRecord job t.record
  (c.placing.filter fun t => t.job == job).forM fun t => discardRecord job t.record

/-- R213, R323: `cancel` always completes: the job is marked cancelled, no task of it is ready or in placement, and no command of it is
left in a queue, among the started copies, with Lantern or with Sconce, but for one that has made its lineage node BUSY and is under
way (R254): each of the others is a completion of status 2, CANCELLED, on its way, and each live strand of the job has a wake on its
way. What was there is what the cancel finds once the states of the discarded records are written, which is the core as it stands
where there are none. -/
def Obligations.CancelCompletes : Prop :=
  ∀ (s : State) (pid : Nat) (k : Key) (w : IWord) (t : Option Tcw) (x : Strand),
    InHand s pid k w t x → MayIssue x [] false →
    ∃ u c, exec .cancel s = .next u ∧ u.plat = s.plat ∧ k.job ∈ u.core.cancelled ∧
      (∀ r ∈ u.core.ready, r.job ≠ k.job) ∧ (∀ g ∈ u.core.placing, g.job ≠ k.job) ∧
      (∀ d, Claims.HasCmd u.core d → d.job = k.job → d.begun ≠ none) ∧
      Claims.discards k.job (s.core.passed k) s.plat (s.core.passed k) = .ok ((), c) ∧
      ((∀ r ∈ s.core.ready, r.job ≠ k.job) → (∀ g ∈ s.core.placing, g.job ≠ k.job) → c = s.core.passed k) ∧
      (∀ d, Claims.HasCmd c d → d.job = k.job → d.begun = none →
        ∃ y ∈ u.core.completions, y.cmd = { d with page := none, retry := none } ∧ y.status = 2 ∧ y.trap = none) ∧
      (∀ y ∈ c.strands, y.live = true → y.key.job = k.job → ⟨y.key, none, true⟩ ∈ u.core.wakes)

/-! ### Lineage -/

/-- The scalar lineage instructions of one handle, and of two operands (R248). -/
def Sys2Proof.Claims.lineage1 : List ((Reg → Reg → BitVec 4 → Instr) × LinOp) :=
  [(.lfork, .fork), (.lforkf, .forkf), (.lflat, .flat), (.ldel, .del), (.lcmt, .cmt)]
def Sys2Proof.Claims.lineage2 : List ((Reg → Reg → Reg → BitVec 4 → Instr) × LinOp) :=
  [(.lrebk, .rebk), (.lrebd, .rebd), (.linfo, .info)]

/-- No lineage member of the strand's instruction of a place in program order is under way. -/
def Sys2Proof.Claims.NoMember (c : Core) (k : Key) (stamp : Nat) : Prop := ∀ r ∈ c.members, ¬ (r.key = k ∧ r.stamp = stamp)

/-- R229, R244, R245, R248, R249: a scalar lineage instruction issues: what its member gives at the record's home is its destination's
at completion, once nothing of the strand is on its way (R162), a failure as its code (a lost node −3, a busy one −5, a shape −4); the null handle is −3; `linfo` of a
field above 8 is ILL. One that changes the lineage waits for another of its job that has made a node BUSY (assumption log 118). A flatten of a node with a parent, a fork that flattens, and a rebase keep make their node BUSY and
stay outstanding.
What the specification leaves open here is the model's: assumption log 43, 44, 88, 118 and 129. -/
def Obligations.LineageCompletes : Prop :=
  ∀ (s : State) (pid : Nat) (k : Key) (w : IWord) (t : Option Tcw) (x : Strand) (d a b : Reg) (la : BitVec 4)
    (h y : Word) (c1 c2 : Core) (i : Instr) (op : LinOp),
    InHand s pid k w t x → x.dropped = none → MayIssue x [d] true → Claims.NoMember c2 k x.issues → Claims.NothingSent c2 k →
    Reads s.plat s.core a h c1 →
    ((∃ e ∈ lineage1, i = e.1 d a la ∧ op = e.2 ∧ y = 0 ∧ c1 = c2) ∨
      (∃ e ∈ lineage2, i = e.1 d a b la ∧ op = e.2 ∧ Reads s.plat c1 b y c2)) →
    (op = .info → 8 < y.toNat → exec i s = .next { s with core := raiseTrap s.plat k causeIll 0 y x.pc s.core }) ∧
    ((op = .info → y.toNat ≤ 8) →
      (∀ v c3 n bytes c4, settled x.homeParty (linMember x.homeParty false op h.toNat y.toNat) s.plat c2 = .ok (.ok v, c3) →
        (op ≠ .info → lineageGoing c3 k.job = false) →
        rawNode x.homeParty (indexOfHandle h.toNat) s.plat c2 = .ok ((n, bytes), c4) →
        (longMember op n = false → Claims.NoMember c3 k x.issues →
          exec i s = .next { s with core := c3.passedLong k d la (.value (BitVec.ofInt 64 v) 0) }) ∧
        (longMember op n = true → ∀ c5, busyNode x.homeParty (indexOfHandle h.toNat) s.plat c4 = .ok ((), c5) →
          let run : LinRun := ⟨k, x.task.toNat, x.station, x.pc, x.issues, op, h, y, indexOfHandle h.toNat⟩
          let c6 : Core := { c5 with members := c5.members ++ [run] }
          exec i s = .next { s with core := c6.passedLong k d la .pending })) ∧
      (∀ e c3, settled x.homeParty (linMember x.homeParty false op h.toNat y.toNat) s.plat c2 = .ok (.error e, c3) → Claims.NoMember c3 k x.issues →
        exec i s = .next { s with core := c3.passedLong k d la (.value (BitVec.ofInt 64
          (match e with | .refuse n => n | .lost _ => -3 | .busy => -5 | .badShape => -4)) 0) }) ∧
      (h = 0 → Claims.NoMember c2 k x.issues → exec i s = .next { s with core := c2.passedLong k d la (.value (BitVec.ofInt 64 (-3)) 0) }))

/-! ### Tile commands -/

/-- The 59 operations of tile command words, with what each accepts (R79). -/
def Sys2Proof.Claims.commandTable : List (Instr × CmdForm) :=
  [(.cpCopy, cpCopyForm), (.cpFill, cpFillForm), (.cpBcast, cpBcastForm), (.cpGather, cpGatherForm),
   (.cpScatter, cpScatterForm), (.cpCancel, cpCancelForm), (.cpNode, cpNodeForm), (.lnRoot, lnRootForm),
   (.lnWr, lnWrForm), (.lnWre, lnWreForm), (.lnLr, lnLrForm), (.lnRes, lnResForm), (.lnApp, lnAppForm),
   (.lnTrunc, lnTruncForm), (.lnRd, lnRdForm), (.mxZero, mxZeroForm), (.mxMma, mxMmaForm), (.mxLin, mxLinForm),
   (.mxSt, mxStForm), (.mxLd, mxLdForm), (.vxFill, vxFillForm), (.vxIota, vxFillForm), (.vxAdd, vxBinaryForm),
   (.vxSub, vxBinaryForm), (.vxMul, vxBinaryForm), (.vxFma, vxBinaryForm), (.vxMin, vxBinaryForm),
   (.vxMax, vxBinaryForm), (.vxAbs, vxUnaryForm), (.vxNeg, vxUnaryForm), (.vxRcp, vxUnaryForm),
   (.vxRsqrt, vxUnaryForm), (.vxExp2, vxUnaryForm), (.vxLog2, vxUnaryForm), (.vxCvt, vxCvtForm), (.vxCmp, vxCmpForm),
   (.vxSel, vxBinaryForm), (.vxRsum, vxUnaryForm), (.vxRmax, vxUnaryForm), (.vxArgmax, vxUnaryForm),
   (.vxGather, vxBinaryForm), (.vxScatter, vxBinaryForm), (.vxQuant, vxQuantForm), (.vxSwz, vxSwzForm),
   (.clAg, clAgForm), (.clRs, clRsForm), (.clAr, clRsForm), (.clBc, clBcForm), (.clGrp, clGrpForm), (.smRun, smRunForm),
   (.smBatch, smBatchForm), (.rnCfg, rnCfgForm), (.rnDraw, rnDrawForm), (.dxOpen, dxOpenForm), (.dxIn, dxInForm),
   (.dxApp, dxAppForm), (.dxAck, dxAckForm), (.dxTrunc, dxTruncForm), (.dxClose, dxCloseForm)]

/-- The command that a push of operation `op` captures (R19). -/
def Sys2Proof.Claims.captured (op : Instr) (t : Tcw) (k : Key) (x : Strand) (pid st seq : Nat) (v : Vector Word 5) : Cmd where
  op := op
  tcw := t
  job := k.job
  ctx := k.ctx
  task := x.task.toNat
  issuer := pid
  station := st
  vals := v
  segs := x.segs
  rmode := x.rmode
  sup := x.sup
  node := none
  seq := seq
  addr := x.pc
  page := none
  draws := none
  begun := none
  retry := none
  kept := []
  sources := []

/-- The strand after a push: the pc past 32 bytes, one command more outstanding, a mode-4 register empty, and its place in the
window taken (R65, R77). -/
def Sys2Proof.Claims.afterPush (t : Tcw) (y : Strand) : Strand :=
  let y : Strand := { y.issuedLong t.la.toNat none (.value 0 0) with engines := y.engines + 1 }
  (match statusReg t with | some n => y.setBit n false | none => y).advance 32

/-- The tasks after a push to an engine: a collective of a task is an effect of it outside the package (R367). -/
def Sys2Proof.Claims.tasksAfterPush (engine : Nat) (k : Key) (x : Strand) (tasks : List Task) : List Task :=
  if engine = 5 then tasks.map fun u => if u.job == k.job && u.record == x.task.toNat then { u with outside := true } else u
  else tasks

/-- The context lines of the segments that a push captures have arrived (R44), and the registers that its descriptors name
hold `v`. -/
def Sys2Proof.Claims.CanCapture (p : Platform) (c : Core) (f : CmdForm) (t : Tcw) (v : Vector Word 5) : Prop :=
  captureLines f t p c = .ok ((), c) ∧ ∀ i : Fin 5, captureReg t i p c = .ok (v[i], c)

/-- R18, R19, R65, R77, R82: where lookahead lets it issue, its words are right, its registers can be read and the target
station's queue has room, and the strand's multicast stores have returned (R162), a push puts the captured command at the end of that queue, counts it as outstanding, empties a
mode-4 register, and moves the pc past eight words. -/
def Obligations.PushEnqueues : Prop :=
  ∀ e ∈ commandTable, ∀ (s : State) (pid : Nat) (k : Key) (w : IWord) (t : Tcw) (x : Strand) (st : Nat) (v : Vector Word 5),
    InHand s pid k w (some t) x → MayIssue x ((statusReg t).toList.map Reg.g) true →
    targetStation s.plat s.core k.job pid t = some st → tcwOffence e.2 t true = none → CanCapture s.plat s.core e.2 t v →
    Claims.NothingSent s.core k → (s.core.station st).pkey = tcwCap t → (s.core.queue st e.2.engine).length < 8 →
    let c := (s.core.updStation st fun z => { z with commands :=
      (z.commands.set! e.2.engine (z.commands[e.2.engine]! ++ [captured e.1 t k x pid st s.core.seq v])) })
    let c' : Core := { c with seq := s.core.seq + 1, tasks := Claims.tasksAfterPush e.2.engine k x s.core.tasks }
    exec e.1 s = .next { s with core := updRegs k (Claims.afterPush t) c' }

/-- R18, R79: a push with an offending word is a TCW trap whose value is that word's index; one to a full queue parks the
strand; one whose key is not the target station's ends with CAP, and a CAP record is sent, and the strand goes on as after any push,
its pc 32 bytes on, one command more outstanding and a mode-4 register empty, whether or not
the queue is full: the model's choice (assumption log 75). -/
def Obligations.PushContained : Prop :=
  ∀ e ∈ commandTable, ∀ (s : State) (pid : Nat) (k : Key) (w : IWord) (t : Tcw) (x : Strand) (v : Vector Word 5),
    InHand s pid k w (some t) x → MayIssue x ((statusReg t).toList.map Reg.g) true →
    (∀ i, tcwOffence e.2 t (targetStation s.plat s.core k.job pid t).isSome = some i →
      exec e.1 s = .next { s with core := raiseTrap s.plat k causeTcw 0 (BitVec.ofNat 64 i) x.pc s.core }) ∧
    (∀ st, targetStation s.plat s.core k.job pid t = some st → tcwOffence e.2 t true = none →
      CanCapture s.plat s.core e.2 t v → Claims.NothingSent s.core k →
      ((s.core.station st).pkey = tcwCap t → 8 ≤ (s.core.queue st e.2.engine).length →
        exec e.1 s = .next { s with core := parkStrand s.plat k (.command st e.2.engine) s.core }) ∧
      ((s.core.station st).pkey ≠ tcwCap t →
        let c := supSend s.plat ⟨st / 160, 4, st, k.job, k.ctx, BitVec.ofNat 64 (2 ^ 56 + (s.core.station st).pkey.toNat),
          tcwWords e.1 t⟩ s.core
        let c' : Core := { c with
          seq := c.seq + 1, tasks := Claims.tasksAfterPush e.2.engine k x c.tasks
          completions := c.completions ++ [⟨captured e.1 t k x pid st s.core.seq v, 4, 0, none⟩] }
        exec e.1 s = .next { s with core := updRegs k (Claims.afterPush t) c' }))

/-- The operations that a die's engine runs, and those of a station's matrix and vector engines, with their engines. -/
def Sys2Proof.Claims.dieTable : List (Instr × Nat × (Cmd → Act Finish)) :=
  [(.lnRoot, lnRootForm.engine, lnRootRun), (.lnWr, lnWrForm.engine, lnWrRun), (.lnWre, lnWreForm.engine, lnWreRun),
   (.lnLr, lnLrForm.engine, lnLrRun), (.lnRes, lnResForm.engine, lnResRun), (.lnApp, lnAppForm.engine, lnAppRun),
   (.lnTrunc, lnTruncForm.engine, lnTruncRun), (.lnRd, lnRdForm.engine, lnRdRun),
   (.rnCfg, rnCfgForm.engine, rnCfgRun), (.rnDraw, rnDrawForm.engine, rnDrawRun),
   (.dxOpen, dxOpenForm.engine, dxOpenRun), (.dxIn, dxInForm.engine, dxInRun), (.dxApp, dxAppForm.engine, dxAppRun),
   (.dxAck, dxAckForm.engine, dxAckRun), (.dxTrunc, dxTruncForm.engine, dxTruncRun),
   (.dxClose, dxCloseForm.engine, dxCloseRun)]

def Sys2Proof.Claims.stationTable : List (Instr × Nat × (Cmd → Act Finish)) :=
  [(.mxZero, mxZeroForm.engine, mxZeroRun), (.mxMma, mxMmaForm.engine, mxMmaRun),
   (.mxLin, mxLinForm.engine, mxLinRun), (.mxSt, mxStForm.engine, mxStRun), (.mxLd, mxLdForm.engine, mxLdRun),
   (.vxFill, vxFillForm.engine, vxFillRun), (.vxIota, vxFillForm.engine, vxIotaRun),
   (.vxAdd, vxBinaryForm.engine, vxAddRun), (.vxSub, vxBinaryForm.engine, vxSubRun),
   (.vxMul, vxBinaryForm.engine, vxMulRun), (.vxFma, vxBinaryForm.engine, vxFmaRun),
   (.vxMin, vxBinaryForm.engine, vxMinRun), (.vxMax, vxBinaryForm.engine, vxMaxRun),
   (.vxAbs, vxUnaryForm.engine, vxAbsRun), (.vxNeg, vxUnaryForm.engine, vxNegRun),
   (.vxRcp, vxUnaryForm.engine, vxRcpRun), (.vxRsqrt, vxUnaryForm.engine, vxRsqrtRun),
   (.vxExp2, vxUnaryForm.engine, vxExp2Run), (.vxLog2, vxUnaryForm.engine, vxLog2Run),
   (.vxCvt, vxCvtForm.engine, vxCvtRun), (.vxCmp, vxCmpForm.engine, vxCmpRun),
   (.vxSel, vxBinaryForm.engine, vxSelRun), (.vxRsum, vxUnaryForm.engine, vxRsumRun),
   (.vxRmax, vxUnaryForm.engine, vxRmaxRun), (.vxArgmax, vxUnaryForm.engine, vxArgmaxRun),
   (.vxGather, vxBinaryForm.engine, vxGatherRun), (.vxScatter, vxBinaryForm.engine, vxScatterRun),
   (.vxQuant, vxQuantForm.engine, vxQuantRun), (.vxSwz, vxSwzForm.engine, vxSwzRun)]

def Sys2Proof.Claims.copyTable : List Instr := [.cpCopy, .cpFill, .cpBcast, .cpGather, .cpScatter, .cpNode]

/-- The core in which a turn's command runs: an engine of a die has moved its visit on to the next station (R18), and the
matrix engine is taken for the command's task (R282). -/
def Sys2Proof.Claims.EngineTakes (s : State) (op : Instr) (unit engine : Nat) (run : Cmd → Act Finish) (d : Cmd) (c : Core) :
    Prop :=
  s.core.work = .engine unit ∧ d.op = op ∧
  (((op, engine, run) ∈ dieTable ∧ dieNext s.plat s.core unit engine = some d ∧
      c = passTurn unit engine d s.core) ∨
    ((op, engine, run) ∈ stationTable ∧ stationNext s.core unit engine = some d ∧
      (engine = 4 → c = s.core) ∧ (engine = 3 → takeMatrix d s.plat s.core = .ok ((), c))))

/-- A stash whose cells are in the canonical form and whose entries are all SCRATCH, in the plain layout and without poison. -/
def Sys2Proof.Claims.PlainStash (z : Station) : Prop :=
  cellsFrom 0 z.stash = true ∧ ∀ x ∈ z.entries, x.mapped = none ∧ x.span = none ∧ x.poison = 0

/-- The 32-bit word of a stash at an offset. -/
def Sys2Proof.Claims.stashWord (z : Station) (o : Nat) : Nat := leNat (stashBytes z o 4)

/-- The accumulators after a matrix command: element (r, k) of accumulator `n` is `f r k`, and every other one's is as before. -/
def Sys2Proof.Claims.AccHolds (before after : Station) (n : Nat) (f : Nat → Nat → Nat) : Prop :=
  ∀ m ≤ 3, ∀ r < 64, ∀ k < 64, accElem after m r k = if m = n then f r k % 2 ^ 32 else accElem before m r k

/-- A matrix operand whose record names an unscaled binary32 tile of contiguous rows in the stash (R284). -/
def Sys2Proof.Claims.StashTile (d : Cmd) (i : Nat) (p : Platform) (c : Core) (x : Shape) (c1 : Core) : Prop :=
  d.shape i p c = .ok (x, c1) ∧ x.stash = true ∧ x.lineage = false ∧ x.format = 0 ∧ x.scale = 0 ∧ x.span = 0 ∧
    1 ≤ x.dim 0 ∧ 1 ≤ x.dim 1 ∧ x.dim 2 = 1 ∧ x.dim 3 = 1 ∧ x.stride 0 = 0 ∧ x.base % 4 = 0 ∧
    x.base + 4 * (x.dim 1 * x.dim 0) ≤ 2 ^ 20

/-- Element (r, k) of such a tile. -/
def Sys2Proof.Claims.tileWord (z : Station) (x : Shape) (r k : Nat) : Nat := stashWord z (x.base + 4 * (r * x.dim 0 + k))

/-- A command of an engine ends OK with a result. -/
def Sys2Proof.Claims.EndsOk (engine : Nat) (d : Cmd) (c : Core) (result : Nat) : Core :=
  { dropCmd engine d c with completions := (dropCmd engine d c).completions ++ [⟨d.going, 0, result % 2 ^ 48, none⟩] }

/-- R282 to R284, R287, R288, R291, R277: what accumulators hold: zero after `mx.zero`; the tile and zeros around it after `mx.ld`;
and after `mx.mma` of two tiles over K, in the elements of their product, the old element with the chunks of the products added in
order, and everywhere else the old one. -/
def Sys2Proof.Claims.MatrixEffects : Prop :=
  (∀ (s : State) (pid : Nat) (d : Cmd) (c : Core) (n : Nat), n = d.number 0 → n ≤ 3 → d.station = pid →
    let leaves (c2 : Core) (result : Nat) (f : Nat → Nat → Nat) : Prop := ∃ u, exec d.op s = .next u ∧ u.plat = s.plat ∧
      u.core.mem = c2.mem ∧ u.core.completions = c2.completions ++ [⟨d.going, 0, result, none⟩] ∧
      (u.core.station pid).stash = (c2.station pid).stash ∧ AccHolds (c2.station pid) (u.core.station pid) n f
    (EngineTakes s .mxZero pid mxZeroForm.engine mxZeroRun d c → leaves c 0 fun _ _ => 0) ∧
    (∀ x c1, EngineTakes s .mxLd pid mxLdForm.engine mxLdRun d c → StashTile d 1 s.plat c x c1 → PlainStash (c1.station pid) →
      x.dim 1 ≤ 64 → x.dim 0 ≤ 64 → leaves c1 (x.dim 1 * x.dim 0) fun r k =>
        if r < x.dim 1 ∧ k < x.dim 0 then toF32 (f32Value (tileWord (c1.station pid) x r k)) else 0) ∧
    (∀ a b c1 c2, EngineTakes s .mxMma pid mxMmaForm.engine mxMmaRun d c → d.flag 0 = false → d.flag 1 = false → d.kind 3 = 0 →
      StashTile d 1 s.plat c a c1 → StashTile d 2 s.plat c1 b c2 → PlainStash (c2.station pid) →
      a.dim 1 ≤ 64 → b.dim 0 ≤ 64 → a.dim 0 ≤ b.dim 1 → a.dim 0 ≤ 1024 → leaves c2 (a.dim 0) fun r k =>
        if r < a.dim 1 ∧ k < b.dim 0 then chunks 16 (accElem (c2.station pid) n r k)
          ((List.range (a.dim 0)).map fun i => f32Value (tileWord (c2.station pid) a r i))
          ((List.range (a.dim 0)).map fun i => f32Value (tileWord (c2.station pid) b i k))
        else accElem (c2.station pid) n r k)) ∧
  -- The worked example of R277, and its second chunk.
  (let x (l : List Nat) : List Machine.Num := l.map f32Value
   chunks 32 0 (x [0x45800000, 0x3F800000, 0xC5800000, 0x38000000]) (x [0x45800000, 0x3F800000, 0x45800000, 0x38000000]) = 0x3F800000 ∧
   chunks 32 0 (x ([0x45800000, 0x3F800000, 0xC5800000, 0x38000000] ++ List.replicate 28 0 ++ [0x3F800000]))
     (x ([0x45800000, 0x3F800000, 0x45800000, 0x38000000] ++ List.replicate 28 0 ++ [0x3F800000])) = 0x40000000) ∧
  (∀ kc y, chunks kc y [] [] = y)

/-- R332, R339: `rn.draw` to the stash writes the words of n consecutive tickets of the slot, and its result is the first one's
number; every other byte of the stash is as the take left it. -/
def Sys2Proof.Claims.DrawEffects : Prop :=
  ∀ (s : State) (unit o n v : Nat) (d : Cmd) (c c1 : Core) (ws : List Nat),
    EngineTakes s .rnDraw unit rnDrawForm.engine rnDrawRun d c → d.kind 1 = 3 → o = bitsOf (descWord d.tcw 1) 0 20 → o % 4 = 0 →
    n = d.number 2 → 0 < n → n ≤ 65536 → o + 4 * n ≤ 2 ^ 20 →
    emberTake d (d.number 0) n s.plat c = .ok (some (ws, v), c1) → PlainStash (c1.station d.station) →
    ws.length = n ∧ (∃ seed, ∀ k < n, ws[k]? = some (emberWord seed (d.number 0) ((v + k) % 2 ^ 64))) ∧
    ∃ u, exec .rnDraw s = .next u ∧ u.plat = s.plat ∧ u.core.mem = c1.mem ∧
      u.core.completions = c1.completions ++ [⟨d.going, 0, v % 2 ^ 48, none⟩] ∧
      (∀ k < n, stashWord (u.core.station d.station) (o + 4 * k) = ws.getD k 0) ∧
      ∀ y, (y < o ∨ o + 4 * n ≤ y) → stashBytes (u.core.station d.station) y 1 = stashBytes (c1.station d.station) y 1

/-- R243, R257: `ln.trunc` of a node without a child leaves it the least of its rows and the count, and its committed rows likewise;
the result is its rows; a node that this changes in neither is not written. -/
def Sys2Proof.Claims.TruncEffects : Prop :=
  ∀ (s : State) (unit i t j : Nat) (n : Node) (d : Cmd) (c c1 c2 c3 : Core),
    EngineTakes s .lnTrunc unit lnTruncForm.engine lnTruncRun d c → d.begun = some i → t = d.number 1 →
    restoreNode d.party i s.plat c = .ok ((), c1) → (cmdNode d 0).run s.plat c1 = .ok (.ok (j, n), c2) → n.children = 0 →
    (if n.rows ≤ t ∧ n.committed ≤ t then c3 = c2
     else writeNode d.party j { n with rows := min n.rows t, committed := min n.committed t } s.plat c2 = .ok ((), c3)) →
    exec .lnTrunc s = .next { s with core := EndsOk lnTruncForm.engine d c3 (min n.rows t) }

/-- R350, R352, R357: `dx.in` of the next frame, or a later one, that does not redirect steps the object's frame number on and adds
what the frame makes owed; a frame of a lower number is late: STALE, with the fault word and a LATE event. `dx.ack` of the position
P writes nothing. No other lineage operation of the job is under way. -/
def Sys2Proof.Claims.StreamEffects : Prop :=
  ∀ (s : State) (unit va0 va number tag count : Nat) (o : StreamObj) (kv : Nat × Node) (d : Cmd) (c c1 c2 c3 c4 : Core),
    lineageGoing c4 d.job = false →
    (EngineTakes s .dxIn unit dxInForm.engine dxInRun d c → d.offset 0 s.plat c = .ok (va0, c) → d.covered va0 128 3 = true →
      readFrame d s.plat c = .ok ((number, tag, 0, count, 0), c1) → streamObject d true s.plat c1 = .ok ((va, o), c2) →
      (streamNodes d o).run s.plat c2 = .ok (.ok kv, c3) →
      (o.next ≤ number → o.t ≤ tag → o.owed + count ≤ 255 →
        writeStream d va { o with next := (number + 1) % 2 ^ 64, owed := o.owed + count } s.plat c3 = .ok ((), c4) →
        exec .dxIn s = .next { s with core := EndsOk dxInForm.engine d c4 o.bg }) ∧
      (number < o.next → ∀ c5,
        writeStream d va { o with
          fault := 2 * 2 ^ 56 + min 255 (bitsOf o.fault 48 8 + 1) * 2 ^ 48 + number % 2 ^ 48 } s.plat c3 = .ok ((), c5) →
        sendEvent ⟨homeDie va, 9, d.station, d.job, d.ctx, wordOf va, [wordOf number, wordOf tag, 2]⟩ s.plat c5 = .ok ((), c4) →
        exec .dxIn s = .next { s with core := { dropCmd dxInForm.engine d c4 with
          completions := (dropCmd dxInForm.engine d c4).completions ++ [⟨d.going, stStale, number % 2 ^ 48, none⟩] } })) ∧
    (EngineTakes s .dxAck unit dxAckForm.engine dxAckRun d c → streamObject d true s.plat c = .ok ((va, o), c1) →
      (streamNodes d o).run s.plat c1 = .ok (.ok kv, c4) → d.number 1 = o.p → o.p ≤ o.g →
      exec .dxAck s = .next { s with core := EndsOk dxAckForm.engine d c4 o.p })

/-- R77, R193: a turn of a lineage, Ember, stream, matrix or vector engine whose next command is of the operation: where the
command runs to its end, it leaves its queue and its completion with status and result is on its way, with what it wrote;
where a check ends it, nothing remains of it but what the memory ports have read of the translation tables (R223), and a node that it
had made BUSY is in its saved state; at a page that is not present it waits and a PAGE record is sent. Before
it rounds under RSR it reserves its draws (R275), and a lineage command that has passed its checks makes its node BUSY (R254). Of
single operations: what accumulators hold after `mx.zero`, `mx.ld` and `mx.mma`, and what `rn.draw`, `ln.trunc`, `dx.in` and `dx.ack`
leave.
What the specification leaves open here is the model's: assumption log 6 and 118. -/
def Obligations.EngineTurnsComplete : Prop :=
  Claims.MatrixEffects ∧ Claims.DrawEffects ∧ Claims.TruncEffects ∧ Claims.StreamEffects ∧
  ∀ (s : State) (op : Instr) (unit engine : Nat) (run : Cmd → Act Finish) (d : Cmd) (c c2 : Core),
    EngineTakes s op unit engine run d c →
    (∀ f, run d s.plat c = .ok (f, c2) →
      exec op s = .next { s with core := { dropCmd engine d c2 with
        completions := (dropCmd engine d c2).completions ++ [⟨d.going, f.status, f.result % 2 ^ 48, f.trap⟩] } }) ∧
    (∀ code result trap tlb c3, run d s.plat c = .error (.status code result trap tlb) →
      restoreBegun d s.plat { c with tlb := tlb } = .ok ((), c3) →
      exec op s = .next { s with core := { dropCmd engine d c3 with
        completions := (dropCmd engine d c3).completions ++ [⟨d.going, code, result % 2 ^ 48, trap⟩] } }) ∧
    (d.begun = none → ∀ c, restoreBegun d s.plat c = .ok ((), c)) ∧
    (∀ job va kind size, run d s.plat c = .error (.page job va kind size) →
      exec op s = .next { s with core := markPage s.plat d (va, kind, size) c }) ∧
    (∀ n, run d s.plat c = .error (.reserve n) → exec op s = .next { s with core := reserveFor s.plat d n c }) ∧
    (∀ node va state sources tlb, run d s.plat c = .error (.begin node va state sources tlb) →
      beginNode d node va state sources s.plat { c with tlb := tlb } = .ok ((), c2) →
      exec op s = .next { s with core := c2 })

/-- R184, R185, R187: what the parts of a fill of the stash, and of a copy within it that converts nothing, write: the value's bytes
in turn, and the source's. No other byte of the stash and no byte of memory changes; every byte of the destination is of a part. -/
def Sys2Proof.Claims.CopyEffects : Prop :=
  ∀ (p : Platform) (c : Core) (d : Cmd) (o n : Nat) (z : Station) (plan : CopyPlan),
    z = c.station d.station → PlainStash z → d.kind 0 = 3 → o = bitsOf (descWord d.tcw 0) 0 20 → 0 < n → o + n ≤ 2 ^ 20 →
    plan = planBytes d (.stash d.station o) n →
    let lands (amount j : Nat) (f : Nat → Nat) (bits : Station → Prop) : Prop :=
      ∀ left done bad, let q : CopyPlan := { plan with left := left, done := done, bad := bad }
        ∃ c', partAct q j p c = .ok (.landed amount none, c') ∧ c'.mem = c.mem ∧
          (∀ k, q.partStart j ≤ k → k < q.partEnd j → leNat (stashBytes (c'.station d.station) (o + k) 1) = f k) ∧
          (∀ y, (y < o + q.partStart j ∨ o + q.partEnd j ≤ y) →
            stashBytes (c'.station d.station) y 1 = stashBytes z y 1) ∧ bits (c'.station d.station)
    (∀ k < n, ∃ j ∈ plan.left, plan.partStart j ≤ k ∧ k < plan.partEnd j) ∧
    (d.op = .cpFill → n = 8 * d.number 2 → o % 8 = 0 → (d.flag 3 && d.flag 4) = false →
      planAct d p c = .ok (.parts plan, c) ∧
      ∀ j ∈ plan.left, lands ((plan.partEnd j - plan.partStart j) / 8) j (fun k => d.number 1 / 2 ^ (8 * (k % 8)) % 256) fun z' =>
        ∀ k, plan.partStart j ≤ 8 * k → 8 * k < plan.partEnd j →
          let full (w : Station) : Bool := (stashEntry w ((o + 8 * k) / 256)).full.getLsbD ((o + 8 * k) % 256 / 8)
          full z' = if d.flag 3 then true else if d.flag 4 then false else full z) ∧
    (∀ a, d.op = .cpCopy → n = d.number 2 → descImm d.tcw 3 = 0 → d.kind 1 = 3 → a = bitsOf (descWord d.tcw 1) 0 20 →
      a + n ≤ 2 ^ 20 → (o + n ≤ a ∨ a + n ≤ o) →
      planAct d p c = .ok (.parts plan, c) ∧
      ∀ j ∈ plan.left, lands (plan.partEnd j - plan.partStart j) j (fun k => leNat (stashBytes z (a + k) 1)) fun _ => True)

/-- R319, R320: the one piece of a collective between stash ranges: after `cl.bc` by its root the destination holds the source, and
after `cl.ag` the own member's place holds it; nothing else in the stash changes. Where other members take part, the free value that
stands for them does not cancel it. Elements of several members reduced in their order. -/
def Sys2Proof.Claims.CollectiveEffects : Prop :=
  (∀ (s : State) (e : EventArg) (x : Collective) (m : Members) (d : Cmd) (o a l : Nat) (z : Station),
    s.core.work = .event e → s.core.collectives[e.index]? = some x → firstCollective s.core x = true → d = x.cmd →
    d.waits s.core = false → x.left = some [0] → x.bad = none → m = membersOf s.plat s.core d.job x.group → m.lost = none →
    (m.count ≤ 1 ∨ (Config.freeWord s.core.freeNo).toNat % 4 ≠ 3) → z = s.core.station d.station → PlainStash z →
    d.kind 0 = 3 → o = bitsOf (descWord d.tcw 0) 0 20 → d.kind 1 = 3 → a = bitsOf (descWord d.tcw 1) 0 20 → d.kind 4 = 0 →
    l = d.number 2 → 0 < l → a + l ≤ 2 ^ 20 →
    let lands (size at' : Nat) (f : Finish → Prop) : Prop := ∃ u r, exec .collectiveStart s = .next u ∧ u.plat = s.plat ∧
      u.core.mem = s.core.mem ∧ f r ∧ u.core.completions = s.core.completions ++ [⟨d.going, r.status, r.result % 2 ^ 48, r.trap⟩] ∧
      (∀ k < l, stashBytes (u.core.station d.station) (o + at' + k) 1 = stashBytes z (a + k) 1) ∧
      ∀ y, (y < o ∨ o + size ≤ y) → stashBytes (u.core.station d.station) y 1 = stashBytes z y 1
    (d.op = .clBc → (ctlOf d).root = m.own → l ≤ 65536 → o + l ≤ 2 ^ 20 → lands l 0 fun r => r = ⟨0, l, none⟩) ∧
    (d.op = .clAg → m.own < m.count → m.count * l ≤ 65536 → o + m.count * l ≤ 2 ^ 20 →
      lands (m.count * l) (m.own * l) fun r => r = ⟨0, m.count * l, none⟩ ∨ ∃ b, r = ⟨3, b, none⟩)) ∧
  ∀ e ∈ [(0, 0, [0x3F800000, 0x40000000, 0xBF000000], 0x40200000), (0, 0, [0x4B800000, 0x3F800000, 0xCB800000], 0),
      (0, 0, [0x4B800000, 0xCB800000, 0x3F800000], 0x3F800000), (0, 1, [0x3F80, 0x3B80, 0x3B80], 0x3F81),
      (0, 2, [0xFFFFFFFF, 1, 5], 5), (2, 0, [0, 0x80000000], 0x80000000), (1, 0, [0x80000000, 0], 0), (1, 2, [0x80000000, 0x7FFFFFFF], 0x7FFFFFFF),
      (2, 2, [0x80000000, 0x7FFFFFFF], 0x80000000), (1, 0, [0x7FA00000, 0xBF800000], 0xBF800000), (2, 0, [0x7FA00000, 0x7FC00001], 0x7FC00000)],
    reduceList e.1 e.2.1 e.2.2.1 = e.2.2.2

/-- R327 to R330, R335: a greedy `sm.run` without a token word, whose chain is a temperature stage below 2^-14 and the end, over a row
of binary32 logits in the stash, of which one is neither NaN nor −∞: the result is the token with the largest logit, the lowest
index among equals; no NaN is chosen, and no word is drawn. -/
def Sys2Proof.Claims.SampleEffects : Prop :=
  ∀ (s : State) (die chain : Nat) (x : Shape) (b e : Scb) (d : Cmd) (c c1 c2 : Core) (logit : Nat → Nat),
    s.core.work = .engine die → sconceBusy s.core die = none → dieNext s.plat s.core die 6 = some d → d.op = .smRun →
    c = passTurn die 6 d s.core → d.kind 3 = 0 → d.offset 1 s.plat c = .ok (chain, c) → d.covered chain 32 1 = true →
    StashTile d 0 s.plat c x c1 → x.dim 1 = 1 → x.dim 0 ≤ 2 ^ 18 → PlainStash (c1.station d.station) →
    (readChain d 16 chain []).run s.plat c1 = .ok (.ok [b, e], c2) → b.kind = 1 → e.kind = 0 →
    (b.p0 < 0x38800000 ∨ 0x80000000 ≤ b.p0 ∧ b.p0 < 0xB8800000) → logit = tileWord (c1.station d.station) x 0 →
    (∃ i < x.dim 0, isNan (logit i) = false ∧ logit i ≠ 0xFF800000) →
    ∃ t < x.dim 0, exec .smRun s = .next { s with core := sconceAfter d (.ended ⟨0, t, none⟩) c2 } ∧ isNan (logit t) = false ∧
      ∀ i < x.dim 0, (fpLt (logit t) (logit i)).1 = 0 ∧ (i < t → isNan (logit i) = true ∨ (fpLt (logit i) (logit t)).1 = 1)

/-- R183, R190: a copy engine's turn for an operation: it starts the next command that may start, or goes on with a started
one: it checks it and divides it into parts, or performs one of its parts, of the rows of a gather or scatter the first that
is left, and ends it after the last; `cp.cancel` runs ahead of the queue's order. R310, R318, R334, R340: a turn of a die's Lantern admits its next
command to the group that it names, where the command waits for those of the other members, or ends it with FAULT where
there is no such group; a turn of a die's Sconce starts its next command, or goes on with the one that it has started. Of single
operations: what `cp.fill` and `cp.copy` write in a stash, what `cl.bc` and `cl.ag` leave there, reductions, and the token of a greedy
`sm.run`.
What the specification leaves open here is the model's: assumption log 6 and 49, and 13 for what other members bring. -/
def Obligations.CopyLanternSconceTurns : Prop :=
  Claims.CopyEffects ∧ Claims.CollectiveEffects ∧ Claims.SampleEffects ∧
  (∀ (s : State) (unit : Nat), s.core.work = .engine unit →
    let c : Core := { s.core with freeNo := s.core.freeNo + 1 }
    (∀ e ∈ copyTable,
      (∀ d, copyStart s.core unit e = some d → (∀ x ∈ (s.core.station unit).copies, x.cmd.op = e → x.cmd.waits s.core = true) →
        exec e s = .next { s with core := startCopy d c }) ∧
      (∀ x, copyStart s.core unit e = none →
        (s.core.station unit).copies.filter (fun y => y.cmd.op == e && !y.cmd.waits s.core) = [x] →
        (x.plan = none →
          (∀ f c2, planAct x.cmd s.plat c = .ok (.ended f, c2) → exec e s = .next { s with core := finishCmd 1 x.cmd f c2 }) ∧
          (∀ q c2, planAct x.cmd s.plat c = .ok (.parts q, c2) → exec e s = .next { s with core := setPlan x.cmd q c2 })) ∧
        (∀ q, x.plan = some q → q.left ≠ [] → ∃ j ∈ q.left,
          ((q.eff.op = .cpGather ∨ q.eff.op = .cpScatter) → q.left.head? = some j) ∧
          (∀ f c2, partAct q j s.plat c = .ok (.ended f, c2) → exec e s = .next { s with core := finishCmd 1 x.cmd f c2 }) ∧
          (∀ n bad c2, partAct q j s.plat c = .ok (.landed n bad, c2) →
            let r := q.after j n bad
            let c3 := if r.left = [] then finishCmd 1 x.cmd r.finish c2 else setPlan x.cmd r c2
            exec e s = .next { s with core := c3 })))) ∧
    (∀ d f c2, (s.core.queue unit 1).find? (fun d => d.op == .cpCancel) = some d → cpCancelRun d s.plat s.core = .ok (f, c2) →
      exec .cpCancel s = .next { s with core := { dropCmd 1 d c2 with
        completions := (dropCmd 1 d c2).completions ++ [⟨d.going, f.status, f.result % 2 ^ 48, f.trap⟩] } })) ∧
  (∀ (s : State) (die : Nat), s.core.work = .engine die →
    (∀ op ∈ [Instr.clAg, .clRs, .clAr, .clBc, .clGrp], ∀ d, dieNext s.plat s.core die 5 = some d → d.op = op → d.node = none →
      let c := passTurn die 5 d s.core
      (groupLive s.plat s.core d.job (groupOf d) = true →
        exec op s = .next { s with core := { dropCmd 5 d c with
          seq := s.core.seq + 1, collectives := s.core.collectives ++ [⟨d, groupOf d, s.core.seq, none, none⟩] } }) ∧
      (groupLive s.plat s.core d.job (groupOf d) = false →
        exec op s = .next { s with core := { dropCmd 5 d c with
          completions := (dropCmd 5 d c).completions ++ [⟨d.going, 3, 0, none⟩] } })) ∧
    (∀ e ∈ [(Instr.smRun, smRunStart, smRunNext), (.smBatch, smBatchStart, smBatchNext)],
      (∀ d r c2, sconceBusy s.core die = none → dieNext s.plat s.core die 6 = some d → d.op = e.1 →
        e.2.1 d s.plat (passTurn die 6 d s.core) = .ok (r, c2) →
        exec e.1 s = .next { s with core := sconceAfter d r c2 }) ∧
      (∀ x r c2, sconceBusy s.core die = some x → x.cmd.op = e.1 → x.token = none → x.cmd.waits s.core = false →
        e.2.2 x s.plat s.core = .ok (r, c2) → exec e.1 s = .next { s with core := sconceAfter x.cmd r c2 })))

/-- The vector operations of two sources, with the value of an element from its sources and the old destination (R294,
R296). -/
def Sys2Proof.Claims.vectorTable : List (Instr × (Nat → Nat → Nat → Nat)) :=
  [(.vxAdd, fun a b _ => f32Add a b), (.vxSub, fun a b _ => f32Sub a b), (.vxMul, fun a b _ => f32Mul a b),
   (.vxFma, f32Fma), (.vxMin, fun a b _ => f32Min a b), (.vxMax, fun a b _ => f32Max a b),
   (.vxSel, fun a b c => if c ≠ 0 then a else b)]

/-- The command at the head of a station's vector queue, of `n` elements and a destination at `o`. -/
def Sys2Proof.Claims.VecTakes (s : State) (pid : Nat) (d : Cmd) (op : Instr) (o n : Nat) : Prop :=
  s.core.work = .engine pid ∧ stationNext s.core pid 4 = some d ∧ d.op = op ∧ d.station = pid ∧ n = vecCount d ∧ 0 < n ∧
    o % 4 = 0 ∧ vecOffset d 0 s.plat s.core = .ok (o, s.core) ∧ PlainStash (s.core.station pid)

/-- A source operand of a vector command: within the stash, aligned, and of `m` elements at `a`. -/
def Sys2Proof.Claims.VecSource (s : State) (d : Cmd) (i a m : Nat) : Prop :=
  a % 4 = 0 ∧ a + 4 * m ≤ 2 ^ 20 ∧ vecOffset d i s.plat s.core = .ok (a, s.core)

/-- The command ends OK with a result, words stand at `o`, and every other byte of the stash is unchanged. -/
def Sys2Proof.Claims.VecLeaves (s : State) (pid : Nat) (d : Cmd) (o : Nat) (words : List Nat) (result : Nat) : Prop :=
  ∃ u, exec d.op s = .next u ∧ u.plat = s.plat ∧ u.core.mem = s.core.mem ∧
    u.core.completions = s.core.completions ++ [⟨d.going, 0, result % 2 ^ 48, none⟩] ∧
    (∀ i < words.length, stashWord (u.core.station pid) (o + 4 * i) = words.getD i 0 % 2 ^ 32) ∧
    (∀ y, (y < o ∨ o + 4 * words.length ≤ y) → stashBytes (u.core.station pid) y 1 = stashBytes (s.core.station pid) y 1)

/-- The vector operations of one source, with the value of an element from its source (R294). -/
def Sys2Proof.Claims.vectorUnary : List (Instr × (Nat → Nat)) :=
  [(.vxAbs, fun x => if isNan x then 0x7FC00000 else x % 2 ^ 31), (.vxNeg, fun x => if isNan x then 0x7FC00000 else x ^^^ 2 ^ 31),
   (.vxRcp, fun x => toF32 (divNum (Num.ofInt 1) (f32Value x))), (.vxRsqrt, fun x => toF32 (rsqrtNum (f32Value x))),
   (.vxExp2, fun x => toF32 (exp2Num (f32Value x))), (.vxLog2, fun x => toF32 (log2Num (f32Value x)))]

/-- What R294 says of particular elements of the four functions, and values that are exact or follow from a known expansion. -/
def Sys2Proof.Claims.vectorCases : List (Instr × List (Nat × Nat)) :=
  [(.vxRcp, [(0, 0x7F800000), (0x80000000, 0xFF800000), (0x7F800000, 0), (0xFF800000, 0x80000000), (0x40000000, 0x3F000000),
      (0x40400000, 0x3EAAAAAB), (0x7FA00000, 0x7FC00000)]),
   (.vxRsqrt, [(0, 0x7F800000), (0x80000000, 0xFF800000), (0x7F800000, 0), (0xBF800000, 0x7FC00000), (0x40800000, 0x3F000000),
      (0x40000000, 0x3F3504F3)]),
   (.vxExp2, [(0xFF800000, 0), (0x7F800000, 0x7F800000), (0x43000000, 0x7F800000), (0x80000000, 0x3F800000), (0x3F800000, 0x40000000),
      (0x3F000000, 0x3FB504F3), (0xC3150000, 1), (0xC3160000, 0)]),
   (.vxLog2, [(0, 0xFF800000), (0x80000000, 0xFF800000), (0x7F800000, 0x7F800000), (0xBF800000, 0x7FC00000), (0x3F800000, 0),
      (0x41000000, 0x40400000), (0x3F000000, 0xBF800000), (1, 0xC3150000)])]

/-- The predicates of `vx.cmp` (R296), by the members of R94. -/
def Sys2Proof.Claims.comparisons : List (Nat × (Nat → Nat → Bool)) :=
  [(0, fun x y => (fpEq x y).1 == 1), (1, fun x y => (fpLt x y).1 == 1), (2, fun x y => (fpLe x y).1 == 1),
   (3, fun x y => (fpEq x y).1 == 0)]

/-- The tree of R280 over 2^k lanes: lane i with lane i + h, h halving. -/
def Sys2Proof.Claims.laneTree {α : Type} (f : α → α → α) : Nat → (Nat → α) → α
  | 0, v => v 0
  | k + 1, v => laneTree f k fun i => f (v i) (v (i + 2 ^ k))

/-- Blocks of 64 lanes, those from `n` on the fill, each reduced by the tree and then combined in ascending order (R297). -/
def Sys2Proof.Claims.reduced {α : Type} (f : α → α → α) (fill : α) (n : Nat) (v : Nat → α) : α :=
  let block (j : Nat) : α := laneTree f 6 fun i => if 64 * j + i < n then v (64 * j + i) else fill
  (List.range ((n - 1) / 64)).foldl (fun x j => f x (block (j + 1))) (block 0)

/-- The combination of `vx.argmax`: the larger value, −0 below +0, the lower index at equal values, a NaN below any number
(R297). -/
def Sys2Proof.Claims.argLarger (x y : Nat × Nat) : Nat × Nat :=
  let below (a b : Nat) : Bool := (fpLt a b).1 == 1 || a % 2 ^ 32 == 0x80000000 && b % 2 ^ 32 == 0
  if isNan x.1 ∧ isNan y.1 then (0x7FC00000, 0xFFFFFFFF) else if isNan x.1 then y else if isNan y.1 then x
  else if below x.1 y.1 then y else if below y.1 x.1 then x else if x.2 ≤ y.2 then x else y

/-- R280, R293 to R298: a vector command whose operands lie in scratch entries of the plain layout, within the stash, 4-aligned,
without poison, each source being the destination itself or clear of it, ends OK, and every other byte of the stash is unchanged. A
command of two sources or of one gives every element of the destination the operation's value, those of a value and an index theirs,
and a comparison all ones or zero; a reduction writes what the blocks' trees, combined in order, give; a gather moves the words that
its indices name. -/
def Obligations.VectorElementwise : Prop :=
  (∀ (s : State) (pid : Nat) (d : Cmd) (op : Instr) (o a n : Nat),
    let old (y i : Nat) : Nat := stashWord (s.core.station pid) (y + 4 * i)
    VecTakes s pid d op o n → VecSource s d 1 a n →
    (o + 4 * n ≤ 2 ^ 20 → (a = o ∨ a + 4 * n ≤ o ∨ o + 4 * n ≤ a) →
      (∀ b, VecSource s d 2 b n → (b = o ∨ b + 4 * n ≤ o ∨ o + 4 * n ≤ b) →
        (∀ e ∈ vectorTable, op = e.1 → VecLeaves s pid d o ((List.range n).map fun i => e.2 (old a i) (old b i) (old o i)) n) ∧
        (∀ e ∈ comparisons, op = .vxCmp → d.tcw.flags.toNat % 4 = e.1 →
          VecLeaves s pid d o ((List.range n).map fun i => if e.2 (old a i) (old b i) then 0xFFFFFFFF else 0) n)) ∧
      (∀ e ∈ vectorUnary, op = e.1 → VecLeaves s pid d o ((List.range n).map fun i => e.2 (old a i)) n)) ∧
    ((a + 4 * n ≤ o ∨ o + 4 ≤ a ∨ a = o ∧ n = 1) → o + 4 ≤ 2 ^ 20 →
        (op = .vxRsum → VecLeaves s pid d o
          [if (List.range n).any (fun i => isNan (old a i)) then 0x7FC00000 else reduced f32Add 0 n (old a)] n) ∧
        (op = .vxRmax → VecLeaves s pid d o
          [if (List.range n).all (fun i => isNan (old a i)) then 0x7FC00000 else reduced f32Max 0xFF800000 n (old a)] n)) ∧
    ((a + 4 * n ≤ o ∨ o + 8 ≤ a) → o % 8 = 0 → o + 8 ≤ 2 ^ 20 → op = .vxArgmax →
        ∀ r, r = (if (List.range n).all (fun i => isNan (old a i)) then (0x7FC00000, 0xFFFFFFFF)
          else reduced argLarger (0x7FC00000, 0xFFFFFFFF) n fun i => (old a i, i)) →
        VecLeaves s pid d o [r.2, r.1] r.2)) ∧
  (∀ (s : State) (pid : Nat) (d : Cmd) (op : Instr) (o n : Nat), VecTakes s pid d op o n → o + 4 * n ≤ 2 ^ 20 →
    (op = .vxFill → VecLeaves s pid d o (List.replicate n (d.number 1)) n) ∧
    (op = .vxIota → VecLeaves s pid d o ((List.range n).map fun i => d.number 1 + i) n) ∧
    ∀ a b, vecOffset d 1 s.plat s.core = .ok (a, s.core) → a % 4 = 0 → VecSource s d 2 b n → (b + 4 * n ≤ o ∨ o + 4 * n ≤ b) →
      ∀ ix : Nat → Nat, (∀ i, ix i = a + 4 * stashWord (s.core.station pid) (b + 4 * i)) →
      (∀ i < n, ix i + 4 ≤ 2 ^ 20 ∧ (ix i + 4 ≤ o ∨ o + 4 * n ≤ ix i)) →
      op = .vxGather → VecLeaves s pid d o ((List.range n).map fun i => stashWord (s.core.station pid) (ix i)) n) ∧
  ∀ e ∈ vectorCases, ∀ f ∈ vectorUnary, f.1 = e.1 → ∀ q ∈ e.2, f.2 q.1 = q.2

/-! ### Events: what is on its way arrives -/

namespace Sys2Proof.Claims

/-- The turn in hand is an event with argument `e`. -/
def Happens (s : State) (e : EventArg) : Prop := s.core.work = .event e

/-- The record of a live strand of its own context is reached, and no `ctxflush` waits for it. -/
def Settled (c : Core) (k : Key) (x : Strand) : Prop :=
  c.strand? k = some x ∧ x.live = true ∧ recordAt c k.job k.ctx = some x ∧ x.resident = true ∧ flushWaits c k = false

end Sys2Proof.Claims

/-- R65, R66: LONG_LATENCY_COMPLETE of an operation that brings a value: the operation is outstanding no more, its
destination is full with the value, its flags are set, and the window closes with the last operation; one that brings a
poison leaves 0 and a POISON with the operation's address and count. A lineage member under way ends first (R245), and its value is then its
operation's. Memory, and every other register, stay.
What the specification leaves open here is the model's: assumption log 88. -/
def Obligations.LongLatencyDelivers : Prop :=
  (∀ (s : State) (e : EventArg) (k : Key) (x : Strand) (o : LlOp) (r : LinRun) (v : Int) (c1 : Core),
    Happens s e → k = ⟨e.job, e.addr⟩ → Settled s.core k x → x.ops[e.index]? = some o → o.result = .pending →
    x.dropped = none → s.core.members.find? (fun r => r.key == k && r.stamp == o.stamp) = some r →
    endMember r s.plat s.core = .ok (v, c1) → flushWaits c1 k = false →
    exec .longLatencyComplete s = .next { s with core := c1.updStrand k fun y => { y with
      ops := y.ops.map fun q => if q.stamp = o.stamp ∧ q.result = .pending then
        { q with result := .value (BitVec.ofInt 64 v) 0 } else q } }) ∧
  ∀ (s : State) (e : EventArg) (k : Key) (x : Strand) (o : LlOp) (v : Word) (flags : BitVec 5) (bad : List Poison),
    Happens s e → k = ⟨e.job, e.addr⟩ → Settled s.core k x → x.ops[e.index]? = some o →
    ((o.result = .value v flags ∧ bad = []) ∨
      (∃ va, o.result = .poison va ∧ v = 0 ∧ flags = 0 ∧
        bad = [⟨o.addr, BitVec.ofNat 64 (va / 8 * 8), o.issued, o.stamp, false⟩])) →
    ∃ u y, exec .longLatencyComplete s = .next u ∧ u.core.strand? k = some y ∧ u.core.mem = s.core.mem ∧ u.plat = s.plat ∧
      y.ops = x.ops.eraseIdx e.index ∧ y.fpflags = x.fpflags ||| flags ∧ y.poison = x.poison ++ bad ∧ y.pc = x.pc ∧
      y.mode = x.mode ∧ (y.window = if x.ops.eraseIdx e.index = [] then 0 else x.window) ∧
      (∀ n, o.dest = some n → y.g[n] = v ∧ y.mask.getLsbD n = true) ∧
      (∀ n : Fin 16, o.dest ≠ some n → y.g[n] = x.g[n] ∧ y.mask.getLsbD n = x.mask.getLsbD n)

/-- R16, R51, R77: a completion in mode 4 writes the status word into the register, full, and a strand that waits for it is
ready at once; one in mode 1 puts it into the low lane of the strand's inbox; one in mode 2 stores it full; with each the
strand has one command fewer outstanding. One in mode 3 is delivered with its decrement, which it is on its way with.
What the specification leaves open here is the model's: assumption log 42. -/
def Obligations.CompletionWord : Prop :=
  ∀ (p : Platform) (c : Core) (k : Key) (x : Strand) (d : Completion) (n : Fin 16) (word : Word),
    Settled c k x → d.cmd.job = k.job → d.cmd.ctx = k.ctx → d.result < 2 ^ 48 → d.status < 8 →
    word = BitVec.ofNat 64 (d.status * 2 ^ 56 + compTag d.cmd.tcw * 2 ^ 48 + d.result) →
    (compMode d.cmd.tcw = 0 → deliverMode d p c = .ok ((), c.updStrand k fun y => y.afterDelivery d)) ∧
    (compMode d.cmd.tcw = 4 → statusReg d.cmd.tcw = some n →
      let c1 := c.updStrand k fun y => { y with
        g := y.g.set n word, mask := y.mask ||| (1 <<< n.val), notes := y.notes.set n (.completion d.trap (x.hold == .engines)) }
      let c2 := wakeBit k n true (if x.parked = some (.reg n) ∧ x.stopping = false then wakeStrand p k c1 else c1)
      deliverMode d p c = .ok ((), c2.updStrand k fun y => y.afterDelivery d)) ∧
    (compMode d.cmd.tcw = 1 → x.inLow.count + (c.messages.filter fun m => m.key == k && m.high == false).length < 8 →
      let c1 := wakeIf k .inbox (c.updStrand k fun y => { y with
        inLow := y.inLow.push word (.completion d.trap (x.hold == .engines)) })
      deliverMode d p c = .ok ((), c1.updStrand k fun y => y.afterDelivery d)) ∧
    (∀ va, d.cmd.w7Addr = some va →
      (∀ c1 c2, compMode d.cmd.tcw = 2 → storeFull d.cmd.party d.cmd.station va word .station p c = .ok ((), c1) →
        noteDelivered d p c1 = .ok ((), c2) → deliverMode d p c = .ok ((), c2)) ∧
      (compMode d.cmd.tcw = 3 → deliverMode d p c = .ok ((), { c with decrements := c.decrements ++
        [⟨d.cmd.job, va, d.cmd.job, d.cmd.station, d.cmd.ctx, some d⟩] })))

/-- R77, R171, R193, R283, R380: ENGINE_COMPLETION of an ended command whose signals are stored and which no earlier one of
its engine holds back, as a word or with a decrement: its word is delivered in its mode, and the completion is on its way no more; a page that is not
present has it wait with a PAGE record, and a line that another station has pinned in the order of arrival (R166); a node's command ends its task. Once it stands in its destination the strand has one
command fewer outstanding, and a trap that mode 0 holds is pending. -/
def Obligations.EngineCompletes : Prop :=
  (∀ (s : State) (e : EventArg) (d : Completion) (c1 : Core),
    Happens s e → s.core.completions[e.index]? = some d → (∀ g ∈ s.core.signals, g.cmd.seq ≠ d.cmd.seq) →
    (∀ y ∈ s.core.completions.take e.index, inOrder s.plat s.core y.cmd d.cmd = false) →
    (∀ g ∈ s.core.decrements, ∀ y, g.done = some y → inOrder s.plat s.core y.cmd d.cmd = false) → d.cmd.waits s.core = false →
    (d.cmd.node = none → deliverMode d s.plat s.core = .ok ((), c1) →
      exec .engineCompletion s = .next { s with core := { c1 with completions := c1.completions.eraseIdx e.index } }) ∧
    (∀ job va kind size, d.cmd.node = none → deliverMode d s.plat s.core = .error (.page job va kind size) →
      exec .engineCompletion s = .next { s with core := notePage s.plat d.cmd (updCompletion e.index) (va, kind, size) s.core }) ∧
    (∀ line, d.cmd.node = none → deliverMode d s.plat s.core = .error (.park (.pinLine line)) →
      exec .engineCompletion s = .next { s with core := noteRetry s.plat d.cmd (updCompletion e.index) line s.core }) ∧
    (∀ r, d.cmd.node = some r → exec .engineCompletion s = .next { s with core := { s.core with
      tasks := s.core.tasks.map fun t => if t.job = d.cmd.job ∧ t.record = r then { t with ended := some d.status } else t
      completions := s.core.completions.eraseIdx e.index } })) ∧
  (∀ (p : Platform) (c c1 : Core) (d : Completion) (y : Strand),
    (liveStrand c ⟨d.cmd.job, d.cmd.ctx⟩ = some y → reachRecord ⟨d.cmd.job, d.cmd.ctx⟩ p c = .ok ((), c1) →
      noteDelivered d p c = .ok ((), c1.updStrand ⟨d.cmd.job, d.cmd.ctx⟩ fun z => z.afterDelivery d)) ∧
    (liveStrand c ⟨d.cmd.job, d.cmd.ctx⟩ = none → noteDelivered d p c = .ok ((), c)) ∧
    (y.afterDelivery d).engines = y.engines - 1 ∧
    (∀ cause tval, d.trap = some (cause, tval) → compMode d.cmd.tcw = 0 → y.engTrap = 0 →
      (y.afterDelivery d).engTrap = BitVec.ofNat 64 cause ∧ (y.afterDelivery d).engTval = tval))

/-- R122, R123: the first word on its way over a link or to an inbox arrives where its capability is the receiving station's
key, and wakes the strand that waits for it; an inbox word to a record that is not live is discarded and reported.
What the specification leaves open here is the model's: assumption log 36 and 38. -/
def Obligations.WordsArrive : Prop :=
  ∀ (s : State) (e : EventArg), Happens s e → e.index = 0 →
    (∀ m, s.core.linkMsgs[0]? = some m → m.word.cap = (s.core.station m.pid).pkey →
      let c : Core := { s.core with linkMsgs := s.core.linkMsgs.tail }
      let put (z : Station) : Station :=
        if m.east then { z with eastIn := z.eastIn ++ [m.word] } else { z with westIn := z.westIn ++ [m.word] }
      exec .linkWordArrival s = .next { s with core := wakeAll (.link m.pid m.east false) (c.updStation m.pid put) }) ∧
    (∀ m x, s.core.messages[0]? = some m → Settled s.core m.key x → m.cap = (s.core.station x.station).pkey →
      let put (y : Strand) : Strand :=
        if m.high then { y with inHigh := y.inHigh.push m.word .plain } else { y with inLow := y.inLow.push m.word .plain }
      exec .inboxPush s = .next { s with core := { wakeIf m.key .inbox (s.core.updStrand m.key put) with
        messages := s.core.messages.tail } }) ∧
    (∀ m, s.core.messages[0]? = some m → liveStrand s.core m.key = none →
      let c := wakeLane m.key m.high (supSend s.plat ⟨home m.key.ctx / 160, 5, home m.key.ctx, m.key.job, m.sender.ctx,
        BitVec.ofNat 64 m.key.ctx, [m.word]⟩ s.core)
      exec .inboxPush s = .next { s with core := { c with messages := c.messages.tail } })

/-- R66, R109, R138: TRAP_ENTRY of a slotted strand in user mode with nothing outstanding: the earliest POISON, MULTI where
there are more, the saved registers with the operation's address and count, and none left; with no POISON the trap that
waited, and what an engine left for it is cleared. STORE_REFUSED turns a refusal into a POISON.
What the specification leaves open here is the model's: assumption log 27 and 40. -/
def Obligations.TrapsAreEntered : Prop :=
  ∀ (s : State) (e : EventArg) (k : Key) (x : Strand) (slot : Nat),
    Happens s e → k = ⟨e.job, e.addr⟩ → s.core.strand? k = some x → x.live = true →
    (x.place = .slotted slot → x.ops = [] → x.parked = none → x.dropped = none → s.core.cancelled.contains k.job = false →
      x.sup = false →
      (∀ q, x.im = false → earliestPoison x.poison = some q →
        exec .trapEntry s = .next { s with core := s.core.setStrand { x with
          poison := [], cause := BitVec.ofNat 64 (0x07 + (if 1 < x.poison.length then 65536 else 0)), tval := q.va
          epc := x.pc, opc := q.opc, lacount := BitVec.ofNat 64 q.count, savedMode := x.mode
          mode := ((x.mode &&& ~~~4) ||| 8) ||| 1, pc := BitVec.ofNat 64 (jobField s.plat s.core k.job 8)
          hold := .none, trapPend := none } }) ∧
      (∀ t, (x.poison = [] ∨ x.im = true) → x.trapPend = some t → t.src = none →
        exec .trapEntry s = .next { s with core := s.core.setStrand { x with
          cause := BitVec.ofNat 64 (t.cause + 256 * t.code), tval := t.tval, epc := t.epc, opc := 0, lacount := 0
          savedMode := x.mode, mode := ((x.mode &&& ~~~4) ||| 8) ||| 1
          pc := BitVec.ofNat 64 (jobField s.plat s.core k.job 8), hold := .none, trapPend := none } }) ∧
      (∀ t a, (x.poison = [] ∨ x.im = true) → x.trapPend = some t → t.src = some a →
        let y := x.clearAcquired a
        exec .trapEntry s = .next { s with core := s.core.setStrand { y with
          cause := BitVec.ofNat 64 (t.cause + 256 * t.code), tval := t.tval, epc := t.epc, opc := 0, lacount := 0
          savedMode := y.mode, mode := ((y.mode &&& ~~~4) ||| 8) ||| 1
          pc := BitVec.ofNat 64 (jobField s.plat s.core k.job 8), hold := .none, trapPend := none } })) ∧
    (∀ q, x.poison = [q] → earliestPoison x.poison = some q) ∧
    (∀ a b, x.poison = [a, b] → earliestPoison x.poison = some (if b.stamp < a.stamp then b else a)) ∧
    (∀ r, Settled s.core k x → x.refusals[e.index]? = some r →
      exec .storeRefused s = .next { s with core := s.core.setStrand { x with
        refusals := x.refusals.eraseIdx e.index, poison := x.poison ++ [{ r with count := r.count - 1 }] } })

/-! ### Events: contexts -/

/-- R44, R51, R54, R166: a matching wake makes a parked strand WAITING, and one that matches nothing is lost; the access that
waits for a PIN line is reissued as its holder releases it; ACTIVATION_START
takes an entry for the head of the queue; a line arrives, brought out of L2 (R379), and wakes the strand that waits for it; ACTIVATION_COMPLETE of a
context with its first four lines makes it WAITING; a migrated context, all of whose accesses are performed (R169), arrives WAITING at its target, the lines of its record that it had not
yet brought out of L2. Free slots are then
filled.
What the specification leaves open here is the model's: assumption log 29, 81 and 132. -/
def Obligations.ContextsMove : Prop :=
  ∀ (s : State) (e : EventArg), Happens s e →
    (∀ w x, s.core.wakes[e.index]? = some w → (∀ v ∈ s.core.wakes.take e.index, wakesBefore v w = false) →
      w.supervisor = false → liveStrand s.core w.key = some x → s.core.cancelled.contains w.key.job = false →
      commandBefore s.core w = false →
      let c : Core := { s.core with wakes := s.core.wakes.eraseIdx e.index }
      (x.stopping = false → wakeMatches w x = false → exec .strandWake s = .next { s with core := c }) ∧
      (∀ r, x.stopping = false → x.parked = some r → w.reason = some r → x.place = .parked → x.dropped = none →
        (∀ l, r ≠ .pinLine l) →
        let c2 := (c.setStrand { x with place := .waiting, parked := none, since := s.core.seq }).tick
        exec .strandWake s = .next { s with core := fillSlots s.plat x.station c2 }) ∧
      (∀ l d c1, x.parked = some (.pinLine l) → w.reason = some (.pinLine l) → x.dropped = some d → d.woken = true →
        performDropped w.key { x with parked := none } d s.plat (c.setStrand { x with parked := none }) = .ok ((), c1) →
        exec .strandWake s = .next { s with core := c1 })) ∧
    (∀ k rest x c1, (s.core.station e.unit).activations = k :: rest → liveStrand s.core k = some x → x.place = .stored →
      s.core.cancelled.contains k.job = false →
      (s.core.strands.filter fun y => y.place == .activating && y.station == e.unit).length < 4 →
      (∀ l ∈ x.badLines, 4 ≤ l) → (∀ l < 4, lineGone s.plat s.core k (64 * l) = false) → pagePresent k.job k.ctx s.plat s.core = .ok (true, c1) →
      (residents c1 e.unit).length < 128 →
      exec .activationStart s = .next { s with core := (dropActivation e.unit c1).updStrand k fun y =>
        { y with place := .activating, station := e.unit, lines := [] } }) ∧
    (∀ k x reached c1, k = ⟨e.job, e.addr⟩ → liveStrand s.core k = some x → x.lines.contains e.index = false →
      (x.place = .activating ∧ e.index < 4 ∨ x.place ≠ .activating ∧ x.parked = some (.ctxLine e.index)) →
      x.badLines.contains e.index = false → reachLine k.job (k.ctx + 64 * e.index) (k.ctx, 1, 64) s.plat s.core = .ok (reached, c1) →
      lineGone s.plat c1 k (64 * e.index) = false →
      exec .contextLineArrival s = .next { s with core :=
        (wakeIf k (.ctxLine e.index) (c1.setStrand { x with lines := e.index :: x.lines })) }) ∧
    (∀ k x, k = ⟨e.job, e.addr⟩ → liveStrand s.core k = some x → x.place = .activating → (∀ l < 4, l ∈ x.lines) →
      x.stopping = false →
      exec .activationComplete s = .next { s with core := (fillSlots s.plat x.station
        (s.core.setStrand { x with place := .waiting, since := s.core.seq }).tick) }) ∧
    (∀ k x target c1, k = ⟨e.job, e.addr⟩ → liveStrand s.core k = some x → x.place = .moving target → x.ops = [] →
      x.dropped = none → x.refusals = [] → Claims.NothingSent s.core k → x.stopping = false →
      s.core.cancelled.contains k.job = false → (residents s.core target).length < 128 →
      (((List.range 10).filter fun l => !x.lines.contains l).forM fun l => do
        let _ ← reachLine k.job (k.ctx + 64 * l) (k.ctx, 1, 64)) s.plat s.core = .ok ((), c1) →
      let y : Strand := { x with
        place := .waiting, station := target, lines := List.range 10, since := c1.seq, parked := none }
      exec .migrationArrival s = .next { s with core :=
        (noteStation k.job x.task.toNat target (fillSlots s.plat target (c1.setStrand y).tick)) })

/-- R52, R176: PAGE of a dropped access sends its record, and the strand leaves its slot; once the supervisor has woken it,
the access is performed again, and a load's value, or its poison, is its operation's; an access that RETRY had held back
has its instruction end only now (R102); a recalled block leaves its
station.
What the specification leaves open here is the model's: assumption log 28. -/
def Obligations.DroppedAccessesResume : Prop :=
  ∀ (s : State) (e : EventArg) (k : Key) (x : Strand) (d : Dropped),
    Happens s e → k = ⟨e.job, e.addr⟩ → s.core.strand? k = some x →
    (x.dropped = some d → d.told = false →
      let c := (supSend s.plat ⟨x.station / 160, 1, x.station, k.job, k.ctx, BitVec.ofNat 64 d.va,
        [BitVec.ofNat 64 d.kind, BitVec.ofNat 64 d.size, d.addr]⟩ s.core).setStrand { x with dropped := some { d with told := true } }
      (x.pinned = true → exec .page s = .next { s with core := c }) ∧
      (∀ slot, x.pinned = false → x.place = .slotted slot → exec .page s = .next { s with core := leaveTo s.plat k .parked none c })) ∧
    (∀ va size signed r c1, x.dropped = some d → d.woken = true → x.parked = none → x.stopping = false →
      d.req = .load va size signed → size ∈ [1, 2, 4, 8] → d.longLatency = true →
      loadAt x.party va size s.plat { s.core with work := .strand x.station 0 k 0 none } = .ok (r, c1) →
      c1.strand? k = some x → Claims.NoMember c1 k d.stamp →
      exec .accessReperform s = .next { s with core := { rejoin s.plat k (c1.updStrand k fun y =>
          let z : Strand := { y with
            dropped := none
            ops := y.ops.map fun o => if o.addr = d.addr ∧ o.result = .pending then { o with result :=
              match r.poison with | some w => .poison w | none => .value (extended size signed r.value) 0 } else o }
          if d.retried then z.advance 4 else z) with
        work := s.core.work } }) ∧
    (∀ c1, (∃ z ∈ s.core.stations, ∃ b, mappedEntry z.2 e.job (e.addr / 256 * 256) = some b ∧ b.valid = true) →
      recallBlock e.job (e.addr / 256 * 256) s.plat s.core = .ok ((), c1) →
      exec .stashRecall s = .next { s with core := c1 })

/-! ### Events: signals, graph nodes and tasks -/

/-- R16, R186, R193, R199, R315, R318, R320, R340: a signal word is stored full with its recorded station; a collective of which every
member's command has arrived starts, or lands one of its pieces; Sconce stores its token word; for each a page that is not
present has it wait, with a PAGE record, and one that another station has pinned in the order of arrival (R166); a decrement lowers a record's count, and readies the record at 0, and with
it a mode-3 completion is delivered (R16); an access from the fabric is performed if its key is the page's, and is a CAP record otherwise.
What the specification leaves open here is the model's: assumption log 13, 21 and 51. -/
def Obligations.SignalsAndDecrements : Prop :=
  ∀ (s : State) (e : EventArg) (c1 c2 c3 : Core), Happens s e →
    (∀ g, s.core.signals[e.index]? = some g → g.cmd.waits s.core = false →
      let i : Instr := if g.lantern then .lanternPieceSignal else .pieceSignal
      let a := storeFull g.cmd.party g.station g.va g.value .station s.plat s.core
      (a = .ok ((), c1) → exec i s = .next { s with core := { c1 with signals := c1.signals.eraseIdx e.index } }) ∧
      (∀ job va kind size, a = .error (.page job va kind size) →
        exec i s = .next { s with core := notePage s.plat g.cmd (updSignal e.index) (va, kind, size) s.core }) ∧
      (∀ line, a = .error (.park (.pinLine line)) →
        exec i s = .next { s with core := noteRetry s.plat g.cmd (updSignal e.index) line s.core })) ∧
    (∀ x, s.core.collectives[e.index]? = some x → firstCollective s.core x = true → x.cmd.waits s.core = false →
      (∀ f, turnCollective x s.plat s.core = .ok (.ended f, c1) →
        exec .collectiveStart s = .next { s with core := endCollective x f c1 }) ∧
      (∀ left bad, turnCollective x s.plat s.core = .ok (.more left bad, c1) →
        exec .collectiveStart s = .next { s with core := keepCollective x left bad c1 })) ∧
    (∀ x va v, sconceBusy s.core e.unit = some x → x.token = some (va, v) → x.cmd.waits s.core = false →
      (storeToken x.cmd.party va v s.plat s.core = .ok ((), c1) →
        exec .tokenWordStore s = .next { s with core := { c1 with sampling := c1.sampling.map fun y =>
          if y.cmd.seq = x.cmd.seq then { y with cmd := y.cmd.going, token := none } else y } }) ∧
      (∀ job pva kind size, storeToken x.cmd.party va v s.plat s.core = .error (.page job pva kind size) →
        exec .tokenWordStore s = .next { s with core := notePage s.plat x.cmd (updCmd x.cmd) (pva, kind, size) s.core }) ∧
      (∀ line, storeToken x.cmd.party va v s.plat s.core = .error (.park (.pinLine line)) →
        exec .tokenWordStore s = .next { s with core := noteRetry s.plat x.cmd (updCmd x.cmd) line s.core })) ∧
    (∀ d r bad, s.core.decrements[e.index]? = some d → d.done = none → readRecord d.job d.record s.plat s.core = .ok (r, c1) →
      c1.cancelled.contains r.job = false → r.job = d.party % 2 ^ 32 →
      (r.count = 0 →
        exec .graphNodeDecrement s = .next { s with core := { c1 with decrements := c1.decrements.eraseIdx e.index } }) ∧
      (r.count ≠ 0 → writeNum (enginePt d.job d.record) d.record 4 (r.count - 1) s.plat c1 = .ok ((), c2) →
        (1 < r.count →
          exec .graphNodeDecrement s = .next { s with core := { c2 with decrements := c2.decrements.eraseIdx e.index } }) ∧
        (r.count = 1 → readyRecord d.job d.record false s.plat c2 = .ok (bad, c3) →
          exec .graphNodeDecrement s = .next { s with core := { c3 with decrements := c3.decrements.eraseIdx e.index } }))) ∧
    (∀ d bad x, s.core.decrements[e.index]? = some d → d.done = some x →
      (∀ g ∈ s.core.decrements.take e.index, ∀ y, g.done = some y → inOrder s.plat s.core y.cmd x.cmd = false) → decrementRecord d s.plat s.core = .ok (bad, c1) →
      noteDelivered x s.plat c1 = .ok ((), c2) →
      exec .graphNodeDecrement s = .next { s with core := { c2 with decrements := c2.decrements.eraseIdx e.index } }) ∧
    (∀ x, x = fabricAccess e → e.data ≠ [] → x.kind ≠ 23 → fabricSized x e.addr = true →
      s.plat.firmware.recovery = false → s.core.cancelled.contains e.job = false →
      (x.cap = Config.pageKey e.job (e.addr / 65536) → performFabric e.job e.addr x s.plat s.core = .ok ((), c1) →
        exec .fabricAccessIn s = .next { s with core := c1 }) ∧
      (x.cap ≠ Config.pageKey e.job (e.addr / 65536) →
        exec .fabricAccessIn s = .next { s with core := supSend s.plat ⟨home e.addr / 160, 4, home e.addr, e.job, 0,
          BitVec.ofNat 64 (4 * 2 ^ 56 + (s.core.station (home e.addr)).pkey.toNat),
          [BitVec.ofNat 64 e.addr, x.cap.zeroExtend 64, BitVec.ofNat 64 x.device]⟩ s.core }))

/-- Initial strands `is` of a task created one after another (R202, R211): each a new record of the context pool with the
task's address, its number and the number of strands in `g0` to `g2`, pc at the entry, the record's shadows, its segments,
and PIN for a gang. -/
def Sys2Proof.Claims.initials (p : Platform) (job va : Nat) (r : Record) (places : List Nat) : List Nat → Core → Core
  | [], c => c
  | i :: rest, c =>
    let f := Claims.nextFrame p job c
    let y := { Strand.fresh ⟨job, f.1⟩ (places.getD i 0) with
      g := #v[BitVec.ofNat 64 va, BitVec.ofNat 64 i, BitVec.ofNat 64 r.strands, 0, 0, 0, 0, 0, 0, 0, 0, 0, 0, 0, 0, 0]
      pc := BitVec.ofNat 64 r.entry, task := BitVec.ofNat 64 va, fa := BitVec.ofNat 64 r.fa, fb := BitVec.ofNat 64 r.fb
      fc := BitVec.ofNat 64 r.fc, fs := BitVec.ofNat 64 r.fs, segs := initialSegs p c job va (places.getD i 0)
      mode := if r.gang ≠ 0 then 2 else 0 }
    Claims.initials p job va r places rest (createStrand p y f.2)

/-- A task of the engine replaced by a new one of the record, which keeps the lines whose errors have rolled it back. -/
def Sys2Proof.Claims.withTask (c : Core) (job va : Nat) (r : Record) (die ticket : Nat) : Core :=
  { c with tasks := c.tasks.filter (fun x => !(x.job == job && x.record == va)) ++
      [{ newTask job va r die ticket with retried := retriedLines c job va }] }

/-- What a phase of a task's pre-emption, checkpoint or rollback finds: the task at the event's record, whose strands are
still. -/
def Sys2Proof.Claims.StillTask (c : Core) (e : EventArg) (t : Task) : Prop :=
  c.tasks.find? (fun t => t.job == e.job && t.record == e.addr) = some t ∧ taskStill c t = true ∧ c.cancelled.contains t.job = false

/-- R201, R202, R205, R211, R215, R217, R218, R366, R372: TASK_DISPATCH takes the best READY task of a die off its list: a new
one runs with its initial strands placed round its domain from the cursor on, and a pre-empted one has its stations cleared of
other jobs' entries and its save area brought back. GANG_PLACEMENT dispatches the leading gang, group by group, or a node on the lowest station of its domain (R212), once it has a
station for each group, and else keeps what it could reserve. A task whose strands are still, and whose rollback is not due, is saved and PREEMPTED, or
saved at its checkpoint and resumed; a task to be rolled back has its writes undone and is READY again, in FAULT, or CANCELLED, with a
ROLLBACK record but for the last. R203: TASK_RETIREMENT of a task of which nothing runs any more and whose list names
decrements only: its record becomes RETIRED, each successor has a decrement on its way, and the task is gone.
The groups of a node with a gang count need no slot, and a gang moves no cursor.
What the specification leaves open here is the model's: assumption log 3, 15, 41, 53 to 58, 76, 78, 99, 100, 119 and 130. -/
def Obligations.TasksRunAndRetire : Prop :=
  (∀ (s : State) (e : EventArg) (t : ReadyTask), Happens s e → bestReady s.core e.unit = some t →
    let c : Core := { s.core with ready := s.core.ready.filter fun x => !(x.job == t.job && x.record == t.record) }
    (∀ r c1 c2 stations places, t.resume = false → readRecord t.job t.record s.plat c = .ok (r, c1) →
      stations = domainMapped s.plat c1 t.job r.domain → stations ≠ [] →
      setRecordState t.job t.record 3 s.plat (Claims.withTask c1 t.job t.record r t.die t.ticket) = .ok ((), c2) →
      (r.kind = 0 → r.strands ≤ freeFrames s.plat c2 t.job →
        places = (List.range r.strands).map (fun i => stations.getD ((cursorOf c2 t.job r.domain + i) % stations.length) 0) →
        ∀ c3, evictFor t.job places s.plat c2 = .ok ((), c3) →
          let c4 := Claims.initials s.plat t.job t.record r places (List.range r.strands) c3
          let next := (cursorOf c2 t.job r.domain + r.strands) % stations.length
          exec .taskDispatch s = .next { s with core := setCursor t.job r.domain next c4 }) ∧
      (r.kind ≠ 0 → ∀ c3, runNode t.job t.record r (stations.headD 0) s.plat c2 = .ok ((), c3) →
        exec .taskDispatch s = .next { s with core := c3 })) ∧
    (∀ task c1 c2, t.resume = true → c.tasks.find? (fun x => x.job == t.job && x.record == t.record) = some task →
      (task.resumable = false → dispatchNew t s.plat c = .ok ((), c1) → exec .taskDispatch s = .next { s with core := c1 }) ∧
      (task.resumable = true →
        setRecordState t.job t.record 3 s.plat (updTask t.job t.record (fun u => { u with phase := .running, ticket := t.ticket }) c) =
          .ok ((), c1) →
        evictFor t.job (task.homes.filterMap fun h => stationOf s.plat c1 t.job h.2) s.plat c1 = .ok ((), c2) →
        ∀ u, c2.tasks.find? (fun x => x.job == t.job && x.record == t.record) = some u →
          (∀ c3, reviveTask u s.plat c2 = .ok ((), c3) → exec .taskDispatch s = .next { s with core := c3 }) ∧
          (∀ c3 c4 c5, readNum (enginePt u.job u.save) (u.save + 8) 8 s.plat c2 = .ok (0, c3) →
            readNum (enginePt u.job u.save) (u.save + 16) 8 s.plat c3 = .ok (0, c4) →
            readNum (enginePt u.job u.save) (u.save + 32) 8 s.plat c4 = .ok (0, c5) →
            let c6 := (taskStrands c5 u.job u.record).foldl (fun c x => reviveStrand s.plat u x c) c5
            exec .taskDispatch s = .next { s with core := c6 })))) ∧
  (∀ (s : State) (e : EventArg) (g : PlacingGang) (r : Record) (c1 : Core) (stations reserved : List Nat),
    Happens s e → leadingGang s.core = some g → readRecord g.job g.record s.plat s.core = .ok (r, c1) →
    stations = domainMapped s.plat c1 g.job r.domain →
    reserved = reserveStations c1 r.gang (if r.kind = 0 then r.strands / r.gang else 0) g.reserved stations →
    (∀ c2 c3, g.resume = false → r.gang ≤ reserved.length → r.kind = 0 → r.strands ≤ freeFrames s.plat c1 g.job →
      setRecordState g.job g.record 3 s.plat
        (Claims.withTask { c1 with placing := c1.placing.filter fun x => !(x.job == g.job && x.record == g.record) }
          g.job g.record r (dieOf (stations.headD 0)) g.ticket) = .ok ((), c2) →
      r.strands ≤ freeFrames s.plat c2 g.job → ∀ places,
        places = (List.range r.strands).map (fun i => reserved.getD (i / (r.strands / r.gang)) 0) →
        evictFor g.job places s.plat c2 = .ok ((), c3) →
        exec .gangPlacement s = .next { s with core := Claims.initials s.plat g.job g.record r places (List.range r.strands) c3 }) ∧
    (∀ c2 c3, g.resume = false → r.gang ≤ reserved.length → r.kind ≠ 0 →
      setRecordState g.job g.record 3 s.plat
        (Claims.withTask { c1 with placing := c1.placing.filter fun x => !(x.job == g.job && x.record == g.record) }
          g.job g.record r (dieOf (stations.headD 0)) g.ticket) = .ok ((), c2) →
      runNode g.job g.record r (stations.headD 0) s.plat c2 = .ok ((), c3) →
      exec .gangPlacement s = .next { s with core := c3 }) ∧
    (g.resume = false → reserved.length < r.gang → g.reserved.length < reserved.length →
      exec .gangPlacement s = .next { s with core := { c1 with placing := c1.placing.map fun x =>
        if x.job = g.job ∧ x.record = g.record then { x with reserved := reserved } else x } }) ∧
    (∀ t l c2, g.resume = true → c1.tasks.find? (fun t => t.job == g.job && t.record == g.record) = some t → t.resumable = true →
      gangHomes s.plat c1 t = some l →
      resumeTask ⟨g.job, g.record, t.die, g.prio, g.ticket, false, true⟩ s.plat
        { c1 with placing := c1.placing.filter fun x => !(x.job == g.job && x.record == g.record) } = .ok ((), c2) →
      exec .gangPlacement s = .next { s with core := c2 })) ∧
  (∀ (s : State) (e : EventArg) (t : Task) (c1 c2 c3 : Core), Happens s e → Claims.StillTask s.core e t →
    let stopped (c : Core) : Except Stop (Unit × Core) :=
      setRecordState t.job t.record 6 s.plat (updTask t.job t.record (fun u => { u with phase := .preempted }) c)
    (t.phase = .preempting → rollbackDue s.core t = false →
      (t.lapsN = 0 → saveTask t s.plat s.core = .ok ((), c1) → stopped c1 = .ok ((), c2) →
        exec .preemption s = .next { s with core := c2 }) ∧
      (∀ n, t.lapsN ≠ 0 → undoTask t s.plat s.core = .ok (n, c1) →
        t.stations.forM evictStation s.plat (updTask t.job t.record (fun u => { u with ended := none }) c1) = .ok ((), c2) →
        (t.saved = none → stopped c2 = .ok ((), c3) → exec .preemption s = .next { s with core := c3 }) ∧
        (∀ l lap c4, t.saved = some l → readNum (enginePt t.job t.save) (t.save + 0x18) 8 s.plat (toCheckpoint t l c2) = .ok (lap, c3) →
          stopped (updTask t.job t.record (fun u => { u with laps := lap }) c3) = .ok ((), c4) →
          exec .preemption s = .next { s with core := c4 }))) ∧
    (∀ u, t.phase = .checkpointing → rollbackDue s.core t = false → saveTask t s.plat s.core = .ok ((), c1) →
      let c4 := updTask t.job t.record (fun u => { u with
        phase := .running, saved := some (taskStrands c1 t.job t.record), savedTails := u.tails, outside := false
        noEntry := false, retried := [], others := [], pages := 0 }) (closeLog s.plat t.job t.record c1)
      c4.tasks.find? (fun x => x.job == e.job && x.record == e.addr) = some u → reviveTask u s.plat c4 = .ok ((), c2) →
      exec .checkpoint s = .next { s with core := c2 })) ∧
  (∀ (s : State) (e : EventArg) (q : RollbackReq) (rest : List RollbackReq), Happens s e → s.core.rollbacks = q :: rest →
    let c : Core := { s.core with rollbacks := s.core.rollbacks.filter fun r => !(r.job == q.job && r.record == q.record) }
    (s.core.tasks.find? (fun t => t.job == q.job && t.record == q.record) = none → exec .rollback s = .next { s with core := c }) ∧
    (∀ t restored others c1 c2, s.core.tasks.find? (fun t => t.job == q.job && t.record == q.record) = some t →
      taskStill c t = true → undoTask t s.plat c = .ok ((restored, others), c1) →
      let code := rollbackCode s.plat c t q.line
      let told (c : Core) : Core := supSend s.plat ⟨t.die, 0x0B, home t.record, t.job, q.ctx, BitVec.ofNat 64 t.record,
        [BitVec.ofNat 64 code, BitVec.ofNat 64 q.line, BitVec.ofNat 64 restored, BitVec.ofNat 64 others]⟩ c
      (c1.cancelled.contains t.job = true → setRecordState t.job t.record 5 s.plat c1 = .ok ((), c2) →
        exec .rollback s = .next { s with core := closeTask s.plat t c2 }) ∧
      (c1.cancelled.contains t.job = false → code ≠ 1 → setRecordState t.job t.record 7 s.plat c1 = .ok ((), c2) →
        exec .rollback s = .next { s with core := told (closeTask s.plat t c2) }) ∧
      (c1.cancelled.contains t.job = false → code = 1 →
        (relaunch t q.line s.plat c1 = .ok ((), c2) → exec .rollback s = .next { s with core := told c2 }) ∧
        (t.saved = none → t.gang = false →
          setRecordState t.job t.record 1 s.plat (updTask t.job t.record (fun u => { u with
            phase := .preempted, noEntry := false, outside := false, ended := none, tails := [], lapYields := [], others := []
            retried := q.line :: u.retried.filter (· != q.line), laps := 0 }) c1) = .ok ((), c2) →
          exec .rollback s = .next { s with core := told { c2 with
            ready := ⟨t.job, t.record, t.die, t.prio, t.ticket, false, false⟩ :: c2.ready } })))) ∧
  (∀ (s : State) (e : EventArg) (t : Task) (r : Record) (list : List (Nat × Nat)) (c1 c2 c3 : Core),
    Happens s e → s.core.tasks.find? (fun t => t.job == e.job && t.record == e.addr) = some t →
    s.core.cancelled.contains t.job = false → taskDone s.core t = true → t.phase ≠ .preempted → t.tails = [] →
    rollbackDue s.core t = false → (t.ended = none ∨ t.ended = some 0) →
    readRecord t.job t.record s.plat s.core = .ok (r, c1) → successorList t.job t.record r s.plat c1 = .ok (list, c2) →
    (∀ x ∈ list, x.2 = 0) → setRecordState t.job t.record 4 s.plat c2 = .ok ((), c3) →
    exec .taskRetirement s = .next { s with core := closeTask s.plat t { c3 with
      decrements := c3.decrements ++ list.map fun x => ⟨t.job, x.1, t.job, home t.record, 0, none⟩ } })

/-! ### Events: the host, jobs and the supervisor -/

/-- The core after a slot has been parsed with a code (R219, R220): the status word with code, expected mark, the mark of a
record that was not taken, and the count of those that were; the expected mark moves on but for STALE and SKIP. Both are
writes of the device, which leave no old copy in an L1 (R157). -/
def Sys2Proof.Claims.parsed (ring : LaunchRing) (e code mark : Nat) (c : Core) : Core :=
  let next := if code = 1 ∨ code = 2 then e else (e + 1) % 256
  let old := c.mem.read ring.status 8
  let taken := code = 0 ∨ code = 6
  let status := code * 2 ^ 56 + next * 2 ^ 48 + (if taken then old / 2 ^ 40 % 256 else mark) * 2 ^ 40 +
    (if taken then (old % 2 ^ 40 + 1) % 2 ^ 40 else old % 2 ^ 40)
  (c.deviceWrite ring.status 8 fun m => m.write64 ring.status (BitVec.ofNat 64 status)).deviceWrite ring.expected 8
    fun m => m.write ring.expected 8 next

/-- The decision on a slot (R220 to R222), in the order of the checks: STALE 1, SKIP 2, BADOP 3, BADJOB 4, BADREC 5, and, for a
record that is taken, OK 0 or FAULT 6 with its effect: a launch readies the record or lowers its count, a pre-emption stops
the running task, a resume makes the pre-empted one READY, and a cancel cancels the job. -/
def Sys2Proof.Claims.Decides (p : Platform) (ring : LaunchRing) (slot : Nat) (c : Core) (code : Nat) (d : Core) : Prop :=
  let e := c.mem.read ring.expected 8 % 256
  let l := launchRecord c (ring.base + 256 * slot)
  let stale := (1 ≤ (e + 256 - l.mark) % 256 ∧ (e + 256 - l.mark) % 256 ≤ 128) ∨ l.mark % ring.slots ≠ slot
  let badOp := l.op < 1 ∨ 4 < l.op ∨ l.clean = false
  (stale ∧ code = 1 ∧ d = c) ∨ (¬ stale ∧ l.mark ≠ e ∧ code = 2 ∧ d = c) ∨
  (¬ stale ∧ l.mark = e ∧ (badOp ∧ code = 3 ∧ d = c ∨
    ¬ badOp ∧ (
      (jobLive p c l.job = false ∨ l.job ∈ c.jobs ∧ c.cancelled.contains l.job = true) ∧ code = 4 ∧ d = c ∨
      ∃ cj r cr, jobLive p c l.job = true ∧ (l.job ∈ c.jobs ∧ cj = c ∨ l.job ∉ c.jobs ∧ takeJob l.job p c = .ok ((), cj)) ∧
        cj.cancelled.contains l.job = false ∧ readRecord l.job l.record p cj = .ok (r, cr) ∧ (
        (r.job ≠ l.job ∧ code = 4 ∧ d = cr) ∨
        (r.job = l.job ∧ l.op = 2 ∧ l.record % 128 = 0 ∧ r.state = 2 ∧ code = 5 ∧ d = releasePlacing l.job l.record cr) ∨
        (r.job = l.job ∧ ¬ (l.op = 2 ∧ l.record % 128 = 0 ∧ r.state = 2) ∧
          (l.record % 128 ≠ 0 ∨ l.op = 2 ∧ (r.save = 0 ∨ r.state ≠ 3 ∨ runningTask cr l.job l.record = false) ∨
            l.op = 3 ∧ r.state ≠ 6) ∧ code = 5 ∧ d = cr) ∨
        (r.job = l.job ∧ l.record % 128 = 0 ∧ (
          (l.op = 1 ∧ r.count = 0 ∧ r.state = 0 ∧ ∃ bad, readyRecord l.job l.record false p cr = .ok (bad, d) ∧
            code = if bad then 6 else 0) ∨
          (l.op = 1 ∧ ¬ (r.count = 0 ∧ r.state = 0) ∧
            ∃ bad, decrementRecord ⟨l.job, l.record, l.job, home l.record, 0, none⟩ p cr = .ok (bad, d) ∧
              code = if bad then 6 else 0) ∨
          (l.op = 2 ∧ r.save ≠ 0 ∧ r.state = 3 ∧ runningTask cr l.job l.record = true ∧ code = 0 ∧
            d = stopTask l.job l.record .preempting cr) ∨
          (l.op = 3 ∧ r.state = 6 ∧ code = 0 ∧ ∃ c2, setRecordState l.job l.record 1 p cr = .ok ((), c2) ∧
            d = (if r.gang ≠ 0 then enterPlacing l.job l.record r.prio true c2
              else enterReady l.job l.record r.prio (dieOf ((domainMapped p c2 l.job r.domain).headD 0)) false true c2)) ∨
          (l.op = 4 ∧ code = 0 ∧ cancelJob l.job p cr = .ok ((), d))))))))

/-- A number of records of a user queue parsed one after another, each in the first slot from the expected mark's on whose record
has not been rejected, unless a doorbell has announced another in its place; each adds 1 to Consumed (R221). Where every slot holds such a record none is parsed. -/
def Sys2Proof.Claims.Visits (p : Platform) (q : Nat) : Nat → Core → Core → Prop
  | 0, c, d => d = c
  | n + 1, c, d =>
    let ring := queueRing p c q
    let e := c.mem.read ring.expected 8 % 256
    let sealAt (i : Nat) : Nat := ring.base + 256 * ((e + i) % ring.slots) + 255
    ((∀ i < ring.slots, sealAt i ∈ c.rejected) ∧ d = c) ∨
    ∃ i slot code c1, i < ring.slots ∧ (∀ j < i, sealAt j ∈ c.rejected) ∧ sealAt i ∉ c.rejected ∧ slot = (e + i) % ring.slots ∧
      Claims.Decides p ring slot c code c1 ∧
      let c2 := Claims.parsed ring e code (launchRecord c (ring.base + 256 * slot)).mark c1
      let c3 : Core := if code = 1 ∨ code = 2 then { c2 with rejected := sealAt i :: c2.rejected } else c2
      Claims.Visits p q n (c3.deviceWrite (queueDesc p q + 0x18) 8 fun m =>
        m.write (queueDesc p q + 0x18) 8 (m.read (queueDesc p q + 0x18) 8 + 1)) d

/-- R34, R170, R219 to R222, R374: out of recovery mode the first sealed slot of a launch window is decided on by the row of
its op, its code goes to the window's status, and its seal is gone; a doorbell writes its queue's count, announces what the host has
written again in place of rejected records, and a pending queue that holds no slot waits for one; a visit of the queue scheduler maps a waiting queue and parses what the next slot's queue
holds; the host's write stores its bytes, and leaves full/empty bits as they are but for the loader's, whose words become
full; what lies in a stored context's record is stored there; and the loader binds segment registers. In recovery mode none
of this happens.
Launch windows, user queues and the job table stand at their addresses taken as physical.
What the specification leaves open here is the model's: assumption log 11, 22, 59, 60, 63, 66, 68, 69, 78, 98, 125 and 126. -/
def Obligations.HostReaches : Prop :=
  (∀ (s : State) (e : EventArg), Happens s e →
    (s.plat.firmware.recovery = false →
      (∀ code c1, let ring := windowRing s.plat e.unit
        let l := launchRecord s.core (ring.base + 256 * e.index)
        (e.unit, e.index) ∈ s.core.seals → firstSeal s.core ring e.unit e.index = true →
        Claims.Decides s.plat ring e.index s.core code c1 →
        let c2 := Claims.parsed ring (s.core.mem.read ring.expected 8 % 256) code l.mark c1
        exec (if l.op = 2 then .preempt else if l.op = 3 then .resume else if l.op = 4 then .launchCancel else .launch) s =
          .next { s with core := { c2 with seals := c2.seals.filter fun x => x != (e.unit, e.index) } }) ∧
      ((s.plat.mgmt[0]).userTable / 4096 ≠ 0 →
        let c := s.core.deviceWrite (queueDesc s.plat e.index + 0x10) 8 fun m =>
          m.write (queueDesc s.plat e.index + 0x10) 8 (e.data.headD 0)
        let q := e.index % 4096
        let here (a : Nat) : Bool := (queueControl s.plat c q).testBit 16 && c.rewritten.contains a &&
          decide ((queueRing s.plat c q).base ≤ a) && decide (a < (queueRing s.plat c q).base + 256 * (queueRing s.plat c q).slots)
        exec .doorbell s = .next { s with core := { c with
          rejected := c.rejected.filter fun a => !here a
          rewritten := c.rewritten.filter fun a => !here a
          doorbells := if queuePending s.plat c q ≠ 0 ∧ queueMapped c q = false ∧ q ∉ c.doorbells then c.doorbells ++ [q]
            else c.doorbells } }) ∧
      (∀ q n c1, let c := mapQueue s.plat s.core
        let i := c.queueSlots.next % c.queueSlots.slots.length
        c.queueSlots.slots ≠ [] → (c.queueSlots.slots.getD i (0, 0)).1 = q →
        n = (if powerOfTwo (queueControl s.plat c q % 65536) 16 256 then
          min (queuePending s.plat c q) (2 ^ min ((s.plat.mgmt[0]).userTable % 16) 12) else 0) →
        Claims.Visits s.plat q n c c1 →
        let t := c1.queueSlots.clock + 1
        exec .queueSlotVisit s = .next { s with core := { c1 with queueSlots := ⟨c1.queueSlots.slots.set i (q, t), i + 1, t⟩ } }) ∧
      (s.core.mem.wf = true → e.index ≠ 2 → e.addr + e.data.length ≤ 2 ^ 39 → e.addr % 64 + e.data.length ≤ 64 →
        layerGone s.plat e.addr = false → storedAt s.plat s.core e.addr = none →
        ∃ u, exec .hostCxlAccess s = .next u ∧ u.plat = s.plat ∧ u.core.strands = s.core.strands ∧
          (e.index ≠ 1 → u.core.mem.full = s.core.mem.full) ∧
          (e.index = 1 → (∀ i < e.data.length, u.core.mem.isFull (e.addr + i) = true) ∧
            ∀ a, (∀ i < e.data.length, (e.addr + i) / 8 ≠ a / 8) → u.core.mem.isFull a = s.core.mem.isFull a) ∧
          (∀ i < e.data.length, u.core.mem.byte (e.addr + i) = BitVec.ofNat 8 (e.data.getD i 0)) ∧
          (∀ a, (a < e.addr ∨ e.addr + e.data.length ≤ a) → u.core.mem.byte a = s.core.mem.byte a)) ∧
      (∀ k off, e.index = 0 → e.addr + 8 ≤ 2 ^ 39 → e.addr % 8 = 0 → off % 8 = 0 → e.data.length = 8 →
        layerGone s.plat e.addr = false → storedAt s.plat s.core e.addr = some (k, off) →
        let w := BitVec.ofNat 64 (leNat (e.data.map fun x => BitVec.ofNat 8 x))
        let c := recordStore s.plat ⟨k.job, foreignStation 0, 0, 0, false⟩ k off (k.ctx + off) 8 w s.core
        exec .hostCxlAccess s = .next { s with core := c }) ∧
      (∀ job seg base size text, e.index = 2 → e.job = job → e.data = [seg, base, size, text] →
        let others := s.core.bindings.filter fun b => !(b.job == job && b.record == e.addr && b.seg == seg % 8)
        let all : List Binding := ⟨job, e.addr, seg % 8, base, size, text != 0⟩ :: others
        exec .hostCxlAccess s = .next { s with core := { s.core with bindings := all } })) ∧
    (s.plat.firmware.recovery = true →
      ∀ i ∈ [Instr.launch, .preempt, .resume, .launchCancel, .doorbell, .queueSlotVisit, .hostCxlAccess, .fabricAccessIn], exec i s = .next s)) ∧
  (∀ (p : Platform) (c : Core) (job : Nat), ∃ d, cancelJob job p c = .ok ((), d))

/-- R136, R137, R141, R173, R379: JOB_CREATE of a job whose table entry has become LIVE sets its record and leaves its stations'
stashes SCRATCH and zero, and JOB_END of one whose entry is LIVE no more,
which drops what the package holds for it; a held supervisor event is written once the ring has room; the least recently used line
of a set that no stash entry owns and no tile fetch holds leaves its slice where the slice has taken another line of the set since
its last use, and none does otherwise.
The job's record and the supervisor queue stand at their addresses taken as physical.
What the specification leaves open here is the model's: assumption log 22, 24, 78 and 86. -/
def Obligations.JobsBeginAndEnd : Prop :=
  ∀ (s : State) (e : EventArg), Happens s e →
    (jobLive s.plat s.core e.job = true → e.job ∉ s.core.jobs →
      ∃ u, exec .jobCreate s = .next u ∧ u.plat = s.plat ∧ e.job ∈ u.core.jobs ∧ e.job ∉ u.core.cancelled ∧
        (∀ z ∈ s.core.stations, (logicalOf s.plat s.core e.job z.1).isSome = true →
          (u.core.station z.1).stash = [] ∧ (u.core.station z.1).entries = []) ∧
        ((∀ z ∈ s.core.stations, ∀ y ∈ z.2.entries, y.mapped = none) →
          u.core.jobs = e.job :: s.core.jobs ∧ u.core.strands = s.core.strands ∧ u.core.mem.full = s.core.mem.full ∧
          u.core.mem = (s.core.mem.write (jobRecord s.plat s.core e.job + 0x28) 8
              (s.core.mem.read (jobRecord s.plat s.core e.job + 0x4C) 4)).setBytes (jobRecord s.plat s.core e.job + 0x800)
            (List.replicate 5120 0))) ∧
    (jobLive s.plat s.core e.job = false → e.job ∈ s.core.jobs →
      ∃ u, exec .jobEnd s = .next u ∧ u.plat = s.plat ∧ e.job ∉ u.core.jobs ∧ (∀ r ∈ u.core.scopes, r.job ≠ e.job) ∧
        (∀ h ∈ u.core.pins, h.job ≠ e.job) ∧ (∀ k ∈ u.core.joinCells, k.job ≠ e.job) ∧ (∀ k ∈ u.core.groups, k.job ≠ e.job) ∧
        (∀ l ∈ u.core.l2, l.job ≠ e.job) ∧ (∀ t ∈ u.core.tlb, t.job ≠ e.job) ∧ (∀ b ∈ u.core.bindings, b.job ≠ e.job) ∧
        (∀ r ∈ u.core.members, r.key.job ≠ e.job) ∧ (∀ z ∈ u.core.stations, ∀ l ∈ z.2.l1, l.job ≠ e.job)) ∧
    (∀ i x, s.core.held.findIdx? (fun x => x.die == e.unit) = some i → s.core.held[i]? = some x →
      supRoom s.plat s.core e.unit = true →
      let c := supWrite s.plat x { s.core with held := s.core.held.eraseIdx i }
      let counted (m : Mem) : Mem := m.write (supHeader s.plat e.unit + 0x28) 8 (c.held.filter fun y => y.die == e.unit).length
      exec .supqHeldEvent s = .next { s with core := c.deviceWrite (supHeader s.plat e.unit + 0x28) 8 counted }) ∧
    (∀ l, s.core.l2[e.index]? = some l →
      (∀ m, s.core.l2.find? (fun m => m.place.any (fun t => decide (l.used < t)) && sharesSet m.vline l.vline) = some m →
        leastUsed s.core l.vline = some l →
        let c : Core := { s.core with l2 := s.core.l2.map fun x => if x = m then { x with place := none } else x }
        exec .l2LineEviction s = .next { s with core := leaveL2 s.plat l c } ∧
        (∀ x ∈ (leaveL2 s.plat l c).l2, ¬ (x.job = l.job ∧ x.vline = l.vline)) ∧
        (l.dirty = false → s.core.mem.linePoison (64 * l.pline) = false → l.oldPoison = 0 → (leaveL2 s.plat l c).mem = s.core.mem)) ∧
      ((∀ m ∈ s.core.l2, ∀ t, m.place = some t → l.used < t → sharesSet m.vline l.vline = false) ∨
          leastUsed s.core l.vline ≠ some l → exec .l2LineEviction s = .next s)) ∧
    (∀ c v l, leastUsed c v = some l → l ∈ c.l2 ∧ sharesSet l.vline v = true ∧ blockOwned c l.job (l.vline / 4 * 256) = false ∧
      (l.job, l.vline) ∉ c.fetched ∧ ∀ x ∈ c.l2, sharesSet x.vline v = true → mayLeave c x = true → l.used ≤ x.used)

/-! ### Events: reliability, power, firmware and attestation -/

/-- R360, R362, R370, R371: a scrub that finds a corrected error counts it; one that finds an uncorrectable error in a line
that nothing of a job lies in poisons the line and counts it, and one found in an L2 line poisons the word alone; the end of a period begins its counts again; a layer
that does not respond is mapped out and recorded; RELEASE removes a layer in phase 1; SCRUB_PERIOD takes 1 to 168
hours and ignores every other value; the effects of the writes of one word come as later events, in the order they arrived, and an event about
a later one has none while an earlier one's is still to come.
R308, R316, R377: an island's clock lowered at a module power, every island's, and the stop of the module; a device lost
and a link out of service.
What the specification leaves open here is the model's: assumption log 57, 62, 103 and 132. -/
def Obligations.PlatformEvents : Prop :=
  (∀ (s : State) (e : EventArg), Happens s e →
    (e.unit = 0 → e.addr < 2 ^ 39 → e.addr % 64 = 0 → layerGone s.plat e.addr = false →
      (e.index = 0 → exec .patrolScrub s = .next s) ∧
      (e.index = 1 → exec .patrolScrub s = .next { s with plat := s.plat.updMgmt (e.addr / 2 ^ 37) fun m => { m with
        corrected := m.corrected + 1
        periodCorrected := assocSet m.periodCorrected (layerKey e.addr) (assocGet m.periodCorrected (layerKey e.addr) 0 + 1) } }) ∧
      (2 ≤ e.index → s.core.tasks = [] → s.core.strands = [] → s.core.jobs = [] → (∀ l ∈ s.core.l2, l.pline ≠ e.addr / 64) →
        ∃ u, exec .patrolScrub s = .next u ∧ u.core.mem = s.core.mem.setLinePoison e.addr true ∧
          u.plat = s.plat.updMgmt (e.addr / 2 ^ 37) fun m => m.countError (layerKey e.addr) (e.addr / 64) 2)) ∧
    (e.unit = 2 → e.addr % 8 = 0 → 2 ≤ e.index → s.core.tasks = [] → s.core.jobs = [] → (∃ l ∈ s.core.l2, l.pline = e.addr / 64) →
      exec .patrolScrub s = .next { s with core := { s.core with mem := s.core.mem.setPoison e.addr true } }) ∧
    (∀ x line rest, e.unit = 4 → 2 ≤ e.index → e.data = line :: rest → line < 16 → s.core.strand? ⟨e.job, e.addr⟩ = some x →
      x.resident = true → exec .patrolScrub s = .next { s with core := s.core.setStrand { x with
        badLines := risingSet x.badLines line true } }) ∧
    (∀ h : e.unit < 4,
      (∃ u, exec .scrubPeriodEnd s = .next u ∧ (u.plat.mgmt[e.unit]).periodCorrected = [] ∧
        (u.plat.mgmt[e.unit]).periodBad = [] ∧ u.plat.firmware = s.plat.firmware) ∧
      (e.index < 16 → (s.plat.mgmt[e.unit]).mappedA.getLsbD e.index = false →
        ∃ u, exec .layerHardRemoval s = .next u ∧ (u.plat.mgmt[e.unit]).mappedA.getLsbD e.index = true ∧
          (u.plat.mgmt[e.unit]).capacityA = (s.plat.mgmt[e.unit]).capacityA - 2 ^ 32 ∧
          u.plat.eventLog = s.plat.eventLog ++ [(2 * e.unit, e.index)] ∧ u.plat.firmware = s.plat.firmware)) ∧
    (∀ (die : Nat) (off size : Nat) (v : Word), s.core.mgmtWrites[e.index]? = some ⟨die, off, size, v⟩ →
      (∃ y ∈ s.core.mgmtWrites.take e.index, y.die = die ∧ y.off / 8 = off / 8) →
      exec .release s = .next s ∧ exec .scrubPeriod s = .next s) ∧
    (∀ (die : Nat) (v : Word) (h : die < 4),
      (∀ off size, (∀ y ∈ s.core.mgmtWrites.take e.index, y.isOf die off = false) →
        s.core.mgmtWrites[e.index]? = some ⟨die, off, size, v⟩ →
      (off = 0x30 → size = 8 → 1 ≤ v.toNat → v.toNat ≤ 168 →
        ∃ u, exec .scrubPeriod s = .next u ∧ (u.plat.mgmt[die]).scrubHours = v.toNat ∧
          u.core.mgmtWrites = s.core.mgmtWrites.eraseIdx e.index ∧ u.core.mem = s.core.mem) ∧
      (off = 0x30 ∧ size = 8 ∧ (v.toNat = 0 ∨ 168 < v.toNat) ∨ 0x30 < off ∧ off < 0x38 ∧ size = 1 →
        exec .scrubPeriod s = .next { s with core := { s.core with mgmtWrites := s.core.mgmtWrites.eraseIdx e.index } }) ∧
      (off = 0x20 → size = 8 → v.getLsbD 63 = true → v.toNat % 32 < 16 → (s.plat.mgmt[die]).softLayers.contains (v.toNat % 32) = true →
        (s.plat.mgmt[die]).mappedA.getLsbD (v.toNat % 32) = false →
        ∃ u, exec .release s = .next u ∧ (u.plat.mgmt[die]).mappedA.getLsbD (v.toNat % 32) = true ∧
          (u.plat.mgmt[die]).softLayers.contains (v.toNat % 32) = false)))) ∧
  (∀ (s : State) (e : EventArg), Happens s e →
    (e.unit < 512 → e.unit % 128 < 80 →
      ∃ u, exec .throttle s = .next u ∧ u.core = s.core ∧ e.unit ∈ u.plat.throttled ∧
        (∀ d : Fin 4, (u.plat.mgmt[d]).power = e.index % 65536 ∧ (u.plat.mgmt[d]).throttle = true)) ∧
    (∃ u, exec .thermalThrottle s = .next u ∧ u.core = s.core ∧ u.plat.throttled = List.range 512 ∧
      (∀ d : Fin 4, (u.plat.mgmt[d]).throttle = true ∧ (u.plat.mgmt[d]).power = (s.plat.mgmt[d]).power)) ∧
    exec .thermalStop s = .next { s with plat := { s.plat with stopped := true } } ∧
    (e.unit < 16384 → ∃ u, exec .deviceLost s = .next u ∧ u.core = s.core ∧ e.unit ∈ u.plat.lostDevices) ∧
    (e.index = 0 → s.plat.failedLinks = [e.unit] →
      exec .linkFailure s = .next { s with plat := { s.plat with failedLinks := [] } }) ∧
    (e.index ≠ 0 → ∃ u, exec .linkFailure s = .next u ∧ u.core = s.core ∧ e.unit ∈ u.plat.failedLinks))

/-- R374: what the boot ROM asks of an image: magic, header version, zero reserved fields and the body's length; a public key
whose digest is fused and not revoked, a signature that verifies under it, the body's digest, and a version that is not below
the fused minimum. -/
def Sys2Proof.Claims.Accepted (f : Firmware) (b : List Byte) : Prop :=
  let x := imageOf b
  x.magic = 0x464D4C50 ∧ x.headerVersion = 1 ∧ x.reserved = true ∧ x.body.length = x.length ∧
  (∃ i < 4, f.keyDigests[i]? = some (sha256 x.modulus) ∧ f.revoked.getLsbD i = false) ∧
  pssVerifies x.modulus x.signature x.signed = true ∧ sha256 x.body = x.digest ∧ f.minVersion ≤ x.version

/-- R307, R373, R374: DEVICE_RESET leaves everything at its reset but the fuses and what lies outside the device; an image that
the boot ROM accepts gives its version and body digest, and its firmware the addresses of the management blocks; any other
leaves the device in recovery mode with every management block at its reset.
What the specification leaves open here is the model's: assumption log 18, 20 and 84. -/
def Obligations.ResetVerifies : Prop :=
  ∀ (s : State) (e : EventArg) (b : List Byte), Happens s e → b = (e.data.drop 10).map (fun x => BitVec.ofNat 8 x) →
    ∃ u, exec .deviceReset s = .next u ∧ u.core = { Core.reset with freeNo := s.core.freeNo, work := s.core.work } ∧
      u.core.strands = [] ∧ u.core.stations = [] ∧ u.core.mem = ⟨[], [], []⟩ ∧
      u.core.tasks = [] ∧ u.core.held = [] ∧ u.core.jobs = [] ∧ u.plat.stopped = false ∧ u.plat.throttled = [] ∧
      u.plat.spdm = ⟨false, false, none, []⟩ ∧ u.plat.lostDevices = s.plat.lostDevices ∧
      u.plat.failedLinks = s.plat.failedLinks ∧ u.plat.deviceNo = e.unit % 16384 ∧
      u.plat.firmware.keyDigests = s.plat.firmware.keyDigests ∧ u.plat.firmware.revoked = s.plat.firmware.revoked ∧
      u.plat.firmware.minVersion = s.plat.firmware.minVersion ∧
      (Claims.Accepted s.plat.firmware b → u.plat.firmware.recovery = false ∧
        u.plat.firmware.version = (imageOf b).version ∧ u.plat.firmware.bodyDigest = (imageOf b).digest ∧
        ∀ d : Fin 4, u.plat.mgmt[d] = { DieMgmt.reset with
          supQueue := e.data.getD (2 * d) 0, window := e.data.getD (2 * d + 1) 0
          userTable := if d = 0 then e.data.getD 8 0 else 0, jobTable := if d = 0 then e.data.getD 9 0 else 0 }) ∧
      (¬ Claims.Accepted s.plat.firmware b →
        u.plat.firmware.recovery = true ∧ ∀ d : Fin 4, u.plat.mgmt[d] = DieMgmt.reset)

/-- R375: the responder answers GET_VERSION always, GET_CAPABILITIES after it, NEGOTIATE_ALGORITHMS after that with an
algorithm that both offer, and the rest on a negotiated connection only; anything else is an error response: a negotiation
before the capabilities, or one that does not offer SHA-256 (bit 2) with RSASSA_3072 (bit 0) or RSAPSS_3072 (bit 1). A digest
is the SHA-256 of the chain, and the measurements are the boot ROM's digest, the body's, the security version, and the
fused minimum with the revocation bits; 255 asks for all, and any other index for none. The bytes of certificates and the
values of signatures are free (assumption log 18), and the codes and order are the model's (assumption log 19). -/
def Obligations.Attests : Prop :=
  ∀ (s : State) (e : EventArg) (a : Nat), Happens s e →
    let f := s.plat.firmware
    let answers (u : State) (r : List Nat) : Prop := u.core = s.core ∧ u.plat.firmware = f ∧
      u.plat.spdm.responses = s.plat.spdm.responses ++ [r]
    (∃ u, exec .getVersion s = .next u ∧ answers u [0x04, 0x12] ∧ u.plat.spdm.version = true ∧ u.plat.spdm.capabilities = false ∧
      u.plat.spdm.algorithm = none) ∧
    (s.plat.spdm.version = true → ∃ u, exec .getCapabilities s = .next u ∧ answers u [0x61, 1, 1, 1, 0] ∧
      u.plat.spdm.capabilities = true) ∧
    (s.plat.spdm.version = false → ∃ u, exec .getCapabilities s = .next u ∧ answers u [0x7F]) ∧
    (s.plat.spdm.capabilities = true → e.index.testBit 2 = true → e.index.testBit 1 = true →
      ∃ u, exec .negotiateAlgorithms s = .next u ∧ answers u [0x63, 1, 2] ∧ u.plat.spdm.algorithm = some 1) ∧
    (s.plat.spdm.capabilities = true → e.index.testBit 2 = true → e.index.testBit 1 = false → e.index.testBit 0 = true →
      ∃ u, exec .negotiateAlgorithms s = .next u ∧ answers u [0x63, 0, 2] ∧ u.plat.spdm.algorithm = some 0) ∧
    ((s.plat.spdm.capabilities = false ∨ e.index.testBit 2 = false ∨ e.index.testBit 1 = false ∧ e.index.testBit 0 = false) →
      ∃ u, exec .negotiateAlgorithms s = .next u ∧ answers u [0x7F] ∧ u.plat.spdm.algorithm = s.plat.spdm.algorithm) ∧
    (s.plat.spdm.negotiated = true → s.plat.spdm.algorithm = some a →
      (∃ u, exec .getDigests s = .next u ∧ answers u [0x01, sha256 (Config.aliasCertificate f.bodyDigest)]) ∧
      (∃ u, exec .getCertificate s = .next u ∧
        answers u (0x02 :: (Config.aliasCertificate f.bodyDigest).map fun b => b.toNat)) ∧
      (∃ u, exec .challenge s = .next u ∧
        let l := [0x03, sha256 (Config.aliasCertificate f.bodyDigest), e.index]
        answers u (l ++ [Config.aliasSign f.bodyDigest a l])) ∧
      (∀ m, (e.unit = 1 ∧ m = [1, Config.bootRomDigest] ∨ e.unit = 2 ∧ m = [2, f.bodyDigest] ∨ e.unit = 3 ∧ m = [3, f.version] ∨
          e.unit = 4 ∧ m = [4, f.minVersion, f.revoked.toNat] ∨
          e.unit = 255 ∧ m = [1, Config.bootRomDigest, 2, f.bodyDigest, 3, f.version, 4, f.minVersion, f.revoked.toNat] ∨
          e.unit ∉ [1, 2, 3, 4, 255] ∧ m = []) →
        ∃ u, exec .getMeasurements s = .next u ∧
          let l := 0x60 :: m ++ [e.index]
          answers u (l ++ [Config.aliasSign f.bodyDigest a l]))) ∧
    (s.plat.spdm.negotiated = false → ∀ i ∈ [Instr.getDigests, .getCertificate, .challenge, .getMeasurements],
      ∃ u, exec i s = .next u ∧ answers u [0x7F])

/-! ### The machine as a whole -/

/-- R363, R374, R377: right after reset nothing runs and nothing is on its way, every die's management block has capacities
of 0x10_0000_0000 and a scrub period of 24 hours, the module has not stopped and is in recovery mode; memory, which lists
nothing, keeps its canonical form. That the values without a rule are 0 is the model's choice (assumption log 2). -/
def Obligations.ResetState : Prop :=
  State.reset.core.strands = [] ∧ State.reset.core.stations = [] ∧ State.reset.core.tasks = [] ∧
  State.reset.core.completions = [] ∧ State.reset.core.messages = [] ∧ State.reset.core.work = .idle ∧
  State.reset.core.mem.wf = true ∧ State.reset.plat.firmware.sound ∧ State.reset.plat.firmware.recovery = true ∧
  State.reset.plat.stopped = false ∧ State.reset.plat.firmware.keyDigests.length = 4 ∧ State.reset.plat.firmware.revoked = 0 ∧
  ∀ d : Fin 4, (State.reset.plat.mgmt[d]).capacityA = 0x1000000000 ∧ (State.reset.plat.mgmt[d]).capacityB = 0x1000000000 ∧
    (State.reset.plat.mgmt[d]).scrubHours = 24 ∧ (State.reset.plat.mgmt[d]).mappedA = 0

/-- R58, R67, R75, R86 to R98: words that the specification writes out or composes: the no-op `addi zr, zr, 0`,
`shri g10, g12, 56`, `ret`, `fence.eng` at station scope, `ln.root` of the worked example, and a reserved major. -/
def Obligations.DecodeKnownWords : Prop :=
  decode (bytesOfWord 0x0A100000) = .ok ⟨.addi .zr .zr 0, none⟩ ∧
  decode (bytesOfWord 0x194C1038) = .ok ⟨.shri (.g 10) (.g 12) 56, none⟩ ∧
  decode (bytesOfWord 0x400F0000) = .ok ⟨.jr (.g 15), none⟩ ∧
  decode (bytesOfWord 0x9C000310) = .ok ⟨.fenceEng .station, none⟩ ∧
  decode ([0xF8201000, 0xFFFF0A0B, 0x04016000, 0x42800038, 0x50000004, 0, 0, 0].flatMap bytesOfWord) =
    .ok ⟨.lnRoot, some ⟨0, 0, 0xFFFF0A0B, 0x04016000, 0x42800038, 0x50000004, 0, 0, 0⟩⟩ ∧
  decode (bytesOfWord 0) = .error .reservedMajor

/-- The rows of the opcode table that are events of the machine: they have no words. -/
def Sys2Proof.Claims.eventTable : List Instr :=
  [.stashRecall, .inboxPush, .linkWordArrival, .pieceSignal, .collectiveStart, .lanternPieceSignal, .tokenWordStore,
   .longLatencyComplete, .engineCompletion, .trapEntry, .strandWake, .activationStart, .activationComplete,
   .contextLineArrival, .page, .accessReperform, .migrationArrival, .fabricAccessIn, .deviceLost, .linkFailure,
   .graphNodeDecrement, .taskDispatch, .gangPlacement, .taskRetirement, .preemption, .checkpoint, .launch, .preempt,
   .resume, .launchCancel, .doorbell, .queueSlotVisit, .supqHeldEvent, .jobCreate, .jobEnd, .l2LineEviction,
   .patrolScrub, .rollback, .scrubPeriodEnd, .layerHardRemoval, .release, .scrubPeriod, .throttle, .thermalThrottle,
   .thermalStop, .deviceReset, .getVersion, .getCapabilities, .negotiateAlgorithms, .getDigests, .getCertificate,
   .challenge, .getMeasurements, .hostCxlAccess, .storeRefused, .fusedMinimumRaise]

/-- R57 to R78: every well-formed scalar instruction has an encoding of one word, and every tile command one of eight with every
tile word; for every operand and every further word of a tile command, decoding the bytes of the encoding gives the instruction
back, with its words for a tile command and none for a scalar instruction. An event has no encoding. -/
def Obligations.DecodeEncode : Prop :=
  (∀ (i : Instr) (t : Tcw), i.wf = true → i ∉ Claims.eventTable →
    ∃ ws d, encode i t = some ws ∧ (ws.length = if i ∈ Claims.commandTable.map (·.1) then 8 else 1) ∧
      decode (ws.flatMap bytesOfWord) = .ok d ∧ d.instr = i ∧ d.tcw = if ws.length = 8 then some t else none) ∧
  ∀ i ∈ Claims.eventTable, ∀ t : Tcw, encode i t = none

/-- The bytes at the pc of a strand in an ordinary cell of memory, `n` of them from `pa` on. -/
def Sys2Proof.Claims.CodeAt (p : Platform) (c : Core) (x : Strand) (n va pa : Nat) (c' : Core) : Prop :=
  translateSeg x.segs[0] x.pc.toNat n 4 x.sup = .ok va ∧ PlainCell p c x.key.job va 4 n pa c' ∧ layerGone p pa = false ∧
  ∀ j < n, c'.mem.isPoison (pa + j) = false ∧ layerGone p (pa + j) = false

/-- R20, R47, R57, R75, R80, R377: a turn of a station whose clock runs and whose next slot holds a ready strand, at whose pc the bytes decode to an
instruction, is that instruction's execution for that strand, the station's cycle counted and its slot noted, the work
latch idle again at the end; the bytes of a scalar instruction are four, of a tile command word 32 at an aligned
address.
What the specification leaves open here is the model's: assumption log 5 and 108. -/
def Obligations.StepRunsDecoded : Prop :=
  (∀ (s : State) (pid slot : Nat) (k : Key) (rest : List Turn) (f : Fetched) (c c1 : Core),
    s.schedule = .issue pid :: rest → pid < 640 → s.plat.stopped = false → clockRuns s.core pid = true →
    pickSlot (s.core.updStation pid fun z => { z with cycle := z.cycle + 1 }) pid = some (slot, k) →
    s.core.cancelled.contains k.job = false →
    c = { ((s.core.updStation pid fun z => { z with cycle := z.cycle + 1 }).updStation pid fun z => z.issueCycle slot k).updStrand k
      (fun y => { y with hold := .none }) with work := .strand pid slot k 0 none } →
    fetchAct s.plat c = .ok (some f, c1) →
    step s = endTurn (exec f.instr ⟨{ c1 with work := .strand pid slot k f.word f.tcw }, s.plat, rest, s.turnNo + 1⟩)) ∧
  (∀ (p : Platform) (c c1 c2 : Core) (pid slot : Nat) (k : Key) (x : Strand) (va pa : Nat) (w : IWord) (d : Decoded),
    c.work = .strand pid slot k 0 none → c.strand? k = some x → SegReady x 0 → CodeAt p c x 4 va pa c1 →
    w = BitVec.ofNat 32 (c1.mem.read pa 4) →
    (fieldAt 26 6 w ≠ 0x3E → decode (c1.mem.bytes pa 4) = .ok d → fetchAct p c = .ok (some ⟨d.instr, w, d.tcw⟩, c1)) ∧
    (fieldAt 26 6 w = 0x3E → va % 32 = 0 → x.loopEndsInside = false → CodeAt p c1 x 32 va pa c2 →
      decode (c2.mem.bytes pa 32) = .ok d → fetchAct p c = .ok (some ⟨d.instr, w, d.tcw⟩, c2)))

/-- R374: an invariant that every step keeps: out of recovery mode the firmware's version is at least the fused minimum. No
step lowers the fused minimum, and no step changes the fused key digests or revocation bits. -/
def Obligations.StepKeepsFirmwareSound : Prop :=
  ∀ s u : State, step s = .next u →
    (s.plat.firmware.sound → u.plat.firmware.sound) ∧ s.plat.firmware.minVersion ≤ u.plat.firmware.minVersion ∧
    u.plat.firmware.keyDigests = s.plat.firmware.keyDigests ∧ u.plat.firmware.revoked = s.plat.firmware.revoked

/-- R374, R377: a module that has stopped takes no turn of a station or engine and no event but a reset; and the firmware that
runs raises the fused minimum to its own version.
What the specification leaves open here is the model's: assumption log 10. -/
def Obligations.StoppedModule : Prop :=
  (∀ (s : State) (t : Turn) (rest : List Turn), s.schedule = t :: rest → s.plat.stopped = true →
    (∀ arg, t ≠ .event .deviceReset arg) →
    step s = .next ⟨{ s.core with work := .idle }, s.plat, rest, s.turnNo + 1⟩) ∧
  (∀ (s : State) (e : EventArg), Happens s e →
    (s.plat.firmware.recovery = false → exec .fusedMinimumRaise s = .next { s with plat := { s.plat with firmware :=
      { s.plat.firmware with minVersion := max s.plat.firmware.minVersion s.plat.firmware.version } } }) ∧
    (s.plat.firmware.recovery = true → exec .fusedMinimumRaise s = .next s))

/-- The station at the far end of a link; there is none at the row's end (R11). -/
def Sys2Proof.Claims.across (pid : Nat) (east : Bool) : Option Nat :=
  if east then (if pid % 16 = 15 then none else some (pid + 1)) else (if pid % 16 = 0 then none else some (pid - 1))

/-- The words that a link to station `n` holds, those on their way counted (R122). -/
def Sys2Proof.Claims.linkHolds (c : Core) (n : Nat) (east : Bool) : Nat :=
  (if east then (c.station n).westIn else (c.station n).eastIn).length +
    (c.linkMsgs.filter fun m => m.pid == n && m.east == !east).length

/-- A station after a pop of its link, whose other end is woken if it waits for room. -/
def Sys2Proof.Claims.linkPopped (c : Core) (pid : Nat) (east : Bool) (rest : List LinkWord) : Core :=
  let c1 := c.updStation pid fun z => if east then { z with eastIn := rest } else { z with westIn := rest }
  match Claims.across pid east with
  | some n => wakeAll (.link n (!east) true) c1
  | none => c1

/-- A word on its way over a link, with the sender station's key (R122). -/
def Sys2Proof.Claims.linkPushed (c : Core) (pid n : Nat) (east : Bool) (k : Key) (v : Word) : Core :=
  { c with linkMsgs := c.linkMsgs ++ [⟨n, !east, ⟨v, (c.station pid).pkey⟩, k⟩] }

/-- The words of an inbox lane of a record, of which one that is not live holds none, those on their way to it counted (R123;
assumption log 117). -/
def Sys2Proof.Claims.laneHolds (c : Core) (k : Key) (high : Bool) : Nat :=
  (match c.strand? k with
   | some y => if y.live then (if high then y.inHigh else y.inLow).count else 0
   | none => 0) + (c.messages.filter fun m => m.key == k && m.high == high).length

/-- R39, R60, R61, R122 to R126: each specifier as a source and as a destination: a full register's value, and a park on an
empty one; `zr` is 0 and discards; shadows, `sid` and `lid`; `lw`, `le`, `ib`, `qa` and `qb` pop their first word, `lwf` and
`lef` pass it on to the other side in the same step, and `lw`, `le`, `ob`, `qa` and `qb` push; a port that is empty, or full,
or that has no link parks the strand, and none is popped then; a queue port that is not bound is ILL (at this place in the
order: the model's choice, assumption log 83), `ob` takes a word for a record that is not live as for an empty lane (assumption log 117)
and cannot be read, and read-only specifiers cannot be written. The logical
number of a station outside the job's map is a free value (assumption log 16). -/
def Obligations.RegisterSpecifiers : Prop :=
  ∀ (p : Platform) (c : Core) (pid slot : Nat) (k : Key) (w : IWord) (t : Option Tcw) (x : Strand) (v : Word),
    c.work = .strand pid slot k w t → c.strand? k = some x →
    (∀ n : Fin 16,
      (x.mask.getLsbD n = true → x.notes[n] = .plain → readReg (.g n) p c = .ok (x.g[n], c)) ∧
      (x.mask.getLsbD n = false → readReg (.g n) p c = .error (.park (.reg n))) ∧
      destReady (.g n) p c = .ok ((), c) ∧
      writeReg (.g n) v p c = .ok ((), updRegs k (fun y => { y with
        g := y.g.set n v, notes := y.notes.set n .plain, mask := y.mask ||| (1#16 <<< n.val) }) c)) ∧
    readReg .zr p c = .ok (0, c) ∧ destReady .zr p c = .ok ((), c) ∧ writeReg .zr v p c = .ok ((), c) ∧
    readReg .fa p c = .ok (x.fa, c) ∧ readReg .fb p c = .ok (x.fb, c) ∧ readReg .fc p c = .ok (x.fc, c) ∧
    readReg .fs p c = .ok (x.fs, c) ∧ readReg .sid p c = .ok (BitVec.ofNat 64 (k.ctx / 1024), c) ∧
    (∀ l, logicalOf p c k.job pid = some l → readReg .lid p c = .ok (BitVec.ofNat 64 l, c)) ∧
    (logicalOf p c k.job pid = none → ∃ u, readReg .lid p c = .ok (u, { c with freeNo := c.freeNo + 1 })) ∧
    readReg .ob p c = .error (.trap causeIll 0 (w.zeroExtend 64) false) ∧
    (∀ r ∈ [Reg.lwf, .lef, .ib, .fa, .fb, .fc, .fs, .sid, .lid],
      destReady r p c = .error (.trap causeIll 0 (w.zeroExtend 64) false) ∧
      writeReg r v p c = .error (.trap causeIll 0 (w.zeroExtend 64) false)) ∧
    (∀ e ∈ [(Reg.lw, Reg.lwf, false), (.le, .lef, true)], ∀ east q, east = e.2.2 →
      q = (if east then (c.station pid).eastIn else (c.station pid).westIn) →
      (q = [] → ∀ r ∈ [e.1, e.2.1], readReg r p c = .error (.park (.link pid east false))) ∧
      (∀ m rest, q = m :: rest →
        readReg e.1 p c = .ok (m.word, Claims.linkPopped c pid east rest) ∧
        (∀ n, Claims.across pid (!east) = some n → Claims.linkHolds c n (!east) < 8 → readReg e.2.1 p c =
          .ok (m.word, Claims.linkPushed (Claims.linkPopped c pid east rest) pid n (!east) k m.word)) ∧
        ((∀ n, Claims.across pid (!east) = some n → 8 ≤ Claims.linkHolds c n (!east)) →
          readReg e.2.1 p c = .error (.park (.link pid (!east) true)))) ∧
      (∀ n, Claims.across pid east = some n → Claims.linkHolds c n east < 8 →
        destReady e.1 p c = .ok ((), c) ∧ writeReg e.1 v p c = .ok ((), Claims.linkPushed c pid n east k v)) ∧
      ((∀ n, Claims.across pid east = some n → 8 ≤ Claims.linkHolds c n east) →
        destReady e.1 p c = .error (.park (.link pid east true)))) ∧
    (∀ e ∈ [(Reg.qa, 3, 0), (.qb, 7, 4)],
      (x.qbind.getLsbD e.2.1 = false → readReg e.1 p c = .error (.trap causeIll 0 (w.zeroExtend 64) false) ∧
        destReady e.1 p c = .error (.trap causeIll 0 (w.zeroExtend 64) false)) ∧
      (∀ q l, x.qbind.getLsbD e.2.1 = true → q = x.qbind.toNat / 2 ^ e.2.2 % 8 → l = (c.station pid).queues[q]! →
        (l = [] → readReg e.1 p c = .error (.park (.stationQueue pid q false))) ∧
        (∀ u rest, l = u :: rest → readReg e.1 p c = .ok (u, wakeAll (.stationQueue pid q true)
          (c.updStation pid fun z => { z with queues := z.queues.set! q rest }))) ∧
        (l.length < 16 → destReady e.1 p c = .ok ((), c) ∧ writeReg e.1 v p c = .ok ((), wakeAll (.stationQueue pid q false)
          (c.updStation pid fun z => { z with queues := z.queues.set! q (z.queues[q]! ++ [v]) }))) ∧
        (16 ≤ l.length → destReady e.1 p c = .error (.park (.stationQueue pid q true))))) ∧
    ((∀ l ∈ [4, 5], l ∈ x.lines ∧ l ∉ x.badLines) →
      (x.inHigh.count = 0 → x.inLow.count = 0 → readReg .ib p c = .error (.park .inbox)) ∧
      (x.inHigh.count ≠ 0 → x.inHigh.notes[x.inHigh.head % 8]! = .plain → readReg .ib p c =
        .ok (x.inHigh.words[x.inHigh.head % 8]!, wakeLane k true (c.updStrand k fun y => { y with inHigh :=
          { y.inHigh with head := (y.inHigh.head + 1) % 8, count := y.inHigh.count - 1 } }))) ∧
      (x.inHigh.count = 0 → x.inLow.count ≠ 0 → x.inLow.notes[x.inLow.head % 8]! = .plain → readReg .ib p c =
        .ok (x.inLow.words[x.inLow.head % 8]!, wakeLane k false (c.updStrand k fun y => { y with inLow :=
          { y.inLow with head := (y.inLow.head + 1) % 8, count := y.inLow.count - 1 } })))) ∧
    (∀ key high, key = ⟨k.job, x.outTarget.toNat / 1024 * 1024⟩ → high = x.outTarget.getLsbD 0 →
      (Claims.laneHolds c key high < 8 →
        destReady .ob p c = .ok ((), c) ∧
        writeReg .ob v p c = .ok ((), { c with messages := c.messages ++ [⟨key, high, v, (c.station pid).pkey, k⟩] })) ∧
      (8 ≤ Claims.laneHolds c key high →
        destReady .ob p c = .error (.park (.outLane key.ctx high))))

/-- R65, R66: lookahead at the issue of an integer instruction with operations outstanding: with the window closed the strand
parks until they complete; with the window open, a destination that is an outstanding operation's is a LOOKAHEAD trap with
the instruction's address, which waits until nothing is outstanding; a long-latency instruction with four operations
outstanding parks.
What the specification leaves open here is the model's: assumption log 25. -/
def Obligations.LookaheadHolds : Prop :=
  ∀ (s : State) (pid : Nat) (k : Key) (w : IWord) (t : Option Tcw) (x : Strand) (d a b : Reg) (la : BitVec 4),
    InHand s pid k w t x → x.ops ≠ [] →
    (x.window = 0 →
      (∀ e ∈ binaryTable, exec (e.1 d a b) s = .next { s with core := parkStrand s.plat k .drain s.core }) ∧
      (∀ e ∈ longTable, exec (e.1 d a b la) s = .next { s with core := parkStrand s.plat k .drain s.core })) ∧
    (x.window ≠ 0 → ∀ n : Fin 16, d = .g n → (∃ o ∈ x.ops, o.dest = some n) →
      ∀ e ∈ binaryTable, exec (e.1 d a b) s = .next { s with core := s.core.setStrand { x with
        trapPend := some ⟨0x09, 0, x.pc, x.pc, x.pc, none⟩ } }) ∧
    (x.window ≠ 0 → (∀ o ∈ x.ops, ∀ n, o.dest = some n → d ≠ .g n) → 4 ≤ x.ops.length →
      ∀ e ∈ longTable, exec (e.1 d a b la) s = .next { s with core := parkStrand s.plat k .longLatency s.core })

/-- The frame of R87's instructions on registers: with a general register as destination and no port among the sources, an
instruction that neither parks nor traps into supervisor mode leaves memory, the platform, the stations, every other
strand, every other register with its bit, the shadows, segments, flags, inbox and saved registers as they were. -/
def Obligations.RegisterFrame : Prop :=
  ∀ e ∈ binaryTable, ∀ (s u : State) (pid : Nat) (k : Key) (w : IWord) (t : Option Tcw) (x y : Strand) (m : Fin 16) (a b : Reg),
    InHand s pid k w t x → x.sup = false → (∀ r ∈ [a, b], r = .zr ∨ r = .fa ∨ r = .fb ∨ r = .fc ∨ r = .fs ∨ r = .sid ∨ ∃ n, r = .g n) →
    exec (e.1 (.g m) a b) s = .next u → u.core.strand? k = some y → y.parked = none → y.sup = false →
    u.core.mem = s.core.mem ∧ u.plat = s.plat ∧ u.core.stations = s.core.stations ∧
    (∀ k' ≠ k, u.core.strand? k' = s.core.strand? k') ∧
    (∀ n : Fin 16, n ≠ m → y.g[n] = x.g[n] ∧ y.mask.getLsbD n = x.mask.getLsbD n) ∧
    y.fa = x.fa ∧ y.fb = x.fb ∧ y.fc = x.fc ∧ y.fs = x.fs ∧ y.segs = x.segs ∧ y.fpflags = x.fpflags ∧ y.rmode = x.rmode ∧
    y.inHigh = x.inHigh ∧ y.inLow = x.inLow ∧ y.outTarget = x.outTarget ∧ y.qbind = x.qbind ∧ y.epc = x.epc ∧
    y.cause = x.cause ∧ y.tval = x.tval ∧ y.savedMode = x.savedMode ∧ y.opc = x.opc ∧ y.lacount = x.lacount ∧
    y.engTrap = x.engTrap ∧ y.task = x.task ∧ y.place = x.place ∧ y.mode &&& ~~~4 = x.mode &&& ~~~4
end

