-- ==== Sys2Proof/Laws/Act.lean ====
section
/-! SUPPORT. How an attempt runs: each primitive of `Act` on a platform and a core, and the ends of an attempt. -/

namespace Sys2Proof.Machine

open Sys2Proof

/-! ### Primitives -/

@[simp] theorem act_pure {α : Type} (v : α) (p : Platform) (c : Core) : (pure v : Act α) p c = .ok (v, c) := rfl

@[simp] theorem act_bind {α β : Type} (a : Act α) (f : α → Act β) (p : Platform) (c : Core) :
    (a >>= f) p c = match a p c with | .ok (v, c') => f v p c' | .error e => .error e := by
  show (ReaderT.bind a f) p c = _
  simp only [ReaderT.bind, bind, StateT.bind, Except.bind]
  cases a p c <;> rfl

@[simp] theorem act_map {α β : Type} (a : Act α) (f : α → β) (p : Platform) (c : Core) :
    (f <$> a) p c = match a p c with | .ok (v, c') => .ok (f v, c') | .error e => .error e := by
  rw [map_eq_pure_bind, act_bind]
  cases a p c <;> rfl
@[simp] theorem act_get (p : Platform) (c : Core) : (get : Act Core) p c = .ok (c, c) := rfl
@[simp] theorem act_set (d : Core) (p : Platform) (c : Core) : (set d : Act Unit) p c = .ok ((), d) := rfl
@[simp] theorem act_read (p : Platform) (c : Core) : (read : Act Platform) p c = .ok (p, c) := rfl
@[simp] theorem act_stop {α : Type} (x : Stop) (p : Platform) (c : Core) : (stop x : Act α) p c = .error x := rfl
@[simp] theorem act_onCore (f : Core → Core) (p : Platform) (c : Core) : onCore f p c = .ok ((), f c) := rfl
@[simp] theorem act_look {α : Type} (f : Platform → Core → α) (p : Platform) (c : Core) :
    look f p c = .ok (f p c, c) := rfl
@[simp] theorem act_trapWith {α : Type} (cause : Nat) (v : Word) (p : Platform) (c : Core) :
    (trapWith cause v : Act α) p c = .error (.trap cause 0 v false) := rfl
@[simp] theorem act_faultWith {α : Type} (f : Fault) (p : Platform) (c : Core) :
    (faultWith f : Act α) p c = .error (.fault f) := rfl

/-- An attempt inside an attempt never stops. -/
theorem act_attempt {α : Type} (a : Act α) (p : Platform) (c : Core) :
    attempt a p c = match a p c with | .ok (v, c') => .ok (.ok v, c') | .error e => .ok (.error e, c) := by
  cases h : a p c <;> simp [attempt, h]

/-! ### The instruction in hand -/

section hand
variable {p : Platform} {c : Core} {pid slot : Nat} {k : Key} {w : IWord} {t : Option Tcw} {x : Strand}

theorem myKey_ok (h : c.work = .strand pid slot k w t) : myKey p c = .ok (k, c) := by simp [myKey, h]
theorem myStation_ok (h : c.work = .strand pid slot k w t) : myStation p c = .ok (pid, c) := by simp [myStation, h]
theorem myWord_ok (h : c.work = .strand pid slot k w t) : myWord p c = .ok (w, c) := by simp [myWord, h]
theorem myTcw_ok {u : Tcw} (h : c.work = .strand pid slot k w (some u)) : myTcw p c = .ok (u, c) := by
  simp [myTcw, h]

theorem me_ok (h : c.work = .strand pid slot k w t) (hx : c.strand? k = some x) : me p c = .ok (x, c) := by
  simp [me, myKey_ok h, hx]

theorem updMe_ok (f : Strand → Strand) (h : c.work = .strand pid slot k w t) :
    updMe f p c = .ok ((), c.updStrand k f) := by
  simp [updMe, myKey_ok h]

theorem updMine_ok (f : Strand → Strand) (h : c.work = .strand pid slot k w t) :
    updMine f p c = .ok ((), updRegs k f c) := by
  simp [updMine, myKey_ok h]

theorem illWord_stops {α : Type} (h : c.work = .strand pid slot k w t) :
    (illWord : Act α) p c = .error (.trap causeIll 0 (w.zeroExtend 64) false) := by
  simp [illWord, myWord_ok h]

end hand

/-! ### Ends of an attempt -/

theorem runCore_ok {a : Act Unit} {s : State} {c : Core} (h : a s.plat s.core = .ok ((), c)) :
    runCore a s = .next { s with core := c } := by
  simp [runCore, h]

theorem runCore_stop {a : Act Unit} {s : State} {x : Stop} {pid slot : Nat} {k : Key} {w : IWord} {t : Option Tcw}
    (h : a s.plat s.core = .error x) (hw : s.core.work = .strand pid slot k w t) (hx : ∀ f, x ≠ .fault f) :
    runCore a s = .next { s with core := strandStop s.plat k x s.core } := by
  cases x <;> simp_all [runCore]

/-- A strand's instruction and an engine's turn write nothing of the platform. -/
theorem runCore_plat {a : Act Unit} {s t : State} (h : runCore a s = .next t) : t.plat = s.plat := by
  unfold runCore at h
  split at h
  · cases h; rfl
  · cases h
  · split at h <;> (cases h; rfl)

/-! ### Strands of a core -/

theorem find_map_key (l : List Strand) (k : Key) (g : Strand → Strand) (hg : ∀ y : Strand, (g y).key = y.key) :
    (l.map fun y => if y.key = k then g y else y).find? (fun x => x.key == k) =
      (l.find? fun x => x.key == k).map g := by
  induction l with
  | nil => rfl
  | cons y l ih =>
    by_cases h : y.key = k
    · simp [h, hg]
    · have hb : (y.key == k) = false := by simp [h]
      simp [h, hb, ih]

theorem find_map_other (l : List Strand) (k k' : Key) (g : Strand → Strand) (hg : ∀ y : Strand, (g y).key = y.key)
    (hk : k' ≠ k) : (l.map fun y => if y.key = k then g y else y).find? (fun x => x.key == k') =
      l.find? fun x => x.key == k' := by
  induction l with
  | nil => rfl
  | cons y l ih =>
    by_cases h : y.key = k
    · have hb : (k == k') = false := by simp [Ne.symm hk]
      simp [h, hg, hb, ih]
    · cases hb : (y.key == k') <;> simp [h, hb, ih]

theorem strand_upd {c : Core} {k : Key} {x : Strand} (f : Strand → Strand) (hf : ∀ y, (f y).key = y.key)
    (h : c.strand? k = some x) : (c.updStrand k f).strand? k = some (f x) := by
  unfold Core.strand? at h ⊢
  simp [Core.updStrand, find_map_key _ _ _ hf, h]

theorem strand_upd_other {c : Core} {k k' : Key} (f : Strand → Strand) (hf : ∀ y, (f y).key = y.key) (hk : k' ≠ k) :
    (c.updStrand k f).strand? k' = c.strand? k' :=
  find_map_other _ _ _ _ hf hk

@[simp] theorem work_upd (c : Core) (k : Key) (f : Strand → Strand) : (c.updStrand k f).work = c.work := rfl

theorem wakeReg_is (k : Key) (n : Fin 16) (c : Core) : ∃ l, wakeReg k n c = { c with wakes := l } := by
  unfold wakeReg
  split
  · split
    · exact ⟨_, rfl⟩
    · exact ⟨c.wakes, rfl⟩
  · exact ⟨c.wakes, rfl⟩

/-- `wakeBit` writes nothing but the wakes on their way. -/
theorem wakeBit_is (k : Key) (n : Fin 16) (b : Bool) (c : Core) : ∃ l, wakeBit k n b c = { c with wakes := l } := by
  cases b with
  | false => exact ⟨_, rfl⟩
  | true =>
    obtain ⟨l, h⟩ := wakeReg_is k n c
    simp only [wakeBit, if_true, h]
    exact ⟨_, rfl⟩

/-- `wakeChanged` writes nothing but the wakes on their way. -/
theorem wakeChanged_is (k : Key) (o n : BitVec 16) (c : Core) : ∃ l, wakeChanged k o n c = { c with wakes := l } := by
  have h : ∀ (l : List (Fin 16)) (c : Core), ∃ w, l.foldl
      (fun c (i : Fin 16) => if o.getLsbD i == n.getLsbD i then c else wakeBit k i (n.getLsbD i) c) c = { c with wakes := w } := by
    intro l
    induction l with
    | nil => exact fun c => ⟨_, rfl⟩
    | cons i l ih =>
      intro c
      simp only [List.foldl_cons]
      split
      · exact ih c
      · obtain ⟨w, hw⟩ := wakeBit_is k i (n.getLsbD i) c
        rw [hw]
        obtain ⟨v, hv⟩ := ih { c with wakes := w }
        exact ⟨v, hv⟩
  unfold wakeChanged
  split
  · exact ⟨_, rfl⟩
  · exact h _ _

@[simp] theorem work_wakeChanged (k : Key) (o n : BitVec 16) (c : Core) : (wakeChanged k o n c).work = c.work := by
  obtain ⟨l, h⟩ := wakeChanged_is k o n c
  rw [h]

@[simp] theorem work_updRegs (k : Key) (f : Strand → Strand) (c : Core) : (updRegs k f c).work = c.work := by
  unfold updRegs
  split <;> simp [Core.setStrand]

/-- Where no bit of the mask changes, nobody is woken. -/
theorem updRegs_same {k : Key} {f : Strand → Strand} {c : Core} {x : Strand} (h : c.strand? k = some x)
    (hm : (f x).mask = x.mask) : updRegs k f c = c.setStrand (f x) := by
  simp [updRegs, h, wakeChanged, hm]

end Sys2Proof.Machine
end

