-- ==== Sys2Proof/Laws/Issue.lean ====
section
/-! SUPPORT. What the shared parts of an instruction's issue do: the lookahead check, the end of an issue, and accesses. -/

namespace Sys2Proof.Machine

open Sys2Proof

section hand
variable {p : Platform} {c : Core} {pid slot : Nat} {k : Key} {w : IWord} {t : Option Tcw} {x : Strand}

/-- The lookahead check passes exactly where R65 lets the instruction issue. -/
theorem lookaheadCheck_ok {writes : List Reg} {ll : Bool} (h : c.work = .strand pid slot k w t)
    (hx : c.strand? k = some x) (hm : MayIssue x writes ll) : lookaheadCheck writes ll p c = .ok ((), c) := by
  simp only [lookaheadCheck, act_bind, me_ok h hx]
  rcases hm with h0 | ⟨hw, hd, hl⟩
  · simp [h0]
  · by_cases he : x.ops = []
    · simp [he]
    · have ha : ¬ x.ops.any (opClash writes) = true := by
        simp only [List.any_eq_true, not_exists, not_and]
        intro o ho
        unfold opClash
        cases hdest : o.dest with
        | none => simp
        | some n => simpa using hd o ho n hdest
      have hb : ¬ (ll && decide (4 ≤ x.ops.length)) = true := by
        cases ll with
        | false => simp
        | true => simpa using hl rfl
      have he' : x.ops.isEmpty = false := by simp [he]
      simp only [he', hw, if_neg ha, if_neg hb, Bool.false_eq_true, if_false]
      rfl

/-- With an outstanding operation that has the same destination, the window being open, the check traps (R65). -/
theorem lookaheadCheck_traps {writes : List Reg} {ll : Bool} (h : c.work = .strand pid slot k w t)
    (hx : c.strand? k = some x) (hw : x.window ≠ 0)
    (hd : ∃ o ∈ x.ops, ∃ n, o.dest = some n ∧ Reg.g n ∈ writes) :
    lookaheadCheck writes ll p c = .error (.trap causeLookahead 0 x.pc false) := by
  obtain ⟨o, ho, n, hn, hm⟩ := hd
  have he : x.ops ≠ [] := by intro e; simp [e] at ho
  have ha : x.ops.any (opClash writes) = true := by
    rw [List.any_eq_true]
    exact ⟨o, ho, by simp [opClash, hn, hm]⟩
  have he' : x.ops.isEmpty = false := by simp [he]
  simp only [lookaheadCheck, act_bind, me_ok h hx, he', hw, if_pos ha, Bool.false_eq_true, if_false]
  rfl

/-- With operations outstanding and the window closed, the strand parks until they have completed (R65). -/
theorem lookaheadCheck_drains {writes : List Reg} {ll : Bool} (h : c.work = .strand pid slot k w t)
    (hx : c.strand? k = some x) (hn : x.ops ≠ []) (hw : x.window = 0) :
    lookaheadCheck writes ll p c = .error (.park .drain) := by
  simp [lookaheadCheck, me_ok h hx, hn, hw]

theorem retire_ok {d : Reg} {v : Word} {c' : Core} (h : c.work = .strand pid slot k w t)
    (hr : Retires p k c d v c') (hk : ∀ c1, writeReg d v p (c.updStrand k Strand.issued) = .ok ((), c1) → c1.work = c.work) :
    retire d v p c = .ok ((), c') := by
  obtain ⟨c1, h1, rfl⟩ := hr
  have hw1 := hk c1 h1
  simp [retire, updMe_ok _ h, h1, updMe_ok (c := c1) _ (hw1.trans h)]

theorem retireNone_ok (h : c.work = .strand pid slot k w t) : retireNone p c = .ok ((), c.passed k) := by
  simp [retireNone, updMe_ok _ h, Core.passed]

theorem retireLong_ok {d : Reg} {la : BitVec 4} {r : LlResult} (h : c.work = .strand pid slot k w t) :
    retireLong d la r p c = .ok ((), c.passedLong k d la r) := by
  simp [retireLong, updMine_ok _ h, Core.passedLong]

end hand

/-! ### Writing the destination -/

@[simp] theorem work_wakeAll (r : Wait) (c : Core) : (wakeAll r c).work = c.work := rfl
@[simp] theorem work_updStation (c : Core) (pid : Nat) (f : Station → Station) : (c.updStation pid f).work = c.work := rfl
@[simp] theorem station_updStrand (c : Core) (k : Key) (f : Strand → Strand) (pid : Nat) :
    (c.updStrand k f).station pid = c.station pid := rfl

theorem issued_key (x : Strand) : x.issued.key = x.key := rfl

theorem laneRoom_issued {c : Core} {k : Key} {x : Strand} (hx : c.strand? k = some x) (rcv : Key) (high : Bool) :
    laneRoom (c.updStrand k Strand.issued) rcv high = laneRoom c rcv high := by
  by_cases h : rcv = k
  · subst h
    simp [laneRoom, laneCount, strand_upd Strand.issued issued_key hx, hx]
    rfl
  · simp [laneRoom, laneCount, strand_upd_other Strand.issued issued_key h]
    rfl

/-- Where the destination has room, the end of an issue writes it, and the work latch stays. -/
theorem writeReg_ok {p : Platform} {c : Core} {pid slot : Nat} {k : Key} {w : IWord} {t : Option Tcw} {x : Strand}
    {d : Reg} (v : Word) (h : c.work = .strand pid slot k w t) (hx : c.strand? k = some x) (hr : Room p c d) :
    ∃ c1, writeReg d v p (c.updStrand k Strand.issued) = .ok ((), c1) ∧ c1.work = c.work := by
  have h' : (c.updStrand k Strand.issued).work = .strand pid slot k w t := h
  have hx' : (c.updStrand k Strand.issued).strand? k = some x.issued := strand_upd _ issued_key hx
  unfold Room at hr
  cases d with
  | g n => exact ⟨_, by simp only [writeReg]; exact updMine_ok _ h', by simp⟩
  | zr => exact ⟨c.updStrand k Strand.issued, rfl, rfl⟩
  | lw =>
    simp only [destReady, act_bind, myStation_ok h, act_get] at hr
    split at hr
    case isFalse => simp at hr
    rename_i hroom
    have hl : linkRoom (c.updStrand k Strand.issued) pid false = true := hroom
    simp only [writeReg, pushLink, act_bind, myStation_ok h', myKey_ok h', act_get, hl]
    cases hn : neighbour pid false with
    | none => simp [linkRoom, hn] at hl
    | some n => exact ⟨_, rfl, rfl⟩
  | le =>
    simp only [destReady, act_bind, myStation_ok h, act_get] at hr
    split at hr
    case isFalse => simp at hr
    rename_i hroom
    have hl : linkRoom (c.updStrand k Strand.issued) pid true = true := hroom
    simp only [writeReg, pushLink, act_bind, myStation_ok h', myKey_ok h', act_get, hl]
    cases hn : neighbour pid true with
    | none => simp [linkRoom, hn] at hl
    | some n => exact ⟨_, rfl, rfl⟩
  | ob =>
    simp only [destReady, act_bind, me_ok h hx, act_get] at hr
    split at hr
    case isFalse => simp at hr
    rename_i hroom
    have hl : laneRoom (c.updStrand k Strand.issued) x.issued.outKey x.issued.outHigh = true := by
      rw [laneRoom_issued hx]; exact hroom
    simp only [writeReg, pushOut, act_bind, me_ok h' hx', myStation_ok h', act_get, hl, if_true]
    exact ⟨_, rfl, rfl⟩
  | qa =>
    simp only [destReady, act_bind] at hr
    have hb : ∀ q, boundQueue false p c = .ok (q, c) →
        boundQueue false p (c.updStrand k Strand.issued) = .ok (q, c.updStrand k Strand.issued) := by
      intro q hq
      simp only [boundQueue, act_bind, me_ok h hx, me_ok h' hx'] at hq ⊢
      have e : x.issued.qbind = x.qbind := rfl
      rw [e]
      revert hq
      cases x.qbind.toNat.testBit 3 <;> simp [illWord_stops h, illWord_stops h']
    have hb0 : ∀ q c2, boundQueue false p c = .ok (q, c2) → c2 = c := by
      intro q c2 hq
      simp only [boundQueue, act_bind, me_ok h hx] at hq
      revert hq
      cases x.qbind.toNat.testBit 3 <;> simp [illWord_stops h]
      intro _ e; exact e.symm
    cases hq : boundQueue false p c with
    | error e => simp [hq] at hr
    | ok r =>
      obtain ⟨q, c2⟩ := r
      obtain rfl := hb0 q c2 hq
      simp only [hq, myStation_ok h, act_get] at hr
      split at hr
      case isFalse => simp at hr
      rename_i hroom
      have hl : queueRoom (c2.updStrand k Strand.issued) pid q = true := hroom
      simp only [writeReg, pushQueue, act_bind, hb q hq, myStation_ok h', act_get, hl, if_true]
      exact ⟨_, rfl, rfl⟩
  | qb =>
    simp only [destReady, act_bind] at hr
    have hb : ∀ q, boundQueue true p c = .ok (q, c) →
        boundQueue true p (c.updStrand k Strand.issued) = .ok (q, c.updStrand k Strand.issued) := by
      intro q hq
      simp only [boundQueue, act_bind, me_ok h hx, me_ok h' hx'] at hq ⊢
      have e : x.issued.qbind = x.qbind := rfl
      rw [e]
      revert hq
      cases x.qbind.toNat.testBit 7 <;> simp [illWord_stops h, illWord_stops h']
    have hb0 : ∀ q c2, boundQueue true p c = .ok (q, c2) → c2 = c := by
      intro q c2 hq
      simp only [boundQueue, act_bind, me_ok h hx] at hq
      revert hq
      cases x.qbind.toNat.testBit 7 <;> simp [illWord_stops h]
      intro _ e; exact e.symm
    cases hq : boundQueue true p c with
    | error e => simp [hq] at hr
    | ok r =>
      obtain ⟨q, c2⟩ := r
      obtain rfl := hb0 q c2 hq
      simp only [hq, myStation_ok h, act_get] at hr
      split at hr
      case isFalse => simp at hr
      rename_i hroom
      have hl : queueRoom (c2.updStrand k Strand.issued) pid q = true := hroom
      simp only [writeReg, pushQueue, act_bind, hb q hq, myStation_ok h', act_get, hl, if_true]
      exact ⟨_, rfl, rfl⟩
  | lwf => simp [destReady, illWord_stops h] at hr
  | lef => simp [destReady, illWord_stops h] at hr
  | ib => simp [destReady, illWord_stops h] at hr
  | fa => simp [destReady, illWord_stops h] at hr
  | fb => simp [destReady, illWord_stops h] at hr
  | fc => simp [destReady, illWord_stops h] at hr
  | fs => simp [destReady, illWord_stops h] at hr
  | sid => simp [destReady, illWord_stops h] at hr
  | lid => simp [destReady, illWord_stops h] at hr

/-- The end of an issue, where the destination has room. -/
theorem retire_room {p : Platform} {c : Core} {pid slot : Nat} {k : Key} {w : IWord} {t : Option Tcw} {x : Strand}
    {d : Reg} (v : Word) (h : c.work = .strand pid slot k w t) (hx : c.strand? k = some x) (hr : Room p c d) :
    ∃ c', Retires p k c d v c' ∧ retire d v p c = .ok ((), c') := by
  obtain ⟨c1, h1, hw⟩ := writeReg_ok v h hx hr
  refine ⟨c1.updStrand k fun x => x.advance 4, ⟨c1, h1, rfl⟩, ?_⟩
  have h' : (c.updStrand k Strand.issued).work = .strand pid slot k w t := h
  simp [retire, updMe_ok _ h, h1, updMe_ok (c := c1) _ (hw.trans h)]

end Sys2Proof.Machine
end

