-- ==== Sys2Proof/Laws/Lines.lean ====
section
/-! SUPPORT. What the operations on the lines of L2, on the writes to the management blocks and on a waiting command's marks
change, and what they leave. -/

namespace Sys2Proof.Laws

open Sys2Proof Sys2Proof.Machine

/-! ### Lines of L2 (R379) -/

theorem sharesSet_self (v : Nat) : sharesSet v v = true := by simp [sharesSet]

@[simp] theorem useLine_mem (job va : Nat) (c : Core) : (useLine job va c).mem = c.mem := rfl
@[simp] theorem useLine_strands (job va : Nat) (c : Core) : (useLine job va c).strands = c.strands := rfl
@[simp] theorem useLine_stations (job va : Nat) (c : Core) : (useLine job va c).stations = c.stations := rfl
@[simp] theorem useLine_uses (job va : Nat) (c : Core) : (useLine job va c).uses = c.uses + 1 := rfl
@[simp] theorem takeLine_mem (job va : Nat) (m : Mapping) (b : Bool) (c : Core) : (takeLine job va m b c).mem = c.mem := rfl
@[simp] theorem takeLine_strands (job va : Nat) (m : Mapping) (b : Bool) (c : Core) :
    (takeLine job va m b c).strands = c.strands := rfl
@[simp] theorem takeLine_stations (job va : Nat) (m : Mapping) (b : Bool) (c : Core) :
    (takeLine job va m b c).stations = c.stations := rfl

/-- A use changes when lines were used, and no line is lost or taken by it. -/
theorem useLine_lines (job va : Nat) (c : Core) : (useLine job va c).l2.map L2Line.vline = c.l2.map L2Line.vline := by
  simp only [useLine, List.map_map]
  refine List.map_congr_left fun l _ => ?_
  simp only [Function.comp]
  split <;> rfl

/-- A line that L2 holds is reached without translation, and has been used. -/
theorem reachLine_hit {job va : Nat} {fault : Nat × Nat × Nat} {p : Platform} {c : Core} {l : L2Line}
    (h : findLine c job va = some l) :
    reachLine job va fault p c = .ok (.cell (l.pline * 64 + va % 64) l.pin, useLine job va c) := by
  show (match findLine c job va with
    | some l => _
    | none => _ : Act Target) p c = _
  rw [h]
  rfl

/-! ### Writes to the management blocks (R363) -/

@[simp] theorem sendMgmt_mem (die off size : Nat) (v : Word) (c : Core) : (sendMgmt die off size v c).mem = c.mem := rfl
@[simp] theorem sendMgmt_strands (die off size : Nat) (v : Word) (c : Core) : (sendMgmt die off size v c).strands = c.strands := rfl

/-- With no write on its way a word is as the block holds it. -/
theorem mgmtWord_held {p : Platform} {c : Core} {die off : Nat} (h : ∀ w ∈ c.mgmtWrites, w.isOf die off = false) :
    mgmtWord p c die off = mgmtHeld p die off := by
  have : (c.mgmtWrites.filter fun w => w.isOf die off) = [] := List.filter_eq_nil_iff.2 fun w hw => by simp [h w hw]
  simp [mgmtWord, this]

/-- A write is seen at once by an access of its word (R156). -/
theorem mgmtWord_sent (p : Platform) (c : Core) (die off size : Nat) (v : Word) :
    mgmtWord p (sendMgmt die off size v c) die off = MgmtWrite.leaves ⟨die, off, size, v⟩ (mgmtWord p c die off) := by
  simp [mgmtWord, sendMgmt, MgmtWrite.isOf, List.filter_append, List.foldl_append]

/-- A write of another word is not seen. -/
theorem mgmtWord_other (p : Platform) (c : Core) {die off die' off' : Nat} (size : Nat) (v : Word)
    (h : ¬ (die' = die ∧ off' / 8 = off / 8)) : mgmtWord p (sendMgmt die' off' size v c) die off = mgmtWord p c die off := by
  have : MgmtWrite.isOf ⟨die', off', size, v⟩ die off = false := by
    simp only [MgmtWrite.isOf, Bool.and_eq_false_iff, beq_eq_false_iff_ne]
    exact (Classical.not_and_iff_not_or_not.1 h)
  simp [mgmtWord, sendMgmt, List.filter_append, this]

/-! ### A command that waits (R166, R193) -/

@[simp] theorem going_page (d : Cmd) : d.going.page = none := rfl
@[simp] theorem going_retry (d : Cmd) : d.going.retry = none := rfl
@[simp] theorem going_seq (d : Cmd) : d.going.seq = d.seq := rfl
@[simp] theorem going_waits (d : Cmd) (c : Core) : d.going.waits c = false := rfl

/-- A command that comes to a pinned line again keeps its place there. -/
theorem retryAt_again (d : Cmd) (line n m : Nat) (h : d.retry = some (line, m)) : (d.retryAt line n).retry = some (line, m) := by
  simp [Cmd.retryAt, h]

end Sys2Proof.Laws
end

