-- ==== Sys2Proof/Laws/Memory.lean ====
section
/-! SUPPORT. Memory: every operation keeps the canonical form, a read gives what the last write stored, and a write leaves
every other byte and bit as it was. -/

namespace Sys2Proof.Machine

open Sys2Proof

/-! ### Cells -/

theorem cellsFrom_weaken {l : List Host.Cell} {m n : Nat} (h : n ≤ m) (hl : cellsFrom m l = true) : cellsFrom n l = true := by
  cases l with
  | nil => rfl
  | cons c r =>
    simp only [cellsFrom, Bool.and_eq_true, decide_eq_true_eq] at *
    exact ⟨⟨by omega, hl.1.2⟩, hl.2⟩

theorem cellsGet_before {l : List Host.Cell} {m a : Nat} (h : a < m) (hl : cellsFrom m l = true) :
    cellsGet l a = Config.memoryByte := by
  cases l with
  | nil => rfl
  | cons c r =>
    simp only [cellsFrom, Bool.and_eq_true, decide_eq_true_eq] at hl
    simp only [cellsGet]
    rw [if_neg (by omega), if_pos (by omega)]

/-- Writing a byte keeps the canonical form. -/
theorem cellsSet_from {l : List Host.Cell} {m a : Nat} {b : Byte} (h : m ≤ a) (hl : cellsFrom m l = true) :
    cellsFrom m (cellsSet l a b) = true := by
  induction l generalizing m with
  | nil => simp only [cellsSet]; split <;> simp [cellsFrom, *]
  | cons c r ih =>
    obtain ⟨x, y⟩ := c
    simp only [cellsFrom, Bool.and_eq_true, decide_eq_true_eq] at hl
    obtain ⟨⟨h1, h2⟩, h3⟩ := hl
    simp only [cellsSet]
    split
    · split
      · simp [cellsFrom, *]
      · simp only [cellsFrom, Bool.and_eq_true, decide_eq_true_eq]
        exact ⟨⟨h, ‹_›⟩, ⟨by omega, h2⟩, h3⟩
    · split
      · split
        · exact cellsFrom_weaken (by omega) h3
        · simp only [cellsFrom, Bool.and_eq_true, decide_eq_true_eq]
          exact ⟨⟨h, ‹_›⟩, cellsFrom_weaken (by omega) h3⟩
      · simp only [cellsFrom, Bool.and_eq_true, decide_eq_true_eq]
        exact ⟨⟨h1, h2⟩, ih (by omega) h3⟩

/-- The byte written is the byte read, and every other byte reads as before. -/
theorem cellsGet_set {l : List Host.Cell} {m a : Nat} {b : Byte} (e : Nat) (hl : cellsFrom m l = true) :
    cellsGet (cellsSet l a b) e = if e = a then b else cellsGet l e := by
  induction l generalizing m with
  | nil =>
    simp only [cellsSet]
    split
    · subst b; simp [cellsGet]
    · simp [cellsGet]
  | cons c r ih =>
    obtain ⟨x, y⟩ := c
    simp only [cellsFrom, Bool.and_eq_true, decide_eq_true_eq] at hl
    obtain ⟨-, h3⟩ := hl
    have hr : ∀ d, d ≤ x → cellsGet r d = Config.memoryByte := fun d hd => cellsGet_before (by omega) h3
    simp only [cellsSet]
    split
    · split
      · subst b
        split
        · subst e; simp only [cellsGet]; rw [if_neg (by omega), if_pos (by omega)]
        · rfl
      · simp only [cellsGet]
        split
        · rfl
        · split
          · rw [if_neg (by omega), if_pos (by omega)]
          · rfl
    · split
      · subst a
        split
        · subst b
          split
          · subst e; exact hr _ (Nat.le_refl _)
          · simp only [cellsGet]
            rw [if_neg ‹_›]
            split
            · exact hr _ (by omega)
            · rfl
        · simp only [cellsGet]
          split
          · rfl
          · rfl
      · simp only [cellsGet]
        split
        · rw [if_neg (by omega)]
        · split
          · rw [if_neg (by omega)]
          · exact ih h3

/-! ### Full/empty and poison bits -/

theorem risingFrom_weaken {l : List Nat} {m n : Nat} (h : n ≤ m) (hl : risingFrom m l = true) : risingFrom n l = true := by
  cases l with
  | nil => rfl
  | cons c r =>
    simp only [risingFrom, Bool.and_eq_true, decide_eq_true_eq] at *
    exact ⟨by omega, hl.2⟩

theorem risingHas_before {l : List Nat} {m a : Nat} (h : a < m) (hl : risingFrom m l = true) : risingHas l a = false := by
  cases l with
  | nil => rfl
  | cons c r =>
    simp only [risingFrom, Bool.and_eq_true, decide_eq_true_eq] at hl
    simp only [risingHas]
    rw [if_neg (by omega), if_pos (by omega)]

/-- Setting or clearing a bit keeps the canonical form. -/
theorem risingSet_from {l : List Nat} {m a : Nat} {v : Bool} (h : m ≤ a) (hl : risingFrom m l = true) :
    risingFrom m (risingSet l a v) = true := by
  induction l generalizing m with
  | nil => cases v <;> simp [risingSet, risingFrom, h]
  | cons x r ih =>
    simp only [risingFrom, Bool.and_eq_true, decide_eq_true_eq] at hl
    obtain ⟨h1, h3⟩ := hl
    simp only [risingSet]
    split
    · cases v <;> simp [risingFrom, *] <;> omega
    · split
      · cases v
        · exact risingFrom_weaken (by omega) h3
        · simp [risingFrom, h1, h3]
      · simp only [risingFrom, Bool.and_eq_true, decide_eq_true_eq]
        exact ⟨h1, ih (by omega) h3⟩

/-- The bit written is the bit read, and every other bit reads as before. -/
theorem risingHas_set {l : List Nat} {m a : Nat} {v : Bool} (e : Nat) (hl : risingFrom m l = true) :
    risingHas (risingSet l a v) e = if e = a then v else risingHas l e := by
  induction l generalizing m with
  | nil => cases v <;> simp [risingSet, risingHas]
  | cons x r ih =>
    simp only [risingFrom, Bool.and_eq_true, decide_eq_true_eq] at hl
    obtain ⟨-, h3⟩ := hl
    have hr : ∀ d, d ≤ x → risingHas r d = false := fun d hd => risingHas_before (by omega) h3
    simp only [risingSet]
    split
    · cases v
      · simp only [Bool.false_eq_true, if_false]
        split
        · subst e; simp only [risingHas]; rw [if_neg (by omega), if_pos (by omega)]
        · rfl
      · simp only [if_true, risingHas]
        split
        · rfl
        · split
          · rw [if_neg (by omega), if_pos (by omega)]
          · rfl
    · split
      · subst a
        cases v
        · simp only [Bool.false_eq_true, if_false]
          split
          · subst e; exact hr _ (Nat.le_refl _)
          · simp only [risingHas]
            rw [if_neg ‹_›]
            split
            · exact hr _ (by omega)
            · rfl
        · simp only [if_true, risingHas]
          split <;> simp [*]
      · simp only [risingHas]
        split
        · rw [if_neg (by omega)]
        · split
          · rw [if_neg (by omega)]
          · exact ih h3

/-! ### The canonical form of memory -/

theorem Mem.wf_iff {m : Mem} :
    m.wf = true ↔ cellsFrom 0 m.cells = true ∧ risingFrom 0 m.full = true ∧ risingFrom 0 m.poison = true := by
  simp [Mem.wf, and_assoc]

theorem Mem.wf_reset : Mem.reset.wf = true := rfl

theorem Mem.wf_setByte {m : Mem} (h : m.wf = true) (a : Nat) (b : Byte) : (m.setByte a b).wf = true := by
  rw [Mem.wf_iff] at *
  exact ⟨cellsSet_from (Nat.zero_le _) h.1, h.2⟩

theorem Mem.wf_setBytes {m : Mem} (h : m.wf = true) (a : Nat) (l : List Byte) : (m.setBytes a l).wf = true := by
  induction l generalizing m a with
  | nil => exact h
  | cons b r ih => exact ih (Mem.wf_setByte h a b) _

theorem Mem.wf_write {m : Mem} (h : m.wf = true) (a n x : Nat) : (m.write a n x).wf = true := Mem.wf_setBytes h _ _

theorem Mem.wf_write64 {m : Mem} (h : m.wf = true) (a : Nat) (w : Word) : (m.write64 a w).wf = true := Mem.wf_write h _ _ _

theorem Mem.wf_setFull {m : Mem} (h : m.wf = true) (a : Nat) (v : Bool) : (m.setFull a v).wf = true := by
  rw [Mem.wf_iff] at *
  exact ⟨h.1, risingSet_from (Nat.zero_le _) h.2.1, h.2.2⟩

theorem Mem.wf_setPoison {m : Mem} (h : m.wf = true) (a : Nat) (v : Bool) : (m.setPoison a v).wf = true := by
  rw [Mem.wf_iff] at *
  exact ⟨h.1, h.2.1, risingSet_from (Nat.zero_le _) h.2.2⟩

theorem Mem.wf_setLinePoison {m : Mem} (h : m.wf = true) (a : Nat) (v : Bool) : (m.setLinePoison a v).wf = true := by
  simp only [Mem.setLinePoison]
  generalize List.range 8 = l
  induction l generalizing m with
  | nil => exact h
  | cons k r ih => exact ih (Mem.wf_setPoison h _ _)

theorem Mem.wf_restoreLine {m : Mem} (h : m.wf = true) (a : Nat) (d : BitVec 512) (f p : BitVec 8) :
    (m.restoreLine a d f p).wf = true := by
  have key : ∀ (l : List Nat) (m : Mem), m.wf = true → (l.foldl
      (fun m k => (m.setFull (a / 64 * 64 + 8 * k) (f.getLsbD k)).setPoison (a / 64 * 64 + 8 * k) (p.getLsbD k)) m).wf = true := by
    intro l
    induction l with
    | nil => exact fun m h => h
    | cons k r ih => exact fun m h => ih _ (Mem.wf_setPoison (Mem.wf_setFull h _ _) _ _)
  exact key _ _ (Mem.wf_write h _ _ _)

/-! ### Reads after writes -/

theorem Mem.byte_setByte {m : Mem} (h : m.wf = true) (a e : Nat) (b : Byte) :
    (m.setByte a b).byte e = if e = a then b else m.byte e := cellsGet_set e (Mem.wf_iff.1 h).1

/-- A byte outside the stored bytes reads as before. -/
theorem Mem.byte_setBytes_other {m : Mem} (h : m.wf = true) {a e : Nat} {l : List Byte} (he : e < a ∨ a + l.length ≤ e) :
    (m.setBytes a l).byte e = m.byte e := by
  induction l generalizing m a with
  | nil => rfl
  | cons b r ih =>
    simp only [List.length_cons] at he
    show ((m.setByte a b).setBytes (a + 1) r).byte e = _
    rw [ih (Mem.wf_setByte h a b) (by omega), Mem.byte_setByte h, if_neg (by omega)]

/-- The bytes written are the bytes read. -/
theorem Mem.bytes_setBytes {m : Mem} (h : m.wf = true) (a : Nat) (l : List Byte) :
    (m.setBytes a l).bytes a l.length = l := by
  induction l generalizing m a with
  | nil => rfl
  | cons b r ih =>
    show ((m.setByte a b).setBytes (a + 1) r).byte a :: ((m.setByte a b).setBytes (a + 1) r).bytes (a + 1) r.length = _
    rw [ih (Mem.wf_setByte h a b) (a + 1), Mem.byte_setBytes_other (Mem.wf_setByte h a b) (by omega), Mem.byte_setByte h,
      if_pos rfl]

theorem leBytes_length (n x : Nat) : (leBytes n x).length = n := by
  induction n generalizing x with
  | zero => rfl
  | succ n ih => simp [leBytes, ih]

theorem leNat_leBytes (n x : Nat) : leNat (leBytes n x) = x % 2 ^ (8 * n) := by
  induction n generalizing x with
  | zero => simp [leBytes, leNat, Nat.mod_one]
  | succ n ih =>
    simp only [leBytes, leNat, ih, BitVec.toNat_ofNat]
    rw [Nat.mul_add, Nat.add_comm (8 * n), Nat.pow_add, Nat.mod_mul]

/-- The number stored is the number read. -/
theorem Mem.read_write {m : Mem} (h : m.wf = true) (a n x : Nat) : (m.write a n x).read a n = x % 2 ^ (8 * n) := by
  have := Mem.bytes_setBytes h a (leBytes n x)
  rw [leBytes_length] at this
  rw [Mem.write, Mem.read, this, leNat_leBytes]

theorem Mem.read64_write64 {m : Mem} (h : m.wf = true) (a : Nat) (w : Word) : (m.write64 a w).read64 a = w := by
  rw [Mem.write64, Mem.read64, Mem.read_write h, wordOf]
  rw [Nat.mod_eq_of_lt (by have := w.isLt; omega)]
  simp

/-- A store leaves every byte outside the stored ones as it was. -/
theorem Mem.byte_write_other {m : Mem} (h : m.wf = true) {a n x e : Nat} (he : e < a ∨ a + n ≤ e) :
    (m.write a n x).byte e = m.byte e := Mem.byte_setBytes_other h (by rw [leBytes_length]; exact he)

theorem Mem.isFull_setFull {m : Mem} (h : m.wf = true) (a e : Nat) (v : Bool) :
    (m.setFull a v).isFull e = if e / 8 * 8 = a / 8 * 8 then v else m.isFull e := risingHas_set _ (Mem.wf_iff.1 h).2.1

theorem Mem.isPoison_setPoison {m : Mem} (h : m.wf = true) (a e : Nat) (v : Bool) :
    (m.setPoison a v).isPoison e = if e / 8 * 8 = a / 8 * 8 then v else m.isPoison e := risingHas_set _ (Mem.wf_iff.1 h).2.2

/-- A change of a bit moves no byte. -/
@[simp] theorem Mem.byte_setFull (m : Mem) (a e : Nat) (v : Bool) : (m.setFull a v).byte e = m.byte e := rfl
@[simp] theorem Mem.byte_setPoison (m : Mem) (a e : Nat) (v : Bool) : (m.setPoison a v).byte e = m.byte e := rfl
@[simp] theorem Mem.isPoison_setFull (m : Mem) (a e : Nat) (v : Bool) : (m.setFull a v).isPoison e = m.isPoison e := rfl
@[simp] theorem Mem.isFull_setPoison (m : Mem) (a e : Nat) (v : Bool) : (m.setPoison a v).isFull e = m.isFull e := rfl
@[simp] theorem Mem.isFull_setByte (m : Mem) (a e : Nat) (b : Byte) : (m.setByte a b).isFull e = m.isFull e := rfl
@[simp] theorem Mem.isPoison_setByte (m : Mem) (a e : Nat) (b : Byte) : (m.setByte a b).isPoison e = m.isPoison e := rfl

/-- Writing bytes changes no full/empty bit and no poison bit. -/
theorem Mem.setBytes_bits (m : Mem) (a : Nat) (l : List Byte) :
    (m.setBytes a l).full = m.full ∧ (m.setBytes a l).poison = m.poison := by
  induction l generalizing m a with
  | nil => exact ⟨rfl, rfl⟩
  | cons b r ih => exact ih (m.setByte a b) (a + 1)

end Sys2Proof.Machine
end

