-- ==== Sys2Proof/Laws/Operands.lean ====
section
/-! SUPPORT. What reading a source can change: a port's queue or lane, and wakes on their way; nothing else. -/

namespace Sys2Proof.Machine

open Sys2Proof

/-- A strand from whose inbox a word may have been taken. -/
def Strand.popped (x y : Strand) : Prop := y = { x with inHigh := y.inHigh, inLow := y.inLow }

/-- What a core keeps when a source has been read. -/
structure SourceRead (c c' : Core) : Prop where
  work : c'.work = c.work
  mem : c'.mem = c.mem
  l2 : c'.l2 = c.l2
  tlb : c'.tlb = c.tlb
  scopes : c'.scopes = c.scopes
  strand : ∀ k x, c.strand? k = some x → ∃ y, c'.strand? k = some y ∧ x.popped y

theorem Strand.popped_refl (x : Strand) : x.popped x := rfl

theorem SourceRead.refl (c : Core) : SourceRead c c := ⟨rfl, rfl, rfl, rfl, rfl, fun _ x h => ⟨x, h, x.popped_refl⟩⟩

theorem SourceRead.trans {a b c : Core} (h : SourceRead a b) (g : SourceRead b c) : SourceRead a c := by
  refine ⟨g.work.trans h.work, g.mem.trans h.mem, g.l2.trans h.l2, g.tlb.trans h.tlb, g.scopes.trans h.scopes, ?_⟩
  intro k x hx
  obtain ⟨y, hy, hp⟩ := h.strand k x hx
  obtain ⟨z, hz, hq⟩ := g.strand k y hy
  refine ⟨z, hz, ?_⟩
  unfold Strand.popped at *
  rw [hp] at hq
  exact hq

/-- A core that differs in stations, wakes and the free-value counter. -/
theorem SourceRead.of_fields {c c' : Core} (h : c'.work = c.work) (hm : c'.mem = c.mem) (h2 : c'.l2 = c.l2)
    (ht : c'.tlb = c.tlb) (hs : c'.scopes = c.scopes) (hk : c'.strands = c.strands) : SourceRead c c' :=
  ⟨h, hm, h2, ht, hs, fun k x hx => ⟨x, by unfold Core.strand? at *; rw [hk]; exact hx, x.popped_refl⟩⟩

theorem popLink_reads {p : Platform} {c c' : Core} {pid slot : Nat} {k : Key} {w : IWord} {t : Option Tcw} {east : Bool}
    {v : Word} (h : c.work = .strand pid slot k w t) (hr : popLink east p c = .ok (v, c')) : SourceRead c c' := by
  simp only [popLink, act_bind, myStation_ok h, act_get] at hr
  cases hl : (c.station pid).linkIn east with
  | nil => simp [hl] at hr
  | cons a rest =>
    simp only [hl, act_bind, act_set, act_pure, Except.ok.injEq, Prod.mk.injEq] at hr
    obtain ⟨-, rfl⟩ := hr
    cases neighbour pid east <;> exact SourceRead.of_fields rfl rfl rfl rfl rfl rfl

theorem pushLink_reads {p : Platform} {c c' : Core} {pid slot : Nat} {k : Key} {w : IWord} {t : Option Tcw} {east : Bool}
    {v : Word} (h : c.work = .strand pid slot k w t) (hr : pushLink east v p c = .ok ((), c')) : SourceRead c c' := by
  simp only [pushLink, act_bind, myStation_ok h, myKey_ok h, act_get] at hr
  cases hn : neighbour pid east with
  | none => simp [hn] at hr
  | some n =>
    cases hl : linkRoom c pid east with
    | false => simp [hn, hl] at hr
    | true =>
      simp only [hn, hl, if_true, act_set, Except.ok.injEq, Prod.mk.injEq] at hr
      obtain ⟨-, rfl⟩ := hr
      exact SourceRead.of_fields rfl rfl rfl rfl rfl rfl

theorem boundQueue_keeps {p : Platform} {c c' : Core} {pid slot : Nat} {k : Key} {w : IWord} {t : Option Tcw} {b : Bool}
    {q : Nat} {x : Strand} (h : c.work = .strand pid slot k w t) (hx : c.strand? k = some x)
    (hr : boundQueue b p c = .ok (q, c')) : c' = c := by
  simp only [boundQueue, act_bind, me_ok h hx] at hr
  revert hr
  cases b <;> simp
  · cases x.qbind.toNat.testBit 3 <;> simp [illWord_stops h]
    intro _ e; exact e.symm
  · cases x.qbind.toNat.testBit 7 <;> simp [illWord_stops h]
    intro _ e; exact e.symm

theorem popQueue_reads {p : Platform} {c c' : Core} {pid slot : Nat} {k : Key} {w : IWord} {t : Option Tcw} {b : Bool}
    {v : Word} {x : Strand} (h : c.work = .strand pid slot k w t) (hx : c.strand? k = some x)
    (hr : popQueue b p c = .ok (v, c')) : SourceRead c c' := by
  simp only [popQueue, act_bind] at hr
  cases hq : boundQueue b p c with
  | error e => simp [hq] at hr
  | ok r =>
    obtain ⟨q, c2⟩ := r
    obtain rfl := boundQueue_keeps h hx hq
    simp only [hq, myStation_ok h, act_get] at hr
    cases hl : (c2.station pid).queues[q]! with
    | nil => simp [hl] at hr
    | cons a rest =>
      simp only [hl, act_bind, act_set, act_pure, Except.ok.injEq, Prod.mk.injEq] at hr
      obtain ⟨-, rfl⟩ := hr
      exact SourceRead.of_fields rfl rfl rfl rfl rfl rfl

theorem me_keeps {p : Platform} {c c' : Core} {x : Strand} (hr : me p c = .ok (x, c')) : c' = c := by
  simp only [me, myKey, act_bind, act_get] at hr
  cases hw : c.work with
  | strand pid slot k w t =>
    cases hx : c.strand? k with
    | none => simp [hw, hx] at hr
    | some y => simp [hw, hx] at hr; exact hr.2.symm
  | idle => simp [hw] at hr
  | engine u => simp [hw] at hr
  | event a => simp [hw] at hr

theorem needLine_keeps {p : Platform} {c c' : Core} {line : Nat} {u : Unit} (hr : needLine line p c = .ok (u, c')) :
    c' = c := by
  simp only [needLine, act_bind] at hr
  cases hm : me p c with
  | error e => simp [hm] at hr
  | ok r =>
    obtain ⟨x, c2⟩ := r
    obtain rfl := me_keeps hm
    simp only [hm] at hr
    generalize (x.lines.contains line && !x.badLines.contains line) = b at hr
    cases b <;> simp at hr
    exact hr.symm

theorem acquireNote_keeps {p : Platform} {c c' : Core} {src : AcquireSrc} {n : Note} {u : Unit}
    (hr : acquireNote src n p c = .ok (u, c')) : c' = c := by
  unfold acquireNote at hr
  split at hr <;> simp at hr <;> exact hr.symm

theorem pop_strand {c : Core} {k : Key} (f : Strand → Strand) (hf : ∀ y : Strand, y.popped (f y)) :
    ∀ k' x, c.strand? k' = some x → ∃ y, (c.updStrand k f).strand? k' = some y ∧ x.popped y := by
  intro k' x hx
  have hkey : ∀ y, (f y).key = y.key := fun y => by rw [hf y]
  by_cases e : k' = k
  · subst e
    exact ⟨f x, strand_upd f hkey hx, hf x⟩
  · exact ⟨x, by rw [strand_upd_other f hkey e]; exact hx, x.popped_refl⟩

theorem popInbox_reads {p : Platform} {c c' : Core} {pid slot : Nat} {k : Key} {w : IWord} {t : Option Tcw}
    {v : Word} {x : Strand} (h : c.work = .strand pid slot k w t) (hx : c.strand? k = some x)
    (hr : popInbox p c = .ok (v, c')) : SourceRead c c' := by
  simp only [popInbox, act_bind] at hr
  cases h4 : needLine 4 p c with
  | error e => simp [h4] at hr
  | ok r4 =>
    obtain ⟨u, c2⟩ := r4
    obtain rfl := needLine_keeps h4
    simp only [h4] at hr
    cases h5 : needLine 5 p c2 with
    | error e => simp [h5] at hr
    | ok r5 =>
      obtain ⟨u, c3⟩ := r5
      obtain rfl := needLine_keeps h5
      simp only [h5, me_ok h hx] at hr
      split at hr
      · simp only [act_bind] at hr
        split at hr
        · rename_i hn
          obtain rfl := acquireNote_keeps hn
          simp only [updMe_ok _ h, act_onCore, act_pure, Except.ok.injEq, Prod.mk.injEq] at hr
          obtain ⟨-, rfl⟩ := hr
          exact ⟨rfl, rfl, rfl, rfl, rfl, pop_strand _ fun _ => rfl⟩
        · simp at hr
      · split at hr
        · simp only [act_bind] at hr
          split at hr
          · rename_i hn
            obtain rfl := acquireNote_keeps hn
            simp only [updMe_ok _ h, act_onCore, act_pure, Except.ok.injEq, Prod.mk.injEq] at hr
            obtain ⟨-, rfl⟩ := hr
            exact ⟨rfl, rfl, rfl, rfl, rfl, pop_strand _ fun _ => rfl⟩
          · simp at hr
        · simp at hr

/-- Reading a source takes at most a port's word. -/
theorem readReg_reads {p : Platform} {c c' : Core} {pid slot : Nat} {k : Key} {w : IWord} {t : Option Tcw}
    {v : Word} {x : Strand} {r : Reg} (h : c.work = .strand pid slot k w t) (hx : c.strand? k = some x)
    (hr : Reads p c r v c') : SourceRead c c' := by
  unfold Reads at hr
  cases r with
  | g n =>
    simp only [readReg, readG, act_bind, me_ok h hx] at hr
    cases hf : x.full n.val with
    | false => simp [hf] at hr
    | true =>
      simp only [hf, if_true] at hr
      cases hn : x.notes[n] with
      | plain => simp [hn] at hr; rw [← hr.2]; exact .refl c
      | fill scope st cx =>
        simp only [hn, act_bind, myStation_ok h] at hr
        generalize (scopeHas scope st cx pid x.key.ctx && scopeHas scope pid x.key.ctx st cx) = b at hr
        cases b <;> simp at hr
        rw [← hr.2]; exact .refl c
      | completion tr b =>
        simp only [hn] at hr
        cases ha : acquireNote (.reg n) (.completion tr b) p c with
        | error e => simp [ha] at hr
        | ok r =>
          obtain ⟨u, c2⟩ := r
          obtain rfl := acquireNote_keeps ha
          simp [ha] at hr
          rw [← hr.2]; exact .refl c2
  | zr => simp [readReg] at hr; rw [← hr.2]; exact .refl c
  | lw => exact popLink_reads h hr
  | le => exact popLink_reads h hr
  | lwf =>
    simp only [readReg, act_bind] at hr
    cases h1 : popLink false p c with
    | error e => simp [h1] at hr
    | ok r =>
      obtain ⟨v1, c1⟩ := r
      have g1 := popLink_reads h h1
      simp only [h1] at hr
      cases h2 : pushLink true v1 p c1 with
      | error e => simp [h2] at hr
      | ok r =>
        obtain ⟨u, c2⟩ := r
        have g2 := pushLink_reads (g1.work.trans h) h2
        simp [h2] at hr
        rw [← hr.2]
        exact g1.trans g2
  | lef =>
    simp only [readReg, act_bind] at hr
    cases h1 : popLink true p c with
    | error e => simp [h1] at hr
    | ok r =>
      obtain ⟨v1, c1⟩ := r
      have g1 := popLink_reads h h1
      simp only [h1] at hr
      cases h2 : pushLink false v1 p c1 with
      | error e => simp [h2] at hr
      | ok r =>
        obtain ⟨u, c2⟩ := r
        have g2 := pushLink_reads (g1.work.trans h) h2
        simp [h2] at hr
        rw [← hr.2]
        exact g1.trans g2
  | ib => exact popInbox_reads h hx hr
  | ob => simp [readReg, illWord_stops h] at hr
  | qa => exact popQueue_reads h hx hr
  | qb => exact popQueue_reads h hx hr
  | fa => simp [readReg, me_ok h hx] at hr; rw [← hr.2]; exact .refl c
  | fb => simp [readReg, me_ok h hx] at hr; rw [← hr.2]; exact .refl c
  | fc => simp [readReg, me_ok h hx] at hr; rw [← hr.2]; exact .refl c
  | fs => simp [readReg, me_ok h hx] at hr; rw [← hr.2]; exact .refl c
  | sid => simp [readReg, me_ok h hx] at hr; rw [← hr.2]; exact .refl c
  | lid =>
    simp only [readReg, act_bind, myStation_ok h, myKey_ok h, act_look] at hr
    cases hl : logicalOf p c k.job pid with
    | some l => simp [hl] at hr; rw [← hr.2]; exact .refl c
    | none => simp only [hl, freeValue, act_bind, act_get, act_set, act_pure, Except.ok.injEq, Prod.mk.injEq] at hr; rw [← hr.2]; exact .of_fields rfl rfl rfl rfl rfl rfl

/-- The instruction in hand is still in hand once a source has been read. -/
theorem InHand.read {s : State} {pid : Nat} {k : Key} {w : IWord} {t : Option Tcw} {x : Strand} {c' : Core}
    (h : InHand s pid k w t x) (hr : SourceRead s.core c') :
    ∃ slot y, c'.work = .strand pid slot k w t ∧ c'.strand? k = some y ∧ x.popped y := by
  obtain ⟨⟨slot, hw⟩, hx⟩ := h
  obtain ⟨y, hy, hp⟩ := hr.strand k x hx
  exact ⟨slot, y, hr.work.trans hw, hy, hp⟩

end Sys2Proof.Machine
end

