-- ==== Sys2Proof/Laws/PerInstr.lean ====
section
/-! SUPPORT. What the encoder gives for each instruction: one word with a scalar major opcode, eight words with the major
opcode of a tile command (R75), or nothing for an event. -/

namespace Sys2Proof

/-! ### The major opcode of each form of R58 -/

theorem fMajor_append (m : BitVec 6) (x : BitVec 26) : fMajor (m ++ x) = m := by
  simp only [fMajor, fieldAt]
  ext i hi
  rw [BitVec.getElem_extractLsb', BitVec.getLsbD_append, if_neg (by omega), Nat.add_sub_cancel_left,
    BitVec.getLsbD_eq_getElem hi]


theorem fMajor_encR (m : BitVec 6) (d a b : BitVec 5) (n : BitVec 7) (k : BitVec 4) : fMajor (encR m d a b n k) = m := by
  have h : encR m d a b n k = m ++ (d ++ a ++ b ++ n ++ k) := by
    simp only [encR]
    apply BitVec.eq_of_toNat_eq
    simp only [BitVec.toNat_append, Nat.shiftLeft_or_distrib, ← Nat.shiftLeft_add, Nat.or_assoc]
  rw [h, fMajor_append]

theorem fMajor_encSplit (m : BitVec 6) (d a b : BitVec 5) (g : BitVec 3) (o k : BitVec 4) : fMajor (encSplit m d a b g o k) = m := by
  have h : encSplit m d a b g o k = m ++ (d ++ a ++ b ++ g ++ o ++ k) := by
    simp only [encSplit]
    apply BitVec.eq_of_toNat_eq
    simp only [BitVec.toNat_append, Nat.shiftLeft_or_distrib, ← Nat.shiftLeft_add, Nat.or_assoc]
  rw [h, fMajor_append]

theorem fMajor_encI (m : BitVec 6) (d a : BitVec 5) (v : BitVec 16) : fMajor (encI m d a v) = m := by
  have h : encI m d a v = m ++ (d ++ a ++ v) := by
    simp only [encI]
    apply BitVec.eq_of_toNat_eq
    simp only [BitVec.toNat_append, Nat.shiftLeft_or_distrib, ← Nat.shiftLeft_add, Nat.or_assoc]
  rw [h, fMajor_append]

theorem fMajor_encM (m : BitVec 6) (v a : BitVec 5) (g : BitVec 3) (x : BitVec 9) (k : BitVec 4) : fMajor (encM m v a g x k) = m := by
  have h : encM m v a g x k = m ++ (v ++ a ++ g ++ x ++ k) := by
    simp only [encM]
    apply BitVec.eq_of_toNat_eq
    simp only [BitVec.toNat_append, Nat.shiftLeft_or_distrib, ← Nat.shiftLeft_add, Nat.or_assoc]
  rw [h, fMajor_append]

theorem fMajor_encMS (m : BitVec 6) (v a : BitVec 5) (g : BitVec 3) (x : BitVec 6) (o : BitVec 3) (k : BitVec 4) : fMajor (encMS m v a g x o k) = m := by
  have h : encMS m v a g x o k = m ++ (v ++ a ++ g ++ x ++ o ++ k) := by
    simp only [encMS]
    apply BitVec.eq_of_toNat_eq
    simp only [BitVec.toNat_append, Nat.shiftLeft_or_distrib, ← Nat.shiftLeft_add, Nat.or_assoc]
  rw [h, fMajor_append]

theorem fMajor_encA (m : BitVec 6) (d a b : BitVec 5) (g : BitVec 3) (o : BitVec 4) (r p : BitVec 2) : fMajor (encA m d a b g o r p) = m := by
  have h : encA m d a b g o r p = m ++ (d ++ a ++ b ++ g ++ o ++ r ++ p) := by
    simp only [encA]
    apply BitVec.eq_of_toNat_eq
    simp only [BitVec.toNat_append, Nat.shiftLeft_or_distrib, ← Nat.shiftLeft_add, Nat.or_assoc]
  rw [h, fMajor_append]

theorem fMajor_encShift (d a : BitVec 5) (k : BitVec 4) (n : BitVec 6) : fMajor (encShift d a k n) = 6#6 := by
  have h : encShift d a k n = 6#6 ++ (d ++ a ++ k ++ 0#6 ++ n) := by
    simp only [encShift]
    apply BitVec.eq_of_toNat_eq
    simp only [BitVec.toNat_append, Nat.shiftLeft_or_distrib, ← Nat.shiftLeft_add, Nat.or_assoc]
  rw [h, fMajor_append]

theorem fMajor_encFence (o p : BitVec 3) : fMajor (encFence o p) = 0x27#6 := by
  have h : encFence o p = 0x27#6 ++ (0#16 ++ o ++ p ++ 0#4) := by
    simp only [encFence]
    apply BitVec.eq_of_toNat_eq
    simp only [BitVec.toNat_append, Nat.shiftLeft_or_distrib, ← Nat.shiftLeft_add, Nat.or_assoc]
  rw [h, fMajor_append]

theorem fMajor_encSys (d a : BitVec 5) (o : BitVec 4) (v : BitVec 8) : fMajor (encSys d a o v) = 0x3c#6 := by
  have h : encSys d a o v = 0x3c#6 ++ (d ++ a ++ o ++ v ++ 0#4) := by
    simp only [encSys]
    apply BitVec.eq_of_toNat_eq
    simp only [BitVec.toNat_append, Nat.shiftLeft_or_distrib, ← Nat.shiftLeft_add, Nat.or_assoc]
  rw [h, fMajor_append]

theorem fMajor_encB (m : BitVec 6) (a b : BitVec 5) (n : BitVec 3) (x : BitVec 13) : fMajor (encB m a b n x) = m := by
  have h : encB m a b n x = m ++ (a ++ b ++ n ++ x) := by
    simp only [encB]
    apply BitVec.eq_of_toNat_eq
    simp only [BitVec.toNat_append, Nat.shiftLeft_or_distrib, ← Nat.shiftLeft_add, Nat.or_assoc]
  rw [h, fMajor_append]

theorem fMajor_pair (m : BitVec 6) (n : BitVec 10) (x : BitVec 16) : fMajor (m ++ n ++ x) = m := by
  have h : m ++ n ++ x = m ++ (n ++ x) := by
    apply BitVec.eq_of_toNat_eq
    simp only [BitVec.toNat_append, Nat.shiftLeft_or_distrib, ← Nat.shiftLeft_add, Nat.or_assoc]
  rw [h, fMajor_append]

theorem fMajor_encTcw (e : BitVec 6) (o : BitVec 8) (k : BitVec 4) (f : BitVec 8) :
    fMajor (0x3e#6 ++ e ++ o ++ k ++ f) = 0x3e#6 := by
  have h : 0x3e#6 ++ e ++ o ++ k ++ f = 0x3e#6 ++ (e ++ o ++ k ++ f) := by
    apply BitVec.eq_of_toNat_eq
    simp only [BitVec.toNat_append, Nat.shiftLeft_or_distrib, ← Nat.shiftLeft_add, Nat.or_assoc]
  rw [h, fMajor_append]

end Sys2Proof

namespace Sys2Proof.Laws.Words

open Sys2Proof

/-- The words of an instruction: none for an event, one with a scalar major opcode, or eight with a tile command's. -/
def Words : Option (List IWord) → Prop
  | none => True
  | some [w] => fMajor w ≠ 0x3e#6
  | some (w :: r) => r.length = 7 ∧ fMajor w = 0x3e#6
  | some [] => False

/-- Whatever the rest of a tile command holds, an instruction's words have their length and their major opcode. -/
def Statement (i : Instr) : Prop := ∀ t : Tcw, Words (encode i t)

theorem none_words : Words none := True.intro
theorem scalar_words {w : IWord} {m : BitVec 6} (h : fMajor w = m) (hm : m ≠ 0x3e#6) : Words (some [w]) := by
  simp only [Words, h]; exact hm
theorem tcw_words (e : BitVec 6) (o : BitVec 8) (t : Tcw) : Words (some (encTcw e o t)) := ⟨rfl, fMajor_encTcw e o _ _⟩


theorem add (d : Reg) (a : Reg) (b : Reg) : Statement (.add d a b) := fun _ => scalar_words (fMajor_encR _ _ _ _ _ _) (by decide)
theorem sub (d : Reg) (a : Reg) (b : Reg) : Statement (.sub d a b) := fun _ => scalar_words (fMajor_encR _ _ _ _ _ _) (by decide)
theorem and (d : Reg) (a : Reg) (b : Reg) : Statement (.and d a b) := fun _ => scalar_words (fMajor_encR _ _ _ _ _ _) (by decide)
theorem or (d : Reg) (a : Reg) (b : Reg) : Statement (.or d a b) := fun _ => scalar_words (fMajor_encR _ _ _ _ _ _) (by decide)
theorem xor (d : Reg) (a : Reg) (b : Reg) : Statement (.xor d a b) := fun _ => scalar_words (fMajor_encR _ _ _ _ _ _) (by decide)
theorem andn (d : Reg) (a : Reg) (b : Reg) : Statement (.andn d a b) := fun _ => scalar_words (fMajor_encR _ _ _ _ _ _) (by decide)
theorem orn (d : Reg) (a : Reg) (b : Reg) : Statement (.orn d a b) := fun _ => scalar_words (fMajor_encR _ _ _ _ _ _) (by decide)
theorem xnor (d : Reg) (a : Reg) (b : Reg) : Statement (.xnor d a b) := fun _ => scalar_words (fMajor_encR _ _ _ _ _ _) (by decide)
theorem shl (d : Reg) (a : Reg) (b : Reg) : Statement (.shl d a b) := fun _ => scalar_words (fMajor_encR _ _ _ _ _ _) (by decide)
theorem shr (d : Reg) (a : Reg) (b : Reg) : Statement (.shr d a b) := fun _ => scalar_words (fMajor_encR _ _ _ _ _ _) (by decide)
theorem sar (d : Reg) (a : Reg) (b : Reg) : Statement (.sar d a b) := fun _ => scalar_words (fMajor_encR _ _ _ _ _ _) (by decide)
theorem rol (d : Reg) (a : Reg) (b : Reg) : Statement (.rol d a b) := fun _ => scalar_words (fMajor_encR _ _ _ _ _ _) (by decide)
theorem ror (d : Reg) (a : Reg) (b : Reg) : Statement (.ror d a b) := fun _ => scalar_words (fMajor_encR _ _ _ _ _ _) (by decide)
theorem min (d : Reg) (a : Reg) (b : Reg) : Statement (.min d a b) := fun _ => scalar_words (fMajor_encR _ _ _ _ _ _) (by decide)
theorem max (d : Reg) (a : Reg) (b : Reg) : Statement (.max d a b) := fun _ => scalar_words (fMajor_encR _ _ _ _ _ _) (by decide)
theorem minz (d : Reg) (a : Reg) (b : Reg) : Statement (.minz d a b) := fun _ => scalar_words (fMajor_encR _ _ _ _ _ _) (by decide)
theorem maxz (d : Reg) (a : Reg) (b : Reg) : Statement (.maxz d a b) := fun _ => scalar_words (fMajor_encR _ _ _ _ _ _) (by decide)
theorem slt (d : Reg) (a : Reg) (b : Reg) : Statement (.slt d a b) := fun _ => scalar_words (fMajor_encR _ _ _ _ _ _) (by decide)
theorem sltz (d : Reg) (a : Reg) (b : Reg) : Statement (.sltz d a b) := fun _ => scalar_words (fMajor_encR _ _ _ _ _ _) (by decide)
theorem seq (d : Reg) (a : Reg) (b : Reg) : Statement (.seq d a b) := fun _ => scalar_words (fMajor_encR _ _ _ _ _ _) (by decide)
theorem sne (d : Reg) (a : Reg) (b : Reg) : Statement (.sne d a b) := fun _ => scalar_words (fMajor_encR _ _ _ _ _ _) (by decide)
theorem addsat (d : Reg) (a : Reg) (b : Reg) : Statement (.addsat d a b) := fun _ => scalar_words (fMajor_encR _ _ _ _ _ _) (by decide)
theorem subsat (d : Reg) (a : Reg) (b : Reg) : Statement (.subsat d a b) := fun _ => scalar_words (fMajor_encR _ _ _ _ _ _) (by decide)
theorem clz (d : Reg) (a : Reg) : Statement (.clz d a) := fun _ => scalar_words (fMajor_encR _ _ _ _ _ _) (by decide)
theorem ctz (d : Reg) (a : Reg) : Statement (.ctz d a) := fun _ => scalar_words (fMajor_encR _ _ _ _ _ _) (by decide)
theorem pop (d : Reg) (a : Reg) : Statement (.pop d a) := fun _ => scalar_words (fMajor_encR _ _ _ _ _ _) (by decide)
theorem brev (d : Reg) (a : Reg) : Statement (.brev d a) := fun _ => scalar_words (fMajor_encR _ _ _ _ _ _) (by decide)
theorem bswap (d : Reg) (a : Reg) : Statement (.bswap d a) := fun _ => scalar_words (fMajor_encR _ _ _ _ _ _) (by decide)
theorem sextB (d : Reg) (a : Reg) : Statement (.sextB d a) := fun _ => scalar_words (fMajor_encR _ _ _ _ _ _) (by decide)
theorem sextH (d : Reg) (a : Reg) : Statement (.sextH d a) := fun _ => scalar_words (fMajor_encR _ _ _ _ _ _) (by decide)
theorem sextW (d : Reg) (a : Reg) : Statement (.sextW d a) := fun _ => scalar_words (fMajor_encR _ _ _ _ _ _) (by decide)
theorem zextB (d : Reg) (a : Reg) : Statement (.zextB d a) := fun _ => scalar_words (fMajor_encR _ _ _ _ _ _) (by decide)
theorem zextH (d : Reg) (a : Reg) : Statement (.zextH d a) := fun _ => scalar_words (fMajor_encR _ _ _ _ _ _) (by decide)
theorem zextW (d : Reg) (a : Reg) : Statement (.zextW d a) := fun _ => scalar_words (fMajor_encR _ _ _ _ _ _) (by decide)
theorem mul (d : Reg) (a : Reg) (b : Reg) (k : BitVec 4) : Statement (.mul d a b k) := fun _ => scalar_words (fMajor_encR _ _ _ _ _ _) (by decide)
theorem mulh (d : Reg) (a : Reg) (b : Reg) (k : BitVec 4) : Statement (.mulh d a b k) := fun _ => scalar_words (fMajor_encR _ _ _ _ _ _) (by decide)
theorem mulhz (d : Reg) (a : Reg) (b : Reg) (k : BitVec 4) : Statement (.mulhz d a b k) := fun _ => scalar_words (fMajor_encR _ _ _ _ _ _) (by decide)
theorem div (d : Reg) (a : Reg) (b : Reg) (k : BitVec 4) : Statement (.div d a b k) := fun _ => scalar_words (fMajor_encR _ _ _ _ _ _) (by decide)
theorem divz (d : Reg) (a : Reg) (b : Reg) (k : BitVec 4) : Statement (.divz d a b k) := fun _ => scalar_words (fMajor_encR _ _ _ _ _ _) (by decide)
theorem rem (d : Reg) (a : Reg) (b : Reg) (k : BitVec 4) : Statement (.rem d a b k) := fun _ => scalar_words (fMajor_encR _ _ _ _ _ _) (by decide)
theorem remz (d : Reg) (a : Reg) (b : Reg) (k : BitVec 4) : Statement (.remz d a b k) := fun _ => scalar_words (fMajor_encR _ _ _ _ _ _) (by decide)
theorem adds1 (d : Reg) (a : Reg) (b : Reg) : Statement (.adds1 d a b) := fun _ => scalar_words (fMajor_encR _ _ _ _ _ _) (by decide)
theorem adds2 (d : Reg) (a : Reg) (b : Reg) : Statement (.adds2 d a b) := fun _ => scalar_words (fMajor_encR _ _ _ _ _ _) (by decide)
theorem adds3 (d : Reg) (a : Reg) (b : Reg) : Statement (.adds3 d a b) := fun _ => scalar_words (fMajor_encR _ _ _ _ _ _) (by decide)
theorem adds4 (d : Reg) (a : Reg) (b : Reg) : Statement (.adds4 d a b) := fun _ => scalar_words (fMajor_encR _ _ _ _ _ _) (by decide)
theorem addi (d : Reg) (a : Reg) (i : BitVec 16) : Statement (.addi d a i) := fun _ => scalar_words (fMajor_encI _ _ _ _) (by decide)
theorem andi (d : Reg) (a : Reg) (i : BitVec 16) : Statement (.andi d a i) := fun _ => scalar_words (fMajor_encI _ _ _ _) (by decide)
theorem ori (d : Reg) (a : Reg) (i : BitVec 16) : Statement (.ori d a i) := fun _ => scalar_words (fMajor_encI _ _ _ _) (by decide)
theorem xori (d : Reg) (a : Reg) (i : BitVec 16) : Statement (.xori d a i) := fun _ => scalar_words (fMajor_encI _ _ _ _) (by decide)
theorem shli (d : Reg) (a : Reg) (i : BitVec 6) : Statement (.shli d a i) := fun _ => scalar_words (fMajor_encShift _ _ _ _) (by decide)
theorem shri (d : Reg) (a : Reg) (i : BitVec 6) : Statement (.shri d a i) := fun _ => scalar_words (fMajor_encShift _ _ _ _) (by decide)
theorem sari (d : Reg) (a : Reg) (i : BitVec 6) : Statement (.sari d a i) := fun _ => scalar_words (fMajor_encShift _ _ _ _) (by decide)
theorem roli (d : Reg) (a : Reg) (i : BitVec 6) : Statement (.roli d a i) := fun _ => scalar_words (fMajor_encShift _ _ _ _) (by decide)
theorem slti (d : Reg) (a : Reg) (i : BitVec 16) : Statement (.slti d a i) := fun _ => scalar_words (fMajor_encI _ _ _ _) (by decide)
theorem sltzi (d : Reg) (a : Reg) (i : BitVec 16) : Statement (.sltzi d a i) := fun _ => scalar_words (fMajor_encI _ _ _ _) (by decide)
theorem movk (d : Reg) (h : Fin 4) (i : BitVec 16) : Statement (.movk d h i) := fun _ => scalar_words (fMajor_encI _ _ _ _) (by decide)
theorem muli (d : Reg) (a : Reg) (i : BitVec 16) : Statement (.muli d a i) := fun _ => scalar_words (fMajor_encI _ _ _ _) (by decide)
theorem adr (d : Reg) (i : BitVec 16) : Statement (.adr d i) := fun _ => scalar_words (fMajor_encI _ _ _ _) (by decide)
theorem brEq (a : Reg) (b : Reg) (o : BitVec 13) : Statement (.brEq a b o) := fun _ => scalar_words (fMajor_encB _ _ _ _ _) (by decide)
theorem brNe (a : Reg) (b : Reg) (o : BitVec 13) : Statement (.brNe a b o) := fun _ => scalar_words (fMajor_encB _ _ _ _ _) (by decide)
theorem brLt (a : Reg) (b : Reg) (o : BitVec 13) : Statement (.brLt a b o) := fun _ => scalar_words (fMajor_encB _ _ _ _ _) (by decide)
theorem brGe (a : Reg) (b : Reg) (o : BitVec 13) : Statement (.brGe a b o) := fun _ => scalar_words (fMajor_encB _ _ _ _ _) (by decide)
theorem brLtz (a : Reg) (b : Reg) (o : BitVec 13) : Statement (.brLtz a b o) := fun _ => scalar_words (fMajor_encB _ _ _ _ _) (by decide)
theorem brGez (a : Reg) (b : Reg) (o : BitVec 13) : Statement (.brGez a b o) := fun _ => scalar_words (fMajor_encB _ _ _ _ _) (by decide)
theorem briEq (a : Reg) (i : BitVec 5) (o : BitVec 13) : Statement (.briEq a i o) := fun _ => scalar_words (fMajor_encB _ _ _ _ _) (by decide)
theorem briNe (a : Reg) (i : BitVec 5) (o : BitVec 13) : Statement (.briNe a i o) := fun _ => scalar_words (fMajor_encB _ _ _ _ _) (by decide)
theorem briLt (a : Reg) (i : BitVec 5) (o : BitVec 13) : Statement (.briLt a i o) := fun _ => scalar_words (fMajor_encB _ _ _ _ _) (by decide)
theorem briGe (a : Reg) (i : BitVec 5) (o : BitVec 13) : Statement (.briGe a i o) := fun _ => scalar_words (fMajor_encB _ _ _ _ _) (by decide)
theorem briLtz (a : Reg) (i : BitVec 5) (o : BitVec 13) : Statement (.briLtz a i o) := fun _ => scalar_words (fMajor_encB _ _ _ _ _) (by decide)
theorem briGez (a : Reg) (i : BitVec 5) (o : BitVec 13) : Statement (.briGez a i o) := fun _ => scalar_words (fMajor_encB _ _ _ _ _) (by decide)
theorem j (o : BitVec 26) : Statement (.j o) := fun _ => scalar_words (fMajor_append _ _) (by decide)
theorem jl (o : BitVec 26) : Statement (.jl o) := fun _ => scalar_words (fMajor_append _ _) (by decide)
theorem jr (a : Reg) : Statement (.jr a) := fun _ => scalar_words (fMajor_encR _ _ _ _ _ _) (by decide)
theorem jlr (d : Reg) (a : Reg) : Statement (.jlr d a) := fun _ => scalar_words (fMajor_encR _ _ _ _ _ _) (by decide)
theorem loop (c : Reg) (l : BitVec 16) : Statement (.loop c l) := fun _ => scalar_words (fMajor_encI _ _ _ _) (by decide)
theorem loopi (n : BitVec 10) (l : BitVec 16) : Statement (.loopi n l) := fun _ => scalar_words (fMajor_pair _ _ _) (by decide)
theorem fadd (d : Reg) (a : Reg) (b : Reg) : Statement (.fadd d a b) := fun _ => scalar_words (fMajor_encR _ _ _ _ _ _) (by decide)
theorem fsub (d : Reg) (a : Reg) (b : Reg) : Statement (.fsub d a b) := fun _ => scalar_words (fMajor_encR _ _ _ _ _ _) (by decide)
theorem fmul (d : Reg) (a : Reg) (b : Reg) : Statement (.fmul d a b) := fun _ => scalar_words (fMajor_encR _ _ _ _ _ _) (by decide)
theorem fdiv (d : Reg) (a : Reg) (b : Reg) (k : BitVec 4) : Statement (.fdiv d a b k) := fun _ => scalar_words (fMajor_encR _ _ _ _ _ _) (by decide)
theorem fmin (d : Reg) (a : Reg) (b : Reg) : Statement (.fmin d a b) := fun _ => scalar_words (fMajor_encR _ _ _ _ _ _) (by decide)
theorem fmax (d : Reg) (a : Reg) (b : Reg) : Statement (.fmax d a b) := fun _ => scalar_words (fMajor_encR _ _ _ _ _ _) (by decide)
theorem fsqrt (d : Reg) (a : Reg) (k : BitVec 4) : Statement (.fsqrt d a k) := fun _ => scalar_words (fMajor_encR _ _ _ _ _ _) (by decide)
theorem feq (d : Reg) (a : Reg) (b : Reg) : Statement (.feq d a b) := fun _ => scalar_words (fMajor_encR _ _ _ _ _ _) (by decide)
theorem flt (d : Reg) (a : Reg) (b : Reg) : Statement (.flt d a b) := fun _ => scalar_words (fMajor_encR _ _ _ _ _ _) (by decide)
theorem fle (d : Reg) (a : Reg) (b : Reg) : Statement (.fle d a b) := fun _ => scalar_words (fMajor_encR _ _ _ _ _ _) (by decide)
theorem fcvtIf (d : Reg) (a : Reg) : Statement (.fcvtIf d a) := fun _ => scalar_words (fMajor_encR _ _ _ _ _ _) (by decide)
theorem fcvtFi (d : Reg) (a : Reg) : Statement (.fcvtFi d a) := fun _ => scalar_words (fMajor_encR _ _ _ _ _ _) (by decide)
theorem fneg (d : Reg) (a : Reg) : Statement (.fneg d a) := fun _ => scalar_words (fMajor_encR _ _ _ _ _ _) (by decide)
theorem fabs (d : Reg) (a : Reg) : Statement (.fabs d a) := fun _ => scalar_words (fMajor_encR _ _ _ _ _ _) (by decide)
theorem ldB (v : Reg) (a : Reg) (s : Seg) (o : BitVec 9) (k : BitVec 4) : Statement (.ldB v a s o k) := fun _ => scalar_words (fMajor_encM _ _ _ _ _ _) (by decide)
theorem ldH (v : Reg) (a : Reg) (s : Seg) (o : BitVec 9) (k : BitVec 4) : Statement (.ldH v a s o k) := fun _ => scalar_words (fMajor_encM _ _ _ _ _ _) (by decide)
theorem ldW (v : Reg) (a : Reg) (s : Seg) (o : BitVec 9) (k : BitVec 4) : Statement (.ldW v a s o k) := fun _ => scalar_words (fMajor_encM _ _ _ _ _ _) (by decide)
theorem ldD (v : Reg) (a : Reg) (s : Seg) (o : BitVec 9) (k : BitVec 4) : Statement (.ldD v a s o k) := fun _ => scalar_words (fMajor_encM _ _ _ _ _ _) (by decide)
theorem ldzB (v : Reg) (a : Reg) (s : Seg) (o : BitVec 9) (k : BitVec 4) : Statement (.ldzB v a s o k) := fun _ => scalar_words (fMajor_encM _ _ _ _ _ _) (by decide)
theorem ldzH (v : Reg) (a : Reg) (s : Seg) (o : BitVec 9) (k : BitVec 4) : Statement (.ldzH v a s o k) := fun _ => scalar_words (fMajor_encM _ _ _ _ _ _) (by decide)
theorem ldzW (v : Reg) (a : Reg) (s : Seg) (o : BitVec 9) (k : BitVec 4) : Statement (.ldzW v a s o k) := fun _ => scalar_words (fMajor_encM _ _ _ _ _ _) (by decide)
theorem stB (v : Reg) (a : Reg) (s : Seg) (o : BitVec 9) : Statement (.stB v a s o) := fun _ => scalar_words (fMajor_encM _ _ _ _ _ _) (by decide)
theorem stH (v : Reg) (a : Reg) (s : Seg) (o : BitVec 9) : Statement (.stH v a s o) := fun _ => scalar_words (fMajor_encM _ _ _ _ _ _) (by decide)
theorem stW (v : Reg) (a : Reg) (s : Seg) (o : BitVec 9) : Statement (.stW v a s o) := fun _ => scalar_words (fMajor_encM _ _ _ _ _ _) (by decide)
theorem stD (v : Reg) (a : Reg) (s : Seg) (o : BitVec 9) : Statement (.stD v a s o) := fun _ => scalar_words (fMajor_encM _ _ _ _ _ _) (by decide)
theorem ldxB (v : Reg) (a : Reg) (b : Reg) (s : Seg) (k : BitVec 4) : Statement (.ldxB v a b s k) := fun _ => scalar_words (fMajor_encSplit _ _ _ _ _ _ _) (by decide)
theorem ldxH (v : Reg) (a : Reg) (b : Reg) (s : Seg) (k : BitVec 4) : Statement (.ldxH v a b s k) := fun _ => scalar_words (fMajor_encSplit _ _ _ _ _ _ _) (by decide)
theorem ldxW (v : Reg) (a : Reg) (b : Reg) (s : Seg) (k : BitVec 4) : Statement (.ldxW v a b s k) := fun _ => scalar_words (fMajor_encSplit _ _ _ _ _ _ _) (by decide)
theorem ldxD (v : Reg) (a : Reg) (b : Reg) (s : Seg) (k : BitVec 4) : Statement (.ldxD v a b s k) := fun _ => scalar_words (fMajor_encSplit _ _ _ _ _ _ _) (by decide)
theorem ldzxB (v : Reg) (a : Reg) (b : Reg) (s : Seg) (k : BitVec 4) : Statement (.ldzxB v a b s k) := fun _ => scalar_words (fMajor_encSplit _ _ _ _ _ _ _) (by decide)
theorem ldzxH (v : Reg) (a : Reg) (b : Reg) (s : Seg) (k : BitVec 4) : Statement (.ldzxH v a b s k) := fun _ => scalar_words (fMajor_encSplit _ _ _ _ _ _ _) (by decide)
theorem ldzxW (v : Reg) (a : Reg) (b : Reg) (s : Seg) (k : BitVec 4) : Statement (.ldzxW v a b s k) := fun _ => scalar_words (fMajor_encSplit _ _ _ _ _ _ _) (by decide)
theorem stxB (v : Reg) (a : Reg) (b : Reg) (s : Seg) : Statement (.stxB v a b s) := fun _ => scalar_words (fMajor_encSplit _ _ _ _ _ _ _) (by decide)
theorem stxH (v : Reg) (a : Reg) (b : Reg) (s : Seg) : Statement (.stxH v a b s) := fun _ => scalar_words (fMajor_encSplit _ _ _ _ _ _ _) (by decide)
theorem stxW (v : Reg) (a : Reg) (b : Reg) (s : Seg) : Statement (.stxW v a b s) := fun _ => scalar_words (fMajor_encSplit _ _ _ _ _ _ _) (by decide)
theorem stxD (v : Reg) (a : Reg) (b : Reg) (s : Seg) : Statement (.stxD v a b s) := fun _ => scalar_words (fMajor_encSplit _ _ _ _ _ _ _) (by decide)
theorem ldf (v : Reg) (a : Reg) (s : Seg) (o : BitVec 6) (c : Scope) (k : BitVec 4) : Statement (.ldf v a s o c k) := fun _ => scalar_words (fMajor_encMS _ _ _ _ _ _ _) (by decide)
theorem ldfe (v : Reg) (a : Reg) (s : Seg) (o : BitVec 6) (c : Scope) (k : BitVec 4) : Statement (.ldfe v a s o c k) := fun _ => scalar_words (fMajor_encMS _ _ _ _ _ _ _) (by decide)
theorem stef (v : Reg) (a : Reg) (s : Seg) (o : BitVec 6) (c : Scope) : Statement (.stef v a s o c) := fun _ => scalar_words (fMajor_encMS _ _ _ _ _ _ _) (by decide)
theorem stf (v : Reg) (a : Reg) (s : Seg) (o : BitVec 6) (c : Scope) : Statement (.stf v a s o c) := fun _ => scalar_words (fMajor_encMS _ _ _ _ _ _ _) (by decide)
theorem feprobe (d : Reg) (a : Reg) (b : Reg) (s : Seg) (k : BitVec 4) : Statement (.feprobe d a b s k) := fun _ => scalar_words (fMajor_encSplit _ _ _ _ _ _ _) (by decide)
theorem feset (a : Reg) (b : Reg) (s : Seg) : Statement (.feset a b s) := fun _ => scalar_words (fMajor_encSplit _ _ _ _ _ _ _) (by decide)
theorem feclr (a : Reg) (b : Reg) (s : Seg) : Statement (.feclr a b s) := fun _ => scalar_words (fMajor_encSplit _ _ _ _ _ _ _) (by decide)
theorem fewait (a : Reg) (b : Reg) (s : Seg) : Statement (.fewait a b s) := fun _ => scalar_words (fMajor_encSplit _ _ _ _ _ _ _) (by decide)
theorem fewaite (a : Reg) (b : Reg) (s : Seg) : Statement (.fewaite a b s) := fun _ => scalar_words (fMajor_encSplit _ _ _ _ _ _ _) (by decide)
theorem rempty (n : Fin 16) : Statement (.rempty n) := fun _ => scalar_words (fMajor_encSplit _ _ _ _ _ _ _) (by decide)
theorem rprobe (d : Reg) (n : Fin 16) : Statement (.rprobe d n) := fun _ => scalar_words (fMajor_encSplit _ _ _ _ _ _ _) (by decide)
theorem amoDSwap (d : Reg) (a : Reg) (b : Reg) (s : Seg) (r : MemOrd) (c : AScope) : Statement (.amoDSwap d a b s r c) := fun _ => scalar_words (fMajor_encA _ _ _ _ _ _ _ _) (by decide)
theorem amoDAdd (d : Reg) (a : Reg) (b : Reg) (s : Seg) (r : MemOrd) (c : AScope) : Statement (.amoDAdd d a b s r c) := fun _ => scalar_words (fMajor_encA _ _ _ _ _ _ _ _) (by decide)
theorem amoDAnd (d : Reg) (a : Reg) (b : Reg) (s : Seg) (r : MemOrd) (c : AScope) : Statement (.amoDAnd d a b s r c) := fun _ => scalar_words (fMajor_encA _ _ _ _ _ _ _ _) (by decide)
theorem amoDOr (d : Reg) (a : Reg) (b : Reg) (s : Seg) (r : MemOrd) (c : AScope) : Statement (.amoDOr d a b s r c) := fun _ => scalar_words (fMajor_encA _ _ _ _ _ _ _ _) (by decide)
theorem amoDXor (d : Reg) (a : Reg) (b : Reg) (s : Seg) (r : MemOrd) (c : AScope) : Statement (.amoDXor d a b s r c) := fun _ => scalar_words (fMajor_encA _ _ _ _ _ _ _ _) (by decide)
theorem amoDMin (d : Reg) (a : Reg) (b : Reg) (s : Seg) (r : MemOrd) (c : AScope) : Statement (.amoDMin d a b s r c) := fun _ => scalar_words (fMajor_encA _ _ _ _ _ _ _ _) (by decide)
theorem amoDMax (d : Reg) (a : Reg) (b : Reg) (s : Seg) (r : MemOrd) (c : AScope) : Statement (.amoDMax d a b s r c) := fun _ => scalar_words (fMajor_encA _ _ _ _ _ _ _ _) (by decide)
theorem amoDMinz (d : Reg) (a : Reg) (b : Reg) (s : Seg) (r : MemOrd) (c : AScope) : Statement (.amoDMinz d a b s r c) := fun _ => scalar_words (fMajor_encA _ _ _ _ _ _ _ _) (by decide)
theorem amoDMaxz (d : Reg) (a : Reg) (b : Reg) (s : Seg) (r : MemOrd) (c : AScope) : Statement (.amoDMaxz d a b s r c) := fun _ => scalar_words (fMajor_encA _ _ _ _ _ _ _ _) (by decide)
theorem amoDCas (d : Reg) (a : Reg) (b : Reg) (s : Seg) (r : MemOrd) (c : AScope) : Statement (.amoDCas d a b s r c) := fun _ => scalar_words (fMajor_encA _ _ _ _ _ _ _ _) (by decide)
theorem amoDInc (d : Reg) (a : Reg) (b : Reg) (s : Seg) (r : MemOrd) (c : AScope) : Statement (.amoDInc d a b s r c) := fun _ => scalar_words (fMajor_encA _ _ _ _ _ _ _ _) (by decide)
theorem amoWSwap (d : Reg) (a : Reg) (b : Reg) (s : Seg) (r : MemOrd) (c : AScope) : Statement (.amoWSwap d a b s r c) := fun _ => scalar_words (fMajor_encA _ _ _ _ _ _ _ _) (by decide)
theorem amoWAdd (d : Reg) (a : Reg) (b : Reg) (s : Seg) (r : MemOrd) (c : AScope) : Statement (.amoWAdd d a b s r c) := fun _ => scalar_words (fMajor_encA _ _ _ _ _ _ _ _) (by decide)
theorem amoWAnd (d : Reg) (a : Reg) (b : Reg) (s : Seg) (r : MemOrd) (c : AScope) : Statement (.amoWAnd d a b s r c) := fun _ => scalar_words (fMajor_encA _ _ _ _ _ _ _ _) (by decide)
theorem amoWOr (d : Reg) (a : Reg) (b : Reg) (s : Seg) (r : MemOrd) (c : AScope) : Statement (.amoWOr d a b s r c) := fun _ => scalar_words (fMajor_encA _ _ _ _ _ _ _ _) (by decide)
theorem amoWXor (d : Reg) (a : Reg) (b : Reg) (s : Seg) (r : MemOrd) (c : AScope) : Statement (.amoWXor d a b s r c) := fun _ => scalar_words (fMajor_encA _ _ _ _ _ _ _ _) (by decide)
theorem amoWMin (d : Reg) (a : Reg) (b : Reg) (s : Seg) (r : MemOrd) (c : AScope) : Statement (.amoWMin d a b s r c) := fun _ => scalar_words (fMajor_encA _ _ _ _ _ _ _ _) (by decide)
theorem amoWMax (d : Reg) (a : Reg) (b : Reg) (s : Seg) (r : MemOrd) (c : AScope) : Statement (.amoWMax d a b s r c) := fun _ => scalar_words (fMajor_encA _ _ _ _ _ _ _ _) (by decide)
theorem amoWMinz (d : Reg) (a : Reg) (b : Reg) (s : Seg) (r : MemOrd) (c : AScope) : Statement (.amoWMinz d a b s r c) := fun _ => scalar_words (fMajor_encA _ _ _ _ _ _ _ _) (by decide)
theorem amoWMaxz (d : Reg) (a : Reg) (b : Reg) (s : Seg) (r : MemOrd) (c : AScope) : Statement (.amoWMaxz d a b s r c) := fun _ => scalar_words (fMajor_encA _ _ _ _ _ _ _ _) (by decide)
theorem amoWCas (d : Reg) (a : Reg) (b : Reg) (s : Seg) (r : MemOrd) (c : AScope) : Statement (.amoWCas d a b s r c) := fun _ => scalar_words (fMajor_encA _ _ _ _ _ _ _ _) (by decide)
theorem amoWFadd (d : Reg) (a : Reg) (b : Reg) (s : Seg) (r : MemOrd) (c : AScope) : Statement (.amoWFadd d a b s r c) := fun _ => scalar_words (fMajor_encA _ _ _ _ _ _ _ _) (by decide)
theorem amoWInc (d : Reg) (a : Reg) (b : Reg) (s : Seg) (r : MemOrd) (c : AScope) : Statement (.amoWInc d a b s r c) := fun _ => scalar_words (fMajor_encA _ _ _ _ _ _ _ _) (by decide)
theorem fenceAcq (c : Scope) : Statement (.fenceAcq c) := fun _ => scalar_words (fMajor_encFence _ _) (by decide)
theorem fenceRel (c : Scope) : Statement (.fenceRel c) := fun _ => scalar_words (fMajor_encFence _ _) (by decide)
theorem fence (c : Scope) : Statement (.fence c) := fun _ => scalar_words (fMajor_encFence _ _) (by decide)
theorem fenceEngAcq (c : Scope) : Statement (.fenceEngAcq c) := fun _ => scalar_words (fMajor_encFence _ _) (by decide)
theorem fenceEngRel (c : Scope) : Statement (.fenceEngRel c) := fun _ => scalar_words (fMajor_encFence _ _) (by decide)
theorem fenceEng (c : Scope) : Statement (.fenceEng c) := fun _ => scalar_words (fMajor_encFence _ _) (by decide)
theorem segld (d : Seg) (a : Reg) : Statement (.segld d a) := fun _ => scalar_words (fMajor_encR _ _ _ _ _ _) (by decide)
theorem segst (d : Seg) (a : Reg) : Statement (.segst d a) := fun _ => scalar_words (fMajor_encR _ _ _ _ _ _) (by decide)
theorem segnar (d : Seg) (a : Reg) (b : Reg) : Statement (.segnar d a b) := fun _ => scalar_words (fMajor_encR _ _ _ _ _ _) (by decide)
theorem segrgt (d : Seg) (a : Reg) : Statement (.segrgt d a) := fun _ => scalar_words (fMajor_encR _ _ _ _ _ _) (by decide)
theorem segbase (d : Reg) (a : Seg) : Statement (.segbase d a) := fun _ => scalar_words (fMajor_encR _ _ _ _ _ _) (by decide)
theorem seglim (d : Reg) (a : Seg) : Statement (.seglim d a) := fun _ => scalar_words (fMajor_encR _ _ _ _ _ _) (by decide)
theorem segrd (d : Reg) (a : Seg) : Statement (.segrd d a) := fun _ => scalar_words (fMajor_encR _ _ _ _ _ _) (by decide)
theorem smap (d : Reg) (a : Reg) (b : Reg) (s : Seg) : Statement (.smap d a b s) := fun _ => scalar_words (fMajor_encSplit _ _ _ _ _ _ _) (by decide)
theorem sunmap (d : Reg) (b : Reg) : Statement (.sunmap d b) := fun _ => scalar_words (fMajor_encSplit _ _ _ _ _ _ _) (by decide)
theorem sflush (d : Reg) (b : Reg) : Statement (.sflush d b) := fun _ => scalar_words (fMajor_encSplit _ _ _ _ _ _ _) (by decide)
theorem sinv (d : Reg) (b : Reg) : Statement (.sinv d b) := fun _ => scalar_words (fMajor_encSplit _ _ _ _ _ _ _) (by decide)
theorem sprobe (d : Reg) (a : Reg) : Statement (.sprobe d a) := fun _ => scalar_words (fMajor_encSplit _ _ _ _ _ _ _) (by decide)
theorem msgt (a : Reg) (b : Reg) : Statement (.msgt a b) := fun _ => scalar_words (fMajor_encR _ _ _ _ _ _) (by decide)
theorem poll (d : Reg) : Statement (.poll d) := fun _ => scalar_words (fMajor_encR _ _ _ _ _ _) (by decide)
theorem qbind (a : Reg) (b : Reg) : Statement (.qbind a b) := fun _ => scalar_words (fMajor_encR _ _ _ _ _ _) (by decide)
theorem migrate (a : Reg) : Statement (.migrate a) := fun _ => scalar_words (fMajor_encR _ _ _ _ _ _) (by decide)
theorem rfork (d : Reg) (a : Reg) (b : Reg) : Statement (.rfork d a b) := fun _ => scalar_words (fMajor_encR _ _ _ _ _ _) (by decide)
theorem join (a : Reg) : Statement (.join a) := fun _ => scalar_words (fMajor_encR _ _ _ _ _ _) (by decide)
theorem spawn (d : Reg) (a : Reg) (b : Reg) : Statement (.spawn d a b) := fun _ => scalar_words (fMajor_encR _ _ _ _ _ _) (by decide)
theorem tail (a : Reg) : Statement (.tail a) := fun _ => scalar_words (fMajor_encR _ _ _ _ _ _) (by decide)
theorem yield : Statement .yield := fun _ => scalar_words (fMajor_encR _ _ _ _ _ _) (by decide)
theorem park : Statement .park := fun _ => scalar_words (fMajor_encR _ _ _ _ _ _) (by decide)
theorem wake (a : Reg) : Statement (.wake a) := fun _ => scalar_words (fMajor_encR _ _ _ _ _ _) (by decide)
theorem endStrand : Statement .endStrand := fun _ => scalar_words (fMajor_encR _ _ _ _ _ _) (by decide)
theorem cancel : Statement .cancel := fun _ => scalar_words (fMajor_encR _ _ _ _ _ _) (by decide)
theorem gdec (a : Reg) : Statement (.gdec a) := fun _ => scalar_words (fMajor_encR _ _ _ _ _ _) (by decide)
theorem qput (a : Reg) (b : Reg) : Statement (.qput a b) := fun _ => scalar_words (fMajor_encR _ _ _ _ _ _) (by decide)
theorem qtake (d : Reg) (a : Reg) : Statement (.qtake d a) := fun _ => scalar_words (fMajor_encR _ _ _ _ _ _) (by decide)
theorem lfork (d : Reg) (a : Reg) (k : BitVec 4) : Statement (.lfork d a k) := fun _ => scalar_words (fMajor_encR _ _ _ _ _ _) (by decide)
theorem lforkf (d : Reg) (a : Reg) (k : BitVec 4) : Statement (.lforkf d a k) := fun _ => scalar_words (fMajor_encR _ _ _ _ _ _) (by decide)
theorem lflat (d : Reg) (a : Reg) (k : BitVec 4) : Statement (.lflat d a k) := fun _ => scalar_words (fMajor_encR _ _ _ _ _ _) (by decide)
theorem lrebk (d : Reg) (a : Reg) (b : Reg) (k : BitVec 4) : Statement (.lrebk d a b k) := fun _ => scalar_words (fMajor_encR _ _ _ _ _ _) (by decide)
theorem lrebd (d : Reg) (a : Reg) (b : Reg) (k : BitVec 4) : Statement (.lrebd d a b k) := fun _ => scalar_words (fMajor_encR _ _ _ _ _ _) (by decide)
theorem ldel (d : Reg) (a : Reg) (k : BitVec 4) : Statement (.ldel d a k) := fun _ => scalar_words (fMajor_encR _ _ _ _ _ _) (by decide)
theorem lcmt (d : Reg) (a : Reg) (k : BitVec 4) : Statement (.lcmt d a k) := fun _ => scalar_words (fMajor_encR _ _ _ _ _ _) (by decide)
theorem linfo (d : Reg) (a : Reg) (b : Reg) (k : BitVec 4) : Statement (.linfo d a b k) := fun _ => scalar_words (fMajor_encR _ _ _ _ _ _) (by decide)
theorem trap (i : BitVec 8) : Statement (.trap i) := fun _ => scalar_words (fMajor_encSys _ _ _ _) (by decide)
theorem eret : Statement .eret := fun _ => scalar_words (fMajor_encSys _ _ _ _) (by decide)
theorem brk (i : BitVec 8) : Statement (.brk i) := fun _ => scalar_words (fMajor_encSys _ _ _ _) (by decide)
theorem cyc (d : Reg) : Statement (.cyc d) := fun _ => scalar_words (fMajor_encSys _ _ _ _) (by decide)
theorem rsr (d : Reg) (i : BitVec 8) : Statement (.rsr d i) := fun _ => scalar_words (fMajor_encSys _ _ _ _) (by decide)
theorem wsr (a : Reg) (i : BitVec 8) : Statement (.wsr a i) := fun _ => scalar_words (fMajor_encSys _ _ _ _) (by decide)
theorem rcx (d : Reg) (a : Reg) (i : BitVec 8) : Statement (.rcx d a i) := fun _ => scalar_words (fMajor_encSys _ _ _ _) (by decide)
theorem wcx (v : Reg) (a : Reg) (i : BitVec 8) : Statement (.wcx v a i) := fun _ => scalar_words (fMajor_encSys _ _ _ _) (by decide)
theorem halt : Statement .halt := fun _ => scalar_words (fMajor_encSys _ _ _ _) (by decide)
theorem tlbinv (a : Reg) : Statement (.tlbinv a) := fun _ => scalar_words (fMajor_encSys _ _ _ _) (by decide)
theorem ctxflush (a : Reg) : Statement (.ctxflush a) := fun _ => scalar_words (fMajor_encSys _ _ _ _) (by decide)
theorem cpCopy : Statement .cpCopy := fun t => tcw_words _ _ t
theorem cpFill : Statement .cpFill := fun t => tcw_words _ _ t
theorem cpBcast : Statement .cpBcast := fun t => tcw_words _ _ t
theorem cpGather : Statement .cpGather := fun t => tcw_words _ _ t
theorem cpScatter : Statement .cpScatter := fun t => tcw_words _ _ t
theorem cpCancel : Statement .cpCancel := fun t => tcw_words _ _ t
theorem cpNode : Statement .cpNode := fun t => tcw_words _ _ t
theorem lnRoot : Statement .lnRoot := fun t => tcw_words _ _ t
theorem lnWr : Statement .lnWr := fun t => tcw_words _ _ t
theorem lnWre : Statement .lnWre := fun t => tcw_words _ _ t
theorem lnLr : Statement .lnLr := fun t => tcw_words _ _ t
theorem lnRes : Statement .lnRes := fun t => tcw_words _ _ t
theorem lnApp : Statement .lnApp := fun t => tcw_words _ _ t
theorem lnTrunc : Statement .lnTrunc := fun t => tcw_words _ _ t
theorem lnRd : Statement .lnRd := fun t => tcw_words _ _ t
theorem mxZero : Statement .mxZero := fun t => tcw_words _ _ t
theorem mxMma : Statement .mxMma := fun t => tcw_words _ _ t
theorem mxLin : Statement .mxLin := fun t => tcw_words _ _ t
theorem mxSt : Statement .mxSt := fun t => tcw_words _ _ t
theorem mxLd : Statement .mxLd := fun t => tcw_words _ _ t
theorem vxFill : Statement .vxFill := fun t => tcw_words _ _ t
theorem vxIota : Statement .vxIota := fun t => tcw_words _ _ t
theorem vxAdd : Statement .vxAdd := fun t => tcw_words _ _ t
theorem vxSub : Statement .vxSub := fun t => tcw_words _ _ t
theorem vxMul : Statement .vxMul := fun t => tcw_words _ _ t
theorem vxFma : Statement .vxFma := fun t => tcw_words _ _ t
theorem vxMin : Statement .vxMin := fun t => tcw_words _ _ t
theorem vxMax : Statement .vxMax := fun t => tcw_words _ _ t
theorem vxAbs : Statement .vxAbs := fun t => tcw_words _ _ t
theorem vxNeg : Statement .vxNeg := fun t => tcw_words _ _ t
theorem vxRcp : Statement .vxRcp := fun t => tcw_words _ _ t
theorem vxRsqrt : Statement .vxRsqrt := fun t => tcw_words _ _ t
theorem vxExp2 : Statement .vxExp2 := fun t => tcw_words _ _ t
theorem vxLog2 : Statement .vxLog2 := fun t => tcw_words _ _ t
theorem vxCvt : Statement .vxCvt := fun t => tcw_words _ _ t
theorem vxCmp : Statement .vxCmp := fun t => tcw_words _ _ t
theorem vxSel : Statement .vxSel := fun t => tcw_words _ _ t
theorem vxRsum : Statement .vxRsum := fun t => tcw_words _ _ t
theorem vxRmax : Statement .vxRmax := fun t => tcw_words _ _ t
theorem vxArgmax : Statement .vxArgmax := fun t => tcw_words _ _ t
theorem vxGather : Statement .vxGather := fun t => tcw_words _ _ t
theorem vxScatter : Statement .vxScatter := fun t => tcw_words _ _ t
theorem vxQuant : Statement .vxQuant := fun t => tcw_words _ _ t
theorem vxSwz : Statement .vxSwz := fun t => tcw_words _ _ t
theorem clAg : Statement .clAg := fun t => tcw_words _ _ t
theorem clRs : Statement .clRs := fun t => tcw_words _ _ t
theorem clAr : Statement .clAr := fun t => tcw_words _ _ t
theorem clBc : Statement .clBc := fun t => tcw_words _ _ t
theorem clGrp : Statement .clGrp := fun t => tcw_words _ _ t
theorem smRun : Statement .smRun := fun t => tcw_words _ _ t
theorem smBatch : Statement .smBatch := fun t => tcw_words _ _ t
theorem rnCfg : Statement .rnCfg := fun t => tcw_words _ _ t
theorem rnDraw : Statement .rnDraw := fun t => tcw_words _ _ t
theorem dxOpen : Statement .dxOpen := fun t => tcw_words _ _ t
theorem dxIn : Statement .dxIn := fun t => tcw_words _ _ t
theorem dxApp : Statement .dxApp := fun t => tcw_words _ _ t
theorem dxAck : Statement .dxAck := fun t => tcw_words _ _ t
theorem dxTrunc : Statement .dxTrunc := fun t => tcw_words _ _ t
theorem dxClose : Statement .dxClose := fun t => tcw_words _ _ t
theorem stashRecall : Statement .stashRecall := fun _ => none_words
theorem inboxPush : Statement .inboxPush := fun _ => none_words
theorem linkWordArrival : Statement .linkWordArrival := fun _ => none_words
theorem pieceSignal : Statement .pieceSignal := fun _ => none_words
theorem collectiveStart : Statement .collectiveStart := fun _ => none_words
theorem lanternPieceSignal : Statement .lanternPieceSignal := fun _ => none_words
theorem tokenWordStore : Statement .tokenWordStore := fun _ => none_words
theorem longLatencyComplete : Statement .longLatencyComplete := fun _ => none_words
theorem engineCompletion : Statement .engineCompletion := fun _ => none_words
theorem trapEntry : Statement .trapEntry := fun _ => none_words
theorem strandWake : Statement .strandWake := fun _ => none_words
theorem activationStart : Statement .activationStart := fun _ => none_words
theorem activationComplete : Statement .activationComplete := fun _ => none_words
theorem contextLineArrival : Statement .contextLineArrival := fun _ => none_words
theorem page : Statement .page := fun _ => none_words
theorem accessReperform : Statement .accessReperform := fun _ => none_words
theorem migrationArrival : Statement .migrationArrival := fun _ => none_words
theorem fabricAccessIn : Statement .fabricAccessIn := fun _ => none_words
theorem deviceLost : Statement .deviceLost := fun _ => none_words
theorem linkFailure : Statement .linkFailure := fun _ => none_words
theorem graphNodeDecrement : Statement .graphNodeDecrement := fun _ => none_words
theorem taskDispatch : Statement .taskDispatch := fun _ => none_words
theorem gangPlacement : Statement .gangPlacement := fun _ => none_words
theorem taskRetirement : Statement .taskRetirement := fun _ => none_words
theorem preemption : Statement .preemption := fun _ => none_words
theorem checkpoint : Statement .checkpoint := fun _ => none_words
theorem launch : Statement .launch := fun _ => none_words
theorem preempt : Statement .preempt := fun _ => none_words
theorem resume : Statement .resume := fun _ => none_words
theorem launchCancel : Statement .launchCancel := fun _ => none_words
theorem doorbell : Statement .doorbell := fun _ => none_words
theorem queueSlotVisit : Statement .queueSlotVisit := fun _ => none_words
theorem supqHeldEvent : Statement .supqHeldEvent := fun _ => none_words
theorem jobCreate : Statement .jobCreate := fun _ => none_words
theorem jobEnd : Statement .jobEnd := fun _ => none_words
theorem l2LineEviction : Statement .l2LineEviction := fun _ => none_words
theorem patrolScrub : Statement .patrolScrub := fun _ => none_words
theorem rollback : Statement .rollback := fun _ => none_words
theorem scrubPeriodEnd : Statement .scrubPeriodEnd := fun _ => none_words
theorem layerHardRemoval : Statement .layerHardRemoval := fun _ => none_words
theorem release : Statement .release := fun _ => none_words
theorem scrubPeriod : Statement .scrubPeriod := fun _ => none_words
theorem throttle : Statement .throttle := fun _ => none_words
theorem thermalThrottle : Statement .thermalThrottle := fun _ => none_words
theorem thermalStop : Statement .thermalStop := fun _ => none_words
theorem deviceReset : Statement .deviceReset := fun _ => none_words
theorem getVersion : Statement .getVersion := fun _ => none_words
theorem getCapabilities : Statement .getCapabilities := fun _ => none_words
theorem negotiateAlgorithms : Statement .negotiateAlgorithms := fun _ => none_words
theorem getDigests : Statement .getDigests := fun _ => none_words
theorem getCertificate : Statement .getCertificate := fun _ => none_words
theorem challenge : Statement .challenge := fun _ => none_words
theorem getMeasurements : Statement .getMeasurements := fun _ => none_words
theorem hostCxlAccess : Statement .hostCxlAccess := fun _ => none_words
theorem storeRefused : Statement .storeRefused := fun _ => none_words
theorem fusedMinimumRaise : Statement .fusedMinimumRaise := fun _ => none_words

end Sys2Proof.Laws.Words
end

