-- ==== Sys2Proof/Laws/State.lean ====
section
/-! SUPPORT. What each update of a record leaves as it is: one lemma a field and an update. -/

namespace Sys2Proof.Machine

open Sys2Proof

/-! ### The package: a change of one strand or one station leaves every other part as it is. -/

section
variable (c : Core) (x : Strand)
@[simp] theorem Core.setStrand_stations : (c.setStrand x).stations = c.stations := rfl
@[simp] theorem Core.setStrand_mem : (c.setStrand x).mem = c.mem := rfl
@[simp] theorem Core.setStrand_l2 : (c.setStrand x).l2 = c.l2 := rfl
@[simp] theorem Core.setStrand_uses : (c.setStrand x).uses = c.uses := rfl
@[simp] theorem Core.setStrand_tlb : (c.setStrand x).tlb = c.tlb := rfl
@[simp] theorem Core.setStrand_scopes : (c.setStrand x).scopes = c.scopes := rfl
@[simp] theorem Core.setStrand_pins : (c.setStrand x).pins = c.pins := rfl
@[simp] theorem Core.setStrand_fetched : (c.setStrand x).fetched = c.fetched := rfl
@[simp] theorem Core.setStrand_joinCells : (c.setStrand x).joinCells = c.joinCells := rfl
@[simp] theorem Core.setStrand_groups : (c.setStrand x).groups = c.groups := rfl
@[simp] theorem Core.setStrand_jobs : (c.setStrand x).jobs = c.jobs := rfl
@[simp] theorem Core.setStrand_cancelled : (c.setStrand x).cancelled = c.cancelled := rfl
@[simp] theorem Core.setStrand_bindings : (c.setStrand x).bindings = c.bindings := rfl
@[simp] theorem Core.setStrand_ready : (c.setStrand x).ready = c.ready := rfl
@[simp] theorem Core.setStrand_placing : (c.setStrand x).placing = c.placing := rfl
@[simp] theorem Core.setStrand_tasks : (c.setStrand x).tasks = c.tasks := rfl
@[simp] theorem Core.setStrand_cursors : (c.setStrand x).cursors = c.cursors := rfl
@[simp] theorem Core.setStrand_tickets : (c.setStrand x).tickets = c.tickets := rfl
@[simp] theorem Core.setStrand_gangTicket : (c.setStrand x).gangTicket = c.gangTicket := rfl
@[simp] theorem Core.setStrand_queueSlots : (c.setStrand x).queueSlots = c.queueSlots := rfl
@[simp] theorem Core.setStrand_turns : (c.setStrand x).turns = c.turns := rfl
@[simp] theorem Core.setStrand_wakes : (c.setStrand x).wakes = c.wakes := rfl
@[simp] theorem Core.setStrand_messages : (c.setStrand x).messages = c.messages := rfl
@[simp] theorem Core.setStrand_linkMsgs : (c.setStrand x).linkMsgs = c.linkMsgs := rfl
@[simp] theorem Core.setStrand_decrements : (c.setStrand x).decrements = c.decrements := rfl
@[simp] theorem Core.setStrand_multicasts : (c.setStrand x).multicasts = c.multicasts := rfl
@[simp] theorem Core.setStrand_completions : (c.setStrand x).completions = c.completions := rfl
@[simp] theorem Core.setStrand_signals : (c.setStrand x).signals = c.signals := rfl
@[simp] theorem Core.setStrand_sampling : (c.setStrand x).sampling = c.sampling := rfl
@[simp] theorem Core.setStrand_rollbacks : (c.setStrand x).rollbacks = c.rollbacks := rfl
@[simp] theorem Core.setStrand_collectives : (c.setStrand x).collectives = c.collectives := rfl
@[simp] theorem Core.setStrand_members : (c.setStrand x).members = c.members := rfl
@[simp] theorem Core.setStrand_held : (c.setStrand x).held = c.held := rfl
@[simp] theorem Core.setStrand_mgmtWrites : (c.setStrand x).mgmtWrites = c.mgmtWrites := rfl
@[simp] theorem Core.setStrand_seals : (c.setStrand x).seals = c.seals := rfl
@[simp] theorem Core.setStrand_doorbells : (c.setStrand x).doorbells = c.doorbells := rfl
@[simp] theorem Core.setStrand_rejected : (c.setStrand x).rejected = c.rejected := rfl
@[simp] theorem Core.setStrand_rewritten : (c.setStrand x).rewritten = c.rewritten := rfl
@[simp] theorem Core.setStrand_freeNo : (c.setStrand x).freeNo = c.freeNo := rfl
@[simp] theorem Core.setStrand_seq : (c.setStrand x).seq = c.seq := rfl
@[simp] theorem Core.setStrand_work : (c.setStrand x).work = c.work := rfl
end

section
variable (c : Core) (k : Key) (f : Strand → Strand)
@[simp] theorem Core.updStrand_stations : (c.updStrand k f).stations = c.stations := rfl
@[simp] theorem Core.updStrand_mem : (c.updStrand k f).mem = c.mem := rfl
@[simp] theorem Core.updStrand_l2 : (c.updStrand k f).l2 = c.l2 := rfl
@[simp] theorem Core.updStrand_uses : (c.updStrand k f).uses = c.uses := rfl
@[simp] theorem Core.updStrand_tlb : (c.updStrand k f).tlb = c.tlb := rfl
@[simp] theorem Core.updStrand_scopes : (c.updStrand k f).scopes = c.scopes := rfl
@[simp] theorem Core.updStrand_pins : (c.updStrand k f).pins = c.pins := rfl
@[simp] theorem Core.updStrand_fetched : (c.updStrand k f).fetched = c.fetched := rfl
@[simp] theorem Core.updStrand_joinCells : (c.updStrand k f).joinCells = c.joinCells := rfl
@[simp] theorem Core.updStrand_groups : (c.updStrand k f).groups = c.groups := rfl
@[simp] theorem Core.updStrand_jobs : (c.updStrand k f).jobs = c.jobs := rfl
@[simp] theorem Core.updStrand_cancelled : (c.updStrand k f).cancelled = c.cancelled := rfl
@[simp] theorem Core.updStrand_bindings : (c.updStrand k f).bindings = c.bindings := rfl
@[simp] theorem Core.updStrand_ready : (c.updStrand k f).ready = c.ready := rfl
@[simp] theorem Core.updStrand_placing : (c.updStrand k f).placing = c.placing := rfl
@[simp] theorem Core.updStrand_tasks : (c.updStrand k f).tasks = c.tasks := rfl
@[simp] theorem Core.updStrand_cursors : (c.updStrand k f).cursors = c.cursors := rfl
@[simp] theorem Core.updStrand_tickets : (c.updStrand k f).tickets = c.tickets := rfl
@[simp] theorem Core.updStrand_gangTicket : (c.updStrand k f).gangTicket = c.gangTicket := rfl
@[simp] theorem Core.updStrand_queueSlots : (c.updStrand k f).queueSlots = c.queueSlots := rfl
@[simp] theorem Core.updStrand_turns : (c.updStrand k f).turns = c.turns := rfl
@[simp] theorem Core.updStrand_wakes : (c.updStrand k f).wakes = c.wakes := rfl
@[simp] theorem Core.updStrand_messages : (c.updStrand k f).messages = c.messages := rfl
@[simp] theorem Core.updStrand_linkMsgs : (c.updStrand k f).linkMsgs = c.linkMsgs := rfl
@[simp] theorem Core.updStrand_decrements : (c.updStrand k f).decrements = c.decrements := rfl
@[simp] theorem Core.updStrand_multicasts : (c.updStrand k f).multicasts = c.multicasts := rfl
@[simp] theorem Core.updStrand_completions : (c.updStrand k f).completions = c.completions := rfl
@[simp] theorem Core.updStrand_signals : (c.updStrand k f).signals = c.signals := rfl
@[simp] theorem Core.updStrand_sampling : (c.updStrand k f).sampling = c.sampling := rfl
@[simp] theorem Core.updStrand_rollbacks : (c.updStrand k f).rollbacks = c.rollbacks := rfl
@[simp] theorem Core.updStrand_collectives : (c.updStrand k f).collectives = c.collectives := rfl
@[simp] theorem Core.updStrand_members : (c.updStrand k f).members = c.members := rfl
@[simp] theorem Core.updStrand_held : (c.updStrand k f).held = c.held := rfl
@[simp] theorem Core.updStrand_mgmtWrites : (c.updStrand k f).mgmtWrites = c.mgmtWrites := rfl
@[simp] theorem Core.updStrand_seals : (c.updStrand k f).seals = c.seals := rfl
@[simp] theorem Core.updStrand_doorbells : (c.updStrand k f).doorbells = c.doorbells := rfl
@[simp] theorem Core.updStrand_rejected : (c.updStrand k f).rejected = c.rejected := rfl
@[simp] theorem Core.updStrand_rewritten : (c.updStrand k f).rewritten = c.rewritten := rfl
@[simp] theorem Core.updStrand_freeNo : (c.updStrand k f).freeNo = c.freeNo := rfl
@[simp] theorem Core.updStrand_seq : (c.updStrand k f).seq = c.seq := rfl
@[simp] theorem Core.updStrand_work : (c.updStrand k f).work = c.work := rfl
end

section
variable (c : Core) (x : Strand)
@[simp] theorem Core.addStrand_stations : (c.addStrand x).stations = c.stations := rfl
@[simp] theorem Core.addStrand_mem : (c.addStrand x).mem = c.mem := rfl
@[simp] theorem Core.addStrand_l2 : (c.addStrand x).l2 = c.l2 := rfl
@[simp] theorem Core.addStrand_uses : (c.addStrand x).uses = c.uses := rfl
@[simp] theorem Core.addStrand_tlb : (c.addStrand x).tlb = c.tlb := rfl
@[simp] theorem Core.addStrand_scopes : (c.addStrand x).scopes = c.scopes := rfl
@[simp] theorem Core.addStrand_pins : (c.addStrand x).pins = c.pins := rfl
@[simp] theorem Core.addStrand_fetched : (c.addStrand x).fetched = c.fetched := rfl
@[simp] theorem Core.addStrand_joinCells : (c.addStrand x).joinCells = c.joinCells := rfl
@[simp] theorem Core.addStrand_groups : (c.addStrand x).groups = c.groups := rfl
@[simp] theorem Core.addStrand_jobs : (c.addStrand x).jobs = c.jobs := rfl
@[simp] theorem Core.addStrand_cancelled : (c.addStrand x).cancelled = c.cancelled := rfl
@[simp] theorem Core.addStrand_bindings : (c.addStrand x).bindings = c.bindings := rfl
@[simp] theorem Core.addStrand_ready : (c.addStrand x).ready = c.ready := rfl
@[simp] theorem Core.addStrand_placing : (c.addStrand x).placing = c.placing := rfl
@[simp] theorem Core.addStrand_tasks : (c.addStrand x).tasks = c.tasks := rfl
@[simp] theorem Core.addStrand_cursors : (c.addStrand x).cursors = c.cursors := rfl
@[simp] theorem Core.addStrand_tickets : (c.addStrand x).tickets = c.tickets := rfl
@[simp] theorem Core.addStrand_gangTicket : (c.addStrand x).gangTicket = c.gangTicket := rfl
@[simp] theorem Core.addStrand_queueSlots : (c.addStrand x).queueSlots = c.queueSlots := rfl
@[simp] theorem Core.addStrand_turns : (c.addStrand x).turns = c.turns := rfl
@[simp] theorem Core.addStrand_wakes : (c.addStrand x).wakes = c.wakes := rfl
@[simp] theorem Core.addStrand_messages : (c.addStrand x).messages = c.messages := rfl
@[simp] theorem Core.addStrand_linkMsgs : (c.addStrand x).linkMsgs = c.linkMsgs := rfl
@[simp] theorem Core.addStrand_decrements : (c.addStrand x).decrements = c.decrements := rfl
@[simp] theorem Core.addStrand_multicasts : (c.addStrand x).multicasts = c.multicasts := rfl
@[simp] theorem Core.addStrand_completions : (c.addStrand x).completions = c.completions := rfl
@[simp] theorem Core.addStrand_signals : (c.addStrand x).signals = c.signals := rfl
@[simp] theorem Core.addStrand_sampling : (c.addStrand x).sampling = c.sampling := rfl
@[simp] theorem Core.addStrand_rollbacks : (c.addStrand x).rollbacks = c.rollbacks := rfl
@[simp] theorem Core.addStrand_collectives : (c.addStrand x).collectives = c.collectives := rfl
@[simp] theorem Core.addStrand_members : (c.addStrand x).members = c.members := rfl
@[simp] theorem Core.addStrand_held : (c.addStrand x).held = c.held := rfl
@[simp] theorem Core.addStrand_mgmtWrites : (c.addStrand x).mgmtWrites = c.mgmtWrites := rfl
@[simp] theorem Core.addStrand_seals : (c.addStrand x).seals = c.seals := rfl
@[simp] theorem Core.addStrand_doorbells : (c.addStrand x).doorbells = c.doorbells := rfl
@[simp] theorem Core.addStrand_rejected : (c.addStrand x).rejected = c.rejected := rfl
@[simp] theorem Core.addStrand_rewritten : (c.addStrand x).rewritten = c.rewritten := rfl
@[simp] theorem Core.addStrand_freeNo : (c.addStrand x).freeNo = c.freeNo := rfl
@[simp] theorem Core.addStrand_seq : (c.addStrand x).seq = c.seq := rfl
@[simp] theorem Core.addStrand_work : (c.addStrand x).work = c.work := rfl
end

section
variable (c : Core) (pid : Nat) (s : Station)
@[simp] theorem Core.setStation_strands : (c.setStation pid s).strands = c.strands := rfl
@[simp] theorem Core.setStation_mem : (c.setStation pid s).mem = c.mem := rfl
@[simp] theorem Core.setStation_l2 : (c.setStation pid s).l2 = c.l2 := rfl
@[simp] theorem Core.setStation_uses : (c.setStation pid s).uses = c.uses := rfl
@[simp] theorem Core.setStation_tlb : (c.setStation pid s).tlb = c.tlb := rfl
@[simp] theorem Core.setStation_scopes : (c.setStation pid s).scopes = c.scopes := rfl
@[simp] theorem Core.setStation_pins : (c.setStation pid s).pins = c.pins := rfl
@[simp] theorem Core.setStation_fetched : (c.setStation pid s).fetched = c.fetched := rfl
@[simp] theorem Core.setStation_joinCells : (c.setStation pid s).joinCells = c.joinCells := rfl
@[simp] theorem Core.setStation_groups : (c.setStation pid s).groups = c.groups := rfl
@[simp] theorem Core.setStation_jobs : (c.setStation pid s).jobs = c.jobs := rfl
@[simp] theorem Core.setStation_cancelled : (c.setStation pid s).cancelled = c.cancelled := rfl
@[simp] theorem Core.setStation_bindings : (c.setStation pid s).bindings = c.bindings := rfl
@[simp] theorem Core.setStation_ready : (c.setStation pid s).ready = c.ready := rfl
@[simp] theorem Core.setStation_placing : (c.setStation pid s).placing = c.placing := rfl
@[simp] theorem Core.setStation_tasks : (c.setStation pid s).tasks = c.tasks := rfl
@[simp] theorem Core.setStation_cursors : (c.setStation pid s).cursors = c.cursors := rfl
@[simp] theorem Core.setStation_tickets : (c.setStation pid s).tickets = c.tickets := rfl
@[simp] theorem Core.setStation_gangTicket : (c.setStation pid s).gangTicket = c.gangTicket := rfl
@[simp] theorem Core.setStation_queueSlots : (c.setStation pid s).queueSlots = c.queueSlots := rfl
@[simp] theorem Core.setStation_turns : (c.setStation pid s).turns = c.turns := rfl
@[simp] theorem Core.setStation_wakes : (c.setStation pid s).wakes = c.wakes := rfl
@[simp] theorem Core.setStation_messages : (c.setStation pid s).messages = c.messages := rfl
@[simp] theorem Core.setStation_linkMsgs : (c.setStation pid s).linkMsgs = c.linkMsgs := rfl
@[simp] theorem Core.setStation_decrements : (c.setStation pid s).decrements = c.decrements := rfl
@[simp] theorem Core.setStation_multicasts : (c.setStation pid s).multicasts = c.multicasts := rfl
@[simp] theorem Core.setStation_completions : (c.setStation pid s).completions = c.completions := rfl
@[simp] theorem Core.setStation_signals : (c.setStation pid s).signals = c.signals := rfl
@[simp] theorem Core.setStation_sampling : (c.setStation pid s).sampling = c.sampling := rfl
@[simp] theorem Core.setStation_rollbacks : (c.setStation pid s).rollbacks = c.rollbacks := rfl
@[simp] theorem Core.setStation_collectives : (c.setStation pid s).collectives = c.collectives := rfl
@[simp] theorem Core.setStation_members : (c.setStation pid s).members = c.members := rfl
@[simp] theorem Core.setStation_held : (c.setStation pid s).held = c.held := rfl
@[simp] theorem Core.setStation_mgmtWrites : (c.setStation pid s).mgmtWrites = c.mgmtWrites := rfl
@[simp] theorem Core.setStation_seals : (c.setStation pid s).seals = c.seals := rfl
@[simp] theorem Core.setStation_doorbells : (c.setStation pid s).doorbells = c.doorbells := rfl
@[simp] theorem Core.setStation_rejected : (c.setStation pid s).rejected = c.rejected := rfl
@[simp] theorem Core.setStation_rewritten : (c.setStation pid s).rewritten = c.rewritten := rfl
@[simp] theorem Core.setStation_freeNo : (c.setStation pid s).freeNo = c.freeNo := rfl
@[simp] theorem Core.setStation_seq : (c.setStation pid s).seq = c.seq := rfl
@[simp] theorem Core.setStation_work : (c.setStation pid s).work = c.work := rfl
end

section
variable (c : Core) (pid : Nat) (f : Station → Station)
@[simp] theorem Core.updStation_strands : (c.updStation pid f).strands = c.strands := rfl
@[simp] theorem Core.updStation_mem : (c.updStation pid f).mem = c.mem := rfl
@[simp] theorem Core.updStation_l2 : (c.updStation pid f).l2 = c.l2 := rfl
@[simp] theorem Core.updStation_uses : (c.updStation pid f).uses = c.uses := rfl
@[simp] theorem Core.updStation_tlb : (c.updStation pid f).tlb = c.tlb := rfl
@[simp] theorem Core.updStation_scopes : (c.updStation pid f).scopes = c.scopes := rfl
@[simp] theorem Core.updStation_pins : (c.updStation pid f).pins = c.pins := rfl
@[simp] theorem Core.updStation_fetched : (c.updStation pid f).fetched = c.fetched := rfl
@[simp] theorem Core.updStation_joinCells : (c.updStation pid f).joinCells = c.joinCells := rfl
@[simp] theorem Core.updStation_groups : (c.updStation pid f).groups = c.groups := rfl
@[simp] theorem Core.updStation_jobs : (c.updStation pid f).jobs = c.jobs := rfl
@[simp] theorem Core.updStation_cancelled : (c.updStation pid f).cancelled = c.cancelled := rfl
@[simp] theorem Core.updStation_bindings : (c.updStation pid f).bindings = c.bindings := rfl
@[simp] theorem Core.updStation_ready : (c.updStation pid f).ready = c.ready := rfl
@[simp] theorem Core.updStation_placing : (c.updStation pid f).placing = c.placing := rfl
@[simp] theorem Core.updStation_tasks : (c.updStation pid f).tasks = c.tasks := rfl
@[simp] theorem Core.updStation_cursors : (c.updStation pid f).cursors = c.cursors := rfl
@[simp] theorem Core.updStation_tickets : (c.updStation pid f).tickets = c.tickets := rfl
@[simp] theorem Core.updStation_gangTicket : (c.updStation pid f).gangTicket = c.gangTicket := rfl
@[simp] theorem Core.updStation_queueSlots : (c.updStation pid f).queueSlots = c.queueSlots := rfl
@[simp] theorem Core.updStation_turns : (c.updStation pid f).turns = c.turns := rfl
@[simp] theorem Core.updStation_wakes : (c.updStation pid f).wakes = c.wakes := rfl
@[simp] theorem Core.updStation_messages : (c.updStation pid f).messages = c.messages := rfl
@[simp] theorem Core.updStation_linkMsgs : (c.updStation pid f).linkMsgs = c.linkMsgs := rfl
@[simp] theorem Core.updStation_decrements : (c.updStation pid f).decrements = c.decrements := rfl
@[simp] theorem Core.updStation_multicasts : (c.updStation pid f).multicasts = c.multicasts := rfl
@[simp] theorem Core.updStation_completions : (c.updStation pid f).completions = c.completions := rfl
@[simp] theorem Core.updStation_signals : (c.updStation pid f).signals = c.signals := rfl
@[simp] theorem Core.updStation_sampling : (c.updStation pid f).sampling = c.sampling := rfl
@[simp] theorem Core.updStation_rollbacks : (c.updStation pid f).rollbacks = c.rollbacks := rfl
@[simp] theorem Core.updStation_collectives : (c.updStation pid f).collectives = c.collectives := rfl
@[simp] theorem Core.updStation_members : (c.updStation pid f).members = c.members := rfl
@[simp] theorem Core.updStation_held : (c.updStation pid f).held = c.held := rfl
@[simp] theorem Core.updStation_mgmtWrites : (c.updStation pid f).mgmtWrites = c.mgmtWrites := rfl
@[simp] theorem Core.updStation_seals : (c.updStation pid f).seals = c.seals := rfl
@[simp] theorem Core.updStation_doorbells : (c.updStation pid f).doorbells = c.doorbells := rfl
@[simp] theorem Core.updStation_rejected : (c.updStation pid f).rejected = c.rejected := rfl
@[simp] theorem Core.updStation_rewritten : (c.updStation pid f).rewritten = c.rewritten := rfl
@[simp] theorem Core.updStation_freeNo : (c.updStation pid f).freeNo = c.freeNo := rfl
@[simp] theorem Core.updStation_seq : (c.updStation pid f).seq = c.seq := rfl
@[simp] theorem Core.updStation_work : (c.updStation pid f).work = c.work := rfl
end

section
variable (c : Core)
@[simp] theorem Core.tick_strands : (c.tick).strands = c.strands := rfl
@[simp] theorem Core.tick_stations : (c.tick).stations = c.stations := rfl
@[simp] theorem Core.tick_mem : (c.tick).mem = c.mem := rfl
@[simp] theorem Core.tick_l2 : (c.tick).l2 = c.l2 := rfl
@[simp] theorem Core.tick_uses : (c.tick).uses = c.uses := rfl
@[simp] theorem Core.tick_tlb : (c.tick).tlb = c.tlb := rfl
@[simp] theorem Core.tick_scopes : (c.tick).scopes = c.scopes := rfl
@[simp] theorem Core.tick_pins : (c.tick).pins = c.pins := rfl
@[simp] theorem Core.tick_fetched : (c.tick).fetched = c.fetched := rfl
@[simp] theorem Core.tick_joinCells : (c.tick).joinCells = c.joinCells := rfl
@[simp] theorem Core.tick_groups : (c.tick).groups = c.groups := rfl
@[simp] theorem Core.tick_jobs : (c.tick).jobs = c.jobs := rfl
@[simp] theorem Core.tick_cancelled : (c.tick).cancelled = c.cancelled := rfl
@[simp] theorem Core.tick_bindings : (c.tick).bindings = c.bindings := rfl
@[simp] theorem Core.tick_ready : (c.tick).ready = c.ready := rfl
@[simp] theorem Core.tick_placing : (c.tick).placing = c.placing := rfl
@[simp] theorem Core.tick_tasks : (c.tick).tasks = c.tasks := rfl
@[simp] theorem Core.tick_cursors : (c.tick).cursors = c.cursors := rfl
@[simp] theorem Core.tick_tickets : (c.tick).tickets = c.tickets := rfl
@[simp] theorem Core.tick_gangTicket : (c.tick).gangTicket = c.gangTicket := rfl
@[simp] theorem Core.tick_queueSlots : (c.tick).queueSlots = c.queueSlots := rfl
@[simp] theorem Core.tick_turns : (c.tick).turns = c.turns := rfl
@[simp] theorem Core.tick_wakes : (c.tick).wakes = c.wakes := rfl
@[simp] theorem Core.tick_messages : (c.tick).messages = c.messages := rfl
@[simp] theorem Core.tick_linkMsgs : (c.tick).linkMsgs = c.linkMsgs := rfl
@[simp] theorem Core.tick_decrements : (c.tick).decrements = c.decrements := rfl
@[simp] theorem Core.tick_multicasts : (c.tick).multicasts = c.multicasts := rfl
@[simp] theorem Core.tick_completions : (c.tick).completions = c.completions := rfl
@[simp] theorem Core.tick_signals : (c.tick).signals = c.signals := rfl
@[simp] theorem Core.tick_sampling : (c.tick).sampling = c.sampling := rfl
@[simp] theorem Core.tick_rollbacks : (c.tick).rollbacks = c.rollbacks := rfl
@[simp] theorem Core.tick_collectives : (c.tick).collectives = c.collectives := rfl
@[simp] theorem Core.tick_members : (c.tick).members = c.members := rfl
@[simp] theorem Core.tick_held : (c.tick).held = c.held := rfl
@[simp] theorem Core.tick_mgmtWrites : (c.tick).mgmtWrites = c.mgmtWrites := rfl
@[simp] theorem Core.tick_seals : (c.tick).seals = c.seals := rfl
@[simp] theorem Core.tick_doorbells : (c.tick).doorbells = c.doorbells := rfl
@[simp] theorem Core.tick_rejected : (c.tick).rejected = c.rejected := rfl
@[simp] theorem Core.tick_rewritten : (c.tick).rewritten = c.rewritten := rfl
@[simp] theorem Core.tick_freeNo : (c.tick).freeNo = c.freeNo := rfl
@[simp] theorem Core.tick_work : (c.tick).work = c.work := rfl
end

/-! ### A strand: what each update of a record leaves as it is. -/

section
variable (x : Strand) (n : Fin 16) (v : Word) (full : Bool) (note : Note)
@[simp] theorem Strand.setReg_key : (x.setReg n v full note).key = x.key := rfl
@[simp] theorem Strand.setReg_mode : (x.setReg n v full note).mode = x.mode := rfl
@[simp] theorem Strand.setReg_pc : (x.setReg n v full note).pc = x.pc := rfl
@[simp] theorem Strand.setReg_loopStart : (x.setReg n v full note).loopStart = x.loopStart := rfl
@[simp] theorem Strand.setReg_loopEnd : (x.setReg n v full note).loopEnd = x.loopEnd := rfl
@[simp] theorem Strand.setReg_loopCount : (x.setReg n v full note).loopCount = x.loopCount := rfl
@[simp] theorem Strand.setReg_ops : (x.setReg n v full note).ops = x.ops := rfl
@[simp] theorem Strand.setReg_window : (x.setReg n v full note).window = x.window := rfl
@[simp] theorem Strand.setReg_engines : (x.setReg n v full note).engines = x.engines := rfl
@[simp] theorem Strand.setReg_fa : (x.setReg n v full note).fa = x.fa := rfl
@[simp] theorem Strand.setReg_fb : (x.setReg n v full note).fb = x.fb := rfl
@[simp] theorem Strand.setReg_fc : (x.setReg n v full note).fc = x.fc := rfl
@[simp] theorem Strand.setReg_fs : (x.setReg n v full note).fs = x.fs := rfl
@[simp] theorem Strand.setReg_task : (x.setReg n v full note).task = x.task := rfl
@[simp] theorem Strand.setReg_joinOrParent : (x.setReg n v full note).joinOrParent = x.joinOrParent := rfl
@[simp] theorem Strand.setReg_roundPos : (x.setReg n v full note).roundPos = x.roundPos := rfl
@[simp] theorem Strand.setReg_fpflags : (x.setReg n v full note).fpflags = x.fpflags := rfl
@[simp] theorem Strand.setReg_rmode : (x.setReg n v full note).rmode = x.rmode := rfl
@[simp] theorem Strand.setReg_outTarget : (x.setReg n v full note).outTarget = x.outTarget := rfl
@[simp] theorem Strand.setReg_qbind : (x.setReg n v full note).qbind = x.qbind := rfl
@[simp] theorem Strand.setReg_inHigh : (x.setReg n v full note).inHigh = x.inHigh := rfl
@[simp] theorem Strand.setReg_inLow : (x.setReg n v full note).inLow = x.inLow := rfl
@[simp] theorem Strand.setReg_segs : (x.setReg n v full note).segs = x.segs := rfl
@[simp] theorem Strand.setReg_epc : (x.setReg n v full note).epc = x.epc := rfl
@[simp] theorem Strand.setReg_cause : (x.setReg n v full note).cause = x.cause := rfl
@[simp] theorem Strand.setReg_tval : (x.setReg n v full note).tval = x.tval := rfl
@[simp] theorem Strand.setReg_savedMode : (x.setReg n v full note).savedMode = x.savedMode := rfl
@[simp] theorem Strand.setReg_opc : (x.setReg n v full note).opc = x.opc := rfl
@[simp] theorem Strand.setReg_lacount : (x.setReg n v full note).lacount = x.lacount := rfl
@[simp] theorem Strand.setReg_engTrap : (x.setReg n v full note).engTrap = x.engTrap := rfl
@[simp] theorem Strand.setReg_engTval : (x.setReg n v full note).engTval = x.engTval := rfl
@[simp] theorem Strand.setReg_place : (x.setReg n v full note).place = x.place := rfl
@[simp] theorem Strand.setReg_parked : (x.setReg n v full note).parked = x.parked := rfl
@[simp] theorem Strand.setReg_since : (x.setReg n v full note).since = x.since := rfl
@[simp] theorem Strand.setReg_station : (x.setReg n v full note).station = x.station := rfl
@[simp] theorem Strand.setReg_hold : (x.setReg n v full note).hold = x.hold := rfl
@[simp] theorem Strand.setReg_lines : (x.setReg n v full note).lines = x.lines := rfl
@[simp] theorem Strand.setReg_badLines : (x.setReg n v full note).badLines = x.badLines := rfl
@[simp] theorem Strand.setReg_issues : (x.setReg n v full note).issues = x.issues := rfl
@[simp] theorem Strand.setReg_dropped : (x.setReg n v full note).dropped = x.dropped := rfl
@[simp] theorem Strand.setReg_trapPend : (x.setReg n v full note).trapPend = x.trapPend := rfl
@[simp] theorem Strand.setReg_poison : (x.setReg n v full note).poison = x.poison := rfl
@[simp] theorem Strand.setReg_refusals : (x.setReg n v full note).refusals = x.refusals := rfl
@[simp] theorem Strand.setReg_stopping : (x.setReg n v full note).stopping = x.stopping := rfl
@[simp] theorem Strand.setReg_blocked : (x.setReg n v full note).blocked = x.blocked := rfl
end

section
variable (x : Strand) (n : Fin 16) (v : Word)
@[simp] theorem Strand.setValue_key : (x.setValue n v).key = x.key := rfl
@[simp] theorem Strand.setValue_mask : (x.setValue n v).mask = x.mask := rfl
@[simp] theorem Strand.setValue_mode : (x.setValue n v).mode = x.mode := rfl
@[simp] theorem Strand.setValue_pc : (x.setValue n v).pc = x.pc := rfl
@[simp] theorem Strand.setValue_loopStart : (x.setValue n v).loopStart = x.loopStart := rfl
@[simp] theorem Strand.setValue_loopEnd : (x.setValue n v).loopEnd = x.loopEnd := rfl
@[simp] theorem Strand.setValue_loopCount : (x.setValue n v).loopCount = x.loopCount := rfl
@[simp] theorem Strand.setValue_ops : (x.setValue n v).ops = x.ops := rfl
@[simp] theorem Strand.setValue_window : (x.setValue n v).window = x.window := rfl
@[simp] theorem Strand.setValue_engines : (x.setValue n v).engines = x.engines := rfl
@[simp] theorem Strand.setValue_fa : (x.setValue n v).fa = x.fa := rfl
@[simp] theorem Strand.setValue_fb : (x.setValue n v).fb = x.fb := rfl
@[simp] theorem Strand.setValue_fc : (x.setValue n v).fc = x.fc := rfl
@[simp] theorem Strand.setValue_fs : (x.setValue n v).fs = x.fs := rfl
@[simp] theorem Strand.setValue_task : (x.setValue n v).task = x.task := rfl
@[simp] theorem Strand.setValue_joinOrParent : (x.setValue n v).joinOrParent = x.joinOrParent := rfl
@[simp] theorem Strand.setValue_roundPos : (x.setValue n v).roundPos = x.roundPos := rfl
@[simp] theorem Strand.setValue_fpflags : (x.setValue n v).fpflags = x.fpflags := rfl
@[simp] theorem Strand.setValue_rmode : (x.setValue n v).rmode = x.rmode := rfl
@[simp] theorem Strand.setValue_outTarget : (x.setValue n v).outTarget = x.outTarget := rfl
@[simp] theorem Strand.setValue_qbind : (x.setValue n v).qbind = x.qbind := rfl
@[simp] theorem Strand.setValue_inHigh : (x.setValue n v).inHigh = x.inHigh := rfl
@[simp] theorem Strand.setValue_inLow : (x.setValue n v).inLow = x.inLow := rfl
@[simp] theorem Strand.setValue_segs : (x.setValue n v).segs = x.segs := rfl
@[simp] theorem Strand.setValue_epc : (x.setValue n v).epc = x.epc := rfl
@[simp] theorem Strand.setValue_cause : (x.setValue n v).cause = x.cause := rfl
@[simp] theorem Strand.setValue_tval : (x.setValue n v).tval = x.tval := rfl
@[simp] theorem Strand.setValue_savedMode : (x.setValue n v).savedMode = x.savedMode := rfl
@[simp] theorem Strand.setValue_opc : (x.setValue n v).opc = x.opc := rfl
@[simp] theorem Strand.setValue_lacount : (x.setValue n v).lacount = x.lacount := rfl
@[simp] theorem Strand.setValue_engTrap : (x.setValue n v).engTrap = x.engTrap := rfl
@[simp] theorem Strand.setValue_engTval : (x.setValue n v).engTval = x.engTval := rfl
@[simp] theorem Strand.setValue_notes : (x.setValue n v).notes = x.notes := rfl
@[simp] theorem Strand.setValue_place : (x.setValue n v).place = x.place := rfl
@[simp] theorem Strand.setValue_parked : (x.setValue n v).parked = x.parked := rfl
@[simp] theorem Strand.setValue_since : (x.setValue n v).since = x.since := rfl
@[simp] theorem Strand.setValue_station : (x.setValue n v).station = x.station := rfl
@[simp] theorem Strand.setValue_hold : (x.setValue n v).hold = x.hold := rfl
@[simp] theorem Strand.setValue_lines : (x.setValue n v).lines = x.lines := rfl
@[simp] theorem Strand.setValue_badLines : (x.setValue n v).badLines = x.badLines := rfl
@[simp] theorem Strand.setValue_issues : (x.setValue n v).issues = x.issues := rfl
@[simp] theorem Strand.setValue_dropped : (x.setValue n v).dropped = x.dropped := rfl
@[simp] theorem Strand.setValue_trapPend : (x.setValue n v).trapPend = x.trapPend := rfl
@[simp] theorem Strand.setValue_poison : (x.setValue n v).poison = x.poison := rfl
@[simp] theorem Strand.setValue_refusals : (x.setValue n v).refusals = x.refusals := rfl
@[simp] theorem Strand.setValue_stopping : (x.setValue n v).stopping = x.stopping := rfl
@[simp] theorem Strand.setValue_blocked : (x.setValue n v).blocked = x.blocked := rfl
end

section
variable (x : Strand) (n : Fin 16) (full : Bool)
@[simp] theorem Strand.setBit_key : (x.setBit n full).key = x.key := rfl
@[simp] theorem Strand.setBit_g : (x.setBit n full).g = x.g := rfl
@[simp] theorem Strand.setBit_mode : (x.setBit n full).mode = x.mode := rfl
@[simp] theorem Strand.setBit_pc : (x.setBit n full).pc = x.pc := rfl
@[simp] theorem Strand.setBit_loopStart : (x.setBit n full).loopStart = x.loopStart := rfl
@[simp] theorem Strand.setBit_loopEnd : (x.setBit n full).loopEnd = x.loopEnd := rfl
@[simp] theorem Strand.setBit_loopCount : (x.setBit n full).loopCount = x.loopCount := rfl
@[simp] theorem Strand.setBit_ops : (x.setBit n full).ops = x.ops := rfl
@[simp] theorem Strand.setBit_window : (x.setBit n full).window = x.window := rfl
@[simp] theorem Strand.setBit_engines : (x.setBit n full).engines = x.engines := rfl
@[simp] theorem Strand.setBit_fa : (x.setBit n full).fa = x.fa := rfl
@[simp] theorem Strand.setBit_fb : (x.setBit n full).fb = x.fb := rfl
@[simp] theorem Strand.setBit_fc : (x.setBit n full).fc = x.fc := rfl
@[simp] theorem Strand.setBit_fs : (x.setBit n full).fs = x.fs := rfl
@[simp] theorem Strand.setBit_task : (x.setBit n full).task = x.task := rfl
@[simp] theorem Strand.setBit_joinOrParent : (x.setBit n full).joinOrParent = x.joinOrParent := rfl
@[simp] theorem Strand.setBit_roundPos : (x.setBit n full).roundPos = x.roundPos := rfl
@[simp] theorem Strand.setBit_fpflags : (x.setBit n full).fpflags = x.fpflags := rfl
@[simp] theorem Strand.setBit_rmode : (x.setBit n full).rmode = x.rmode := rfl
@[simp] theorem Strand.setBit_outTarget : (x.setBit n full).outTarget = x.outTarget := rfl
@[simp] theorem Strand.setBit_qbind : (x.setBit n full).qbind = x.qbind := rfl
@[simp] theorem Strand.setBit_inHigh : (x.setBit n full).inHigh = x.inHigh := rfl
@[simp] theorem Strand.setBit_inLow : (x.setBit n full).inLow = x.inLow := rfl
@[simp] theorem Strand.setBit_segs : (x.setBit n full).segs = x.segs := rfl
@[simp] theorem Strand.setBit_epc : (x.setBit n full).epc = x.epc := rfl
@[simp] theorem Strand.setBit_cause : (x.setBit n full).cause = x.cause := rfl
@[simp] theorem Strand.setBit_tval : (x.setBit n full).tval = x.tval := rfl
@[simp] theorem Strand.setBit_savedMode : (x.setBit n full).savedMode = x.savedMode := rfl
@[simp] theorem Strand.setBit_opc : (x.setBit n full).opc = x.opc := rfl
@[simp] theorem Strand.setBit_lacount : (x.setBit n full).lacount = x.lacount := rfl
@[simp] theorem Strand.setBit_engTrap : (x.setBit n full).engTrap = x.engTrap := rfl
@[simp] theorem Strand.setBit_engTval : (x.setBit n full).engTval = x.engTval := rfl
@[simp] theorem Strand.setBit_notes : (x.setBit n full).notes = x.notes := rfl
@[simp] theorem Strand.setBit_place : (x.setBit n full).place = x.place := rfl
@[simp] theorem Strand.setBit_parked : (x.setBit n full).parked = x.parked := rfl
@[simp] theorem Strand.setBit_since : (x.setBit n full).since = x.since := rfl
@[simp] theorem Strand.setBit_station : (x.setBit n full).station = x.station := rfl
@[simp] theorem Strand.setBit_hold : (x.setBit n full).hold = x.hold := rfl
@[simp] theorem Strand.setBit_lines : (x.setBit n full).lines = x.lines := rfl
@[simp] theorem Strand.setBit_badLines : (x.setBit n full).badLines = x.badLines := rfl
@[simp] theorem Strand.setBit_issues : (x.setBit n full).issues = x.issues := rfl
@[simp] theorem Strand.setBit_dropped : (x.setBit n full).dropped = x.dropped := rfl
@[simp] theorem Strand.setBit_trapPend : (x.setBit n full).trapPend = x.trapPend := rfl
@[simp] theorem Strand.setBit_poison : (x.setBit n full).poison = x.poison := rfl
@[simp] theorem Strand.setBit_refusals : (x.setBit n full).refusals = x.refusals := rfl
@[simp] theorem Strand.setBit_stopping : (x.setBit n full).stopping = x.stopping := rfl
@[simp] theorem Strand.setBit_blocked : (x.setBit n full).blocked = x.blocked := rfl
end

section
variable (x : Strand)
@[simp] theorem Strand.issued_key : (x.issued).key = x.key := rfl
@[simp] theorem Strand.issued_g : (x.issued).g = x.g := rfl
@[simp] theorem Strand.issued_mask : (x.issued).mask = x.mask := rfl
@[simp] theorem Strand.issued_mode : (x.issued).mode = x.mode := rfl
@[simp] theorem Strand.issued_pc : (x.issued).pc = x.pc := rfl
@[simp] theorem Strand.issued_loopStart : (x.issued).loopStart = x.loopStart := rfl
@[simp] theorem Strand.issued_loopEnd : (x.issued).loopEnd = x.loopEnd := rfl
@[simp] theorem Strand.issued_loopCount : (x.issued).loopCount = x.loopCount := rfl
@[simp] theorem Strand.issued_engines : (x.issued).engines = x.engines := rfl
@[simp] theorem Strand.issued_fa : (x.issued).fa = x.fa := rfl
@[simp] theorem Strand.issued_fb : (x.issued).fb = x.fb := rfl
@[simp] theorem Strand.issued_fc : (x.issued).fc = x.fc := rfl
@[simp] theorem Strand.issued_fs : (x.issued).fs = x.fs := rfl
@[simp] theorem Strand.issued_task : (x.issued).task = x.task := rfl
@[simp] theorem Strand.issued_joinOrParent : (x.issued).joinOrParent = x.joinOrParent := rfl
@[simp] theorem Strand.issued_roundPos : (x.issued).roundPos = x.roundPos := rfl
@[simp] theorem Strand.issued_fpflags : (x.issued).fpflags = x.fpflags := rfl
@[simp] theorem Strand.issued_rmode : (x.issued).rmode = x.rmode := rfl
@[simp] theorem Strand.issued_outTarget : (x.issued).outTarget = x.outTarget := rfl
@[simp] theorem Strand.issued_qbind : (x.issued).qbind = x.qbind := rfl
@[simp] theorem Strand.issued_inHigh : (x.issued).inHigh = x.inHigh := rfl
@[simp] theorem Strand.issued_inLow : (x.issued).inLow = x.inLow := rfl
@[simp] theorem Strand.issued_segs : (x.issued).segs = x.segs := rfl
@[simp] theorem Strand.issued_epc : (x.issued).epc = x.epc := rfl
@[simp] theorem Strand.issued_cause : (x.issued).cause = x.cause := rfl
@[simp] theorem Strand.issued_tval : (x.issued).tval = x.tval := rfl
@[simp] theorem Strand.issued_savedMode : (x.issued).savedMode = x.savedMode := rfl
@[simp] theorem Strand.issued_opc : (x.issued).opc = x.opc := rfl
@[simp] theorem Strand.issued_lacount : (x.issued).lacount = x.lacount := rfl
@[simp] theorem Strand.issued_engTrap : (x.issued).engTrap = x.engTrap := rfl
@[simp] theorem Strand.issued_engTval : (x.issued).engTval = x.engTval := rfl
@[simp] theorem Strand.issued_notes : (x.issued).notes = x.notes := rfl
@[simp] theorem Strand.issued_place : (x.issued).place = x.place := rfl
@[simp] theorem Strand.issued_parked : (x.issued).parked = x.parked := rfl
@[simp] theorem Strand.issued_since : (x.issued).since = x.since := rfl
@[simp] theorem Strand.issued_station : (x.issued).station = x.station := rfl
@[simp] theorem Strand.issued_hold : (x.issued).hold = x.hold := rfl
@[simp] theorem Strand.issued_lines : (x.issued).lines = x.lines := rfl
@[simp] theorem Strand.issued_badLines : (x.issued).badLines = x.badLines := rfl
@[simp] theorem Strand.issued_dropped : (x.issued).dropped = x.dropped := rfl
@[simp] theorem Strand.issued_trapPend : (x.issued).trapPend = x.trapPend := rfl
@[simp] theorem Strand.issued_stopping : (x.issued).stopping = x.stopping := rfl
@[simp] theorem Strand.issued_blocked : (x.issued).blocked = x.blocked := rfl
end

section
variable (x : Strand) (la : Nat) (dest : Option (Fin 16)) (result : LlResult)
@[simp] theorem Strand.issuedLong_key :
    (x.issuedLong la dest result).key = x.key := by simp only [Strand.issuedLong]; (repeat' split) <;> rfl
@[simp] theorem Strand.issuedLong_g :
    (x.issuedLong la dest result).g = x.g := by simp only [Strand.issuedLong]; (repeat' split) <;> rfl
@[simp] theorem Strand.issuedLong_mode :
    (x.issuedLong la dest result).mode = x.mode := by simp only [Strand.issuedLong]; (repeat' split) <;> rfl
@[simp] theorem Strand.issuedLong_pc :
    (x.issuedLong la dest result).pc = x.pc := by simp only [Strand.issuedLong]; (repeat' split) <;> rfl
@[simp] theorem Strand.issuedLong_loopStart :
    (x.issuedLong la dest result).loopStart = x.loopStart := by simp only [Strand.issuedLong]; (repeat' split) <;> rfl
@[simp] theorem Strand.issuedLong_loopEnd :
    (x.issuedLong la dest result).loopEnd = x.loopEnd := by simp only [Strand.issuedLong]; (repeat' split) <;> rfl
@[simp] theorem Strand.issuedLong_loopCount :
    (x.issuedLong la dest result).loopCount = x.loopCount := by simp only [Strand.issuedLong]; (repeat' split) <;> rfl
@[simp] theorem Strand.issuedLong_engines :
    (x.issuedLong la dest result).engines = x.engines := by simp only [Strand.issuedLong]; (repeat' split) <;> rfl
@[simp] theorem Strand.issuedLong_fa :
    (x.issuedLong la dest result).fa = x.fa := by simp only [Strand.issuedLong]; (repeat' split) <;> rfl
@[simp] theorem Strand.issuedLong_fb :
    (x.issuedLong la dest result).fb = x.fb := by simp only [Strand.issuedLong]; (repeat' split) <;> rfl
@[simp] theorem Strand.issuedLong_fc :
    (x.issuedLong la dest result).fc = x.fc := by simp only [Strand.issuedLong]; (repeat' split) <;> rfl
@[simp] theorem Strand.issuedLong_fs :
    (x.issuedLong la dest result).fs = x.fs := by simp only [Strand.issuedLong]; (repeat' split) <;> rfl
@[simp] theorem Strand.issuedLong_task :
    (x.issuedLong la dest result).task = x.task := by simp only [Strand.issuedLong]; (repeat' split) <;> rfl
@[simp] theorem Strand.issuedLong_joinOrParent :
    (x.issuedLong la dest result).joinOrParent = x.joinOrParent := by simp only [Strand.issuedLong]; (repeat' split) <;> rfl
@[simp] theorem Strand.issuedLong_roundPos :
    (x.issuedLong la dest result).roundPos = x.roundPos := by simp only [Strand.issuedLong]; (repeat' split) <;> rfl
@[simp] theorem Strand.issuedLong_fpflags :
    (x.issuedLong la dest result).fpflags = x.fpflags := by simp only [Strand.issuedLong]; (repeat' split) <;> rfl
@[simp] theorem Strand.issuedLong_rmode :
    (x.issuedLong la dest result).rmode = x.rmode := by simp only [Strand.issuedLong]; (repeat' split) <;> rfl
@[simp] theorem Strand.issuedLong_outTarget :
    (x.issuedLong la dest result).outTarget = x.outTarget := by simp only [Strand.issuedLong]; (repeat' split) <;> rfl
@[simp] theorem Strand.issuedLong_qbind :
    (x.issuedLong la dest result).qbind = x.qbind := by simp only [Strand.issuedLong]; (repeat' split) <;> rfl
@[simp] theorem Strand.issuedLong_inHigh :
    (x.issuedLong la dest result).inHigh = x.inHigh := by simp only [Strand.issuedLong]; (repeat' split) <;> rfl
@[simp] theorem Strand.issuedLong_inLow :
    (x.issuedLong la dest result).inLow = x.inLow := by simp only [Strand.issuedLong]; (repeat' split) <;> rfl
@[simp] theorem Strand.issuedLong_segs :
    (x.issuedLong la dest result).segs = x.segs := by simp only [Strand.issuedLong]; (repeat' split) <;> rfl
@[simp] theorem Strand.issuedLong_epc :
    (x.issuedLong la dest result).epc = x.epc := by simp only [Strand.issuedLong]; (repeat' split) <;> rfl
@[simp] theorem Strand.issuedLong_cause :
    (x.issuedLong la dest result).cause = x.cause := by simp only [Strand.issuedLong]; (repeat' split) <;> rfl
@[simp] theorem Strand.issuedLong_tval :
    (x.issuedLong la dest result).tval = x.tval := by simp only [Strand.issuedLong]; (repeat' split) <;> rfl
@[simp] theorem Strand.issuedLong_savedMode :
    (x.issuedLong la dest result).savedMode = x.savedMode := by simp only [Strand.issuedLong]; (repeat' split) <;> rfl
@[simp] theorem Strand.issuedLong_opc :
    (x.issuedLong la dest result).opc = x.opc := by simp only [Strand.issuedLong]; (repeat' split) <;> rfl
@[simp] theorem Strand.issuedLong_lacount :
    (x.issuedLong la dest result).lacount = x.lacount := by simp only [Strand.issuedLong]; (repeat' split) <;> rfl
@[simp] theorem Strand.issuedLong_engTrap :
    (x.issuedLong la dest result).engTrap = x.engTrap := by simp only [Strand.issuedLong]; (repeat' split) <;> rfl
@[simp] theorem Strand.issuedLong_engTval :
    (x.issuedLong la dest result).engTval = x.engTval := by simp only [Strand.issuedLong]; (repeat' split) <;> rfl
@[simp] theorem Strand.issuedLong_notes :
    (x.issuedLong la dest result).notes = x.notes := by simp only [Strand.issuedLong]; (repeat' split) <;> rfl
@[simp] theorem Strand.issuedLong_place :
    (x.issuedLong la dest result).place = x.place := by simp only [Strand.issuedLong]; (repeat' split) <;> rfl
@[simp] theorem Strand.issuedLong_parked :
    (x.issuedLong la dest result).parked = x.parked := by simp only [Strand.issuedLong]; (repeat' split) <;> rfl
@[simp] theorem Strand.issuedLong_since :
    (x.issuedLong la dest result).since = x.since := by simp only [Strand.issuedLong]; (repeat' split) <;> rfl
@[simp] theorem Strand.issuedLong_station :
    (x.issuedLong la dest result).station = x.station := by simp only [Strand.issuedLong]; (repeat' split) <;> rfl
@[simp] theorem Strand.issuedLong_hold :
    (x.issuedLong la dest result).hold = x.hold := by simp only [Strand.issuedLong]; (repeat' split) <;> rfl
@[simp] theorem Strand.issuedLong_lines :
    (x.issuedLong la dest result).lines = x.lines := by simp only [Strand.issuedLong]; (repeat' split) <;> rfl
@[simp] theorem Strand.issuedLong_badLines :
    (x.issuedLong la dest result).badLines = x.badLines := by simp only [Strand.issuedLong]; (repeat' split) <;> rfl
@[simp] theorem Strand.issuedLong_dropped :
    (x.issuedLong la dest result).dropped = x.dropped := by simp only [Strand.issuedLong]; (repeat' split) <;> rfl
@[simp] theorem Strand.issuedLong_trapPend :
    (x.issuedLong la dest result).trapPend = x.trapPend := by simp only [Strand.issuedLong]; (repeat' split) <;> rfl
@[simp] theorem Strand.issuedLong_stopping :
    (x.issuedLong la dest result).stopping = x.stopping := by simp only [Strand.issuedLong]; (repeat' split) <;> rfl
@[simp] theorem Strand.issuedLong_blocked :
    (x.issuedLong la dest result).blocked = x.blocked := by simp only [Strand.issuedLong]; (repeat' split) <;> rfl
end

section
variable (x : Strand) (size : Nat)
@[simp] theorem Strand.advance_key :
    (x.advance size).key = x.key := by simp only [Strand.advance]; (repeat' split) <;> rfl
@[simp] theorem Strand.advance_g : (x.advance size).g = x.g := by simp only [Strand.advance]; (repeat' split) <;> rfl
@[simp] theorem Strand.advance_mask :
    (x.advance size).mask = x.mask := by simp only [Strand.advance]; (repeat' split) <;> rfl
@[simp] theorem Strand.advance_loopStart :
    (x.advance size).loopStart = x.loopStart := by simp only [Strand.advance]; (repeat' split) <;> rfl
@[simp] theorem Strand.advance_loopEnd :
    (x.advance size).loopEnd = x.loopEnd := by simp only [Strand.advance]; (repeat' split) <;> rfl
@[simp] theorem Strand.advance_ops :
    (x.advance size).ops = x.ops := by simp only [Strand.advance]; (repeat' split) <;> rfl
@[simp] theorem Strand.advance_window :
    (x.advance size).window = x.window := by simp only [Strand.advance]; (repeat' split) <;> rfl
@[simp] theorem Strand.advance_engines :
    (x.advance size).engines = x.engines := by simp only [Strand.advance]; (repeat' split) <;> rfl
@[simp] theorem Strand.advance_fa : (x.advance size).fa = x.fa := by simp only [Strand.advance]; (repeat' split) <;> rfl
@[simp] theorem Strand.advance_fb : (x.advance size).fb = x.fb := by simp only [Strand.advance]; (repeat' split) <;> rfl
@[simp] theorem Strand.advance_fc : (x.advance size).fc = x.fc := by simp only [Strand.advance]; (repeat' split) <;> rfl
@[simp] theorem Strand.advance_fs : (x.advance size).fs = x.fs := by simp only [Strand.advance]; (repeat' split) <;> rfl
@[simp] theorem Strand.advance_task :
    (x.advance size).task = x.task := by simp only [Strand.advance]; (repeat' split) <;> rfl
@[simp] theorem Strand.advance_joinOrParent :
    (x.advance size).joinOrParent = x.joinOrParent := by simp only [Strand.advance]; (repeat' split) <;> rfl
@[simp] theorem Strand.advance_roundPos :
    (x.advance size).roundPos = x.roundPos := by simp only [Strand.advance]; (repeat' split) <;> rfl
@[simp] theorem Strand.advance_fpflags :
    (x.advance size).fpflags = x.fpflags := by simp only [Strand.advance]; (repeat' split) <;> rfl
@[simp] theorem Strand.advance_rmode :
    (x.advance size).rmode = x.rmode := by simp only [Strand.advance]; (repeat' split) <;> rfl
@[simp] theorem Strand.advance_outTarget :
    (x.advance size).outTarget = x.outTarget := by simp only [Strand.advance]; (repeat' split) <;> rfl
@[simp] theorem Strand.advance_qbind :
    (x.advance size).qbind = x.qbind := by simp only [Strand.advance]; (repeat' split) <;> rfl
@[simp] theorem Strand.advance_inHigh :
    (x.advance size).inHigh = x.inHigh := by simp only [Strand.advance]; (repeat' split) <;> rfl
@[simp] theorem Strand.advance_inLow :
    (x.advance size).inLow = x.inLow := by simp only [Strand.advance]; (repeat' split) <;> rfl
@[simp] theorem Strand.advance_segs :
    (x.advance size).segs = x.segs := by simp only [Strand.advance]; (repeat' split) <;> rfl
@[simp] theorem Strand.advance_epc :
    (x.advance size).epc = x.epc := by simp only [Strand.advance]; (repeat' split) <;> rfl
@[simp] theorem Strand.advance_cause :
    (x.advance size).cause = x.cause := by simp only [Strand.advance]; (repeat' split) <;> rfl
@[simp] theorem Strand.advance_tval :
    (x.advance size).tval = x.tval := by simp only [Strand.advance]; (repeat' split) <;> rfl
@[simp] theorem Strand.advance_savedMode :
    (x.advance size).savedMode = x.savedMode := by simp only [Strand.advance]; (repeat' split) <;> rfl
@[simp] theorem Strand.advance_opc :
    (x.advance size).opc = x.opc := by simp only [Strand.advance]; (repeat' split) <;> rfl
@[simp] theorem Strand.advance_lacount :
    (x.advance size).lacount = x.lacount := by simp only [Strand.advance]; (repeat' split) <;> rfl
@[simp] theorem Strand.advance_engTrap :
    (x.advance size).engTrap = x.engTrap := by simp only [Strand.advance]; (repeat' split) <;> rfl
@[simp] theorem Strand.advance_engTval :
    (x.advance size).engTval = x.engTval := by simp only [Strand.advance]; (repeat' split) <;> rfl
@[simp] theorem Strand.advance_notes :
    (x.advance size).notes = x.notes := by simp only [Strand.advance]; (repeat' split) <;> rfl
@[simp] theorem Strand.advance_place :
    (x.advance size).place = x.place := by simp only [Strand.advance]; (repeat' split) <;> rfl
@[simp] theorem Strand.advance_parked :
    (x.advance size).parked = x.parked := by simp only [Strand.advance]; (repeat' split) <;> rfl
@[simp] theorem Strand.advance_since :
    (x.advance size).since = x.since := by simp only [Strand.advance]; (repeat' split) <;> rfl
@[simp] theorem Strand.advance_station :
    (x.advance size).station = x.station := by simp only [Strand.advance]; (repeat' split) <;> rfl
@[simp] theorem Strand.advance_hold :
    (x.advance size).hold = x.hold := by simp only [Strand.advance]; (repeat' split) <;> rfl
@[simp] theorem Strand.advance_lines :
    (x.advance size).lines = x.lines := by simp only [Strand.advance]; (repeat' split) <;> rfl
@[simp] theorem Strand.advance_badLines :
    (x.advance size).badLines = x.badLines := by simp only [Strand.advance]; (repeat' split) <;> rfl
@[simp] theorem Strand.advance_issues :
    (x.advance size).issues = x.issues := by simp only [Strand.advance]; (repeat' split) <;> rfl
@[simp] theorem Strand.advance_dropped :
    (x.advance size).dropped = x.dropped := by simp only [Strand.advance]; (repeat' split) <;> rfl
@[simp] theorem Strand.advance_trapPend :
    (x.advance size).trapPend = x.trapPend := by simp only [Strand.advance]; (repeat' split) <;> rfl
@[simp] theorem Strand.advance_poison :
    (x.advance size).poison = x.poison := by simp only [Strand.advance]; (repeat' split) <;> rfl
@[simp] theorem Strand.advance_refusals :
    (x.advance size).refusals = x.refusals := by simp only [Strand.advance]; (repeat' split) <;> rfl
@[simp] theorem Strand.advance_stopping :
    (x.advance size).stopping = x.stopping := by simp only [Strand.advance]; (repeat' split) <;> rfl
@[simp] theorem Strand.advance_blocked :
    (x.advance size).blocked = x.blocked := by simp only [Strand.advance]; (repeat' split) <;> rfl
end

section
variable (x : Strand) (t : Word)
@[simp] theorem Strand.transferTo_key : (x.transferTo t).key = x.key := rfl
@[simp] theorem Strand.transferTo_g : (x.transferTo t).g = x.g := rfl
@[simp] theorem Strand.transferTo_mask : (x.transferTo t).mask = x.mask := rfl
@[simp] theorem Strand.transferTo_loopStart : (x.transferTo t).loopStart = x.loopStart := rfl
@[simp] theorem Strand.transferTo_loopEnd : (x.transferTo t).loopEnd = x.loopEnd := rfl
@[simp] theorem Strand.transferTo_ops : (x.transferTo t).ops = x.ops := rfl
@[simp] theorem Strand.transferTo_window : (x.transferTo t).window = x.window := rfl
@[simp] theorem Strand.transferTo_engines : (x.transferTo t).engines = x.engines := rfl
@[simp] theorem Strand.transferTo_fa : (x.transferTo t).fa = x.fa := rfl
@[simp] theorem Strand.transferTo_fb : (x.transferTo t).fb = x.fb := rfl
@[simp] theorem Strand.transferTo_fc : (x.transferTo t).fc = x.fc := rfl
@[simp] theorem Strand.transferTo_fs : (x.transferTo t).fs = x.fs := rfl
@[simp] theorem Strand.transferTo_task : (x.transferTo t).task = x.task := rfl
@[simp] theorem Strand.transferTo_joinOrParent : (x.transferTo t).joinOrParent = x.joinOrParent := rfl
@[simp] theorem Strand.transferTo_roundPos : (x.transferTo t).roundPos = x.roundPos := rfl
@[simp] theorem Strand.transferTo_fpflags : (x.transferTo t).fpflags = x.fpflags := rfl
@[simp] theorem Strand.transferTo_rmode : (x.transferTo t).rmode = x.rmode := rfl
@[simp] theorem Strand.transferTo_outTarget : (x.transferTo t).outTarget = x.outTarget := rfl
@[simp] theorem Strand.transferTo_qbind : (x.transferTo t).qbind = x.qbind := rfl
@[simp] theorem Strand.transferTo_inHigh : (x.transferTo t).inHigh = x.inHigh := rfl
@[simp] theorem Strand.transferTo_inLow : (x.transferTo t).inLow = x.inLow := rfl
@[simp] theorem Strand.transferTo_segs : (x.transferTo t).segs = x.segs := rfl
@[simp] theorem Strand.transferTo_epc : (x.transferTo t).epc = x.epc := rfl
@[simp] theorem Strand.transferTo_cause : (x.transferTo t).cause = x.cause := rfl
@[simp] theorem Strand.transferTo_tval : (x.transferTo t).tval = x.tval := rfl
@[simp] theorem Strand.transferTo_savedMode : (x.transferTo t).savedMode = x.savedMode := rfl
@[simp] theorem Strand.transferTo_opc : (x.transferTo t).opc = x.opc := rfl
@[simp] theorem Strand.transferTo_lacount : (x.transferTo t).lacount = x.lacount := rfl
@[simp] theorem Strand.transferTo_engTrap : (x.transferTo t).engTrap = x.engTrap := rfl
@[simp] theorem Strand.transferTo_engTval : (x.transferTo t).engTval = x.engTval := rfl
@[simp] theorem Strand.transferTo_notes : (x.transferTo t).notes = x.notes := rfl
@[simp] theorem Strand.transferTo_place : (x.transferTo t).place = x.place := rfl
@[simp] theorem Strand.transferTo_parked : (x.transferTo t).parked = x.parked := rfl
@[simp] theorem Strand.transferTo_since : (x.transferTo t).since = x.since := rfl
@[simp] theorem Strand.transferTo_station : (x.transferTo t).station = x.station := rfl
@[simp] theorem Strand.transferTo_hold : (x.transferTo t).hold = x.hold := rfl
@[simp] theorem Strand.transferTo_lines : (x.transferTo t).lines = x.lines := rfl
@[simp] theorem Strand.transferTo_badLines : (x.transferTo t).badLines = x.badLines := rfl
@[simp] theorem Strand.transferTo_issues : (x.transferTo t).issues = x.issues := rfl
@[simp] theorem Strand.transferTo_dropped : (x.transferTo t).dropped = x.dropped := rfl
@[simp] theorem Strand.transferTo_trapPend : (x.transferTo t).trapPend = x.trapPend := rfl
@[simp] theorem Strand.transferTo_poison : (x.transferTo t).poison = x.poison := rfl
@[simp] theorem Strand.transferTo_refusals : (x.transferTo t).refusals = x.refusals := rfl
@[simp] theorem Strand.transferTo_stopping : (x.transferTo t).stopping = x.stopping := rfl
@[simp] theorem Strand.transferTo_blocked : (x.transferTo t).blocked = x.blocked := rfl
end

section
variable (x : Strand)
@[simp] theorem Strand.returned_key : (x.returned).key = x.key := rfl
@[simp] theorem Strand.returned_g : (x.returned).g = x.g := rfl
@[simp] theorem Strand.returned_mask : (x.returned).mask = x.mask := rfl
@[simp] theorem Strand.returned_loopStart : (x.returned).loopStart = x.loopStart := rfl
@[simp] theorem Strand.returned_loopEnd : (x.returned).loopEnd = x.loopEnd := rfl
@[simp] theorem Strand.returned_loopCount : (x.returned).loopCount = x.loopCount := rfl
@[simp] theorem Strand.returned_ops : (x.returned).ops = x.ops := rfl
@[simp] theorem Strand.returned_window : (x.returned).window = x.window := rfl
@[simp] theorem Strand.returned_engines : (x.returned).engines = x.engines := rfl
@[simp] theorem Strand.returned_fa : (x.returned).fa = x.fa := rfl
@[simp] theorem Strand.returned_fb : (x.returned).fb = x.fb := rfl
@[simp] theorem Strand.returned_fc : (x.returned).fc = x.fc := rfl
@[simp] theorem Strand.returned_fs : (x.returned).fs = x.fs := rfl
@[simp] theorem Strand.returned_task : (x.returned).task = x.task := rfl
@[simp] theorem Strand.returned_joinOrParent : (x.returned).joinOrParent = x.joinOrParent := rfl
@[simp] theorem Strand.returned_roundPos : (x.returned).roundPos = x.roundPos := rfl
@[simp] theorem Strand.returned_fpflags : (x.returned).fpflags = x.fpflags := rfl
@[simp] theorem Strand.returned_rmode : (x.returned).rmode = x.rmode := rfl
@[simp] theorem Strand.returned_outTarget : (x.returned).outTarget = x.outTarget := rfl
@[simp] theorem Strand.returned_qbind : (x.returned).qbind = x.qbind := rfl
@[simp] theorem Strand.returned_inHigh : (x.returned).inHigh = x.inHigh := rfl
@[simp] theorem Strand.returned_inLow : (x.returned).inLow = x.inLow := rfl
@[simp] theorem Strand.returned_segs : (x.returned).segs = x.segs := rfl
@[simp] theorem Strand.returned_epc : (x.returned).epc = x.epc := rfl
@[simp] theorem Strand.returned_cause : (x.returned).cause = x.cause := rfl
@[simp] theorem Strand.returned_tval : (x.returned).tval = x.tval := rfl
@[simp] theorem Strand.returned_savedMode : (x.returned).savedMode = x.savedMode := rfl
@[simp] theorem Strand.returned_opc : (x.returned).opc = x.opc := rfl
@[simp] theorem Strand.returned_lacount : (x.returned).lacount = x.lacount := rfl
@[simp] theorem Strand.returned_engTrap : (x.returned).engTrap = x.engTrap := rfl
@[simp] theorem Strand.returned_engTval : (x.returned).engTval = x.engTval := rfl
@[simp] theorem Strand.returned_notes : (x.returned).notes = x.notes := rfl
@[simp] theorem Strand.returned_place : (x.returned).place = x.place := rfl
@[simp] theorem Strand.returned_parked : (x.returned).parked = x.parked := rfl
@[simp] theorem Strand.returned_since : (x.returned).since = x.since := rfl
@[simp] theorem Strand.returned_station : (x.returned).station = x.station := rfl
@[simp] theorem Strand.returned_hold : (x.returned).hold = x.hold := rfl
@[simp] theorem Strand.returned_lines : (x.returned).lines = x.lines := rfl
@[simp] theorem Strand.returned_badLines : (x.returned).badLines = x.badLines := rfl
@[simp] theorem Strand.returned_issues : (x.returned).issues = x.issues := rfl
@[simp] theorem Strand.returned_dropped : (x.returned).dropped = x.dropped := rfl
@[simp] theorem Strand.returned_trapPend : (x.returned).trapPend = x.trapPend := rfl
@[simp] theorem Strand.returned_poison : (x.returned).poison = x.poison := rfl
@[simp] theorem Strand.returned_refusals : (x.returned).refusals = x.refusals := rfl
@[simp] theorem Strand.returned_stopping : (x.returned).stopping = x.stopping := rfl
@[simp] theorem Strand.returned_blocked : (x.returned).blocked = x.blocked := rfl
end

section
variable (x : Strand) (tvec : Word) (cause code : Nat) (multi : Bool) (tval epc opc : Word) (count : Nat)
@[simp] theorem Strand.trapEntry_key : (x.trapEntry tvec cause code multi tval epc opc count).key = x.key := rfl
@[simp] theorem Strand.trapEntry_g : (x.trapEntry tvec cause code multi tval epc opc count).g = x.g := rfl
@[simp] theorem Strand.trapEntry_mask : (x.trapEntry tvec cause code multi tval epc opc count).mask = x.mask := rfl
@[simp] theorem Strand.trapEntry_loopStart :
    (x.trapEntry tvec cause code multi tval epc opc count).loopStart = x.loopStart := rfl
@[simp] theorem Strand.trapEntry_loopEnd :
    (x.trapEntry tvec cause code multi tval epc opc count).loopEnd = x.loopEnd := rfl
@[simp] theorem Strand.trapEntry_loopCount :
    (x.trapEntry tvec cause code multi tval epc opc count).loopCount = x.loopCount := rfl
@[simp] theorem Strand.trapEntry_ops : (x.trapEntry tvec cause code multi tval epc opc count).ops = x.ops := rfl
@[simp] theorem Strand.trapEntry_window :
    (x.trapEntry tvec cause code multi tval epc opc count).window = x.window := rfl
@[simp] theorem Strand.trapEntry_engines :
    (x.trapEntry tvec cause code multi tval epc opc count).engines = x.engines := rfl
@[simp] theorem Strand.trapEntry_fa : (x.trapEntry tvec cause code multi tval epc opc count).fa = x.fa := rfl
@[simp] theorem Strand.trapEntry_fb : (x.trapEntry tvec cause code multi tval epc opc count).fb = x.fb := rfl
@[simp] theorem Strand.trapEntry_fc : (x.trapEntry tvec cause code multi tval epc opc count).fc = x.fc := rfl
@[simp] theorem Strand.trapEntry_fs : (x.trapEntry tvec cause code multi tval epc opc count).fs = x.fs := rfl
@[simp] theorem Strand.trapEntry_task : (x.trapEntry tvec cause code multi tval epc opc count).task = x.task := rfl
@[simp] theorem Strand.trapEntry_joinOrParent :
    (x.trapEntry tvec cause code multi tval epc opc count).joinOrParent = x.joinOrParent := rfl
@[simp] theorem Strand.trapEntry_roundPos :
    (x.trapEntry tvec cause code multi tval epc opc count).roundPos = x.roundPos := rfl
@[simp] theorem Strand.trapEntry_fpflags :
    (x.trapEntry tvec cause code multi tval epc opc count).fpflags = x.fpflags := rfl
@[simp] theorem Strand.trapEntry_rmode : (x.trapEntry tvec cause code multi tval epc opc count).rmode = x.rmode := rfl
@[simp] theorem Strand.trapEntry_outTarget :
    (x.trapEntry tvec cause code multi tval epc opc count).outTarget = x.outTarget := rfl
@[simp] theorem Strand.trapEntry_qbind : (x.trapEntry tvec cause code multi tval epc opc count).qbind = x.qbind := rfl
@[simp] theorem Strand.trapEntry_inHigh :
    (x.trapEntry tvec cause code multi tval epc opc count).inHigh = x.inHigh := rfl
@[simp] theorem Strand.trapEntry_inLow : (x.trapEntry tvec cause code multi tval epc opc count).inLow = x.inLow := rfl
@[simp] theorem Strand.trapEntry_segs : (x.trapEntry tvec cause code multi tval epc opc count).segs = x.segs := rfl
@[simp] theorem Strand.trapEntry_engTrap :
    (x.trapEntry tvec cause code multi tval epc opc count).engTrap = x.engTrap := rfl
@[simp] theorem Strand.trapEntry_engTval :
    (x.trapEntry tvec cause code multi tval epc opc count).engTval = x.engTval := rfl
@[simp] theorem Strand.trapEntry_notes : (x.trapEntry tvec cause code multi tval epc opc count).notes = x.notes := rfl
@[simp] theorem Strand.trapEntry_place : (x.trapEntry tvec cause code multi tval epc opc count).place = x.place := rfl
@[simp] theorem Strand.trapEntry_parked :
    (x.trapEntry tvec cause code multi tval epc opc count).parked = x.parked := rfl
@[simp] theorem Strand.trapEntry_since : (x.trapEntry tvec cause code multi tval epc opc count).since = x.since := rfl
@[simp] theorem Strand.trapEntry_station :
    (x.trapEntry tvec cause code multi tval epc opc count).station = x.station := rfl
@[simp] theorem Strand.trapEntry_lines : (x.trapEntry tvec cause code multi tval epc opc count).lines = x.lines := rfl
@[simp] theorem Strand.trapEntry_badLines :
    (x.trapEntry tvec cause code multi tval epc opc count).badLines = x.badLines := rfl
@[simp] theorem Strand.trapEntry_issues :
    (x.trapEntry tvec cause code multi tval epc opc count).issues = x.issues := rfl
@[simp] theorem Strand.trapEntry_dropped :
    (x.trapEntry tvec cause code multi tval epc opc count).dropped = x.dropped := rfl
@[simp] theorem Strand.trapEntry_poison :
    (x.trapEntry tvec cause code multi tval epc opc count).poison = x.poison := rfl
@[simp] theorem Strand.trapEntry_refusals :
    (x.trapEntry tvec cause code multi tval epc opc count).refusals = x.refusals := rfl
@[simp] theorem Strand.trapEntry_stopping :
    (x.trapEntry tvec cause code multi tval epc opc count).stopping = x.stopping := rfl
@[simp] theorem Strand.trapEntry_blocked :
    (x.trapEntry tvec cause code multi tval epc opc count).blocked = x.blocked := rfl
end

/-! ### A station. -/

section
variable (s : Station)
@[simp] theorem Station.idleCycle_cycle : (s.idleCycle).cycle = s.cycle := rfl
@[simp] theorem Station.idleCycle_pkey : (s.idleCycle).pkey = s.pkey := rfl
@[simp] theorem Station.idleCycle_slots : (s.idleCycle).slots = s.slots := rfl
@[simp] theorem Station.idleCycle_lastSlot : (s.idleCycle).lastSlot = s.lastSlot := rfl
@[simp] theorem Station.idleCycle_activations : (s.idleCycle).activations = s.activations := rfl
@[simp] theorem Station.idleCycle_westIn : (s.idleCycle).westIn = s.westIn := rfl
@[simp] theorem Station.idleCycle_eastIn : (s.idleCycle).eastIn = s.eastIn := rfl
@[simp] theorem Station.idleCycle_queues : (s.idleCycle).queues = s.queues := rfl
@[simp] theorem Station.idleCycle_commands : (s.idleCycle).commands = s.commands := rfl
@[simp] theorem Station.idleCycle_copies : (s.idleCycle).copies = s.copies := rfl
@[simp] theorem Station.idleCycle_stash : (s.idleCycle).stash = s.stash := rfl
@[simp] theorem Station.idleCycle_entries : (s.idleCycle).entries = s.entries := rfl
@[simp] theorem Station.idleCycle_acc : (s.idleCycle).acc = s.acc := rfl
@[simp] theorem Station.idleCycle_accOwner : (s.idleCycle).accOwner = s.accOwner := rfl
@[simp] theorem Station.idleCycle_l1 : (s.idleCycle).l1 = s.l1 := rfl
end

section
variable (s : Station) (slot : Nat)
end

section
variable (s : Station) (east : Bool) (q : List LinkWord)
end

/-! ### The state. -/

section
variable (s : State)
@[simp] theorem State.idle_plat : (s.idle).plat = s.plat := rfl
@[simp] theorem State.idle_schedule : (s.idle).schedule = s.schedule := rfl
@[simp] theorem State.idle_turnNo : (s.idle).turnNo = s.turnNo := rfl
end

section
variable (s : State)
@[simp] theorem State.taken_core : (s.taken).core = s.core := rfl
@[simp] theorem State.taken_plat : (s.taken).plat = s.plat := rfl
end

end Sys2Proof.Machine
end

