-- ==== Sys2Proof/Tests/Slice0.lean ====
section
/-! SUPPORT. Tests of the model: ill-formed terms that WellFormed refuses, words of the specification and what they decode to,
witnesses that meet the hypotheses of the statements, and single steps with expected values from the specification. -/

namespace Sys2Proof.Tests

open Sys2Proof Sys2Proof.Machine Sys2Proof.Claims

set_option Elab.async false

/-! ### Terms that no word stands for, one for each check -/

theorem test_ill_source_ob : (Instr.add (.g 1) .ob (.g 2)).wf = false := by decide
theorem test_ill_second_source_ob : (Instr.add (.g 1) (.g 2) .ob).wf = false := by decide
theorem test_ill_destination_sid : (Instr.add .sid (.g 1) (.g 2)).wf = false := by decide
theorem test_ill_destination_inbox : (Instr.clz .ib (.g 1)).wf = false := by decide
theorem test_ill_long_latency_port : (Instr.mul .lw (.g 1) (.g 2) 0).wf = false := by decide
theorem test_ill_load_into_queue : (Instr.ldD .qa (.g 1) 0 0 0).wf = false := by decide
theorem test_ill_store_of_ob : (Instr.stD .ob (.g 1) 0 0).wf = false := by decide
theorem test_ill_branch_source : (Instr.brEq .ob (.g 1) 4).wf = false := by decide
theorem test_ill_movk_of_port : (Instr.movk .qa 0 1).wf = false := by decide
theorem test_ill_empty_loop : (Instr.loopi 3 0).wf = false ∧ (Instr.loop (.g 1) 0).wf = false := by decide
theorem test_ill_atomic_destination : (Instr.amoDCas .ob (.g 1) (.g 2) 0 .relaxed .die).wf = false := by decide
theorem test_ill_system_register : (Instr.rsr (.g 1) 0x12).wf = false ∧ (Instr.wsr (.g 1) 0x12).wf = false := by decide
theorem test_ill_context_word : (Instr.rcx (.g 1) (.g 2) 128).wf = false := by decide
theorem test_ill_stash_operand : (Instr.sunmap .ob (.g 1)).wf = false := by decide
theorem test_ill_rsr_destination : (Instr.rsr .fa 0x0A).wf = false := by decide

/-! ### Decoding: a word of every scalar instruction, composed from the encoding tables (R58 to R73), `rd` 13, `ra` 6,
`rb` 9, and of every tile command (R75, R78) -/

/-- Whether words decode to `d`. -/
def reads (ws : List IWord) (d : Decoded) : Bool :=
  match decode (ws.flatMap bytesOfWord) with
  | .ok e => e == d
  | .error _ => false

/-- Whether words are refused as `r`. -/
def refusedAs (ws : List IWord) (r : Reject) : Bool :=
  match decode (ws.flatMap bytesOfWord) with
  | .ok _ => false
  | .error q => q == r

def decodesTo (l : List (IWord × Instr)) : Bool := l.all fun e => reads [e.1] ⟨e.2, none⟩

theorem test_decode_alu : decodesTo [
    (0x05A64800, .add (.g 13) (.g 6) (.g 9)),
    (0x05A64810, .sub (.g 13) (.g 6) (.g 9)),
    (0x05A64820, .and (.g 13) (.g 6) (.g 9)),
    (0x05A64830, .or (.g 13) (.g 6) (.g 9)),
    (0x05A64840, .xor (.g 13) (.g 6) (.g 9)),
    (0x05A64850, .andn (.g 13) (.g 6) (.g 9)),
    (0x05A64860, .orn (.g 13) (.g 6) (.g 9)),
    (0x05A64870, .xnor (.g 13) (.g 6) (.g 9)),
    (0x05A64880, .shl (.g 13) (.g 6) (.g 9)),
    (0x05A64890, .shr (.g 13) (.g 6) (.g 9)),
    (0x05A648A0, .sar (.g 13) (.g 6) (.g 9)),
    (0x05A648B0, .rol (.g 13) (.g 6) (.g 9)),
    (0x05A648C0, .ror (.g 13) (.g 6) (.g 9)),
    (0x05A64900, .min (.g 13) (.g 6) (.g 9)),
    (0x05A64910, .max (.g 13) (.g 6) (.g 9)),
    (0x05A64920, .minz (.g 13) (.g 6) (.g 9)),
    (0x05A64930, .maxz (.g 13) (.g 6) (.g 9)),
    (0x05A64940, .slt (.g 13) (.g 6) (.g 9)),
    (0x05A64950, .sltz (.g 13) (.g 6) (.g 9)),
    (0x05A64960, .seq (.g 13) (.g 6) (.g 9)),
    (0x05A64970, .sne (.g 13) (.g 6) (.g 9)),
    (0x05A64980, .addsat (.g 13) (.g 6) (.g 9)),
    (0x05A64990, .subsat (.g 13) (.g 6) (.g 9)),
    (0x05A60200, .clz (.g 13) (.g 6))] = true := by decide +kernel

theorem test_decode_alu_b : decodesTo [
    (0x05A60210, .ctz (.g 13) (.g 6)),
    (0x05A60220, .pop (.g 13) (.g 6)),
    (0x05A60230, .brev (.g 13) (.g 6)),
    (0x05A60240, .bswap (.g 13) (.g 6)),
    (0x05A60250, .sextB (.g 13) (.g 6)),
    (0x05A60260, .sextH (.g 13) (.g 6)),
    (0x05A60270, .sextW (.g 13) (.g 6)),
    (0x05A60280, .zextB (.g 13) (.g 6)),
    (0x05A60290, .zextH (.g 13) (.g 6)),
    (0x05A602A0, .zextW (.g 13) (.g 6)),
    (0x05A64B0A, .mul (.g 13) (.g 6) (.g 9) 0xa),
    (0x05A64B1A, .mulh (.g 13) (.g 6) (.g 9) 0xa),
    (0x05A64B2A, .mulhz (.g 13) (.g 6) (.g 9) 0xa),
    (0x05A64B3A, .div (.g 13) (.g 6) (.g 9) 0xa),
    (0x05A64B4A, .divz (.g 13) (.g 6) (.g 9) 0xa),
    (0x05A64B5A, .rem (.g 13) (.g 6) (.g 9) 0xa),
    (0x05A64B6A, .remz (.g 13) (.g 6) (.g 9) 0xa),
    (0x05A64BC0, .adds1 (.g 13) (.g 6) (.g 9)),
    (0x05A64BD0, .adds2 (.g 13) (.g 6) (.g 9)),
    (0x05A64BE0, .adds3 (.g 13) (.g 6) (.g 9)),
    (0x05A64BF0, .adds4 (.g 13) (.g 6) (.g 9))] = true := by decide +kernel

theorem test_decode_imm : decodesTo [
    (0x09A68123, .addi (.g 13) (.g 6) 0x8123),
    (0x0DA68123, .andi (.g 13) (.g 6) 0x8123),
    (0x11A68123, .ori (.g 13) (.g 6) 0x8123),
    (0x15A68123, .xori (.g 13) (.g 6) 0x8123),
    (0x19A6002B, .shli (.g 13) (.g 6) 0x2b),
    (0x19A6102B, .shri (.g 13) (.g 6) 0x2b),
    (0x19A6202B, .sari (.g 13) (.g 6) 0x2b),
    (0x19A6302B, .roli (.g 13) (.g 6) 0x2b),
    (0x1DA68123, .slti (.g 13) (.g 6) 0x8123),
    (0x21A68123, .sltzi (.g 13) (.g 6) 0x8123),
    (0x25A28123, .movk (.g 13) 2 0x8123),
    (0x29A68123, .muli (.g 13) (.g 6) 0x8123),
    (0x2DA08123, .adr (.g 13) 0x8123)] = true := by decide +kernel

theorem test_decode_branch : decodesTo [
    (0x30C91A05, .brEq (.g 6) (.g 9) 0x1a05),
    (0x30C93A05, .brNe (.g 6) (.g 9) 0x1a05),
    (0x30C95A05, .brLt (.g 6) (.g 9) 0x1a05),
    (0x30C97A05, .brGe (.g 6) (.g 9) 0x1a05),
    (0x30C99A05, .brLtz (.g 6) (.g 9) 0x1a05),
    (0x30C9BA05, .brGez (.g 6) (.g 9) 0x1a05),
    (0x34D61A05, .briEq (.g 6) 0x16 0x1a05),
    (0x34D63A05, .briNe (.g 6) 0x16 0x1a05),
    (0x34D65A05, .briLt (.g 6) 0x16 0x1a05),
    (0x34D67A05, .briGe (.g 6) 0x16 0x1a05),
    (0x34D69A05, .briLtz (.g 6) 0x16 0x1a05),
    (0x34D6BA05, .briGez (.g 6) 0x16 0x1a05),
    (0x3AF00C31, .j 0x2f00c31),
    (0x3EF00C31, .jl 0x2f00c31),
    (0x40060000, .jr (.g 6)),
    (0x41A60010, .jlr (.g 13) (.g 6)),
    (0x44E08123, .loop (.g 7) 0x8123),
    (0x4AC58123, .loopi 0x2c5 0x8123)] = true := by decide +kernel

theorem test_decode_fp : decodesTo [
    (0x4DA64800, .fadd (.g 13) (.g 6) (.g 9)),
    (0x4DA64810, .fsub (.g 13) (.g 6) (.g 9)),
    (0x4DA64820, .fmul (.g 13) (.g 6) (.g 9)),
    (0x4DA6483A, .fdiv (.g 13) (.g 6) (.g 9) 0xa),
    (0x4DA64840, .fmin (.g 13) (.g 6) (.g 9)),
    (0x4DA64850, .fmax (.g 13) (.g 6) (.g 9)),
    (0x4DA6006A, .fsqrt (.g 13) (.g 6) 0xa),
    (0x4DA64870, .feq (.g 13) (.g 6) (.g 9)),
    (0x4DA64880, .flt (.g 13) (.g 6) (.g 9)),
    (0x4DA64890, .fle (.g 13) (.g 6) (.g 9)),
    (0x4DA600A0, .fcvtIf (.g 13) (.g 6)),
    (0x4DA600B0, .fcvtFi (.g 13) (.g 6)),
    (0x4DA600C0, .fneg (.g 13) (.g 6)),
    (0x4DA600D0, .fabs (.g 13) (.g 6))] = true := by decide +kernel

theorem test_decode_memory : decodesTo [
    (0x5166DA3A, .ldB (.g 11) (.g 6) 6 0x1a3 0xa),
    (0x5566DA3A, .ldH (.g 11) (.g 6) 6 0x1a3 0xa),
    (0x5966DA3A, .ldW (.g 11) (.g 6) 6 0x1a3 0xa),
    (0x5D66DA3A, .ldD (.g 11) (.g 6) 6 0x1a3 0xa),
    (0x6166DA3A, .ldzB (.g 11) (.g 6) 6 0x1a3 0xa),
    (0x6566DA3A, .ldzH (.g 11) (.g 6) 6 0x1a3 0xa),
    (0x6966DA3A, .ldzW (.g 11) (.g 6) 6 0x1a3 0xa),
    (0x6D66DA30, .stB (.g 11) (.g 6) 6 0x1a3),
    (0x7166DA30, .stH (.g 11) (.g 6) 6 0x1a3),
    (0x7566DA30, .stW (.g 11) (.g 6) 6 0x1a3),
    (0x7966DA30, .stD (.g 11) (.g 6) 6 0x1a3),
    (0x7D664E0A, .ldxB (.g 11) (.g 6) (.g 9) 6 0xa),
    (0x7D664E1A, .ldxH (.g 11) (.g 6) (.g 9) 6 0xa),
    (0x7D664E2A, .ldxW (.g 11) (.g 6) (.g 9) 6 0xa),
    (0x7D664E3A, .ldxD (.g 11) (.g 6) (.g 9) 6 0xa),
    (0x7D664E4A, .ldzxB (.g 11) (.g 6) (.g 9) 6 0xa),
    (0x7D664E5A, .ldzxH (.g 11) (.g 6) (.g 9) 6 0xa),
    (0x7D664E6A, .ldzxW (.g 11) (.g 6) (.g 9) 6 0xa),
    (0x7D664E80, .stxB (.g 11) (.g 6) (.g 9) 6),
    (0x7D664E90, .stxH (.g 11) (.g 6) (.g 9) 6),
    (0x7D664EA0, .stxW (.g 11) (.g 6) (.g 9) 6),
    (0x7D664EB0, .stxD (.g 11) (.g 6) (.g 9) 6)] = true := by decide +kernel

theorem test_decode_fullempty : decodesTo [
    (0x8166D5CA, .ldf (.g 11) (.g 6) 6 0x2b .system 0xa),
    (0x8566D5CA, .ldfe (.g 11) (.g 6) 6 0x2b .system 0xa),
    (0x8966D5C0, .stef (.g 11) (.g 6) 6 0x2b .system),
    (0x8D66D5C0, .stf (.g 11) (.g 6) 6 0x2b .system),
    (0x91A64E0A, .feprobe (.g 13) (.g 6) (.g 9) 6 0xa),
    (0x90064E10, .feset (.g 6) (.g 9) 6),
    (0x90064E20, .feclr (.g 6) (.g 9) 6),
    (0x90064E30, .fewait (.g 6) (.g 9) 6),
    (0x90064E40, .fewaite (.g 6) (.g 9) 6),
    (0x91C00050, .rempty 14),
    (0x91AE0060, .rprobe (.g 13) 14)] = true := by decide +kernel

theorem test_decode_atomic : decodesTo [
    (0x95A64E09, .amoDSwap (.g 13) (.g 6) (.g 9) 6 .release .die),
    (0x95A64E19, .amoDAdd (.g 13) (.g 6) (.g 9) 6 .release .die),
    (0x95A64E29, .amoDAnd (.g 13) (.g 6) (.g 9) 6 .release .die),
    (0x95A64E39, .amoDOr (.g 13) (.g 6) (.g 9) 6 .release .die),
    (0x95A64E49, .amoDXor (.g 13) (.g 6) (.g 9) 6 .release .die),
    (0x95A64E59, .amoDMin (.g 13) (.g 6) (.g 9) 6 .release .die),
    (0x95A64E69, .amoDMax (.g 13) (.g 6) (.g 9) 6 .release .die),
    (0x95A64E79, .amoDMinz (.g 13) (.g 6) (.g 9) 6 .release .die),
    (0x95A64E89, .amoDMaxz (.g 13) (.g 6) (.g 9) 6 .release .die),
    (0x95A64E99, .amoDCas (.g 13) (.g 6) (.g 9) 6 .release .die),
    (0x95A64EB9, .amoDInc (.g 13) (.g 6) (.g 9) 6 .release .die),
    (0x99A64E09, .amoWSwap (.g 13) (.g 6) (.g 9) 6 .release .die),
    (0x99A64E19, .amoWAdd (.g 13) (.g 6) (.g 9) 6 .release .die),
    (0x99A64E29, .amoWAnd (.g 13) (.g 6) (.g 9) 6 .release .die),
    (0x99A64E39, .amoWOr (.g 13) (.g 6) (.g 9) 6 .release .die),
    (0x99A64E49, .amoWXor (.g 13) (.g 6) (.g 9) 6 .release .die),
    (0x99A64E59, .amoWMin (.g 13) (.g 6) (.g 9) 6 .release .die),
    (0x99A64E69, .amoWMax (.g 13) (.g 6) (.g 9) 6 .release .die),
    (0x99A64E79, .amoWMinz (.g 13) (.g 6) (.g 9) 6 .release .die),
    (0x99A64E89, .amoWMaxz (.g 13) (.g 6) (.g 9) 6 .release .die),
    (0x99A64E99, .amoWCas (.g 13) (.g 6) (.g 9) 6 .release .die),
    (0x99A64EA9, .amoWFadd (.g 13) (.g 6) (.g 9) 6 .release .die),
    (0x99A64EB9, .amoWInc (.g 13) (.g 6) (.g 9) 6 .release .die)] = true := by decide +kernel

theorem test_decode_fence_segment : decodesTo [
    (0x9C000040, .fenceAcq .system),
    (0x9C0000C0, .fenceRel .system),
    (0x9C000140, .fence .system),
    (0x9C000240, .fenceEngAcq .system),
    (0x9C0002C0, .fenceEngRel .system),
    (0x9C000340, .fenceEng .system),
    (0xA0A60000, .segld 5 (.g 6)),
    (0xA0A60010, .segst 5 (.g 6)),
    (0xA0A64820, .segnar 5 (.g 6) (.g 9)),
    (0xA0A60030, .segrgt 5 (.g 6)),
    (0xA1A30040, .segbase (.g 13) 3),
    (0xA1A30050, .seglim (.g 13) 3),
    (0xA1A30060, .segrd (.g 13) 3)] = true := by decide +kernel

theorem test_decode_stash : decodesTo [
    (0xA5A64E00, .smap (.g 13) (.g 6) (.g 9) 6),
    (0xA5A04810, .sunmap (.g 13) (.g 9)),
    (0xA5A04820, .sflush (.g 13) (.g 9)),
    (0xA5A04830, .sinv (.g 13) (.g 9)),
    (0xA5A60040, .sprobe (.g 13) (.g 6))] = true := by decide +kernel

theorem test_decode_message : decodesTo [
    (0xA8064800, .msgt (.g 6) (.g 9)),
    (0xA9A00010, .poll (.g 13)),
    (0xA8064820, .qbind (.g 6) (.g 9)),
    (0xA8060030, .migrate (.g 6))] = true := by decide +kernel

theorem test_decode_task : decodesTo [
    (0xB1A64800, .rfork (.g 13) (.g 6) (.g 9)),
    (0xB0060010, .join (.g 6)),
    (0xB1A64820, .spawn (.g 13) (.g 6) (.g 9)),
    (0xB0060030, .tail (.g 6)),
    (0xB0000040, .yield),
    (0xB0000050, .park),
    (0xB0060060, .wake (.g 6)),
    (0xB0000070, .endStrand),
    (0xB0000080, .cancel),
    (0xB0060090, .gdec (.g 6)),
    (0xB00648A0, .qput (.g 6) (.g 9)),
    (0xB1A600B0, .qtake (.g 13) (.g 6))] = true := by decide +kernel

theorem test_decode_lineage : decodesTo [
    (0xB5A6000A, .lfork (.g 13) (.g 6) 0xa),
    (0xB5A6001A, .lforkf (.g 13) (.g 6) 0xa),
    (0xB5A6002A, .lflat (.g 13) (.g 6) 0xa),
    (0xB5A6483A, .lrebk (.g 13) (.g 6) (.g 9) 0xa),
    (0xB5A6484A, .lrebd (.g 13) (.g 6) (.g 9) 0xa),
    (0xB5A6005A, .ldel (.g 13) (.g 6) 0xa),
    (0xB5A6006A, .lcmt (.g 13) (.g 6) 0xa),
    (0xB5A6487A, .linfo (.g 13) (.g 6) (.g 9) 0xa)] = true := by decide +kernel

theorem test_decode_system : decodesTo [
    (0xF00005C0, .trap 0x5c),
    (0xF0001000, .eret),
    (0xF00025C0, .brk 0x5c),
    (0xF1A03000, .cyc (.g 13)),
    (0xF1A040E0, .rsr (.g 13) 0xe),
    (0xF00650E0, .wsr (.g 6) 0xe),
    (0xF1A665C0, .rcx (.g 13) (.g 6) 0x5c),
    (0xF16675C0, .wcx (.g 11) (.g 6) 0x5c),
    (0xF0008000, .halt),
    (0xF0069000, .tlbinv (.g 6)),
    (0xF006A000, .ctxflush (.g 6))] = true := by decide +kernel
/-- A tile command of lookahead 5 and flags 0x2C, with its further words. -/
def commandsTo (l : List (IWord × Instr)) : Bool := l.all fun e =>
  reads [e.1, 0xFFFF0A0B, 0x04016000, 0x42800038, 0x50000004, 1, 2, 3]
    ⟨e.2, some ⟨5, 0x2C, 0xFFFF0A0B, 0x04016000, 0x42800038, 0x50000004, 1, 2, 3⟩⟩

theorem test_decode_copy_commands : commandsTo [
    (0xF810152C, .cpCopy), (0xF810252C, .cpFill), (0xF810352C, .cpBcast), (0xF810452C, .cpGather),
    (0xF810552C, .cpScatter), (0xF810652C, .cpCancel), (0xF810752C, .cpNode)] = true := by
  decide +kernel

theorem test_decode_lineage_commands : commandsTo [
    (0xF820152C, .lnRoot), (0xF820252C, .lnWr), (0xF820352C, .lnWre), (0xF820452C, .lnLr), (0xF820552C, .lnRes),
    (0xF820652C, .lnApp), (0xF820752C, .lnTrunc), (0xF820852C, .lnRd)] = true := by
  decide +kernel

theorem test_decode_matrix_commands : commandsTo [
    (0xF830152C, .mxZero), (0xF830252C, .mxMma), (0xF830352C, .mxLin), (0xF830452C, .mxSt),
    (0xF830552C, .mxLd)] = true := by
  decide +kernel

theorem test_decode_vector_commands : commandsTo [
    (0xF840152C, .vxFill), (0xF840252C, .vxIota), (0xF840352C, .vxAdd), (0xF840452C, .vxSub), (0xF840552C, .vxMul),
    (0xF840652C, .vxFma), (0xF840752C, .vxMin), (0xF840852C, .vxMax), (0xF840952C, .vxAbs), (0xF840A52C, .vxNeg),
    (0xF840B52C, .vxRcp), (0xF840C52C, .vxRsqrt), (0xF840D52C, .vxExp2), (0xF840E52C, .vxLog2), (0xF840F52C, .vxCvt),
    (0xF841052C, .vxCmp), (0xF841152C, .vxSel), (0xF841252C, .vxRsum), (0xF841352C, .vxRmax),
    (0xF841452C, .vxArgmax), (0xF841552C, .vxGather), (0xF841652C, .vxScatter), (0xF841752C, .vxQuant),
    (0xF841852C, .vxSwz)] = true := by
  decide +kernel

theorem test_decode_collective_commands : commandsTo [
    (0xF850152C, .clAg), (0xF850252C, .clRs), (0xF850352C, .clAr), (0xF850452C, .clBc),
    (0xF850552C, .clGrp)] = true := by
  decide +kernel

theorem test_decode_sampler_commands : commandsTo [
    (0xF860152C, .smRun), (0xF860252C, .smBatch)] = true := by
  decide +kernel

theorem test_decode_random_commands : commandsTo [
    (0xF870152C, .rnCfg), (0xF870252C, .rnDraw)] = true := by
  decide +kernel

theorem test_decode_stream_commands : commandsTo [
    (0xF880152C, .dxOpen), (0xF880252C, .dxIn), (0xF880352C, .dxApp), (0xF880452C, .dxAck), (0xF880552C, .dxTrunc),
    (0xF880652C, .dxClose)] = true := by
  decide +kernel

/-- A tile command cut short, an operation code of no engine, a bit that must be zero, and specifier 31 (R58, R60, R78). -/
theorem test_decode_reserved :
    refusedAs [0xF8101000] .truncated = true ∧ refusedAs [0xF8109000, 0, 0, 0, 0, 0, 0, 0] .tcwCode = true ∧
    refusedAs [0x05A6480F] .mustBeZero = true ∧ refusedAs [0x07E64800] .badOperand = true ∧
    refusedAs [0x00000000] .reservedMajor = true := by decide +kernel

/-- The specifiers of R60 from 16 on. -/
theorem test_decode_specifiers :
    ([.zr, .lw, .le, .lwf, .lef, .ib, .ob, .qa, .qb, .fa, .fb, .fc, .fs, .sid, .lid] : List Reg).map Reg.code =
      [16, 17, 18, 19, 20, 21, 22, 23, 24, 25, 26, 27, 28, 29, 30] := by decide

/-- The opcode table's own numbering: the bits of `addi zr, zr, 0`, and a tile command of which only w0 is given. -/
theorem test_decode_table_words :
    decodeTableWord 32 0x0A100000 = some (.addi .zr .zr 0) ∧ decodeTableWord 32 0xF8101000 = some .cpCopy := by decide +kernel

/-- R79, R317, R319: a bit of `ctl` that the operation does not use makes w6 the offending word. -/
theorem test_ctl_zero_bits :
    tcwOffence clAgForm ⟨0, 0, 0xFFFF0000, 0, 0x30000000, 0x10000001, 0x20000010, 0x20000005, 0⟩ true = none ∧
    tcwOffence clAgForm ⟨0, 0, 0xFFFF0000, 0, 0x30000000, 0x10000001, 0x20000010, 0x20000105, 0⟩ true = some 6 ∧
    tcwOffence clBcForm ⟨0, 0, 0xFFFF0000, 0, 0x30000000, 0x10000001, 0x20000010, 0x24000005, 0⟩ true = some 6 := by decide
/-! ### The states of the witnesses -/

/-- Whether an attempt runs to its end, and the core that it leaves. -/
def ok {α : Type} (a : Act α) (p : Platform) (c : Core) : Bool :=
  match a p c with
  | .ok _ => true
  | .error _ => false

def after {α : Type} (a : Act α) (p : Platform) (c : Core) : Core :=
  match a p c with
  | .ok r => r.2
  | .error _ => c

/-- The value that an attempt gives. -/
def gives {α : Type} (a : Act α) (p : Platform) (c : Core) (d : α) : α :=
  match a p c with
  | .ok r => r.1
  | .error _ => d

theorem ran {α : Type} {a : Act α} {p : Platform} {c : Core} (d : α) (h : ok a p c = true) :
    a p c = .ok (gives a p c d, after a p c) := by
  unfold ok at h
  unfold gives after
  cases hr : a p c with
  | ok r => rfl
  | error e => rw [hr] at h; simp at h

theorem ranUnit {a : Act Unit} {p : Platform} {c : Core} (h : ok a p c = true) : a p c = .ok ((), after a p c) := ran () h

/-- Whether an attempt gives `v` and leaves the core as it was. -/
def still {α : Type} [DecidableEq α] (a : Act α) (p : Platform) (c : Core) (v : α) : Bool :=
  match a p c with
  | .ok r => decide (r = (v, c))
  | .error _ => false

theorem stillIs {α : Type} [DecidableEq α] {a : Act α} {p : Platform} {c : Core} {v : α} (h : still a p c v = true) :
    a p c = .ok (v, c) := by
  unfold still at h
  cases hr : a p c with
  | ok r => rw [hr] at h; simp only [decide_eq_true_eq] at h; rw [h]
  | error e => rw [hr] at h; simp at h

/-- Whether an attempt stops with `x`. -/
def stopsAs {α : Type} (a : Act α) (p : Platform) (c : Core) (x : Stop) : Bool :=
  match a p c with
  | .ok _ => false
  | .error e => e == x

theorem stopped {α : Type} {a : Act α} {p : Platform} {c : Core} {x : Stop} (h : stopsAs a p c x = true) :
    a p c = .error x := by
  unfold stopsAs at h
  cases hr : a p c with
  | ok r => rw [hr] at h; simp at h
  | error e => rw [hr] at h; simp only [beq_iff_eq] at h; rw [h]

/-- Whether two results are the same. -/
def same {ε α : Type} [DecidableEq ε] [DecidableEq α] : Except ε α → Except ε α → Bool
  | .ok a, .ok b => decide (a = b)
  | .error a, .error b => decide (a = b)
  | .ok _, .error _ => false
  | .error _, .ok _ => false

theorem sameIs {ε α : Type} [DecidableEq ε] [DecidableEq α] {a b : Except ε α} (h : same a b = true) : a = b := by
  cases a <;> cases b <;> simp [same] at h <;> rw [h]

/-- Whether an attempt gives `v`. -/
def yields {α : Type} [DecidableEq α] (a : Act α) (p : Platform) (c : Core) (v : α) : Bool :=
  match a p c with
  | .ok r => decide (r.1 = v)
  | .error _ => false

theorem runs {α : Type} [DecidableEq α] {a : Act α} {p : Platform} {c : Core} {v : α} (h : yields a p c v = true) :
    a p c = .ok (v, after a p c) := by
  unfold yields at h
  unfold after
  cases hr : a p c with
  | ok r => rw [hr] at h; simp only [decide_eq_true_eq] at h; rw [← h]
  | error e => rw [hr] at h; simp at h

/-- Memory of a job 0: its table entry, a job record at 0x1000 with a trap vector, a pool of eight frames, and an address
space of one present page of 32 MiB. -/
def worldMem : Mem :=
  [(0x0, 0x100000000), (0x8, 0x1000), (0x1008, 0x4000), (0x1030, 0x20000), (0x1038, 0x2000), (0x1160, 0x2000),
    (0x1170, 0), (0x1178, 0x2000000), (0x2000, 0x8800000000000000)].foldl (fun m e => m.write64 e.1 e.2) Mem.reset

def plat : Platform := State.reset.plat
def world : Core := { State.reset.core with mem := worldMem, jobs := [0] }

/-- The key of the strand in hand, a user strand and a supervisor strand in slot 0 of station 0. -/
def key : Key := placedKey
def user : Strand :=
  { placedStrand with g := #v[0, 0, 7, 0x8000, 0, 256, 0x100000, 1, 0, 0, 0, 0, 0, 0, 0, 0] }
def chief : Strand := { user with mode := 1 }

/-- A strand with one operation outstanding, its window open or closed. -/
def busy (window : Nat) : Strand := { user with ops := [⟨some 4, 0x10000, 1, .value 5 0, 0⟩], window := window }

/-- The strand `x` in hand at station 0, in a package `c`. -/
def hand (x : Strand) (c : Core := world) (t : Option Tcw := none) : State :=
  ⟨{ c with strands := [x], work := .strand 0 0 key 0 t }, plat, [], 0⟩

theorem inHand {x : Strand} {c : Core} {t : Option Tcw} (h : (x.key == key) = true) : InHand (hand x c t) 0 key 0 t x := by
  refine ⟨⟨0, rfl⟩, ?_⟩
  show List.find? _ [x] = _
  simp only [List.find?, h]

/-- An event in hand, in a package `c`. -/
def happening (e : EventArg) (c : Core := world) (p : Platform := plat) : State := ⟨{ c with work := .event e }, p, [], 0⟩

/-! ### Witnesses: integer, FP32 and control flow -/

theorem witness_AluCompletes : InHand (hand user) 0 key 0 none user ∧ MayIssue user [.g 1] false ∧
    Reads plat (hand user).core (.g 2) 7 (hand user).core ∧ Reads plat (hand user).core (.g 3) 0x8000 (hand user).core ∧
    Room plat (hand user).core (.g 1) :=
  ⟨inHand rfl, .inl rfl, stillIs (by decide +kernel), stillIs (by decide +kernel), stillIs (by decide +kernel)⟩

/-- The same with an operation outstanding and the window open: the destination is not the operation's. -/
theorem witness_AluCompletes_lookahead : InHand (hand (busy 2)) 0 key 0 none (busy 2) ∧ MayIssue (busy 2) [.g 1] false ∧
    Reads plat (hand (busy 2)).core .zr 0 (hand (busy 2)).core ∧ Room plat (hand (busy 2)).core .zr :=
  ⟨inHand rfl, .inr (by decide), stillIs (by decide +kernel), stillIs (by decide +kernel)⟩

theorem witness_ImmediateCompletes : InHand (hand user) 0 key 0 none user ∧ MayIssue user [.g 2] false ∧
    Reads plat (hand user).core (.g 2) 7 (hand user).core ∧ Room plat (hand user).core (.g 2) :=
  ⟨inHand rfl, .inl rfl, stillIs (by decide +kernel), stillIs (by decide +kernel)⟩

theorem witness_LongLatencyIssues : InHand (hand (busy 1)) 0 key 0 none (busy 1) ∧ MayIssue (busy 1) [.g 1] true ∧
    Reads plat (hand (busy 1)).core (.g 3) 0x8000 (hand (busy 1)).core ∧
    Reads plat (hand (busy 1)).core .zr 0 (hand (busy 1)).core :=
  ⟨inHand rfl, .inr (by decide), stillIs (by decide +kernel), stillIs (by decide +kernel)⟩

theorem witness_Fp32Completes : InHand (hand user) 0 key 0 none user ∧ MayIssue user [.zr] false ∧
    Reads plat (hand user).core (.g 3) 0x8000 (hand user).core ∧ Room plat (hand user).core .zr ∧
    isSNan 0xFFBFFFFF = true ∧ isNan 0x7FC00000 = true ∧ isSNan 0x7FC00000 = false ∧ isNan 0x7F800000 = false ∧
    (0xFF7FFFFF : Nat) % 2 ^ 31 < 0x7F800000 ∧ (0xFFFFFFFF7F800001 : Word).toNat % 2 ^ 32 = 0x7F800001 :=
  ⟨inHand rfl, .inl rfl, stillIs (by decide +kernel), stillIs (by decide +kernel), by decide +kernel⟩

/-- A branch on `g2` and `g3`, and one on `g2` and 7, from 0x10000: on, as far back as an offset goes, and out of reach of
the address space from 0. -/
theorem witness_BranchesComplete : InHand (hand user) 0 key 0 none user ∧ MayIssue user [] false ∧
    Reads plat (hand user).core (.g 2) 7 (hand user).core ∧ Reads plat (hand user).core (.g 3) 0x8000 (hand user).core ∧
    (7 : Word) ≠ 0x8000 ∧ (7 : Word) = (7#5).signExtend 64 ∧
    ((user.pc.toNat : Int) + (0x1000#13).toInt * 4 = 0xC000) ∧
    InHand (hand { user with pc := 0 }) 0 key 0 none { user with pc := 0 } ∧ (((0 : Word).toNat : Int) + (0x1FFF#13).toInt * 4 < 0) :=
  ⟨inHand rfl, .inl rfl, stillIs (by decide +kernel), stillIs (by decide +kernel), by decide, by decide, by decide,
    inHand rfl, by decide⟩

/-- The strand with another value in `g2`. -/
def leaper (v : Word) : Strand := { user with g := user.g.set 2 v }

/-- The last word of the address space as a target, the byte after it, and 7; a jump back from address 0; words of the major
that name no instruction. -/
theorem witness_JumpsComplete_trap : (∀ v ∈ [0xFFFFFFFFFFFFFFFC, 0xFFFFFFFFFFFFFFFD, 7], InHand (hand (leaper v)) 0 key 0 none (leaper v) ∧
      Reads plat (hand (leaper v)).core (.g 2) v (hand (leaper v)).core ∧ Room plat (hand (leaper v)).core (.g 15)) ∧
    (0xFFFFFFFFFFFFFFFC : Word).toNat ≤ 2 ^ 64 - 4 ∧ (0xFFFFFFFFFFFFFFFC : Word).toNat % 4 = 0 ∧
    2 ^ 64 - 4 < (0xFFFFFFFFFFFFFFFD : Word).toNat ∧ (7 : Word).toNat < 2 ^ 64 - 4 ∧ (7 : Word).toNat % 4 ≠ 0 ∧
    InHand (hand { user with pc := 0 }) 0 key 0 none { user with pc := 0 } ∧ (((0 : Word).toNat : Int) + (0x3FFFFFF#26).toInt * 4 < 0) ∧
    (Instr.jr (.g 15)).wf = true ∧ (Instr.jlr (.g 15) (.g 15)).wf = true ∧
    ([0x400F0001#32, 0x400F0020#32, 0x402F0000#32, 0x400F0800#32].all fun w => decide (fieldAt 26 6 w = 0x10#6 ∧
      (fieldAt 11 5 w ≠ 0 ∨ fieldAt 0 4 w ≠ 0 ∨ 1 < (fieldAt 4 7 w).toNat ∨ fieldAt 4 7 w = 0 ∧ fieldAt 21 5 w ≠ 0))) = true := by
  refine ⟨?_, ?_, ?_, ?_, ?_, ?_, inHand rfl, ?_, ?_, ?_, ?_⟩
  · intro v hv
    simp only [List.mem_cons, List.not_mem_nil, or_false] at hv
    obtain rfl | rfl | rfl := hv <;> exact ⟨inHand rfl, stillIs (by decide +kernel), stillIs (by decide +kernel)⟩
  all_goals decide +kernel

theorem witness_JumpsComplete : InHand (hand user) 0 key 0 none user ∧
    ((user.pc.toNat : Int) + (0x3FFC000#26).toInt * 4 = 0) ∧ MayIssue user [.g 15] false ∧
    Reads plat (hand user).core (.g 3) 0x8000 (hand user).core ∧ (0x8000 : Word).toNat % 4 = 0 ∧
    Room plat (hand user).core (.g 15) :=
  ⟨inHand rfl, by decide, .inl rfl, stillIs (by decide +kernel), by decide, stillIs (by decide +kernel)⟩

/-- A strand whose loop is active: its last instruction is in hand. -/
def looping (n : Word) : Strand := { user with mode := 4, loopStart := 0xFFF0, loopEnd := 0x10004, loopCount := n }

theorem witness_LoopsComplete : InHand (hand user) 0 key 0 none user ∧
    Reads plat (hand user).core (.g 2) 7 (hand user).core ∧ user.looping = false ∧ MayIssue user [] false ∧
    InHand (hand (looping 2)) 0 key 0 none (looping 2) ∧ (looping 2).looping = true ∧
    (looping 2).dropped = none ∧ (looping 2).mode.getLsbD 2 = true ∧ (looping 2).pc + BitVec.ofNat 64 4 = (looping 2).loopEnd ∧
    1 < (looping 2).loopCount.toNat ∧ (looping 1).loopCount.toNat ≤ 1 :=
  ⟨inHand rfl, stillIs (by decide +kernel), by decide, .inl rfl, inHand rfl, by decide, rfl, by decide, by decide, by decide,
    by decide⟩

/-! ### Witnesses: memory -/

theorem nothingSent {c : Core} {k : Key}
    (h : (c.multicasts.isEmpty && c.decrements.isEmpty && c.members.isEmpty) = true := by decide +kernel) : NothingSent c k := by
  simp only [Bool.and_eq_true, List.isEmpty_iff] at h
  simp [NothingSent, h]

/-- An ordinary cell of the job's memory: what it reaches and the core with its line cached. -/
theorem plain {c : Core} {va kind size : Nat} (hs : c.stations = [])
    (h : yields (locate 0 va kind size) plat c (.cell va false) = true) :
    PlainCell plat c 0 va kind size va (after (locate 0 va kind size) plat c) :=
  ⟨(fun e he => by rw [hs] at he; exact nomatch he), runs h⟩

/-- `g3` plus eight times −1 and the load of the word there. -/
theorem witness_LoadsComplete : InHand (hand user) 0 key 0 none user ∧ MayIssue user [.g 1] true ∧
    Reads plat (hand user).core (.g 3) 0x8000 (hand user).core ∧ OffsetIs 0x8000 ((0x1FF#9).toInt * (8 : Nat)) 0x7FF8 ∧
    reach 0 0x7FF8 8 1 plat (hand user).core = .ok (0x7FF8, (hand user).core) ∧
    (∃ r, loadAt user.party 0x7FF8 8 plat (hand user).core = .ok (r, after (loadAt user.party 0x7FF8 8) plat (hand user).core)) ∧
    PlainCell plat (hand user).core 0 0x7FF8 1 8 0x7FF8 (after (locate 0 0x7FF8 1 8) plat (hand user).core) ∧
    layerGone plat 0x7FF8 = false ∧ l1Find ((hand user).core.station user.station) user.key.job 0x7FF8 = none ∧
    NothingSent (hand user).core key := by
  refine ⟨inHand rfl, .inl rfl, stillIs (by decide +kernel), by unfold OffsetIs; decide, stillIs (by decide +kernel),
    ⟨_, ran ⟨0, none⟩ (by decide +kernel)⟩, plain rfl (by decide +kernel), by decide +kernel, by decide +kernel, nothingSent⟩

/-- The line of 0x8000 in the station's L1, with other bytes than memory holds. -/
def cachedWorld : Core := { world with stations := [(0, { Station.reset with l1 := [⟨0, 0x400, 0x200, 0x1234⟩] })] }

theorem witness_LoadsComplete_cached : InHand (hand user cachedWorld) 0 key 0 none user ∧
    Reads plat (hand user cachedWorld).core (.g 3) 0x8000 (hand user cachedWorld).core ∧
    reach 0 0x8000 8 1 plat (hand user cachedWorld).core = .ok (0x8000, (hand user cachedWorld).core) ∧
    PlainCell plat (hand user cachedWorld).core 0 0x8000 1 8 0x8000 (after (locate 0 0x8000 1 8) plat (hand user cachedWorld).core) ∧
    (l1Find ((hand user cachedWorld).core.station user.station) user.key.job 0x8000).isSome = true ∧
    (hand user cachedWorld).core.pins = [] ∧ NothingSent (hand user cachedWorld).core key ∧ layerGone plat 0x8000 = false :=
  ⟨inHand rfl, stillIs (by decide +kernel), stillIs (by decide +kernel), ⟨by decide, runs (by decide +kernel)⟩, by decide +kernel, rfl,
    nothingSent, by decide +kernel⟩

theorem witness_StoresComplete : InHand (hand user) 0 key 0 none user ∧ MayIssue user [] false ∧
    Reads plat (hand user).core (.g 2) 7 (hand user).core ∧ Reads plat (hand user).core (.g 3) 0x8000 (hand user).core ∧
    OffsetIs 0x8000 ((0#9).toInt * (1 : Nat)) 0x8000 ∧ reach 0 0x8000 1 2 plat (hand user).core = .ok (0x8000, (hand user).core) ∧
    storeAt user.party 0x8000 1 (((7 : Word).truncate 8).zeroExtend 64) plat (hand user).core =
      .ok ((), after (storeAt user.party 0x8000 1 (((7 : Word).truncate 8).zeroExtend 64)) plat (hand user).core) :=
  ⟨inHand rfl, .inl rfl, stillIs (by decide +kernel), stillIs (by decide +kernel), by unfold OffsetIs; decide,
    stillIs (by decide +kernel), ranUnit (by decide +kernel)⟩


/-- A byte and a word stored at the strand's `g3`. -/
theorem witness_StoreWritesItsBytes : (hand user).core.mem.wf = true ∧ 1 ∈ [1, 2, 4, 8] ∧ 8 ∈ [1, 2, 4, 8] ∧ 0x8000 % 8 = 0 ∧
    0x8001 % 64 = 0x8001 % 64 ∧
    PlainCell plat (hand user).core 0 0x8001 2 1 0x8001 (after (locate 0 0x8001 2 1) plat (hand user).core) ∧
    PlainCell plat (hand user).core 0 0x8000 2 8 0x8000 (after (locate 0 0x8000 2 8) plat (hand user).core) ∧
    layerGone plat 0x8001 = false ∧ (after (locate 0 0x8001 2 1) plat (hand user).core).mem.isPoison 0x8001 = false ∧
    NothingOwn (hand user).core user.party ∧ (∀ l ∈ (hand user).core.l2, l.task = none) :=
  ⟨by decide +kernel, by decide, by decide, by decide, rfl, plain rfl (by decide +kernel), plain rfl (by decide +kernel),
    by decide +kernel, by decide +kernel, (fun _ => nothingSent), by decide +kernel⟩

/-- A load and a store whose offset reaches the limit of segment 0, and the other traps of a translation. -/
theorem witness_TranslationChecks : InHand (hand user) 0 key 0 none user ∧ MayIssue user [.g 1] true ∧ MayIssue user [] false ∧
    Reads plat (hand user).core (.g 6) 0x100000 (hand user).core ∧ OffsetIs 0x100000 ((0#9).toInt * (8 : Nat)) 0x100000 ∧
    user.lines.contains ((0x180 + 24 * 0) / 64) = true ∧ user.lines.contains ((0x180 + 24 * 0 + 23) / 64) = true ∧
    user.badLines = [] ∧ translateSeg user.segs[0] 0x100000 8 1 user.sup = .error (causeSeg, 0x100000) ∧
    translateSeg user.segs[0] 0x100000 8 2 user.sup = .error (causeSeg, 0x100000) ∧
    translateSeg user.segs[0] 0x1FFF9 8 2 user.sup = .error (causeSeg, 0x1FFF9) ∧
    translateSeg user.segs[0] 0x1FFF8 8 2 user.sup = .ok 0x1FFF8 ∧
    translateSeg user.segs[0] 0x8001 8 1 user.sup = .error (causeAlign, 0x8001) ∧
    translateSeg ⟨0x00FFFFFFFFFFFFF8, 0x100, 1⟩ 0 8 1 false = .error (causeCanon, 0x00FFFFFFFFFFFFF8) ∧
    translateSeg ⟨0x007FFFFF00001000, 0x100, 1⟩ 0x78 8 1 false = .error (causeSeg, 0x78) ∧
    translateSeg ⟨0x007FFFFF00001000, 0x100, 0x21⟩ 0x78 8 1 true = .ok 0x007FFFFF00001078 ∧
    translateSeg ⟨0x007FFFFF00001000, 0x100, 1⟩ 0x80 8 1 false = .ok 0x007FFFFF00001080 :=
  ⟨inHand rfl, .inl rfl, .inl rfl, stillIs (by decide +kernel), by unfold OffsetIs; decide, by decide, by decide, rfl,
    sameIs (by decide +kernel), sameIs (by decide +kernel), sameIs (by decide +kernel), sameIs (by decide +kernel),
    sameIs (by decide +kernel), sameIs (by decide +kernel), sameIs (by decide +kernel), sameIs (by decide +kernel),
    sameIs (by decide +kernel)⟩

/-- Sized loads and stores in both forms, whose offsets leave the 64 bits at either end; the index is in `g11`. -/
def astray (base idx : Word) : Strand := { user with g := (user.g.set 10 base).set 11 idx }

theorem witness_TranslationChecks_forms : InHand (hand (astray 0 (-1))) 0 key 0 none (astray 0 (-1)) ∧
    SizedAccess (hand (astray 0 (-1))) (astray 0 (-1)) 0 (.ldxB (.g 1) (.g 10) (.g 11) 0 0) 1 1 0 (-1) ∧
    SizedAccess (hand (astray 0 (-1))) (astray 0 (-1)) 0 (.stxB (.g 1) (.g 10) (.g 11) 0) 1 2 0 (-1) ∧ ((0 : Word).toNat : Int) + -1 < 0 ∧
    SizedAccess (hand (astray (-1) 0)) (astray (-1) 0) 0 (.ldB (.g 1) (.g 10) 0 1 0) 1 1 (-1) 1 ∧
    SizedAccess (hand (astray (-1) 0)) (astray (-1) 0) 0 (.stB (.g 1) (.g 10) 0 1) 1 2 (-1) 1 ∧
    2 ^ 64 ≤ ((-1 : Word).toNat : Int) + 1 ∧ OffsetIs 0x100000 (0x100000 : Word).toInt 0x200000 ∧
    SizedAccess (hand (astray 0x100000 0x100000)) (astray 0x100000 0x100000) 0 (.ldxB (.g 1) (.g 10) (.g 11) 0 0) 1 1 0x100000 0x100000 ∧
    translateSeg (astray 0x100000 0x100000).segs[0] 0x200000 1 1 false = .error (causeSeg, 0x200000) := by
  refine ⟨inHand rfl,
    .inl ⟨rfl, .g 1, 0, .inl rfl, .inr ⟨_, .head _, .g 10, .g 11, -1, _, _, rfl, rfl, by decide, stillIs ?_, stillIs ?_⟩⟩,
    .inr ⟨rfl, .inl rfl, .g 1, 0, _, stillIs ?_, .inr ⟨_, .head _, .g 10, .g 11, -1, _, _, rfl, rfl, by decide, stillIs ?_, stillIs ?_⟩⟩,
    by decide,
    .inl ⟨rfl, .g 1, 0, .inl rfl, .inl ⟨_, .head _, .g 10, _, 1, rfl, rfl, by decide, stillIs ?_⟩⟩,
    .inr ⟨rfl, .inl rfl, .g 1, 0, _, stillIs ?_, .inl ⟨_, .head _, .g 10, _, 1, rfl, rfl, by decide, stillIs ?_⟩⟩,
    by decide, by unfold OffsetIs; decide,
    .inl ⟨rfl, .g 1, 0, .inl rfl, .inr ⟨_, .head _, .g 10, .g 11, 0x100000, _, _, rfl, rfl, by decide, stillIs ?_, stillIs ?_⟩⟩,
    sameIs ?_⟩ <;> decide +kernel

/-- The package with the word at 0x8000 full. -/
def fullWorld : Core := { world with mem := worldMem.setFull 0x8000 true }

theorem witness_FullEmptyCompletes : InHand (hand user fullWorld) 0 key 0 none user ∧ MayIssue user [.g 1] true ∧
    MayIssue user [] false ∧ Reads plat (hand user fullWorld).core (.g 3) 0x8000 (hand user fullWorld).core ∧
    Reads plat (hand user fullWorld).core .zr 0 (hand user fullWorld).core ∧ OffsetIs 0x8000 ((0#6).toInt * 8) 0x8000 ∧
    OffsetIs 0x8000 ((0 : Word).toInt * 8) 0x8000 ∧
    (∀ kind ∈ [1, 2, 3], reach 0 0x8000 8 kind plat (hand user fullWorld).core = .ok (0x8000, (hand user fullWorld).core)) ∧
    (∀ op ∈ [FeOp.ldf, .ldfe, .stf, .probe, .set, .clr, .wait], ∃ r,
      feAt user.party op 0x8000 0 .station plat (hand user fullWorld).core =
        .ok (r, after (feAt user.party op 0x8000 0 .station) plat (hand user fullWorld).core)) ∧
    (∀ op ∈ [FeOp.stef, .waite], ∃ r, feAt user.party op 0x8000 0 .station plat (hand user).core =
        .ok (r, after (feAt user.party op 0x8000 0 .station) plat (hand user).core)) ∧
    Room plat (hand user fullWorld).core (.g 1) := by
  refine ⟨inHand rfl, .inl rfl, .inl rfl, stillIs (by decide +kernel), stillIs (by decide +kernel), by unfold OffsetIs; decide,
    by unfold OffsetIs; decide, ?_, ?_, ?_, stillIs (by decide +kernel)⟩
  · intro kind hk
    exact stillIs (by revert kind; decide +kernel)
  · intro op ho
    exact ⟨_, ran ⟨0, none⟩ (by revert op; decide +kernel)⟩
  · intro op ho
    exact ⟨_, ran ⟨0, none⟩ (by revert op; decide +kernel)⟩

/-- The word at 0x8000, full in one package and empty in the other, by each kind of access. -/
theorem witness_FullEmptyWords : ∀ c ∈ [(hand user fullWorld).core, (hand user).core], c.mem.wf = true ∧ 0x8000 % 8 = 0 ∧
    (∀ kind ∈ [1, 2, 3], PlainCell plat c 0 0x8000 kind 8 0x8000 (after (locate 0 0x8000 kind 8) plat c) ∧
      (after (locate 0 0x8000 kind 8) plat c).mem.linePoison 0x8000 = false ∧
      (after (locate 0 0x8000 kind 8) plat c).scopes = [] ∧ ∀ l ∈ (after (locate 0 0x8000 kind 8) plat c).l2, l.task = none) ∧
    layerGone plat 0x8000 = false ∧ NothingOwn c user.party := by
  intro c hc
  have hs : c.stations = [] := by revert c; decide +kernel
  refine ⟨by revert c; decide +kernel, rfl, fun kind hk => ⟨plain hs ?_, ?_⟩, by decide +kernel, fun _ => nothingSent (by revert c; decide +kernel)⟩ <;>
    revert kind c <;> decide +kernel

theorem witness_AtomicsComplete : InHand (hand user) 0 key 0 none user ∧ MayIssue user [.g 1] false ∧
    Reads plat (hand user).core (.g 1) 0 (hand user).core ∧ Reads plat (hand user).core (.g 2) 7 (hand user).core ∧
    Reads plat (hand user).core (.g 3) 0x8000 (hand user).core ∧ Room plat (hand user).core (.g 1) ∧
    (∀ size ∈ [4, 8], reach 0 0x8000 size 3 plat (hand user).core = .ok (0x8000, (hand user).core) ∧
      ∀ op ∈ [AmoOp.swap, .cas, .inc], let a := amoAt user.party op 0x8000 size 7 0 .acqRel .system
        a plat (hand user).core = .ok (⟨0, none⟩, after a plat (hand user).core) ∧ Room plat (after a plat (hand user).core) (.g 1)) := by
  refine ⟨inHand rfl, .inl rfl, stillIs (by decide +kernel), stillIs (by decide +kernel), stillIs (by decide +kernel),
    stillIs (by decide +kernel), fun size hs => ⟨stillIs ?_, fun op ho => ⟨runs ?_, stillIs ?_⟩⟩⟩
  · revert size; decide +kernel
  · revert op size; decide +kernel
  · revert op size; decide +kernel

theorem witness_AtomicsOnMemory : (hand user).core.mem.wf = true ∧
    (∀ size ∈ [4, 8], PlainCell plat (hand user).core 0 0x8000 3 size 0x8000 (after (locate 0 0x8000 3 size) plat (hand user).core) ∧
      (after (locate 0 0x8000 3 size) plat (hand user).core).mem.isPoison 0x8000 = false ∧ 7 < 2 ^ (8 * size) ∧
      ∀ l ∈ (after (locate 0 0x8000 3 size) plat (hand user).core).l2, l.task = none) ∧
    layerGone plat 0x8000 = false ∧ NothingOwn (hand user).core user.party ∧ ¬ inLog plat (hand user).core 0 0x8000 := by
  refine ⟨by decide +kernel, fun size hs => ⟨plain rfl ?_, ?_⟩, by decide +kernel, (fun _ => nothingSent), ?_⟩
  · revert size; decide +kernel
  · revert size; decide +kernel
  · unfold inLog; decide +kernel

/-! ### Witnesses: fences, segments, the stash, messages -/

/-- A store of the strand in hand to a multicast page, on its way. -/
def unreturned : Core := { world with multicasts := [⟨key, 0, 0, 0x10000, 0, 0x8000, 0x8000, 8, 5, false, 0⟩] }

theorem witness_FencesComplete : InHand (hand user) 0 key 0 none user ∧ user.ops = [] ∧
    (∀ rel ∈ [false, true], ∀ scope ∈ [Scope.strand, .package, .system], fenceApertures rel scope plat ((hand user).core.passed key) =
      .ok ((), after (fenceApertures rel scope) plat ((hand user).core.passed key))) ∧ NothingSent (hand user).core key ∧
    InHand (hand user unreturned) 0 key 0 none user ∧ ¬ NothingSent (hand user unreturned).core key ∧
    (∀ e ∈ (hand user).core.stations, e.2.entries = [] ∧ e.2.l1 = []) ∧ user.engines = 0 ∧ user.fenceTrap = none ∧
    InHand (hand { user with engines := 1 }) 0 key 0 none { user with engines := 1 } ∧
    InHand (hand (busy 1)) 0 key 0 none (busy 1) ∧ (busy 1).ops ≠ [] ∧ (busy 1).window ≠ 0 ∧
    InHand (hand { user with engTrap := 0x07 }) 0 key 0 none { user with engTrap := 0x07 } ∧ user.sup = false :=
  ⟨inHand rfl, rfl, (fun rel hr scope hs => ranUnit (by revert rel scope; decide +kernel)), nothingSent, inHand rfl,
    (fun h => absurd rfl (h.1 _ (.head _))), (fun _ h => nomatch h), rfl, by decide +kernel, inHand rfl, inHand rfl,
    by decide, by decide, inHand rfl, by decide⟩

theorem witness_SegmentsComplete : InHand (hand chief) 0 key 0 none chief ∧ SegReady chief 0 ∧ SegReady chief 7 ∧
    MayIssue chief [] false ∧ Reads plat (hand chief).core (.g 3) 0x8000 (hand chief).core ∧
    Reads plat (hand chief).core (.g 5) 256 (hand chief).core ∧ 0x8000 + 256 ≤ chief.segs[0].limit.toNat ∧
    chief.segs[7].limit.toNat < 0x8000 + 256 ∧ chief.sup = true ∧ 0x8000 % 8 = 0 ∧ mgmtMeets 0x8000 24 = false ∧
    loadDescriptor chief.homeParty 0x8000 plat (hand chief).core =
      .ok (some ⟨0, 0, 0⟩, after (loadDescriptor chief.homeParty 0x8000) plat (hand chief).core) ∧
    segstAccess 0x8000 chief.segs[0] plat (hand chief).core =
      .ok (⟨0, none⟩, after (segstAccess 0x8000 chief.segs[0]) plat (hand chief).core) ∧
    Room plat (hand chief).core (.g 1) ∧ NothingSent (hand chief).core key :=
  ⟨inHand rfl, by unfold SegReady; decide, by unfold SegReady; decide, .inl rfl, stillIs (by decide +kernel),
    stillIs (by decide +kernel), by decide, by decide, by decide, by decide, by decide +kernel, runs (by decide +kernel),
    runs (by decide +kernel), stillIs (by decide +kernel), nothingSent⟩

/-- A descriptor at 0x8000 whose base is not canonical, and one with a reserved right. -/
theorem witness_SegmentsComplete_refused : ∀ e ∈ [((0x8000 : Nat), (0x00FFFFFFFFFFFFF8 : Word)), (0x8010, 0x40), (0x8010, 0x100000000)],
    let c := (hand chief { world with mem := worldMem.write64 e.1 e.2 }).core
    let a (n : Nat) : Act Loaded := loadAt chief.homeParty n 8
    let c4 := after (a 0x8000) plat c
    let c5 := after (a 0x8008) plat c4
    let b := (gives (a 0x8000) plat c ⟨0, none⟩).value
    let r := (gives (a 0x8010) plat c5 ⟨0, none⟩).value
    InHand (hand chief { world with mem := worldMem.write64 e.1 e.2 }) 0 key 0 none chief ∧
      Reads plat c (.g 3) 0x8000 c ∧ a 0x8000 plat c = .ok (⟨b, none⟩, c4) ∧ a 0x8008 plat c4 = .ok (⟨0, none⟩, c5) ∧
      a 0x8010 plat c5 = .ok (⟨r, none⟩, after (a 0x8010) plat c5) ∧
      (canonical b = false ∨ r / 2 ^ 6 % 2 ^ 10 ≠ 0 ∨ r / 2 ^ 32 % 2 ^ 32 ≠ 0) ∧
      Reached (hand chief { world with mem := worldMem.write64 e.1 e.2 }) chief (.segld 0 0x8000) c (reachedLine plat 0 0x8000 c) := by
  intro e he
  refine ⟨inHand rfl, stillIs ?_, runs ?_, runs ?_, runs ?_, ?_, ?_, rfl⟩ <;> revert e <;> decide +kernel

/-- A strand whose segment 0 may be mapped into the stash. -/
def mapper : Strand := { user with segs := user.segs.set 0 ⟨0, 0x20000, 0x17⟩ }

/-- A station of which entry 2 is a clean window and entry 3 an EMPTY one, each on a block of the job. -/
def windowWorld : Core := { world with stations := [(0, { Station.reset with
  entries := [⟨2, some (0, 0x8000), true, 0, none, 0, 0, 0, []⟩, ⟨3, some (0, 0x8100), false, 0, none, 0, 0, 0, []⟩] })] }

theorem witness_StashCompletes_quiet : ∀ c ∈ [(hand mapper).core, (hand mapper windowWorld).core], Quiet c 0 := by
  intro c hc
  refine ⟨fun i => ?_, ?_, ?_⟩
  · have : (c.stations.all fun s => s.2.copies.isEmpty) = true := by revert c; decide +kernel
    simp only [landing, List.any_eq_false]
    intro s hs
    have := List.all_eq_true.1 this s hs
    simp_all
  · revert c; decide +kernel
  · revert c; decide +kernel

theorem witness_StashCompletes : InHand (hand mapper) 0 key 0 none mapper ∧ MayIssue mapper [] false ∧
    Reads plat (hand mapper).core (.g 3) 0x8000 (hand mapper).core ∧ Reads plat (hand mapper).core (.g 5) 256 (hand mapper).core ∧
    Reads plat (hand mapper).core .zr 0 (hand mapper).core ∧ Reads plat (hand mapper).core (.g 2) 7 (hand mapper).core ∧
    (∀ op ∈ [1, 2, 3], stashOpAccess op 0x8000 256 plat (hand mapper).core =
      .ok (⟨0, none⟩, after (stashOpAccess op 0x8000 256) plat (hand mapper).core)) ∧
    0x8000 % 256 = 0 ∧ 7 % 256 ≠ 0 ∧ mgmtMeets 0x8000 256 = false ∧ (∀ y ∈ ((hand mapper).core.station 0).entries, y.mapped = none) ∧
    SegReady mapper 0 ∧ mapper.segs[0].rights.getLsbD 0 = true ∧
    mapper.segs[0].rights.getLsbD 4 = true ∧ 0x8000 + 256 ≤ mapper.segs[0].limit.toNat ∧ mapper.segs[0].rights.getLsbD 5 = false ∧
    canonical 0x8000 = true ∧ canonical (0x8000 + 256 - 1) = true ∧
    smapAccess 0x8000 0x8000 256 plat (hand mapper).core =
      .ok (⟨0, none⟩, after (smapAccess 0x8000 0x8000 256) plat (hand mapper).core) ∧
    MayIssue mapper [.g 1] false ∧ Room plat (hand mapper).core (.g 1) ∧ 0x8000 < 2 ^ 20 ∧
    Reads plat (hand mapper).core (.g 6) 0x100000 (hand mapper).core ∧ 2 ^ 20 ≤ 0x100000 ∧ 2 ^ 20 < 0x100000 + 256 ∧
    (∀ i < 256 / 256, landing (hand mapper).core 0 (0x8000 / 256 + i) = false) ∧ InHand (hand user) 0 key 0 none user ∧
    SegReady user 0 ∧ user.segs[0].rights.getLsbD 4 = false ∧
    translateSeg ⟨0, 0x20000, 0x37⟩ 0x8000 256 1 false = .error (causeSeg, 0x8000) ∧
    translateSeg ⟨0x80, 0x20000, 0x17⟩ 0x8000 256 1 false = .error (causeAlign, 0x8080) ∧
    translateSeg ⟨0x7FFFFFFFFF7F00, 0x20000, 0x17⟩ 0x8000 256 1 false = .ok 0x7FFFFFFFFFFF00 ∧
    canonical (0x7FFFFFFFFFFF00 + 512 - 1) = false ∧
    translateSeg ⟨0xFFFFFFFFFFFF7F00, 0x20000, 0x17⟩ 0x8000 256 1 false = .ok 0xFFFFFFFFFFFFFF00 ∧
    2 ^ 64 ≤ 0xFFFFFFFFFFFFFF00 + 512 - 1 :=
  ⟨inHand rfl, .inl rfl, stillIs (by decide +kernel), stillIs (by decide +kernel), stillIs (by decide +kernel),
    stillIs (by decide +kernel), (fun op ho => runs (by revert op; decide +kernel)), by decide, by decide, by decide +kernel,
    by decide +kernel, by unfold SegReady; decide, by decide, by decide, by decide, by decide, by decide, by decide, runs (by decide +kernel),
    .inl rfl, stillIs (by decide +kernel), by decide, stillIs (by decide +kernel), by decide, by decide, by decide +kernel, inHand rfl,
    by unfold SegReady; decide, by decide, sameIs (by decide +kernel), sameIs (by decide +kernel), sameIs (by decide +kernel),
    by decide, sameIs (by decide +kernel), by decide⟩

theorem witness_MessagesComplete : InHand (hand user) 0 key 0 none user ∧ MayIssue user [] false ∧
    Reads plat (hand user).core (.g 3) 0x8000 (hand user).core ∧ Reads plat (hand user).core (.g 7) 1 (hand user).core ∧
    0x8000 % 1024 = 0 ∧ Reads plat (hand user).core (.g 2) 7 (hand user).core ∧ 7 % 1024 ≠ 0 ∧
    Reads plat (hand user).core .zr 0 (hand user).core ∧ (0 : Nat) = 0 / 160 ∧ (1 : Nat) ≠ 0 / 160 ∧ user.pinned = false ∧
    InHand (hand { user with mode := 2 }) 0 key 0 none { user with mode := 2 } ∧ ({ user with mode := 2 } : Strand).pinned = true ∧
    MayIssue user [.g 1] false ∧ Room plat (hand user).core (.g 1) :=
  ⟨inHand rfl, .inl rfl, stillIs (by decide +kernel), stillIs (by decide +kernel), by decide, stillIs (by decide +kernel),
    by decide, stillIs (by decide +kernel), rfl, by decide, by decide, inHand rfl, by decide, .inl rfl,
    stillIs (by decide +kernel)⟩

/-! ### Witnesses: traps and the supervisor -/

theorem witness_SoftwareTrapsEnter : InHand (hand user) 0 key 0 none user ∧ user.sup = false ∧ user.ops = [] ∧
    InHand (hand chief) 0 key 0 none chief ∧ chief.sup = true ∧ chief.ops = [] :=
  ⟨inHand rfl, by decide, rfl, inHand rfl, by decide, rfl⟩

/-- A supervisor strand that returns to the last word of the address space. -/
def returning : Strand := { chief with epc := 0xFFFFFFFFFFFFFFFC, savedMode := 8 }

theorem witness_EretReturns : InHand (hand returning) 0 key 0 none returning ∧ returning.sup = true ∧ returning.ops = [] ∧
    returning.lines.contains 9 = true ∧ returning.badLines.contains 9 = false ∧ returning.epc.toNat ≤ 2 ^ 64 - 4 ∧
    returning.epc.toNat % 4 = 0 ∧ pinnedSlots (hand returning).core returning.station < 12 :=
  ⟨inHand rfl, by decide, rfl, by decide, by decide, by decide, by decide, by decide +kernel⟩

/-- Twelve pinned strands hold the station's other slots. -/
def crowd (x : Strand) : Core := { world with
  strands := x :: (List.range 12).map fun i => { Strand.fresh ⟨0, 0x100000 + 0x400 * i⟩ 0 with place := .slotted (i + 1), mode := 2 } }
def repinning : Strand := { returning with savedMode := 2 }

theorem witness_EretReturns_pin : (let c := crowd repinning
    c.strand? key = some repinning ∧ repinning.savedMode.getLsbD 1 = true ∧ repinning.pinned = false ∧
      repinning.place = .slotted 0 ∧ 12 ≤ pinnedSlots c repinning.station) := by
  decide +kernel

theorem witness_PrivilegedTraps : InHand (hand user) 0 key 0 none user ∧ user.sup = false ∧
    (0x11#8).toNat ∈ [0x06, 0x07, 0x08, 0x0A, 0x0B, 0x0E, 0x0F, 0x10, 0x11] ∧
    (0x09#8).toNat ∉ [0x06, 0x07, 0x08, 0x0A, 0x0B, 0x0E, 0x0F, 0x10, 0x11] ∧ (0x10#8).toNat ∉ [0x0E, 0x0F] ∧
    wcxIndex (20#8).toNat = true ∧ (127#8).toNat < 128 ∧ wcxIndex (127#8).toNat = false ∧ wcxIndex (21#8).toNat = false ∧
    wcxIndex (128#8).toNat = false ∧ wcxIndex (255#8).toNat = false ∧ (0x11#8).toNat ≤ 0x11 ∧ 18 ≤ (18#8).toNat ∧
    128 ≤ (128#8).toNat ∧ ([0xF0104120#32, 0xF0005120#32, 0xF0106800#32].all fun w => decide (fieldAt 26 6 w = 0x3C#6 ∧
      ((fieldAt 12 4 w = 4#4 ∨ fieldAt 12 4 w = 5#4) ∧ 0x11 < (fieldAt 4 8 w).toNat ∨
        fieldAt 12 4 w = 6#4 ∧ 127 < (fieldAt 4 8 w).toNat))) = true :=
  ⟨inHand rfl, by decide, by decide, by decide, by decide, by decide, by decide, by decide, by decide, by decide, by decide,
    by decide, by decide, by decide, by decide +kernel⟩

theorem witness_SystemRegisters : InHand (hand chief) 0 key 0 none chief ∧ chief.ops = [] ∧ chief.lines.contains 9 = true ∧
    chief.badLines.contains 9 = false ∧ Room plat (hand chief).core (.g 1) ∧ chief.sup = true ∧
    Reads plat (hand chief).core (.g 3) 0x8000 (hand chief).core ∧ (0x8000 : Word).toNat % 4 = 0 ∧
    Reads plat (hand chief).core (.g 7) 1 (hand chief).core ∧ (1 : Word).toNat ≤ 4 ∧
    Reads plat (hand chief).core (.g 2) 7 (hand chief).core ∧ 4 < (7 : Word).toNat ∧ (7 : Word).toNat % 4 ≠ 0 ∧
    0x11 < (0x12#8).toNat ∧ (∀ e ∈ jobValues, Room plat (jobReached plat (hand chief).core key.job e.2.1) (.g 1)) :=
  ⟨inHand rfl, rfl, by decide, by decide, stillIs (by decide +kernel), by decide, stillIs (by decide +kernel), by decide,
    stillIs (by decide +kernel), by decide, stillIs (by decide +kernel), by decide, by decide, by decide, fun e he => stillIs (by revert e; decide +kernel)⟩

/-- The strand at station 5, which the job's map does not name; station 0 is the job's station 0. -/
def elsewhere : State := ⟨{ world with strands := [chief], work := .strand 5 0 key 0 none }, plat, [], 0⟩

theorem witness_SystemRegisters_lid : logicalOf plat (hand chief).core key.job 0 = some 0 ∧
    InHand elsewhere 5 key 0 none chief ∧ logicalOf plat elsewhere.core key.job 5 = none ∧
    Room plat { elsewhere.core with freeNo := elsewhere.core.freeNo + 1 } (.g 1) :=
  ⟨by decide +kernel, ⟨⟨0, rfl⟩, by decide +kernel⟩, by decide +kernel, stillIs (by decide +kernel)⟩

/-- The record at 0x8000, no strand's, by `rcx`, `wcx` and `ctxflush`. -/
theorem witness_SupervisorCompletes : InHand (hand chief) 0 key 0 none chief ∧ MayIssue chief [.g 1] false ∧
    Room plat (hand chief).core (.g 1) ∧ chief.sup = true ∧ chief.ops = [] ∧ mgmtMeets 0x8000 1024 = false ∧
    Reads plat (hand chief).core (.g 3) 0x8000 (hand chief).core ∧ (0x8000 : Word).toNat % 1024 = 0 ∧
    rcxAccess 0x8000 127 plat (hand chief).core = .ok (⟨0, none⟩, after (rcxAccess 0x8000 127) plat (hand chief).core) ∧
    Room plat (after (rcxAccess 0x8000 127) plat (hand chief).core) (.g 1) ∧ MayIssue chief [] false ∧
    wcxIndex 20 = true ∧ wcxIndex 77 = true ∧ NothingSent (hand chief).core key ∧
    wcxAccess 0x8000 20 7 plat ((hand chief).core.passed key) =
      .ok (⟨0, none⟩, after (wcxAccess 0x8000 20 7) plat ((hand chief).core.passed key)) ∧
    (0x8000 : Word).toNat ≠ key.ctx ∧
    flushTarget ⟨0, 0x8000⟩ plat (hand chief).core = .ok (false, after (flushTarget ⟨0, 0x8000⟩) plat (hand chief).core) ∧
    key.ctx % 1024 = 0 :=
  ⟨inHand rfl, .inl rfl, stillIs (by decide +kernel), by decide, rfl, by decide +kernel, stillIs (by decide +kernel), by decide,
    runs (by decide +kernel), stillIs (by decide +kernel), .inl rfl, by decide, by decide, nothingSent,
    runs (by decide +kernel), by decide, runs (by decide +kernel), by decide⟩

/-! ### Witnesses: tasks and strands -/

/-- A package with further 64-bit words in memory. -/
def wordsAt (l : List (Nat × Word)) (c : Core := world) : Core := { c with mem := l.foldl (fun m e => m.write64 e.1 e.2) c.mem }

/-- A package in which job 0's cancel has been marked. -/
def cancelledWorld : Core := { world with cancelled := [0] }

/-- The pool with a single frame. -/
def smallPool : Core := wordsAt [(0x1038, 0x400)]

/-- The core after `takeCell` in the small pool, when the free value names cell `i`. -/
def cellTaken (c : Core) (i : Nat) : Core :=
  { c with freeNo := c.freeNo + 1, joinCells := ⟨0, 0x20000 + 64 * i⟩ :: c.joinCells }

theorem takeCell_small : ∃ i < 16, takeCell 0 0 plat (hand user smallPool).core =
    .ok (0x20000 + 64 * i, cellTaken (hand user smallPool).core i) := by
  refine ⟨(Config.freeWord 0).toNat % 16, Nat.mod_lt _ (by decide), ?_⟩
  have h1 : partialCells (hand user smallPool).core 0 = [] := by decide +kernel
  have h2 : freeFrames plat (hand user smallPool).core 0 = 1 := by decide +kernel
  have h3 : usedFrames plat (hand user smallPool).core 0 = [] := by decide +kernel
  have h4 : poolBase plat (hand user smallPool).core 0 = 0x20000 := by decide +kernel
  have h5 : (hand user smallPool).core.freeNo = 0 := rfl
  have h6 : ∀ c, partialCells { c with freeNo := c.freeNo + 1 } 0 = partialCells c 0 := fun _ => rfl
  simp [takeCell, freeValue, h1, h2, h3, h4, h5, Nat.mod_one, nthFree, cellTaken]

theorem quietly {k : Key} {l : List Core}
    (h : (l.all fun c => c.multicasts.isEmpty && c.decrements.isEmpty && c.members.isEmpty) = true := by decide +kernel) :
    ∀ c ∈ l, NothingSent c k :=
  fun c hc => nothingSent (List.all_eq_true.1 h c hc)

theorem witness_ForkRecruits : InHand (hand user) 0 key 0 none user ∧ MayIssue user [.g 4, .g 1, .g 2] false ∧ user.ops = [] ∧
    Reads plat (hand user).core (.g 7) 1 (hand user).core ∧ Reads plat (hand user).core .zr 0 (hand user).core ∧
    (hand user).core.cancelled.contains key.job = false ∧ (∀ c ∈ [(hand user).core, (hand user smallPool).core], NothingSent c key) ∧
    InHand (hand user cancelledWorld) 0 key 0 none user ∧ (hand user cancelledWorld).core.cancelled.contains key.job = true ∧
    Reads plat (hand user cancelledWorld).core (.g 7) 1 (hand user cancelledWorld).core ∧
    Reads plat (hand user).core (.g 5) 256 (hand user).core ∧ poolHolds plat (hand user).core 0 (256 - 1) = false ∧
    jobField plat (hand user).core 0 0x20 % 65536 = 0 ∧ ceilDiv (ceilDiv 256 1) (min (ceilDiv 256 1) 256) = 1 ∧
    ∀ c, Room plat c (.g 4) :=
  ⟨inHand rfl, .inl rfl, rfl, stillIs (by decide +kernel), stillIs (by decide +kernel), by decide +kernel, quietly, inHand rfl,
    by decide +kernel, stillIs (by decide +kernel), stillIs (by decide +kernel), by decide +kernel, by decide +kernel,
    by decide +kernel, fun _ => rfl⟩

/-- A range of one trip in a pool of one frame: a cell is taken and written, whichever the free value names. -/
theorem witness_ForkRecruits_cell : InHand (hand user smallPool) 0 key 0 none user ∧
    Reads plat (hand user smallPool).core (.g 7) 1 (hand user smallPool).core ∧
    poolHolds plat (hand user smallPool).core 0 (1 - 1) = true ∧
    ∃ cell c2 c3 c4, takeCell 0 (1 - 1) plat (hand user smallPool).core = .ok (cell, c2) ∧
      writeGlobal user.homeParty cell (eBytes 8 1 ++ eBytes 8 key.ctx ++ eBytes 48 0) plat c2 = .ok ((), c3) ∧
      evictFor 0 (forkPlaces plat (hand user smallPool).core 0 0 (1 - 1)) plat c3 = .ok ((), c4) := by
  refine ⟨inHand rfl, stillIs (by decide +kernel), by decide +kernel, ?_⟩
  obtain ⟨i, hi, h⟩ := takeCell_small
  refine ⟨_, _, _, _, h, ranUnit ?_, rfl⟩
  revert i
  have : ∀ i < 16, ok (writeGlobal user.homeParty (0x20000 + 64 * i) (eBytes 8 1 ++ eBytes 8 key.ctx ++ eBytes 48 0)) plat
      (cellTaken (hand user smallPool).core i) = true := by decide +kernel
  exact fun i hi _ => this i hi

/-- A live join cell at 0x8000 with a count. -/
def joined (n : Nat) : Core := { wordsAt [(0x8000, BitVec.ofNat 64 n)] with joinCells := [⟨0, 0x8000⟩] }

theorem witness_JoinCompletes : InHand (hand user) 0 key 0 none user ∧ MayIssue user [] false ∧
    NothingSent (hand user (joined 2)).core key ∧
    Reads plat (hand user).core .zr 0 (hand user).core ∧ (0 : Word).toInt ≤ 0 ∧
    Reads plat (hand user).core (.g 2) 7 (hand user).core ∧ (0 : Int) < (7 : Word).toInt ∧
    (hand user).core.joinCells.contains ⟨0, 7⟩ = false ∧ (0 : Int) < (0x8000 : Word).toInt ∧ 0x8000 % 64 = 0 ∧
    (∀ n ∈ [1, 2], InHand (hand user (joined n)) 0 key 0 none user ∧
      Reads plat (hand user (joined n)).core (.g 3) 0x8000 (hand user (joined n)).core ∧
      (hand user (joined n)).core.joinCells.contains ⟨0, 0x8000⟩ = true ∧
      (let a := amoAt user.homeParty .add 0x8000 8 (2 ^ 64 - 1) 0 .acqRel .package
       a plat (hand user (joined n)).core = .ok (⟨n, none⟩, after a plat (hand user (joined n)).core))) ∧
    (1 : Int) < (BitVec.ofNat 64 2).toInt ∧ (BitVec.ofNat 64 1).toInt ≤ 1 ∧
    InHand (hand (busy 1) (joined 1)) 0 key 0 none (busy 1) ∧ (busy 1).ops ≠ [] := by
  refine ⟨inHand rfl, .inl rfl, nothingSent, stillIs (by decide +kernel), by decide, stillIs (by decide +kernel), by decide,
    by decide +kernel, by decide, by decide, fun n hn => ⟨inHand rfl, stillIs ?_, by rfl, runs ?_⟩, by decide, by decide, inHand rfl, by decide⟩ <;>
    revert n <;> decide +kernel

theorem witness_SpawnCompletes : InHand (hand user) 0 key 0 none user ∧ MayIssue user [.g 1] false ∧
    Reads plat (hand user).core (.g 3) 0x8000 (hand user).core ∧ Reads plat (hand user).core (.g 2) 7 (hand user).core ∧
    0x8000 % 4 = 0 ∧ 7 % 4 ≠ 0 ∧ Room plat (hand user).core (.g 1) ∧ NothingSent (hand user).core key ∧ (hand user).core.cancelled.contains key.job = false ∧
    freeFrames plat (hand user).core 0 = 8 ∧ freeFrames plat (wordsAt [(0x1038, 0)]) 0 = 0 ∧
    evictFor key.job [0] plat (hand user).core = .ok ((), (hand user).core) ∧ (∀ c, Room plat c (.g 1)) ∧
    InHand (hand user cancelledWorld) 0 key 0 none user ∧ (hand user cancelledWorld).core.cancelled.contains key.job = true :=
  ⟨inHand rfl, .inl rfl, stillIs (by decide +kernel), stillIs (by decide +kernel), by decide, by decide,
    stillIs (by decide +kernel), nothingSent, by decide +kernel, by decide +kernel, by decide +kernel, rfl, fun _ => rfl, inHand rfl,
    by decide +kernel⟩

theorem witness_StrandControlCompletes : InHand (hand user) 0 key 0 none user ∧ MayIssue user [] false ∧ user.ops = [] ∧
    user.engines = 0 ∧ InHand (hand (busy 1)) 0 key 0 none (busy 1) ∧ MayIssue (busy 1) [] false ∧ (busy 1).ops ≠ [] ∧
    Reads plat (hand user).core (.g 3) 0x8000 (hand user).core ∧ 0x8000 % 1024 = 0 ∧
    Reads plat (hand user).core (.g 2) 7 (hand user).core ∧ 7 % 1024 ≠ 0 :=
  ⟨inHand rfl, .inl rfl, rfl, rfl, inHand rfl, .inr (by decide), by decide, stillIs (by decide +kernel), by decide,
    stillIs (by decide +kernel), by decide⟩

/-- The record at 0x8000: count 0, or 1. -/
theorem witness_TailAndGdecComplete : InHand (hand user) 0 key 0 none user ∧ MayIssue user [] false ∧
    Reads plat (hand user).core (.g 3) 0x8000 (hand user).core ∧ 0x8000 % 128 = 0 ∧ mgmtMeets 0x8000 128 = false ∧
    Reads plat (hand user).core (.g 2) 7 (hand user).core ∧ 7 % 128 ≠ 0 ∧
    (∀ n ∈ [0, 1], InHand (hand user (wordsAt [(0x8000, BitVec.ofNat 64 n)])) 0 key 0 none user ∧
      (let a := readNum user.homeParty 0x8000 4; let b := readNum user.homeParty 0x8007 1; let d := readNum user.homeParty 0x8058 4
       let c := (hand user (wordsAt [(0x8000, BitVec.ofNat 64 n)])).core
       a plat c = .ok (n, after a plat c) ∧ b plat (after a plat c) = .ok (0, after b plat (after a plat c)) ∧
         d plat (after b plat (after a plat c)) = .ok (0, after d plat (after b plat (after a plat c)))) ∧
      Reached (hand user (wordsAt [(0x8000, BitVec.ofNat 64 n)])) user (.tail 0x8000) (hand user (wordsAt [(0x8000, BitVec.ofNat 64 n)])).core
        (reachedLine plat 0 0x8000 (hand user (wordsAt [(0x8000, BitVec.ofNat 64 n)])).core)) ∧ NothingSent (hand user).core key ∧
    locate 0 0x8000 3 8 plat (hand user).core =
      .ok (.cell 0x8000 false, after (locate 0 0x8000 3 8) plat (hand user).core) := by
  refine ⟨inHand rfl, .inl rfl, stillIs (by decide +kernel), by decide, by decide +kernel, stillIs (by decide +kernel), by decide,
    fun n hn => ⟨inHand rfl, ⟨runs ?_, runs ?_, runs ?_⟩, ?_, rfl⟩, nothingSent, runs (by decide +kernel)⟩ <;> revert n <;> decide +kernel

/-- A queue at 0x8000 with its ring at 0x8040, of a capacity and with counts of puts and takes. -/
def queueWorld (capacity puts takes : Word) : Core :=
  wordsAt [(0x8000, 0x8040), (0x8008, capacity), (0x8010, puts), (0x8018, takes)]

/-- The core in which a queue's header has been read. -/
def headed (c : Core) : Core := after (queueHead user.homeParty 0x8000) plat (after (queueHome 0 0x8000) plat c)

theorem witness_QueuesComplete : (∀ e ∈ [(3, 0, 0), (2, 2, 0), (2, 1, 0), (65536, 0, 0)],
      let c := (hand user (queueWorld (BitVec.ofNat 64 e.1) (BitVec.ofNat 64 e.2.1) (BitVec.ofNat 64 e.2.2))).core
      InHand (hand user (queueWorld (BitVec.ofNat 64 e.1) (BitVec.ofNat 64 e.2.1) (BitVec.ofNat 64 e.2.2))) 0 key 0 none user ∧
      Reads plat c (.g 3) 0x8000 c ∧ Reads plat c (.g 2) 7 c ∧
      queueHome 0 0x8000 plat c = .ok (0x8000, after (queueHome 0 0x8000) plat c) ∧
      queueHead user.homeParty 0x8000 plat (after (queueHome 0 0x8000) plat c) =
        .ok (⟨0x8040, e.1, e.2.1, e.2.2, none⟩, headed c) ∧
      Reached (hand user (queueWorld (BitVec.ofNat 64 e.1) (BitVec.ofNat 64 e.2.1) (BitVec.ofNat 64 e.2.2))) user (.qput 0x8000 7) c
        (reachedLine plat 0 0x8000 c) ∧
      Reached (hand user (queueWorld (BitVec.ofNat 64 e.1) (BitVec.ofNat 64 e.2.1) (BitVec.ofNat 64 e.2.2))) user (.qtake 0x8000) c
        (reachedLine plat 0 0x8000 c) ∧ NothingSent c key) ∧
    0x8000 % 64 = 0 ∧ mgmtMeets 0x8000 64 = false ∧ MayIssue user [] false ∧ MayIssue user [.g 1] false ∧ powerOfTwo 3 2 65536 = false ∧
    powerOfTwo 2 2 65536 = true ∧ powerOfTwo 65536 2 65536 = true ∧ (2 + 2 ^ 64 - 0) % 2 ^ 64 = 2 ∧ (1 + 2 ^ 64 - 0) % 2 ^ 64 ≠ 2 ∧
    (let c := headed (hand user (queueWorld 2 1 0)).core
     let a := storeAt user.homeParty 0x8048 8 7
     let b := storeAt user.homeParty 0x8010 8 2
     let d := loadAt user.homeParty 0x8040 8
     let f := storeAt user.homeParty 0x8018 8 1
     a plat c = .ok ((), after a plat c) ∧ b plat (after a plat c) = .ok ((), after b plat (after a plat c)) ∧
       d plat c = .ok (⟨0, none⟩, after d plat c) ∧ f plat (after d plat c) = .ok ((), after f plat (after d plat c)) ∧
       Room plat (after f plat (after d plat c)) (.g 1)) := by
  refine ⟨fun e he => ⟨inHand rfl, stillIs ?_, stillIs ?_, runs ?_, runs ?_, ⟨?_, rfl⟩, ⟨?_, rfl⟩, nothingSent ?_⟩, by decide, by decide +kernel, .inl rfl, .inl rfl, by decide +kernel,
    by decide +kernel, by decide +kernel, by decide, by decide, ranUnit (by decide +kernel), ranUnit (by decide +kernel),
    runs (by decide +kernel), ranUnit (by decide +kernel), stillIs (by decide +kernel)⟩ <;> revert e <;> decide +kernel

theorem witness_CancelCompletes : InHand (hand user) 0 key 0 none user ∧ MayIssue user [] false ∧
    (∀ r ∈ (hand user).core.ready, r.job ≠ 0) ∧ (∀ g ∈ (hand user).core.placing, g.job ≠ 0) ∧ user.live = true :=
  ⟨inHand rfl, .inl rfl, (fun _ h => nomatch h), (fun _ h => nomatch h), by decide⟩

/-! ### Witnesses: lineage -/

/-- A lineage table of two records at 0x9000; record 1 is a speculative root of generation 5. -/
def lineageWorld : Core := wordsAt [(0x1040, 0x9000), (0x1048, 2), (0x9060, 0x10000), (0x9068, 5)]

/-- A member that gives a value, and one that fails. -/
def member (op : LinOp) (h y : Nat) : Act (Except LinFail Int) := settled user.homeParty (linMember user.homeParty false op h y)

theorem givesMember {op : LinOp} {h y : Nat} {c : Core} {v : Int}
    (hm : (match member op h y plat c with | .ok (.ok x, _) => decide (x = v) | _ => false) = true) :
    settled user.homeParty (linMember user.homeParty false op h y) plat c = .ok (.ok v, after (member op h y) plat c) := by
  unfold after
  show member op h y plat c = _
  cases hr : member op h y plat c with
  | ok r =>
    rw [hr] at hm
    obtain ⟨a, b⟩ := r
    cases a with
    | ok x => simp only [decide_eq_true_eq] at hm; rw [hm]
    | error e => simp at hm
  | error e => rw [hr] at hm; simp at hm

theorem failsMember {op : LinOp} {h y : Nat} {c : Core} {x : LinFail}
    (hm : (match member op h y plat c with | .ok (.error e, _) => decide (e = x) | _ => false) = true) :
    settled user.homeParty (linMember user.homeParty false op h y) plat c = .ok (.error x, after (member op h y) plat c) := by
  unfold after
  show member op h y plat c = _
  cases hr : member op h y plat c with
  | ok r =>
    rw [hr] at hm
    obtain ⟨a, b⟩ := r
    cases a with
    | error e => simp only [decide_eq_true_eq] at hm; rw [hm]
    | ok v => simp at hm
  | error e => rw [hr] at hm; simp at hm

theorem noMember {c : Core} {k : Key} {stamp : Nat} (h : c.members.isEmpty = true) : NoMember c k stamp := by
  intro r hr
  rw [List.isEmpty_iff.1 h] at hr
  exact nomatch hr

theorem witness_LineageCompletes : InHand (hand user lineageWorld) 0 key 0 none user ∧ MayIssue user [.g 1] true ∧
    user.dropped = none ∧ NothingSent (hand user lineageWorld).core key ∧ NoMember (hand user lineageWorld).core key user.issues ∧
    NoMember (after (member .info (5 * 2 ^ 48 + 1) 0) plat (hand user lineageWorld).core) key user.issues ∧
    NoMember (after (member .fork 7 0) plat (hand user lineageWorld).core) key user.issues ∧
    (let r := gives (rawNode user.homeParty 1) plat (hand user lineageWorld).core (nodeOf [], [])
     rawNode user.homeParty 1 plat (hand user lineageWorld).core =
         .ok ((r.1, r.2), after (rawNode user.homeParty 1) plat (hand user lineageWorld).core) ∧ longMember .info r.1 = false) ∧
    Reads plat (hand user lineageWorld).core (.g 2) 7 (hand user lineageWorld).core ∧
    Reads plat (hand user lineageWorld).core .zr 0 (hand user lineageWorld).core ∧ (7 : Word).toNat ≤ 8 ∧
    Reads plat (hand user lineageWorld).core (.g 5) 256 (hand user lineageWorld).core ∧ 8 < (256 : Word).toNat ∧
    settled user.homeParty (linMember user.homeParty false .info (5 * 2 ^ 48 + 1) 0) plat (hand user lineageWorld).core =
      .ok (.ok (5 * 2 ^ 32 + 2 ^ 16), after (member .info (5 * 2 ^ 48 + 1) 0) plat (hand user lineageWorld).core) ∧
    settled user.homeParty (linMember user.homeParty false .fork 7 0) plat (hand user lineageWorld).core =
      .ok (.error (.refuse (-3)), after (member .fork 7 0) plat (hand user lineageWorld).core) :=
  ⟨inHand rfl, .inl rfl, rfl, nothingSent, (fun _ h => nomatch h), noMember (by decide +kernel), noMember (by decide +kernel),
    ⟨ran (nodeOf [], []) (by decide +kernel), by decide +kernel⟩, stillIs (by decide +kernel), stillIs (by decide +kernel), by decide,
    stillIs (by decide +kernel), by decide, givesMember (by decide +kernel), failsMember (by decide +kernel)⟩

/-- Record 2 is a child of record 1, both EMPTY and of the shape at 0xE000, one FP32 element; the pool has one page. -/
def childWorld : Core := wordsAt [(0x1028, 1), (0x1040, 0x9000), (0x1048, 3 + 2 ^ 32), (0x1050, 0xA000), (0xA000, 0x100000),
  (0xE000, 1), (0xE008, 1 + 2 ^ 32), (0xE010, 1 + 2 ^ 32), (0x9048, 0xE000), (0x9060, 0x10006 + 2 ^ 32), (0x9068, 5),
  (0x9080, 5 * 2 ^ 48 + 1), (0x9088, 0xE000), (0x90A0, 0x10106), (0x90A8, 6)]

/-- A flatten of record 2. -/
def flattens : Act (Except LinFail Int) := settled user.homeParty (linMember user.homeParty false .flat (6 * 2 ^ 48 + 2) 0)

theorem flattened : flattens plat (hand user childWorld).core =
    .ok (gives flattens plat (hand user childWorld).core (.error (.lost none)), after flattens plat (hand user childWorld).core) := by
  have h : ok flattens plat (hand user childWorld).core = true := by decide +kernel
  exact ran _ h

theorem witness_LineageCompletes_long : InHand (hand user childWorld) 0 key 0 none user ∧
    NoMember (hand user childWorld).core key user.issues ∧
    (let c := (hand user childWorld).core
     let r := gives (rawNode user.homeParty 2) plat c (nodeOf [], [])
     let v := gives flattens plat c (.error (.lost none))
     (∃ n, v = .ok n) ∧ flattens plat c = .ok (v, after flattens plat c) ∧ lineageGoing (after flattens plat c) 0 = false ∧
     rawNode user.homeParty 2 plat c = .ok (r, after (rawNode user.homeParty 2) plat c) ∧ longMember .flat r.1 = true ∧
     busyNode user.homeParty 2 plat (after (rawNode user.homeParty 2) plat c) =
       .ok ((), after (busyNode user.homeParty 2) plat (after (rawNode user.homeParty 2) plat c))) := by
  refine ⟨inHand rfl, (fun _ h => nomatch h), ?_, flattened, by decide +kernel, ran (nodeOf [], []) (by decide +kernel), by decide +kernel,
    ranUnit (by decide +kernel)⟩
  have h : (match gives flattens plat (hand user childWorld).core (.error (.lost none)) with
    | .ok _ => true | .error _ => false) = true := by decide +kernel
  revert h
  cases gives flattens plat (hand user childWorld).core (.error (.lost none)) with
  | ok n => exact fun _ => ⟨n, rfl⟩
  | error e => exact fun h => by simp at h

/-! ### Witnesses: tile commands -/

/-- A tile command for the own station with capability 0 and the descriptors `w3` to `w7`. -/
def tcw (w2 w3 w4 w5 w6 : IWord) : Tcw := ⟨0, 0, 0xFFFF0000, w2, w3, w4, w5, w6, 0⟩

/-- A command of the strand in hand, with the register values that its descriptors name. -/
def cmd (op : Instr) (t : Tcw) (vals : Vector Word 5 := #v[0, 0, 0, 0, 0]) (seq : Nat := 0) : Cmd where
  op := op
  tcw := t
  job := 0
  ctx := 0x400
  task := 0
  issuer := 0
  station := 0
  vals := vals
  segs := user.segs
  rmode := 0
  sup := false
  node := none
  seq := seq
  addr := 0x10000
  page := none
  draws := none
  begun := none
  retry := none
  kept := []
  sources := []

/-- Station 0 with commands in the queue of an engine. -/
def queued (engine : Nat) (l : List Cmd) (c : Core := world) : Core :=
  { c with stations := [(0, { Station.reset with commands := Station.reset.commands.set! engine l })] }

/-- An engine's turn in hand. -/
def turn (unit : Nat) (c : Core) : State := ⟨{ c with work := .engine unit }, plat, [], 0⟩

/-- `vx.add` of 16 elements from stash offsets 0x100 and 0x200 to 0, with its completion in `g4`. -/
def addTcw : Tcw := tcw 0x04002000 0x30000000 0x30000100 0x30000200 0x20000010

theorem captureAll {p : Platform} {c : Core} {f : CmdForm} {t : Tcw} {v : Vector Word 5}
    (h : (still (captureLines f t) p c () && (List.finRange 5).all fun i => still (captureReg t i) p c v[i]) = true) :
    CanCapture p c f t v := by
  simp only [Bool.and_eq_true, List.all_eq_true] at h
  exact ⟨stillIs h.1, fun i => stillIs (h.2 i (List.mem_finRange i))⟩

theorem witness_PushEnqueues : InHand (hand user world (some addTcw)) 0 key 0 (some addTcw) user ∧
    MayIssue user ((statusReg addTcw).toList.map Reg.g) true ∧ statusReg addTcw = some 4 ∧
    targetStation plat (hand user world (some addTcw)).core key.job 0 addTcw = some 0 ∧
    tcwOffence vxBinaryForm addTcw true = none ∧
    CanCapture plat (hand user world (some addTcw)).core vxBinaryForm addTcw #v[0, 0, 0, 0, 0] ∧
    NothingSent (hand user world (some addTcw)).core key ∧ ((hand user world (some addTcw)).core.station 0).pkey = tcwCap addTcw ∧
    ((hand user world (some addTcw)).core.queue 0 vxBinaryForm.engine).length < 8 :=
  ⟨inHand rfl, .inl rfl, by decide +kernel, by decide +kernel, by decide +kernel, captureAll (by decide +kernel),
    nothingSent, by decide +kernel, by decide +kernel⟩

/-- A command whose destination is at `g3`, of the copy engine: its register is captured. -/
def fillTcw : Tcw := tcw 0 0x10000003 0x20000005 0x20000001 0

theorem witness_PushEnqueues_register : InHand (hand user world (some fillTcw)) 0 key 0 (some fillTcw) user ∧
    tcwOffence cpFillForm fillTcw true = none ∧
    CanCapture plat (hand user world (some fillTcw)).core cpFillForm fillTcw #v[0x8000, 0, 0, 0, 0] :=
  ⟨inHand rfl, by decide +kernel, captureAll (by decide +kernel)⟩

/-- Completion mode 5 offends in w2; a full queue; a station whose key is 9. -/
theorem witness_PushContained : InHand (hand user world (some (tcw 0x05000000 0 0 0 0))) 0 key 0 (some (tcw 0x05000000 0 0 0 0)) user ∧
    tcwOffence vxBinaryForm (tcw 0x05000000 0 0 0 0) true = some 2 ∧
    tcwOffence cpFillForm (tcw 0 0x10000003 0x20000005 0x20000001 1) true = some 6 ∧
    (let c := queued 4 (List.replicate 8 (cmd .vxAdd addTcw))
     InHand (hand user c (some addTcw)) 0 key 0 (some addTcw) user ∧
       targetStation plat (hand user c (some addTcw)).core key.job 0 addTcw = some 0 ∧
       CanCapture plat (hand user c (some addTcw)).core vxBinaryForm addTcw #v[0, 0, 0, 0, 0] ∧
       ((hand user c (some addTcw)).core.station 0).pkey = tcwCap addTcw ∧
       8 ≤ ((hand user c (some addTcw)).core.queue 0 vxBinaryForm.engine).length) ∧
    (let c := { world with stations := [(0, { Station.reset with pkey := 9 })] }
     InHand (hand user c (some addTcw)) 0 key 0 (some addTcw) user ∧
       CanCapture plat (hand user c (some addTcw)).core vxBinaryForm addTcw #v[0, 0, 0, 0, 0] ∧
       ((hand user c (some addTcw)).core.station 0).pkey ≠ tcwCap addTcw) :=
  ⟨inHand rfl, by decide +kernel, by decide +kernel, ⟨inHand rfl, by decide +kernel, captureAll (by decide +kernel),
    by decide +kernel, by decide +kernel⟩, inHand rfl, captureAll (by decide +kernel), by decide +kernel⟩

/-- Commands: `mx.zero` of an accumulator, `mx.ld` of one with a shape record at 0x8000, `rn.cfg` of slot 0. -/
def zeroCmd (n : Nat) : Cmd := cmd .mxZero (tcw 0 (BitVec.ofNat 32 (0x20000000 + n)) 0 0 0)
def loadCmd : Cmd := cmd .mxLd (tcw 0 0x20000000 0x50000003 0 0) #v[0, 0x8000, 0, 0, 0]
def seedCmd : Cmd := cmd .rnCfg (tcw 0 0x20000000 0 0 0)

/-- A package in which no page of job 0 is present. -/
def pageless : Core := wordsAt [(0x2000, 0)]

def zeroTurn (n : Nat) : State := turn 0 (queued 3 [zeroCmd n])

/-- What an attempt that ends a command, or begins it, leaves of the translation entries, and what it has read of its sources. -/
def leftTlb {α : Type} (a : Act α) (p : Platform) (c : Core) : List TlbEntry :=
  match a p c with
  | .error (.status _ _ _ l) => l
  | .error (.begin _ _ _ _ l) => l
  | _ => []

def readSources {α : Type} (a : Act α) (p : Platform) (c : Core) : List (Nat × List Byte) :=
  match a p c with
  | .error (.begin _ _ _ b _) => b
  | _ => []

theorem endsAs {α : Type} {a : Act α} {p : Platform} {c : Core} {code : Nat}
    (h : (match a p c with | .error (.status n 0 none _) => n == code | _ => false) = true) :
    a p c = .error (.status code 0 none (leftTlb a p c)) := by
  unfold leftTlb
  split at h
  · next hr => rw [hr]; simp at h; subst h; rfl
  · cases h

theorem beginsAs {α : Type} {a : Act α} {p : Platform} {c : Core} {node va state : Nat}
    (h : (match a p c with | .error (.begin n x y _ _) => n == node && x == va && y == state | _ => false) = true) :
    a p c = .error (.begin node va state (readSources a p c) (leftTlb a p c)) := by
  unfold leftTlb readSources
  split at h
  · next hr => rw [hr]; simp at h; obtain ⟨⟨rfl, rfl⟩, rfl⟩ := h; rfl
  · cases h

theorem witness_EngineTurnsComplete :
    (∀ n ∈ [0, 4], EngineTakes (zeroTurn n) .mxZero 0 mxZeroForm.engine mxZeroRun (zeroCmd n)
      (after (takeMatrix (zeroCmd n)) plat (zeroTurn n).core)) ∧
    (∃ f, mxZeroRun (zeroCmd 0) plat (after (takeMatrix (zeroCmd 0)) plat (zeroTurn 0).core) =
      .ok (f, after (mxZeroRun (zeroCmd 0)) plat (after (takeMatrix (zeroCmd 0)) plat (zeroTurn 0).core))) ∧
    (let c := after (takeMatrix (zeroCmd 4)) plat (zeroTurn 4).core
     let l := leftTlb (mxZeroRun (zeroCmd 4)) plat c
     mxZeroRun (zeroCmd 4) plat c = .error (.status 3 0 none l) ∧
       restoreBegun (zeroCmd 4) plat { c with tlb := l } = .ok ((), { c with tlb := l })) ∧
    (zeroCmd 4).begun = none := by
  refine ⟨fun n hn => ⟨rfl, rfl, .inr ⟨by simp [stationTable], ?_, fun h => absurd h (by decide), fun _ => ranUnit ?_⟩⟩,
    ⟨_, ran ⟨0, 0, none⟩ (by decide +kernel)⟩, ⟨endsAs (by decide +kernel), rfl⟩, rfl⟩ <;> revert n <;> decide +kernel

theorem witness_EngineTurnsComplete_page :
    let s := turn 0 (queued 3 [loadCmd] pageless)
    EngineTakes s .mxLd 0 mxLdForm.engine mxLdRun loadCmd (after (takeMatrix loadCmd) plat s.core) ∧
    mxLdRun loadCmd plat (after (takeMatrix loadCmd) plat s.core) = .error (.page 0 0x8000 1 64) := by
  refine ⟨⟨rfl, rfl, .inr ⟨by simp [stationTable], ?_, fun h => absurd h (by decide), fun _ => ranUnit ?_⟩⟩, stopped ?_⟩ <;>
    decide +kernel

theorem witness_EngineTurnsComplete_die :
    let s := turn 0 (queued 7 [seedCmd])
    EngineTakes s .rnCfg 0 rnCfgForm.engine rnCfgRun seedCmd (passTurn 0 7 seedCmd s.core) ∧
    ∃ f, rnCfgRun seedCmd plat (passTurn 0 7 seedCmd s.core) =
      .ok (f, after (rnCfgRun seedCmd) plat (passTurn 0 7 seedCmd s.core)) := by
  refine ⟨⟨rfl, rfl, .inl ⟨by simp [dieTable], ?_, rfl⟩⟩, _, ran ⟨0, 0, none⟩ ?_⟩ <;> decide +kernel

/-- A conversion of 16 elements under RSR, which reserves its draws first, and a truncation, which makes its node BUSY first. -/
def drawingCmd : Cmd := cmd .vxCvt (tcw 0 0x30000000 0x30000100 0x20004040 0x20000010)
def truncCmd : Cmd := cmd .lnTrunc (tcw 0 0x60000002 0x20000000 0 0) #v[0x0005000000000001, 0, 0, 0, 0]

theorem witness_EngineTurnsComplete_first :
    (let s := turn 0 (queued 4 [drawingCmd])
     EngineTakes s .vxCvt 0 vxCvtForm.engine vxCvtRun drawingCmd s.core ∧
       vxCvtRun drawingCmd plat s.core = .error (.reserve 16)) ∧
    (let s := turn 0 (queued 2 [truncCmd] lineageWorld)
     let c := passTurn 0 2 truncCmd s.core
     EngineTakes s .lnTrunc 0 lnTruncForm.engine lnTruncRun truncCmd c ∧
       let b := readSources (lnTruncRun truncCmd) plat c
       let c1 : Core := { c with tlb := leftTlb (lnTruncRun truncCmd) plat c }
       lnTruncRun truncCmd plat c = .error (.begin 1 0x9040 1 b c1.tlb) ∧
       beginNode truncCmd 1 0x9040 1 b plat c1 = .ok ((), after (beginNode truncCmd 1 0x9040 1 b) plat c1)) := by
  refine ⟨⟨⟨rfl, rfl, .inr ⟨by simp [stationTable], ?_, fun _ => rfl, fun h => absurd h (by decide)⟩⟩, stopped ?_⟩,
    ⟨rfl, rfl, .inl ⟨by simp [dieTable], ?_, rfl⟩⟩, beginsAs ?_, ranUnit ?_⟩ <;> decide +kernel

/-- `ln.wr` of one row in its second turn, its node BUSY with ACTIVE saved, of the shape at 0xE000, one FP32 element; its source
has been poisoned since. -/
def begunCmd : Cmd :=
  { cmd .lnWr (tcw 0 0x60000002 0x10000003 0x10000004 0x20000001) #v[0x0005000000000001, 0x8000, 0x8100, 0, 0] with begun := some 1 }
def begunWorld : Core :=
  let c := wordsAt [(0x1040, 0x9000), (0x1048, 2), (0x9048, 0xE000), (0x9060, 0x40006), (0x9068, 0x10005),
    (0xE000, 1), (0xE008, 1 + 2 ^ 32), (0xE010, 1 + 2 ^ 32)]
  { c with mem := c.mem.setPoison 0x8000 true }

theorem witness_EngineTurnsComplete_begun :
    let s := turn 0 (queued 2 [begunCmd] begunWorld)
    let c := passTurn 0 2 begunCmd s.core
    EngineTakes s .lnWr 0 lnWrForm.engine lnWrRun begunCmd c ∧
      let l := leftTlb (lnWrRun begunCmd) plat c
      let c1 : Core := { c with tlb := l }
      lnWrRun begunCmd plat c = .error (.status 3 0 none l) ∧
      restoreBegun begunCmd plat c1 = .ok ((), after (restoreBegun begunCmd) plat c1) ∧
      (after (restoreBegun begunCmd) plat c1).mem.read 0x9062 1 = 1 := by
  refine ⟨⟨rfl, rfl, .inl ⟨by simp [dieTable], ?_, rfl⟩⟩, endsAs ?_, ranUnit ?_, ?_⟩ <;> decide +kernel

def fillCmd : Cmd := cmd .cpFill fillTcw #v[0x8000, 0, 0, 0, 0]
/-- A fill of no words. -/
def emptyCmd : Cmd := cmd .cpFill (tcw 0 0x10000003 0x20000005 0x20000000 0) #v[0x8000, 0, 0, 0, 0]
def cancelCmd : Cmd := cmd .cpCancel (tcw 0 0x20000100 0 0 0) #v[0, 0, 0, 0, 0] 1

/-- A group table at 0xA000, of whose groups 0 is live. -/
def groupWorld : Core := wordsAt [(0x1070, 0xA000), (0xA008, 0x100)]

/-- `cl.bc` in a group. -/
def groupCmd (g : Nat) : Cmd := cmd .clBc (tcw 0 0x30000000 0x30000000 0x20000001 (BitVec.ofNat 32 (0x20000000 + g)))
def sampleCmd : Cmd := cmd .smRun (tcw 0 0x50000003 0x10000003 0x20000000 0) #v[0x8000, 0x8000, 0, 0, 0]

/-- The plan of the fill. -/
def fillPlan : CopyPlan :=
  match planAct fillCmd plat world with
  | .ok (.parts q, _) => q
  | _ => ⟨fillCmd, [], 0, none, false, none, 0, 0, 0, []⟩

/-- An outcome of one form: `g` of what `h` reads in it. -/
theorem outcome {α β : Type} {a : Act α} {p : Platform} {c : Core} (g : β → α) (h : α → Option β)
    (hg : ∀ x y, h x = some y → x = g y) (hb : (match a p c with | .ok r => (h r.1).isSome | .error _ => false) = true) :
    ∃ y, a p c = .ok (g y, after a p c) := by
  unfold after
  cases hr : a p c with
  | ok r =>
    rw [hr] at hb
    obtain ⟨y, hy⟩ := Option.isSome_iff_exists.1 hb
    exact ⟨y, by rw [← hg _ _ hy]⟩
  | error e => rw [hr] at hb; simp at hb

theorem partsOf {a : Act Planned} {p : Platform} {c : Core}
    (h : (match a p c with | .ok (.parts _, _) => true | _ => false) = true) : ∃ q, a p c = .ok (.parts q, after a p c) := by
  refine outcome Planned.parts (fun x => match x with | .parts q => some q | .ended _ => none) ?_ ?_
  · intro x y hx; cases x <;> simp_all
  · revert h; cases a p c with
    | ok r => obtain ⟨x, _⟩ := r; cases x <;> simp
    | error e => simp

theorem endedPlan {a : Act Planned} {p : Platform} {c : Core}
    (h : (match a p c with | .ok (.ended _, _) => true | _ => false) = true) : ∃ f, a p c = .ok (.ended f, after a p c) := by
  refine outcome Planned.ended (fun x => match x with | .ended f => some f | .parts _ => none) ?_ ?_
  · intro x y hx; cases x <;> simp_all
  · revert h; cases a p c with
    | ok r => obtain ⟨x, _⟩ := r; cases x <;> simp
    | error e => simp

theorem landedPart {a : Act Part} {p : Platform} {c : Core}
    (h : (match a p c with | .ok (.landed _ _, _) => true | _ => false) = true) :
    ∃ r : Nat × Option Nat, a p c = .ok (.landed r.1 r.2, after a p c) := by
  refine outcome (fun r : Nat × Option Nat => Part.landed r.1 r.2)
    (fun x => match x with | .landed n b => some (n, b) | .ended _ => none) ?_ ?_
  · intro x y hx
    cases x with
    | landed n b => cases hx; rfl
    | ended f => cases hx
  · revert h; cases a p c with
    | ok r => obtain ⟨x, _⟩ := r; cases x <;> simp
    | error e => simp

theorem witness_CopyLanternSconceTurns :
    (let s := turn 0 (queued 1 [fillCmd])
     copyStart s.core 0 .cpFill = some fillCmd ∧ (s.core.station 0).copies = []) ∧
    (let s := turn 0 { world with stations := [(0, { Station.reset with copies := [⟨fillCmd, none⟩] })] }
     let c : Core := { s.core with freeNo := s.core.freeNo + 1 }
     copyStart s.core 0 .cpFill = none ∧ (s.core.station 0).copies.filter (fun y => y.cmd.op == .cpFill && !y.cmd.waits s.core) =
         [⟨fillCmd, none⟩] ∧
       ∃ q, planAct fillCmd plat c = .ok (.parts q, after (planAct fillCmd) plat c)) ∧
    (let s := turn 0 { world with stations := [(0, { Station.reset with copies := [⟨emptyCmd, none⟩] })] }
     let c : Core := { s.core with freeNo := s.core.freeNo + 1 }
     ∃ f, planAct emptyCmd plat c = .ok (.ended f, after (planAct emptyCmd) plat c)) ∧
    (let s := turn 0 { world with stations := [(0, { Station.reset with copies := [⟨fillCmd, some fillPlan⟩] })] }
     let c : Core := { s.core with freeNo := s.core.freeNo + 1 }
     (s.core.station 0).copies.filter (fun y => y.cmd.op == .cpFill && !y.cmd.waits s.core) = [⟨fillCmd, some fillPlan⟩] ∧
       fillPlan.left = [0] ∧ ∃ r : Nat × Option Nat, partAct fillPlan 0 plat c = .ok (.landed r.1 r.2, after (partAct fillPlan 0) plat c)) ∧
    (let s := turn 0 (queued 1 [fillCmd, cancelCmd])
     (s.core.queue 0 1).find? (fun d => d.op == .cpCancel) = some cancelCmd ∧
       cpCancelRun cancelCmd plat s.core = .ok (⟨0, 1, none⟩, after (cpCancelRun cancelCmd) plat s.core)) ∧
    (∀ g ∈ [0, 1], dieNext plat (turn 0 (queued 5 [groupCmd g] groupWorld)).core 0 5 = some (groupCmd g)) ∧
    groupLive plat groupWorld 0 (groupOf (groupCmd 0)) = true ∧ groupLive plat groupWorld 0 (groupOf (groupCmd 1)) = false ∧
    (let s := turn 0 (queued 6 [sampleCmd])
     sconceBusy s.core 0 = none ∧ dieNext plat s.core 0 6 = some sampleCmd ∧
       ∃ r, smRunStart sampleCmd plat (passTurn 0 6 sampleCmd s.core) =
         .ok (r, after (smRunStart sampleCmd) plat (passTurn 0 6 sampleCmd s.core))) ∧
    (let x : Sampling := ⟨sampleCmd, 0, 0, none, none, []⟩
     let s := turn 0 { world with sampling := [x] }
     sconceBusy s.core 0 = some x ∧ smRunNext x plat s.core = .ok (.ended ⟨0, 0, none⟩, s.core)) := by
  refine ⟨⟨?_, ?_⟩, ⟨?_, ?_, partsOf ?_⟩, endedPlan ?_, ⟨?_, ?_, landedPart ?_⟩, ⟨?_, runs ?_⟩, ?_, ?_, ?_,
    ⟨?_, ?_, _, ran (.ended ⟨0, 0, none⟩) ?_⟩, ?_, stillIs ?_⟩ <;> decide +kernel

/-- A stash of plain entries, as a check. -/
def plainStash (z : Station) : Bool :=
  cellsFrom 0 z.stash && z.entries.all fun x => decide (x.mapped = none ∧ x.span = none ∧ x.poison = 0)

theorem isPlain {z : Station} (h : plainStash z = true) : PlainStash z := by
  simp only [plainStash, Bool.and_eq_true, List.all_eq_true, decide_eq_true_eq] at h
  exact h

/-- The value of an attempt that gives one, and the attempt. -/
def okOr {ε β : Type} (a : Act (Except ε β)) (p : Platform) (c : Core) (d : β) : β :=
  match a p c with
  | .ok (.ok y, _) => y
  | _ => d

theorem okRuns {ε β : Type} {a : Act (Except ε β)} {p : Platform} {c : Core} (d : β)
    (h : (match a p c with | .ok (.ok _, _) => true | _ => false) = true) : a p c = .ok (.ok (okOr a p c d), after a p c) := by
  unfold okOr after
  cases hr : a p c with
  | ok r =>
    obtain ⟨x, y⟩ := r
    cases x with
    | ok x => rfl
    | error e => rw [hr] at h; cases h
  | error e => rw [hr] at h; cases h

/-- A number as a further word of a tile command. -/
def word (n : Nat) : IWord := BitVec.ofNat 32 n

theorem takesVec {d : Cmd} {o n : Nat} (h : (stationNext (queued 4 [d]) 0 4 == some d && d.station == 0 && vecCount d == n &&
    decide (0 < n) && o % 4 == 0 && still (vecOffset d 0) plat (turn 0 (queued 4 [d])).core o) = true) :
    VecTakes (turn 0 (queued 4 [d])) 0 d d.op o n := by
  simp only [Bool.and_eq_true, beq_iff_eq, decide_eq_true_eq] at h
  obtain ⟨⟨⟨⟨⟨h1, h2⟩, h3⟩, h4⟩, h5⟩, h6⟩ := h
  exact ⟨rfl, h1, rfl, h2, h3.symm, h4, h5, stillIs h6, isPlain (by rfl)⟩

theorem sourceVec {d : Cmd} {i a m : Nat} (h : (a % 4 == 0 && decide (a + 4 * m ≤ 2 ^ 20) &&
    still (vecOffset d i) plat (turn 0 (queued 4 [d])).core a) = true) : VecSource (turn 0 (queued 4 [d])) d i a m := by
  simp only [Bool.and_eq_true, beq_iff_eq, decide_eq_true_eq] at h
  exact ⟨h.1.1, h.1.2, stillIs h.2⟩

/-- Every operation over 16 elements at 0, from 0x100 and 0x200; the comparisons with each predicate. -/
theorem witness_VectorElementwise :
    (∀ op ∈ [Instr.vxAdd, .vxSub, .vxMul, .vxFma, .vxMin, .vxMax, .vxSel, .vxCmp, .vxAbs, .vxNeg, .vxRcp, .vxRsqrt, .vxExp2, .vxLog2,
        .vxRsum, .vxRmax, .vxArgmax], ∀ y < 4, let d := cmd op { addTcw with flags := BitVec.ofNat 8 y }; let s := turn 0 (queued 4 [d])
      VecTakes s 0 d op 0 16 ∧ VecSource s d 1 0x100 16 ∧ VecSource s d 2 0x200 16 ∧ d.tcw.flags.toNat % 4 = y) ∧
    0 + 4 * 16 ≤ 0x100 ∧ 0 + 8 ≤ 0x100 ∧
    (∀ op ∈ [Instr.vxFill, .vxIota], let d := cmd op (tcw 0 0x30000000 0x20000007 0 0x20000010)
      VecTakes (turn 0 (queued 4 [d])) 0 d op 0 16) ∧
    (let d := cmd .vxGather addTcw; let s := turn 0 (queued 4 [d])
     VecTakes s 0 d .vxGather 0 16 ∧ vecOffset d 1 s.plat s.core = .ok (0x100, s.core) ∧ VecSource s d 2 0x200 16 ∧
       ∀ i < 16, 0x100 + 4 * stashWord (s.core.station 0) (0x200 + 4 * i) = 0x100) := by
  refine ⟨fun op ho y hy => ⟨takesVec ?_, sourceVec ?_, sourceVec ?_, ?_⟩, by decide, by decide, fun op ho => takesVec ?_, takesVec ?_,
    stillIs ?_, sourceVec ?_, ?_⟩
  all_goals first | (revert y; revert op; decide +kernel) | (revert op; decide +kernel) | decide +kernel

/-! ### Witnesses: what single operations leave -/

/-- The record of a binary32 tile of `r` rows of `k` elements in the stash at `o`. -/
def tileRecord (va k r o : Nat) : List (Nat × Word) :=
  [(va, 2 + 2 ^ 24), (va + 8, BitVec.ofNat 64 (k + r * 2 ^ 32)), (va + 16, 1 + 2 ^ 32), (va + 0x30, BitVec.ofNat 64 o)]
def tileShape (k r o : Nat) : Shape :=
  { rank := 2, format := 0, swizzleCode := 0, flags := 1, dims := [k, r, 1, 1], strides := [0, 0, 0], base := o, scale := 0 }
def tileWorld : Core := wordsAt (tileRecord 0x8000 2 3 0x40 ++ tileRecord 0x8040 4 2 0x80)
def tilesCmd (op : Instr) : Cmd := cmd op (tcw 0 0x20000001 0x50000003 0x50000004 0) #v[0, 0x8000, 0x8040, 0, 0]

theorem isTile {d : Cmd} {i k r o : Nat} {c : Core} (h : yields (d.shape i) plat c (tileShape k r o) = true)
    (h1 : 1 ≤ k ∧ 1 ≤ r ∧ o % 4 = 0 ∧ o + 4 * (r * k) ≤ 2 ^ 20) :
    StashTile d i plat c (tileShape k r o) (after (d.shape i) plat c) :=
  ⟨runs h, by simp [tileShape, Shape.stash], by show Nat.testBit 1 1 = false; decide, rfl, rfl, by unfold Shape.span tileShape; split <;> rfl, h1.1, h1.2.1, rfl, rfl, rfl, h1.2.2.1, h1.2.2.2⟩

theorem witness_MatrixEffects : ∀ e ∈ [(Instr.mxZero, mxZeroForm, mxZeroRun), (.mxLd, mxLdForm, mxLdRun), (.mxMma, mxMmaForm, mxMmaRun)],
    let d := tilesCmd e.1; let s := turn 0 (queued 3 [d] tileWorld); let c := after (takeMatrix d) plat s.core
    let c1 := after (d.shape 1) plat c; let c2 := after (d.shape 2) plat c1
    EngineTakes s e.1 0 e.2.1.engine e.2.2 d c ∧ d.number 0 = 1 ∧ d.station = 0 ∧ d.flag 0 = false ∧ d.flag 1 = false ∧ d.kind 3 = 0 ∧
      StashTile d 1 plat c (tileShape 2 3 0x40) c1 ∧ StashTile d 2 plat c1 (tileShape 4 2 0x80) c2 ∧ PlainStash (c1.station 0) ∧
      PlainStash (c2.station 0) := by
  intro e he
  simp only [List.mem_cons, List.not_mem_nil, or_false] at he
  obtain rfl | rfl | rfl := he <;>
  refine ⟨⟨rfl, rfl, .inr ⟨by simp [stationTable], ?_, fun h => absurd h (by decide), fun _ => ranUnit ?_⟩⟩, by decide +kernel, rfl,
    by decide, by decide, by decide, isTile ?_ (by decide), isTile ?_ (by decide), isPlain ?_, isPlain ?_⟩ <;> decide +kernel

/-- Slots of Ember's table at 0x8800, of which slot 1 is configured at 5 and has given nine tickets. -/
def emberWorld : Core := wordsAt [(0x1060, 0x8800), (0x1068, 2), (0x8880, 5), (0x8888, 9), (0x8898, 1)]
def drawCmd : Cmd := cmd .rnDraw (tcw 0 0x20000001 0x30000104 0x20000003 0)

theorem witness_DrawEffects :
    let s := turn 0 (queued 7 [drawCmd] emberWorld); let c := passTurn 0 7 drawCmd s.core
    let a := emberTake drawCmd 1 3; let c1 := after a plat c
    EngineTakes s .rnDraw 0 rnDrawForm.engine rnDrawRun drawCmd c ∧ drawCmd.kind 1 = 3 ∧ drawCmd.number 0 = 1 ∧ drawCmd.number 2 = 3 ∧
      bitsOf (descWord drawCmd.tcw 1) 0 20 = 0x104 ∧ (∃ y, a plat c = .ok (some y, c1)) ∧ PlainStash (c1.station drawCmd.station) := by
  refine ⟨⟨rfl, rfl, .inl ⟨by simp [dieTable], ?_, rfl⟩⟩, ?_, ?_, ?_, ?_, outcome some id (fun _ _ h => h) ?_, isPlain ?_⟩ <;> decide +kernel

/-- Record 1, of five rows with seven committed, BUSY for a truncation in its second turn, of the shape at 0xE000. -/
def cutWorld : Core := wordsAt [(0x1040, 0x9000), (0x1048, 2), (0x9048, 0xE000), (0x9058, 5 * 2 ^ 32), (0x9060, 0x040005), (0x9068, 0x10005),
  (0x9070, 7), (0xE000, 2), (0xE008, 1 + 8 * 2 ^ 32), (0xE010, 1 + 2 ^ 32)]
def cutCmd (t : Nat) : Cmd :=
  { cmd .lnTrunc (tcw 0 0x60000002 (word (0x20000000 + t)) 0 0) #v[0x0005000000000001, 0, 0, 0, 0] with begun := some 1 }

/-- Rows and committed rows above the count, committed rows alone, and neither. -/
theorem witness_TruncEffects : ∀ t ∈ [3, 6, 8],
    let d := cutCmd t; let s := turn 0 (queued 2 [d] cutWorld); let c := passTurn 0 2 d s.core
    let c1 := after (restoreNode d.party 1) plat c; let a := (cmdNode d 0).run; let y := okOr a plat c1 (0, nodeOf []); let c2 := after a plat c1
    let w := writeNode d.party y.1 { y.2 with rows := min y.2.rows t, committed := min y.2.committed t }
    EngineTakes s .lnTrunc 0 lnTruncForm.engine lnTruncRun d c ∧ d.begun = some 1 ∧ d.number 1 = t ∧
      restoreNode d.party 1 plat c = .ok ((), c1) ∧ a plat c1 = .ok (.ok y, c2) ∧ y.2.children = 0 ∧ y.2.rows = 5 ∧ y.2.committed = 7 ∧
      w plat c2 = .ok ((), after w plat c2) := by
  intro t ht
  refine ⟨⟨rfl, rfl, .inl ⟨by simp [dieTable], ?_, rfl⟩⟩, rfl, ?_, ranUnit ?_, okRuns _ ?_, ?_, ?_, ?_, ranUnit ?_⟩ <;> revert t <;>
    decide +kernel

/-- An open stream at 0xF000 on a pinned page: G, P and T 0, BG 3, four tokens owed, next frame 7; its nodes are records 1 and 2. The
frame's record is at 0xF100. -/
def streamWorld (number : Word) : Core := wordsAt [(0x2000, 0xA800000000000000), (0x1040, 0x9000), (0x1048, 3), (0x9048, 0xE000),
  (0x9060, 0x02010006), (0x9088, 0xE000), (0x90A0, 0x02010006), (0xE000, 2), (0xE008, 1 + 8 * 2 ^ 32), (0xE010, 1 + 2 ^ 32),
  (0xF018, 2 ^ 63 + 4 * 2 ^ 32 + 3), (0xF020, 1), (0xF028, 2), (0xF038, 7), (0xF100, number), (0xF110, 2 * 2 ^ 32)]
def openStream : StreamObj := ⟨0, 0, 0, 3, 4, true, 1, 2, 0, 7, List.replicate 8 0⟩
def frameCmd : Cmd := cmd .dxIn (tcw 0 0x10000003 0x10000004 0 0) #v[0xF000, 0xF100, 0, 0, 0]
def ackCmd : Cmd := cmd .dxAck (tcw 0 0x10000003 0x20000000 0 0) #v[0xF000, 0, 0, 0, 0]

/-- The next frame, and a late one. -/
theorem witness_StreamEffects : ∀ e ∈ [(7, { openStream with next := 8, owed := 6 }), (6, { openStream with fault := 2 * 2 ^ 56 + 2 ^ 48 + 6 })],
    let d := frameCmd; let s := turn 0 (queued 8 [d] (streamWorld (BitVec.ofNat 64 e.1))); let c := passTurn 0 8 d s.core
    let c1 := after (readFrame d) plat c; let c2 := after (streamObject d true) plat c1; let a := (streamNodes d openStream).run
    let c3 := after a plat c2; let w := writeStream d 0xF000 e.2; let c5 := after w plat c3
    let r := sendEvent ⟨homeDie 0xF000, 9, d.station, d.job, d.ctx, wordOf 0xF000, [wordOf 6, wordOf 0, 2]⟩
    EngineTakes s .dxIn 0 dxInForm.engine dxInRun d c ∧ d.offset 0 plat c = .ok (0xF000, c) ∧ d.covered 0xF000 128 3 = true ∧
      readFrame d plat c = .ok ((e.1, 0, 0, 2, 0), c1) ∧ streamObject d true plat c1 = .ok ((0xF000, openStream), c2) ∧
      (∃ kv, a plat c2 = .ok (.ok kv, c3)) ∧ w plat c3 = .ok ((), c5) ∧ lineageGoing c5 d.job = false ∧
      r plat c5 = .ok ((), after r plat c5) ∧ lineageGoing (after r plat c5) d.job = false := by
  intro e he
  refine ⟨⟨rfl, rfl, .inl ⟨by simp [dieTable], ?_, rfl⟩⟩, stillIs ?_, ?_, runs ?_, runs ?_, ⟨_, okRuns (0, nodeOf []) ?_⟩, ranUnit ?_, ?_, ranUnit ?_, ?_⟩ <;>
    revert e <;> decide +kernel

theorem witness_StreamEffects_ack :
    let d := ackCmd; let s := turn 0 (queued 8 [d] (streamWorld 7)); let c := passTurn 0 8 d s.core
    let c1 := after (streamObject d true) plat c; let a := (streamNodes d openStream).run; let c4 := after a plat c1
    EngineTakes s .dxAck 0 dxAckForm.engine dxAckRun d c ∧ streamObject d true plat c = .ok ((0xF000, openStream), c1) ∧
      (∃ kv, a plat c1 = .ok (.ok kv, c4)) ∧ d.number 1 = openStream.p ∧ openStream.p ≤ openStream.g ∧ lineageGoing c4 d.job = false := by
  refine ⟨⟨rfl, rfl, .inl ⟨by simp [dieTable], ?_, rfl⟩⟩, runs ?_, ⟨_, okRuns (0, nodeOf []) ?_⟩, ?_, ?_, ?_⟩ <;> decide +kernel

/-- A fill of 40 words at 0x38, leaving the bits, filling them and emptying them, and a copy of 301 bytes from 0x201 to 0x33. -/
def stashFill (flags : Nat) : Cmd :=
  cmd .cpFill { tcw 0 0x30000038 0x10000003 0x20000028 0 with flags := BitVec.ofNat 8 flags } #v[0, 0x123456789ABCDEF0, 0, 0, 0]
def stashCopy : Cmd := cmd .cpCopy (tcw 0 0x30000033 0x30000201 0x2000012D 0)

theorem witness_CopyEffects : PlainStash (world.station 0) ∧
    (∀ flags ∈ [0, 8, 16], let d := stashFill flags
      d.station = 0 ∧ d.kind 0 = 3 ∧ bitsOf (descWord d.tcw 0) 0 20 = 0x38 ∧ d.op = .cpFill ∧ 320 = 8 * d.number 2 ∧
        (d.flag 3 && d.flag 4) = false ∧ (planBytes d (.stash d.station 0x38) 320).left = [0, 1, 2]) ∧
    stashCopy.station = 0 ∧ stashCopy.kind 0 = 3 ∧ bitsOf (descWord stashCopy.tcw 0) 0 20 = 0x33 ∧ stashCopy.op = .cpCopy ∧
    301 = stashCopy.number 2 ∧ descImm stashCopy.tcw 3 = 0 ∧ stashCopy.kind 1 = 3 ∧ bitsOf (descWord stashCopy.tcw 1) 0 20 = 0x201 ∧
    0x33 + 301 ≤ 0x201 ∧ (planBytes stashCopy (.stash stashCopy.station 0x33) 301).left = [0, 1, 2] :=
  ⟨isPlain (by decide +kernel), by decide +kernel, by decide +kernel, by decide +kernel, by decide +kernel, by decide +kernel,
    by decide +kernel, by decide +kernel, by decide +kernel, by decide +kernel, by decide, by decide +kernel⟩

/-- A group of one member with a table at 0xA000 and its list at 0xB000, and its collective's only piece. -/
def pieceCmd (op : Instr) : Cmd := cmd op (tcw 0 0x30000040 0x30000100 0x20000040 0x20000000)
def pieceWorld (op : Instr) : Core :=
  { wordsAt [(0x1070, 0xA000), (0xA000, 0xB000), (0xA008, 0x100), (0xA010, 1)] with
    collectives := [⟨pieceCmd op, 0, 0, some [0], none⟩], work := .event ⟨0, 0, 0, 0, []⟩ }

theorem witness_CollectiveEffects : ∀ op ∈ [Instr.clBc, .clAg],
    let d := pieceCmd op; let c := pieceWorld op; let x : Collective := ⟨d, 0, 0, some [0], none⟩
    c.collectives[0]? = some x ∧ firstCollective c x = true ∧ d.waits c = false ∧ membersOf plat c d.job 0 = ⟨1, 0, none⟩ ∧
      PlainStash (c.station d.station) ∧ d.kind 0 = 3 ∧ bitsOf (descWord d.tcw 0) 0 20 = 0x40 ∧ d.kind 1 = 3 ∧
      bitsOf (descWord d.tcw 1) 0 20 = 0x100 ∧ d.kind 4 = 0 ∧ d.number 2 = 64 ∧ (ctlOf d).root = 0 := by
  intro op ho
  refine ⟨rfl, ?_, ?_, ?_, isPlain ?_, ?_, ?_, ?_, ?_, ?_, ?_, ?_⟩ <;> revert op <;> decide +kernel

/-- A row of four logits at 0x40 in the stash, 0, 1.0, 1.0 and a NaN, and a chain at 0x8100: a temperature stage of 2^-149, the end. -/
def greedyCmd : Cmd := cmd .smRun (tcw 0 0x50000003 0x10000004 0x20000000 0) #v[0x8000, 0x8100, 0, 0, 0]
def greedyWorld : Core :=
  let c := queued 6 [greedyCmd] (wordsAt (tileRecord 0x8000 4 1 0x40 ++ [(0x8100, 1), (0x8108, 1), (0x8118, 0x8120)]))
  c.updStation 0 fun z => setStashBytes z 0x44 (leBytes 4 0x3F800000 ++ leBytes 4 0x3F800000 ++ leBytes 4 0x7FC00000)

theorem witness_SampleEffects :
    let d := greedyCmd; let s := turn 0 greedyWorld; let c := passTurn 0 6 d s.core; let c1 := after (d.shape 0) plat c
    let a := (readChain d 16 0x8100 []).run
    sconceBusy s.core 0 = none ∧ dieNext plat s.core 0 6 = some d ∧ d.kind 3 = 0 ∧ d.offset 1 plat c = .ok (0x8100, c) ∧
      d.covered 0x8100 32 1 = true ∧ StashTile d 0 plat c (tileShape 4 1 0x40) c1 ∧ PlainStash (c1.station d.station) ∧
      a plat c1 = .ok (.ok (okOr a plat c1 []), after a plat c1) ∧ okOr a plat c1 [] = [⟨0x8100, 1, 1, 0, 0, 0⟩, ⟨0x8120, 0, 0, 0, 0, 0⟩] ∧
      tileWord (c1.station d.station) (tileShape 4 1 0x40) 0 1 = 0x3F800000 := by
  refine ⟨?_, ?_, ?_, stillIs ?_, ?_, isTile ?_ (by decide), isPlain ?_, okRuns _ ?_, ?_, ?_⟩ <;> decide +kernel

/-- Commands of job 0 in a queue, among the started copies, with Lantern and with Sconce, and a READY task of it. -/
def crewed : Core :=
  { world with
    stations := [(0, { Station.reset with
      commands := Station.reset.commands.set! 1 [cancelCmd], copies := [⟨fillCmd, some fillPlan⟩] })]
    collectives := [⟨groupCmd 0, 0, 0, none, none⟩]
    sampling := [⟨sampleCmd, 0, 0, none, none, []⟩]
    ready := [⟨0, 0x8000, 0, 0, 0, false, false⟩] }

theorem witness_CancelCompletes_commands :
    let a := discards 0 ((hand user crewed).core.passed key)
    let c := after a plat ((hand user crewed).core.passed key)
    InHand (hand user crewed) 0 key 0 none user ∧ a plat ((hand user crewed).core.passed key) = .ok ((), c) ∧
      (∀ d ∈ [cancelCmd, fillCmd, groupCmd 0, sampleCmd], HasCmd c d ∧ d.job = 0 ∧ d.begun = none) ∧
      ∃ y ∈ c.strands, y.live = true ∧ y.key.job = 0 := by
  refine ⟨inHand rfl, ranUnit (by decide +kernel), ?_, ?_⟩
  · have h : (let c := after (discards 0 ((hand user crewed).core.passed key)) plat ((hand user crewed).core.passed key)
        decide (c.stations = crewed.stations ∧ c.collectives = crewed.collectives ∧ c.sampling = crewed.sampling)) = true := by
      decide +kernel
    simp only [decide_eq_true_eq] at h
    intro d hd
    unfold HasCmd
    rw [h.1, h.2.1, h.2.2]
    revert d
    decide +kernel
  · decide +kernel

/-! ### Witnesses: events -/

/-- The package with the strand `x`. -/
def with1 (x : Strand) (c : Core := world) : Core := { c with strands := [x] }

/-- An event about the strand in hand. -/
def about (index : Nat) : EventArg := ⟨0, 0, 0x400, index, []⟩

theorem settled {x : Strand} {c : Core}
    (h : (match c.strand? key with | some y => decide (y = x) | none => false) = true)
    (h2 : (x.live && x.resident && !flushWaits c key) = true)
    (h3 : (match recordAt c 0 0x400 with | some y => decide (y = x) | none => false) = true) : Settled c key x := by
  simp only [Bool.and_eq_true, Bool.not_eq_true'] at h2
  refine ⟨?_, h2.1.1, ?_, h2.1.2, h2.2⟩
  · cases hr : c.strand? key with
    | some y => rw [hr] at h; simp only [decide_eq_true_eq] at h; rw [h]
    | none => rw [hr] at h; simp at h
  · show recordAt c 0 0x400 = some x
    cases hr : recordAt c 0 0x400 with
    | some y => rw [hr] at h3; simp only [decide_eq_true_eq] at h3; rw [h3]
    | none => rw [hr] at h3; simp at h3

/-- An operation that brings a poison, and one that brings a value. -/
def poisoned : Strand := { user with ops := [⟨some 4, 0x10000, 1, .poison 0x8003, 0⟩] }

theorem witness_LongLatencyDelivers :
    (let s := happening (about 0) (with1 (busy 1))
     Happens s (about 0) ∧ Settled s.core key (busy 1) ∧ (busy 1).ops[0]? = some ⟨some 4, 0x10000, 1, .value 5 0, 0⟩) ∧
    (let s := happening (about 0) (with1 poisoned)
     Happens s (about 0) ∧ Settled s.core key poisoned ∧ poisoned.ops[0]? = some ⟨some 4, 0x10000, 1, .poison 0x8003, 0⟩) := by
  refine ⟨⟨rfl, settled ?_ ?_ ?_, rfl⟩, rfl, settled ?_ ?_ ?_, rfl⟩ <;> decide +kernel

/-- An ended command with a completion mode. -/
def ended (w2 : IWord) (node : Option Nat := none) : Completion := ⟨{ cmd .vxAdd (tcw w2 0 0 0 0) with node := node }, 0, 16, none⟩

theorem witness_CompletionWord : Settled (with1 user) key user ∧ (ended 0).cmd.job = key.job ∧ (ended 0).cmd.ctx = key.ctx ∧
    (16 : Nat) < 2 ^ 48 ∧ compMode (ended 0).cmd.tcw = 0 ∧ compMode (ended 0x04002000).cmd.tcw = 4 ∧
    statusReg (ended 0x04002000).cmd.tcw = some 4 ∧ compMode (ended 0x01000000).cmd.tcw = 1 ∧
    user.inLow.count + ((with1 user).messages.filter fun m => m.key == key && m.high == false).length < 8 := by
  refine ⟨settled ?_ ?_ ?_, ?_, ?_, ?_, ?_, ?_, ?_, ?_, ?_⟩ <;> decide +kernel

/-- The page has the attribute PIN, and station 3 holds the line of 0x8000. -/
def pinnedWorld (c : Core := world) : Core := { wordsAt [(0x2000, 0xA800000000000000)] c with pins := [⟨0, 0x200, 3⟩] }

theorem witness_EngineCompletes :
    (let d := ended 0x04002000
     let s := happening (about 0) { with1 user with completions := [d] }
     let c1 := after (deliverMode d) plat s.core
     Happens s (about 0) ∧ s.core.completions[0]? = some d ∧ s.core.signals = [] ∧ d.cmd.node = none ∧
       d.cmd.waits s.core = false ∧ deliverMode d plat s.core = .ok ((), c1) ∧ (∃ y, liveStrand c1 key = some y) ∧
       reachRecord key plat c1 = .ok ((), after (reachRecord key) plat c1)) ∧
    (let d := ended 0
     let s := happening (about 0) { world with completions := [d] }
     deliverMode d plat s.core = .ok ((), after (deliverMode d) plat s.core) ∧
       liveStrand (after (deliverMode d) plat s.core) key = none) ∧
    (let d : Completion := ⟨cmd .vxAdd (tcw 0x02000000 0 0 0 0) #v[0, 0, 0, 0, 0x8000], 0, 16, none⟩
     deliverMode d plat { pageless with completions := [d] } = .error (.page 0 0x8000 2 8) ∧
       d.cmd.waits (pinnedWorld { world with completions := [d] }) = false ∧
       deliverMode d plat (pinnedWorld { world with completions := [d] }) = .error (.park (.pinLine 0x200))) ∧
    inOrder plat world (ended 0x04002000).cmd { (ended 0x04002000).cmd with seq := 1 } = true ∧ (ended 0 (some 0x8000)).cmd.node = some 0x8000 := by
  refine ⟨⟨rfl, rfl, rfl, rfl, rfl, ranUnit ?_, Option.isSome_iff_exists.1 ?_, ranUnit ?_⟩, ⟨ranUnit ?_, ?_⟩,
    ⟨stopped ?_, rfl, stopped ?_⟩, ?_, rfl⟩ <;>
    decide +kernel

/-- Modes 2 and 3 of a live strand's command, with the word's address from w7. -/
theorem witness_CompletionWord_memory :
    (let d : Completion := ⟨cmd .vxAdd (tcw 0x02000000 0 0 0 0) #v[0, 0, 0, 0, 0x8000], 0, 16, none⟩
     let word := BitVec.ofNat 64 (d.status * 2 ^ 56 + compTag d.cmd.tcw * 2 ^ 48 + d.result)
     let c1 := after (storeFull d.cmd.party d.cmd.station 0x8000 word .station) plat (with1 user)
     d.cmd.w7Addr = some 0x8000 ∧ compMode d.cmd.tcw = 2 ∧ storeFull d.cmd.party d.cmd.station 0x8000 word .station plat (with1 user) = .ok ((), c1) ∧
       noteDelivered d plat c1 = .ok ((), after (noteDelivered d) plat c1)) ∧
    (let d : Completion := ⟨cmd .vxAdd (tcw 0x03000000 0 0 0 0) #v[0, 0, 0, 0, 0x8000], 0, 16, none⟩
     d.cmd.w7Addr = some 0x8000 ∧ compMode d.cmd.tcw = 3) := by
  refine ⟨⟨?_, ?_, ranUnit ?_, ranUnit ?_⟩, ?_, ?_⟩ <;> decide +kernel

theorem witness_WordsArrive :
    (let s := happening (about 0) { world with linkMsgs := [⟨1, false, ⟨5, 0⟩, key⟩] }
     Happens s (about 0) ∧ s.core.linkMsgs[0]? = some ⟨1, false, ⟨5, 0⟩, key⟩ ∧ (0 : BitVec 16) = (s.core.station 1).pkey) ∧
    (let s := happening (about 0) { with1 user with messages := [⟨key, true, 5, 0, key⟩] }
     s.core.messages[0]? = some ⟨key, true, 5, 0, key⟩ ∧ Settled s.core key user ∧
       (0 : BitVec 16) = (s.core.station user.station).pkey) ∧
    (let s := happening (about 0) { world with messages := [⟨key, true, 5, 0, key⟩] }
     s.core.messages[0]? = some ⟨key, true, 5, 0, key⟩ ∧ liveStrand s.core key = none) := by
  refine ⟨⟨rfl, rfl, ?_⟩, ⟨rfl, settled ?_ ?_ ?_, ?_⟩, rfl, ?_⟩ <;> decide +kernel

/-- Strands with two POISONs, with a trap that waits, and with a refusal on its way. -/
def poisonedTwice : Strand := { user with poison := [⟨0x10004, 0x8000, 2, 1, false⟩, ⟨0x10000, 0x8008, 3, 0, false⟩] }
def trapping : Strand := { user with trapPend := some ⟨0x09, 0, 0x10000, 0x10000, 0x10000, none⟩ }
def refusedStore : Strand := { user with refusals := [⟨0x10000, 0x8000, 1, 0, true⟩] }

theorem witness_TrapsAreEntered :
    (let s := happening (about 0) (with1 poisonedTwice)
     Happens s (about 0) ∧ s.core.strand? key = some poisonedTwice ∧ poisonedTwice.live = true ∧
       poisonedTwice.place = .slotted 0 ∧ poisonedTwice.ops = [] ∧ poisonedTwice.parked = none ∧ poisonedTwice.dropped = none ∧
       s.core.cancelled.contains key.job = false ∧ poisonedTwice.sup = false ∧ poisonedTwice.im = false ∧
       (earliestPoison poisonedTwice.poison).isSome = true) ∧
    (let s := happening (about 0) (with1 trapping)
     s.core.strand? key = some trapping ∧ trapping.poison = [] ∧ trapping.trapPend = some ⟨0x09, 0, 0x10000, 0x10000, 0x10000, none⟩) ∧
    (let s := happening (about 0) (with1 refusedStore)
     Settled s.core key refusedStore ∧ refusedStore.refusals[0]? = some ⟨0x10000, 0x8000, 1, 0, true⟩) := by
  refine ⟨⟨rfl, ?_, ?_, rfl, rfl, rfl, rfl, ?_, ?_, ?_, ?_⟩, ⟨?_, rfl, rfl⟩, settled ?_ ?_ ?_, rfl⟩ <;> decide +kernel

/-- Strands in other places: parked, STORED, activating with its first lines, one line short, and moving to station 639. -/
def parkedOn (w : Wait) : Strand := { user with place := .parked, parked := some w }
def storedStrand : Strand := { user with place := .stored, lines := [] }
def activating (lines : List Nat) : Strand := { user with place := .activating, lines := lines }
def movingTo (pid : Nat) : Strand := { user with place := .moving pid }

/-- What brings the lines of the record that a migrating strand has not yet brought out of L2. -/
def broughtOut : Act Unit :=
  ((List.range 10).filter fun l => !(movingTo 639).lines.contains l).forM fun l => do
    let _ ← reachLine key.job (key.ctx + 64 * l) (key.ctx, 1, 64)

theorem witness_ContextsMove :
    (let w : Wake := ⟨key, some .inbox, false⟩
     let s := happening (about 0) { with1 (parkedOn .inbox) with wakes := [w] }
     Happens s (about 0) ∧ s.core.wakes[0]? = some w ∧ liveStrand s.core w.key = some (parkedOn .inbox) ∧
       (parkedOn .inbox).stopping = false ∧ (parkedOn .inbox).parked = some .inbox ∧ (parkedOn .inbox).dropped = none ∧
       wakeMatches ⟨key, some .park, false⟩ (parkedOn .inbox) = false) ∧
    (let s := happening (about 0) { with1 storedStrand with stations := [(0, { Station.reset with activations := [key] })] }
     (s.core.station 0).activations = [key] ∧ liveStrand s.core key = some storedStrand ∧
       s.core.cancelled.contains key.job = false ∧
       (s.core.strands.filter fun y => y.place == .activating && y.station == 0).length < 4 ∧
       (∀ l < 4, lineGone plat s.core key (64 * l) = false) ∧
       pagePresent 0 0x400 plat s.core = .ok (true, after (pagePresent 0 0x400) plat s.core) ∧
       (residents (after (pagePresent 0 0x400) plat s.core) 0).length < 128) ∧
    (let s := happening (about 3) (with1 (activating [0, 1, 2]))
     let c1 := after (reachLine 0 (0x400 + 64 * 3) (0x400, 1, 64)) plat s.core
     liveStrand s.core key = some (activating [0, 1, 2]) ∧ (activating [0, 1, 2]).lines.contains 3 = false ∧
       (∃ r, reachLine 0 (0x400 + 64 * 3) (0x400, 1, 64) plat s.core = .ok (r, c1)) ∧ lineGone plat c1 key (64 * 3) = false) ∧
    (let s := happening (about 9) (with1 { parkedOn (.ctxLine 9) with lines := [0, 1, 2, 3] })
     liveStrand s.core key = some { parkedOn (.ctxLine 9) with lines := [0, 1, 2, 3] }) ∧
    (let s := happening (about 0) (with1 (activating [0, 1, 2, 3]))
     liveStrand s.core key = some (activating [0, 1, 2, 3]) ∧ ∀ l < 4, l ∈ (activating [0, 1, 2, 3]).lines) ∧
    (let s := happening (about 0) (with1 (movingTo 639))
     liveStrand s.core key = some (movingTo 639) ∧ (movingTo 639).ops = [] ∧ (movingTo 639).refusals = [] ∧
       NothingSent s.core key ∧ s.core.cancelled.contains key.job = false ∧ (residents s.core 639).length < 128 ∧
       broughtOut plat s.core = .ok ((), after broughtOut plat s.core)) := by
  refine ⟨⟨rfl, rfl, ?_, rfl, rfl, rfl, ?_⟩, ⟨?_, ?_, ?_, ?_, ?_, runs ?_, ?_⟩, ⟨?_, ?_, ⟨_, ran (.cell 0 false) ?_⟩, ?_⟩, ?_, ⟨?_, ?_⟩, ?_, rfl, rfl, nothingSent ?_, ?_, ?_, ranUnit ?_⟩ <;>
    decide +kernel

/-- A load of `g3`'s word that met an absent page: before its record is sent, and woken. -/
def droppedLoad (told woken : Bool) : Dropped := ⟨.load 0x8000 8 true, .g 4, true, 0x8000, 1, 8, 0x10000, told, woken, 0, false, 0, false⟩
def dropping (told woken : Bool) : Strand :=
  { user with ops := [⟨some 4, 0x10000, 1, .pending, 0⟩], dropped := some (droppedLoad told woken) }

/-- A stash entry that maps a block. -/
def mappedStation : Station :=
  { Station.reset with entries := [⟨3, some (0, 0x8000), true, 0, none, 0, 0, 0, []⟩] }

theorem witness_DroppedAccessesResume :
    (let s := happening (about 0) (with1 (dropping false false))
     Happens s (about 0) ∧ s.core.strand? key = some (dropping false false) ∧ (dropping false false).pinned = false ∧
       (dropping false false).place = .slotted 0) ∧
    (let s := happening (about 0) (with1 (dropping true true))
     let c : Core := { s.core with work := .strand 0 0 key 0 none }
     s.core.strand? key = some (dropping true true) ∧
       loadAt user.party 0x8000 8 plat c = .ok (⟨0, none⟩, after (loadAt user.party 0x8000 8) plat c) ∧
       (after (loadAt user.party 0x8000 8) plat c).strand? key = some (dropping true true)) ∧
    (let s := happening ⟨0, 0, 0x80FF, 0, []⟩ { world with stations := [(0, mappedStation)] }
     (mappedEntry mappedStation 0 (0x80FF / 256 * 256)).isSome = true ∧
       recallBlock 0 (0x80FF / 256 * 256) plat s.core = .ok ((), after (recallBlock 0 0x8000) plat s.core)) := by
  refine ⟨⟨rfl, ?_, ?_, rfl⟩, ⟨?_, runs ?_, ?_⟩, ?_, ranUnit ?_⟩ <;> decide +kernel

/-- A record at 0x8000 of job 0, of logical station 0's domain: its count, one strand in no gang or a gang of one. -/
def recordWorld (count gang : Nat) (state : Nat := 0) : Core :=
  wordsAt [(0x8000, BitVec.ofNat 64 (count + state * 2 ^ 56)), (0x8008, 0x10000), (0x8010, BitVec.ofNat 64 (1 + gang * 2 ^ 32 + 0x4000 * 2 ^ 48))]

def decrement : Decrement := ⟨0, 0x8000, 0, 0, 0x400, none⟩
def piece : Signal := ⟨fillCmd, 0x8000, 1, 0, false⟩

/-- A platform out of recovery mode, with a launch window of die 0 and a user queue table. -/
def running : Platform :=
  { plat.updMgmt 0 (fun m => { m with userTable := 0xB000, window := 0xC000 }) with
    firmware := { plat.firmware with recovery := false } }

theorem witness_SignalsAndDecrements :
    (let s := happening (about 0) { world with signals := [piece] }
     Happens s (about 0) ∧ s.core.signals[0]? = some piece ∧ piece.cmd.waits s.core = false ∧
       storeFull piece.cmd.party 0 0x8000 1 .station plat s.core =
         .ok ((), after (storeFull piece.cmd.party 0 0x8000 1 .station) plat s.core)) ∧
    (let s := happening (about 0) { pageless with signals := [piece] }
     storeFull piece.cmd.party 0 0x8000 1 .station plat s.core = .error (.page 0 0x8000 2 8)) ∧
    (let s := happening (about 0) (pinnedWorld { world with signals := [piece] })
     piece.cmd.waits s.core = false ∧
       storeFull piece.cmd.party 0 0x8000 1 .station plat s.core = .error (.park (.pinLine 0x200))) ∧
    (let x : Sampling := ⟨sampleCmd, 0, 0, none, some (0x8000, 5), []⟩
     let s := happening (about 0) { world with sampling := [x] }
     sconceBusy s.core 0 = some x ∧ x.cmd.waits s.core = false ∧ x.cmd.waits (pinnedWorld s.core) = false ∧
       storeToken x.cmd.party 0x8000 5 plat (pinnedWorld s.core) = .error (.park (.pinLine 0x200)) ∧
       storeToken x.cmd.party 0x8000 5 plat s.core = .ok ((), after (storeToken x.cmd.party 0x8000 5) plat s.core) ∧
       storeToken x.cmd.party 0x8000 5 plat { pageless with sampling := [x] } = .error (.page 0 0x8000 2 8)) ∧
    (∀ k ∈ [0, 1, 2, 11, 24], let e : EventArg := ⟨0, 0, 0x8000, 0, [k, 3, 7, 0, 9, 1]⟩
     let s := happening e world running
     let x := fabricAccess e
     Happens s e ∧ e.data ≠ [] ∧ x.kind = k ∧ fabricSized x 0x8000 = true ∧ s.plat.firmware.recovery = false ∧
       s.core.cancelled.contains 0 = false ∧
       performFabric 0 0x8000 x running s.core = .ok ((), after (performFabric 0 0x8000 x) running s.core)) := by
  refine ⟨⟨rfl, rfl, rfl, ranUnit ?_⟩, stopped ?_, ⟨rfl, stopped ?_⟩, ⟨?_, rfl, rfl, stopped ?_, ranUnit ?_, stopped ?_⟩, ?_⟩
  rotate_right
  · intro k hk
    refine ⟨rfl, nofun, ?_, ?_, ?_, ?_, ranUnit ?_⟩ <;> revert k <;> decide +kernel
  all_goals decide +kernel

theorem endedTurn {a : Act Progress} {p : Platform} {c : Core}
    (h : (match a p c with | .ok (.ended _, _) => true | _ => false) = true) : ∃ f, a p c = .ok (.ended f, after a p c) := by
  refine outcome Progress.ended (fun x => match x with | .ended f => some f | .more _ _ => none) ?_ ?_
  · intro x y hx; cases x <;> simp_all
  · revert h; cases a p c with
    | ok r => obtain ⟨x, _⟩ := r; cases x <;> simp
    | error e => simp

theorem furtherTurn {a : Act Progress} {p : Platform} {c : Core}
    (h : (match a p c with | .ok (.more _ _, _) => true | _ => false) = true) :
    ∃ r : List Nat × Option Nat, a p c = .ok (.more r.1 r.2, after a p c) := by
  refine outcome (fun r : List Nat × Option Nat => Progress.more r.1 r.2)
    (fun x => match x with | .more l b => some (l, b) | .ended _ => none) ?_ ?_
  · intro x y hx
    cases x with
    | more l b => cases hx; rfl
    | ended f => cases hx
  · revert h; cases a p c with
    | ok r => obtain ⟨x, _⟩ := r; cases x <;> simp
    | error e => simp

/-- A group of one member that is this device, of whose `cl.bc` no byte, or one byte, moves. -/
def soloWorld : Core := wordsAt [(0x1070, 0xA000), (0xA000, 0xA100), (0xA008, 0x100), (0xA010, 1)]
def soloCmd (n : Nat) : Collective :=
  ⟨cmd .clBc (tcw 0 0x30000000 0x30000000 (BitVec.ofNat 32 (0x20000000 + n)) 0x20000000), 0, 0, none, none⟩

theorem witness_SignalsAndDecrements_collective :
    (∀ n ∈ [0, 64], let x := soloCmd n
     let s := happening (about 0) { soloWorld with collectives := [x] }
     s.core.collectives[0]? = some x ∧ firstCollective s.core x = true ∧ x.cmd.waits s.core = false) ∧
    (∃ f, turnCollective (soloCmd 0) plat (happening (about 0) { soloWorld with collectives := [soloCmd 0] }).core =
      .ok (.ended f, after (turnCollective (soloCmd 0)) plat (happening (about 0) { soloWorld with collectives := [soloCmd 0] }).core)) ∧
    (∃ r : List Nat × Option Nat,
      turnCollective (soloCmd 64) plat (happening (about 0) { soloWorld with collectives := [soloCmd 64] }).core =
      .ok (.more r.1 r.2,
        after (turnCollective (soloCmd 64)) plat (happening (about 0) { soloWorld with collectives := [soloCmd 64] }).core)) := by
  refine ⟨fun n hn => ⟨rfl, ?_, ?_⟩, endedTurn ?_, furtherTurn ?_⟩
  · revert n; decide +kernel
  · revert n; decide +kernel
  · decide +kernel
  · decide +kernel

/-- A decrement with which a mode-3 completion is delivered. -/
theorem witness_SignalsAndDecrements_mode3 :
    let d : Decrement := { decrement with done := some (ended 0x03000000) }
    let s := happening (about 0) { recordWorld 2 0 with decrements := [d] }
    let c1 := after (decrementRecord d) plat s.core
    s.core.decrements[0]? = some d ∧ decrementRecord d plat s.core = .ok (gives (decrementRecord d) plat s.core false, c1) ∧
      noteDelivered (ended 0x03000000) plat c1 = .ok ((), after (noteDelivered (ended 0x03000000)) plat c1) := by
  refine ⟨rfl, ran _ ?_, ranUnit ?_⟩ <;> decide +kernel

theorem witness_SignalsAndDecrements_record : ∀ n ∈ [0, 1, 2],
    let s := happening (about 0) { recordWorld n 0 with decrements := [decrement] }
    let r := gives (readRecord 0 0x8000) plat s.core (recordOf [])
    let c1 := after (readRecord 0 0x8000) plat s.core
    let c2 := after (writeNum (enginePt 0 0x8000) 0x8000 4 (n - 1)) plat c1
    Happens s (about 0) ∧ s.core.decrements[0]? = some decrement ∧ readRecord 0 0x8000 plat s.core = .ok (r, c1) ∧
      c1.cancelled.contains 0 = false ∧ r.job = 0 % 2 ^ 32 ∧ r.count = n ∧
      writeNum (enginePt 0 0x8000) 0x8000 4 (n - 1) plat c1 = .ok ((), c2) ∧
      (n = 1 → readyRecord 0 0x8000 false plat c2 =
        .ok (gives (readyRecord 0 0x8000 false) plat c2 false, after (readyRecord 0 0x8000 false) plat c2)) := by
  intro n hn
  refine ⟨rfl, rfl, ran _ ?_, ?_, ?_, ?_, ranUnit ?_, fun h => ran _ ?_⟩ <;> revert n <;> decide +kernel

def readyTask : ReadyTask := ⟨0, 0x8000, 0, 0, 0, false, false⟩
def gang1 : PlacingGang := ⟨0, 0x8000, 0, 0, [], false⟩

/-- A dispatched task at 0x8000 in a phase. -/
def task1 (phase : TaskPhase) : Task :=
  { newTask 0 0x8000 (recordOf []) 0 0 with phase := phase, save := 0xC000 }

/-- A record at 0x8000 whose kind is a copy node, with the fill's words. -/
def nodeWorld : Core := wordsAt [(0x8000, 1 <<< 48), (0x8008, 0x10000), (0x8010, 1 + 0x4000 * 2 ^ 48), (0x8060, 0xFFFF0000F8102000),
  (0x8068, 0x1000000300000000), (0x8070, 0x2000000120000005)]

/-- The package without the READY task of the record, and with its record read. -/
def unlisted (c : Core) : Core := { c with ready := c.ready.filter fun x => !(x.job == 0 && x.record == 0x8000) }
def seen (c : Core) : Core := after (readRecord 0 0x8000) plat c
def found (c : Core) : Record := gives (readRecord 0 0x8000) plat c (recordOf [])
def marked (st : Nat) (c : Core) : Core := after (setRecordState 0 0x8000 st) plat c
def retask (phase : TaskPhase) (c : Core) : Core := updTask 0 0x8000 (fun u => { u with phase := phase }) c

theorem foundIs {c : Core} (h : ok (readRecord 0 0x8000) plat c = true) :
    readRecord 0 0x8000 plat c = .ok (found c, seen c) := ran _ h

theorem witness_TasksRunAndRetire :
    (let s := happening (about 0) { recordWorld 0 0 with ready := [readyTask] }
     let c := unlisted s.core
     let r := found c
     let c2 := marked 3 (withTask (seen c) 0 0x8000 r 0 0)
     let l := domainMapped plat (seen c) 0 r.domain
     let places := (List.range r.strands).map (fun i => l.getD ((cursorOf c2 0 r.domain + i) % l.length) 0)
     Happens s (about 0) ∧ bestReady s.core 0 = some readyTask ∧ readyTask.resume = false ∧
       readRecord 0 0x8000 plat c = .ok (r, seen c) ∧ l ≠ [] ∧
       setRecordState 0 0x8000 3 plat (withTask (seen c) 0 0x8000 r 0 0) = .ok ((), c2) ∧ r.kind = 0 ∧
       r.strands ≤ freeFrames plat c2 0 ∧ evictFor 0 places plat c2 = .ok ((), c2)) ∧
    (let s := happening (about 0) { nodeWorld with ready := [readyTask] }
     let c := unlisted s.core
     let r := found c
     let c2 := marked 3 (withTask (seen c) 0 0x8000 r 0 0)
     let l := domainMapped plat (seen c) 0 r.domain
     bestReady s.core 0 = some readyTask ∧ readRecord 0 0x8000 plat c = .ok (r, seen c) ∧ l ≠ [] ∧ r.kind ≠ 0 ∧
       setRecordState 0 0x8000 3 plat (withTask (seen c) 0 0x8000 r 0 0) = .ok ((), c2) ∧
       runNode 0 0x8000 r (l.headD 0) plat c2 = .ok ((), after (runNode 0 0x8000 r (l.headD 0)) plat c2)) := by
  refine ⟨⟨rfl, ?_, rfl, foundIs ?_, ?_, ranUnit ?_, ?_, ?_, stillIs ?_⟩, ⟨?_, foundIs ?_, ?_, ?_, ranUnit ?_, ranUnit ?_⟩⟩ <;>
    decide +kernel

theorem witness_TasksRunAndRetire_resumed :
    (let t : ReadyTask := { readyTask with resume := true }
     let s := happening (about 0) { recordWorld 0 0 with ready := [t], tasks := [task1 .preempted] }
     let c1 := marked 3 (updTask 0 0x8000 (fun u => { u with phase := .running, ticket := t.ticket }) (unlisted s.core))
     let u := (c1.tasks.head?).getD (task1 .running)
     let a (o : Nat) : Act Nat := readNum (enginePt 0 0xC000) (0xC000 + o) 8
     let c2 := after (a 8) plat c1
     let c3 := after (a 16) plat c2
     bestReady s.core 0 = some t ∧ (unlisted s.core).tasks = [task1 .preempted] ∧ (task1 .preempted).resumable = true ∧
       setRecordState 0 0x8000 3 plat (updTask 0 0x8000 (fun u => { u with phase := .running, ticket := t.ticket }) (unlisted s.core)) =
         .ok ((), c1) ∧
       evictFor 0 ((task1 .preempted).homes.filterMap fun h => stationOf plat c1 0 h.2) plat c1 = .ok ((), c1) ∧
       c1.tasks.find? (fun x => x.job == 0 && x.record == 0x8000) = some u ∧ u.job = 0 ∧ u.save = 0xC000 ∧
       reviveTask u plat c1 = .ok ((), after (reviveTask u) plat c1) ∧ a 8 plat c1 = .ok (0, c2) ∧ a 16 plat c2 = .ok (0, c3) ∧
       a 32 plat c3 = .ok (0, after (a 32) plat c3)) ∧
    (let t : ReadyTask := { readyTask with resume := true }
     let s := happening (about 0) { recordWorld 0 0 with ready := [t], tasks := [{ task1 .preempted with kind := 2 }] }
     ({ task1 .preempted with kind := 2 } : Task).resumable = false ∧
       dispatchNew t plat (unlisted s.core) = .ok ((), after (dispatchNew t) plat (unlisted s.core))) := by
  refine ⟨⟨?_, rfl, ?_, ranUnit ?_, stillIs ?_, ?_, ?_, ?_, ranUnit ?_, runs ?_, runs ?_, runs ?_⟩, ?_, ranUnit ?_⟩ <;> decide +kernel

/-- A gang of two groups. -/
def pairWorld : Core := wordsAt [(0x8008, 0x10000), (0x8010, 2 + 2 * 2 ^ 32 + 0x4000 * 2 ^ 48)]

/-- The copy node's record with a gang of one. -/
def nodeGang : Core := wordsAt [(0x8010, 1 + 2 ^ 32 + 0x4000 * 2 ^ 48)] nodeWorld

/-- The stations of the record's domain, and those that its gang gets, in a package whose leading gang it is. -/
def domain (c : Core) : List Nat := domainMapped plat (seen c) 0 (found c).domain

def gathered (c : Core) : List Nat :=
  reserveStations (seen c) (found c).gang (if (found c).kind = 0 then (found c).strands / (found c).gang else 0) [] (domain c)

theorem witness_TasksRunAndRetire_gang :
    (let s := happening (about 0) { recordWorld 0 1 with placing := [gang1] }
     let r := found s.core
     let c1 := { seen s.core with placing := (seen s.core).placing.filter fun x => !(x.job == 0 && x.record == 0x8000) }
     let c2 := marked 3 (withTask c1 0 0x8000 r (dieOf ((domain s.core).headD 0)) gang1.ticket)
     let places := (List.range r.strands).map (fun i => (gathered s.core).getD (i / (r.strands / r.gang)) 0)
     leadingGang s.core = some gang1 ∧ readRecord 0 0x8000 plat s.core = .ok (r, seen s.core) ∧ gang1.resume = false ∧
       r.gang ≤ (gathered s.core).length ∧ r.kind = 0 ∧ r.strands ≤ freeFrames plat (seen s.core) 0 ∧
       setRecordState 0 0x8000 3 plat (withTask c1 0 0x8000 r (dieOf ((domain s.core).headD 0)) gang1.ticket) = .ok ((), c2) ∧
       r.strands ≤ freeFrames plat c2 0 ∧ evictFor 0 places plat c2 = .ok ((), c2)) ∧
    (let s := happening (about 0) { nodeGang with placing := [gang1] }
     let r := found s.core
     let c1 := { seen s.core with placing := (seen s.core).placing.filter fun x => !(x.job == 0 && x.record == 0x8000) }
     let c2 := marked 3 (withTask c1 0 0x8000 r (dieOf ((domain s.core).headD 0)) gang1.ticket)
     let a := runNode 0 0x8000 r ((domain s.core).headD 0)
     leadingGang s.core = some gang1 ∧ readRecord 0 0x8000 plat s.core = .ok (r, seen s.core) ∧
       r.gang ≤ (gathered s.core).length ∧ r.kind ≠ 0 ∧ r.gang = 1 ∧
       setRecordState 0 0x8000 3 plat (withTask c1 0 0x8000 r (dieOf ((domain s.core).headD 0)) gang1.ticket) = .ok ((), c2) ∧
       a plat c2 = .ok ((), after a plat c2)) ∧
    (let s := happening (about 0) { pairWorld with placing := [gang1] }
     leadingGang s.core = some gang1 ∧ readRecord 0 0x8000 plat s.core = .ok (found s.core, seen s.core) ∧
       (gathered s.core).length < (found s.core).gang ∧ gang1.reserved.length < (gathered s.core).length) ∧
    (let g : PlacingGang := { gang1 with resume := true }
     let t := task1 .preempted
     let s := happening (about 0) { recordWorld 0 1 with placing := [g], tasks := [t] }
     let c1 := { seen s.core with placing := (seen s.core).placing.filter fun x => !(x.job == 0 && x.record == 0x8000) }
     let q : ReadyTask := ⟨0, 0x8000, t.die, g.prio, g.ticket, false, true⟩
     leadingGang s.core = some g ∧ readRecord 0 0x8000 plat s.core = .ok (found s.core, seen s.core) ∧
       (seen s.core).tasks.find? (fun t => t.job == 0 && t.record == 0x8000) = some t ∧ t.resumable = true ∧
       gangHomes plat (seen s.core) t = some [] ∧ resumeTask q plat c1 = .ok ((), after (resumeTask q) plat c1)) := by
  refine ⟨⟨?_, foundIs ?_, rfl, ?_, ?_, ?_, ranUnit ?_, ?_, stillIs ?_⟩, ⟨?_, foundIs ?_, ?_, ?_, ?_, ranUnit ?_, ranUnit ?_⟩,
    ⟨?_, foundIs ?_, ?_, ?_⟩,
    ⟨?_, foundIs ?_, ?_, ?_, ?_, ranUnit ?_⟩⟩ <;> decide +kernel

/-- The event about the record at 0x8000, and a package whose one task is the record's. -/
def atRecord : EventArg := ⟨0, 0, 0x8000, 0, []⟩
def taskWorld (t : Task) : Core := { recordWorld 0 0 with tasks := [t] }

theorem witness_TasksRunAndRetire_saved :
    (∀ k ∈ [0, 1, 2], let t := { task1 .preempting with kind := k }
     Happens (happening atRecord (taskWorld t)) atRecord ∧ StillTask (happening atRecord (taskWorld t)).core atRecord t ∧
       t.phase = .preempting ∧ t.lapsN = 0) ∧
    (∀ k ∈ [0, 1, 2], let t := { task1 .preempting with kind := k }
     let c := after (saveTask t) plat (happening atRecord (taskWorld t)).core
     saveTask t plat (happening atRecord (taskWorld t)).core = .ok ((), c) ∧
       setRecordState 0 0x8000 6 plat (retask .preempted c) = .ok ((), marked 6 (retask .preempted c))) ∧
    (let t := { task1 .preempting with lapsN := 2 }
     let c := (happening atRecord (taskWorld t)).core
     let c1 := after (undoTask t) plat c
     let c2 := after (t.stations.forM evictStation) plat c1
     StillTask c atRecord t ∧ undoTask t plat c = .ok (gives (undoTask t) plat c (0, 0), c1) ∧
       t.stations.forM evictStation plat c1 = .ok ((), c2) ∧ t.saved = none ∧
       setRecordState 0 0x8000 6 plat (retask .preempted c2) = .ok ((), marked 6 (retask .preempted c2)) ∧
       (let c3 := toCheckpoint { t with saved := some [] } [] c2
        let lap := readNum (enginePt 0 0xC000) (0xC000 + 0x18) 8
        let c4 := retask .preempted (updTask 0 0x8000 (fun u => { u with laps := 0 }) (after lap plat c3))
        lap plat c3 = .ok (0, after lap plat c3) ∧ setRecordState 0 0x8000 6 plat c4 = .ok ((), marked 6 c4))) ∧
    (let t := task1 .checkpointing
     let c := (happening atRecord (taskWorld t)).core
     let c1 := after (saveTask t) plat c
     StillTask c atRecord t ∧ t.phase = .checkpointing ∧ saveTask t plat c = .ok ((), c1) ∧
       ok (checkpointAct atRecord) plat c = true) := by
  refine ⟨?_, fun k hk => ⟨ranUnit ?_, ranUnit ?_⟩, ⟨?_, ran _ ?_, ranUnit ?_, rfl, ranUnit ?_, runs ?_, ranUnit ?_⟩,
    ?_, rfl, ranUnit ?_, ?_⟩
  · intro k hk
    refine ⟨rfl, ⟨?_, ?_, ?_⟩, rfl, ?_⟩ <;> revert k <;> decide +kernel
  · revert k; decide +kernel
  · revert k; decide +kernel
  all_goals first | decide +kernel | (unfold StillTask; decide +kernel)

theorem witness_TasksRunAndRetire_rolledBack :
    let q : RollbackReq := ⟨0, 0x8000, 0x8000, 0⟩
    let e := about 0
    (Happens (happening e { recordWorld 0 0 with rollbacks := [q] }) e ∧
      (recordWorld 0 0).tasks.find? (fun t => t.job == 0 && t.record == 0x8000) = none) ∧
    (∀ outside ∈ [false, true], ∀ cancelled ∈ [[], [0]],
      let t := { task1 .running with outside := outside }
      let c : Core := { (happening e (taskWorld t)).core with cancelled := cancelled }
      let c1 := after (undoTask t) plat c
      taskStill c t = true ∧ ok (undoTask t) plat c = true ∧ (c1.cancelled.contains 0 = !cancelled.isEmpty) ∧
        (rollbackCode plat c t 0x8000 = if outside then 3 else 1) ∧ ok (setRecordState 0 0x8000 5) plat c1 = true ∧
        ok (setRecordState 0 0x8000 7) plat c1 = true ∧ ok (relaunch t 0x8000) plat c1 = true ∧ t.saved = none ∧ t.gang = false) ∧
    (let t := task1 .running
     let s := happening atRecord (taskWorld t)
     let c1 := seen s.core
     let r := found s.core
     taskDone s.core t = true ∧ t.phase ≠ .preempted ∧ t.tails = [] ∧ rollbackDue s.core t = false ∧ t.ended = none ∧
       readRecord 0 0x8000 plat s.core = .ok (r, c1) ∧ successorList 0 0x8000 r plat c1 = .ok ([], c1) ∧
       setRecordState 0 0x8000 4 plat c1 = .ok ((), marked 4 c1)) := by
  refine ⟨⟨rfl, ?_⟩, ?_, ?_, ?_, rfl, ?_, rfl, foundIs ?_, stillIs ?_, ranUnit ?_⟩ <;> decide +kernel


/-- The record of slot 0 of die 0's window: an op on the record at 0x8000, with a mark; and of slot 0 of user queue 0's ring. -/
def sealedWorld (op mark : Nat) : Core :=
  { wordsAt [(0xC040, BitVec.ofNat 64 op), (0xC048, 0x8000), (0xC138, BitVec.ofNat 64 (mark * 2 ^ 56))] (recordWorld 0 0) with
    seals := [(0, 0)] }
def queueOne : Core := { wordsAt [(0xB000, 0xD000), (0xB008, 0x10010), (0xB010, 1), (0xD000, 9)] with queueSlots := ⟨[(0, 0)], 0, 0⟩ }

/-- Marks 255, 16 and 0 with ops 1 and 9: STALE, SKIP, BADOP, and OK for a launch of an idle record and for a cancel. -/
theorem witness_HostReaches_windows :
    (∀ x ∈ [(1, 255), (1, 16), (9, 0), (1, 0), (4, 0)], let s := happening (about 0) (sealedWorld x.1 x.2) running
      Happens s (about 0) ∧ (0, 0) ∈ s.core.seals ∧ firstSeal s.core (windowRing running 0) 0 0 = true) ∧
    (let d (op mark code : Nat) := Decides running (windowRing running 0) 0 (happening (about 0) (sealedWorld op mark) running).core code
     d 1 255 1 (happening (about 0) (sealedWorld 1 255) running).core ∧ d 1 16 2 (happening (about 0) (sealedWorld 1 16) running).core ∧
     d 9 0 3 (happening (about 0) (sealedWorld 9 0) running).core ∧
     (∃ code c1, d 1 0 code c1) ∧ ∃ c1, d 4 0 0 c1) := by
  refine ⟨?_, ?_, ?_, ?_, ?_, ?_⟩
  · intro x hx
    refine ⟨rfl, ?_, ?_⟩ <;> revert x <;> decide +kernel
  · exact .inl ⟨by decide +kernel, rfl, rfl⟩
  · exact .inr (.inl ⟨by decide +kernel, by decide +kernel, rfl, rfl⟩)
  · exact .inr (.inr ⟨by decide +kernel, by decide +kernel, .inl ⟨by decide +kernel, rfl, rfl⟩⟩)
  · let c := (happening (about 0) (sealedWorld 1 0) running).core
    let r := gives (readRecord 0 0x8000) running c (recordOf [])
    let cr := after (readRecord 0 0x8000) running c
    let bad := gives (readyRecord 0 0x8000 false) running cr false
    exact ⟨if bad then 6 else 0, after (readyRecord 0 0x8000 false) running cr,
      .inr (.inr ⟨by decide +kernel, by decide +kernel, .inr ⟨by decide +kernel, .inr ⟨c, r, cr, by decide +kernel,
        .inl ⟨by decide +kernel, rfl⟩, by decide +kernel, ran _ (by decide +kernel), .inr (.inr (.inr ⟨by decide +kernel,
          by decide +kernel, .inl ⟨by decide +kernel, by decide +kernel, by decide +kernel, bad, ran _ (by decide +kernel), rfl⟩⟩))⟩⟩⟩)⟩
  · let c := (happening (about 0) (sealedWorld 4 0) running).core
    let r := gives (readRecord 0 0x8000) running c (recordOf [])
    let cr := after (readRecord 0 0x8000) running c
    exact ⟨after (cancelJob 0) running cr,
      .inr (.inr ⟨by decide +kernel, by decide +kernel, .inr ⟨by decide +kernel, .inr ⟨c, r, cr, by decide +kernel,
        .inl ⟨by decide +kernel, rfl⟩, by decide +kernel, ran _ (by decide +kernel), .inr (.inr (.inr ⟨by decide +kernel,
          by decide +kernel, .inr (.inr (.inr (.inr ⟨by decide +kernel, rfl, ranUnit (by decide +kernel)⟩)))⟩))⟩⟩⟩)⟩

theorem witness_HostReaches_queues :
    (let c := mapQueue running { world with queueSlots := ⟨[(5, 0)], 0, 0⟩ }
     c.queueSlots.slots ≠ [] ∧ (c.queueSlots.slots.getD 0 (0, 0)).1 = 5 ∧ queuePending running c 5 = 0 ∧
       Visits running 5 0 c c) ∧
    (let c := mapQueue running queueOne
     (c.queueSlots.slots.getD 0 (0, 0)).1 = 0 ∧ powerOfTwo (queueControl running c 0 % 65536) 16 256 = true ∧
       min (queuePending running c 0) (2 ^ min ((running.mgmt[0]).userTable % 16) 12) = 1 ∧ (∃ c1, Visits running 0 1 c c1) ∧
       ∃ c1, Visits running 0 1 { c with rejected := [0xD0FF] } c1) := by
  refine ⟨⟨by decide +kernel, by decide +kernel, by decide +kernel, rfl⟩, by decide +kernel, by decide +kernel, by decide +kernel, ?_, ?_⟩
  · exact ⟨_, .inr ⟨0, _, 3, _, by decide +kernel, fun j hj => absurd hj (by omega), by decide +kernel, rfl,
      .inr (.inr ⟨by decide +kernel, by decide +kernel, .inl ⟨by decide +kernel, rfl, rfl⟩⟩), rfl⟩⟩
  · exact ⟨_, .inr ⟨1, _, 1, _, by decide +kernel, by decide +kernel, by decide +kernel, rfl,
      .inl ⟨by decide +kernel, rfl, rfl⟩, rfl⟩⟩

/-- A STORED strand. -/
def shelved : Strand := { user with place := .stored, lines := [] }

theorem witness_HostReaches : running.firmware.recovery = false ∧ plat.firmware.recovery = true ∧
    storedAt plat (with1 shelved) 0x408 = some (key, 8) ∧ storedAt plat world 0x803F = none ∧ (about 1).index = 1 ∧ 1 ≠ 2 ∧
    (running.mgmt[0]).userTable / 4096 ≠ 0 ∧ world.mem.wf = true ∧ 0x803F + [0xFF].length ≤ 2 ^ 39 ∧
    0x803F % 64 + [0xFF].length ≤ 64 ∧ layerGone running 0x803F = false := by
  refine ⟨?_, ?_, ?_, ?_, rfl, ?_, ?_, ?_, ?_, ?_, ?_⟩ <;> decide +kernel

/-- A held event of die 0 and a supervisor ring of 64 records at 0xD000. -/
def heldEvent : SupEvent := ⟨0, 8, 0, 0, 0x400, 0, []⟩
def line1 : L2Line := ⟨0, 0x200, 0x200, false, false, false, none, 0, 0, 0, none, 0⟩

theorem leastOfTwo {c : Core} {a b : L2Line} (hs : c.stations = []) (hf : c.fetched = []) (hl : c.l2 = [a, b])
    (ha : a.vline = 0x200) (hb : b.vline = 0x200) : leastUsed c 0x200 = if b.used < a.used then some b else some a := by
  simp [leastUsed, hl, mayLeave, blockOwned, hs, hf, ha, hb, Laws.sharesSet_self]

/-- Another job's line of the same address, taken at `t` and used at `n`. -/
def rival (t : Option Nat) (n : Nat) : L2Line := { line1 with job := 1, place := t, used := n }

/-- A line taken after the last use of another of its set, which is the set's least recently used; none taken; and one of which
another is used less recently. -/
theorem witness_JobsBeginAndEnd_eviction :
    (let s := happening (about 0) { world with l2 := [line1, rival (some 1) 1] }
     Happens s (about 0) ∧ s.core.l2[0]? = some line1 ∧
       s.core.l2.find? (fun m => m.place.any (fun t => decide (line1.used < t)) && sharesSet m.vline line1.vline) = some (rival (some 1) 1) ∧
       leastUsed s.core line1.vline = some line1) ∧
    (let s := happening (about 0) { world with l2 := [line1] }
     s.core.l2[0]? = some line1 ∧ ∀ m ∈ s.core.l2, ∀ t, m.place = some t → line1.used < t → sharesSet m.vline line1.vline = false) ∧
    (let s := happening (about 0) { world with l2 := [{ line1 with used := 2 }, rival (some 3) 1] }
     s.core.l2[0]? = some { line1 with used := 2 } ∧ leastUsed s.core line1.vline ≠ some { line1 with used := 2 }) := by
  refine ⟨⟨rfl, rfl, ?_, ?_⟩, ⟨rfl, ?_⟩, rfl, ?_⟩
  · refine (List.find?_cons_of_neg ?_).trans (List.find?_cons_of_pos ?_)
    · exact Bool.false_ne_true
    · exact Laws.sharesSet_self 0x200
  · exact (leastOfTwo rfl rfl rfl rfl rfl).trans (if_neg (by decide))
  · intro m hm t ht
    simp only [happening, List.mem_singleton] at hm
    rw [hm] at ht
    exact nomatch ht
  · intro h
    have h2 := (leastOfTwo rfl rfl rfl rfl rfl).symm.trans h
    rw [if_pos (by decide)] at h2
    exact absurd (congrArg (Option.map L2Line.job) h2) (by decide)

theorem witness_JobsBeginAndEnd :
    (let s := happening (about 0) { world with jobs := [] }
     Happens s (about 0) ∧ jobLive plat s.core 0 = true ∧ 0 ∉ s.core.jobs) ∧
    (let s := happening (about 0) (wordsAt [(0, 0)])
     jobLive plat s.core 0 = false ∧ 0 ∈ s.core.jobs) ∧
    (let p := plat.updMgmt 0 fun m => { m with supQueue := 0xD000 }
     let s := happening (about 0) { wordsAt [(0xD000, 0xE000), (0xD008, 64)] with held := [heldEvent] } p
     s.core.held.findIdx? (fun x => x.die == 0) = some 0 ∧ s.core.held[0]? = some heldEvent ∧ supRoom p s.core 0 = true) := by
  refine ⟨⟨rfl, ?_, ?_⟩, ⟨?_, ?_⟩, ?_, rfl, ?_⟩ <;> decide +kernel

/-- A scrub of 0x8000, and the last line of the last stack. -/
def scrub (a outcome : Nat) : EventArg := ⟨0, 0, a, outcome, []⟩

theorem witness_PlatformEvents :
    (∀ o ∈ [0, 1, 2], Happens (happening (scrub 0x8000 o)) (scrub 0x8000 o) ∧ o % 3 = o) ∧ 0x8000 < 2 ^ 39 ∧ 0x8000 % 64 = 0 ∧
    layerGone plat 0x8000 = false ∧ 0x7FFFFFFFC0 < 2 ^ 39 ∧ 0x7FFFFFFFC0 % 64 = 0 ∧ layerGone plat 0x7FFFFFFFC0 = false ∧
    (let c : Core := { world with jobs := [] }
     let s := happening (scrub 0x8000 2) c
     s.core.tasks = [] ∧ s.core.strands = [] ∧ s.core.jobs = [] ∧ s.core.l2 = []) ∧
    (let s := happening ⟨2, 0, 0x8008, 2, []⟩ { world with l2 := [line1], jobs := [] }
     s.core.tasks = [] ∧ s.core.jobs = [] ∧ ∃ l ∈ s.core.l2, l.pline = 0x8008 / 64) ∧
    (let s := happening ⟨4, 0, 0x400, 2, [15]⟩ (with1 user)
     s.core.strand? key = some user ∧ user.resident = true) ∧ (plat.mgmt[3]).mappedA.getLsbD 15 = false ∧
    (let s := happening (about 0) { world with mgmtWrites := [⟨3, 0x30, 8, 168⟩, ⟨2, 0x37, 1, 168⟩] }
     (s.core.mgmtWrites.take (about 0).index).all (fun y => !y.isOf 3 0x30) = true ∧ s.core.mgmtWrites[0]? = some ⟨3, 0x30, 8, 168⟩ ∧
       (168 : Word).toNat ≤ 168 ∧ (s.core.mgmtWrites.take (about 1).index).all (fun y => !y.isOf 2 0x37) = true ∧
       s.core.mgmtWrites[1]? = some ⟨2, 0x37, 1, 168⟩) ∧
    (let s := happening (about 1) { world with mgmtWrites := [⟨3, 0x30, 8, 168⟩, ⟨3, 0x37, 1, 168⟩] }
     s.core.mgmtWrites[1]? = some ⟨3, 0x37, 1, 168⟩ ∧ ∃ y ∈ s.core.mgmtWrites.take (about 1).index, y.die = 3 ∧ y.off / 8 = 0x37 / 8) ∧
    (∀ v ∈ [0, 169], let s := happening (about 0) { world with mgmtWrites := [⟨3, 0x30, 8, BitVec.ofNat 64 v⟩] }
     s.core.mgmtWrites[0]? = some ⟨3, 0x30, 8, BitVec.ofNat 64 v⟩ ∧
       ((BitVec.ofNat 64 v).toNat = 0 ∨ 168 < (BitVec.ofNat 64 v).toNat)) ∧
    (let p := plat.updMgmt 3 fun m => { m with softLayers := [15] }
     let v : Word := 0x800000000000000F
     let s := happening (about 0) { world with mgmtWrites := [⟨3, 0x20, 8, v⟩] } p
     s.core.mgmtWrites[0]? = some ⟨3, 0x20, 8, v⟩ ∧ v.getLsbD 63 = true ∧ v.toNat % 32 < 16 ∧
       (p.mgmt[3]).softLayers.contains (v.toNat % 32) = true ∧ (p.mgmt[3]).mappedA.getLsbD (v.toNat % 32) = false) := by
  refine ⟨fun o ho => ⟨rfl, ?_⟩, ?_, ?_, ?_, ?_, ?_, ?_, ⟨rfl, rfl, rfl, rfl⟩, ⟨rfl, rfl, line1, .head _, ?_⟩, ⟨?_, ?_⟩, ?_,
    ⟨rfl, rfl, ?_, ?_, rfl⟩, ⟨rfl, _, .head _, rfl, rfl⟩, fun v hv => ⟨rfl, by revert v; decide⟩, rfl, ?_, ?_, ?_, ?_⟩
  · revert o; decide
  all_goals decide +kernel

theorem witness_PlatformEvents_links : (⟨463, 0, 0, 7, []⟩ : EventArg).unit < 512 ∧ 463 % 128 < 80 ∧ (⟨16383, 0, 0, 0, []⟩ : EventArg).unit < 16384 ∧
    (let s := happening (about 0) world { plat with failedLinks := [0] }
     Happens s (about 0) ∧ (about 0).index = 0 ∧ s.plat.failedLinks = [(about 0).unit]) ∧ (about 1).index ≠ 0 :=
  ⟨by decide, by decide, by decide, ⟨rfl, rfl, rfl⟩, by decide⟩

/-- An empty image is refused. -/
theorem witness_ResetVerifies : Happens (happening (about 0)) (about 0) ∧ ¬ Accepted plat.firmware [] := by
  refine ⟨rfl, fun h => ?_⟩
  exact absurd h.1 (by decide +kernel)

/-- An image of five bytes, version 7, signed under a key of 3,072 bits that was made for it, with the salt of bytes 100 to
131: the digests and the signature come from another implementation of the standards. -/
def testModulus : Nat := 0xcd9bfdfe5eeaf75b57965d363799dec6caafb2cadb4db93e5c2d9e30ef394e4460ab1bd39b04393087aae9d0a369f4240c0bff178a933f08bb8bd66f614b0b00ced85ba0a8964855d9089afcff82f4045c0baa460cfe4e82d4578fe2dfb08c40b7681b02d950ba2c7f9e6d284fd91d4e176d3e972dc6521f7014aa3fb080f63e2704c53e2d97ec16bfe52ca25eb125de3a44021464a589d0c51961441ae0efdc0d8a56cfd8d3f7a8db75b71653767ba25631807aed02cc8a5a233a4b43070e5b63b49a594a2450cb304cf1568d9f0c8b5c3f0c8013f6f9dd383dcfaafdf844707a6e5b0c8ff75ed58d4cd0e2a98157ea6cf65eeac86528fa8f9f0a5780f61524f49501d1ba573b7aeb25531e1eea10404f23dd35ee8569855421478233387bfa97661b3354e61a4d9d1b4cc887754fda36cf7f46dfd076ef0b5594b089240f9e7b94522c6c488e77993129587702369fd7a1dea7b2459343dc6f17e9651d9d14e63087c4a3588176597b550cdccb560082f8b81a2dddb9edc38b889f24ce2041
def testSignature : Nat := 0x582d691f3f6e8752d9e257acfd185705d9555914b98de5ab8ab845f755ba1b0dc0f6133ecb2c4d375b0d521d226b548e77de5baa38ebc8dcb22bd021e7919ab0d17cd2d802b5f0f7f7bbbdfb7245e1a4a53481b30bd2aaf0128ba19c12391d5297438821a16fe68e84a3ce801de743b78543400466abd4966dc6ed3462e36824d9730a73c33e6a18d1b866001315a0ce9e91bc5fc4a64a12c6e236bd2ccdf12dcdc04577cbd193b2406c7b9cb58a19f1cf04acc70117b246c54d02f4cbd686086fc07e63527c474e0f4aa38a1d6ee5df495ada667c5eb6aa1a1bc8de195ae5c25ce5c971ee60929983c009ba849b4a111cab72a61d7307ff3216535657daab4cb154f310abd0927d0c3073030b3874a40ad1aba8dbf3f2e10cb60bc421a3a456aa9a247f479f2702808a1d6397e00b9f4288cd5045a7b94c8f5ec7275e31b5ef6271e9ac58e80d39aff4a8481dfa9a2b0143f15a2e8164fcc43392a39283f1a84a29115690819231eeb355b0b11d06eeaeb8fb263aa42c839e0bda3c860279d9
def bodyDigest : Nat := 0x3d2835cbc9511f8714b48db4b5d9a4b122d00ed39308de9e04c1aa6e5d5ebb08
def image : List Byte := leBytes 4 0x464D4C50 ++ leBytes 4 1 ++ leBytes 8 7 ++ leBytes 8 5 ++ List.replicate 40 0 ++
  leBytes 32 bodyDigest ++ List.replicate 32 0 ++ beBytes 384 testSignature ++ beBytes 384 testModulus ++
  List.replicate 128 0 ++ [0, 1, 2, 3, 4]
def fused : Firmware := { plat.firmware with keyDigests := [sha256 (imageOf image).modulus], revoked := 0 }

theorem witness_ResetVerifies_accepted : Accepted fused image :=
  ⟨by decide +kernel, by decide +kernel, by decide +kernel, by decide +kernel, ⟨0, by decide, rfl, by decide⟩, by decide +kernel,
    by decide +kernel, by decide +kernel⟩

def negotiated : Platform := { plat with spdm := ⟨true, true, some 1, []⟩ }

theorem witness_Attests : Happens (happening (about 0)) (about 0) ∧ plat.spdm.version = false ∧ plat.spdm.negotiated = false ∧
    negotiated.spdm.version = true ∧ negotiated.spdm.capabilities = true ∧ negotiated.spdm.negotiated = true ∧
    negotiated.spdm.algorithm = some 1 ∧ ((6 : Nat).testBit 2 = true ∧ (6 : Nat).testBit 1 = true) ∧
    ((5 : Nat).testBit 2 = true ∧ (5 : Nat).testBit 1 = false ∧ (5 : Nat).testBit 0 = true) ∧ plat.spdm.capabilities = false ∧
    (3 : Nat).testBit 2 = false ∧ ((4 : Nat).testBit 1 = false ∧ (4 : Nat).testBit 0 = false) ∧ 0 ∉ [1, 2, 3, 4, 255] ∧
    254 ∉ [1, 2, 3, 4, 255] := by
  refine ⟨rfl, ?_, ?_, ?_, ?_, ?_, ?_, ?_, ?_, ?_, ?_, ?_, ?_, ?_⟩ <;> decide +kernel

/-! ### Witnesses: the machine as a whole -/

theorem witness_DecodeEncode : (Instr.ldf (.g 15) .lid 7 0x3F .system 15).wf = true ∧
    (encode (.ldf (.g 15) .lid 7 0x3F .system 15) ⟨0, 0, 0, 0, 0, 0, 0, 0, 0⟩).isSome = true ∧ Instr.vxSwz.wf = true ∧
    (encode .vxSwz addTcw).isSome = true ∧ Instr.vxSwz ∉ eventTable ∧
    Instr.ldf (.g 15) .lid 7 0x3F .system 15 ∉ eventTable ∧ eventTable.length = 56 := by decide +kernel

/-- Reset with `addi g1, g2, −1`, and with a tile command, where the machine fetches next. -/
def started (w : Nat) : State := State.reset.withFetchWord 256 w

/-- The core of the fetch of `started`. -/
def fetching (s : State) : Core :=
  { ((s.core.updStation 0 fun z => { z with cycle := z.cycle + 1 }).updStation 0 fun z => z.issueCycle 0 key).updStrand key
      (fun y => { y with hold := .none }) with work := .strand 0 0 key 0 none }

def fetches (s : State) : Bool :=
  match fetchAct s.plat (fetching s) with
  | .ok (some _, _) => true
  | _ => false

theorem witness_StepRunsDecoded : ∀ w ∈ [0x0822FFFF, 0xF8101000],
    (started w).schedule = [.issue 0] ∧ (started w).plat.stopped = false ∧ clockRuns (started w).core 0 = true ∧
    pickSlot ((started w).core.updStation 0 fun z => { z with cycle := z.cycle + 1 }) 0 = some (0, key) ∧
    (started w).core.cancelled.contains key.job = false ∧ fetches (started w) = true := by decide +kernel

theorem witness_StepRunsDecoded_code : ∀ w ∈ [0x0822FFFF, 0xF8101000],
    let c := fetching (started w)
    c.strand? key = some placedStrand ∧ SegReady placedStrand 0 ∧
    (∀ n ∈ [4, 32], CodeAt plat c placedStrand n 0x10000 0x10000 (after (locate 0 0x10000 4 n) plat c)) ∧ 0x10000 % 32 = 0 ∧
    placedStrand.loopEndsInside = false := by
  intro w hw
  refine ⟨?_, by unfold SegReady; decide, fun n hn => ⟨sameIs ?_, ⟨?_, runs ?_⟩, by decide +kernel, ?_⟩, by decide, by decide +kernel⟩
  · revert w; decide +kernel
  · revert n; decide +kernel
  · revert w; decide +kernel
  · revert n w; decide +kernel
  · revert n w; decide +kernel

/-- A step that ends in a next state: the one that stops the module. -/
theorem witness_StepKeepsFirmwareSound : ∃ u,
    step { State.reset with schedule := [.event .thermalStop (about 0)] } = .next u ∧ State.reset.plat.firmware.sound :=
  ⟨_, rfl, fun h => nomatch h⟩

theorem witness_StoppedModule : ({ State.reset with schedule := [.issue 0], plat := { plat with stopped := true } } : State).schedule =
      [.issue 0] ∧ (∀ arg, Turn.issue 0 ≠ .event .deviceReset arg) ∧ Happens (happening (about 0) world running) (about 0) ∧
    running.firmware.recovery = false ∧ plat.firmware.recovery = true :=
  ⟨rfl, (fun _ h => nomatch h), rfl, rfl, rfl⟩

/-- A strand with both queue ports bound, to queues 5 and 7, and `g4` empty. -/
def bound : Strand := { user with qbind := 0xFD, mask := 0xFFEF }

theorem witness_RegisterSpecifiers :
    (let c := (hand user).core
     c.work = .strand 0 0 key 0 none ∧ c.strand? key = some user ∧ user.mask.getLsbD 15 = true ∧ user.notes[15] = .plain ∧
       (c.station 0).westIn = [] ∧ (c.station 0).eastIn = [] ∧ 0 % 16 = 0 ∧ 639 % 16 = 15 ∧ user.qbind.getLsbD 3 = false ∧
       user.qbind.getLsbD 7 = false ∧ user.inHigh.count = 0 ∧ user.inLow.count = 0 ∧
       ∀ l ∈ [4, 5], l ∈ user.lines ∧ l ∉ user.badLines) ∧
    (let c := (hand bound { world with stations := [(0, { Station.reset with
        queues := Station.reset.queues.set 5 (List.replicate 16 0) })] }).core
     c.strand? key = some bound ∧ bound.mask.getLsbD 4 = false ∧ bound.qbind.getLsbD 3 = true ∧ 5 = bound.qbind.toNat % 8 ∧
       16 ≤ ((c.station 0).queues[5]!).length) ∧
    ((hand bound).core.station 0).queues[5]! = [] := by
  refine ⟨⟨rfl, ?_, ?_, rfl, ?_, ?_, ?_, ?_, ?_, ?_, rfl, rfl, ?_⟩, ⟨?_, ?_, ?_, ?_, ?_⟩, ?_⟩ <;> decide +kernel

/-- Station 17 of row 1 in hand: a word in each link and in queue 5, and room across both links; and with both links full, to
the east in the station's link alone, to the west with a word on its way. -/
def station17 : Station :=
  { Station.reset with westIn := [⟨3, 0⟩], eastIn := [⟨4, 0⟩], queues := Station.reset.queues.set 5 [9] }
def linked (x : Strand) (more : List (Nat × Station)) (moving : List LinkMsg) : Core :=
  { (hand x { world with stations := (17, station17) :: more, linkMsgs := moving }).core with work := .strand 17 0 key 0 none }
def jammed : Core := linked user
  [(18, { Station.reset with westIn := List.replicate 8 ⟨1, 0⟩ }), (16, { Station.reset with eastIn := List.replicate 7 ⟨1, 0⟩ })]
  [⟨16, true, ⟨2, 0⟩, key⟩]

/-- A strand with words in its inbox, of both lanes or of one, whose `out_target` is its own low lane. -/
def boxed (high low : Nat) : Strand :=
  { user with
    inHigh := (List.replicate high 5).foldl (fun l w => l.push w .plain) user.inHigh
    inLow := (List.replicate low 6).foldl (fun l w => l.push w .plain) user.inLow
    outTarget := 0x400 }

theorem witness_RegisterSpecifiers_ports :
    (let c := linked user [] []
     c.work = .strand 17 0 key 0 none ∧ c.strand? key = some user ∧ (c.station 17).westIn = [⟨3, 0⟩] ∧
       (c.station 17).eastIn = [⟨4, 0⟩] ∧ across 17 true = some 18 ∧ linkHolds c 18 true < 8 ∧ across 17 false = some 16 ∧
       linkHolds c 16 false < 8) ∧
    (jammed.strand? key = some user ∧ (jammed.station 17).westIn ≠ [] ∧ (∀ n, across 17 true = some n → 8 ≤ linkHolds jammed n true) ∧
      ∀ n, across 17 false = some n → 8 ≤ linkHolds jammed n false) ∧
    (∀ n, across 16 false = some n → 8 ≤ linkHolds jammed n false) ∧ (∀ n, across 15 true = some n → 8 ≤ linkHolds jammed n true) ∧
    (let c := linked bound [] []
     c.strand? key = some bound ∧ bound.qbind.getLsbD 7 = true ∧ 7 = bound.qbind.toNat / 2 ^ 4 % 8 ∧ (c.station 17).queues[5]! = [9] ∧
       (c.station 17).queues[7]! = []) ∧
    ((boxed 1 1).inHigh.count ≠ 0 ∧ (boxed 1 1).inHigh.notes[(boxed 1 1).inHigh.head % 8]! = .plain ∧ (boxed 0 1).inHigh.count = 0 ∧
      (boxed 0 1).inLow.count ≠ 0 ∧ (boxed 0 1).inLow.notes[(boxed 0 1).inLow.head % 8]! = .plain) ∧
    (let c : Core := (hand (boxed 0 7)).core
     key = ⟨key.job, (boxed 0 7).outTarget.toNat / 1024 * 1024⟩ ∧ false = (boxed 0 7).outTarget.getLsbD 0 ∧
       c.strand? key = some (boxed 0 7) ∧ laneHolds c key false < 8 ∧
       8 ≤ laneHolds { c with messages := [⟨key, false, 1, 0, key⟩] } key false) ∧
    logicalOf plat world 0 0 = some 0 ∧ logicalOf plat world 0 639 = none := by
  refine ⟨⟨rfl, ?_, ?_, ?_, ?_, ?_, ?_, ?_⟩, ⟨?_, ?_, ?_, ?_⟩, ?_, ?_, ⟨?_, ?_, ?_, ?_, ?_⟩, ⟨?_, ?_, ?_, ?_, ?_⟩,
    ⟨?_, ?_, ?_, ?_, ?_⟩, ?_, ?_⟩
  all_goals decide +kernel

/-- Four operations outstanding. -/
def full4 : Strand :=
  { user with window := 5, ops := [⟨some 4, 0, 3, .value 5 0, 0⟩, ⟨some 5, 4, 2, .value 5 0, 1⟩, ⟨some 6, 8, 1, .value 5 0, 2⟩,
    ⟨some 7, 12, 0, .value 5 0, 3⟩] }

theorem witness_LookaheadHolds : InHand (hand (busy 0)) 0 key 0 none (busy 0) ∧ (busy 0).ops ≠ [] ∧ (busy 0).window = 0 ∧
    InHand (hand (busy 1)) 0 key 0 none (busy 1) ∧ (busy 1).window ≠ 0 ∧ (∃ o ∈ (busy 1).ops, o.dest = some 4) ∧
    InHand (hand full4) 0 key 0 none full4 ∧ full4.window ≠ 0 ∧ (∀ o ∈ full4.ops, ∀ n, o.dest = some n → Reg.g 1 ≠ .g n) ∧
    4 ≤ full4.ops.length :=
  ⟨inHand rfl, by decide, rfl, inHand rfl, by decide, by decide, inHand rfl, by decide, by decide, by decide⟩

/-- `add g1, g2, g3` gives a next state in which the strand neither parks nor traps. -/
theorem witness_RegisterFrame : InHand (hand user) 0 key 0 none user ∧ user.sup = false ∧
    (match exec (.add (.g 1) (.g 2) (.g 3)) (hand user) with
     | .next u => (match u.core.strand? key with | some y => y.parked.isNone && !y.sup && y.g[1] == 0x8007 | none => false)
     | _ => false) = true :=
  ⟨inHand rfl, by decide, by decide +kernel⟩

/-! ### Single steps: expected values by hand from the rules named -/

/-- Registers `g1` to `g3` of a strand with an instruction in hand. -/
def regs (a b d : Word) : Strand := { placedStrand with g := #v[0, a, b, d, 0, 0, 0, 0, 0, 0, 0, 0, 0, 0, 0, 0] }

/-- Whether an instruction gives a next state of whose strand something holds. -/
def thenStrand (i : Instr) (s : State) (f : Strand → Bool) : Bool :=
  match exec i s with
  | .next u => (match u.core.strand? key with | some x => f x | none => false)
  | _ => false

/-- Whether an instruction gives a next state of whose core something holds. -/
def thenCore (i : Instr) (s : State) (f : Core → Bool) : Bool :=
  match exec i s with
  | .next u => f u.core
  | _ => false

/-- `g4` after an instruction on `g1` and `g2`. -/
def result (i : Reg → Reg → Reg → Instr) (a b : Word) (v : Word) : Bool :=
  thenStrand (i (.g 4) (.g 1) (.g 2)) (hand (regs a b 0)) fun x => x.g[4] == v && x.pc == 0x10004

/-- What a long-latency instruction on `g1` and `g2` brings. -/
def brings (i : Reg → Reg → Reg → BitVec 4 → Instr) (a b : Word) (v : Word) : Bool :=
  thenStrand (i (.g 4) (.g 1) (.g 2) 3) (hand (regs a b 0)) fun x =>
    !x.mask.getLsbD 4 && x.window == 3 && x.ops == [⟨some 4, 0x10000, 0, .value v 0, 0⟩]

/-- R87. -/
theorem test_add_wraps : result .add 0xFFFFFFFFFFFFFFFF 1 0 = true := by decide +kernel
theorem test_sub_borrows : result .sub 0 1 0xFFFFFFFFFFFFFFFF = true := by decide +kernel
theorem test_shift_amount_is_mod_64 : result .shl 1 65 2 = true ∧ result .ror 1 1 0x8000000000000000 = true := by decide +kernel
theorem test_sar_keeps_sign : result .sar 0x8000000000000000 63 0xFFFFFFFFFFFFFFFF = true := by decide +kernel
theorem test_min_signed : result .min 0xFFFFFFFFFFFFFFFF 1 0xFFFFFFFFFFFFFFFF = true ∧
    result .minz 0xFFFFFFFFFFFFFFFF 1 1 = true := by decide +kernel
theorem test_addsat_clamps : result .addsat 0x7FFFFFFFFFFFFFFF 1 0x7FFFFFFFFFFFFFFF = true ∧
    result .subsat 0x8000000000000000 1 0x8000000000000000 = true := by decide +kernel
theorem test_adds3_scales : result .adds3 1 2 17 = true := by decide +kernel
theorem test_clz_of_zero : result (fun d a _ => .clz d a) 0 0 64 = true ∧ result (fun d a _ => .ctz d a) 0 0 64 = true := by
  decide +kernel
theorem test_bswap : result (fun d a _ => .bswap d a) 0x0102030405060708 0 0x0807060504030201 = true := by decide +kernel
theorem test_sext_b : result (fun d a _ => .sextB d a) 0x180 0 0xFFFFFFFFFFFFFF80 = true := by decide +kernel

/-- R88. -/
theorem test_mulh : brings .mulh 0xFFFFFFFFFFFFFFFF 1 0xFFFFFFFFFFFFFFFF = true ∧
    brings .mulhz 0xFFFFFFFFFFFFFFFF 0xFFFFFFFFFFFFFFFF 0xFFFFFFFFFFFFFFFE = true := by decide +kernel
theorem test_div_corners : brings .div 7 0 0xFFFFFFFFFFFFFFFF = true ∧
    brings .div 0x8000000000000000 0xFFFFFFFFFFFFFFFF 0x8000000000000000 = true := by decide +kernel
theorem test_rem_sign : brings .rem 0xFFFFFFFFFFFFFFF9 2 0xFFFFFFFFFFFFFFFF = true ∧ brings .remz 7 0 7 = true := by decide +kernel

/-- R89 to R91. -/
theorem test_addi_sign_extends : result (fun d a _ => .addi d a 0xFFFF) 5 0 4 = true := by decide +kernel
theorem test_andi_zero_extends : result (fun d a _ => .andi d a 0xFFFF) 0xFFFFFFFFFFFFFFFF 0 0xFFFF = true := by decide +kernel
theorem test_movk_top : thenStrand (.movk (.g 1) 3 0xABCD) (hand (regs 0x1111222233334444 0 0))
    (fun x => x.g[1] == 0xABCD222233334444) = true := by decide +kernel
theorem test_adr_back : result (fun d _ _ => .adr d 0xFFFF) 0 0 0xFFFC = true := by decide +kernel

/-- R92 to R95: 1.5 + 2.5 = 4, the negative of 1, and zeros of either sign are equal. -/
theorem test_fadd : result .fadd 0x3FC00000 0x40200000 0x40800000 = true := by decide +kernel
theorem test_fneg : result (fun d a _ => .fneg d a) 0x3F800000 0 0xBF800000 = true := by decide +kernel
theorem test_feq_zeros : result .feq 0x80000000 0 1 = true := by decide +kernel

/-- R97: backwards by one instruction. -/
theorem test_br_lt_signed : thenStrand (.brLt (.g 1) (.g 2) 0x1FFF) (hand (regs 0xFFFFFFFFFFFFFFFF 0 0)) (fun x => x.pc == 0xFFFC) =
    true ∧ thenStrand (.brLtz (.g 1) (.g 2) 0x1FFF) (hand (regs 0xFFFFFFFFFFFFFFFF 0 0)) (fun x => x.pc == 0x10004) = true := by
  decide +kernel
/-- R98. -/
theorem test_jl_links : thenStrand (.jl 2) (hand (regs 0 0 0)) (fun x => x.pc == 0x10008 && x.g[15] == 0x10004) = true := by
  decide +kernel
/-- R99: a count of zero skips the body. -/
theorem test_loopi_zero : thenStrand (.loopi 0 3) (hand (regs 0 0 0)) (fun x => x.pc == 0x10010 && !x.looping) = true := by
  decide +kernel

/-- R107: a byte of 0x80 at 0x8000. -/
theorem test_ld_b_sign : thenStrand (.ldB (.g 4) (.g 3) 0 0 1) (hand (regs 0 0 0x8000) (wordsAt [(0x8000, 0x80)]))
    (fun x => x.ops.map (·.result) == [.value 0xFFFFFFFFFFFFFF80 0]) = true ∧
    thenStrand (.ldzB (.g 4) (.g 3) 0 0 1) (hand (regs 0 0 0x8000) (wordsAt [(0x8000, 0x80)]))
    (fun x => x.ops.map (·.result) == [.value 0x80 0]) = true := by decide +kernel
theorem test_st_h_displacement : thenCore (.stH (.g 1) (.g 3) 0 0x1FF) (hand (regs 0xABCDEF 0 0x8000))
    (fun c => c.mem.read 0x7FF8 8 == 0xCDEF000000000000) = true := by decide +kernel
/-- R83: past the limit of segment 0, k.tval is the offset. -/
theorem test_seg_trap : thenStrand (.ldD (.g 4) (.g 3) 0 0 0) (hand (regs 0 0 0x1FFF9))
    (fun x => x.cause == 3 && x.tval == 0x1FFF9 && x.epc == 0x10000 && x.pc == 0x4000 && x.sup) = true := by decide +kernel

/-- R116: `inc` wraps at its limit, and `cas` of another value writes nothing. -/
theorem test_amo_inc : thenCore (.amoDInc (.g 4) (.g 3) (.g 2) 0 .relaxed .die) (hand (regs 0 5 0x8000) (wordsAt [(0x8000, 5)]))
    (fun c => c.mem.read 0x8000 8 == 0) = true := by decide +kernel
theorem test_amo_cas : thenCore (.amoDCas (.g 4) (.g 3) (.g 2) 0 .relaxed .die) (hand (regs 0 5 0x8000) (wordsAt [(0x8000, 9)]))
    (fun c => c.mem.read 0x8000 8 == 9 && (match c.strand? key with | some x => x.g[4] == 9 | none => false)) = true := by
  decide +kernel

/-- R111: `stef` of an empty word fills it. -/
theorem test_stef : thenCore (.stef (.g 1) (.g 3) 0 0 .station) (hand (regs 77 0 0x8000))
    (fun c => c.mem.read 0x8000 8 == 77 && c.mem.isFull 0x8000) = true := by decide +kernel
/-- R50: an empty register parks its reader. -/
theorem test_park_on_empty : thenStrand (.add (.g 4) (.g 1) (.g 2)) (hand { regs 0 0 0 with mask := 0xFFFD })
    (fun x => x.parked == some (.reg 1) && x.pc == 0x10000) = true := by decide +kernel

/-- R138, R145: `trap 0x5C` of a user strand. -/
theorem test_trap : thenStrand (.trap 0x5C) (hand (regs 0 0 0))
    (fun x => x.cause == 0x5C0C && x.epc == 0x10004 && x.pc == 0x4000 && x.mode == 9) = true := by decide +kernel
/-- R72: `halt` of a user strand. -/
theorem test_priv : thenStrand .halt (hand (regs 0 0 0)) (fun x => x.cause == 2 && x.epc == 0x10000) = true := by decide +kernel

/-- R294: 1.5 + 2.5 = 4 in element 0 of the destination. -/
theorem test_vx_add : thenCore .vxAdd
    (let c := queued 4 [cmd .vxAdd (tcw 0 0x30000000 0x30000100 0x30000200 0x20000001)]
     turn 0 { c with stations := c.stations.map fun e => (e.1, setStashBytes (setStashBytes e.2 0x100 (leBytes 4 0x3FC00000)) 0x200
       (leBytes 4 0x40200000)) })
    (fun c => stashBytes (c.station 0) 0 4 == leBytes 4 0x40800000 && c.completions.map (·.status) == [0]) = true := by
  decide +kernel
/-- R187: `cp.fill` of one word. -/
theorem test_cp_fill : fillPlan.left = [0] ∧ (after (partAct fillPlan 0) plat world).mem.read 0x8000 8 = 5 := by decide +kernel
/-- R377: a stop. -/
theorem test_thermal_stop : (match exec .thermalStop (happening (about 0)) with | .next u => u.plat.stopped | _ => false) = true := by
  decide +kernel

/-- R34, R106: the loader's word becomes full, another write of the host leaves the bit. -/
theorem test_loader_fills :
    let s := fun n => after (hostAccessAct ⟨0, 0, 0x8000, n, [5]⟩) running { world with mem := Mem.reset }
    (s 1).mem.isFull 0x8000 = true ∧ (s 1).mem.isFull 0x8008 = false ∧ (s 0).mem.isFull 0x8000 = false ∧
      (s 1).mem.byte 0x8000 = 5 := by decide +kernel

end Sys2Proof.Tests
end

section
/-! SUPPORT. What reaching the home of a line leaves of memory and of L2, and what a store into a cell then writes. -/

namespace Sys2Proof.Machine

open Sys2Proof

/-! ### The bytes of a store -/

theorem leBytes_getElem {n j : Nat} (x : Nat) (h : j < (leBytes n x).length) :
    (leBytes n x)[j] = BitVec.ofNat 8 (x >>> (8 * j)) := by
  induction n generalizing x j with
  | zero => simp [leBytes] at h
  | succ n ih =>
    cases j with
    | zero => simp [leBytes]
    | succ j =>
      have hx : x / 256 = x >>> 8 := (Nat.shiftRight_eq_div_pow x 8).symm
      simp only [leBytes, List.getElem_cons_succ]
      rw [ih, hx, ← Nat.shiftRight_add, Nat.mul_succ, Nat.add_comm]

theorem Mem.byte_setBytes {m : Mem} (h : m.wf = true) (a : Nat) {j : Nat} {l : List Byte} (hj : j < l.length) :
    (m.setBytes a l).byte (a + j) = l[j] := by
  induction l generalizing m a j with
  | nil => simp at hj
  | cons b r ih =>
    have hb := Mem.wf_setByte h a b
    show ((m.setByte a b).setBytes (a + 1) r).byte (a + j) = _
    cases j with
    | zero => rw [Mem.byte_setBytes_other hb (by omega), Mem.byte_setByte h, if_pos (Nat.add_zero a), List.getElem_cons_zero]
    | succ j => rw [show a + (j + 1) = a + 1 + j by omega, ih hb (a + 1) (Nat.lt_of_succ_lt_succ hj), List.getElem_cons_succ]

/-- A word's low bytes stored are the word's bytes, lowest first (R1). -/
theorem Mem.byte_write_word {m : Mem} (h : m.wf = true) (a : Nat) {n j : Nat} (v : Word) (hj : j < n) :
    (m.write a n v.toNat).byte (a + j) = (v >>> (8 * j)).truncate 8 := by
  have hl : j < (leBytes n v.toNat).length := by rwa [leBytes_length]
  rw [Mem.write, Mem.byte_setBytes h a hl, leBytes_getElem]
  apply BitVec.eq_of_toNat_eq
  simp

@[simp] theorem Mem.full_write (m : Mem) (a n x : Nat) : (m.write a n x).full = m.full := (Mem.setBytes_bits m a _).1
@[simp] theorem Mem.full_setPoison (m : Mem) (a : Nat) (v : Bool) : (m.setPoison a v).full = m.full := rfl
@[simp] theorem Mem.cells_setLinePoison (m : Mem) (a : Nat) (v : Bool) : (m.setLinePoison a v).cells = m.cells := rfl
@[simp] theorem Mem.full_setLinePoison (m : Mem) (a : Nat) (v : Bool) : (m.setLinePoison a v).full = m.full := rfl

/-! ### Writes within an extent -/

/-- `m'` is `m` after writes of bytes within `[lo, lo + n)`. -/
structure Mem.Within (lo n : Nat) (m m' : Mem) : Prop where
  wf : m.wf = true → m'.wf = true
  full : m'.full = m.full
  byte : m.wf = true → ∀ e, e < lo ∨ lo + n ≤ e → m'.byte e = m.byte e

theorem Mem.Within.trans {lo n : Nat} {a b c : Mem} (h : Mem.Within lo n a b) (g : Mem.Within lo n b c) : Mem.Within lo n a c :=
  ⟨fun w => g.wf (h.wf w), g.full.trans h.full, fun w e he => (g.byte (h.wf w) e he).trans (h.byte w e he)⟩

theorem Mem.Within.setBytes {lo n a : Nat} {l : List Byte} (m : Mem) (ha : lo ≤ a) (hl : a + l.length ≤ lo + n) :
    Mem.Within lo n m (m.setBytes a l) :=
  ⟨fun w => Mem.wf_setBytes w a l, (Mem.setBytes_bits m a l).1, fun w _ _ => Mem.byte_setBytes_other w (by omega)⟩

theorem Mem.Within.write {lo n a k : Nat} (m : Mem) (x : Nat) (ha : lo ≤ a) (hk : a + k ≤ lo + n) :
    Mem.Within lo n m (m.write a k x) := .setBytes m ha (by rwa [leBytes_length])

/-! ### The write log (R365) -/

@[simp] theorem dropCopies_mem (but : Option Nat) (gone : L1Line → Bool) (c : Core) : (dropCopies but gone c).mem = c.mem := by
  unfold dropCopies; split <;> rfl

@[simp] theorem dropCopies_l2 (but : Option Nat) (gone : L1Line → Bool) (c : Core) : (dropCopies but gone c).l2 = c.l2 := by
  unfold dropCopies; split <;> rfl

@[simp] theorem wrotePhysical_mem (pa n : Nat) (c : Core) : (wrotePhysical pa n c).mem = c.mem := by
  unfold wrotePhysical; dsimp only; split <;> simp

@[simp] theorem deviceWrite_mem (c : Core) (pa n : Nat) (f : Mem → Mem) : (c.deviceWrite pa n f).mem = f c.mem := by
  simp [Core.deviceWrite]

/-- A line that no task has written leaves no trace in a log. -/
theorem logLine_untasked {p : Platform} {l : L2Line} (c : Core) (h : l.task = none) : logLine p l c = c := by
  simp [logLine, h]

/-- A line given to the log of its job is written within one of the log's entries, or nowhere. -/
theorem logLine_mem (p : Platform) (l : L2Line) (c : Core) :
    (logLine p l c).mem = c.mem ∨ ∃ a ∈ logEntries p c l.job, Mem.Within a 128 c.mem (logLine p l c).mem := by
  unfold logLine
  cases l.task with
  | none => exact .inl rfl
  | some t =>
    dsimp only
    split
    · exact .inl rfl
    · split
      · exact .inl rfl
      · rename_i a ha
        refine .inr ⟨a, List.mem_of_find?_eq_some ha, ?_⟩
        rw [deviceWrite_mem]
        refine (Mem.Within.write _ _ ?_ ?_).trans <| (Mem.Within.write _ _ ?_ ?_).trans <| (Mem.Within.write _ _ ?_ ?_).trans <|
          (Mem.Within.setBytes _ ?_ ?_).trans <| Mem.Within.write _ _ ?_ ?_
        all_goals simp

theorem logLine_wf {p : Platform} (l : L2Line) {c : Core} (h : c.mem.wf = true) : (logLine p l c).mem.wf = true := by
  obtain e | ⟨a, -, w⟩ := logLine_mem p l c
  · rwa [e]
  · exact w.wf h

@[simp] theorem logLine_full (p : Platform) (l : L2Line) (c : Core) : (logLine p l c).mem.full = c.mem.full := by
  obtain e | ⟨a, -, w⟩ := logLine_mem p l c
  · rw [e]
  · exact w.full

/-- An address outside a job's log lies outside each of its entries. -/
theorem outside_of_not_inLog {p : Platform} {c : Core} {job a e : Nat} (ha : a ∈ logEntries p c job) (he : ¬ inLog p c job e) :
    e < a ∨ a + 128 ≤ e := by
  obtain ⟨k, hk, rfl⟩ := List.mem_map.1 ha
  rw [List.mem_range] at hk
  unfold inLog at he
  omega

/-! ### Reaching the home of a line (R150 to R152, R379) -/

/-- No line of L2 has been written by a task with a write log. -/
def Core.Untasked (c : Core) : Prop := ∀ l ∈ c.l2, l.task = none

/-- What memory and L2 keep when a line's home is reached: lines may leave L2, with their logs written, and lines may be taken. -/
structure HomeReached (c c' : Core) : Prop where
  wf : c.mem.wf = true → c'.mem.wf = true
  full : c'.mem.full = c.mem.full
  untasked : c.Untasked → c'.Untasked
  cells : c.Untasked → c'.mem.cells = c.mem.cells

theorem HomeReached.refl (c : Core) : HomeReached c c := ⟨id, rfl, id, fun _ => rfl⟩

theorem HomeReached.trans {a b c : Core} (h : HomeReached a b) (g : HomeReached b c) : HomeReached a c :=
  ⟨fun w => g.wf (h.wf w), g.full.trans h.full, fun u => g.untasked (h.untasked u),
    fun u => (g.cells (h.untasked u)).trans (h.cells u)⟩

/-- A core with the same memory, whose lines of L2 are new or have the writers that they had. -/
theorem HomeReached.of_lines {c c' : Core} (hm : c'.mem = c.mem)
    (hl : ∀ l ∈ c'.l2, l.task = none ∨ ∃ x ∈ c.l2, l.task = x.task) : HomeReached c c' := by
  refine ⟨fun w => by rwa [hm], by rw [hm], fun u l h => ?_, fun _ => by rw [hm]⟩
  obtain e | ⟨x, hx, e⟩ := hl l h
  · exact e
  · exact e.trans (u x hx)

theorem useLine_reached (job va : Nat) (c : Core) : HomeReached c (useLine job va c) := by
  refine .of_lines rfl fun l hl => .inr ?_
  obtain ⟨x, hx, rfl⟩ := List.mem_map.1 hl
  exact ⟨x, hx, by split <;> rfl⟩

theorem takeLine_reached (job va : Nat) (m : Mapping) (b : Bool) (c : Core) : HomeReached c (takeLine job va m b c) := by
  refine .of_lines rfl fun l hl => ?_
  obtain rfl | hl := List.mem_cons.1 hl
  · exact .inl rfl
  · exact .inr ⟨l, hl, rfl⟩

/-- The core once a line that leaves L2 has given its log what the log takes: a clean one gives nothing (R365). -/
def leftLog (p : Platform) (l : L2Line) (c : Core) : Core := if l.dirty then logLine p l c else c

theorem leftLog_wf {p : Platform} (l : L2Line) {c : Core} (h : c.mem.wf = true) : (leftLog p l c).mem.wf = true := by
  unfold leftLog; split
  · exact logLine_wf l h
  · exact h

@[simp] theorem leftLog_full (p : Platform) (l : L2Line) (c : Core) : (leftLog p l c).mem.full = c.mem.full := by
  unfold leftLog; split <;> simp

theorem leftLog_untasked {p : Platform} {l : L2Line} (c : Core) (h : l.task = none) : leftLog p l c = c := by
  rw [leftLog, logLine_untasked c h, ite_self]

/-- Beside the log, a line that leaves L2 changes no more of memory than the poison bits of its own line. -/
theorem leaveL2_mem (p : Platform) (l : L2Line) (c : Core) :
    (leaveL2 p l c).mem = (leftLog p l c).mem ∨
      ∃ b, (leaveL2 p l c).mem = (leftLog p l c).mem.setLinePoison (l.pline * 64) b := by
  rw [leaveL2, ← leftLog]
  have hp : ∀ b : Bool, (if b = true then poisonRecords p l.pline (leftLog p l c) else leftLog p l c).mem = (leftLog p l c).mem :=
    fun b => by cases b <;> rfl
  dsimp only
  split
  · exact .inl rfl
  · simp only [hp]
    split
    · exact .inr ⟨_, rfl⟩
    · exact .inl rfl

/-- A line without a writer that leaves L2 gives no other line one. -/
theorem leaveL2_lines (p : Platform) {l x : L2Line} {c : Core} (h : l.task = none) (hx : x ∈ (leaveL2 p l c).l2) :
    ∃ y ∈ c.l2, x.task = y.task := by
  rw [leaveL2, ← leftLog, leftLog_untasked c h] at hx
  have hp : ∀ b : Bool, (if b = true then poisonRecords p l.pline c else c).l2 = c.l2 := fun b => by cases b <;> rfl
  dsimp only at hx
  split at hx
  · obtain ⟨y, hy, rfl⟩ := List.mem_map.1 (List.mem_filter.1 hx).1
    exact ⟨y, hy, by split <;> rfl⟩
  · rw [hp] at hx
    exact ⟨x, (List.mem_filter.1 hx).1, rfl⟩

theorem leaveL2_reached (p : Platform) {l : L2Line} {c : Core} (hl : l ∈ c.l2) : HomeReached c (leaveL2 p l c) := by
  have hm := leaveL2_mem p l c
  refine ⟨fun w => ?_, ?_, fun u x hx => ?_, fun u => ?_⟩
  · obtain e | ⟨b, e⟩ := hm <;> rw [e]
    · exact leftLog_wf l w
    · exact Mem.wf_setLinePoison (leftLog_wf l w) _ _
  · obtain e | ⟨b, e⟩ := hm <;> simp [e]
  · obtain ⟨y, hy, e⟩ := leaveL2_lines p (u l hl) hx
    exact e.trans (u y hy)
  · obtain e | ⟨b, e⟩ := hm <;> simp [e, leftLog_untasked c (u l hl)]

theorem leastUsed_mem {c : Core} {v : Nat} {l : L2Line} (h : leastUsed c v = some l) : l ∈ c.l2 := by
  revert h l
  refine List.foldlRecOn (motive := fun b : Option L2Line => ∀ {l}, b = some l → l ∈ c.l2) _ _ (by simp) ?_
  intro b hb x hx l h
  have hxc : x ∈ c.l2 := (List.mem_filter.1 hx).1
  cases b with
  | none => exact Option.some.inj h ▸ hxc
  | some y =>
    dsimp only at h
    split at h
    · exact Option.some.inj h ▸ hxc
    · exact hb h

/-- An attempt that does no more to memory and L2 than reaching a line's home does. -/
def Reaches {α : Type} (a : Act α) : Prop := ∀ p c v c', a p c = .ok (v, c') → HomeReached c c'

theorem Reaches.pure {α : Type} (v : α) : Reaches (pure v : Act α) := by
  intro p c w c' h
  simp only [act_pure, Except.ok.injEq, Prod.mk.injEq] at h
  exact h.2 ▸ .refl c

theorem Reaches.stop {α : Type} (x : Stop) : Reaches (stop x : Act α) := by
  intro p c w c' h
  simp at h

theorem Reaches.onCore {f : Core → Core} (hf : ∀ c, HomeReached c (f c)) : Reaches (onCore f) := by
  intro p c w c' h
  simp only [act_onCore, Except.ok.injEq, Prod.mk.injEq] at h
  exact h.2 ▸ hf c

theorem Reaches.get : Reaches (get : Act Core) := by
  intro p c w c' h
  simp only [act_get, Except.ok.injEq, Prod.mk.injEq] at h
  exact h.2 ▸ .refl c

theorem Reaches.read : Reaches (read : Act Platform) := by
  intro p c w c' h
  simp only [act_read, Except.ok.injEq, Prod.mk.injEq] at h
  exact h.2 ▸ .refl c

theorem Reaches.bind {α β : Type} {a : Act α} {f : α → Act β} (ha : Reaches a) (hf : ∀ v, Reaches (f v)) : Reaches (a >>= f) := by
  intro p c w c' h
  rw [act_bind] at h
  cases he : a p c with
  | error e => simp [he] at h
  | ok r =>
    rw [he] at h
    exact (ha p c _ _ he).trans (hf _ p _ _ _ h)

theorem makePlace_reaches (va : Nat) : Reaches (makePlace va) := by
  intro p c v c' h
  simp only [makePlace, act_bind, act_read, act_get] at h
  split at h
  · exact Reaches.pure _ p c _ _ h
  · cases hl : leastUsed c (lineOf va) with
    | none =>
      simp only [hl, act_pure, Except.ok.injEq, Prod.mk.injEq] at h
      exact h.2 ▸ .refl c
    | some l =>
      simp only [hl, act_bind, act_set, act_pure, Except.ok.injEq, Prod.mk.injEq] at h
      exact h.2 ▸ leaveL2_reached p (leastUsed_mem hl)

theorem useDeviceLine_reaches (pa : Nat) : Reaches (useDeviceLine pa) := by
  refine .bind .get fun c => ?_
  split
  · exact .onCore (useLine_reached _ _)
  · refine .bind .read fun p => ?_
    split
    · exact .pure _
    · exact .bind (makePlace_reaches pa) fun b => .onCore (takeLine_reached _ _ _ b)

theorem readEntry_reaches (die job : Nat) (directory : Bool) (index addr : Nat) :
    Reaches (readEntry die job directory index addr) := by
  refine .bind .get fun c => ?_
  split
  · exact .pure _
  · exact .bind (useDeviceLine_reaches addr) fun _ => .onCore fun c => .of_lines rfl fun l hl => .inr ⟨l, hl, rfl⟩

theorem translateVa_reaches (job va : Nat) : Reaches (translateVa job va) := by
  refine .bind .read fun p => .bind .get fun c => ?_
  split
  · exact .pure _
  · refine .bind .get fun c => .bind (readEntry_reaches _ _ _ _ _) fun _ => .bind .get fun c => ?_
    dsimp only
    split
    · exact .bind (readEntry_reaches _ _ _ _ _) fun _ => .bind .get fun c => .pure _
    · exact .bind .get fun c => .pure _

theorem reachLine_reaches (job va : Nat) (fault : Nat × Nat × Nat) : Reaches (reachLine job va fault) := by
  refine .bind .get fun c => ?_
  split
  · exact .bind (.onCore (useLine_reached _ _)) fun _ => .pure _
  · refine .bind (translateVa_reaches job va) fun m => ?_
    split
    · exact .stop _
    · split
      · exact .pure _
      · refine .bind .read fun p => ?_
        split
        · exact .pure _
        · exact .bind (makePlace_reaches va) fun b => .bind (.onCore (takeLine_reached _ _ _ b)) fun _ => .pure _

theorem findLine_useLine {c : Core} {job va : Nat} {l : L2Line} (h : findLine c job va = some l) :
    findLine (useLine job va c) job va ≠ none := by
  rw [findLine, List.find?_eq_some_iff_append] at h
  obtain ⟨hl, as, bs, hs, -⟩ := h
  have hmem : l ∈ c.l2 := hs ▸ List.mem_append_right as List.mem_cons_self
  intro hnone
  refine List.find?_eq_none.1 hnone _ (List.mem_map_of_mem hmem) ?_
  rw [if_pos hl]
  exact hl

theorem findLine_takeLine (job va : Nat) (m : Mapping) (b : Bool) (c : Core) : findLine (takeLine job va m b c) job va ≠ none := by
  simp [findLine, takeLine]

/-- The cell of a good layer that a line's home is reached for has its line in L2. -/
theorem findLine_of_reachLine {job va pa : Nat} {fault : Nat × Nat × Nat} {pin : Bool} {p : Platform} {c c' : Core}
    (h : reachLine job va fault p c = .ok (.cell pa pin, c')) (hg : layerGone p pa = false) : findLine c' job va ≠ none := by
  simp only [reachLine, act_bind, act_get] at h
  cases hl : findLine c job va with
  | some l =>
    simp only [hl, act_bind, act_onCore, act_pure, Except.ok.injEq, Prod.mk.injEq] at h
    exact h.2 ▸ findLine_useLine hl
  | none =>
    simp only [hl, act_bind] at h
    cases ht : translateVa job va p c with
    | error e => simp [ht] at h
    | ok r =>
      obtain ⟨m, d⟩ := r
      cases m with
      | none => simp [ht] at h
      | some m =>
        simp only [ht] at h
        split at h
        · simp at h
        · simp only [act_bind, act_read] at h
          split at h
          · simp_all
          · cases hm : makePlace va p d with
            | error e => simp [hm] at h
            | ok r =>
              obtain ⟨b, d'⟩ := r
              simp only [hm, act_bind, act_onCore, act_pure, Except.ok.injEq, Prod.mk.injEq] at h
              exact h.2 ▸ findLine_takeLine _ _ _ _ _

/-- An address that reaches a cell of memory is of no live record and no management block: the home of its line is reached. -/
theorem reachLine_of_locate {job va kind size pa : Nat} {pin : Bool} {p : Platform} {c c' : Core}
    (h : locate job va kind size p c = .ok (.cell pa pin, c')) :
    reachLine job va (va, kind, size) p c = .ok (.cell pa pin, c') := by
  simp only [locate, locateFor, act_bind, act_get] at h
  cases hr : recordAt c job va with
  | some x =>
    simp only [hr] at h
    split at h
    · simp only [act_bind] at h
      split at h <;> simp at h
    · simp at h
  | none =>
    cases hm : mgmtAt va with
    | some e => simp [hr, hm] at h
    | none =>
      simp only [hr, hm, act_bind] at h
      cases hl : reachLine job va (va, kind, size) p c with
      | error e => simp [hl] at h
      | ok r =>
        obtain ⟨t, d⟩ := r
        simp only [hl] at h
        cases t with
        | cell pa' pin' =>
          simp only [act_bind, act_read, act_get, act_pure, cellTarget] at h
          split at h <;> simp_all
        | _ => simp at h

/-! ### A store into a cell -/

/-- Before a task's write the log of its job takes what the line held, in one of its entries, or nothing; nothing where L2 holds the
line and no line of it has a writer. -/
theorem tagLine_mem (p : Platform) (pt : Party) (va pa : Nat) (c : Core) :
    (tagLine p pt va pa c).mem = c.mem ∨
      ((c.Untasked → findLine c pt.job va = none) ∧
        ∃ a ∈ logEntries p c pt.job, Mem.Within a 128 c.mem (tagLine p pt va pa c).mem) := by
  have hlog : ∀ l : L2Line, l.job = pt.job → (l.task = none ∨ (c.Untasked → findLine c pt.job va = none)) →
      (logLine p l (noteOthers p pt va c)).mem = c.mem ∨ ((c.Untasked → findLine c pt.job va = none) ∧
        ∃ a ∈ logEntries p c pt.job, Mem.Within a 128 c.mem (logLine p l (noteOthers p pt va c)).mem) := by
    rintro l hj (ht | hu)
    · exact .inl (by rw [logLine_untasked _ ht]; rfl)
    · exact (logLine_mem p l (noteOthers p pt va c)).imp id fun h => ⟨hu, hj ▸ h⟩
  unfold tagLine
  dsimp only
  split
  · rename_i l hf
    have hl : l ∈ c.l2 := List.mem_of_find?_eq_some hf
    have hfirst := List.find?_some hf
    simp only [Bool.and_eq_true, beq_iff_eq] at hfirst
    obtain ⟨⟨⟨hjob, -⟩, -⟩, -⟩ := hfirst
    refine hlog l hjob ?_
    cases ht : l.task with
    | none => exact .inl rfl
    | some t => exact .inr fun u => by simp [u l hl] at ht
  · split
    · rename_i h
      simp only [Bool.and_eq_true, Option.isNone_iff_eq_none] at h
      obtain ⟨-, hnew⟩ := h
      exact hlog _ rfl (.inr fun _ => hnew)
    · exact .inl rfl

theorem beforeWrite_mem (p : Platform) (pt : Party) (va pa : Nat) (own : Option Nat) (c : Core) :
    (beforeWrite p pt va pa own c).mem = c.mem ∨
      ((c.Untasked → findLine c pt.job va = none) ∧
        ∃ a ∈ logEntries p c pt.job, Mem.Within a 128 c.mem (beforeWrite p pt va pa own c).mem) := by
  have hm : (dropL1 pt.job va own c).mem = c.mem := dropCopies_mem ..
  have hl : (dropL1 pt.job va own c).l2 = c.l2 := dropCopies_l2 ..
  have h := tagLine_mem p pt va pa (dropL1 pt.job va own c)
  simpa only [beforeWrite, Core.Untasked, findLine, logEntries, logCount, logBase, jobField, jobRecord, hm, hl] using h

theorem beforeWrite_wf {p : Platform} {pt : Party} {va pa : Nat} {own : Option Nat} {c : Core} (h : c.mem.wf = true) :
    (beforeWrite p pt va pa own c).mem.wf = true := by
  obtain e | ⟨-, a, -, w⟩ := beforeWrite_mem p pt va pa own c
  · rwa [e]
  · exact w.wf h

theorem beforeWrite_full (p : Platform) (pt : Party) (va pa : Nat) (own : Option Nat) (c : Core) :
    (beforeWrite p pt va pa own c).mem.full = c.mem.full := by
  obtain e | ⟨-, a, -, w⟩ := beforeWrite_mem p pt va pa own c
  · rw [e]
  · exact w.full

/-- The preparations of a write change no byte outside the log of the writer's job. -/
theorem beforeWrite_byte {p : Platform} {pt : Party} {va pa a : Nat} {own : Option Nat} {c : Core} (h : c.mem.wf = true)
    (ha : ¬ inLog p c pt.job a) : (beforeWrite p pt va pa own c).mem.byte a = c.mem.byte a := by
  obtain e | ⟨-, b, hb, w⟩ := beforeWrite_mem p pt va pa own c
  · rw [e]
  · exact w.byte h a (outside_of_not_inLog hb ha)

/-- Where L2 holds the line and no line of it has a writer, the preparations of a write leave memory as it is. -/
theorem beforeWrite_untasked {p : Platform} {pt : Party} {va pa : Nat} {own : Option Nat} {c : Core} (h : c.Untasked)
    (hl : findLine c pt.job va ≠ none) : (beforeWrite p pt va pa own c).mem = c.mem := by
  obtain e | ⟨hu, -⟩ := beforeWrite_mem p pt va pa own c
  · exact e
  · exact absurd (hu h) hl

@[simp] theorem noteSeal_mem (p : Platform) (pa size : Nat) (c : Core) : (noteSeal p pa size c).mem = c.mem := by
  unfold noteSeal
  dsimp only
  split <;> split <;> rfl

@[simp] theorem updateL1_mem (pt : Party) (va pa : Nat) (c : Core) : (updateL1 pt va pa c).mem = c.mem := by
  unfold updateL1; split <;> rfl

/-- A store into a cell of a good layer is performed unless a part of a poisoned word would be written: its bytes are written over
what the preparations of the write left, and no full/empty bit changes (R105 to R107, R109). -/
theorem storeCell_ok {p : Platform} {pt : Party} {pa va size : Nat} (v : Word) {c : Core} (hg : layerGone p pa = false)
    (hp : size = 8 ∨ c.mem.isPoison pa = false) :
    ∃ c' own, storeCell pt pa va size v p c = .ok ((), c') ∧
      c'.mem.cells = ((beforeWrite p pt va pa own c).mem.write pa size v.toNat).cells ∧ c'.mem.full = c.mem.full := by
  have hr : (layerGone p pa || (size != 8 && c.mem.isPoison pa)) = false := by
    rcases hp with rfl | hp <;> simp [*]
  simp only [storeCell, act_bind, act_read, act_get, hr, Bool.false_eq_true, if_false, act_onCore]
  generalize (if pt.strand = true then some pt.station else none) = own
  refine ⟨_, own, rfl, ?_, ?_⟩ <;> rw [updateL1_mem, noteSeal_mem] <;> dsimp only
  · split <;> rfl
  · split <;> simp [beforeWrite_full]

/-! ### A store to an ordinary cell -/

/-- An access of a strand that has nothing on its way does not wait (R159). -/
theorem needEarlier_none {p : Platform} {c : Core} {pt : Party} (va size : Nat) (h : Claims.NothingOwn c pt) :
    needEarlier pt va size p c = .ok ((), c) := by
  simp only [needEarlier, act_bind, act_get]
  cases hs : pt.strand with
  | false => rfl
  | true =>
    obtain ⟨-, hdec, hmem⟩ := h hs
    have hd : (c.decrements.any fun d => d.ofStrand ⟨pt.job, pt.ctx⟩ && decide (va < d.record + 8) && decide (d.record < va + size)) =
        false := by
      refine List.any_eq_false.2 fun d hd => ?_
      have := hdec d hd
      simp_all [Decrement.ofStrand]
    have hm : (c.members.any fun r => r.key == ⟨pt.job, pt.ctx⟩) = false :=
      List.any_eq_false.2 fun r hr => by simpa using hmem r hr
    simp [hd, hm]

theorem mappedEntry_station {c : Core} {job block : Nat} (h : ∀ e ∈ c.stations, mappedEntry e.2 job block = none) (pid : Nat) :
    mappedEntry (c.station pid) job block = none := by
  unfold Core.station
  split
  · rename_i hf
    exact h _ (List.mem_of_find?_eq_some hf)
  · rfl

theorem windowEntry_none {p : Platform} {c : Core} {pt : Party} {va : Nat} (kind size : Nat)
    (h : ∀ e ∈ c.stations, mappedEntry e.2 pt.job (va / 256 * 256) = none) :
    windowEntry pt va kind size p c = .ok (none, c) := by
  simp only [windowEntry, act_bind, act_get, mappedEntry_station h]
  split <;> rfl

theorem recallBlock_none {p : Platform} {c : Core} {job va : Nat}
    (h : ∀ e ∈ c.stations, mappedEntry e.2 job (va / 256 * 256) = none) : recallBlock job va p c = .ok ((), c) := by
  simp only [recallBlock, recallFrom, act_bind, act_get]
  rw [List.find?_eq_none.2]
  · rfl
  · intro e he
    simp [h e he]

/-- Where no stash entry serves the address and nothing of the strand is on its way, a store is one into the cell that is reached. -/
theorem storeAt_plainCell {p : Platform} {c c1 : Core} {pt : Party} {va size pa : Nat} (v : Word) (ho : Claims.NothingOwn c pt)
    (h : PlainCell p c pt.job va 2 size pa c1) : storeAt pt va size v p c = storeCell pt pa va size v p c1 := by
  obtain ⟨hs, hl⟩ := h
  simp [storeAt, needEarlier_none va size ho, windowEntry_none 2 size hs, recallBlock_none hs, hl, pinCheck]

/-- Settles O10: the home of the line is reached, the log takes what it takes, and the bytes are written over that. -/
theorem storeWritesItsBytes : Obligations.StoreWritesItsBytes := by
  intro p c c1 pt va size pa v hwf _ _ _ hown hcell hgood hpoison
  have hreach := reachLine_of_locate hcell.2
  have hkept : HomeReached c c1 := reachLine_reaches _ _ _ p c _ _ hreach
  have hwf1 : c1.mem.wf = true := hkept.wf hwf
  obtain ⟨c2, own, hrun, hcells, hfull⟩ := storeCell_ok (pt := pt) (va := va) v hgood hpoison
  have hbyte : ∀ a, c2.mem.byte a = ((beforeWrite p pt va pa own c1).mem.write pa size v.toNat).byte a := fun a =>
    congrArg (cellsGet · a) hcells
  have hwf2 := beforeWrite_wf (p := p) (pt := pt) (va := va) (pa := pa) (own := own) hwf1
  refine ⟨c2, (storeAt_plainCell v hown hcell).trans hrun, fun j hj => ?_, fun a ha hlog => ?_, fun hno a ha => ?_,
    hfull.trans hkept.full⟩
  · rw [hbyte, Mem.byte_write_word hwf2 pa v hj]
  · rw [hbyte, Mem.byte_write_other hwf2 ha, beforeWrite_byte hwf1 hlog]
  · have hnow : (beforeWrite p pt va pa own c1).mem = c1.mem :=
      beforeWrite_untasked (hkept.untasked hno) (findLine_of_reachLine hreach hgood)
    have hthen : c1.mem.byte a = c.mem.byte a := congrArg (cellsGet · a) (hkept.cells hno)
    rw [hbyte, Mem.byte_write_other hwf2 ha, hnow, hthen]

end Sys2Proof.Machine
end

section
/-! SUPPORT. What the host's events do: the parse of a sealed slot, the user queues and their scheduler, the host's own writes, and
that none of these happens in recovery mode. -/

namespace Sys2Proof.Machine

open Sys2Proof

/-! ### An event's turn -/

theorem runEvent_ok {a : EventArg → Act Unit} {s : State} {e : EventArg} {c : Core} (h : s.core.work = .event e)
    (ha : a e s.plat s.core = .ok ((), c)) : runEvent a s = .next { s with core := c } := by
  simp [runEvent, h, ha]

/-- An event whose condition does not hold leaves the state as it is. -/
theorem runEvent_notYet {a : EventArg → Act Unit} {s : State} {e : EventArg} (h : s.core.work = .event e)
    (ha : a e s.plat s.core = .error (.hold .none)) : runEvent a s = .next s := by
  simp [runEvent, h, ha]

@[simp] theorem require_true (p : Platform) (c : Core) : require true p c = .ok ((), c) := rfl
@[simp] theorem require_false (p : Platform) (c : Core) : require false p c = .error (.hold .none) := rfl

/-! ### The job that a record names (R136) -/

theorem meetJob_dead {p : Platform} {c : Core} {job : Nat} (h : jobLive p c job = false) : meetJob job p c = .ok (false, c) := by
  simp [meetJob, h]

theorem meetJob_known {p : Platform} {c : Core} {job : Nat} (h : jobLive p c job = true) (hj : job ∈ c.jobs) :
    meetJob job p c = .ok (true, c) := by
  simp [meetJob, h, hj]

theorem meetJob_new {p : Platform} {c d : Core} {job : Nat} (h : jobLive p c job = true) (hj : job ∉ c.jobs)
    (ht : takeJob job p c = .ok ((), d)) : meetJob job p c = .ok (true, d) := by
  simp [meetJob, h, hj, ht]

/-! ### The decision on a sealed slot (R220 to R222) -/

/-- A mark that is behind the expected one, or that belongs in another slot. -/
def LaunchRecord.Stale (l : LaunchRecord) (ring : LaunchRing) (slot e : Nat) : Prop :=
  (1 ≤ (e + 256 - l.mark) % 256 ∧ (e + 256 - l.mark) % 256 ≤ 128) ∨ l.mark % ring.slots ≠ slot

/-- No op of R220's, or a byte set that must be zero. -/
def LaunchRecord.BadOp (l : LaunchRecord) : Prop := l.op < 1 ∨ 4 < l.op ∨ l.clean = false

/-- A pre-emption of a gang in placement (R222). -/
def LaunchRecord.Unplaces (l : LaunchRecord) (r : Record) : Prop := l.op = 2 ∧ l.record % 128 = 0 ∧ r.state = 2

/-- What makes a record BADREC that is of its job: its address, or a state that the op does not take. -/
def LaunchRecord.BadRec (l : LaunchRecord) (r : Record) (c : Core) : Prop :=
  l.record % 128 ≠ 0 ∨ l.op = 2 ∧ (r.save = 0 ∨ r.state ≠ 3 ∨ runningTask c l.job l.record = false) ∨ l.op = 3 ∧ r.state ≠ 6

section
variable {p : Platform} {ring : LaunchRing} {slot e : Nat} {l : LaunchRecord} {c : Core}

/-- The model's test for STALE. -/
theorem staleTest_iff : ((decide (1 ≤ (e + 256 - l.mark) % 256) && decide ((e + 256 - l.mark) % 256 ≤ 128)) ||
    l.mark % ring.slots != slot) = true ↔ l.Stale ring slot e := by
  simp only [LaunchRecord.Stale, Bool.or_eq_true, Bool.and_eq_true, decide_eq_true_eq, bne_iff_ne]

/-- The model's test for BADOP. -/
theorem badOpTest_iff : ((decide (l.op < 1) || decide (4 < l.op)) || !l.clean) = true ↔ l.BadOp := by
  simp only [LaunchRecord.BadOp, Bool.or_eq_true, decide_eq_true_eq, Bool.not_eq_true', or_assoc]

theorem launchCode_stale (h : l.Stale ring slot e) : launchCode ring slot e l p c = .ok (lcStale, c) := by
  unfold launchCode
  rw [if_pos (staleTest_iff.2 h), act_pure]

theorem launchCode_skip (hs : ¬ l.Stale ring slot e) (he : l.mark ≠ e) : launchCode ring slot e l p c = .ok (lcSkip, c) := by
  unfold launchCode
  rw [if_neg (mt staleTest_iff.1 hs), if_pos he, act_pure]

theorem launchCode_badOp (hs : ¬ l.Stale ring slot e) (he : l.mark = e) (hb : l.BadOp) :
    launchCode ring slot e l p c = .ok (lcBadOp, c) := by
  unfold launchCode
  rw [if_neg (mt staleTest_iff.1 hs), if_neg (not_not_intro he), if_pos (badOpTest_iff.2 hb), act_pure]

/-- The code of a record of a live job whose task record has been read: `launchCode` from there on. -/
def taskCode (l : LaunchRecord) (r : Record) : Act Nat := do
  if r.job ≠ l.job then pure lcBadJob
  else if l.op == 2 && l.record % 128 == 0 && r.state == trPlacing then do
    onCore (releasePlacing l.job l.record)
    pure lcBadRec
  else if l.record % 128 != 0
      || (l.op == 2 && (r.save == 0 || r.state != trRunning || !runningTask (← get) l.job l.record))
      || (l.op == 3 && r.state != trPreempted) then pure lcBadRec
  else performLaunch l r

/-- The code of a record with the expected mark and a good op: `launchCode` from there on. -/
def jobCode (l : LaunchRecord) : Act Nat := do
  if !(← meetJob l.job) || (← get).cancelled.contains l.job then pure lcBadJob
  else taskCode l (← readRecord l.job l.record)

theorem launchCode_current (hs : ¬ l.Stale ring slot e) (he : l.mark = e) (hb : ¬ l.BadOp) :
    launchCode ring slot e l = jobCode l := by
  unfold launchCode
  dsimp only
  rw [if_neg (mt staleTest_iff.1 hs), if_neg (not_not_intro he), if_neg (mt badOpTest_iff.1 hb)]
  rfl

/-- A record of a job that is not live, or that is cancelled, is BADJOB. -/
theorem jobCode_badJob {met : Bool} {d : Core} (hm : meetJob l.job p c = .ok (met, d))
    (hj : met = false ∨ d.cancelled.contains l.job = true) : jobCode l p c = .ok (lcBadJob, d) := by
  have hbad : (!met || d.cancelled.contains l.job) = true := by
    rw [Bool.or_eq_true, Bool.not_eq_true']
    exact hj
  simp only [jobCode, act_bind, hm, act_get, hbad, if_true, act_pure]

theorem jobCode_read {r : Record} {d cr : Core} (hm : meetJob l.job p c = .ok (true, d))
    (hj : d.cancelled.contains l.job = false) (hr : readRecord l.job l.record p d = .ok (r, cr)) :
    jobCode l p c = taskCode l r p cr := by
  simp only [jobCode, act_bind, hm, act_get, hj, Bool.not_true, Bool.or_self, Bool.false_eq_true, if_false, hr]

end

section
variable {p : Platform} {l : LaunchRecord} {r : Record} {c : Core}

theorem taskCode_badJob (h : r.job ≠ l.job) : taskCode l r p c = .ok (lcBadJob, c) := by simp [taskCode, h]

theorem taskCode_unplaces (h : r.job = l.job) (hu : l.Unplaces r) :
    taskCode l r p c = .ok (lcBadRec, releasePlacing l.job l.record c) := by
  obtain ⟨hop, ha, hst⟩ := hu
  simp [taskCode, h, hop, ha, hst, trPlacing]

theorem taskCode_badRec (h : r.job = l.job) (hu : ¬ l.Unplaces r) (hb : l.BadRec r c) :
    taskCode l r p c = .ok (lcBadRec, c) := by
  unfold LaunchRecord.Unplaces at hu
  unfold LaunchRecord.BadRec at hb
  simp [taskCode, h, trPlacing, trRunning, trPreempted, and_assoc, hu, or_assoc, hb]

theorem taskCode_performed (h : r.job = l.job) (hu : ¬ l.Unplaces r) (hb : ¬ l.BadRec r c) :
    taskCode l r p c = performLaunch l r p c := by
  unfold LaunchRecord.Unplaces at hu
  unfold LaunchRecord.BadRec at hb
  simp [taskCode, h, trPlacing, trRunning, trPreempted, and_assoc, hu, or_assoc, hb]

theorem performLaunch_ready {bad : Bool} {d : Core} (hop : l.op = 1) (hi : r.count = 0 ∧ r.state = 0)
    (h : readyRecord l.job l.record false p c = .ok (bad, d)) :
    performLaunch l r p c = .ok (if bad then lcFault else lcOk, d) := by
  simp [performLaunch, hop, hi, h]

theorem performLaunch_decrement {bad : Bool} {d : Core} (hop : l.op = 1) (hi : ¬ (r.count = 0 ∧ r.state = 0))
    (h : decrementRecord ⟨l.job, l.record, l.job, home l.record, 0, none⟩ p c = .ok (bad, d)) :
    performLaunch l r p c = .ok (if bad then lcFault else lcOk, d) := by
  simp [performLaunch, hop, hi, h]

theorem performLaunch_preempt (hop : l.op = 2) : performLaunch l r p c = .ok (lcOk, stopTask l.job l.record .preempting c) := by
  simp [performLaunch, hop]

/-- A pre-empted gang is placed again, and another task is READY (R215). -/
theorem performLaunch_resume {d : Core} (hop : l.op = 3) (h : setRecordState l.job l.record 1 p c = .ok ((), d)) :
    performLaunch l r p c = .ok (lcOk, if r.gang ≠ 0 then enterPlacing l.job l.record r.prio true d
      else enterReady l.job l.record r.prio (dieOf ((domainMapped p d l.job r.domain).headD 0)) false true d) := by
  by_cases hg : r.gang = 0 <;> simp [performLaunch, resumeRecord, hop, hg, h, trReady]

theorem performLaunch_cancel {d : Core} (hop : l.op = 4) (h : cancelJob l.job p c = .ok ((), d)) :
    performLaunch l r p c = .ok (lcOk, d) := by
  simp [performLaunch, hop, h]

theorem not_unplaces {l : LaunchRecord} {r : Record} (h : l.op = 2 → r.state ≠ 2) : ¬ l.Unplaces r := fun hu => h hu.1 hu.2.2

theorem not_badRec {l : LaunchRecord} {r : Record} {c : Core} (ha : l.record % 128 = 0)
    (h2 : l.op = 2 → r.save ≠ 0 ∧ r.state = 3 ∧ runningTask c l.job l.record = true) (h3 : l.op = 3 → r.state = 6) :
    ¬ l.BadRec r c := by
  rintro (h | ⟨hop, h⟩ | ⟨hop, h⟩)
  · exact h ha
  · obtain ⟨hsave, hst, hrun⟩ := h2 hop
    simp [hsave, hst, hrun] at h
  · exact h (h3 hop)

/-- A record that is taken has the effect of its op. -/
theorem taskCode_taken (h : r.job = l.job) (ha : l.record % 128 = 0)
    (h2 : l.op = 2 → r.save ≠ 0 ∧ r.state = 3 ∧ runningTask c l.job l.record = true) (h3 : l.op = 3 → r.state = 6) :
    taskCode l r p c = performLaunch l r p c := by
  refine taskCode_performed h (not_unplaces fun hop => ?_) (not_badRec ha h2 h3)
  obtain ⟨-, hst, -⟩ := h2 hop
  simp [hst]

end

/-- The model decides on a slot as the rules of R220 to R222 do. -/
theorem launchCode_decides {p : Platform} {ring : LaunchRing} {slot code : Nat} {c d : Core}
    (h : Claims.Decides p ring slot c code d) :
    launchCode ring slot (c.mem.read ring.expected 8 % 256) (launchRecord c (ring.base + 256 * slot)) p c = .ok (code, d) := by
  obtain ⟨hs, rfl, rfl⟩ | ⟨hs, he, rfl, rfl⟩ | ⟨hs, he, ⟨hb, rfl, rfl⟩ | ⟨hb, hjob⟩⟩ := h
  · exact launchCode_stale hs
  · exact launchCode_skip hs he
  · exact launchCode_badOp hs he hb
  rw [launchCode_current hs he hb]
  obtain ⟨hdead | ⟨hknown, hcan⟩, rfl, rfl⟩ | ⟨cj, r, cr, hlive, hmeet, hcan, hr, htask⟩ := hjob
  · exact jobCode_badJob (meetJob_dead hdead) (.inl rfl)
  · cases hlive : jobLive p d (launchRecord d (ring.base + 256 * slot)).job with
    | false => exact jobCode_badJob (meetJob_dead hlive) (.inl rfl)
    | true => exact jobCode_badJob (meetJob_known hlive hknown) (.inr hcan)
  have hmet : meetJob (launchRecord c (ring.base + 256 * slot)).job p c = .ok (true, cj) := by
    obtain ⟨hknown, rfl⟩ | ⟨hnew, htake⟩ := hmeet
    · exact meetJob_known hlive hknown
    · exact meetJob_new hlive hnew htake
  rw [jobCode_read hmet hcan hr]
  obtain ⟨hother, rfl, rfl⟩ | ⟨hown, hop, ha, hst, rfl, rfl⟩ | ⟨hown, hu, hbad, rfl, rfl⟩ | ⟨hown, ha, heffect⟩ := htask
  · exact taskCode_badJob hother
  · exact taskCode_unplaces hown ⟨hop, ha, hst⟩
  · exact taskCode_badRec hown hu hbad
  obtain ⟨hop, hcount, hst, bad, hrun, rfl⟩ | ⟨hop, hidle, bad, hrun, rfl⟩ | ⟨hop, hsave, hst, hrun, rfl, rfl⟩ |
    ⟨hop, hst, rfl, c2, hset, rfl⟩ | ⟨hop, rfl, hrun⟩ := heffect
  · rw [taskCode_taken hown ha (by simp [hop]) (by simp [hop])]
    exact performLaunch_ready hop ⟨hcount, hst⟩ hrun
  · rw [taskCode_taken hown ha (by simp [hop]) (by simp [hop])]
    exact performLaunch_decrement hop hidle hrun
  · rw [taskCode_taken hown ha (fun _ => ⟨hsave, hst, hrun⟩) (by simp [hop])]
    exact performLaunch_preempt hop
  · rw [taskCode_taken hown ha (by simp [hop]) (fun _ => hst)]
    exact performLaunch_resume hop hset
  · rw [taskCode_taken hown ha (by simp [hop]) (by simp [hop])]
    exact performLaunch_cancel hop hrun

theorem bitsOf_eq (x lo len : Nat) : bitsOf x lo len = x / 2 ^ lo % 2 ^ len := by rw [bitsOf, Nat.shiftRight_eq_div_pow]

/-- The status word after a parse, by its fields (R219). -/
theorem launchStatus_eq (old code e mark : Nat) : launchStatus old code e mark = BitVec.ofNat 64
    (code * 2 ^ 56 + e * 2 ^ 48 + (if code = 0 ∨ code = 6 then old / 2 ^ 40 % 256 else mark) * 2 ^ 40 +
      (if code = 0 ∨ code = 6 then (old % 2 ^ 40 + 1) % 2 ^ 40 else old % 2 ^ 40)) := by
  simp [launchStatus, wordOf, bitsOf_eq, lcOk, lcFault]

/-- A slot parsed: its code, and the ring's words after it. -/
theorem parseSlot_decides {p : Platform} {ring : LaunchRing} {slot code : Nat} {c d : Core}
    (h : Claims.Decides p ring slot c code d) :
    parseSlot ring slot p c = .ok (code, Claims.parsed ring (c.mem.read ring.expected 8 % 256) code
      (launchRecord c (ring.base + 256 * slot)).mark d) := by
  simp [parseSlot, launchCode_decides h, Claims.parsed, launchStatus_eq, lcStale, lcSkip, Core.deviceWrite]

/-! ### Launch windows (R219) -/

theorem windowAct_decides {ops : Nat → Bool} {e : EventArg} {p : Platform} {c c1 : Core} {code : Nat}
    (hrec : p.firmware.recovery = false) (hseal : (e.unit, e.index) ∈ c.seals)
    (hfirst : firstSeal c (windowRing p e.unit) e.unit e.index = true)
    (hops : ops (launchRecord c ((windowRing p e.unit).base + 256 * e.index)).op = true)
    (h : Claims.Decides p (windowRing p e.unit) e.index c code c1) :
    let c2 := Claims.parsed (windowRing p e.unit) (c.mem.read (windowRing p e.unit).expected 8 % 256) code
      (launchRecord c ((windowRing p e.unit).base + 256 * e.index)).mark c1
    windowAct ops e p c = .ok ((), { c2 with seals := c2.seals.filter fun x => x != (e.unit, e.index) }) := by
  simp [windowAct, hrec, hseal, hfirst, hops, parseSlot_decides h]

/-- Each op of a slot has its event, and LAUNCH is that of every other. -/
theorem exec_windowOp (op : Nat) (s : State) : ∃ ops : Nat → Bool, ops op = true ∧
    exec (if op = 2 then .preempt else if op = 3 then .resume else if op = 4 then .launchCancel else .launch) s =
      runEvent (windowAct ops) s := by
  by_cases h2 : op = 2
  · exact ⟨fun op => op == 2, by simp [h2], (congrArg (exec · s) (if_pos h2)).trans rfl⟩
  rw [if_neg h2]
  by_cases h3 : op = 3
  · exact ⟨fun op => op == 3, by simp [h3], (congrArg (exec · s) (if_pos h3)).trans rfl⟩
  rw [if_neg h3]
  by_cases h4 : op = 4
  · exact ⟨fun op => op == 4, by simp [h4], (congrArg (exec · s) (if_pos h4)).trans rfl⟩
  · exact ⟨fun op => op != 2 && op != 3 && op != 4, by simp [h2, h3, h4], (congrArg (exec · s) (if_neg h4)).trans rfl⟩

/-! ### User queues (R221) -/

theorem nextSlot_none {c : Core} {ring : LaunchRing}
    (h : ∀ i < ring.slots, ring.base + 256 * ((c.mem.read ring.expected 8 % 256 + i) % ring.slots) + 255 ∈ c.rejected) :
    nextSlot c ring = none := by
  simpa [nextSlot] using h

/-- The first slot whose record has not been rejected holds the next record. -/
theorem nextSlot_some {c : Core} {ring : LaunchRing} {i : Nat} (hi : i < ring.slots)
    (hbefore : ∀ j < i, ring.base + 256 * ((c.mem.read ring.expected 8 % 256 + j) % ring.slots) + 255 ∈ c.rejected)
    (h : ring.base + 256 * ((c.mem.read ring.expected 8 % 256 + i) % ring.slots) + 255 ∉ c.rejected) :
    nextSlot c ring = some ((c.mem.read ring.expected 8 % 256 + i) % ring.slots) := by
  rw [nextSlot, List.find?_map, List.find?_range_eq_some.2]
  · rfl
  · simp_all

theorem parseQueue_visits {p : Platform} {q n : Nat} {c d : Core} (h : Claims.Visits p q n c d) :
    parseQueue q n p c = .ok ((), d) := by
  induction n generalizing c with
  | zero => simp [parseQueue, show d = c from h]
  | succ n ih =>
    obtain ⟨hall, rfl⟩ | ⟨i, slot, code, c1, hi, hbefore, hfree, rfl, hdec, hrest⟩ := h
    · simp [parseQueue, nextSlot_none hall]
    · have hnext := ih hrest
      by_cases hkeep : code = 1 ∨ code = 2 <;>
        simp_all [parseQueue, nextSlot_some hi hbefore hfree, parseSlot_decides hdec, lcStale, lcSkip]

/-- A doorbell of a queue with VALID = 1 announces what the host has written again, and another announces nothing. -/
theorem announceRewritten_if (valid : Bool) (ring : LaunchRing) (c : Core) :
    let here (a : Nat) : Bool := valid && c.rewritten.contains a && decide (ring.base ≤ a) && decide (a < ring.base + 256 * ring.slots)
    (if valid = true then announceRewritten ring c else c) =
      { c with rejected := c.rejected.filter fun a => !here a, rewritten := c.rewritten.filter fun a => !here a } := by
  have hall (l : List Nat) : l.filter (fun _ => true) = l := List.filter_eq_self.2 fun _ _ => rfl
  cases valid with
  | false => simp only [Bool.false_eq_true, if_false, Bool.false_and, Bool.not_false, hall]
  | true => simp only [announceRewritten, if_true, Bool.true_and]

/-- A doorbell out of recovery mode, of a table that is there (R221). -/
theorem doorbellAct_rings {p : Platform} {e : EventArg} {c c1 : Core} (hrec : p.firmware.recovery = false)
    (htable : (p.mgmt[0]).userTable / 4096 ≠ 0)
    (hc : c1 = c.deviceWrite (queueDesc p e.index + 0x10) 8 fun m => m.write (queueDesc p e.index + 0x10) 8 (e.data.headD 0)) :
    let q := e.index % 4096
    let here (a : Nat) : Bool := (queueControl p c1 q).testBit 16 && c1.rewritten.contains a &&
      decide ((queueRing p c1 q).base ≤ a) && decide (a < (queueRing p c1 q).base + 256 * (queueRing p c1 q).slots)
    doorbellAct e p c = .ok ((), { c1 with
      rejected := c1.rejected.filter fun a => !here a
      rewritten := c1.rewritten.filter fun a => !here a
      doorbells := if queuePending p c1 q ≠ 0 ∧ queueMapped c1 q = false ∧ q ∉ c1.doorbells then c1.doorbells ++ [q]
        else c1.doorbells }) := by
  have hgo : (!p.firmware.recovery && (p.mgmt[0]).userTable / 4096 != 0) = true := by simp [hrec, htable]
  simp only [doorbellAct, act_bind, act_read, hgo, require_true, act_onCore, ← hc, announceRewritten_if]
  have hwaits : (decide (queuePending p c1 (e.index % 4096) ≠ 0) && !queueMapped c1 (e.index % 4096) &&
      !c1.doorbells.contains (e.index % 4096)) = true ↔
        queuePending p c1 (e.index % 4096) ≠ 0 ∧ queueMapped c1 (e.index % 4096) = false ∧ e.index % 4096 ∉ c1.doorbells := by
    simp [and_assoc]
  by_cases hq : queuePending p c1 (e.index % 4096) ≠ 0 ∧ queueMapped c1 (e.index % 4096) = false ∧ e.index % 4096 ∉ c1.doorbells
  · rw [if_pos hq]
    exact congrArg (fun d => Except.ok ((), d)) (if_pos (hwaits.2 hq))
  · rw [if_neg hq]
    exact congrArg (fun d => Except.ok ((), d)) (if_neg (mt hwaits.1 hq))

/-- A visit parses what the next slot's queue holds, by as many records as its slice allows, and nothing of a queue whose size is
no power of two. -/
theorem queueSlotVisitAct_visits {e : EventArg} {p : Platform} {c0 c c1 : Core} {i q n : Nat} (hrec : p.firmware.recovery = false)
    (hc : mapQueue p c0 = c) (hi : i = c.queueSlots.next % c.queueSlots.slots.length) (hslots : c.queueSlots.slots ≠ [])
    (hq : (c.queueSlots.slots.getD i (0, 0)).1 = q)
    (hn : n = if powerOfTwo (queueControl p c q % 65536) 16 256 then min (queuePending p c q) (sliceOf p) else 0)
    (hvisits : Claims.Visits p q n c c1) :
    queueSlotVisitAct e p c0 = .ok ((), { c1 with queueSlots :=
      ⟨c1.queueSlots.slots.set i (q, c1.queueSlots.clock + 1), i + 1, c1.queueSlots.clock + 1⟩ }) := by
  have hrun := parseQueue_visits hvisits
  simp only [queueSlotVisitAct, act_bind, act_read, hrec, act_onCore, act_get, hc, ← hi, hq, Bool.not_false, require_true,
    List.isEmpty_eq_false_iff.2 hslots]
  by_cases hp : powerOfTwo (queueControl p c q % 65536) 16 256 = true
  · rw [if_pos hp] at hn
    simp [hp, ← hn, hrun]
  · rw [if_neg hp] at hn
    subst hn
    simp [hp, show c1 = c from hvisits]

/-! ### Bytes of the host (R34, R170) -/

/-- `m'` is `m` after changes of poison bits. -/
structure Mem.Repoisoned (m m' : Mem) : Prop where
  cells : m'.cells = m.cells
  full : m'.full = m.full
  wf : m.wf = true → m'.wf = true

theorem Mem.Repoisoned.refl (m : Mem) : Mem.Repoisoned m m := ⟨rfl, rfl, id⟩

theorem Mem.Repoisoned.trans {a b c : Mem} (h : Mem.Repoisoned a b) (g : Mem.Repoisoned b c) : Mem.Repoisoned a c :=
  ⟨g.cells.trans h.cells, g.full.trans h.full, fun w => g.wf (h.wf w)⟩

theorem Mem.Repoisoned.setPoison (m : Mem) (a : Nat) (v : Bool) : Mem.Repoisoned m (m.setPoison a v) :=
  ⟨rfl, rfl, fun w => Mem.wf_setPoison w a v⟩

theorem Mem.Repoisoned.setLinePoison (m : Mem) (a : Nat) (v : Bool) : Mem.Repoisoned m (m.setLinePoison a v) :=
  ⟨Mem.cells_setLinePoison .., Mem.full_setLinePoison .., fun w => Mem.wf_setLinePoison w a v⟩

theorem Mem.Repoisoned.foldl {f : Mem → Nat → Mem} (hf : ∀ m k, Mem.Repoisoned m (f m k)) (l : List Nat) (m : Mem) :
    Mem.Repoisoned m (l.foldl f m) := by
  induction l generalizing m with
  | nil => exact .refl m
  | cons k r ih => exact (hf m k).trans (ih _)

theorem poisonAfter_repoisoned (m : Mem) (pa : Nat) (bytes : List EByte) : Mem.Repoisoned m (poisonAfter m pa bytes) := by
  have hline : Mem.Repoisoned m (if bytes.length = 64 then m.setLinePoison pa false else m) := by
    split
    · exact .setLinePoison ..
    · exact .refl m
  refine hline.trans (.foldl (fun m k => ?_) _ _)
  split
  · exact .setPoison ..
  · exact .refl m

@[simp] theorem dropCopies_strands (but : Option Nat) (gone : L1Line → Bool) (c : Core) :
    (dropCopies but gone c).strands = c.strands := by
  unfold dropCopies; split <;> rfl

@[simp] theorem noteSeal_strands (p : Platform) (pa size : Nat) (c : Core) : (noteSeal p pa size c).strands = c.strands := by
  unfold noteSeal
  dsimp only
  split <;> split <;> rfl

/-- Bytes of the host that lie in no stored record are written, and no strand changes. -/
theorem hostStore_cell {p : Platform} {pa : Nat} {bytes : List Byte} {c : Core} (h : storedAt p c pa = none) :
    (hostStore p pa bytes c).strands = c.strands ∧
      Mem.Repoisoned (c.mem.setBytes pa bytes) (hostStore p pa bytes c).mem := by
  have hpoison := poisonAfter_repoisoned (c.mem.setBytes pa bytes) pa (bytes.map fun b => (b, false))
  simpa [hostStore, h, dropL1Physical] using hpoison

/-- A word of a stored record is stored there (R41). -/
theorem hostStore_record {p : Platform} {pa off : Nat} {k : Key} {bytes : List Byte} {c : Core} (hoff : off % 8 = 0)
    (hlen : bytes.length = 8) (h : storedAt p c pa = some (k, off)) :
    hostStore p pa bytes c =
      recordStore p ⟨k.job, foreignStation 0, 0, 0, false⟩ k off (k.ctx + off) 8 (wordOf (leNat bytes)) c := by
  have hone : chunksOf off 8 8 = [(off, 8)] := by
    have hlo : off / 8 * 8 = off := by omega
    have hhi : min (off + 8) ((off / 8 + 1) * 8) - off = 8 := by omega
    simp [chunksOf, hoff, hlo, hhi]
  simp [hostStore, h, hlen, hone, List.take_of_length_le]

/-- Word `k` of a line set full where one of the `n` bytes at an address lies in it: one turn of `loadedFull`. -/
def fillWord (pa n : Nat) (c : Core) (k : Nat) : Core :=
  let w := pa / 64 * 64 + 8 * k
  if pa < w + 8 ∧ w < pa + n then wakeAll (.feWord w true) { c with mem := c.mem.setFull w true } else c

theorem loadedFull_eq (pa n : Nat) (c : Core) : loadedFull pa n c = (List.range 8).foldl (fillWord pa n) c := rfl

theorem fillWord_frame (pa n k : Nat) (c : Core) : (fillWord pa n c k).strands = c.strands ∧
    (fillWord pa n c k).mem.cells = c.mem.cells ∧ (c.mem.wf = true → (fillWord pa n c k).mem.wf = true) := by
  unfold fillWord
  dsimp only
  split
  · exact ⟨rfl, rfl, fun h => Mem.wf_setFull h _ _⟩
  · exact ⟨rfl, rfl, id⟩

/-- Whether one of the `n` bytes at an address lies in the word of an address. -/
def MeetsWord (pa n a : Nat) : Prop := ∃ i < n, (pa + i) / 8 = a / 8

theorem meetsWord_iff (pa a : Nat) {n : Nat} (hn : 0 < n) : MeetsWord pa n a ↔ pa < a / 8 * 8 + 8 ∧ a / 8 * 8 < pa + n := by
  constructor
  · rintro ⟨i, hi, h⟩
    omega
  · rintro ⟨h1, h2⟩
    exact ⟨a / 8 * 8 - pa, by omega, by omega⟩

theorem fillWord_isFull {pa n k : Nat} {c : Core} (hn : 0 < n) (h : c.mem.wf = true) (a : Nat) :
    (fillWord pa n c k).mem.isFull a = true ↔ MeetsWord pa n a ∧ a / 8 = pa / 64 * 8 + k ∨ c.mem.isFull a = true := by
  rw [meetsWord_iff pa a hn]
  unfold fillWord
  dsimp only
  split
  · have hword : a / 8 * 8 = (pa / 64 * 64 + 8 * k) / 8 * 8 ↔
        (pa < a / 8 * 8 + 8 ∧ a / 8 * 8 < pa + n) ∧ a / 8 = pa / 64 * 8 + k := by omega
    simp only [wakeAll, Mem.isFull_setFull h, hword, Bool.if_true_left, Bool.or_eq_true, decide_eq_true_eq]
  · have hout : ¬ ((pa < a / 8 * 8 + 8 ∧ a / 8 * 8 < pa + n) ∧ a / 8 = pa / 64 * 8 + k) := by omega
    simp only [hout, false_or]

theorem fillWords (pa : Nat) {n : Nat} (hn : 0 < n) (l : List Nat) (c : Core) :
    let d := l.foldl (fillWord pa n) c
    d.strands = c.strands ∧ d.mem.cells = c.mem.cells ∧ (c.mem.wf = true → ∀ a, d.mem.isFull a = true ↔
      MeetsWord pa n a ∧ (∃ k ∈ l, a / 8 = pa / 64 * 8 + k) ∨ c.mem.isFull a = true) := by
  induction l generalizing c with
  | nil => simp
  | cons k r ih =>
    obtain ⟨hs, hc, hwf⟩ := fillWord_frame pa n k c
    obtain ⟨ihs, ihc, ihf⟩ := ih (fillWord pa n c k)
    refine ⟨ihs.trans hs, ihc.trans hc, fun h a => ?_⟩
    rw [List.foldl_cons, ihf (hwf h), fillWord_isFull hn h]
    simp only [List.mem_cons, exists_eq_or_imp, and_or_left, or_assoc]
    exact or_left_comm

/-- The loader's bytes within a line leave every word that they meet full, and every other bit as it was (R34). -/
theorem loadedFull_words {pa n : Nat} (c : Core) (hn : 0 < n) (hline : pa % 64 + n ≤ 64) :
    (loadedFull pa n c).strands = c.strands ∧ (loadedFull pa n c).mem.cells = c.mem.cells ∧
      (c.mem.wf = true → ∀ a, (loadedFull pa n c).mem.isFull a = true ↔ MeetsWord pa n a ∨ c.mem.isFull a = true) := by
  obtain ⟨hs, hc, hf⟩ := fillWords pa hn (List.range 8) c
  rw [loadedFull_eq]
  refine ⟨hs, hc, fun h a => (hf h a).trans (or_congr_left (and_iff_left_of_imp fun ⟨i, hi, ha⟩ => ?_))⟩
  exact ⟨a / 8 - pa / 64 * 8, List.mem_range.2 (by omega), by omega⟩

/-- A write of the host within a line of a good layer; one of no bytes is a read. -/
theorem hostAccessAct_line {e : EventArg} {p : Platform} (c : Core) (hrec : p.firmware.recovery = false) (h2 : e.index ≠ 2)
    (hmem : e.addr + e.data.length ≤ 2 ^ 39) (hline : e.addr % 64 + e.data.length ≤ 64) (hgood : layerGone p e.addr = false) :
    let d := hostStore p e.addr (e.data.map fun x => BitVec.ofNat 8 x) c
    hostAccessAct e p c = .ok ((), if e.data.length = 0 then c else if e.index = 1 then loadedFull e.addr e.data.length d else d) := by
  have hanswers : (!p.firmware.recovery && decide (e.addr + e.data.length ≤ Config.hbmBytes) &&
      decide (e.addr % 64 + e.data.length ≤ 64) && !layerGone p e.addr) = true := by
    simp only [Config.hbmBytes, Bool.and_eq_true, decide_eq_true_eq, Bool.not_eq_true']
    exact ⟨⟨⟨hrec, decide_eq_true hmem⟩, hline⟩, hgood⟩
  simp only [hostAccessAct, act_bind, act_read, if_neg h2, hanswers, require_true]
  by_cases hn : e.data.length = 0
  · simp [hn]
  · by_cases h1 : e.index = 1 <;> simp [hn, h1]

/-- What the host's write of bytes leaves, within a line that lies in no stored record. -/
theorem hostAccessAct_bytes {e : EventArg} {p : Platform} {c : Core} (hrec : p.firmware.recovery = false) (hwf : c.mem.wf = true)
    (h2 : e.index ≠ 2) (hmem : e.addr + e.data.length ≤ 2 ^ 39) (hline : e.addr % 64 + e.data.length ≤ 64)
    (hgood : layerGone p e.addr = false) (hcell : storedAt p c e.addr = none) :
    ∃ d, hostAccessAct e p c = .ok ((), d) ∧ d.strands = c.strands ∧
      d.mem.cells = (c.mem.setBytes e.addr (e.data.map fun x => BitVec.ofNat 8 x)).cells ∧
      (e.index ≠ 1 → d.mem.full = c.mem.full) ∧
      (e.index = 1 → ∀ a, d.mem.isFull a = true ↔ MeetsWord e.addr e.data.length a ∨ c.mem.isFull a = true) := by
  refine ⟨_, hostAccessAct_line c hrec h2 hmem hline hgood, ?_⟩
  obtain hn | hn := Nat.eq_zero_or_pos e.data.length
  · rw [if_pos hn]
    exact ⟨rfl, by simp [List.eq_nil_of_length_eq_zero hn, Mem.setBytes], fun _ => rfl, fun _ a => by simp [MeetsWord, hn]⟩
  obtain ⟨hs, hstored⟩ := hostStore_cell (bytes := e.data.map fun x => BitVec.ofNat 8 x) hcell
  have hfull := hstored.full.trans (Mem.setBytes_bits ..).1
  rw [if_neg (Nat.ne_of_gt hn)]
  by_cases h1 : e.index = 1
  · rw [if_pos h1]
    obtain ⟨hs', hc', hf'⟩ := loadedFull_words (hostStore p e.addr (e.data.map fun x => BitVec.ofNat 8 x) c) hn hline
    refine ⟨hs'.trans hs, hc'.trans hstored.cells, fun h => absurd h1 h, fun _ a => ?_⟩
    rw [hf' (hstored.wf (Mem.wf_setBytes hwf _ _)), Mem.isFull, hfull, Mem.isFull]
  · rw [if_neg h1]
    exact ⟨hs, hstored.cells, fun _ => hfull, fun h => absurd h h1⟩

/-- A word that the host writes into a stored record (R41). -/
theorem hostAccessAct_record {e : EventArg} {p : Platform} {c : Core} {k : Key} {off : Nat} (hrec : p.firmware.recovery = false)
    (h0 : e.index = 0) (hmem : e.addr + 8 ≤ 2 ^ 39) (halign : e.addr % 8 = 0) (hoff : off % 8 = 0) (hlen : e.data.length = 8)
    (hgood : layerGone p e.addr = false) (hstored : storedAt p c e.addr = some (k, off)) :
    hostAccessAct e p c = .ok ((), recordStore p ⟨k.job, foreignStation 0, 0, 0, false⟩ k off (k.ctx + off) 8
      (BitVec.ofNat 64 (leNat (e.data.map fun x => BitVec.ofNat 8 x))) c) := by
  rw [hostAccessAct_line c hrec (by omega) (by omega) (by omega) hgood, if_neg (by omega), if_neg (by omega),
    hostStore_record hoff (by simpa using hlen) hstored, wordOf]

/-- The loader binds a segment register, in place of what its task had bound it to (R34). -/
theorem hostAccessAct_binds {e : EventArg} {p : Platform} {seg base size text : Nat} (c : Core) (hrec : p.firmware.recovery = false)
    (h2 : e.index = 2) (hdata : e.data = [seg, base, size, text]) :
    hostAccessAct e p c = .ok ((), { c with bindings := (⟨e.job, e.addr, seg % 8, base, size, text != 0⟩ : Binding) ::
      (c.bindings.filter fun b => !(b.job == e.job && b.record == e.addr && b.seg == seg % 8)) }) := by
  simp [hostAccessAct, h2, hrec, bindingOf, hdata]

/-! ### Recovery mode (R374) -/

/-- In recovery mode no event of the host or of the fabric happens. -/
theorem recovery_notYet {p : Platform} (hrec : p.firmware.recovery = true) (e : EventArg) (c : Core) :
    (∀ ops, windowAct ops e p c = .error (.hold .none)) ∧ doorbellAct e p c = .error (.hold .none) ∧
      queueSlotVisitAct e p c = .error (.hold .none) ∧ hostAccessAct e p c = .error (.hold .none) ∧
      fabricInAct e p c = .error (.hold .none) := by
  refine ⟨fun ops => ?_, ?_, ?_, ?_, ?_⟩
  · simp [windowAct, hrec]
  · simp [doorbellAct, hrec]
  · simp [queueSlotVisitAct, hrec]
  · by_cases h2 : e.index = 2 <;> simp [hostAccessAct, hrec, h2]
  · simp [fabricInAct, hrec]

theorem exec_recovery {s : State} {e : EventArg} (h : s.core.work = .event e) (hrec : s.plat.firmware.recovery = true) :
    ∀ i ∈ [Instr.launch, .preempt, .resume, .launchCancel, .doorbell, .queueSlotVisit, .hostCxlAccess, .fabricAccessIn],
      exec i s = .next s := by
  obtain ⟨hwindow, hdoorbell, hvisit, haccess, hfabric⟩ := recovery_notYet hrec e s.core
  simp only [List.forall_mem_cons]
  exact ⟨runEvent_notYet h (hwindow _), runEvent_notYet h (hwindow _), runEvent_notYet h (hwindow _), runEvent_notYet h (hwindow _),
    runEvent_notYet h hdoorbell, runEvent_notYet h hvisit, runEvent_notYet h haccess, runEvent_notYet h hfabric, List.forall_mem_nil _⟩

/-! ### A cancel (R213) -/

theorem forM_ok {α : Type} {f : α → Act Unit} (hf : ∀ x p c, ∃ d, f x p c = .ok ((), d)) (l : List α) (p : Platform) (c : Core) :
    ∃ d, forM l f p c = .ok ((), d) := by
  induction l generalizing c with
  | nil => exact ⟨c, rfl⟩
  | cons x r ih =>
    obtain ⟨d, hd⟩ := hf x p c
    obtain ⟨d', hd'⟩ := ih d
    exact ⟨d', by simp [hd, hd']⟩

theorem attempt_ok {α : Type} (a : Act α) (p : Platform) (c : Core) : ∃ r d, attempt a p c = .ok (r, d) := by
  rw [act_attempt]
  split
  · exact ⟨_, _, rfl⟩
  · exact ⟨_, _, rfl⟩

/-- A record that cannot be written is passed over. -/
theorem discardRecord_ok (job record : Nat) (p : Platform) (c : Core) : ∃ d, discardRecord job record p c = .ok ((), d) := by
  obtain ⟨r, d, h⟩ := attempt_ok (writeNum ⟨job, 0, 0, 0, false⟩ (record + 7) 1 5) p c
  exact ⟨d, by simp [discardRecord, h]⟩

/-- A cancel always takes effect. -/
theorem cancelJob_ok (p : Platform) (c : Core) (job : Nat) : ∃ d, cancelJob job p c = .ok ((), d) := by
  obtain ⟨c1, h1⟩ := forM_ok (fun t : ReadyTask => discardRecord_ok job t.record) (c.ready.filter fun t => t.job == job) p c
  obtain ⟨c2, h2⟩ := forM_ok (fun t : PlacingGang => discardRecord_ok job t.record) (c.placing.filter fun t => t.job == job) p c1
  simp [cancelJob, h1, h2]

/-! ### The host's events -/

/-- Settles O47: the event of each of the host's accesses runs its act, and its act is given above; in recovery mode none happens. -/
theorem hostReaches : Obligations.HostReaches := by
  unfold Obligations.HostReaches
  refine ⟨fun s e h => ⟨fun hrec => ⟨?windows, ?doorbells, ?visits, ?bytes, ?records, ?bindings⟩, exec_recovery h⟩,
    cancelJob_ok⟩
  case windows =>
    intro code c1 ring l hseal hfirst hdecides
    obtain ⟨ops, hops, hexec⟩ := exec_windowOp l.op s
    exact hexec.trans (runEvent_ok h (windowAct_decides hrec hseal hfirst hops hdecides))
  case doorbells =>
    intro htable
    exact runEvent_ok h (doorbellAct_rings hrec htable rfl)
  case visits =>
    intro q n c1 c i hslots hq hn hvisits
    exact runEvent_ok h (queueSlotVisitAct_visits hrec rfl rfl hslots hq hn hvisits)
  case bytes =>
    intro hwf h2 hmem hline hgood hcell
    obtain ⟨d, hrun, hstrands, hcells, hkept, hloaded⟩ := hostAccessAct_bytes hrec hwf h2 hmem hline hgood hcell
    have hbyte (a : Nat) : d.mem.byte a = (s.core.mem.setBytes e.addr (e.data.map fun x => BitVec.ofNat 8 x)).byte a :=
      congrArg (cellsGet · a) hcells
    refine ⟨_, runEvent_ok h hrun, rfl, hstrands, hkept, fun h1 => ⟨fun i hi => ?_, fun a ha => ?_⟩, fun i hi => ?_, fun a ha => ?_⟩
    · exact (hloaded h1 _).2 (.inl ⟨i, hi, rfl⟩)
    · rw [Bool.eq_iff_iff, hloaded h1 a]
      exact or_iff_right fun ⟨i, hi, hm⟩ => ha i hi hm
    · rw [hbyte, Mem.byte_setBytes hwf e.addr (by simpa using hi)]
      simp [hi]
    · rw [hbyte, Mem.byte_setBytes_other hwf (by simpa using ha)]
  case records =>
    intro k off h0 hmem halign hoff hlen hgood hstored
    exact runEvent_ok h (hostAccessAct_record hrec h0 hmem halign hoff hlen hgood hstored)
  case bindings =>
    rintro job seg base size text h2 rfl hdata
    exact runEvent_ok h (hostAccessAct_binds s.core hrec h2 hdata)

end Sys2Proof.Machine
end

section
/-! SUPPORT. The work latch and the strands' names, which no access of memory changes; and what the supervisor queue leaves of the
strands. -/

namespace Sys2Proof.Machine

open Sys2Proof

/-! ### Strands by name -/

/-- Whose turn is in hand, and which contexts have a strand. -/
def Core.hands (c : Core) : Work × List Key := (c.work, c.strands.map Strand.key)

theorem Core.hands_eq {c d : Core} (hw : d.work = c.work) (hs : d.strands = c.strands) : d.hands = c.hands := by
  rw [hands, hw, hs, hands]

theorem Core.work_of_hands {c d : Core} (h : d.hands = c.hands) : d.work = c.work := congrArg Prod.fst h

theorem strand_isSome {c : Core} {k : Key} : (∃ x, c.strand? k = some x) ↔ k ∈ c.strands.map Strand.key := by
  rw [← Option.isSome_iff_exists, Core.strand?, List.find?_isSome]
  simp

/-- A strand is still there in a core with the same names. -/
theorem strand_of_hands {c d : Core} {k : Key} {x : Strand} (h : d.hands = c.hands) (hx : c.strand? k = some x) :
    ∃ y, d.strand? k = some y := by
  have hkeys : d.strands.map Strand.key = c.strands.map Strand.key := congrArg Prod.snd h
  rw [strand_isSome, hkeys]
  exact strand_isSome.1 ⟨x, hx⟩

theorem strand_key {c : Core} {k : Key} {x : Strand} (h : c.strand? k = some x) : x.key = k := by
  simpa using List.find?_some h

theorem map_strands_key (l : List Strand) {f : Strand → Strand} (hf : ∀ y, (f y).key = y.key) :
    (l.map f).map Strand.key = l.map Strand.key := by
  rw [List.map_map]
  exact List.map_congr_left fun y _ => hf y

theorem hands_updStrand (c : Core) (k : Key) {f : Strand → Strand} (hf : ∀ y, (f y).key = y.key) :
    (c.updStrand k f).hands = c.hands :=
  congrArg (Prod.mk c.work) (map_strands_key c.strands fun y => by split <;> simp [hf])

theorem setStrand_hands (c : Core) (x : Strand) : (c.setStrand x).hands = c.hands :=
  congrArg (Prod.mk c.work) (map_strands_key c.strands fun y => by split <;> simp [*])

/-- The strand of a name is the one that was set. -/
theorem strand_set {c : Core} {k : Key} {x y : Strand} (h : c.strand? k = some x) (hy : y.key = k) :
    (c.setStrand y).strand? k = some y := by
  subst hy
  have hset : c.setStrand y = c.updStrand y.key fun z => if z.key = y.key then y else z := by
    simp only [Core.setStrand, Core.updStrand]
    congr 2
    funext z
    split <;> rfl
  rw [hset, strand_upd _ (fun z => by split <;> simp_all) h, if_pos (strand_key h)]

/-! ### The supervisor queue (R141) -/

@[simp] theorem dropCopies_work (but : Option Nat) (gone : L1Line → Bool) (c : Core) :
    (dropCopies but gone c).work = c.work := by
  unfold dropCopies; split <;> rfl

@[simp] theorem wrotePhysical_strands (pa n : Nat) (c : Core) : (wrotePhysical pa n c).strands = c.strands := by
  unfold wrotePhysical; dsimp only; split <;> simp

@[simp] theorem wrotePhysical_work (pa n : Nat) (c : Core) : (wrotePhysical pa n c).work = c.work := by
  unfold wrotePhysical; dsimp only; split <;> simp

@[simp] theorem deviceWrite_strands (c : Core) (pa n : Nat) (f : Mem → Mem) : (c.deviceWrite pa n f).strands = c.strands := by
  simp [Core.deviceWrite]

@[simp] theorem deviceWrite_work (c : Core) (pa n : Nat) (f : Mem → Mem) : (c.deviceWrite pa n f).work = c.work := by
  simp [Core.deviceWrite]

theorem recordRelease_frame (job va station ctx : Nat) (scope : Scope) (pin : Bool) (c : Core) :
    (recordRelease job va station ctx scope pin c).strands = c.strands ∧
      (recordRelease job va station ctx scope pin c).work = c.work := by
  unfold recordRelease
  cases pin <;> cases scope <;> exact ⟨rfl, rfl⟩

theorem releasePhysical_frame (pa station : Nat) (scope : Scope) (c : Core) :
    (releasePhysical pa station scope c).strands = c.strands ∧ (releasePhysical pa station scope c).work = c.work := by
  unfold releasePhysical
  generalize c.l2.filter (fun l => l.pline == pa / 64 && l.pin) = lines
  rw [(recordRelease_frame ..).1, (recordRelease_frame ..).2]
  induction lines generalizing c with
  | nil => exact ⟨rfl, rfl⟩
  | cons l r ih =>
    obtain ⟨hs, hw⟩ := recordRelease_frame l.job (l.vline * 64) station 0 scope true c
    rw [List.foldl_cons, ← hs, ← hw]
    exact ih _

theorem supWrite_frame (p : Platform) (e : SupEvent) (c : Core) :
    (supWrite p e c).strands = c.strands ∧ (supWrite p e c).work = c.work := by
  unfold supWrite
  dsimp only
  split <;> simp [releasePhysical_frame, wakeAll]

theorem supSend_frame (p : Platform) (e : SupEvent) (c : Core) :
    (supSend p e c).strands = c.strands ∧ (supSend p e c).work = c.work := by
  unfold supSend
  split
  · exact supWrite_frame p e c
  · dsimp only
    split <;> simp

/-- A record for the supervisor changes no strand. -/
@[simp] theorem supSend_strands (p : Platform) (e : SupEvent) (c : Core) : (supSend p e c).strands = c.strands := (supSend_frame p e c).1
@[simp] theorem supSend_work (p : Platform) (e : SupEvent) (c : Core) : (supSend p e c).work = c.work := (supSend_frame p e c).2
@[simp] theorem supSend_strand (p : Platform) (e : SupEvent) (c : Core) (k : Key) : (supSend p e c).strand? k = c.strand? k := by
  rw [Core.strand?, supSend_strands, Core.strand?]

end Sys2Proof.Machine
end

section
/-! SUPPORT. The contexts that move between their states: what filling the slots leaves of the strands, and which of them no
`ctxflush` stores. -/

namespace Sys2Proof.Machine

open Sys2Proof

/-! ### Strands that nothing stops (R149, R215) -/

/-- No strand of a name has been told to stop. -/
def Core.Unstopped (c : Core) (k : Key) : Prop := ∀ y ∈ c.strands, y.key = k → y.stopping = false

theorem Core.Unstopped.of_strands {c d : Core} {k : Key} (hs : d.strands = c.strands) (h : c.Unstopped k) : d.Unstopped k := by
  rwa [Unstopped, hs]

/-- A strand that was set is the only one of its name. -/
theorem unstopped_set {c : Core} {k : Key} {x : Strand} (hk : x.key = k) (hx : x.stopping = false) : (c.setStrand x).Unstopped k := by
  intro y hy hyk
  obtain ⟨z, -, rfl⟩ := List.mem_map.1 hy
  split
  · exact hx
  · simp_all

/-- Setting any other strand, or one of the name that is not stopping, leaves it so. -/
theorem Core.Unstopped.set {c : Core} {k : Key} {x : Strand} (h : c.Unstopped k) (hx : x.key = k → x.stopping = false) :
    (c.setStrand x).Unstopped k := by
  by_cases hk : x.key = k
  · exact unstopped_set hk (hx hk)
  · intro y hy hyk
    obtain ⟨z, hz, rfl⟩ := List.mem_map.1 hy
    split
    · simp_all
    · exact h z hz (by simp_all)

theorem oldestWaiting_mem {c : Core} {pid : Nat} {x : Strand} (h : oldestWaiting c pid = some x) : x ∈ c.strands := by
  revert h x
  refine List.foldlRecOn (motive := fun b : Option Strand => ∀ {x}, b = some x → x ∈ c.strands) _ _ (by simp) ?_
  intro b hb x hx y h
  have hxc : x ∈ c.strands := (List.mem_filter.1 (List.mem_filter.1 hx).1).1
  cases b with
  | none => exact Option.some.inj h ▸ hxc
  | some z =>
    dsimp only at h
    split at h
    · exact Option.some.inj h ▸ hxc
    · exact hb h

/-- A strand enters its slot with its place and its PIN changed (R46). -/
theorem enterSlot_strands (p : Platform) (pid slot : Nat) (x : Strand) (c : Core) :
    ∃ place mode, (enterSlot p pid slot x c).strands = (c.setStrand { x with place, mode }).strands := by
  unfold enterSlot
  dsimp only
  split
  · exact ⟨_, _, supSend_strands ..⟩
  · exact ⟨_, _, rfl⟩

theorem Core.Unstopped.enterSlot {p : Platform} {pid slot : Nat} {x : Strand} {c : Core} {k : Key} (h : c.Unstopped k)
    (hx : x ∈ c.strands) : (enterSlot p pid slot x c).Unstopped k := by
  obtain ⟨place, mode, hs⟩ := enterSlot_strands p pid slot x c
  exact (h.set (x := { x with place, mode }) (h x hx)).of_strands hs

/-- Filling the slots of a station stops no strand. -/
theorem Core.Unstopped.fillSlots {p : Platform} {pid : Nat} {c : Core} {k : Key} (h : c.Unstopped k) : (fillSlots p pid c).Unstopped k := by
  refine List.foldlRecOn (motive := fun d : Core => d.Unstopped k) _ _ h fun d hd slot _ => ?_
  split
  · split
    · rename_i hx
      exact hd.enterSlot (oldestWaiting_mem hx)
    · exact hd
  · exact hd

/-- A context that nothing has told to stop is not stored for a `ctxflush` (R149). -/
theorem settleFlush_unstopped {p : Platform} {c : Core} {k : Key} (h : c.Unstopped k) : settleFlush k p c = .ok ((), c) := by
  simp only [settleFlush, act_bind, act_get]
  cases hx : c.strand? k with
  | none => rfl
  | some x =>
    have hstop : x.stopping = false := h x (List.mem_of_find?_eq_some hx) (strand_key hx)
    simp [hstop]

/-! ### Back into the ready set (R51) -/

theorem liveStrand_some {c : Core} {k : Key} {x : Strand} : liveStrand c k = some x ↔ c.strand? k = some x ∧ x.live = true := by
  unfold liveStrand
  cases c.strand? k with
  | none => simp
  | some y =>
    simp only [Option.ite_none_right_eq_some, Option.some.injEq]
    constructor
    · rintro ⟨h, rfl⟩
      exact ⟨rfl, h⟩
    · rintro ⟨rfl, h⟩
      exact ⟨h, rfl⟩

/-- A strand that rejoins the ready set is not stopped by it. -/
theorem rejoin_unstopped {p : Platform} {c : Core} {k : Key} {x : Strand} (hx : c.strand? k = some x) (hs : x.stopping = false) :
    (rejoin p k c).Unstopped k := by
  have hk := strand_key hx
  simp only [rejoin, hx]
  have hset : (c.setStrand { x with parked := none }).Unstopped k := unstopped_set hk hs
  split
  · exact Core.Unstopped.fillSlots (unstopped_set (c := c) (x := { x with place := .waiting, parked := none, since := c.seq }) hk hs)
  · unfold queueActivation
    split
    · exact hset
    · exact hset
  all_goals exact hset

end Sys2Proof.Machine
end

section
/-! SUPPORT. What a privileged instruction checks before its operands, and the return from a trap. -/

namespace Sys2Proof.Machine

open Sys2Proof

/-! ### Checks before the operands (R74) -/

section hand
variable {p : Platform} {c : Core} {pid slot : Nat} {k : Key} {w : IWord} {t : Option Tcw} {x : Strand}

theorem needSup_ok (h : c.work = .strand pid slot k w t) (hx : c.strand? k = some x) (hs : x.sup = true) :
    needSup p c = .ok ((), c) := by
  simp [needSup, me_ok h hx, myWord_ok h, hs]

theorem needDrained_ok (h : c.work = .strand pid slot k w t) (hx : c.strand? k = some x) (hn : x.ops = []) :
    needDrained p c = .ok ((), c) := by
  simp [needDrained, me_ok h hx, hn]

theorem needLine_ok {line : Nat} (h : c.work = .strand pid slot k w t) (hx : c.strand? k = some x)
    (hl : x.lines.contains line = true) (hb : x.badLines.contains line = false) : needLine line p c = .ok ((), c) := by
  simp [needLine, me_ok h hx, -List.contains_eq_mem, hl, hb]

end hand

/-! ### PIN (R46, R133) -/

theorem getLsbD_modePin (i : Nat) : modePin.getLsbD i = decide (1 = i) := by
  rw [show modePin = BitVec.twoPow 16 1 from rfl, BitVec.getLsbD_twoPow]
  simp

/-- PIN is bit 1 of a mode word. -/
theorem getLsbD_setPin (m : BitVec 16) (v : Bool) {i : Nat} (hi : i < 16) :
    (modeSet m modePin v).getLsbD i = if 1 = i then v else m.getLsbD i := by
  cases v with
  | false =>
    rw [modeSet, if_neg Bool.false_ne_true, BitVec.getLsbD_and, BitVec.getLsbD_not, getLsbD_modePin]
    split <;> simp [*]
  | true =>
    rw [modeSet, if_pos rfl, BitVec.getLsbD_or, getLsbD_modePin]
    split <;> simp [*]

/-- Only the last value written to PIN counts. -/
theorem setPin_setPin (m : BitVec 16) (u v : Bool) : modeSet (modeSet m modePin u) modePin v = modeSet m modePin v := by
  apply BitVec.eq_of_getLsbD_eq
  intro i hi
  rw [getLsbD_setPin _ _ hi, getLsbD_setPin _ _ hi, getLsbD_setPin _ _ hi]
  split <;> rfl

/-- PIN written with the value that it has. -/
theorem setPin_same {m : BitVec 16} {v : Bool} (h : m.getLsbD 1 = v) : modeSet m modePin v = m := by
  apply BitVec.eq_of_getLsbD_eq
  intro i hi
  rw [getLsbD_setPin _ _ hi, ← h]
  split
  · simp_all
  · rfl

/-- A station's pinned strands in slots are as many as before where each strand keeps what counts. -/
theorem pinnedSlots_updStrand {c : Core} {k : Key} {f : Strand → Strand} (pid : Nat) (hkey : ∀ y, (f y).key = y.key)
    (hplace : ∀ y, (f y).place = y.place) (hstation : ∀ y, (f y).station = y.station) (hpinned : ∀ y, (f y).pinned = y.pinned)
    (hdrained : ∀ y, (f y).drained = y.drained) : pinnedSlots (c.updStrand k f) pid = pinnedSlots c pid := by
  have hsend : (c.updStrand k f).sending = c.sending := rfl
  have hres : ∀ y, (f y).resident = y.resident := fun y => by unfold Strand.resident; rw [hplace, hdrained]
  simp only [pinnedSlots, residents, Core.updStrand, List.filter_map, List.length_map, List.filter_filter]
  congr 2
  funext y
  dsimp only [Function.comp]
  split
  · rw [hres, hplace, hstation, hpinned, hkey]
    rfl
  · rfl

/-- A PIN is refused: twelve pinned strands hold slots, and this one would be a thirteenth (R46). -/
def PinRefused (c : Core) (x : Strand) (v : Bool) : Prop :=
  v = true ∧ x.pinned = false ∧ (∃ slot, x.place = .slotted slot) ∧ 12 ≤ pinnedSlots c x.station

theorem setPin_refused {p : Platform} {c : Core} {k : Key} {x : Strand} {v : Bool} (hx : c.strand? k = some x)
    (h : PinRefused c x v) : setPin p k v c = supSend p (pinFullEvent x.station x) c := by
  obtain ⟨rfl, hp, ⟨slot, hs⟩, hn⟩ := h
  simp [setPin, hx, hp, hs, Config.pinnedMax, hn]

theorem setPin_taken {p : Platform} {c : Core} {k : Key} {x : Strand} {v : Bool} (hx : c.strand? k = some x)
    (h : ¬ PinRefused c x v) : setPin p k v c = c.setStrand { x with mode := modeSet x.mode modePin v } := by
  simp only [setPin, hx]
  split
  · rename_i slot hs
    refine if_neg fun hf => h ?_
    simp only [Config.pinnedMax, Bool.and_eq_true, Bool.not_eq_true'] at hf
    obtain ⟨⟨hv, hp⟩, hn⟩ := hf
    exact ⟨hv, hp, ⟨slot, hs⟩, of_decide_eq_true hn⟩
  · rfl

/-! ### `eret` (R139) -/

/-- A strand returned from a trap keeps its PIN until it is set (R46). -/
theorem returned_pinned (x : Strand) : x.issued.returned.pinned = x.pinned :=
  (getLsbD_setPin x.savedMode x.pinned (by decide)).trans (if_pos rfl)

theorem issued_drained (x : Strand) : x.issued.drained = x.drained := by
  simp [Strand.drained, Strand.issued]

/-- `eret` to an instruction's address in supervisor mode. -/
theorem eretAct_returns {p : Platform} {c : Core} {pid slot : Nat} {k : Key} {w : IWord} {t : Option Tcw} {x : Strand}
    (h : c.work = .strand pid slot k w t) (hx : c.strand? k = some x) (hs : x.sup = true) (hn : x.ops = [])
    (hl : x.lines.contains 9 = true) (hb : x.badLines.contains 9 = false) (hend : x.epc.toNat ≤ 2 ^ 64 - 4)
    (halign : x.epc.toNat % 4 = 0) :
    eretAct p c = .ok ((), setPin p k (x.savedMode.getLsbD 1) (c.updStrand k fun y => y.issued.returned)) := by
  simp only [eretAct, act_bind, needSup_ok h hx hs, lookaheadCheck_ok h hx (.inl hn), needDrained_ok h hx hn,
    needLine_ok h hx hl hb, me_ok h hx, act_read, if_neg (Nat.not_lt.2 hend), if_neg (not_not_intro halign), updMe_ok _ h,
    act_onCore, strand_key hx]

/-- Settles O21: the pc and the mode come back at once, and PIN by the one rule that counts the pinned slots before the return. -/
theorem eretReturns : Obligations.EretReturns := by
  unfold Obligations.EretReturns
  rintro s pid k w t x ⟨⟨slot, hw⟩, hx⟩ hs hn hl hb hend halign
  have hrun : exec .eret s = .next { s with core := _ } := runCore_ok (eretAct_returns hw hx hs hn hl hb hend halign)
  have hk : x.key = k := strand_key hx
  have hx' : (s.core.updStrand k fun y => y.issued.returned).strand? k = some x.issued.returned := strand_upd _ (fun _ => rfl) hx
  have hpins : pinnedSlots (s.core.updStrand k fun y => y.issued.returned) x.station = pinnedSlots s.core x.station :=
    pinnedSlots_updStrand _ (fun _ => rfl) (fun _ => rfl) (fun _ => rfl) returned_pinned issued_drained
  have hrefused : PinRefused (s.core.updStrand k fun y => y.issued.returned) x.issued.returned (x.savedMode.getLsbD 1) ↔
      PinRefused s.core x (x.savedMode.getLsbD 1) := by
    unfold PinRefused
    rw [returned_pinned, ← hpins]
    rfl
  by_cases hfull : PinRefused s.core x (x.savedMode.getLsbD 1)
  · rw [setPin_refused hx' (hrefused.2 hfull)] at hrun
    obtain ⟨hpin, hunpinned, -, hmany⟩ := hfull
    refine ⟨_, x.issued.returned, hrun, by simpa using hx', rfl, rfl, rfl, rfl, rfl, rfl, rfl, rfl, fun h => ?_, fun _ _ _ _ _ => ?_⟩
    · rcases h hpin with h | h
      · simp [hunpinned] at h
      · omega
    · exact congrArg (modeSet x.savedMode modePin) hunpinned
  · rw [setPin_taken hx' (mt hrefused.1 hfull)] at hrun
    have hmode : modeSet x.issued.returned.mode modePin (x.savedMode.getLsbD 1) = x.savedMode :=
      (setPin_setPin ..).trans (setPin_same rfl)
    refine ⟨_, _, hrun, strand_set hx' hk, rfl, rfl, rfl, rfl, rfl, rfl, rfl, rfl, fun _ => ⟨hmode, rfl⟩,
      fun slot hpin hunpinned hslot hmany => absurd ⟨hpin, hunpinned, ⟨slot, hslot⟩, hmany⟩ hfull⟩

end Sys2Proof.Machine
end

section
/-! SUPPORT. How contexts move: a wake that arrives, an activation from its start to its end, a line of a record that arrives, and
the arrival of a migration. -/

namespace Sys2Proof.Machine

open Sys2Proof

/-! ### A wake arrives (R51) -/

section
variable {p : Platform} {c : Core} {w : Wake} {x : Strand} {r : Wait}

theorem wakeMatches_reason (h : w.reason = some r) (hr : x.parked = some r) : wakeMatches w x = true := by
  simp [wakeMatches, h, hr]

/-- What a wake of no supervisor does for a strand of a job that is not cancelled. -/
theorem wakeArrives_sent (hs : w.supervisor = false) (hc : c.cancelled.contains w.key.job = false)
    (hgo : (!x.stopping || x.blocked || x.dropped.isSome) = true) :
    wakeArrives p w x p c = if wakeMatches w x then reissuePinned w p (wakeStrand p w.key c) else .ok ((), c) := by
  simp only [wakeArrives, act_bind, act_get, hc, Bool.false_eq_true, if_false, hgo, require_true, hs, Bool.false_and, Bool.not_false,
    Bool.and_true]
  split
  · simp only [act_bind, act_onCore]
    cases reissuePinned w p (wakeStrand p w.key c) <;> rfl
  · rfl

/-- A wake that ends no park is lost. -/
theorem wakeArrives_lost (hs : w.supervisor = false) (hc : c.cancelled.contains w.key.job = false) (hstop : x.stopping = false)
    (hm : wakeMatches w x = false) : wakeArrives p w x p c = .ok ((), c) := by
  rw [wakeArrives_sent hs hc (by simp [hstop]), hm, if_neg Bool.false_ne_true]

theorem wakeStrand_parked (hx : c.strand? w.key = some x) (hd : x.dropped = none) (hplace : x.place = .parked) :
    wakeStrand p w.key c =
      fillSlots p x.station (c.setStrand { x with place := .waiting, parked := none, since := c.seq }).tick := by
  simp [wakeStrand, rejoin, hx, hd, hplace]

theorem wakeStrand_dropped (hx : c.strand? w.key = some x) (hd : x.dropped.isSome = true) :
    wakeStrand p w.key c = c.setStrand { x with parked := none } := by
  simp [wakeStrand, hx, hd]

/-- Only the release of a PIN line has an access reissued. -/
theorem reissuePinned_other (h : w.reason = some r) (hr : ∀ l, r ≠ .pinLine l) : reissuePinned w p c = .ok ((), c) := by
  simp only [reissuePinned, act_bind, act_get, h]
  cases r with
  | pinLine l => exact absurd rfl (hr l)
  | _ => rfl

/-- The access that waits for a PIN line is performed again as its holder releases it (R166). -/
theorem reissuePinned_pin {l : Nat} {d : Dropped} (h : w.reason = some (.pinLine l)) (hx : liveStrand c w.key = some x)
    (hd : x.dropped = some d) (hw : d.woken = true) (hp : x.parked = none) :
    reissuePinned w p c = performDropped w.key x d p c := by
  simp [reissuePinned, h, hx, hd, hw, hp]

end

/-- A wake takes its place in the order of arrival, and leaves the list of those on their way. -/
theorem strandWakeAct_arrives {p : Platform} {c : Core} {e : EventArg} {w : Wake} {x : Strand} (hw : c.wakes[e.index]? = some w)
    (hfirst : ∀ v ∈ c.wakes.take e.index, wakesBefore v w = false) (hb : commandBefore c w = false) (hs : w.supervisor = false)
    (hx : liveStrand c w.key = some x) :
    strandWakeAct e p c = wakeArrives p w x p { c with wakes := c.wakes.eraseIdx e.index } := by
  have hall : ((c.wakes.take e.index).all fun v => !wakesBefore v w) = true := by
    simpa only [List.all_eq_true, Bool.not_eq_true'] using hfirst
  have hx' : liveStrand { c with wakes := c.wakes.eraseIdx e.index } w.key = some x := hx
  simp only [strandWakeAct, act_bind, act_read, act_get, hw, hall, hb, Bool.not_false, Bool.and_self, require_true, act_onCore, hs,
    Bool.false_eq_true, if_false, hx']

/-! ### Activation (R44) -/

/-- The record of a stored context whose lines are good. -/
theorem recordBad_stored {p : Platform} {c : Core} {k : Key} {x : Strand} (hk : x.key = k) {l : Nat} (hb : l ∉ x.badLines)
    (hg : lineGone p c k (64 * l) = false) : recordBad p c x (64 * l) = false := by
  subst hk
  simp [recordBad, recordGone, hb, hg]

theorem takeEntry_free {p : Platform} {c : Core} {pid : Nat} (h : (residents c pid).length < 128) :
    takeEntry pid p c = .ok (true, c) := by
  simp [takeEntry, Config.residentMax, h]

/-- The stored context at the head of its station's queue takes an entry there. -/
theorem activationStartAct_starts {p : Platform} {c c1 : Core} {e : EventArg} {k : Key} {rest : List Key} {x : Strand}
    (hq : (c.station e.unit).activations = k :: rest) (hx : liveStrand c k = some x) (hplace : x.place = .stored)
    (hc : c.cancelled.contains k.job = false)
    (hfew : (c.strands.filter fun y => y.place == .activating && y.station == e.unit).length < 4)
    (hgood : ∀ l < 4, recordBad p c x (64 * l) = false) (hpage : pagePresent k.job k.ctx p c = .ok (true, c1))
    (hroom : (residents c1 e.unit).length < 128) :
    activationStartAct e p c = .ok ((), (dropActivation e.unit c1).updStrand k fun y =>
      { y with place := .activating, station := e.unit, lines := [] }) := by
  have hnone : ([0, 1, 2, 3].find? fun l => recordBad p c x (64 * l)) = none := by
    rw [List.find?_eq_none]
    intro l hl
    simp [hgood l (List.mem_range.1 (show l ∈ List.range 4 from hl))]
  have hfew' : decide ((c.strands.filter fun y => y.place == .activating && y.station == e.unit).length < Config.activationMax) = true :=
    decide_eq_true hfew
  simp only [activationStartAct, act_bind, act_read, act_get, hq, hx, if_neg (not_not_intro hplace), hc, Bool.false_eq_true, if_false,
    hfew', require_true, hpage, Bool.not_true, hnone, takeEntry_free hroom, if_true, act_onCore]

/-- A line of a record arrives that its activation, or its parked strand, waits for. -/
theorem lineArrivalAct_arrives {p : Platform} {c c1 : Core} {e : EventArg} {k : Key} {x : Strand} {reached : Target}
    (hk : k = ⟨e.job, e.addr⟩) (hx : liveStrand c k = some x) (hnew : x.lines.contains e.index = false)
    (hwait : x.place = .activating ∧ e.index < 4 ∨ x.place ≠ .activating ∧ x.parked = some (.ctxLine e.index))
    (hb : x.badLines.contains e.index = false)
    (hreach : reachLine k.job (k.ctx + 64 * e.index) (k.ctx, 1, 64) p c = .ok (reached, c1))
    (hg : lineGone p c1 k (64 * e.index) = false) :
    lineArrivalAct e p c = .ok ((), wakeIf k (.ctxLine e.index) (c1.setStrand { x with lines := e.index :: x.lines })) := by
  have hwaits : (if x.place = .activating then decide (e.index < 4) else x.parked == some (.ctxLine e.index)) = true := by
    obtain ⟨hplace, hi⟩ | ⟨hplace, hp⟩ := hwait
    · simp [hplace, hi]
    · simp [hplace, hp]
  have hk' : argKey e = k := hk.symm
  simp only [lineArrivalAct, hk', act_bind, act_read, act_get, hx, hnew, hwaits, Bool.not_false, Bool.and_self, require_true, hreach,
    act_look, hb, hg, Bool.or_self, Bool.false_eq_true, and_false, if_false, act_onCore]

/-- A context whose first four lines have arrived becomes WAITING. -/
theorem activationCompleteAct_completes {p : Platform} {c : Core} {e : EventArg} {k : Key} {x : Strand} (hk : k = ⟨e.job, e.addr⟩)
    (hx : liveStrand c k = some x) (hplace : x.place = .activating) (hlines : ∀ l < 4, l ∈ x.lines) (hstop : x.stopping = false) :
    activationCompleteAct e p c =
      .ok ((), fillSlots p x.station (c.setStrand { x with place := .waiting, since := c.seq }).tick) := by
  have hready : (x.place == .activating && [0, 1, 2, 3].all fun l => x.lines.contains l) = true := by
    simp [hplace, hlines]
  have hxk : x.key = k := strand_key (liveStrand_some.1 hx).1
  have hset : (c.setStrand { x with place := .waiting, since := c.seq }).tick.Unstopped k := unstopped_set hxk hstop
  have hk' : argKey e = k := hk.symm
  simp only [activationCompleteAct, hk', act_bind, act_read, act_get, hx, hready, require_true, act_onCore]
  exact settleFlush_unstopped hset.fillSlots

/-! ### Migration (R54, R169) -/

theorem sending_none {c : Core} {k : Key} (h : Claims.NothingSent c k) : c.sending k = false := by
  obtain ⟨hcast, hdec, hmem⟩ := h
  simp only [Core.sending, Bool.or_eq_false_iff, List.any_eq_false, beq_iff_eq]
  refine ⟨⟨hcast, fun d hd => ?_⟩, hmem⟩
  simpa [Decrement.ofStrand, and_assoc] using hdec d hd

theorem Core.Unstopped.noteStation {job record pid : Nat} {c : Core} {k : Key} (h : c.Unstopped k) :
    (noteStation job record pid c).Unstopped k := h

/-- A context whose accesses are performed arrives WAITING at its target. -/
theorem migrationArrivalAct_arrives {p : Platform} {c c1 : Core} {e : EventArg} {k : Key} {x : Strand} {target : Nat}
    (hk : k = ⟨e.job, e.addr⟩) (hx : liveStrand c k = some x) (hplace : x.place = .moving target) (hdrained : x.drained = true)
    (hsent : Claims.NothingSent c k) (hstop : x.stopping = false) (hc : c.cancelled.contains k.job = false)
    (hroom : (residents c target).length < 128)
    (hlines : (((List.range 10).filter fun l => !x.lines.contains l).forM fun l => do
        let _ ← reachLine k.job (k.ctx + 64 * l) (k.ctx, 1, 64) : Act Unit) p c = .ok ((), c1)) :
    let y : Strand := { x with place := .waiting, station := target, lines := List.range 10, since := c1.seq, parked := none }
    migrationArrivalAct e p c = .ok ((), noteStation k.job x.task.toNat target (fillSlots p target (c1.setStrand y).tick)) := by
  intro y
  have hxk : x.key = k := strand_key (liveStrand_some.1 hx).1
  have hset : (c1.setStrand y).tick.Unstopped k := unstopped_set hxk hstop
  have hgo : (x.drained && !c.sending k) = true := by simp [hdrained, sending_none hsent]
  have hk' : argKey e = k := hk.symm
  simp only [migrationArrivalAct, hk', act_bind, act_read, act_get, hx, hplace, hgo, require_true, hc, Bool.false_eq_true, if_false,
    takeEntry_free hroom, if_true, hlines, act_onCore]
  exact settleFlush_unstopped hset.fillSlots.noteStation

/-- Settles O43: each event runs its act, and its act is given above. -/
theorem contextsMove : Obligations.ContextsMove := by
  unfold Obligations.ContextsMove
  refine fun s e h => ⟨?wakes, ?starts, ?lines, ?completes, ?migrates⟩
  case wakes =>
    intro w x hw hfirst hs hx hc hb c
    obtain ⟨hx0, hlive⟩ := liveStrand_some.1 hx
    have hrun : strandWakeAct e s.plat s.core = wakeArrives s.plat w x s.plat c := strandWakeAct_arrives hw hfirst hb hs hx
    have hx' : c.strand? w.key = some x := hx0
    have hxk : x.key = w.key := strand_key hx0
    have hc' : c.cancelled.contains w.key.job = false := hc
    refine ⟨fun hstop hm => runEvent_ok h (hrun.trans (wakeArrives_lost hs hc' hstop hm)), ?ready, ?pinned⟩
    case ready =>
      intro r hstop hp hr hplace hd hno c2
      refine runEvent_ok h (hrun.trans ?_)
      rw [wakeArrives_sent hs hc' (by simp [hstop]), if_pos (wakeMatches_reason hr hp), wakeStrand_parked hx' hd hplace,
        reissuePinned_other hr hno]
    case pinned =>
      intro l d c1 hp hr hd hwoken hperform
      have hd' : x.dropped.isSome = true := by simp [hd]
      refine runEvent_ok h (hrun.trans ?_)
      rw [wakeArrives_sent hs hc' (by simp [hd']), if_pos (wakeMatches_reason hr hp), wakeStrand_dropped hx' hd']
      have hset : (c.setStrand { x with parked := none }).strand? w.key = some { x with parked := none } :=
        strand_set hx' hxk
      rw [reissuePinned_pin hr (liveStrand_some.2 ⟨hset, hlive⟩) hd hwoken rfl]
      exact hperform
  case starts =>
    intro k rest x c1 hq hx hplace hc hfew hb hg hpage hroom
    have hk : x.key = k := strand_key (liveStrand_some.1 hx).1
    have hgood : ∀ l < 4, recordBad s.plat s.core x (64 * l) = false := fun l hl =>
      recordBad_stored hk (fun hl' => absurd (hb l hl') (Nat.not_le.2 hl)) (hg l hl)
    exact runEvent_ok h (activationStartAct_starts hq hx hplace hc hfew hgood hpage hroom)
  case lines =>
    intro k x reached c1 hk hx hnew hwait hb hreach hg
    exact runEvent_ok h (lineArrivalAct_arrives hk hx hnew hwait hb hreach hg)
  case completes =>
    intro k x hk hx hplace hlines hstop
    exact runEvent_ok h (activationCompleteAct_completes hk hx hplace hlines hstop)
  case migrates =>
    intro k x target c1 hk hx hplace hn hd hr hsent hstop hc hroom hlines
    exact runEvent_ok h (migrationArrivalAct_arrives hk hx hplace (by simp [Strand.drained, hn, hd, hr]) hsent hstop hc hroom hlines)

end Sys2Proof.Machine
end

section
/-! SUPPORT. An access of memory, with all that it brings with it (translation, lines of L2, recalls and write-backs of stash
entries, the fabric), leaves the work latch and the strands' names. -/

namespace Sys2Proof.Machine

open Sys2Proof

/-! ### Attempts that leave the latch and the names -/

/-- An attempt that, where it ends, leaves the work latch and the strands' names as they were. -/
structure KeepsHands {α : Type} (h : Work × List Key) (a : Act α) : Prop where
  kept : ∀ p c v c', c.hands = h → a p c = .ok (v, c') → c'.hands = h

section
variable {α β : Type} {h : Work × List Key}

theorem KeepsHands.pure (v : α) : KeepsHands h (pure v : Act α) := by
  refine ⟨?_⟩
  rintro p c w c' hc ⟨⟩
  exact hc

theorem KeepsHands.stop (x : Stop) : KeepsHands h (stop x : Act α) := by
  refine ⟨?_⟩
  rintro p c w c' hc ⟨⟩

theorem KeepsHands.read : KeepsHands h (read : Act Platform) := by
  refine ⟨?_⟩
  rintro p c w c' hc ⟨⟩
  exact hc

theorem KeepsHands.onCore {f : Core → Core} (hf : ∀ c, (f c).hands = c.hands) : KeepsHands h (onCore f) := by
  refine ⟨?_⟩
  rintro p c w c' hc ⟨⟩
  exact (hf c).trans hc

theorem KeepsHands.set {d : Core} (hd : d.hands = h) : KeepsHands h (set d : Act PUnit) := by
  refine ⟨?_⟩
  rintro p c w c' hc ⟨⟩
  exact hd

theorem KeepsHands.bind {a : Act α} {f : α → Act β} (ha : KeepsHands h a) (hf : ∀ v, KeepsHands h (f v)) :
    KeepsHands h (a >>= f) := by
  refine ⟨fun p c w c' hc hrun => ?_⟩
  rw [act_bind] at hrun
  cases he : a p c with
  | error e => simp [he] at hrun
  | ok r =>
    rw [he] at hrun
    exact (hf _).kept p _ _ _ (ha.kept p c _ _ hc he) hrun

/-- What follows a look at the core may rely on what it saw. -/
theorem KeepsHands.get {f : Core → Act β} (hf : ∀ c, c.hands = h → KeepsHands h (f c)) : KeepsHands h ((get : Act Core) >>= f) :=
  ⟨fun p c w c' hc hrun => (hf c hc).kept p c w c' hc hrun⟩

theorem KeepsHands.mapM {f : α → Act β} (hf : ∀ x, KeepsHands h (f x)) (l : List α) : KeepsHands h (l.mapM f) := by
  induction l with
  | nil => exact .pure _
  | cons x r ih =>
    rw [List.mapM_cons]
    exact .bind (hf x) fun _ => .bind ih fun _ => .pure _

end

/-! ### Changes of the core -/

theorem logLine_hands (p : Platform) (l : L2Line) (c : Core) : (logLine p l c).hands = c.hands := by
  unfold logLine
  split
  · rfl
  · dsimp only
    split
    · rfl
    · split
      · rfl
      · exact Core.hands_eq (deviceWrite_work ..) (deviceWrite_strands ..)

theorem poisonRecords_hands (p : Platform) (pline : Nat) (c : Core) : (poisonRecords p pline c).hands = c.hands :=
  congrArg (Prod.mk c.work) (map_strands_key c.strands fun y => by split <;> rfl)

theorem hands_l2 (c : Core) (l : List L2Line) : ({ c with l2 := l } : Core).hands = c.hands := rfl
theorem hands_memL2 (c : Core) (m : Mem) (l : List L2Line) : ({ c with mem := m, l2 := l } : Core).hands = c.hands := rfl

theorem leaveL2_hands (p : Platform) (l : L2Line) (c : Core) : (leaveL2 p l c).hands = c.hands := by
  have hlog : (leftLog p l c).hands = c.hands := by
    unfold leftLog
    split
    · exact logLine_hands p l c
    · rfl
  rw [leaveL2, ← leftLog]
  dsimp only
  split
  · exact (hands_l2 ..).trans hlog
  · refine (hands_memL2 ..).trans (Eq.trans ?_ hlog)
    split
    · exact poisonRecords_hands ..
    · rfl

theorem tagLine_hands (p : Platform) (pt : Party) (va pa : Nat) (c : Core) : (tagLine p pt va pa c).hands = c.hands := by
  have hlog (l : L2Line) : (logLine p l (noteOthers p pt va c)).hands = c.hands := logLine_hands p l _
  unfold tagLine
  dsimp only
  refine (hands_l2 ..).trans ?_
  split
  · exact hlog _
  · split
    · exact hlog _
    · rfl

theorem beforeWrite_hands (p : Platform) (pt : Party) (va pa : Nat) (own : Option Nat) (c : Core) :
    (beforeWrite p pt va pa own c).hands = c.hands :=
  (tagLine_hands ..).trans (Core.hands_eq (dropCopies_work ..) (dropCopies_strands ..))

theorem supSend_hands (p : Platform) (e : SupEvent) (c : Core) : (supSend p e c).hands = c.hands :=
  Core.hands_eq (supSend_work ..) (supSend_strands ..)

theorem recordStore_hands (p : Platform) (pt : Party) (k : Key) (off va size : Nat) (v : Word) (c : Core) :
    (recordStore p pt k off va size v c).hands = c.hands := by
  unfold recordStore
  split
  · rfl
  · split
    · exact hands_updStrand _ _ fun _ => rfl
    · exact supSend_hands ..

theorem touchL1_hands (p : Platform) (pt : Party) (va pa : Nat) (c : Core) : (touchL1 p pt va pa c).hands = c.hands := by
  unfold touchL1
  split <;> rfl

theorem writeBackWord_hands (p : Platform) (pt : Party) (s : Station) (e : StashEntry) (va : Nat) (at' : List Target)
    (x : Core × List Nat) (k : Nat) : (writeBackWord p pt s e va at' x k).1.hands = x.1.hands := by
  have hcell (pa : Nat) := beforeWrite_hands p pt (va + 8 * k) pa none x.1
  unfold writeBackWord
  dsimp only
  split
  · rfl
  · split
    · split
      · exact hcell _
      · split <;> exact hcell _
    · split
      · exact hcell _
      · split <;> exact hcell _
    · rfl
    · exact recordStore_hands ..

/-! ### The home of a line (R150, R379) -/

section
variable {h : Work × List Key}

theorem makePlace_hands (va : Nat) : KeepsHands h (makePlace va) := by
  refine .bind .read fun p => .get fun c hc => ?_
  split
  · exact .pure _
  · split
    · exact .bind (.set ((leaveL2_hands ..).trans hc)) fun _ => .pure _
    · exact .pure _

theorem useDeviceLine_hands (pa : Nat) : KeepsHands h (useDeviceLine pa) := by
  refine .get fun c _ => ?_
  split
  · exact .onCore fun _ => rfl
  · refine .bind .read fun p => ?_
    split
    · exact .pure _
    · exact .bind (makePlace_hands pa) fun _ => .onCore fun _ => rfl

theorem readEntry_hands (die job : Nat) (directory : Bool) (index addr : Nat) :
    KeepsHands h (readEntry die job directory index addr) := by
  refine .get fun c _ => ?_
  split
  · exact .pure _
  · exact .bind (useDeviceLine_hands addr) fun _ => .onCore fun _ => rfl

theorem translateVa_hands (job va : Nat) : KeepsHands h (translateVa job va) := by
  refine .bind .read fun p => .get fun c _ => ?_
  split
  · exact .pure _
  · refine .get fun c _ => .bind (readEntry_hands ..) fun _ => .get fun c _ => ?_
    dsimp only
    split
    · exact .bind (readEntry_hands ..) fun _ => .get fun c _ => .pure _
    · exact .get fun c _ => .pure _

theorem reachLine_hands (job va : Nat) (fault : Nat × Nat × Nat) : KeepsHands h (reachLine job va fault) := by
  refine .get fun c _ => ?_
  split
  · exact .bind (.onCore fun _ => rfl) fun _ => .pure _
  · refine .bind (translateVa_hands job va) fun m => ?_
    split
    · exact .stop _
    · split
      · exact .pure _
      · refine .bind .read fun p => ?_
        split
        · exact .pure _
        · exact .bind (makePlace_hands va) fun _ => .bind (.onCore fun _ => rfl) fun _ => .pure _

theorem locateFor_hands (job va : Nat) (fault : Nat × Nat × Nat) : KeepsHands h (locateFor job va fault) := by
  refine .get fun c _ => ?_
  split
  · dsimp only
    split
    · exact .bind (reachLine_hands ..) fun _ => .pure _
    · exact .pure _
  · split
    · exact .pure _
    · refine .bind (reachLine_hands ..) fun t => ?_
      split
      · exact .bind .read fun p => .get fun c _ => .pure _
      all_goals exact .pure _

theorem pinCheck_hands (pt : Party) (va : Nat) (pin : Bool) : KeepsHands h (pinCheck pt va pin) := by
  refine .get fun c _ => ?_
  split
  · exact .stop _
  · exact .pure _

/-! ### The stash (R175 to R177) -/

theorem blockLines_hands (pt : Party) (va : Nat) (fault : Nat → Nat × Nat × Nat) : KeepsHands h (blockLines pt va fault) := by
  refine .mapM (fun k => .bind (locateFor_hands ..) fun t => ?_) _
  dsimp only
  split
  · exact .bind (pinCheck_hands ..) fun _ => .pure _
  all_goals exact .pure _

theorem needLanded_hands (pid i : Nat) : KeepsHands h (needLanded pid i) := by
  refine .get fun c _ => ?_
  split
  · exact .stop _
  · exact .pure _

theorem writeBackEntry_hands (pid : Nat) (e : StashEntry) : KeepsHands h (writeBackEntry pid e) := by
  unfold writeBackEntry
  split
  · exact .pure _
  · split
    · exact .pure _
    · refine .bind (blockLines_hands ..) fun lines => .bind .read fun p => .get fun c hc => .bind (.set ?_) fun _ => .pure _
      refine List.foldlRecOn (motive := fun x : Core × List Nat => x.1.hands = h) _ _ hc fun x hx k _ => ?_
      exact (writeBackWord_hands ..).trans hx

theorem recallFrom_hands (job block : Nat) (but : Option Nat) : KeepsHands h (recallFrom job block but) := by
  refine .get fun c _ => ?_
  split
  · split
    · exact .bind (needLanded_hands ..) fun _ => .bind (writeBackEntry_hands ..) fun _ => .onCore fun _ => rfl
    · exact .pure _
  · exact .pure _

theorem fillEntry_hands (pid : Nat) (e : StashEntry) (fault : Nat → Nat × Nat × Nat) : KeepsHands h (fillEntry pid e fault) := by
  unfold fillEntry
  split
  · exact .pure _
  · refine .bind (recallFrom_hands ..) fun _ => .bind (blockLines_hands ..) fun lines => .bind .read fun p => .get fun c _ =>
      .bind (.onCore fun c => ?_) fun _ => .pure _
    exact Core.hands_eq (dropCopies_work ..) (dropCopies_strands ..)

theorem windowEntry_hands (pt : Party) (va kind size : Nat) : KeepsHands h (windowEntry pt va kind size) := by
  refine .get fun c _ => ?_
  split
  · exact .pure _
  · split
    · exact .pure _
    · dsimp only
      split
      · exact .bind (.pure _) fun _ => .pure _
      · exact .bind (fillEntry_hands ..) fun _ => .pure _

/-! ### Apertures (R312 to R316) -/

theorem fabricValue_hands : KeepsHands h fabricValue :=
  .get fun _ _ => .bind (.get fun _ hc => .bind (.set hc) fun _ => .pure _) fun _ => .pure _

theorem fabricDiverted_hands (job va ctx : Nat) (cap : BitVec 16) (device : Nat) :
    KeepsHands h (fabricDiverted job va ctx cap device) :=
  .get fun _ _ => .bind .read fun p => .onCore (supSend_hands p _)

theorem ownMember_hands (pt : Party) (own : Word) (va : Nat) : KeepsHands h (ownMember pt own va) := by
  refine .get fun c _ => ?_
  dsimp only
  split
  · exact .pure _
  · exact .bind .read fun p => .bind (fabricDiverted_hands ..) fun _ => .pure _

theorem memberWords_hands (pt : Party) (own : Word) (g va : Nat) : KeepsHands h (memberWords pt own g va) := by
  refine .bind .read fun p => .get fun c _ => ?_
  dsimp only
  split
  · exact .pure _
  · refine .bind (.mapM (fun i => ?_) _) fun ws => .pure _
    split
    · exact ownMember_hands ..
    · exact fabricValue_hands

theorem apertureLoad_hands (pt : Party) (word pa va size : Nat) (whole : Bool) :
    KeepsHands h (apertureLoad pt word pa va size whole) := by
  refine .bind .read fun p => .get fun c _ => ?_
  dsimp only
  split
  · split
    · exact .pure _
    · refine .bind (memberWords_hands ..) fun ws => ?_
      split <;> exact .pure _
  · split
    · exact .pure _
    · refine .bind fabricValue_hands fun w => ?_
      split <;> exact .pure _
  · exact .pure _

/-! ### Loads (R82) -/

theorem needEarlier_hands (pt : Party) (va size : Nat) : KeepsHands h (needEarlier pt va size) := by
  refine .get fun c _ => ?_
  dsimp only
  split
  · exact .stop _
  · exact .pure _

theorem loadAt_hands (pt : Party) (va size : Nat) : KeepsHands h (loadAt pt va size) := by
  refine .bind (needEarlier_hands ..) fun _ => .bind (windowEntry_hands ..) fun w => ?_
  split
  · exact .get fun _ _ => .pure _
  refine .get fun c _ => ?_
  split
  · exact .bind (pinCheck_hands ..) fun _ => .bind (.onCore fun _ => rfl) fun _ => .pure _
  refine .bind (recallFrom_hands ..) fun _ => .bind (locateFor_hands ..) fun t => ?_
  split
  · exact .bind (pinCheck_hands ..) fun _ => .bind .read fun p => .bind (.onCore (touchL1_hands p _ _ _)) fun _ => .get fun _ _ => .pure _
  · exact .bind .read fun _ => .get fun _ _ => .pure _
  · split
    · exact apertureLoad_hands ..
    · exact .bind .read fun _ => .get fun _ _ => .pure _
  · refine .get fun c _ => ?_
    split
    · exact .bind .read fun _ => .get fun _ _ => .pure _
    · exact .pure _

end

end Sys2Proof.Machine
end

section
/-! SUPPORT. A dropped access (R52): its PAGE record, and the access performed again; and the recall of a block (R176). -/

namespace Sys2Proof.Machine

open Sys2Proof

/-! ### PAGE (R52, R144) -/

/-- The core once the PAGE record of a strand's dropped access has gone to its die. -/
def pageTold (p : Platform) (k : Key) (x : Strand) (d : Dropped) (c : Core) : Core :=
  (supSend p ⟨x.station / 160, 1, x.station, k.job, k.ctx, BitVec.ofNat 64 d.va,
    [BitVec.ofNat 64 d.kind, BitVec.ofNat 64 d.size, d.addr]⟩ c).setStrand { x with dropped := some { d with told := true } }

section
variable {p : Platform} {c : Core} {e : EventArg} {k : Key} {x : Strand} {d : Dropped}

/-- A pinned strand keeps its slot while its page is absent (R46). -/
theorem pageAct_pinned (hk : argKey e = k) (hx : c.strand? k = some x) (hd : x.dropped = some d) (ht : d.told = false)
    (hp : x.pinned = true) : pageAct e p c = .ok ((), pageTold p k x d c) := by
  subst hk
  simp only [argKey] at hx
  simp only [pageAct, act_bind, act_read, act_get, hx, hd, ht, Bool.not_false, require_true, act_onCore, hp]
  rfl

/-- An unpinned strand leaves its slot. -/
theorem pageAct_slotted {slot : Nat} (hk : argKey e = k) (hx : c.strand? k = some x) (hd : x.dropped = some d) (ht : d.told = false)
    (hp : x.pinned = false) (hs : x.place = .slotted slot) :
    pageAct e p c = .ok ((), leaveTo p k .parked none (pageTold p k x d c)) := by
  subst hk
  simp only [argKey] at hx
  simp only [pageAct, pageTold, argKey, act_bind, act_read, act_get, hx, hd, ht, Bool.not_false, require_true, act_onCore, hp, hs]
  rfl

end

/-! ### The access performed again (R52) -/

theorem memberOf_none {c : Core} {k : Key} {stamp : Nat} (h : Claims.NoMember c k stamp) : memberOf c k stamp = none :=
  List.find?_eq_none.2 fun r hr => by simpa using h r hr

theorem signedOf_eq_toInt (v : Nat) {n : Nat} (hn : 0 < n) : signedOf v n = (BitVec.ofNat n v).toInt := by
  simp [signedOf, BitVec.toInt_eq_msb_cond, BitVec.msb_eq_getLsbD_last, BitVec.getLsbD, hn]

/-- The model's extension of a loaded value is that of R107. -/
theorem extend_load (va : Nat) {size : Nat} (signed : Bool) (v : Nat) (hs : 0 < size) :
    (MemReq.load va size signed).extend v = Claims.extended size signed v := by
  cases signed with
  | false =>
    apply BitVec.eq_of_toNat_eq
    simp [MemReq.extend, Claims.extended, zextTo, wordOf]
  | true =>
    have hbits : 0 < 8 * size := by omega
    simp only [MemReq.extend, Claims.extended, if_true, sextTo, wordOfInt, signedOf_eq_toInt v hbits]
    rfl

/-- What a load that has been performed brings to its operation. -/
def Loaded.brings (r : Loaded) (size : Nat) (signed : Bool) : LlResult :=
  match r.poison with
  | some w => .poison w
  | none => .value (Claims.extended size signed r.value) 0

theorem effected_keeps (x : Strand) (d : Dropped) : (x.effected d).key = x.key ∧ (x.effected d).stopping = x.stopping := by
  unfold Strand.effected
  dsimp only
  split
  · exact ⟨Strand.advance_key .., Strand.advance_stopping ..⟩
  · exact ⟨rfl, rfl⟩

theorem updStrand_updStrand (c : Core) (k : Key) {f : Strand → Strand} (g : Strand → Strand) (hf : ∀ y, (f y).key = y.key) :
    (c.updStrand k f).updStrand k g = c.updStrand k fun y => g (f y) := by
  simp only [Core.updStrand, List.map_map]
  congr 1
  refine List.map_congr_left fun y _ => ?_
  by_cases h : y.key = k <;> simp [h, hf]

/-- A long-latency load performed again brings its value, or its poison, to its operation, and its strand goes on. -/
theorem finishReperform_load {p : Platform} {c : Core} {pid slot : Nat} {k : Key} {w : IWord} {t : Option Tcw} {d : Dropped}
    {va size : Nat} {signed : Bool} (h : c.work = .strand pid slot k w t) (hm : Claims.NoMember c k d.stamp)
    (hreq : d.req = .load va size signed) (hs : 0 < size) (hl : d.longLatency = true) (r : Loaded) :
    finishReperform d r p c = .ok ((), c.updStrand k fun y => (y.bring d.addr (r.brings size signed)).effected d) := by
  have hval : d.req.extend r.value = Claims.extended size signed r.value := by rw [hreq, extend_load va signed r.value hs]
  have hwork (f : Strand → Strand) : (c.updStrand k f).work = .strand pid slot k w t := h
  simp only [finishReperform, act_bind, act_get, myKey_ok h, memberOf_none hm, Option.isSome_none, Bool.false_eq_true, if_false, hl,
    if_true, updMe_ok _ h, updMe_ok _ (hwork _), hval]
  refine congrArg (fun d => Except.ok ((), d)) (updStrand_updStrand c k _ ?_)
  exact fun _ => rfl

/-- The load of a woken strand performed again, its strand not having been told to stop. -/
theorem performDropped_load {p : Platform} {c c1 : Core} {k : Key} {x : Strand} {d : Dropped} {va size : Nat} {signed : Bool} {r : Loaded}
    (hstop : x.stopping = false) (hreq : d.req = .load va size signed) (hs : 0 < size) (hl : d.longLatency = true)
    (hload : loadAt x.party va size p { c with work := .strand x.station 0 k 0 none } = .ok (r, c1)) (hx : c1.strand? k = some x)
    (hm : Claims.NoMember c1 k d.stamp) :
    performDropped k x d p c = .ok ((), { rejoin p k (c1.updStrand k fun y => (y.bring d.addr (r.brings size signed)).effected d) with
      work := c.work }) := by
  have hwork : c1.work = .strand x.station 0 k 0 none := Core.work_of_hands ((loadAt_hands ..).kept _ _ _ _ rfl hload)
  have hfinish := finishReperform_load (p := p) hwork hm hreq hs hl r
  have hgoes : (rejoin p k (c1.updStrand k fun y => (y.bring d.addr (r.brings size signed)).effected d)).Unstopped k :=
    rejoin_unstopped (strand_upd _ (fun y => (effected_keeps _ d).1) hx) ((effected_keeps _ d).2.trans hstop)
  simp only [performDropped, act_bind, act_get, act_onCore, act_attempt, act_read, hreq, reperform, hload, hfinish]
  exact settleFlush_unstopped hgoes

/-- The access of a woken strand that waits for nothing else is performed again. -/
theorem reperformAct_performs {p : Platform} {c : Core} {e : EventArg} {k : Key} {x : Strand} {d : Dropped} (hk : argKey e = k)
    (hx : c.strand? k = some x) (hd : x.dropped = some d) (hw : d.woken = true) (hp : x.parked = none) :
    reperformAct e p c = performDropped k x d p c := by
  have hgo : (d.woken && x.parked.isNone) = true := by simp [hw, hp]
  subst hk
  simp only [argKey] at hx
  simp only [reperformAct, act_bind, act_get, hx, hd, hgo, require_true]
  rfl

/-! ### STASH_RECALL (R176) -/

theorem stashRecallAct_recalls {p : Platform} {c c1 : Core} {e : EventArg}
    (hown : ∃ z ∈ c.stations, ∃ b, mappedEntry z.2 e.job (e.addr / 256 * 256) = some b ∧ b.valid = true)
    (hrun : recallBlock e.job (e.addr / 256 * 256) p c = .ok ((), c1)) : stashRecallAct e p c = .ok ((), c1) := by
  obtain ⟨z, hz, b, hb, hv⟩ := hown
  have howned : blockOwned c e.job (e.addr / 256 * 256) = true :=
    List.any_eq_true.2 ⟨z, hz, by simp [hb, hv]⟩
  have hact : stashRecallAct e p c =
      (do require (blockOwned c e.job (e.addr / 256 * 256)); recallBlock e.job (e.addr / 256 * 256) : Act Unit) p c := rfl
  rw [hact, howned, act_bind, require_true]
  exact hrun

/-- Settles O44: PAGE, the access performed again and the recall run their acts, and each act is given above. -/
theorem droppedAccessesResume : Obligations.DroppedAccessesResume := by
  unfold Obligations.DroppedAccessesResume
  intro s e k x d h hk hx
  refine ⟨?page, ?again, fun c1 hown hrun => runEvent_ok h (stashRecallAct_recalls hown hrun)⟩
  case page =>
    intro hd ht c
    exact ⟨fun hp => runEvent_ok h (pageAct_pinned hk.symm hx hd ht hp),
      fun slot hp hs => runEvent_ok h (pageAct_slotted hk.symm hx hd ht hp hs)⟩
  case again =>
    intro va size signed r c1 hd hw hp hstop hreq hsize hl hload hx1 hm
    have hs : 0 < size := by
      rcases size with _ | n
      · simp at hsize
      · exact n.succ_pos
    exact runEvent_ok h ((reperformAct_performs hk.symm hx hd hw hp).trans (performDropped_load hstop hreq hs hl hload hx1 hm))

end Sys2Proof.Machine
end

section
/-! SUPPORT. The system registers (R129 to R134): what each of them gives and takes, in the strand, in its station and in the job's
record, which is reached through L2. -/

namespace Sys2Proof.Machine

open Sys2Proof

/-! ### The words of the job's record (R136, R150, R379) -/

theorem makePlace_ok (va : Nat) (p : Platform) (c : Core) : ∃ b d, makePlace va p c = .ok (b, d) := by
  simp only [makePlace, act_bind, act_read, act_get]
  split
  · exact ⟨_, _, rfl⟩
  · cases leastUsed c (lineOf va) <;> exact ⟨_, _, rfl⟩

/-- The device reaches a word of its own whatever L2 holds. -/
theorem useDeviceLine_ok (pa : Nat) (p : Platform) (c : Core) : ∃ d, useDeviceLine pa p c = .ok ((), d) := by
  simp only [useDeviceLine, act_bind, act_get]
  cases findLine c deviceJob pa with
  | some l => exact ⟨_, rfl⟩
  | none =>
    simp only [act_bind, act_read]
    split
    · exact ⟨_, rfl⟩
    · obtain ⟨b, d, h⟩ := makePlace_ok pa p c
      exact ⟨_, by rw [act_bind, h]; rfl⟩

theorem useDeviceLine_jobReached (p : Platform) (c : Core) (job off : Nat) :
    useDeviceLine (jobRecord p c job + off) p c = .ok ((), Claims.jobReached p c job off) := by
  obtain ⟨d, h⟩ := useDeviceLine_ok (jobRecord p c job + off) p c
  rw [Claims.jobReached, h]

theorem jobReached_hands (p : Platform) (c : Core) (job off : Nat) : (Claims.jobReached p c job off).hands = c.hands :=
  (useDeviceLine_hands _).kept _ _ _ _ rfl (useDeviceLine_jobReached p c job off)

/-! ### Reading (R134) -/

section
variable {p : Platform} {c : Core} {pid slot : Nat} {k : Key} {w : IWord} {t : Option Tcw} {x : Strand}

/-- The registers of the strand and of its station. -/
theorem readSys_held (h : c.work = .strand pid slot k w t) (hx : c.strand? k = some x) (hl : x.lines.contains 9 = true)
    (hb : x.badLines.contains 9 = false) : ∀ e ∈ Claims.sysValues c pid x, readSys e.1.toNat p c = .ok (e.2, c) := by
  simp [Claims.sysValues, readSys, sysLine, me_ok h hx, myStation_ok h, needLine_ok h hx hl hb, wordOf]

theorem ofNat_mod_word (n : Nat) : BitVec.ofNat 64 (n % 18446744073709551616) = BitVec.ofNat 64 n :=
  BitVec.eq_of_toNat_eq (by simp)

/-- The low 16 bits of a word. -/
theorem ofNat_and_low (n : Nat) : BitVec.ofNat 64 n &&& 65535#64 = BitVec.ofNat 64 (n % 65536) := by
  apply BitVec.eq_of_toNat_eq
  have hlow : n % 2 ^ 64 &&& (2 ^ 16 - 1) = n % 2 ^ 64 % 2 ^ 16 := Nat.and_two_pow_sub_one_eq_mod _ 16
  have hleft : (BitVec.ofNat 64 n &&& 65535#64).toNat = n % 2 ^ 64 % 2 ^ 16 := hlow
  rw [hleft, BitVec.toNat_ofNat]
  omega

/-- The registers of the job's record. -/
theorem readSys_job (h : c.work = .strand pid slot k w t) (hx : c.strand? k = some x) :
    ∀ e ∈ Claims.jobValues, readSys e.1.toNat p c =
      .ok (BitVec.ofNat 64 (jobField p (Claims.jobReached p c k.job e.2.1) k.job e.2.1 % 2 ^ e.2.2),
        Claims.jobReached p c k.job e.2.1) := by
  have hk : x.key = k := strand_key hx
  simp [Claims.jobValues, readSys, sysLine, me_ok h hx, myStation_ok h, hk, useDeviceLine_jobReached, wordOf, ofNat_mod_word,
    ofNat_and_low]

/-- `k.lid` of a station in the job's map, and of one outside it. -/
theorem readSys_lid (h : c.work = .strand pid slot k w t) (hx : c.strand? k = some x) :
    (∀ l, logicalOf p c k.job pid = some l → readSys 8 p c = .ok (BitVec.ofNat 64 l, c)) ∧
      (logicalOf p c k.job pid = none → ∃ v, readSys 8 p c = .ok (v, { c with freeNo := c.freeNo + 1 })) := by
  have hread : readSys 8 p c = logicalNumber k.job pid p c := by
    simp [readSys, sysLine, me_ok h hx, myStation_ok h, strand_key hx]
  rw [hread]
  constructor
  · intro l hl
    simp [logicalNumber, hl, wordOf]
  · intro hl
    simp [logicalNumber, hl, freeValue]

/-- An index above 0x11 names no register (R73). -/
theorem readSys_none {n : Nat} (hn : 0x11 < n) (h : c.work = .strand pid slot k w t) (hx : c.strand? k = some x) :
    readSys n p c = .error (.trap causeIll 0 (w.zeroExtend 64) false) := by
  have hline : sysLine n = none := by
    simp [sysLine]
    omega
  obtain ⟨m, rfl⟩ := Nat.exists_eq_add_of_le' hn
  simp [readSys, hline, me_ok h hx, myStation_ok h, illWord_stops h]

/-- `rsr` with nothing outstanding, of a register that the mode may read, goes on to the register. -/
theorem rsrAct_allowed {d : Reg} {i : BitVec 8} (h : c.work = .strand pid slot k w t) (hx : c.strand? k = some x) (hn : x.ops = [])
    (hmode : x.sup = true ∨ userReads i.toNat = true) :
    rsrAct d i p c = (do let v ← readSys i.toNat; destReady d; retire d v : Act Unit) p c := by
  have hallow : (!x.sup && !userReads i.toNat) = false := by
    rcases hmode with h | h <;> simp [h]
  simp only [rsrAct, act_bind, me_ok h hx, myWord_ok h, hallow, Bool.false_eq_true, if_false, lookaheadCheck_ok h hx (.inl hn),
    needDrained_ok h hx hn]

/-- The value of the register goes to the destination. -/
theorem rsrAct_reads {d : Reg} {i : BitVec 8} {v : Word} {c1 : Core} (h : c.work = .strand pid slot k w t) (hx : c.strand? k = some x)
    (hn : x.ops = []) (hmode : x.sup = true ∨ userReads i.toNat = true) (hv : readSys i.toNat p c = .ok (v, c1))
    (hkept : c1.hands = c.hands) (hd : Room p c1 d) : ∃ c', Retires p k c1 d v c' ∧ rsrAct d i p c = .ok ((), c') := by
  obtain ⟨y, hy⟩ := strand_of_hands hkept hx
  obtain ⟨c', hret, hrun⟩ := retire_room v ((Core.work_of_hands hkept).trans h) hy hd
  unfold Room at hd
  exact ⟨c', hret, by simp only [rsrAct_allowed h hx hn hmode, act_bind, hv, hd, hrun]⟩

theorem rsrAct_stops {d : Reg} {i : BitVec 8} {e : Stop} (h : c.work = .strand pid slot k w t) (hx : c.strand? k = some x)
    (hn : x.ops = []) (hs : x.sup = true) (hv : readSys i.toNat p c = .error e) : rsrAct d i p c = .error e := by
  simp only [rsrAct_allowed h hx hn (.inl hs), act_bind, hv]

/-! ### Writing (R132 to R134) -/

theorem setPin_hands (p : Platform) (k : Key) (v : Bool) (c : Core) : (setPin p k v c).hands = c.hands := by
  unfold setPin
  split
  · rfl
  · split
    · split
      · exact supSend_hands ..
      · exact setStrand_hands ..
    · exact setStrand_hands ..

theorem setJobField_work (p : Platform) (c : Core) (job off : Nat) (v : Word) : (setJobField p c job off v).work = c.work :=
  deviceWrite_work ..

/-- The writes of the registers that take every value. -/
theorem writeSys_writes (v : Word) (h : c.work = .strand pid slot k w t) (hx : c.strand? k = some x) (hl : x.lines.contains 9 = true)
    (hb : x.badLines.contains 9 = false) : ∀ e ∈ Claims.sysWrites p pid k v c, writeSys e.1.toNat v p c = .ok ((), e.2) := by
  simp [Claims.sysWrites, writeSys, sysLine, me_ok h hx, myStation_ok h, needLine_ok h hx hl hb, strand_key hx, updMe_ok _ h,
    useDeviceLine_jobReached, causeMask]

theorem sysWrites_writable {p : Platform} {pid : Nat} {k : Key} {v : Word} {c : Core} :
    ∀ e ∈ Claims.sysWrites p pid k v c, supWrites e.1.toNat = true := by
  simp [Claims.sysWrites, supWrites]

/-- They leave the instruction in hand. -/
theorem sysWrites_work (p : Platform) (pid : Nat) (k : Key) (v : Word) (c : Core) :
    ∀ e ∈ Claims.sysWrites p pid k v c, e.2.work = c.work := by
  have hjob (off : Nat) : (Claims.jobReached p c k.job off).work = c.work := Core.work_of_hands (jobReached_hands p c k.job off)
  have hpin (b : Bool) (d : Core) : (setPin p k b d).work = d.work := Core.work_of_hands (setPin_hands p k b d)
  simp [Claims.sysWrites, setJobField_work, hjob, hpin]

/-- `k.tvec` takes the address of an instruction (R132). -/
theorem writeSys_tvec (v : Word) (h : c.work = .strand pid slot k w t) (hx : c.strand? k = some x) :
    writeSys 4 v p c = if v.toNat % 4 = 0 then .ok ((), setJobField p (Claims.jobReached p c k.job 8) k.job 8 v)
      else .error (.trap causeIll 0 (w.zeroExtend 64) false) := by
  by_cases ha : v.toNat % 4 = 0 <;>
    simp [writeSys, sysLine, me_ok h hx, myStation_ok h, ha, strand_key hx, useDeviceLine_jobReached, illWord_stops h]

/-- `k.rmode` takes the five rounding modes (R133). -/
theorem writeSys_rmode (v : Word) (h : c.work = .strand pid slot k w t) (hx : c.strand? k = some x) :
    writeSys 15 v p c = if 4 < v.toNat then .error (.trap causeIll 0 v false)
      else .ok ((), c.updStrand k fun y => { y with rmode := v.truncate 3 }) := by
  by_cases ha : 4 < v.toNat <;> simp [writeSys, sysLine, me_ok h hx, myStation_ok h, ha, updMe_ok _ h]

end

section
variable {p : Platform} {c c1 : Core} {pid slot : Nat} {k : Key} {w : IWord} {t : Option Tcw} {x : Strand} {a : Reg} {i : BitVec 8}
  {v : Word}

/-- `wsr` with nothing outstanding, of a register that the mode may write, goes on to the register. -/
theorem wsrAct_allowed (h : c.work = .strand pid slot k w t) (hx : c.strand? k = some x) (hn : x.ops = [])
    (hmode : x.sup = true ∨ userWrites i.toNat = true) (hi : supWrites i.toNat = true) (hr : Reads p c a v c1) :
    wsrAct a i p c = (do writeSys i.toNat v; retireNone : Act Unit) p c1 := by
  have hallow : (!x.sup && !userWrites i.toNat) = false := by
    rcases hmode with h | h <;> simp [h]
  unfold Reads at hr
  simp only [wsrAct, act_bind, me_ok h hx, myWord_ok h, hallow, hi, Bool.not_true, Bool.and_false, Bool.false_eq_true, if_false,
    lookaheadCheck_ok h hx (.inl hn), needDrained_ok h hx hn, hr]

/-- The register takes the value, and the instruction ends. -/
theorem wsrAct_writes {c2 : Core} (h : c.work = .strand pid slot k w t) (hx : c.strand? k = some x) (hn : x.ops = [])
    (hmode : x.sup = true ∨ userWrites i.toNat = true) (hi : supWrites i.toNat = true) (hr : Reads p c a v c1)
    (hw : writeSys i.toNat v p c1 = .ok ((), c2)) (hkept : c2.work = c1.work) : wsrAct a i p c = .ok ((), c2.passed k) := by
  have h2 : c2.work = .strand pid slot k w t := hkept.trans ((readReg_reads h hx hr).work.trans h)
  simp only [wsrAct_allowed h hx hn hmode hi hr, act_bind, hw, retireNone_ok h2]

theorem wsrAct_stops {e : Stop} (h : c.work = .strand pid slot k w t) (hx : c.strand? k = some x) (hn : x.ops = [])
    (hmode : x.sup = true ∨ userWrites i.toNat = true) (hi : supWrites i.toNat = true) (hr : Reads p c a v c1)
    (hw : writeSys i.toNat v p c1 = .error e) : wsrAct a i p c = .error e := by
  simp only [wsrAct_allowed h hx hn hmode hi hr, act_bind, hw]

/-- A read-only register, and an index that names none, is ILL in supervisor mode (R73). -/
theorem wsrAct_readOnly (h : c.work = .strand pid slot k w t) (hx : c.strand? k = some x) (hs : x.sup = true)
    (hi : supWrites i.toNat = false) : wsrAct a i p c = .error (.trap causeIll 0 (w.zeroExtend 64) false) := by
  simp only [wsrAct, act_bind, me_ok h hx, myWord_ok h, hs, hi, Bool.not_true, Bool.false_and, Bool.not_false, Bool.and_self,
    Bool.false_eq_true, if_false, if_true, illWord_stops h]

end

/-- A trap at the instruction in hand. -/
theorem runCore_traps {a : Act Unit} {s : State} {pid : Nat} {k : Key} {w : IWord} {t : Option Tcw} {x : Strand} {cause : Nat}
    {v : Word} (h : InHand s pid k w t x) (ha : a s.plat s.core = .error (.trap cause 0 v false)) :
    runCore a s = .next { s with core := raiseTrap s.plat k cause 0 v x.pc s.core } := by
  obtain ⟨⟨slot, hw⟩, hx⟩ := h
  rw [runCore_stop ha hw (fun _ => Stop.noConfusion)]
  simp [strandStop, hx]

/-- Settles O23: the read, or the write, of each register is one of the lemmas on it; what `rsr` and `wsr` do around it is the same
for all. -/
theorem systemRegisters : Obligations.SystemRegisters := by
  unfold Obligations.SystemRegisters
  refine ⟨?held, ?job, ?lid, ?write⟩
  case held =>
    rintro s pid k w t x d ⟨⟨slot, hw⟩, hx⟩ hn hl hb hd e he hmode
    have hmode' : x.sup = true ∨ userReads e.1.toNat = true := hmode.imp_right List.contains_iff_mem.2
    obtain ⟨c', hret, hrun⟩ := rsrAct_reads hw hx hn hmode' (readSys_held hw hx hl hb e he) rfl hd
    exact ⟨c', hret, runCore_ok hrun⟩
  case job =>
    rintro s pid k w t x d ⟨⟨slot, hw⟩, hx⟩ hn e he hmode c rfl hd
    have hmode' : x.sup = true ∨ userReads e.1.toNat = true := hmode.imp_right fun h => by
      rcases h with h | h
      · rw [h]; rfl
      · rw [h]; rfl
    obtain ⟨c', hret, hrun⟩ := rsrAct_reads hw hx hn hmode' (readSys_job hw hx e he) (jobReached_hands ..) hd
    exact ⟨c', hret, runCore_ok hrun⟩
  case lid =>
    rintro s pid k w t x d ⟨⟨slot, hw⟩, hx⟩ hn
    obtain ⟨hin, hout⟩ := readSys_lid (p := s.plat) hw hx
    refine ⟨fun hd l hl => ?_, fun hd hl => ?_, fun hs i hi => ?_⟩
    · obtain ⟨c', hret, hrun⟩ := rsrAct_reads (i := 0x08) hw hx hn (.inr rfl) (hin l hl) rfl hd
      exact ⟨c', hret, runCore_ok hrun⟩
    · obtain ⟨v, hv⟩ := hout hl
      obtain ⟨c', hret, hrun⟩ := rsrAct_reads (i := 0x08) hw hx hn (.inr rfl) hv rfl hd
      exact ⟨v, c', hret, runCore_ok hrun⟩
    · exact runCore_traps ⟨⟨slot, hw⟩, hx⟩ (rsrAct_stops hw hx hn hs (readSys_none hi hw hx))
  case write =>
    rintro s pid k w t x a v c1 hin hn hl hb
    obtain ⟨⟨slot, hw⟩, hx⟩ := hin
    refine ⟨fun hr => ?_, fun hs i hi => runCore_traps ⟨⟨slot, hw⟩, hx⟩ (wsrAct_readOnly hw hx hs ?_)⟩
    · have hread := readReg_reads hw hx hr
      obtain ⟨y, hy, hpop⟩ := hread.strand k x hx
      have h1 : c1.work = .strand pid slot k w t := hread.work.trans hw
      have hlines : y.lines = x.lines ∧ y.badLines = x.badLines := by rw [hpop]; exact ⟨rfl, rfl⟩
      have htvec := writeSys_tvec (p := s.plat) v h1 hy
      have hrmode := writeSys_rmode (p := s.plat) v h1 hy
      have htouch : (setJobField s.plat (Claims.jobReached s.plat c1 k.job 8) k.job 8 v).work = c1.work :=
        (setJobField_work ..).trans (Core.work_of_hands (jobReached_hands ..))
      refine ⟨fun e he hmode => ?_, fun hs ha => ?_, fun hs ha => ?_, fun ha => ?_, fun ha => ?_⟩
      · have hmode' : x.sup = true ∨ userWrites e.1.toNat = true := hmode.imp_right fun h => by rw [h]; rfl
        exact runCore_ok (wsrAct_writes hw hx hn hmode' (sysWrites_writable e he) hr
          (writeSys_writes v h1 hy (hlines.1 ▸ hl) (hlines.2 ▸ hb) e he) (sysWrites_work _ _ _ _ _ e he))
      · rw [if_pos ha] at htvec
        exact runCore_ok (wsrAct_writes (i := 0x04) hw hx hn (.inl hs) rfl hr htvec htouch)
      · rw [if_neg ha] at htvec
        exact runCore_traps ⟨⟨slot, hw⟩, hx⟩ (wsrAct_stops (i := 0x04) hw hx hn (.inl hs) rfl hr htvec)
      · rw [if_neg (Nat.not_lt.2 ha)] at hrmode
        exact runCore_ok (wsrAct_writes (i := 0x0F) hw hx hn (.inr rfl) rfl hr hrmode rfl)
      · rw [if_pos ha] at hrmode
        exact runCore_traps ⟨⟨slot, hw⟩, hx⟩ (wsrAct_stops (i := 0x0F) hw hx hn (.inr rfl) rfl hr hrmode)
    · simp [supWrites]
      omega

end Sys2Proof.Machine
end

section
/-! SUPPORT. An instruction that has read its sources and makes an access (R74): what is still in hand, the offset, and the access
performed; and that stores, full/empty accesses and atomics leave the work latch and the strands' names. -/

namespace Sys2Proof.Machine

open Sys2Proof

/-! ### The instruction in hand, once sources have been read -/

/-- The instruction of strand `k`, which was `x` when it issued, is in hand still: of its sources no more than words of an inbox have
been taken from the strand. -/
structure Issuing (c : Core) (pid : Nat) (k : Key) (w : IWord) (t : Option Tcw) (x : Strand) : Prop where
  work : ∃ slot, c.work = .strand pid slot k w t
  strand : ∃ y, c.strand? k = some y ∧ x.popped y

section
variable {p : Platform} {s : State} {c c' : Core} {pid : Nat} {k : Key} {w : IWord} {t : Option Tcw} {x y : Strand} {r : Reg} {v : Word}

theorem InHand.issuing (h : InHand s pid k w t x) : Issuing s.core pid k w t x := ⟨h.1, x, h.2, x.popped_refl⟩

theorem Issuing.read (h : Issuing c pid k w t x) (hr : Reads p c r v c') : Issuing c' pid k w t x := by
  obtain ⟨⟨slot, hw⟩, y, hy, hxy⟩ := h
  have hread := readReg_reads hw hy hr
  obtain ⟨z, hz, hyz⟩ := hread.strand k y hy
  refine ⟨⟨slot, hread.work.trans hw⟩, z, hz, ?_⟩
  unfold Strand.popped at *
  rw [hxy] at hyz
  exact hyz

theorem Strand.popped.party_eq (h : x.popped y) : y.party = x.party := by rw [h]; rfl
theorem Strand.popped.segs_eq (h : x.popped y) : y.segs = x.segs := by rw [h]
theorem Strand.popped.lines_eq (h : x.popped y) : y.lines = x.lines := by rw [h]
theorem Strand.popped.badLines_eq (h : x.popped y) : y.badLines = x.badLines := by rw [h]
theorem Strand.popped.key_eq (h : x.popped y) : y.key = x.key := by rw [h]
theorem Strand.popped.pinned_eq (h : x.popped y) : y.pinned = x.pinned := by rw [h]; rfl
theorem Strand.popped.homeParty_eq (h : x.popped y) : y.homeParty = x.homeParty := by rw [Strand.homeParty, h.party_eq, Strand.homeParty]

theorem Issuing.me (h : Issuing c pid k w t x) (p : Platform) : ∃ y, me p c = .ok (y, c) ∧ x.popped y := by
  obtain ⟨⟨slot, hw⟩, y, hy, hxy⟩ := h
  exact ⟨y, me_ok hw hy, hxy⟩

/-- The latch of a core with the same names. -/
theorem Issuing.work_of_hands (h : Issuing c pid k w t x) (hc : c'.hands = c.hands) : ∃ slot, c'.work = .strand pid slot k w t := by
  obtain ⟨slot, hw⟩ := h.work
  exact ⟨slot, (Core.work_of_hands hc).trans hw⟩

end

/-- A strand's party is that of its key. -/
theorem party_own {c : Core} {k : Key} {x : Strand} (hk : x.key = k) (h : Claims.NothingSent c k) : Claims.NothingOwn c x.party := by
  subst hk
  exact fun _ => h

/-! ### The offset of an access (R104) -/

section
variable {p : Platform} {c c' : Core} {base idx : Word} {add : Int} {off : Nat} {b : Reg}

theorem offsetOf_ok (h : Claims.OffsetIs base add off) : offsetOf base add p c = .ok (off, c) := by
  obtain ⟨heq, hlt⟩ := h
  have hin : ¬ ((base.toNat : Int) + add < 0 ∨ 2 ^ 64 - 1 < (base.toNat : Int) + add) := by omega
  have hval : ((base.toNat : Int) + add).toNat = off := by omega
  simp only [offsetOf, if_neg hin, hval, act_pure]

theorem indexOf_ok (size : Nat) (h : Reads p c b idx c') : indexOf b size p c = .ok (idx.toInt * size, c') := by
  unfold Reads at h
  simp only [indexOf, act_bind, h, act_pure]

end

/-! ### An access performed at issue -/

theorem accessMem_done {req : MemReq} {d : Reg} {ll : Bool} {a : Act Loaded} {p : Platform} {c c' : Core} {r : Loaded}
    (h : a p c = .ok (r, c')) : accessMem req d ll a p c = .ok (.done r, c') := by
  simp only [accessMem, act_bind, act_attempt, h, act_pure]

/-- What a performed load brings at its completion (R107). -/
theorem result_load {size : Nat} (signed : Bool) (r : Loaded) (hs : 0 < size) :
    (Access.done r).result (extendTo signed size) = r.brings size signed := by
  have hext (v : Nat) : extendTo signed size v = Claims.extended size signed v := extend_load 0 signed v hs
  obtain ⟨v, _ | q⟩ := r
  · simp only [Access.result, Loaded.brings, hext]
  · rfl

/-! ### Stores, full/empty accesses and atomics leave the latch and the names -/

section
variable {h : Work × List Key}

/-- A step that depends on a condition, and what follows it. -/
theorem KeepsHands.joined {α β : Type} {b : Bool} {a a' : Act α} {f : α → Act β} (ha : KeepsHands h a) (ha' : KeepsHands h a')
    (hf : ∀ v, KeepsHands h (f v)) : KeepsHands h (if b = true then a >>= f else a' >>= f) := by
  split
  · exact .bind ha hf
  · exact .bind ha' hf

/-- A step that is taken only under a condition, and what follows it. -/
theorem KeepsHands.guarded {β : Type} {b : Bool} {a : Act PUnit} {f : PUnit → Act β} (ha : KeepsHands h a)
    (hf : ∀ v, KeepsHands h (f v)) : KeepsHands h (if b = true then a >>= f else f ⟨⟩) := by
  split
  · exact .bind ha hf
  · exact hf _

theorem noteSeal_hands (p : Platform) (pa size : Nat) (c : Core) : (noteSeal p pa size c).hands = c.hands := by
  unfold noteSeal
  dsimp only
  split <;> split <;> rfl

theorem updateL1_hands (pt : Party) (va pa : Nat) (c : Core) : (updateL1 pt va pa c).hands = c.hands := by
  unfold updateL1; split <;> rfl

theorem recordRelease_hands (job va station ctx : Nat) (scope : Scope) (pin : Bool) (c : Core) :
    (recordRelease job va station ctx scope pin c).hands = c.hands :=
  Core.hands_eq (recordRelease_frame ..).2 (recordRelease_frame ..).1

theorem releaseLine_hands (pt : Party) (va : Nat) (scope : Scope) (line : LineKind) (c : Core) :
    (releaseLine pt va scope line c).hands = c.hands := by
  cases line with
  | aperture => rfl
  | plain => exact recordRelease_hands ..
  | pin => exact recordRelease_hands ..

theorem writeCell_hands (p : Platform) (pt : Party) (va pa size x : Nat) (c : Core) : (writeCell p pt va pa size x c).hands = c.hands :=
  beforeWrite_hands ..

theorem changeBit_hands (p : Platform) (pt : Party) (va pa : Nat) (b : Bool) (c : Core) : (changeBit p pt va pa b c).hands = c.hands :=
  beforeWrite_hands ..

theorem releaseWord_hands (p : Platform) (pt : Party) (va pa : Nat) (w : Word) (scope : Scope) (line : LineKind) (c : Core) :
    (releaseWord p pt va pa w scope line c).hands = c.hands := (releaseLine_hands ..).trans (writeCell_hands ..)

theorem wakeBit_hands (k : Key) (n : Fin 16) (b : Bool) (c : Core) : (wakeBit k n b c).hands = c.hands := by
  obtain ⟨l, e⟩ := wakeBit_is k n b c
  rw [e]; rfl

theorem needReturned_hands (pt : Party) : KeepsHands h (needReturned pt) := by
  refine .get fun c _ => ?_
  split
  · exact .stop _
  · exact .pure _

theorem markOutside_hands (pt : Party) : KeepsHands h (markOutside pt) := .onCore fun _ => rfl

theorem issuing_hands : KeepsHands h issuing := by
  refine .get fun c _ => ?_
  split
  · refine .get fun c _ => ?_
    split
    · split <;> exact .pure _
    · exact .pure _
  all_goals exact .pure _

theorem sendMulticast_hands (pt : Party) (va pa size : Nat) (v : Word) (full : Bool) :
    KeepsHands h (sendMulticast pt va pa size v full) :=
  .bind (markOutside_hands pt) fun _ => .bind issuing_hands fun _ => .onCore fun _ => rfl

theorem storeCell_hands (pt : Party) (pa va size : Nat) (v : Word) : KeepsHands h (storeCell pt pa va size v) := by
  refine .bind .read fun p => .get fun c _ => ?_
  split
  · exact .stop _
  · refine .onCore fun c => ?_
    exact (updateL1_hands ..).trans ((noteSeal_hands ..).trans (beforeWrite_hands ..))

theorem needRecord_hands (k : Key) (off va : Nat) : KeepsHands h (needRecord k off va) := by
  refine .bind .read fun p => .get fun c _ => ?_
  split
  · exact .stop _
  · exact .pure _

theorem storeRecord_hands (pt : Party) (k : Key) (off va size : Nat) (v : Word) : KeepsHands h (storeRecord pt k off va size v) :=
  .bind (needRecord_hands ..) fun _ => .bind .read fun p => .onCore (recordStore_hands p pt k off va size v)

theorem claimEntry_hands (pid i task : Nat) : KeepsHands h (claimEntry pid i task) := by
  refine .get fun c _ => ?_
  dsimp only
  split
  · exact .bind (writeBackEntry_hands ..) fun _ => .onCore fun _ => rfl
  · exact .pure _

theorem storeAt_hands (pt : Party) (va size : Nat) (v : Word) : KeepsHands h (storeAt pt va size v) := by
  refine .bind (needEarlier_hands ..) fun _ => .bind (windowEntry_hands ..) fun e => ?_
  split
  · refine .bind (claimEntry_hands ..) fun _ => .get fun c _ => ?_
    dsimp only
    split
    · exact .stop _
    · exact .onCore fun _ => rfl
  · refine .bind (recallFrom_hands ..) fun _ => .bind (locateFor_hands ..) fun t => ?_
    split
    · exact .bind (pinCheck_hands ..) fun _ => storeCell_hands ..
    · exact .onCore fun _ => rfl
    · refine .bind .read fun p => ?_
      split
      · exact sendMulticast_hands ..
      · exact markOutside_hands _
      · exact storeCell_hands ..
    · exact storeRecord_hands ..

theorem acquireCheck_hands (pt : Party) (scope : Scope) (va pa : Nat) (line : LineKind) :
    KeepsHands h (acquireCheck pt scope va pa line) := by
  refine .get fun c _ => ?_
  split
  · split
    · exact .pure _
    · exact .stop _
  · exact .pure _

theorem acquireFill_hands (pt : Party) (scope : Scope) (va : Nat) (n : Note) : KeepsHands h (acquireFill pt scope va n) := by
  unfold acquireFill
  split
  · split
    · exact .pure _
    · exact .stop _
  all_goals exact .pure _

theorem freeValue_hands : KeepsHands h freeValue := .get fun _ hc => .bind (.set hc) fun _ => .pure _

theorem feRecord_hands (pt : Party) (op : FeOp) (k : Key) (off va : Nat) (v : Word) (scope : Scope) :
    KeepsHands h (feRecord pt op k off va v scope) := by
  unfold feRecord
  split
  case isFalse => exact .stop _
  refine .get fun c _ => ?_
  split
  · exact .pure _
  split
  · exact .stop _
  refine .bind .read fun p => .get fun c _ => ?_
  dsimp only
  split
  · exact .stop _
  split
  · exact .pure _
  refine .guarded (acquireFill_hands ..) fun _ => .bind (.onCore fun c => setStrand_hands c _) fun _ => ?_
  split
  · exact .guarded (.onCore (wakeBit_hands k _ _)) fun _ => .pure _
  · exact .pure _

theorem feCell_hands (pt : Party) (op : FeOp) (pa va : Nat) (line : LineKind) (v : Word) (scope : Scope) :
    KeepsHands h (feCell pt op pa va line v scope) := by
  refine .bind .read fun p => .get fun c _ => ?_
  have hchange (b : Bool) : KeepsHands h (onCore (changeBit p pt va pa b)) := .onCore (changeBit_hands p pt va pa b)
  dsimp only
  split
  · split
    · exact .stop _
    · exact .pure _
  split
  · split <;> exact .stop _
  split
  · exact .stop _
  split
  · split
    · exact .pure _
    · refine .bind (acquireCheck_hands ..) fun _ => ?_
      split
      · exact .bind (hchange _) fun _ => .pure _
      · exact .pure _
  · have hbit (bit : Option Bool) (full : Bool) (r : Loaded) : KeepsHands h (do
        match bit with
        | some b => if b != full then onCore (changeBit p pt va pa b)
        | none => pure ()
        pure r : Act Loaded) := by
      cases bit with
      | none => exact .pure _
      | some b => exact .guarded (hchange b) fun _ => .pure _
    split
    · exact .bind (.onCore (releaseWord_hands p pt va pa _ scope line)) fun _ => hbit ..
    · exact hbit ..

theorem remoteFe_hands (pt : Party) (op : FeOp) (device va : Nat) : KeepsHands h (remoteFe pt op device va) := by
  refine .bind .read fun p => .get fun c _ => ?_
  dsimp only
  split
  · exact .pure _
  split
  · exact .stop _
  refine .bind (.onCore fun _ => rfl) fun _ => ?_
  split
  case h_7 | h_8 | h_9 =>
    refine .guarded (markOutside_hands pt) fun _ => .bind fabricValue_hands fun w => ?_
    cases w <;> exact .pure _
  all_goals exact .guarded (markOutside_hands pt) fun _ => .pure _

theorem feMgmt_hands (op : FeOp) (die off : Nat) (v : Word) : KeepsHands h (feMgmt op die off v) := by
  unfold feMgmt
  split
  case h_3 | h_4 => exact .bind (.onCore fun _ => rfl) fun _ => .pure _
  case h_5 => exact .bind freeValue_hands fun _ => .pure _
  case h_1 | h_2 => exact .bind .read fun p => .get fun c _ => .pure _
  all_goals exact .pure _

theorem feAt_hands (pt : Party) (op : FeOp) (va : Nat) (v : Word) (scope : Scope) : KeepsHands h (feAt pt op va v scope) := by
  unfold feAt
  refine .joined (needReturned_hands pt) (needEarlier_hands ..) fun _ => .bind (recallFrom_hands ..) fun _ =>
    .bind (locateFor_hands ..) fun t => ?_
  cases t with
  | cell pa pin => exact .bind (pinCheck_hands ..) fun _ => feCell_hands ..
  | mgmt die off => exact feMgmt_hands ..
  | record k off => exact feRecord_hands ..
  | aperture word pa =>
    refine .bind .read fun p => ?_
    split
    · exact remoteFe_hands ..
    · split
      · exact .bind (sendMulticast_hands ..) fun _ => .pure _
      · exact feCell_hands ..
    · exact feCell_hands ..

theorem amoCell_hands (pt : Party) (op : AmoOp) (pa va size b e : Nat) (ord : MemOrd) (scp : AScope) (line : LineKind) :
    KeepsHands h (amoCell pt op pa va size b e ord scp line) := by
  refine .bind .read fun p => .get fun c _ => ?_
  dsimp only
  split
  · exact .pure _
  refine .guarded (acquireCheck_hands ..) fun _ => ?_
  have hrelease (r : Loaded) : KeepsHands h (do
      if ordReleases ord then onCore (releaseLine pt va (aScope scp) line)
      pure r : Act Loaded) := .guarded (.onCore (releaseLine_hands pt va _ line)) fun _ => .pure _
  split
  · exact .bind (.onCore (writeCell_hands p pt va pa size _)) fun _ => hrelease _
  · exact hrelease _

theorem amoRecord_hands (pt : Party) (op : AmoOp) (k : Key) (off va size b e : Nat) (ord : MemOrd) (scp : AScope) :
    KeepsHands h (amoRecord pt op k off va size b e ord scp) := by
  unfold amoRecord
  split
  case isFalse => exact .bind (.bind .read fun p => .onCore (supSend_hands p _)) fun _ => .pure _
  refine .get fun c _ => ?_
  split
  · exact .pure _
  refine .bind .read fun p => .get fun c _ => ?_
  dsimp only
  split
  · exact .pure _
  refine .guarded (acquireFill_hands ..) fun _ => ?_
  have hupd (f : Strand → Strand) (hf : ∀ y, (f y).key = y.key) : KeepsHands h (onCore fun c => c.updStrand k f) :=
    .onCore fun c => hands_updStrand c k hf
  split
  · exact .bind (hupd _ fun _ => rfl) fun _ => .guarded (hupd _ fun _ => rfl) fun _ => .pure _
  · exact .guarded (hupd _ fun _ => rfl) fun _ => .pure _

theorem amoAt_hands (pt : Party) (op : AmoOp) (va size b e : Nat) (ord : MemOrd) (scp : AScope) :
    KeepsHands h (amoAt pt op va size b e ord scp) := by
  unfold amoAt
  refine .joined (needReturned_hands pt) (needEarlier_hands ..) fun _ => .bind (recallFrom_hands ..) fun _ =>
    .bind (locateFor_hands ..) fun t => ?_
  cases t with
  | cell pa pin => exact .bind (pinCheck_hands ..) fun _ => amoCell_hands ..
  | mgmt die off =>
    refine .bind .read fun p => .get fun c _ => ?_
    dsimp only
    split
    · exact .bind (.onCore fun _ => rfl) fun _ => .pure _
    · exact .pure _
  | record k off => exact amoRecord_hands ..
  | aperture word pa =>
    refine .bind .read fun p => ?_
    split
    · exact .bind (markOutside_hands pt) fun _ => apertureLoad_hands ..
    · exact amoCell_hands ..

end

end Sys2Proof.Machine
end

section
/-! SUPPORT. Sized loads and stores (R104 to R107): the instruction with its access performed, and a load of an ordinary cell from
memory and from the station's L1. -/

namespace Sys2Proof.Machine

open Sys2Proof

/-! ### The forms of loads and stores -/

theorem exec_load : ∀ e ∈ Claims.loadTable, ∀ v a n o la s,
    exec (e.1 v a n o la) s = runCore (loadAct v a n (dispM o e.2.1) e.2.1 e.2.2 la) s := by
  simp only [Claims.loadTable, List.forall_mem_cons]
  refine ⟨?_, ?_, ?_, ?_, ?_, ?_, ?_, fun _ h => nomatch h⟩ <;> intros <;> rfl

theorem exec_loadIndex : ∀ e ∈ Claims.loadIndexTable, ∀ v a b n la s,
    exec (e.1 v a b n la) s = runCore (loadAct v a n (indexOf b e.2.1) e.2.1 e.2.2 la) s := by
  simp only [Claims.loadIndexTable, List.forall_mem_cons]
  refine ⟨?_, ?_, ?_, ?_, ?_, ?_, ?_, fun _ h => nomatch h⟩ <;> intros <;> rfl

theorem exec_store : ∀ e ∈ Claims.storeTable, ∀ v a n o s,
    exec (e.1 v a n o) s = runCore (storeAct v a n (dispM o e.2) e.2) s := by
  simp only [Claims.storeTable, List.forall_mem_cons]
  refine ⟨?_, ?_, ?_, ?_, fun _ h => nomatch h⟩ <;> intros <;> rfl

theorem exec_storeIndex : ∀ e ∈ Claims.storeIndexTable, ∀ v a b n s,
    exec (e.1 v a b n) s = runCore (storeAct v a n (indexOf b e.2) e.2) s := by
  simp only [Claims.storeIndexTable, List.forall_mem_cons]
  refine ⟨?_, ?_, ?_, ?_, fun _ h => nomatch h⟩ <;> intros <;> rfl

theorem loadTable_size : (∀ e ∈ Claims.loadTable, 0 < e.2.1) ∧ ∀ e ∈ Claims.loadIndexTable, 0 < e.2.1 := by
  simp [Claims.loadTable, Claims.loadIndexTable]

/-! ### The instruction, its access performed -/

section
variable {s : State} {pid : Nat} {k : Key} {w : IWord} {t : Option Tcw} {x : Strand} {v a : Reg} {n : Seg} {add : Act Int} {i : Int}
  {base value : Word} {c0 c1 c2 : Core} {off va size : Nat}

/-- A load that issues and is performed brings its value, or its poison, to its destination (R107). -/
theorem loadAct_performs {signed : Bool} {la : BitVec 4} {r : Loaded} (h : InHand s pid k w t x) (hm : MayIssue x [v] true)
    (hbase : Reads s.plat s.core a base c0) (hadd : add s.plat c0 = .ok (i, c1)) (h1 : Issuing c1 pid k w t x)
    (hoff : Claims.OffsetIs base i off) (hreach : reach n off size 1 s.plat c1 = .ok (va, c1)) (hs : 0 < size)
    (hload : loadAt x.party va size s.plat c1 = .ok (r, c2)) :
    runCore (loadAct v a n add size signed la) s =
      .next { s with core := c2.passedLong k v la (r.brings size signed) } := by
  obtain ⟨y, hme, hxy⟩ := h1.me s.plat
  obtain ⟨slot2, hw2⟩ := h1.work_of_hands ((loadAt_hands ..).kept _ _ _ _ rfl hload)
  obtain ⟨⟨slot, hw⟩, hx⟩ := h
  unfold Reads at hbase
  have hacc := accessMem_done (req := .load va size signed) (d := v) (ll := true) hload
  refine runCore_ok ?_
  simp only [loadAct, act_bind, lookaheadCheck_ok hw hx hm, hbase, hadd, offsetOf_ok hoff, hreach, hme, hxy.party_eq, hacc,
    result_load signed r hs]
  exact retireLong_ok hw2

/-- The low bytes of a word, as a store takes them (R107). -/
theorem zextTo_low (v : Word) (size : Nat) :
    zextTo v.toNat (8 * size) = (v.truncate (8 * size)).zeroExtend 64 := by
  apply BitVec.eq_of_toNat_eq
  simp [zextTo, wordOf]

/-- A store that issues and is performed ends and writes no register (R107). -/
theorem storeAct_performs (h : InHand s pid k w t x) (hm : MayIssue x [] false) (hvalue : Reads s.plat s.core v value c0)
    {c : Core} (hbase : Reads s.plat c0 a base c) (hadd : add s.plat c = .ok (i, c1)) (h1 : Issuing c1 pid k w t x)
    (hoff : Claims.OffsetIs base i off) (hreach : reach n off size 2 s.plat c1 = .ok (va, c1))
    (hstore : storeAt x.party va size ((value.truncate (8 * size)).zeroExtend 64) s.plat c1 = .ok ((), c2)) :
    runCore (storeAct v a n add size) s = .next { s with core := c2.passed k } := by
  obtain ⟨y, hme, hxy⟩ := h1.me s.plat
  obtain ⟨slot2, hw2⟩ := h1.work_of_hands ((storeAt_hands ..).kept _ _ _ _ rfl hstore)
  obtain ⟨⟨slot, hw⟩, hx⟩ := h
  unfold Reads at hvalue hbase
  refine runCore_ok ?_
  simp only [storeAct, act_bind, lookaheadCheck_ok hw hx hm, hvalue, hbase, hadd, offsetOf_ok hoff, hreach, hme, hxy.party_eq,
    zextTo_low value size]
  rw [accessMem_done (r := ⟨0, none⟩) (c' := c2) (by simp only [act_bind, hstore, act_pure])]
  exact retireNone_ok hw2

end

/-! ### A load of an ordinary cell (R107, R379) -/

/-- An address that reaches a cell of memory lies in no live record of its job. -/
theorem recordAt_of_locate {job va kind size pa : Nat} {pin : Bool} {p : Platform} {c c' : Core}
    (h : locate job va kind size p c = .ok (.cell pa pin, c')) : recordAt c job va = none := by
  cases hr : recordAt c job va with
  | none => rfl
  | some x =>
    simp only [locate, locateFor, act_bind, act_get, hr] at h
    split at h
    · simp only [act_bind] at h
      split at h <;> simp at h
    · simp at h

section
variable {p : Platform} {c c' : Core} {pt : Party} {va size pa : Nat}

/-- A line that no other station has pinned. -/
theorem pinCheck_free {pin : Bool} (h : ∀ g ∈ c.pins, g.job = pt.job → g.vline = va / 64 → g.station = pt.station) :
    pinCheck pt va pin p c = .ok ((), c) := by
  have hfree : (c.pins.any fun g => g.job == pt.job && g.vline == lineOf va && g.station != pt.station) = false := by
    refine List.any_eq_false.2 fun g hg => ?_
    have := h g hg
    simp_all [lineOf]
  simp only [pinCheck, act_bind, act_get, hfree, Bool.and_false, Bool.false_eq_true, if_false, act_pure]

/-- Where the L1 has no copy, a load brings what memory holds, and the line is in the L1 if it is good. -/
theorem loadAt_cell (ho : Claims.NothingOwn c pt) (h : PlainCell p c pt.job va 1 size pa c') (hg : layerGone p pa = false)
    (hl : l1Find (c.station pt.station) pt.job va = none) :
    loadAt pt va size p c = .ok (⟨c'.mem.read pa size, if c'.mem.isPoison pa then some (va / 8 * 8) else none⟩,
      touchL1 p pt va pa c') := by
  obtain ⟨hs, hloc⟩ := h
  have hhit : l1Hit c pt va = none := by simp [l1Hit, hl]
  have hmem : (touchL1 p pt va pa c').mem = c'.mem := by unfold touchL1; split <;> rfl
  simp [loadAt, needEarlier_none va size ho, windowEntry_none 1 size hs, hhit, recallBlock_none hs, hloc, pinCheck, hmem, hg]

/-- Where the L1 has a copy, a load of a strand brings what the L1 holds, unless another station has pinned the line (R166). -/
theorem loadAt_copy {x : L1Line} (ho : Claims.NothingOwn c pt) (h : PlainCell p c pt.job va 1 size pa c') (hst : pt.strand = true)
    (hl : l1Find (c.station pt.station) pt.job va = some x)
    (hpin : ∀ g ∈ c.pins, g.job = pt.job → g.vline = va / 64 → g.station = pt.station) :
    loadAt pt va size p c = .ok (⟨x.data.toNat / 2 ^ (8 * (va % 32)) % 2 ^ (8 * size), none⟩,
      c.updStation pt.station fun z => { z with l1 := l1Insert x z.l1 }) := by
  obtain ⟨hs, hloc⟩ := h
  have hhit : l1Hit c pt va = some x := by simp [l1Hit, hst, recordAt_of_locate hloc, hl]
  have hfree : pinCheck pt va true p c = .ok ((), c) := pinCheck_free hpin
  simp [loadAt, needEarlier_none va size ho, windowEntry_none 1 size hs, hhit, hfree, bitsOf, Nat.shiftRight_eq_div_pow]

end

/-- Settles O8: the load's access is performed, and on an ordinary cell it brings what memory, or the L1, holds. -/
theorem loadsComplete : Obligations.LoadsComplete := by
  unfold Obligations.LoadsComplete
  rintro s pid k w t x v n la i size signed c1 c2 va r h hm ⟨a, base, off, hform, hreach⟩
  have hrun (r : Loaded) (c : Core) (hload : loadAt x.party va size s.plat c1 = .ok (r, c)) :
      exec i s = .next { s with core := c.passedLong k v la (r.brings size signed) } := by
    obtain ⟨e, he, o, rfl, hsize, hbase, hoff⟩ | ⟨e, he, b, idx, c0, rfl, hsize, hbase, hidx, hoff⟩ := hform
    · obtain ⟨rfl, rfl⟩ := Prod.mk.inj hsize
      rw [exec_load e he]
      exact loadAct_performs h hm hbase rfl (h.issuing.read hbase) hoff hreach (loadTable_size.1 e he) hload
    · obtain ⟨rfl, rfl⟩ := Prod.mk.inj hsize
      rw [exec_loadIndex e he]
      exact loadAct_performs h hm hbase (indexOf_ok _ hidx) ((h.issuing.read hbase).read hidx) hoff hreach (loadTable_size.2 e he) hload
  refine ⟨fun hload => (hrun r c2 hload).trans ?_, fun pa hsent hcell hg => ⟨fun hl => ?_, fun y hl hpin => ?_⟩⟩
  · obtain ⟨val, _ | q⟩ := r <;> rfl
  · rw [hrun _ _ (loadAt_cell (party_own (strand_key h.2) hsent) hcell hg hl)]
    cases c2.mem.isPoison pa <;> rfl
  · exact hrun _ _ (loadAt_copy (party_own (strand_key h.2) hsent) hcell rfl hl hpin)

/-- Settles O9: the store's access is performed, and the instruction ends. -/
theorem storesComplete : Obligations.StoresComplete := by
  unfold Obligations.StoresComplete
  rintro s pid k w t x v n i size value c1 c2 va h hm ⟨a, base, off, c0, hvalue, hform, hreach⟩ hstore
  have hv := h.issuing.read hvalue
  obtain ⟨e, he, o, rfl, rfl, hbase, hoff⟩ | ⟨e, he, b, idx, c', rfl, rfl, hbase, hidx, hoff⟩ := hform
  · rw [exec_store e he]
    exact storeAct_performs h hm hvalue hbase rfl (hv.read hbase) hoff hreach hstore
  · rw [exec_storeIndex e he]
    exact storeAct_performs h hm hvalue hbase (indexOf_ok _ hidx) ((hv.read hbase).read hidx) hoff hreach hstore

end Sys2Proof.Machine
end

section
/-! SUPPORT. The full/empty minors (R113) and the poison that an access delivers at once (R117, R370). -/

namespace Sys2Proof.Machine

open Sys2Proof

/-- The core once an access that is not long-latency has delivered the poison that it met, if it met one (R117). -/
def Core.poisoned (c : Core) (k : Key) (q : Option Nat) : Core :=
  match q with
  | some a => c.updStrand k fun y => { y with poison := y.poison ++ [⟨y.pc, wordOf (a / 8 * 8), 0, y.issues, false⟩] }
  | none => c

@[simp] theorem Core.poisoned_none (c : Core) (k : Key) : c.poisoned k none = c := rfl

@[simp] theorem Core.poisoned_work (c : Core) (k : Key) (q : Option Nat) : (c.poisoned k q).work = c.work := by cases q <;> rfl

theorem deliverPoison_ok {p : Platform} {c : Core} {pid slot : Nat} {k : Key} {w : IWord} {t : Option Tcw}
    (h : c.work = .strand pid slot k w t) (q : Option Nat) : deliverPoison q p c = .ok ((), c.poisoned k q) := by
  cases q with
  | none => rfl
  | some a => exact updMe_ok _ h

/-- A full/empty minor that issues and is performed ends; a poison that it met is delivered with it. -/
theorem feMinorAct_performs {s : State} {pid : Nat} {k : Key} {w : IWord} {t : Option Tcw} {x : Strand} {op : FeOp} {a b : Reg} {n : Seg}
    {base idx : Word} {c0 c1 c2 : Core} {off va : Nat} {r : Loaded} (h : InHand s pid k w t x) (hm : MayIssue x [] false)
    (hbase : Reads s.plat s.core a base c0) (hidx : Reads s.plat c0 b idx c1) (hoff : Claims.OffsetIs base (idx.toInt * 8) off)
    (hreach : reach n off 8 op.kind s.plat c1 = .ok (va, c1)) (hfe : feAt x.party op va 0 .station s.plat c1 = .ok (r, c2)) :
    runCore (feMinorAct op a b n) s = .next { s with core := (c2.poisoned k r.poison).passed k } := by
  have h1 := (h.issuing.read hbase).read hidx
  obtain ⟨y, hme, hxy⟩ := h1.me s.plat
  obtain ⟨slot2, hw2⟩ := h1.work_of_hands ((feAt_hands ..).kept _ _ _ _ rfl hfe)
  obtain ⟨⟨slot, hw⟩, hx⟩ := h
  have hadd : indexOf b 8 s.plat c0 = .ok (idx.toInt * 8, c1) := indexOf_ok 8 hidx
  have hacc := accessMem_done (req := .fe op va 0 .station) (d := .zr) (ll := false) hfe
  unfold Reads at hbase
  refine runCore_ok ?_
  simp only [feMinorAct, act_bind, lookaheadCheck_ok hw hx hm, hbase, hadd, offsetOf_ok hoff, hreach, hme, hxy.party_eq, hacc,
    deliverPoison_ok hw2]
  exact retireNone_ok ((Core.poisoned_work ..).trans hw2)

/-! ### A wait that meets a poison -/

/-- `fewait` in hand at address 0, whose line L2 holds, with layer 0 of die 0 mapped out. -/
def goneWait : State :=
  let s := State.reset
  { s with
    plat := { s.plat with mgmt := s.plat.mgmt.set 0 { s.plat.mgmt[0] with mappedA := 1 } }
    core := { s.core with
      strands := [placedStrand], work := .strand 0 0 placedKey 0 none
      l2 := [⟨0, 0, 0, false, false, false, none, 0, 0, 0, none, 0⟩] } }

theorem goneWait_inHand : InHand goneWait 0 placedKey 0 none placedStrand := ⟨⟨0, rfl⟩, by decide⟩

theorem goneWait_reach : reach 0 0 8 FeOp.wait.kind goneWait.plat goneWait.core = .ok (0, goneWait.core) := by rfl

theorem goneWait_feAt : feAt placedStrand.party .wait 0 0 .station goneWait.plat goneWait.core =
    .ok (⟨0, some 0⟩, useLine 0 0 goneWait.core) := by rfl

/-- The poisons that a strand of a core has been delivered. -/
def Core.poisonOf (c : Core) (k : Key) : List Poison := ((c.strand? k).map Strand.poison).getD []

/-- Refutes O12: `fewait` of a word whose layer of memory is gone is performed and meets a poison (R370), which it delivers as it
ends (R117); the statement has the instruction end with nothing delivered. -/
theorem not_fullEmptyCompletes : ¬ Obligations.FullEmptyCompletes := by
  unfold Obligations.FullEmptyCompletes
  intro h
  have hzr : Reads goneWait.plat goneWait.core .zr 0 goneWait.core := rfl
  have hoff : Claims.OffsetIs 0 ((0 : Word).toInt * 8) 0 := by unfold Claims.OffsetIs; decide
  have hmay : MayIssue placedStrand [] false := .inl rfl
  obtain ⟨-, -, hminor, -, -⟩ :=
    h goneWait 0 placedKey 0 none placedStrand 0 ⟨0, some 0⟩ goneWait.core (useLine 0 0 goneWait.core) 0 0 0 goneWait_inHand
  obtain ⟨-, hwait⟩ := hminor .zr .zr 0 goneWait.core hzr hzr hoff
  have hclaim := hwait (.fewait, .wait) (by simp) hmay goneWait_reach goneWait_feAt
  have hmodel : exec (.fewait .zr .zr 0) goneWait = .next { goneWait with core := _ } :=
    feMinorAct_performs goneWait_inHand hmay hzr hzr hoff goneWait_reach goneWait_feAt
  have hcore := congrArg State.core (Host.Outcome.next.inj (hmodel.symm.trans hclaim))
  exact absurd (congrArg (fun c : Core => (c.poisonOf placedKey).length) hcore) (by decide)

end Sys2Proof.Machine
end

section
/-! SUPPORT. Full/empty operations on an ordinary word (R111 to R113): a write by the only writer of its lines leaves the log as it is,
and what an operation that does not wait then leaves of the word, its bit and its waiters. -/

namespace Sys2Proof.Machine

open Sys2Proof

/-! ### Writes of the only writer (R365) -/

/-- L2 holds the line of an address, and no line of it has another writer than the task of a party. -/
structure Core.OnlyWriter (c : Core) (pt : Party) (va : Nat) : Prop where
  tasks : ∀ l ∈ c.l2, l.task = none ∨ l.task = some pt.task
  line : findLine c pt.job va ≠ none

/-- What the words, the strands and the wakes of a core are, which the preparations of a write leave. -/
def Core.words (c : Core) : Mem × List Strand × List Wake := (c.mem, c.strands, c.wakes)

theorem Core.words_eq {c d : Core} (h : d.words = c.words) : d.mem = c.mem ∧ d.strands = c.strands ∧ d.wakes = c.wakes := by
  simpa [Core.words] using h

theorem dropCopies_words (but : Option Nat) (gone : L1Line → Bool) (c : Core) : (dropCopies but gone c).words = c.words := by
  unfold dropCopies; split <;> rfl

section
variable {p : Platform} {pt : Party} {va pa : Nat} {c : Core}

/-- A change of lines that keeps their names, and gives them no writer but the party's task. -/
theorem Core.OnlyWriter.map_lines (h : c.OnlyWriter pt va) {f : L2Line → L2Line} (hname : ∀ l, (f l).job = l.job ∧ (f l).vline = l.vline)
    (htask : ∀ l, (f l).task = l.task ∨ (f l).task = some pt.task) : ({ c with l2 := c.l2.map f } : Core).OnlyWriter pt va := by
  obtain ⟨htasks, hline⟩ := h
  refine ⟨fun l hl => ?_, fun hnone => hline ?_⟩
  · obtain ⟨x, hx, rfl⟩ := List.mem_map.1 hl
    rcases htask x with e | e
    · rw [e]; exact htasks x hx
    · exact .inr e
  · refine List.find?_eq_none.2 fun l hl => ?_
    have := List.find?_eq_none.1 hnone (f l) (List.mem_map_of_mem hl)
    rwa [(hname l).1, (hname l).2] at this

/-- A write of the only writer gives its log nothing. -/
theorem tagLine_onlyWriter (h : c.OnlyWriter pt va) :
    (tagLine p pt va pa c).words = c.words ∧ (tagLine p pt va pa c).OnlyWriter pt va := by
  obtain ⟨htasks, hline⟩ := h
  unfold tagLine
  extract_lets first c0 c1
  have h0 : c0.OnlyWriter pt va := ⟨htasks, hline⟩
  have hlogged : c1 = c0 := by
    simp only [c1]
    split
    · rename_i l hf
      have hfirst := List.find?_some hf
      simp only [first, Bool.and_eq_true, bne_iff_ne] at hfirst
      obtain ⟨-, hne⟩ := hfirst
      exact logLine_untasked _ ((htasks l (List.mem_of_find?_eq_some hf)).resolve_right hne)
    · simp [Option.isNone_iff_eq_none, h0.line]
  clear_value c1
  subst hlogged
  refine ⟨rfl, h0.map_lines (fun l => ?_) (fun l => ?_)⟩
  · split
    · exact ⟨rfl, rfl⟩
    · split <;> exact ⟨rfl, rfl⟩
  · split
    · exact .inr rfl
    · split <;> exact .inl rfl

theorem beforeWrite_onlyWriter (own : Option Nat) (h : c.OnlyWriter pt va) :
    (beforeWrite p pt va pa own c).words = c.words ∧ (beforeWrite p pt va pa own c).OnlyWriter pt va := by
  have hl2 : (dropL1 pt.job va own c).l2 = c.l2 := dropCopies_l2 ..
  have hdrop : (dropL1 pt.job va own c).OnlyWriter pt va := by
    refine ⟨?_, ?_⟩
    · rw [hl2]; exact h.tasks
    · unfold findLine; rw [hl2]; exact h.line
  obtain ⟨hwords, hkept⟩ := tagLine_onlyWriter (p := p) (pa := pa) hdrop
  exact ⟨hwords.trans (dropCopies_words ..), hkept⟩

/-- Reaching a line's home in a good layer leaves its line in L2. -/
theorem onlyWriter_of_locate {kind size : Nat} {c' : Core} (hl : locate pt.job va kind size p c = .ok (.cell pa false, c'))
    (hg : layerGone p pa = false) (ht : ∀ l ∈ c'.l2, l.task = none ∨ l.task = some pt.task) : c'.OnlyWriter pt va :=
  ⟨ht, findLine_of_reachLine (reachLine_of_locate hl) hg⟩

end

/-! ### What an operation that does not wait leaves -/

theorem releaseLine_plain (pt : Party) (va : Nat) (scope : Scope) (c : Core) :
    (releaseLine pt va scope .plain c).words = c.words ∧ (releaseLine pt va scope .plain c).l2 = c.l2 := by
  unfold releaseLine recordRelease
  exact ⟨rfl, rfl⟩

/-- An operation that does not wait, performed: the value written, then the bit changed where it changes (R111). -/
def feDone (p : Platform) (pt : Party) (va pa : Nat) (scope : Scope) (full : Bool) (value : Option Word) (bit : Option Bool) (c : Core) : Core :=
  let c := match value with | some v => releaseWord p pt va pa v scope .plain c | none => c
  match bit with
  | some b => if b != full then changeBit p pt va pa b c else c
  | none => c

section
variable {p : Platform} {pt : Party} {va pa : Nat} {c : Core} {scope : Scope} {full : Bool} {v : Word}

theorem releaseWord_words (v : Word) (scope : Scope) (h : c.OnlyWriter pt va) :
    (releaseWord p pt va pa v scope .plain c).words = (c.mem.write64 pa v, c.strands, c.wakes) ∧
      (releaseWord p pt va pa v scope .plain c).OnlyWriter pt va := by
  obtain ⟨hwords, htasks, hline⟩ := beforeWrite_onlyWriter (p := p) (pa := pa) none h
  obtain ⟨hmem, hstrands, hwakes⟩ := Core.words_eq hwords
  obtain ⟨hrel, hl2⟩ := releaseLine_plain pt va scope (writeCell p pt va pa 8 v.toNat c)
  have hcell : (writeCell p pt va pa 8 v.toNat c).words = (c.mem.write64 pa v, c.strands, c.wakes) := by
    simp only [Core.words, writeCell, hmem, hstrands, hwakes, Mem.write64]
  refine ⟨hrel.trans hcell, ?_, ?_⟩
  · rw [releaseWord, hl2]; exact htasks
  · unfold findLine; rw [releaseWord, hl2]; exact hline

theorem changeBit_words (b : Bool) (h : c.OnlyWriter pt va) : (changeBit p pt va pa b c).words =
    (c.mem.setFull pa b, c.strands, c.wakes ++ (waitersOf c (.feWord pa b)).map fun x => ⟨x.key, some (.feWord pa b), false⟩) := by
  obtain ⟨hmem, hstrands, hwakes⟩ := Core.words_eq (beforeWrite_onlyWriter (p := p) (pa := pa) none h).1
  simp only [Core.words, changeBit, wakeAll, waitersOf, hmem, hstrands, hwakes]

/-- What changes nothing leaves the word, its bit and its waiters. -/
theorem feLeaves_refl (hfull : c.mem.isFull pa = full) : Claims.FeLeaves c c pa full (c.mem.read64 pa) full :=
  ⟨rfl, hfull, fun _ _ => rfl, fun _ _ => rfl, by simp⟩

/-- A word stored leaves its bit, and every other word. -/
theorem feLeaves_word {d : Core} (hwf : c.mem.wf = true) (hfull : c.mem.isFull pa = full)
    (hd : d.words = (c.mem.write64 pa v, c.strands, c.wakes)) : Claims.FeLeaves c d pa full v full := by
  obtain ⟨hmem, hrest⟩ := Prod.mk.inj hd
  obtain ⟨-, hwakes⟩ := Prod.mk.inj hrest
  have hbits : d.mem.full = c.mem.full := by rw [hmem]; exact Mem.full_write ..
  have hisFull (a : Nat) : d.mem.isFull a = c.mem.isFull a := congrArg (risingHas · (a / 8 * 8)) hbits
  refine ⟨?_, (hisFull pa).trans hfull, fun a ha => ?_, fun a _ => hisFull a, by simpa using hwakes⟩
  · rw [hmem, Mem.read64_write64 hwf]
  · rw [hmem]; exact Mem.byte_write_other hwf ha

/-- A bit changed leaves what the word holds, and wakes those that wait for it. -/
theorem feLeaves_bit {d : Core} {b : Bool} (hd : Claims.FeLeaves c d pa full v full) (hwf : d.mem.wf = true)
    (hstrands : d.strands = c.strands) (hb : b ≠ full) (h : d.OnlyWriter pt va) :
    Claims.FeLeaves c (changeBit p pt va pa b d) pa full v b := by
  obtain ⟨hread, -, hbytes, hbits, hwakes⟩ := hd
  obtain ⟨hmem, -, hwoken⟩ := Core.words_eq (d := changeBit p pt va pa b d) (c := { d with
    mem := d.mem.setFull pa b, wakes := d.wakes ++ (waitersOf d (.feWord pa b)).map fun x => ⟨x.key, some (.feWord pa b), false⟩ })
    (changeBit_words b h)
  refine ⟨?_, ?_, fun a ha => ?_, fun a ha => ?_, ?_⟩
  · rw [hmem]; exact hread
  · rw [hmem, Mem.isFull_setFull hwf, if_pos rfl]
  · rw [hmem]; exact hbytes a ha
  · rw [hmem, Mem.isFull_setFull hwf, if_neg (by omega)]; exact hbits a ha
  · rw [hwoken]
    simp [hwakes, if_neg hb, waitersOf, hstrands]

/-- An operation that does not wait leaves the value and the bit that the rule gives it. -/
theorem feDone_leaves (value : Option Word) (bit : Option Bool) (hwf : c.mem.wf = true) (hfull : c.mem.isFull pa = full)
    (h : c.OnlyWriter pt va) : Claims.FeLeaves c (feDone p pt va pa scope full value bit c) pa full (value.getD (c.mem.read64 pa))
      (bit.getD full) := by
  have hbit (d : Core) (u : Word) (hd : Claims.FeLeaves c d pa full u full) (hdwf : d.mem.wf = true) (hstrands : d.strands = c.strands)
      (honly : d.OnlyWriter pt va) : Claims.FeLeaves c (match bit with
        | some b => if b != full then changeBit p pt va pa b d else d
        | none => d) pa full u (bit.getD full) := by
    cases bit with
    | none => exact hd
    | some b =>
      by_cases hb : b = full
      · subst hb
        simpa using hd
      · simpa [hb] using feLeaves_bit hd hdwf hstrands hb honly
  cases value with
  | none => exact hbit c _ (feLeaves_refl hfull) hwf rfl h
  | some u =>
    obtain ⟨hwords, honly⟩ := releaseWord_words (p := p) (pa := pa) u scope h
    obtain ⟨hmem, hstrands, -⟩ := Core.words_eq (c := { c with mem := c.mem.write64 pa u }) hwords
    exact hbit _ u (feLeaves_word hwf hfull hwords) (by rw [hmem]; exact Mem.wf_write64 hwf ..) hstrands honly

end

/-! ### A full/empty operation on an ordinary cell -/

/-- An access to a cell that no stash entry serves, by a party that has nothing on its way. -/
theorem needReturned_none {p : Platform} {c : Core} {pt : Party} (h : Claims.NothingOwn c pt) : needReturned pt p c = .ok ((), c) := by
  simp only [needReturned, act_bind, act_get]
  cases hs : pt.strand with
  | false => rfl
  | true => rw [sending_none (h hs)]; rfl

section
variable {p : Platform} {c c1 : Core} {pt : Party} {op : FeOp} {va pa : Nat} {v : Word} {scope : Scope}

theorem feAt_plainCell (ho : Claims.NothingOwn c pt) (h : PlainCell p c pt.job va op.kind 8 pa c1) :
    feAt pt op va v scope p c = feCell pt op pa va .plain v scope p c1 := by
  obtain ⟨hs, hl⟩ := h
  cases hop : op.isStore <;>
    simp [feAt, hop, needReturned_none ho, needEarlier_none va 8 ho, recallBlock_none hs, hl, pinCheck, LineKind.of]

/-- A line without a scope record gives every acquire what it holds. -/
theorem acquireCheck_none (h : ∀ e ∈ c.scopes, ¬ (e.job = pt.job ∧ e.vline = va / 64) ∧ ¬ (e.job = deviceJob ∧ e.vline = pa / 64)) :
    acquireCheck pt scope va pa .plain p c = .ok ((), c) := by
  have hnone : scopeRecord c pt.job va pa = none := by
    refine List.find?_eq_none.2 fun e he => ?_
    obtain ⟨h1, h2⟩ := h e he
    simp only [Bool.or_eq_true, Bool.and_eq_true, beq_iff_eq, lineOf]
    exact not_or.2 ⟨h1, h2⟩
  simp [acquireCheck, hnone]

/-- The rule of R111 and R113 on a good word of a line without a scope record. -/
theorem feCell_good (hg : layerGone p pa = false) (hline : c.mem.linePoison pa = false) (hword : c.mem.isPoison pa = false)
    (hscope : ∀ e ∈ c.scopes, ¬ (e.job = pt.job ∧ e.vline = va / 64) ∧ ¬ (e.job = deviceJob ∧ e.vline = pa / 64)) :
    feCell pt op pa va .plain v scope p c = match feEffect op (c.mem.isFull pa) (c.mem.read64 pa) v with
      | .wait f => .error (.park (.feWord pa f))
      | .go r value bit => .ok (⟨r, none⟩, feDone p pt va pa scope (c.mem.isFull pa) value bit c) := by
  simp only [feCell, act_bind, act_read, act_get, hg, hline, Bool.false_eq_true, if_false, Bool.and_false]
  cases op <;> cases c.mem.isFull pa <;> simp [feEffect, FeOp.acquires, hword, acquireCheck_none hscope, feDone]

end

/-- A word of a line without poison. -/
theorem isPoison_of_linePoison {m : Mem} {pa : Nat} (ha : pa % 8 = 0) (h : m.linePoison pa = false) : m.isPoison pa = false := by
  have := List.any_eq_false.1 h (pa % 64 / 8) (List.mem_range.2 (by omega))
  rwa [Bool.not_eq_true, show pa / 64 * 64 + 8 * (pa % 64 / 8) = pa by omega] at this

/-- Settles O13: the home is reached, the rule gives a wait or an effect, and each effect leaves what the rule says. -/
theorem fullEmptyWords : Obligations.FullEmptyWords := by
  unfold Obligations.FullEmptyWords
  intro p c c1 pt op va pa v old scope full hwf ha _ hcell hg hline hfull hold hscope htasks hown
  have hwf1 : c1.mem.wf = true := (reachLine_reaches _ _ _ p c _ _ (reachLine_of_locate hcell.2)).wf hwf
  have honly : c1.OnlyWriter pt va := onlyWriter_of_locate hcell.2 hg htasks
  have hrun : feAt pt op va v scope p c = _ := (feAt_plainCell hown hcell).trans
    (feCell_good hg hline (isPoison_of_linePoison ha hline) hscope)
  have hleaves (value : Option Word) (bit : Option Bool) := feDone_leaves (p := p) (scope := scope) value bit hwf1 hfull honly
  rw [hfull, hold] at hrun
  rw [hold] at hleaves
  cases op with
  | ldf | ldfe | wait =>
    cases full with
    | false => exact hrun
    | true => exact ⟨_, hrun, hleaves _ _⟩
  | stef | waite =>
    cases full with
    | false => exact ⟨_, hrun, hleaves _ _⟩
    | true => exact hrun
  | stf | probe | set | clr => cases full <;> exact ⟨_, hrun, hleaves _ _⟩

end Sys2Proof.Machine
end

section
/-! SUPPORT. Atomics (R116): the instruction with its access performed, and a relaxed atomic on an ordinary cell. -/

namespace Sys2Proof.Machine

open Sys2Proof

/-! ### The operations -/

theorem exec_atomic : ∀ e ∈ Claims.atomicTable, ∀ d a b n ord scope s,
    exec (e.1 d a b n ord scope) s = runCore (atomicAct e.2.1 e.2.2.1 d a b n ord scope) s := by
  simp only [Claims.atomicTable, List.forall_mem_cons, List.not_mem_nil, false_implies, implies_true, and_true]
  and_intros <;> intros <;> rfl

/-- A value rounded to binary32 has 32 bits. -/
theorem toF32_lt (x : Num) : toF32 x < 2 ^ 32 := by
  have hzero (neg : Bool) : zeroCode f32 neg < 2 ^ 32 := by cases neg <;> decide
  have hover (neg wasInf : Bool) : overflowCode f32 modeRNE false neg wasInf < 2 ^ 32 := by cases neg <;> cases wasInf <;> decide
  have hmax : f32.maxCode = 0x7F7FFFFF := by decide
  have hneg (c : Nat) : f32.negCode c = c + 2147483648 := rfl
  have hcode (neg : Bool) (c : Nat) (hc : ¬ f32.maxCode < c) : (if neg = true then f32.negCode c else c) < 2 ^ 32 := by
    rw [hmax] at hc
    rw [hneg]
    split <;> omega
  have hite {q : Prop} [Decidable q] {a b : Nat} (ha : a < 2 ^ 32) (hb : ¬ q → b < 2 ^ 32) : (if q then a else b) < 2 ^ 32 := by
    split
    · exact ha
    · exact hb ‹_›
  unfold toF32 convert
  cases x with
  | nan => decide
  | inf neg => exact hover neg true
  | fin neg m e =>
    dsimp only
    split
    · exact hzero neg
    · split
      case h_1 hint => simp [f32] at hint
      case h_3 hb8 => simp [f32] at hb8
      exact hite (hzero neg) fun _ => hite (hover neg false) fun hle => hcode neg _ hle

/-- The model's operations are those of R116. -/
theorem amoNew_table : ∀ e ∈ Claims.atomicTable, ∀ o b ev, amoNew e.2.1 (8 * e.2.2.1) o b ev = e.2.2.2 o b ev := by
  have hminz (o b : Nat) : min o b = if o < b then o else b := by rw [Nat.min_def]; split <;> split <;> omega
  have hmaxz (o b : Nat) : max o b = if b < o then o else b := by rw [Nat.max_def]; split <;> split <;> omega
  simp [Claims.atomicTable, amoNew, signedOf_eq_toInt, hminz, hmaxz]

/-- What an atomic writes fits in its word. -/
theorem amoNew_lt {op : AmoOp} {size o b ev x : Nat} (hf : op = .fadd → size = 4) (ho : o < 2 ^ (8 * size)) (hb : b < 2 ^ (8 * size))
    (h : amoNew op (8 * size) o b ev = some x) : x < 2 ^ (8 * size) := by
  cases op with
  | fadd =>
    obtain rfl := hf rfl
    obtain rfl := Option.some.inj h
    exact toF32_lt _
  | cas =>
    simp only [amoNew, Option.ite_none_right_eq_some, Option.some.injEq] at h
    omega
  | add => obtain rfl := Option.some.inj h; exact Nat.mod_lt _ (Nat.two_pow_pos _)
  | and => obtain rfl := Option.some.inj h; exact Nat.and_lt_two_pow _ hb
  | or => obtain rfl := Option.some.inj h; exact Nat.or_lt_two_pow ho hb
  | xor => obtain rfl := Option.some.inj h; exact Nat.xor_lt_two_pow ho hb
  | swap => obtain rfl := Option.some.inj h; exact hb
  | min | max | inc =>
    obtain rfl := Option.some.inj h
    split <;> omega
  | minz => obtain rfl := Option.some.inj h; omega
  | maxz => obtain rfl := Option.some.inj h; omega

theorem atomicTable_sizes : ∀ e ∈ Claims.atomicTable, e.2.1 = .fadd → e.2.2.1 = 4 := by simp [Claims.atomicTable]

/-! ### The instruction, its access performed -/

/-- Two ways to a value, and what follows either of them. -/
theorem ite_bind {α β : Type} (q : Prop) [Decidable q] (a a' : Act α) (f : α → Act β) :
    (if q then a >>= f else a' >>= f) = (if q then a else a') >>= f := by
  split <;> rfl

section
variable {s : State} {pid : Nat} {k : Key} {w : IWord} {t : Option Tcw} {x : Strand}

/-- An atomic that issues and is performed gives its destination the old value, zero-extended (R116). -/
theorem atomicAct_performs {op : AmoOp} {size : Nat} {d a b : Reg} {n : Seg} {ord : MemOrd} {scope : AScope} {ev bv base : Word}
    {c0 c1 c2 c3 : Core} {va old : Nat} (h : InHand s pid k w t x) (hm : MayIssue x [d] false)
    (hev : if op = .cas then Reads s.plat s.core d ev c0 else ev = 0 ∧ c0 = s.core)
    (hbase : Reads s.plat c0 a base c1) (hbv : Reads s.plat c1 b bv c2) (hroom : Room s.plat s.core d)
    (hreach : reach n base.toNat size 3 s.plat c2 = .ok (va, c2))
    (hamo : amoAt x.party op va size (bv.toNat % 2 ^ (8 * size)) (ev.toNat % 2 ^ (8 * size)) ord scope s.plat c2 = .ok (⟨old, none⟩, c3))
    (hroom3 : Room s.plat c3 d) :
    ∃ c4, Retires s.plat k c3 d (BitVec.ofNat 64 (old % 2 ^ (8 * size))) c4 ∧
      runCore (atomicAct op size d a b n ord scope) s = .next { s with core := c4 } := by
  have hcas : (if op == .cas then readReg d else pure 0 : Act Word) s.plat s.core = .ok (ev, c0) ∧ Issuing c0 pid k w t x := by
    by_cases ho : op = .cas
    · rw [if_pos ho] at hev
      have hread : readReg d s.plat s.core = .ok (ev, c0) := hev
      exact ⟨by simpa [ho] using hread, h.issuing.read hev⟩
    · rw [if_neg ho] at hev
      obtain ⟨rfl, rfl⟩ := hev
      exact ⟨by simp [ho], h.issuing⟩
  obtain ⟨hexp, h0⟩ := hcas
  have h2 := (h0.read hbase).read hbv
  obtain ⟨y, hme, hxy⟩ := h2.me s.plat
  have hkept : c3.hands = c2.hands := (amoAt_hands ..).kept _ _ _ _ rfl hamo
  obtain ⟨slot3, hw3⟩ := h2.work_of_hands hkept
  obtain ⟨-, y2, hy2, -⟩ := h2
  obtain ⟨z, hz⟩ := strand_of_hands hkept hy2
  obtain ⟨c4, hret, hend⟩ := retire_room (BitVec.ofNat 64 (old % 2 ^ (8 * size))) hw3 hz hroom3
  obtain ⟨⟨slot, hw⟩, hx⟩ := h
  have hoff : offsetOf base 0 s.plat c2 = .ok (base.toNat, c2) := offsetOf_ok ⟨by simp, base.isLt⟩
  have hacc := accessMem_done (req := .amo op va size (wordOf (bv.toNat % 2 ^ (8 * size))) (wordOf (ev.toNat % 2 ^ (8 * size))) ord scope)
    (d := d) (ll := false) hamo
  have hgo : destReady d s.plat s.core = .ok ((), s.core) := hroom
  unfold Reads at hbase hbv
  refine ⟨c4, hret, runCore_ok ?_⟩
  simp only [atomicAct, ite_bind, act_bind, lookaheadCheck_ok hw hx hm, act_attempt, hgo, hexp, hbase, hbv, raise, act_pure, hoff, hreach, hme,
    hxy.party_eq, hacc, deliverPoison_ok hw3, Core.poisoned_none]
  exact hend

end

/-- Settles O14: the sources are read in the order of R61, and the access is performed. -/
theorem atomicsComplete : Obligations.AtomicsComplete := by
  unfold Obligations.AtomicsComplete
  intro e he s pid k w t x d a b n ord scope ev bv base c0 c1 c2 c3 va old h hm hev hbase hbv hroom hreach hamo hroom3
  rw [exec_atomic e he]
  exact atomicAct_performs h hm hev hbase hbv hroom hreach hamo hroom3

/-! ### A relaxed atomic on an ordinary cell (R106) -/

section
variable {p : Platform} {c c1 : Core} {pt : Party} {op : AmoOp} {va pa size b ev : Nat} {scope : AScope}

theorem amoAt_plainCell (ho : Claims.NothingOwn c pt) (h : PlainCell p c pt.job va 3 size pa c1) :
    amoAt pt op va size b ev .relaxed scope p c = amoCell pt op pa va size b ev .relaxed scope .plain p c1 := by
  obtain ⟨hs, hl⟩ := h
  simp [amoAt, ordReleases, needEarlier_none va size ho, recallBlock_none hs, hl, pinCheck, LineKind.of]

/-- A relaxed atomic on a good word writes what its operation gives, where it gives anything. -/
theorem amoCell_relaxed (hg : layerGone p pa = false) (hp : c.mem.isPoison pa = false) (line : LineKind) :
    amoCell pt op pa va size b ev .relaxed scope line p c = .ok (⟨c.mem.read pa size, none⟩,
      (amoNew op (8 * size) (c.mem.read pa size) b ev).elim c fun x => writeCell p pt va pa size x c) := by
  cases hn : amoNew op (8 * size) (c.mem.read pa size) b ev <;> simp [amoCell, ordAcquires, ordReleases, hg, hp, hn]

@[simp] theorem writeCell_full (p : Platform) (pt : Party) (va pa size x : Nat) (c : Core) :
    (writeCell p pt va pa size x c).mem.full = c.mem.full := (Mem.full_write ..).trans (beforeWrite_full ..)

theorem writeCell_read (x : Nat) (h : c.mem.wf = true) : (writeCell p pt va pa size x c).mem.read pa size = x % 2 ^ (8 * size) :=
  Mem.read_write (beforeWrite_wf h) ..

theorem Mem.read_lt (m : Mem) (a n : Nat) : m.read a n < 2 ^ (8 * n) := by
  have hle (l : List Byte) : leNat l < 2 ^ (8 * l.length) := by
    induction l with
    | nil => simp [leNat]
    | cons b r ih =>
      have hb := b.isLt
      simp only [leNat, List.length_cons]
      rw [Nat.mul_succ, Nat.pow_add]
      omega
  have hlen (n a : Nat) : (m.bytes a n).length = n := by
    induction n generalizing a with
    | zero => rfl
    | succ n ih => simp [Mem.bytes, ih]
  have := hle (m.bytes a n)
  rwa [hlen] at this

end

/-- Settles O15: the home is reached, and the operation's value is written there. -/
theorem atomicsOnMemory : Obligations.AtomicsOnMemory := by
  unfold Obligations.AtomicsOnMemory
  intro e he p c c1 pt va pa b ev scope hwf hown hcell hg hp hb _ _ _
  have hkept : HomeReached c c1 := reachLine_reaches _ _ _ p c _ _ (reachLine_of_locate hcell.2)
  have hrun : amoAt pt e.2.1 va e.2.2.1 b ev .relaxed scope p c = _ := (amoAt_plainCell hown hcell).trans (amoCell_relaxed hg hp .plain)
  have hnew := amoNew_table e he (c1.mem.read pa e.2.2.1) b ev
  have hlt (x : Nat) (hx : e.2.2.2 (c1.mem.read pa e.2.2.1) b ev = some x) : x < 2 ^ (8 * e.2.2.1) :=
    amoNew_lt (atomicTable_sizes e he) (Mem.read_lt ..) hb (hnew.trans hx)
  refine ⟨_, hrun, ?_⟩
  rw [hnew]
  cases hx : e.2.2.2 (c1.mem.read pa e.2.2.1) b ev with
  | none => exact ⟨hkept.full, rfl⟩
  | some x =>
    refine ⟨(writeCell_full ..).trans hkept.full, (writeCell_read x (hkept.wf hwf)).trans ?_⟩
    exact Nat.mod_eq_of_lt (hlt x hx)

end Sys2Proof.Machine
end

section
/-! SUPPORT. Fences (R118, R170): what each waits for, the trap that `fence.eng` takes (R380), and what orders nothing. -/

namespace Sys2Proof.Machine

open Sys2Proof

theorem sending_iff {c : Core} {k : Key} : c.sending k = false ↔ Claims.NothingSent c k := by
  refine ⟨fun h => ?_, sending_none⟩
  simp only [Core.sending, Bool.or_eq_false_iff, List.any_eq_false, beq_iff_eq] at h
  obtain ⟨⟨hcast, hdec⟩, hmem⟩ := h
  refine ⟨hcast, fun d hd => ?_, hmem⟩
  have := hdec d hd
  simpa [Decrement.ofStrand, and_assoc] using this

/-! ### The forms of fences -/

/-- An acquire, release or full fence, by whether it releases, with its `fence.eng`. -/
theorem exec_fences (scope : Scope) (s : State) : ∀ e ∈ [(false, Instr.fenceAcq scope, Instr.fenceEngAcq scope),
    (true, .fenceRel scope, .fenceEngRel scope), (true, .fence scope, .fenceEng scope)],
    exec e.2.1 s = runCore (fenceRun false e.1 scope) s ∧ exec e.2.2 s = runCore (fenceRun true e.1 scope) s := by
  simp only [List.forall_mem_cons, List.not_mem_nil, false_implies, implies_true, and_true]
  exact ⟨⟨rfl, rfl⟩, ⟨rfl, rfl⟩, rfl, rfl⟩

theorem exec_release (scope : Scope) (s : State) : ∀ i ∈ [Instr.fenceRel scope, .fence scope],
    exec i s = runCore (fenceRun false true scope) s := by
  simp only [List.forall_mem_cons, List.not_mem_nil, false_implies, implies_true, and_true]
  exact ⟨rfl, rfl⟩

theorem exec_fencePlain (scope : Scope) (s : State) : ∀ i ∈ [Instr.fenceAcq scope, .fenceRel scope, .fence scope],
    ∃ rel, exec i s = runCore (fenceRun false rel scope) s := by
  simp only [List.forall_mem_cons, List.not_mem_nil, false_implies, implies_true, and_true]
  exact ⟨⟨false, rfl⟩, ⟨true, rfl⟩, true, rfl⟩

theorem exec_fenceEng (scope : Scope) (s : State) : ∀ i ∈ [Instr.fenceEngAcq scope, .fenceEngRel scope, .fenceEng scope],
    ∃ rel, exec i s = runCore (fenceRun true rel scope) s := by
  simp only [List.forall_mem_cons, List.not_mem_nil, false_implies, implies_true, and_true]
  exact ⟨⟨false, rfl⟩, ⟨true, rfl⟩, true, rfl⟩

/-! ### The waits (R118) -/

section
variable {p : Platform} {c : Core} {pid slot : Nat} {k : Key} {w : IWord} {t : Option Tcw} {x : Strand}

theorem needEngines_ok (h : c.work = .strand pid slot k w t) (hx : c.strand? k = some x) (hn : x.ops = []) (he : x.engines = 0) :
    needEngines p c = .ok ((), c) := by
  simp [needEngines, me_ok h hx, hn, he]

/-- A fence whose waits have ended, and which takes no trap, ends. -/
theorem fenceAct_ends {eng : Bool} (h : c.work = .strand pid slot k w t) (hx : c.strand? k = some x) (hn : x.ops = [])
    (he : eng = true → x.engines = 0 ∧ x.fenceTrap = none) : fenceAct eng p c = .ok ((), c.passed k) := by
  cases eng with
  | false => simp [fenceAct, lookaheadCheck_ok h hx (.inl hn), needDrained_ok h hx hn, retireNone_ok h]
  | true =>
    obtain ⟨hengines, htrap⟩ := he rfl
    simp [fenceAct, lookaheadCheck_ok h hx (.inl hn), needEngines_ok h hx hn hengines, me_ok h hx, htrap, retireNone_ok h]

/-- Operations of an open window have a fence wait (R118). -/
theorem fenceAct_drains (h : c.work = .strand pid slot k w t) (hx : c.strand? k = some x) (hn : x.ops ≠ []) (hw : x.window ≠ 0) :
    fenceAct false p c = .error (.hold .drain) := by
  have hmay : MayIssue x [] false := .inr ⟨hw, fun _ _ _ _ => List.not_mem_nil, fun hl => nomatch hl⟩
  simp [fenceAct, lookaheadCheck_ok h hx hmay, needDrained, me_ok h hx, hn]

/-- Engine commands have a `fence.eng` wait. -/
theorem fenceAct_engines (h : c.work = .strand pid slot k w t) (hx : c.strand? k = some x) (hn : x.ops = []) (he : x.engines ≠ 0) :
    fenceAct true p c = .error (.hold .engines) := by
  simp [fenceAct, lookaheadCheck_ok h hx (.inl hn), needEngines, me_ok h hx, hn, he]

/-- The pending engine trap stops a `fence.eng` (R380). -/
theorem fenceAct_traps (h : c.work = .strand pid slot k w t) (hx : c.strand? k = some x) (hn : x.ops = []) (he : x.engines = 0)
    (ht : x.engTrap.toNat % 256 ≠ 0) :
    fenceAct true p c = .error (.acquired .pending (x.engTrap.toNat % 256) x.engTval) := by
  have hpending : x.fenceTrap = some (.pending, x.engTrap.toNat % 256, x.engTval) := by simp [Strand.fenceTrap, ht]
  simp [fenceAct, lookaheadCheck_ok h hx (.inl hn), needEngines_ok h hx hn he, me_ok h hx, hpending]

theorem fenceRun_stops {eng : Bool} {e : Stop} (h : fenceAct eng p c = .error e) (rel : Bool) (scope : Scope) :
    fenceRun eng rel scope p c = .error e := by
  simp only [fenceRun, act_bind, h]

/-- A strand past its fence. -/
theorem passed_strand (hx : c.strand? k = some x) : (c.passed k).strand? k = some (x.issued.advance 4) :=
  strand_upd _ (fun _ => Strand.advance_key ..) hx

theorem needReturned_passed (hx : c.strand? k = some x) :
    needReturned (x.issued.advance 4).party p (c.passed k) =
      if c.sending k then .error (.hold .none) else .ok ((), c.passed k) := by
  have hk : (x.issued.advance 4).key = k := by
    rw [Strand.advance_key]
    exact strand_key (x := x) hx
  have hown : (c.passed k).sending ⟨(x.issued.advance 4).party.job, (x.issued.advance 4).party.ctx⟩ = c.sending k :=
    congrArg c.sending hk
  have hstrand : (x.issued.advance 4).party.strand = true := rfl
  simp only [needReturned, act_bind, act_get, hown, hstrand, Bool.true_and]
  cases c.sending k <;> rfl

/-- A fence that has ended orders the apertures, once nothing of a releasing strand is on its way. -/
theorem fenceRun_ends {eng rel : Bool} {scope : Scope} (h : c.work = .strand pid slot k w t) (hx : c.strand? k = some x)
    (hend : fenceAct eng p c = .ok ((), c.passed k)) : fenceRun eng rel scope p c =
      if rel && c.sending k then .error (.hold .none) else fenceApertures rel scope p (c.passed k) := by
  have hw : (c.passed k).work = .strand pid slot k w t := h
  cases rel with
  | false => simp [fenceRun, hend]
  | true =>
    simp only [fenceRun, act_bind, hend, if_true, me_ok hw (passed_strand hx), needReturned_passed hx, Bool.true_and]
    cases c.sending k <;> rfl

/-! ### Apertures (R170) -/

/-- Steps of which each leaves the core as it is. -/
theorem forM_still {α : Type} {f : α → Act PUnit} {l : List α} (h : ∀ y ∈ l, f y p c = .ok (⟨⟩, c)) : l.forM f p c = .ok (⟨⟩, c) := by
  induction l with
  | nil => rfl
  | cons y r ih =>
    show (f y >>= fun _ => r.forM f) p c = _
    rw [act_bind, h y List.mem_cons_self]
    exact ih fun z hz => h z (List.mem_cons_of_mem _ hz)

/-- Where no station holds a copy, nothing of an aperture has to be ordered. -/
theorem fenceApertures_none {scope : Scope} (h : c.work = .strand pid slot k w t)
    (hq : scope ≠ .system ∨ ∀ e ∈ c.stations, e.2.entries = [] ∧ e.2.l1 = []) (rel : Bool) :
    fenceApertures rel scope p c = .ok ((), c) := by
  by_cases hs : scope = .system
  · have hempty := hq.resolve_left (not_not_intro hs)
    have hflush : flushWindows k.job p c = .ok ((), c) := by
      simp only [flushWindows, act_bind, act_get]
      exact forM_still fun e he => by rw [(hempty e he).1]; rfl
    have hwindows : (c.stations.forM fun s => (s.2.entries.filter (entryStale c s.2)).forM fun e => do
        needLanded s.1 e.index
        let _ ← writeBackEntry s.1 e
        onCore fun c => c.updStation s.1 fun s => setStashEntry s { e with dirty := 0, writer := 0, valid := false, plines := [] } :
        Act Unit) p c = .ok ((), c) := forM_still fun e he => by rw [(hempty e he).1]; rfl
    have hl1 : c.stations.any (fun e => e.2.l1.any (l1Stale c)) = false :=
      List.any_eq_false.2 fun e he => by simp [(hempty e he).2]
    have hrefresh : refreshApertures p c = .ok ((), c) := by
      simp only [refreshApertures, act_bind, act_get]
      rw [hwindows]
      simp [dropCopies, hl1]
    cases rel <;> simp [fenceApertures, hs, myKey_ok h, hflush, hrefresh]
  · simp [fenceApertures, hs]

end

/-! ### The pending engine trap (R380) -/

theorem getLsbD_modeSup (m : BitVec 16) : (modeSet m modeSup true).getLsbD 0 = true := by
  simp [modeSet, modeSup]

/-- A trap of a strand in user mode enters the handler (R138). -/
theorem takeTrap_user {c : Core} {k : Key} {x : Strand} (hx : c.strand? k = some x) (hs : x.sup = false) (p : Platform)
    (cause code : Nat) (multi : Bool) (tval epc opc : Word) (count : Nat) (addr : Word) :
    takeTrap p k cause code multi tval epc opc count addr c =
      c.setStrand (x.trapEntry (jobTvec p c k.job) cause code multi tval epc opc count) := by
  simp only [takeTrap, hx, hs, Bool.false_eq_true, if_false]

/-- The pending engine trap enters the handler of a strand in user mode, and is pending no longer. -/
theorem raiseAcquired_pending {c : Core} {k : Key} {x : Strand} (hx : c.strand? k = some x) (hs : x.sup = false) (hn : x.ops = [])
    (p : Platform) (cause : Nat) (tval : Word) : ∃ y, (raiseAcquired p k .pending cause tval c).strand? k = some y ∧
      y.engTrap = 0 ∧ y.epc = x.pc ∧ y.cause = BitVec.ofNat 64 cause ∧ y.tval = tval ∧ y.sup = true := by
  have hk := strand_key hx
  have howed : clearOwed k (some .pending) c = c.setStrand { x with engTrap := 0 } := by simp [clearOwed, hx, hs, Strand.clearAcquired]
  have hx' : (c.setStrand { x with engTrap := 0 }).strand? k = some { x with engTrap := 0 } := strand_set hx hk
  have hempty : x.ops.isEmpty = true := by simp [hn]
  have htrap : raiseAcquired p k .pending cause tval c = takeTrap p k cause 0 false tval x.pc 0 0 x.pc (c.setStrand { x with engTrap := 0 }) := by
    simp only [raiseAcquired, hx, hempty, if_true, howed]
  rw [htrap, takeTrap_user hx' hs]
  exact ⟨_, strand_set hx' hk, rfl, rfl, by simp [Strand.trapEntry, wordOf], rfl, getLsbD_modeSup _⟩

/-- Settles O16: each fence runs its waits, then takes its trap or ends, and then orders the apertures. -/
theorem fencesComplete : Obligations.FencesComplete := by
  unfold Obligations.FencesComplete
  refine ⟨?waits, ?trap⟩
  case waits =>
    rintro s pid k w t x scope c ⟨⟨slot, hw⟩, hx⟩
    have hhold {a : Act Unit} {e : Hold} (ha : a s.plat s.core = .error (.hold e)) :
        runCore a s = .next { s with core := s.core.setStrand { x with hold := e } } := by
      rw [runCore_stop ha hw fun _ => Stop.noConfusion]
      simp [strandStop, hx]
    refine ⟨fun hn => ⟨?ends, ?sent, ?engines⟩, ?drains, ?apertures⟩
    case ends =>
      intro e he hap hsent
      have hquiet : (e.1 && s.core.sending k) = false := by
        cases hr : e.1 with
        | false => rfl
        | true => exact sending_none (hsent hr)
      have hfence {eng : Bool} (heng : eng = true → x.engines = 0 ∧ x.fenceTrap = none) :
          runCore (fenceRun eng e.1 scope) s = .next { s with core := c } := by
        refine runCore_ok ?_
        rw [fenceRun_ends hw hx (fenceAct_ends hw hx hn heng), hquiet, if_neg Bool.false_ne_true]
        exact hap
      have hexec := exec_fences scope s e he
      rw [hexec.1, hexec.2]
      exact ⟨hfence (fun h => nomatch h), fun he ht => hfence fun _ => ⟨he, ht⟩⟩
    case sent =>
      intro hsent i hi
      have hsending : s.core.sending k = true := by
        rw [← Bool.not_eq_false]
        exact mt sending_iff.1 hsent
      have hstop : fenceRun false true scope s.plat s.core = .error (.hold .none) := by
        rw [fenceRun_ends hw hx (fenceAct_ends (eng := false) hw hx hn (fun h => nomatch h)), hsending]
        rfl
      rw [exec_release scope s i hi]
      exact hhold hstop
    case engines =>
      intro hne i hi
      obtain ⟨rel, hexec⟩ := exec_fenceEng scope s i hi
      rw [hexec]
      exact hhold (fenceRun_stops (fenceAct_engines hw hx hn hne) rel scope)
    case drains =>
      intro hn hwin i hi
      obtain ⟨rel, hexec⟩ := exec_fencePlain scope s i hi
      rw [hexec]
      exact hhold (fenceRun_stops (fenceAct_drains hw hx hn hwin) rel scope)
    case apertures =>
      exact fun hq rel => fenceApertures_none (c := s.core.passed k) hw hq rel
  case trap =>
    rintro s pid k w t x scope ⟨⟨slot, hw⟩, hx⟩ hs hn he ht i hi
    obtain ⟨rel, hexec⟩ := exec_fenceEng scope s i hi
    have hstop := fenceRun_stops (fenceAct_traps (p := s.plat) hw hx hn he ht) rel scope
    obtain ⟨y, hy⟩ := raiseAcquired_pending hx hs hn s.plat (x.engTrap.toNat % 256) x.engTval
    rw [hexec, runCore_stop hstop hw fun _ => Stop.noConfusion]
    refine ⟨_, y, rfl, ?_⟩
    simpa only [strandStop, hx] using hy

end Sys2Proof.Machine
end

section
/-! SUPPORT. Segment instructions (R119 to R121), and that reading a source sends nothing. -/

namespace Sys2Proof.Machine

open Sys2Proof

/-! ### Reading a source sends nothing -/

/-- The accesses that are on their way: stores to multicast pages, decrements, and lineage members. -/
def Core.sent (c : Core) : List Multicast × List Decrement × List LinRun := (c.multicasts, c.decrements, c.members)

/-- An attempt that, where it ends, leaves what is on its way as it was. -/
structure KeepsSent {α : Type} (h : List Multicast × List Decrement × List LinRun) (a : Act α) : Prop where
  kept : ∀ p c v c', c.sent = h → a p c = .ok (v, c') → c'.sent = h

section
variable {α β : Type} {h : List Multicast × List Decrement × List LinRun}

theorem KeepsSent.pure (v : α) : KeepsSent h (pure v : Act α) := by
  refine ⟨?_⟩
  rintro p c w c' hc ⟨⟩
  exact hc

theorem KeepsSent.stop (x : Stop) : KeepsSent h (stop x : Act α) := by
  refine ⟨?_⟩
  rintro p c w c' hc ⟨⟩

theorem KeepsSent.set {d : Core} (hd : d.sent = h) : KeepsSent h (set d : Act PUnit) := by
  refine ⟨?_⟩
  rintro p c w c' hc ⟨⟩
  exact hd

theorem KeepsSent.onCore {f : Core → Core} (hf : ∀ c, (f c).sent = c.sent) : KeepsSent h (onCore f) := by
  refine ⟨?_⟩
  rintro p c w c' hc ⟨⟩
  exact (hf c).trans hc

theorem KeepsSent.look (f : Platform → Core → α) : KeepsSent h (look f) := by
  refine ⟨?_⟩
  rintro p c w c' hc ⟨⟩
  exact hc

theorem KeepsSent.bind {a : Act α} {f : α → Act β} (ha : KeepsSent h a) (hf : ∀ v, KeepsSent h (f v)) : KeepsSent h (a >>= f) := by
  refine ⟨fun p c w c' hc hrun => ?_⟩
  rw [act_bind] at hrun
  cases he : a p c with
  | error e => simp [he] at hrun
  | ok r =>
    rw [he] at hrun
    exact (hf _).kept p _ _ _ (ha.kept p c _ _ hc he) hrun

/-- What follows a look at the core may rely on what it saw. -/
theorem KeepsSent.get {f : Core → Act β} (hf : ∀ c, c.sent = h → KeepsSent h (f c)) : KeepsSent h ((get : Act Core) >>= f) :=
  ⟨fun p c w c' hc hrun => (hf c hc).kept p c w c' hc hrun⟩

theorem myKey_sent : KeepsSent h myKey := by
  refine .get fun c _ => ?_
  split
  · exact .pure _
  · exact .stop _

theorem myStation_sent : KeepsSent h myStation := by
  refine .get fun c _ => ?_
  split
  · exact .pure _
  · exact .stop _

theorem myWord_sent : KeepsSent h myWord := by
  refine .get fun c _ => ?_
  split
  · exact .pure _
  · exact .stop _

theorem me_sent : KeepsSent h me := by
  refine .get fun c _ => .bind myKey_sent fun k => ?_
  split
  · exact .pure _
  · exact .stop _

theorem illWord_sent : KeepsSent h (illWord : Act α) := .bind myWord_sent fun _ => .stop _

theorem freeValue_sent : KeepsSent h freeValue := .get fun _ hc => .bind (.set hc) fun _ => .pure _

theorem popLink_sent (east : Bool) : KeepsSent h (popLink east) := by
  refine .bind myStation_sent fun pid => .get fun c hc => ?_
  split
  · exact .stop _
  · refine .bind (.set ?_) fun _ => .pure _
    split <;> exact hc

theorem pushLink_sent (east : Bool) (v : Word) : KeepsSent h (pushLink east v) := by
  refine .bind myStation_sent fun pid => .bind myKey_sent fun k => .get fun c hc => ?_
  split
  · split
    · exact .set hc
    · exact .stop _
  · exact .stop _

theorem boundQueue_sent (b : Bool) : KeepsSent h (boundQueue b) := by
  refine .bind me_sent fun x => ?_
  dsimp only
  split
  · split
    · exact .pure _
    · exact illWord_sent
  · split
    · exact .pure _
    · exact illWord_sent

theorem popQueue_sent (b : Bool) : KeepsSent h (popQueue b) := by
  refine .bind (boundQueue_sent b) fun q => .bind myStation_sent fun pid => .get fun c hc => ?_
  split
  · exact .stop _
  · exact .bind (.set hc) fun _ => .pure _

theorem needLine_sent (line : Nat) : KeepsSent h (needLine line) := by
  refine .bind me_sent fun x => ?_
  split
  · exact .pure _
  · exact .stop _

theorem acquireNote_sent (src : AcquireSrc) (n : Note) : KeepsSent h (acquireNote src n) := by
  unfold acquireNote
  split
  · exact .stop _
  all_goals exact .pure _

theorem updMe_sent (f : Strand → Strand) : KeepsSent h (updMe f) := .bind myKey_sent fun _ => .onCore fun _ => rfl

theorem popInbox_sent : KeepsSent h popInbox := by
  have hpop (src : AcquireSrc) (n : Note) (f : Strand → Strand) (k : Key) (high : Bool) (v : Word) : KeepsSent h (do
      acquireNote src n
      updMe f
      onCore (wakeLane k high)
      pure v : Act Word) :=
    .bind (acquireNote_sent src n) fun _ => .bind (updMe_sent f) fun _ => .bind (.onCore fun _ => rfl) fun _ => .pure _
  refine .bind (needLine_sent 4) fun _ => .bind (needLine_sent 5) fun _ => .bind me_sent fun x => ?_
  split
  · exact hpop ..
  · split
    · exact hpop ..
    · exact .stop _

theorem readG_sent (n : Fin 16) : KeepsSent h (readG n) := by
  refine .bind me_sent fun x => ?_
  split
  · split
    · exact .pure _
    · refine .bind myStation_sent fun pid => ?_
      split
      · exact .pure _
      · exact .stop _
    · exact .bind (acquireNote_sent ..) fun _ => .pure _
  · exact .stop _

theorem readReg_sent (r : Reg) : KeepsSent h (readReg r) := by
  cases r with
  | g n => exact readG_sent n
  | zr => exact .pure _
  | lw | le => exact popLink_sent _
  | lwf | lef => exact .bind (popLink_sent _) fun v => .bind (pushLink_sent _ v) fun _ => .pure _
  | ib => exact popInbox_sent
  | ob => exact illWord_sent
  | qa | qb => exact popQueue_sent _
  | fa | fb | fc | fs | sid => exact .bind me_sent fun x => .pure _
  | lid =>
    refine .bind myStation_sent fun pid => .bind myKey_sent fun k => .bind (.look _) fun l => ?_
    split
    · exact .pure _
    · exact freeValue_sent

/-- Reading a source sends nothing. -/
theorem nothingSent_read {p : Platform} {c c' : Core} {r : Reg} {v : Word} {k : Key} (hr : Reads p c r v c')
    (h : Claims.NothingSent c k) : Claims.NothingSent c' k := by
  have hsent : c'.sent = c.sent := (readReg_sent r).kept p c v c' rfl hr
  simp only [Core.sent, Prod.mk.injEq] at hsent
  obtain ⟨hcast, hdec, hmem⟩ := hsent
  simpa only [Claims.NothingSent, hcast, hdec, hmem] using h

end

/-! ### Segment instructions -/

theorem loadDescriptor_hands {h : Work × List Key} (pt : Party) (v : Nat) : KeepsHands h (loadDescriptor pt v) := by
  refine .bind (loadAt_hands ..) fun b => .bind (loadAt_hands ..) fun l => .bind (loadAt_hands ..) fun r => ?_
  split
  · exact .pure _
  · split
    · exact .stop _
    · exact .pure _

theorem segstAccess_hands {h : Work × List Key} (v : Nat) (d : SegDesc) : KeepsHands h (segstAccess v d) :=
  .bind ⟨fun _ _ _ _ hc hrun => me_keeps hrun ▸ hc⟩ fun _ => .bind (needEarlier_hands ..) fun _ => .bind (storeAt_hands ..) fun _ =>
    .bind (storeAt_hands ..) fun _ => .bind (storeAt_hands ..) fun _ => .pure _

section
variable {p : Platform} {s : State} {c c1 c2 c3 : Core} {pid : Nat} {k : Key} {w : IWord} {t : Option Tcw} {x : Strand} {n : Seg}
  {a b d : Reg} {va vb : Word}

/-- The two ends of a descriptor have arrived and are good. -/
theorem needOffset_ready (h : Issuing c pid k w t x) (hr : Claims.SegReady x n) :
    needOffset (0x180 + 24 * n.val) p c = .ok ((), c) ∧ needOffset (0x180 + 24 * n.val + 23) p c = .ok ((), c) := by
  obtain ⟨⟨slot, hw⟩, y, hy, hxy⟩ := h
  have hone (o : Nat) (ho : o ∈ [0x180 + 24 * n.val, 0x180 + 24 * n.val + 23]) : needOffset o p c = .ok ((), c) := by
    obtain ⟨hline, hgood⟩ := hr o ho
    exact needLine_ok hw hy (by rw [hxy.lines_eq]; exact hline) (by rw [hxy.badLines_eq]; exact hgood)
  exact ⟨hone _ List.mem_cons_self, hone _ (List.mem_cons_of_mem _ List.mem_cons_self)⟩

theorem mySeg_ready (h : Issuing c pid k w t x) (hr : Claims.SegReady x n) : mySeg n p c = .ok (x.segs[n], c) := by
  obtain ⟨hfirst, hlast⟩ := needOffset_ready (p := p) h hr
  obtain ⟨y, hme, hxy⟩ := h.me p
  simp only [mySeg, act_bind, hfirst, hlast, hme, act_pure, hxy.segs_eq]

/-- `segnar` narrows within the limit, and else traps with the new base offset (R120). -/
theorem segnarAct_narrows (h : InHand s pid k w t x) (hr : Claims.SegReady x n) (hm : MayIssue x [] false)
    (ha : Reads s.plat s.core a va c1) (hb : Reads s.plat c1 b vb c2) :
    segnarAct n a b s.plat s.core = if va.toNat + vb.toNat ≤ x.segs[n].limit.toNat then
        .ok ((), (c2.updStrand k fun y => { y with segs := y.segs.set n ⟨x.segs[n].base + va, vb, x.segs[n].rights⟩ }).passed k)
      else .error (.trap causeSeg 0 va false) := by
  have h2 := (h.issuing.read ha).read hb
  have hseg := mySeg_ready (p := s.plat) h2 hr
  obtain ⟨slot2, hw2⟩ := h2.work
  obtain ⟨⟨slot, hw⟩, hx⟩ := h
  have hw2' (f : Strand → Strand) : (c2.updStrand k f).work = .strand pid slot2 k w t := hw2
  unfold Reads at ha hb
  simp only [segnarAct, act_bind, lookaheadCheck_ok hw hx hm, ha, hb, hseg]
  by_cases hle : va.toNat + vb.toNat ≤ x.segs[n].limit.toNat
  · rw [if_pos hle, if_neg (by omega)]
    simp only [act_bind, updMe_ok _ hw2, retireNone_ok (hw2' _)]
  · rw [if_neg hle, if_pos (by omega)]
    rfl

/-- `segrgt` keeps the rights that its mask has, and SYS (R120). -/
theorem narrowRights_eq (r : BitVec 32) (m : Word) : narrowRights r m =
    (r &&& 0xFFFFFFC0#32) ||| (r &&& (m.truncate 32 &&& 0x3F#32)) ||| (r &&& 0x20#32) := by
  have hmask : (r &&& 0x3F#32) &&& (m.truncate 32 &&& 0x3F#32) = r &&& (m.truncate 32 &&& 0x3F#32) := by
    rw [BitVec.and_assoc, BitVec.and_comm 0x3F#32, BitVec.and_assoc, BitVec.and_self]
  have hrights : narrowRights r m = (r &&& 0xFFFFFFC0#32) ||| (((r &&& 0x3F#32) &&& (m.truncate 32 &&& 0x3F#32)) ||| (r &&& 0x20#32)) := rfl
  rw [hrights, hmask, BitVec.or_assoc]

theorem segrgtAct_narrows (h : InHand s pid k w t x) (hr : Claims.SegReady x n) (hm : MayIssue x [] false)
    (ha : Reads s.plat s.core a va c1) : segrgtAct n a s.plat s.core = .ok ((), (c1.updStrand k fun y =>
      { y with segs := y.segs.set n ⟨x.segs[n].base, x.segs[n].limit, narrowRights x.segs[n].rights va⟩ }).passed k) := by
  have h1 := h.issuing.read ha
  have hseg := mySeg_ready (p := s.plat) h1 hr
  obtain ⟨slot1, hw1⟩ := h1.work
  obtain ⟨⟨slot, hw⟩, hx⟩ := h
  have hw1' (f : Strand → Strand) : (c1.updStrand k f).work = .strand pid slot1 k w t := hw1
  unfold Reads at ha
  simp only [segrgtAct, act_bind, lookaheadCheck_ok hw hx hm, ha, hseg, updMe_ok _ hw1, retireNone_ok (hw1' _)]

/-- A field of a descriptor goes to the destination (R121). -/
theorem segReadAct_reads (f : SegDesc → Word) (h : InHand s pid k w t x) (hr : Claims.SegReady x n) (hm : MayIssue x [d] false)
    (hd : Room s.plat s.core d) :
    ∃ c', Retires s.plat k s.core d (f x.segs[n]) c' ∧ runCore (segReadAct f d n) s = .next { s with core := c' } := by
  have hseg := mySeg_ready (p := s.plat) h.issuing hr
  obtain ⟨⟨slot, hw⟩, hx⟩ := h
  obtain ⟨c', hret, hrun⟩ := retire_room (f x.segs[n]) hw hx hd
  unfold Room at hd
  exact ⟨c', hret, runCore_ok (by simp only [segReadAct, act_bind, lookaheadCheck_ok hw hx hm, hseg, hd, hrun])⟩

theorem needOutside_ok {v len : Nat} (h : mgmtMeets v len = false) : needOutside v len p c = .ok ((), c) := by
  simp only [needOutside, h, Bool.false_eq_true, if_false, act_pure]

theorem reachedBy_segld (pt : Party) (n : Seg) (v : Nat) (c : Core) : reachedBy pt (.segld n v) c = some v := by
  simp [reachedBy, MemReq.target]

/-- A trap at the home of an access leaves what the home was reached for (R150, R223, R379). -/
theorem accessMem_traps {req : MemReq} {ll : Bool} {act : Act Loaded} {y : Strand} {cause code v : Nat} {tval : Word} {next : Bool}
    (hme : me p c = .ok (y, c)) (hact : act p c = .error (.trap cause code tval next)) (hreq : reachedBy y.party req c = some v) :
    accessMem req d ll act p c = .error (.reached y.key.job v (.trap cause code tval next)) := by
  simp only [accessMem, act_bind, act_attempt, hact, accessMem.stopReached, hme, act_get, hreq, act_stop]
  rfl

/-- `segld`'s access of a strand that has nothing on its way gives the segment the descriptor that it reads. -/
theorem segldAccess_loads {desc : SegDesc} (h1 : Issuing c1 pid k w t x) (hx : x.key = k) (hsent : Claims.NothingSent c1 k) {v : Nat}
    (hload : loadDescriptor x.homeParty v p c1 = .ok (some desc, c3)) :
    segldAccess n v p c1 = .ok (⟨0, none⟩, c3.updStrand k fun y => { y with segs := y.segs.set n desc }) := by
  obtain ⟨y, hme, hxy⟩ := h1.me p
  have hown : Claims.NothingOwn c1 y.party := party_own (hxy.key_eq.trans hx) hsent
  obtain ⟨slot, hw⟩ := h1.work_of_hands ((loadDescriptor_hands ..).kept _ _ _ _ rfl hload)
  simp only [segldAccess, act_bind, hme, needEarlier_none v 24 hown, hxy.homeParty_eq, hload, updMe_ok _ hw, act_pure]

theorem segldAccess_stops {e : Stop} (h1 : Issuing c1 pid k w t x) (hx : x.key = k) (hsent : Claims.NothingSent c1 k) {v : Nat}
    (hload : loadDescriptor x.homeParty v p c1 = .error e) : segldAccess n v p c1 = .error e := by
  obtain ⟨y, hme, hxy⟩ := h1.me p
  have hown : Claims.NothingOwn c1 y.party := party_own (hxy.key_eq.trans hx) hsent
  simp only [segldAccess, act_bind, hme, needEarlier_none v 24 hown, hxy.homeParty_eq, hload]

/-- A descriptor whose base is not canonical, or whose reserved fields are not zero, is refused (R119). -/
theorem loadDescriptor_refuses {pt : Party} {v u l r : Nat} {c4 c5 : Core} (hu : loadAt pt v 8 p c = .ok (⟨u, none⟩, c4))
    (hl : loadAt pt (v + 8) 8 p c4 = .ok (⟨l, none⟩, c5)) (hr : loadAt pt (v + 16) 8 p c5 = .ok (⟨r, none⟩, c3))
    (hbad : canonical u = false ∨ r / 2 ^ 6 % 2 ^ 10 ≠ 0 ∨ r / 2 ^ 32 % 2 ^ 32 ≠ 0) :
    loadDescriptor pt v p c = .error (.trap causeSeg 0 (wordOf v) false) := by
  have hcond : (!canonical u || bitsOf r 6 10 != 0 || bitsOf r 32 32 != 0) = true := by
    simpa only [Bool.or_eq_true, Bool.not_eq_true', bne_iff_ne, bitsOf, Nat.shiftRight_eq_div_pow, or_assoc] using hbad
  simp only [loadDescriptor, act_bind, hu, hl, hr, Option.isSome_none, Bool.or_self, Bool.false_eq_true, if_false, hcond, if_true,
    act_trapWith]

section
variable (h : InHand s pid k w t x) (hr : Claims.SegReady x n) (hm : MayIssue x [] false) (ha : Reads s.plat s.core a va c1)
  (hs : x.sup = true) (halign : va.toNat % 8 = 0) (hout : mgmtMeets va.toNat 24 = false)
include h hr hm ha hs halign hout

/-- `segld` whose access is performed ends, with the poison that it met (R119). -/
theorem segldAct_performs {r : Loaded} (hacc : segldAccess n va.toNat s.plat c1 = .ok (r, c2))
    (hw2 : ∃ slot, c2.work = .strand pid slot k w t) :
    segldAct n a s.plat s.core = .ok ((), (c2.poisoned k r.poison).passed k) := by
  obtain ⟨slot2, hw2⟩ := hw2
  obtain ⟨hfirst, hlast⟩ := needOffset_ready (p := s.plat) (h.issuing.read ha) hr
  obtain ⟨⟨slot, hw⟩, hx⟩ := h
  have hdone := accessMem_done (req := .segld n va.toNat) (d := .zr) (ll := false) hacc
  have hend : retireNone s.plat (c2.poisoned k r.poison) = _ := retireNone_ok ((Core.poisoned_work ..).trans hw2)
  unfold Reads at ha
  simp only [segldAct, act_bind, needSup_ok hw hx hs, lookaheadCheck_ok hw hx hm, ha, hfirst, hlast, ne_eq, if_neg (not_not_intro halign),
    needOutside_ok hout, hdone, deliverPoison_ok hw2, hend]

theorem segldAct_stops {e : Stop} (hacc : accessMem (.segld n va.toNat) .zr false (segldAccess n va.toNat) s.plat c1 = .error e) :
    segldAct n a s.plat s.core = .error e := by
  obtain ⟨hfirst, hlast⟩ := needOffset_ready (p := s.plat) (h.issuing.read ha) hr
  obtain ⟨⟨slot, hw⟩, hx⟩ := h
  unfold Reads at ha
  simp only [segldAct, act_bind, needSup_ok hw hx hs, lookaheadCheck_ok hw hx hm, ha, hfirst, hlast, ne_eq, if_neg (not_not_intro halign),
    needOutside_ok hout, hacc]

/-- `segst` whose access is performed ends (R119). -/
theorem segstAct_performs {r : Loaded} (hacc : segstAccess va.toNat x.segs[n] s.plat c1 = .ok (r, c3)) :
    segstAct n a s.plat s.core = .ok ((), c3.passed k) := by
  have h1 := h.issuing.read ha
  have hseg := mySeg_ready (p := s.plat) h1 hr
  obtain ⟨slot3, hw3⟩ := h1.work_of_hands ((segstAccess_hands ..).kept _ _ _ _ rfl hacc)
  obtain ⟨⟨slot, hw⟩, hx⟩ := h
  have hdone := accessMem_done (req := .segst va.toNat x.segs[n]) (d := .zr) (ll := false) hacc
  unfold Reads at ha
  simp only [segstAct, act_bind, needSup_ok hw hx hs, lookaheadCheck_ok hw hx hm, ha, hseg, ne_eq, if_neg (not_not_intro halign),
    needOutside_ok hout, hdone, retireNone_ok hw3]

end

/-- A trap at the home of an access, taken in the core in which that home has been reached. -/
theorem runCore_traps_reached {act : Act Unit} {job v cause : Nat} {tval : Word} (h : InHand s pid k w t x)
    (ha : act s.plat s.core = .error (.reached job v (.trap cause 0 tval false)))
    (hx : (reachedLine s.plat job v s.core).strand? k = some x) :
    runCore act s = .next { s with core := raiseTrap s.plat k cause 0 tval x.pc (reachedLine s.plat job v s.core) } := by
  obtain ⟨⟨slot, hw⟩, hx0⟩ := h
  rw [runCore_stop ha hw fun _ => Stop.noConfusion]
  simp [strandStop, hx0, hx]

end

/-- Settles O17: each segment instruction runs to the end that its lemma gives, or stops as it says. -/
theorem segmentsComplete : Obligations.SegmentsComplete := by
  unfold Obligations.SegmentsComplete
  intro s pid k w t x n a b d va vb c1 c2 c3 h hr
  refine ⟨fun hm ha => ⟨fun hb => ?segnar, ?segrgt, fun hs halign hout hsent => ⟨?segld, ?refused, ?segst⟩⟩, ?fields⟩
  case segnar =>
    have hrun := segnarAct_narrows h hr hm ha hb
    refine ⟨fun hle => ?_, fun hlt => ?_⟩
    · rw [if_pos hle] at hrun
      exact runCore_ok hrun
    · rw [if_neg (Nat.not_le.2 hlt)] at hrun
      exact runCore_traps h hrun
  case segrgt =>
    have hrun := segrgtAct_narrows h hr hm ha
    rw [narrowRights_eq] at hrun
    exact runCore_ok hrun
  case segld =>
    intro desc hload
    have h1 := h.issuing.read ha
    have hacc := segldAccess_loads h1 (strand_key h.2) (nothingSent_read ha hsent) hload (n := n)
    have hw3 : ∃ slot, c3.work = .strand pid slot k w t := h1.work_of_hands ((loadDescriptor_hands ..).kept _ _ _ _ rfl hload)
    exact runCore_ok (segldAct_performs h hr hm ha hs halign hout hacc hw3)
  case refused =>
    intro u l r c4 c5 c hu hl hlast hbad ⟨hxc, hc⟩
    have h1 := h.issuing.read ha
    obtain ⟨y, hme, hxy⟩ := h1.me s.plat
    have hstop := segldAccess_stops h1 (strand_key h.2) (nothingSent_read ha hsent) (loadDescriptor_refuses hu hl hlast hbad) (n := n)
    have htrap := accessMem_traps (d := .zr) (ll := false) hme hstop (reachedBy_segld _ n va.toNat _)
    have hword : wordOf va.toNat = va := by simp [wordOf]
    rw [hxy.key_eq, hword] at htrap
    have hcore : c = reachedLine s.plat x.key.job va.toNat s.core := by rw [hc, reachedBy_segld]
    subst hcore
    exact runCore_traps_reached h (segldAct_stops h hr hm ha hs halign hout htrap) (by simpa only [strand_key h.2] using hxc)
  case segst =>
    intro r hacc
    exact runCore_ok (segstAct_performs h hr hm ha hs halign hout hacc)
  case fields =>
    intro hm hd
    simp only [List.forall_mem_cons, List.not_mem_nil, false_implies, implies_true, and_true]
    exact ⟨segReadAct_reads (fun y => y.base) h hr hm hd, segReadAct_reads (fun y => y.limit) h hr hm hd,
      segReadAct_reads (fun y => y.rights.zeroExtend 64) h hr hm hd⟩

end Sys2Proof.Machine
end

section
/-! SUPPORT. Messages (R122 to R127): the message instructions, and the words of links and inboxes as they arrive. -/

namespace Sys2Proof.Machine

open Sys2Proof

/-! ### Message instructions -/

section
variable {s : State} {c1 c2 : Core} {pid : Nat} {k : Key} {w : IWord} {t : Option Tcw} {x : Strand} {a b d : Reg} {va vb : Word}

/-- `msgt` sets the outbox target where it is aligned, and else traps (R123). -/
theorem msgtAct_targets (h : InHand s pid k w t x) (hm : MayIssue x [] false) (ha : Reads s.plat s.core a va c1)
    (hb : Reads s.plat c1 b vb c2) : msgtAct a b s.plat s.core = if va.toNat % 1024 = 0 then
        .ok ((), (c2.updStrand k fun y => { y with outTarget := va ||| (vb &&& 1) }).passed k)
      else .error (.trap causeAlign 0 va false) := by
  obtain ⟨slot2, hw2⟩ := ((h.issuing.read ha).read hb).work
  obtain ⟨⟨slot, hw⟩, hx⟩ := h
  have hw2' (f : Strand → Strand) : (c2.updStrand k f).work = .strand pid slot2 k w t := hw2
  unfold Reads at ha hb
  simp only [msgtAct, act_bind, lookaheadCheck_ok hw hx hm, ha, hb]
  by_cases hz : va.toNat % 1024 = 0
  · rw [if_pos hz, if_neg (not_not_intro hz)]
    simp only [act_bind, updMe_ok _ hw2, retireNone_ok (hw2' _)]
  · rw [if_neg hz, if_pos hz]
    rfl

/-- The binding byte of R36. -/
theorem bindByte_eq (m n : Nat) : bindByte m n = BitVec.ofNat 8 ((if m < 8 then m + 8 else 0) + 16 * (if n < 8 then n + 8 else 0)) := by
  unfold bindByte
  congr 2
  split <;> omega

theorem qbindAct_binds (h : InHand s pid k w t x) (hm : MayIssue x [] false) (ha : Reads s.plat s.core a va c1)
    (hb : Reads s.plat c1 b vb c2) : qbindAct a b s.plat s.core =
      .ok ((), (c2.updStrand k fun y => { y with qbind := bindByte va.toNat vb.toNat }).passed k) := by
  obtain ⟨slot2, hw2⟩ := ((h.issuing.read ha).read hb).work
  obtain ⟨⟨slot, hw⟩, hx⟩ := h
  have hw2' (f : Strand → Strand) : (c2.updStrand k f).work = .strand pid slot2 k w t := hw2
  unfold Reads at ha hb
  simp only [qbindAct, act_bind, lookaheadCheck_ok hw hx hm, ha, hb, updMe_ok _ hw2, retireNone_ok (hw2' _)]

/-- `poll` counts both lanes (R125). -/
theorem pollAct_counts (h : InHand s pid k w t x) (hm : MayIssue x [d] false) (hd : Room s.plat s.core d) :
    ∃ c', Retires s.plat k s.core d (BitVec.ofNat 64 (x.inHigh.count + 16 * x.inLow.count)) c' ∧
      exec (.poll d) s = .next { s with core := c' } := by
  obtain ⟨⟨slot, hw⟩, hx⟩ := h
  obtain ⟨c', hret, hrun⟩ := retire_room (BitVec.ofNat 64 (x.inHigh.count + 16 * x.inLow.count)) hw hx hd
  unfold Room at hd
  have hact : pollAct d s.plat s.core = .ok ((), c') := by
    simp only [pollAct, act_bind, lookaheadCheck_ok hw hx hm, me_ok hw hx, hd]
    exact hrun
  exact ⟨c', hret, runCore_ok hact⟩

/-- `migrate` ends, leaves for the same place on the named die, or names none (R127). -/
theorem migrateAct_goes (h : InHand s pid k w t x) (hm : MayIssue x [] false) (ha : Reads s.plat s.core a va c1) :
    migrateAct a s.plat s.core =
      if 3 < va.toNat then .error (.trap causeIll 0 va false)
      else if va.toNat = pid / 160 ∨ x.pinned = true then .ok ((), c1.passed k)
      else .ok ((), leaveTo s.plat k (.moving (va.toNat * 160 + pid % 160)) none (c1.passed k)) := by
  have h1 := h.issuing.read ha
  obtain ⟨y, hme, hxy⟩ := h1.me s.plat
  obtain ⟨slot1, hw1⟩ := h1.work
  obtain ⟨⟨slot, hw⟩, hx⟩ := h
  have hkey : y.key = k := hxy.key_eq.trans (strand_key hx)
  have hdie : dieOf pid = pid / 160 := rfl
  unfold Reads at ha
  simp only [migrateAct, act_bind, lookaheadCheck_ok hw hx hm, ha, hme, myStation_ok hw1, hxy.pinned_eq, hkey, hdie]
  by_cases hill : 3 < va.toNat
  · simp [if_pos hill, wordOf]
  · rw [if_neg hill, if_neg hill]
    by_cases hstay : va.toNat = pid / 160 ∨ x.pinned = true
    · simp [hstay, retireNone_ok hw1]
    · simp only [Bool.or_eq_true, decide_eq_true_eq, if_neg hstay, act_bind, retireNone_ok hw1, act_read, act_onCore]
      rfl

end

/-- Settles O19: each message instruction runs to the end that its lemma gives, or traps as it says. -/
theorem messagesComplete : Obligations.MessagesComplete := by
  unfold Obligations.MessagesComplete
  intro s pid k w t x a b d va vb c1 c2 h
  refine ⟨fun hm ha => ⟨fun hb => ⟨fun hz => ?_, fun hz => ?_, ?_⟩, fun hle hstay => ?_, fun hle hne hp => ?_, fun hlt => ?_⟩,
    pollAct_counts h⟩
  · exact runCore_ok ((msgtAct_targets h hm ha hb).trans (if_pos hz))
  · exact runCore_traps h ((msgtAct_targets h hm ha hb).trans (if_neg hz))
  · have hrun := qbindAct_binds h hm ha hb
    rw [bindByte_eq] at hrun
    exact runCore_ok hrun
  · have hrun := migrateAct_goes h hm ha
    rw [if_neg (Nat.not_lt.2 hle), if_pos hstay] at hrun
    exact runCore_ok hrun
  · have hrun := migrateAct_goes h hm ha
    have hgo : ¬ (va.toNat = pid / 160 ∨ x.pinned = true) := by simp [hne, hp]
    rw [if_neg (Nat.not_lt.2 hle), if_neg hgo] at hrun
    exact runCore_ok hrun
  · exact runCore_traps h ((migrateAct_goes h hm ha).trans (if_pos hlt))

/-! ### Words that arrive (R122, R123) -/

section
variable {p : Platform} {c : Core} {e : EventArg}

/-- The first word on its way over a link goes into its queue where its capability is the key. -/
theorem linkArrivalAct_arrives {m : LinkMsg} (he : e.index = 0) (hm : c.linkMsgs[0]? = some m) (hcap : m.word.cap = (c.station m.pid).pkey) :
    linkArrivalAct e p c = .ok ((), wakeAll (.link m.pid m.east false) (({ c with linkMsgs := c.linkMsgs.tail } : Core).updStation m.pid
      fun z => z.setLinkIn m.east (z.linkIn m.east ++ [m.word]))) := by
  have hstation : ({ c with linkMsgs := c.linkMsgs.tail } : Core).station m.pid = c.station m.pid := rfl
  simp only [linkArrivalAct, act_bind, act_get, he, hm, List.take_zero, List.all_nil, require_true, act_onCore, List.eraseIdx_zero,
    hstation, if_pos hcap]

/-- The record of a resident strand is reached without memory (R38). -/
theorem reachRecord_settled {k : Key} {x : Strand} (h : Claims.Settled c k x) : reachRecord k p c = .ok ((), c) := by
  obtain ⟨-, -, hrec, hres, -⟩ := h
  have hmem : x.inMemory = false := by
    cases hplace : x.place <;> simp_all [Strand.resident, Strand.inMemory]
  simp [reachRecord, locate, locateFor, hrec, hmem]

/-- A word that enters a lane takes none from those on their way. -/
theorem pushLane_messages {k : Key} {high : Bool} {w : Word} {n : Note} : (pushLane k high w n c).messages = c.messages := by
  unfold pushLane wakeIf
  split
  · split <;> rfl
  · rfl

/-- The first word on its way to an inbox goes into its lane where its capability is the key. -/
theorem inboxPushAct_arrives {m : Message} {x : Strand} (he : e.index = 0) (hm : c.messages[0]? = some m)
    (hx : Claims.Settled c m.key x) (hcap : m.cap = (c.station x.station).pkey) : inboxPushAct e p c =
      .ok ((), { pushLane m.key m.high m.word .plain c with messages := (pushLane m.key m.high m.word .plain c).messages.tail }) := by
  have hlive : liveStrand c m.key = some x := liveStrand_some.2 ⟨hx.1, hx.2.1⟩
  simp only [inboxPushAct, act_bind, act_get, he, hm, List.take_zero, List.all_nil, require_true, hlive, reachRecord_settled hx,
    if_pos hcap, act_onCore, List.eraseIdx_zero]

/-- A word to a record that is not live is reported, and room in its lane is told (R123). -/
theorem inboxPushAct_drops {m : Message} (he : e.index = 0) (hm : c.messages[0]? = some m) (hx : liveStrand c m.key = none) :
    let d := wakeLane m.key m.high (supSend p ⟨home m.key.ctx / 160, 5, home m.key.ctx, m.key.job, m.sender.ctx,
      BitVec.ofNat 64 m.key.ctx, [m.word]⟩ c)
    inboxPushAct e p c = .ok ((), { d with messages := d.messages.tail }) := by
  intro d
  simp only [inboxPushAct, act_bind, act_get, he, hm, List.take_zero, List.all_nil, require_true, hx, sendEvent, act_read, act_onCore,
    List.eraseIdx_zero]
  rfl

end

/-- Settles O41: each arrival runs its act, and its act is given above. -/
theorem wordsArrive : Obligations.WordsArrive := by
  unfold Obligations.WordsArrive
  refine fun s e h he => ⟨fun m hm hcap => ?_, fun m x hm hx hcap => ?_, fun m hm hx => ?_⟩
  · refine (runEvent_ok h (linkArrivalAct_arrives he hm hcap)).trans ?_
    cases m.east <;> rfl
  · refine (runEvent_ok h (inboxPushAct_arrives he hm hx hcap)).trans ?_
    rw [pushLane_messages]
    rfl
  · exact runEvent_ok h (inboxPushAct_drops he hm hx)

end Sys2Proof.Machine
end

section
/-! SUPPORT. The traps that a program asks for (R145), into the handler (R138) or, in supervisor mode, into a park (R140). -/

namespace Sys2Proof.Machine

open Sys2Proof

section
variable {p : Platform} {c : Core} {pid slot : Nat} {k : Key} {w : IWord} {t : Option Tcw} {x : Strand}

/-- With nothing outstanding a trap is taken at once (R66). -/
theorem raiseTrap_drained (hx : c.strand? k = some x) (hn : x.ops = []) (cause code : Nat) (tval epc : Word) :
    raiseTrap p k cause code tval epc c = takeTrap p k cause code false tval epc 0 0 x.pc c := by
  simp only [raiseTrap, hx, hn, List.isEmpty_nil, if_true]

/-- A trap of a strand in supervisor mode parks it, and its die's supervisor is told (R140). -/
theorem takeTrap_double (hx : c.strand? k = some x) (hs : x.sup = true) (cause code : Nat) (multi : Bool) (tval epc opc : Word)
    (count : Nat) (addr : Word) : takeTrap p k cause code multi tval epc opc count addr c =
      supSend p ⟨dieOf x.station, 7, x.station, k.job, k.ctx, 0,
        [wordOf (cause + code * 256 + (if multi then 65536 else 0)), tval, addr]⟩
        (parkStrand p k .double (c.setStrand { x with trapPend := none })) := by
  simp only [takeTrap, hx, hs, if_true]

/-- `trap` and `brk` raise their trap as soon as lookahead lets them issue (R65). -/
theorem trapAct_traps (h : c.work = .strand pid slot k w t) (hx : c.strand? k = some x) (hm : MayIssue x [] false) (cause : Nat)
    (code : BitVec 8) : trapAct cause code p c = .error (.trap cause code.toNat 0 true) := by
  simp only [trapAct, act_bind, lookaheadCheck_ok h hx hm, act_stop]

end

/-- `trap` or `brk` with nothing outstanding takes its trap, whose return goes to the next instruction. -/
theorem runCore_trapAct {s : State} {pid : Nat} {k : Key} {w : IWord} {t : Option Tcw} {x : Strand} (h : InHand s pid k w t x)
    (hn : x.ops = []) (cause : Nat) (code : BitVec 8) : runCore (trapAct cause code) s =
      .next { s with core := takeTrap s.plat k cause code.toNat false 0 (x.pc + 4) 0 0 x.pc s.core } := by
  obtain ⟨⟨slot, hw⟩, hx⟩ := h
  rw [runCore_stop (trapAct_traps hw hx (.inl hn) cause code) hw fun _ => Stop.noConfusion]
  simp only [strandStop, hx, if_true, raiseTrap_drained hx hn]

/-- The cause of `trap` and of `brk`, which their meanings give to their common act. -/
theorem exec_softwareTrap (code : BitVec 8) (s : State) : ∀ e ∈ [(Instr.trap code, 0x0C), (.brk code, 0x0D)],
    exec e.1 s = runCore (trapAct e.2 code) s := by
  simp only [List.forall_mem_cons]
  exact ⟨rfl, rfl, List.forall_mem_nil _⟩

/-- The word of `k.cause` for one trap. -/
theorem causeWord (cause code : Nat) :
    wordOf (cause + code * 256 + (if false = true then 65536 else 0)) = BitVec.ofNat 64 (cause + 256 * code) := by
  rw [if_neg Bool.false_ne_true, Nat.add_zero, Nat.mul_comm, wordOf]

/-- Settles O20: either instruction takes its trap, which enters the handler in user mode and parks the strand in supervisor mode. -/
theorem softwareTrapsEnter : Obligations.SoftwareTrapsEnter := by
  unfold Obligations.SoftwareTrapsEnter
  refine ⟨fun s pid k w t x code h hs hn e he => ?user, fun s pid k w t x code h hs hn e he => ?sup⟩
  case user =>
    rw [exec_softwareTrap code s e he, runCore_trapAct h hn, takeTrap_user h.2 hs]
    simp only [Strand.trapEntry, causeWord]
    rfl
  case sup =>
    rw [exec_softwareTrap code s e he, runCore_trapAct h hn, takeTrap_double h.2 hs, causeWord]
    rfl

end Sys2Proof.Machine
end

section
/-! SUPPORT. The bytes and entries of a station's stash, which the write-back of another station's entries leaves as they are. -/

namespace Sys2Proof.Machine

open Sys2Proof

/-! ### What an attempt keeps -/

/-- An attempt that, where it ends, keeps what held of the core. -/
structure Keeps {α : Type} (I : Core → Prop) (a : Act α) : Prop where
  kept : ∀ p c v c', I c → a p c = .ok (v, c') → I c'

section
variable {α β : Type} {I : Core → Prop}

theorem Keeps.pure (v : α) : Keeps I (pure v : Act α) := by
  refine ⟨?_⟩
  rintro p c w c' hc ⟨⟩
  exact hc

theorem Keeps.stop (x : Stop) : Keeps I (stop x : Act α) := by
  refine ⟨?_⟩
  rintro p c w c' hc ⟨⟩

theorem Keeps.read : Keeps I (read : Act Platform) := by
  refine ⟨?_⟩
  rintro p c w c' hc ⟨⟩
  exact hc

theorem Keeps.set {d : Core} (hd : I d) : Keeps I (set d : Act PUnit) := by
  refine ⟨?_⟩
  rintro p c w c' hc ⟨⟩
  exact hd

theorem Keeps.onCore {f : Core → Core} (hf : ∀ c, I c → I (f c)) : Keeps I (onCore f) := by
  refine ⟨?_⟩
  rintro p c w c' hc ⟨⟩
  exact hf c hc

theorem Keeps.bind {a : Act α} {f : α → Act β} (ha : Keeps I a) (hf : ∀ v, Keeps I (f v)) : Keeps I (a >>= f) := by
  refine ⟨fun p c w c' hc hrun => ?_⟩
  rw [act_bind] at hrun
  cases he : a p c with
  | error e => simp [he] at hrun
  | ok r =>
    rw [he] at hrun
    exact (hf _).kept p _ _ _ (ha.kept p c _ _ hc he) hrun

/-- What follows a look at the core may rely on what it saw. -/
theorem Keeps.get {f : Core → Act β} (hf : ∀ c, I c → Keeps I (f c)) : Keeps I ((get : Act Core) >>= f) :=
  ⟨fun p c w c' hc hrun => (hf c hc).kept p c w c' hc hrun⟩

theorem Keeps.mapM {f : α → Act β} (hf : ∀ x, Keeps I (f x)) (l : List α) : Keeps I (l.mapM f) := by
  induction l with
  | nil => exact .pure _
  | cons x r ih =>
    rw [List.mapM_cons]
    exact .bind (hf x) fun _ => .bind ih fun _ => .pure _

theorem Keeps.forM {f : α → Act PUnit} (hf : ∀ x, Keeps I (f x)) (l : List α) : Keeps I (l.forM f) := by
  induction l with
  | nil => exact .pure _
  | cons x r ih => exact .bind (hf x) fun _ => ih

end

/-! ### Stations by number -/

theorem find_assocSet_same {α : Type} (l : List (Nat × α)) (k : Nat) (v : α) :
    (assocSet l k v).find? (fun e => e.1 == k) = some (k, v) := by
  induction l with
  | nil => simp [assocSet]
  | cons e r ih =>
    by_cases h : e.1 = k
    · simp [assocSet, h]
    · simp [assocSet, h, ih]

theorem find_assocSet_other {α : Type} (l : List (Nat × α)) {k q : Nat} (v : α) (h : q ≠ k) :
    (assocSet l k v).find? (fun e => e.1 == q) = l.find? fun e => e.1 == q := by
  induction l with
  | nil => simp [assocSet, Ne.symm h]
  | cons e r ih =>
    by_cases he : e.1 = k
    · simp [assocSet, he, Ne.symm h]
    · simp [assocSet, he, List.find?_cons, ih]

theorem station_updStation_same (c : Core) (pid : Nat) (f : Station → Station) : (c.updStation pid f).station pid = f (c.station pid) := by
  rw [Core.station, Core.updStation, Core.setStation, find_assocSet_same]

theorem station_updStation_other (c : Core) {pid q : Nat} (f : Station → Station) (h : q ≠ pid) :
    (c.updStation pid f).station q = c.station q := by
  rw [Core.station, Core.updStation, Core.setStation, find_assocSet_other _ _ h]
  rfl

/-! ### The stash of a station (R172, R173) -/

/-- The bytes and the entries of a station's stash. -/
def Core.shelf (c : Core) (q : Nat) : List Host.Cell × List StashEntry := ((c.station q).stash, (c.station q).entries)

section
variable {q : Nat}

theorem updStation_shelf (c : Core) {pid : Nat} (f : Station → Station) (h : q ≠ pid) : (c.updStation pid f).shelf q = c.shelf q := by
  rw [Core.shelf, station_updStation_other c f h, Core.shelf]

/-- Only the copies in L1 leave. -/
theorem dropCopies_shelf (but : Option Nat) (gone : L1Line → Bool) (c : Core) : (dropCopies but gone c).shelf q = c.shelf q := by
  unfold dropCopies
  split
  · simp only [Core.shelf, Core.station, List.find?_map]
    have hkey : ((fun e : Nat × Station => e.1 == q) ∘ fun e =>
        if some e.1 = but then e else (e.1, { e.2 with l1 := e.2.l1.filter fun x => !gone x })) = fun e => e.1 == q := by
      funext e
      simp only [Function.comp]
      split <;> rfl
    rw [hkey]
    cases c.stations.find? fun e => e.1 == q with
    | none => rfl
    | some e =>
      simp only [Option.map_some]
      split <;> rfl
  · rfl

theorem deviceWrite_shelf (c : Core) (pa n : Nat) (f : Mem → Mem) : (c.deviceWrite pa n f).shelf q = c.shelf q := by
  have hdrop := dropCopies_shelf (q := q) none (fun x => lineMeets pa n x.pline) { c with mem := f c.mem }
  unfold Core.deviceWrite wrotePhysical
  dsimp only
  split
  · exact hdrop
  · exact hdrop

theorem recordRelease_shelf (job va station ctx : Nat) (scope : Scope) (pin : Bool) (c : Core) :
    (recordRelease job va station ctx scope pin c).shelf q = c.shelf q := by
  unfold recordRelease
  cases pin <;> cases scope <;> rfl

theorem releasePhysical_shelf (pa station : Nat) (scope : Scope) (c : Core) :
    (releasePhysical pa station scope c).shelf q = c.shelf q := by
  refine (recordRelease_shelf ..).trans ?_
  exact List.foldlRecOn (motive := fun d : Core => d.shelf q = c.shelf q) _ _ rfl fun d hd l _ => (recordRelease_shelf ..).trans hd

theorem wakeAll_shelf (w : Wait) (c : Core) : (wakeAll w c).shelf q = c.shelf q := rfl

theorem supWrite_shelf (p : Platform) (e : SupEvent) (c : Core) : (supWrite p e c).shelf q = c.shelf q := by
  unfold supWrite
  dsimp only
  split
  · simp only [releasePhysical_shelf, deviceWrite_shelf]
  · simp only [wakeAll_shelf, releasePhysical_shelf, deviceWrite_shelf]

theorem supSend_shelf (p : Platform) (e : SupEvent) (c : Core) : (supSend p e c).shelf q = c.shelf q := by
  unfold supSend
  split
  · exact supWrite_shelf ..
  · dsimp only
    split
    · rfl
    · exact deviceWrite_shelf ..

theorem recordStore_shelf (p : Platform) (pt : Party) (k : Key) (off va size : Nat) (v : Word) (c : Core) :
    (recordStore p pt k off va size v c).shelf q = c.shelf q := by
  unfold recordStore
  split
  · rfl
  · split
    · rfl
    · exact supSend_shelf ..

theorem logLine_shelf (p : Platform) (l : L2Line) (c : Core) : (logLine p l c).shelf q = c.shelf q := by
  unfold logLine
  split
  · rfl
  · dsimp only
    split
    · rfl
    · split
      · rfl
      · exact deviceWrite_shelf ..

theorem leaveL2_shelf (p : Platform) (l : L2Line) (c : Core) : (leaveL2 p l c).shelf q = c.shelf q := by
  have hlog : (leftLog p l c).shelf q = c.shelf q := by
    unfold leftLog
    split
    · exact logLine_shelf p l c
    · rfl
  rw [leaveL2, ← leftLog]
  dsimp only
  split
  · exact hlog
  · refine Eq.trans ?_ hlog
    split <;> rfl

theorem tagLine_shelf (p : Platform) (pt : Party) (va pa : Nat) (c : Core) : (tagLine p pt va pa c).shelf q = c.shelf q := by
  have hlog (l : L2Line) : (logLine p l (noteOthers p pt va c)).shelf q = c.shelf q := logLine_shelf p l _
  have hlines (d : Core) (l : List L2Line) : ({ d with l2 := l } : Core).shelf q = d.shelf q := rfl
  unfold tagLine
  dsimp only
  refine (hlines ..).trans ?_
  split
  · exact hlog _
  · split
    · exact hlog _
    · rfl

theorem beforeWrite_shelf (p : Platform) (pt : Party) (va pa : Nat) (own : Option Nat) (c : Core) :
    (beforeWrite p pt va pa own c).shelf q = c.shelf q := (tagLine_shelf ..).trans (dropCopies_shelf ..)

theorem writeBackWord_shelf (p : Platform) (pt : Party) (s : Station) (e : StashEntry) (va : Nat) (at' : List Target)
    (x : Core × List Nat) (k : Nat) : (writeBackWord p pt s e va at' x k).1.shelf q = x.1.shelf q := by
  have hcell (pa : Nat) := beforeWrite_shelf (q := q) p pt (va + 8 * k) pa none x.1
  unfold writeBackWord
  dsimp only
  split
  · rfl
  · split
    · split
      · exact hcell _
      · split <;> exact hcell _
    · split
      · exact hcell _
      · split <;> exact hcell _
    · rfl
    · exact recordStore_shelf ..

/-! ### Reaching a line's home writes no stash -/

variable {h : List Host.Cell × List StashEntry}

theorem makePlace_shelf (va : Nat) : Keeps (Core.shelf · q = h) (makePlace va) := by
  refine .bind .read fun p => .get fun c hc => ?_
  split
  · exact .pure _
  · split
    · exact .bind (.set ((leaveL2_shelf ..).trans hc)) fun _ => .pure _
    · exact .pure _

theorem useDeviceLine_shelf (pa : Nat) : Keeps (Core.shelf · q = h) (useDeviceLine pa) := by
  refine .get fun c _ => ?_
  split
  · exact .onCore fun _ => id
  · refine .bind .read fun p => ?_
    split
    · exact .pure _
    · exact .bind (makePlace_shelf pa) fun _ => .onCore fun _ => id

theorem readEntry_shelf (die job : Nat) (directory : Bool) (index addr : Nat) :
    Keeps (Core.shelf · q = h) (readEntry die job directory index addr) := by
  refine .get fun c _ => ?_
  split
  · exact .pure _
  · exact .bind (useDeviceLine_shelf addr) fun _ => .onCore fun _ => id

theorem translateVa_shelf (job va : Nat) : Keeps (Core.shelf · q = h) (translateVa job va) := by
  refine .bind .read fun p => .get fun c _ => ?_
  split
  · exact .pure _
  · refine .get fun c _ => .bind (readEntry_shelf ..) fun _ => .get fun c _ => ?_
    dsimp only
    split
    · exact .bind (readEntry_shelf ..) fun _ => .get fun c _ => .pure _
    · exact .get fun c _ => .pure _

theorem reachLine_shelf (job va : Nat) (fault : Nat × Nat × Nat) : Keeps (Core.shelf · q = h) (reachLine job va fault) := by
  refine .get fun c _ => ?_
  split
  · exact .bind (.onCore fun _ => id) fun _ => .pure _
  · refine .bind (translateVa_shelf job va) fun m => ?_
    split
    · exact .stop _
    · split
      · exact .pure _
      · refine .bind .read fun p => ?_
        split
        · exact .pure _
        · exact .bind (makePlace_shelf va) fun _ => .bind (.onCore fun _ => id) fun _ => .pure _

theorem locateFor_shelf (job va : Nat) (fault : Nat × Nat × Nat) : Keeps (Core.shelf · q = h) (locateFor job va fault) := by
  refine .get fun c _ => ?_
  split
  · dsimp only
    split
    · exact .bind (reachLine_shelf ..) fun _ => .pure _
    · exact .pure _
  · split
    · exact .pure _
    · refine .bind (reachLine_shelf ..) fun t => ?_
      split
      · exact .bind .read fun p => .get fun c _ => .pure _
      all_goals exact .pure _

theorem pinCheck_shelf (pt : Party) (va : Nat) (pin : Bool) : Keeps (Core.shelf · q = h) (pinCheck pt va pin) := by
  refine .get fun c _ => ?_
  split
  · exact .stop _
  · exact .pure _

theorem blockLines_shelf (pt : Party) (va : Nat) (fault : Nat → Nat × Nat × Nat) :
    Keeps (Core.shelf · q = h) (blockLines pt va fault) := by
  refine .mapM (fun k => .bind (locateFor_shelf ..) fun t => ?_) _
  dsimp only
  split
  · exact .bind (pinCheck_shelf ..) fun _ => .pure _
  all_goals exact .pure _

theorem needLanded_shelf (pid i : Nat) : Keeps (Core.shelf · q = h) (needLanded pid i) := by
  refine .get fun c _ => ?_
  split
  · exact .stop _
  · exact .pure _

/-! ### Write-back and eviction write no stash but the station's own (R177) -/

variable {pid : Nat}

theorem writeBackEntry_shelf (hq : q ≠ pid) (e : StashEntry) : Keeps (Core.shelf · q = h) (writeBackEntry pid e) := by
  unfold writeBackEntry
  split
  · exact .pure _
  · split
    · exact .pure _
    · refine .bind (blockLines_shelf ..) fun lines => .bind .read fun p => .get fun c hc => .bind (.set ?_) fun _ => .pure _
      refine (updStation_shelf _ _ hq).trans ?_
      exact List.foldlRecOn (motive := fun x : Core × List Nat => x.1.shelf q = h) _ _ hc fun x hx k _ =>
        (writeBackWord_shelf ..).trans hx

theorem unmapEntry_shelf (hq : q ≠ pid) (e : StashEntry) : Keeps (Core.shelf · q = h) (unmapEntry pid e) := by
  refine .bind (needLanded_shelf ..) fun _ => ?_
  split
  · exact .pure _
  · exact .bind (writeBackEntry_shelf hq e) fun _ => .bind (.onCore fun _ hc => (updStation_shelf _ _ hq).trans hc) fun _ => .pure _

theorem evictStation_shelf (hq : q ≠ pid) : Keeps (Core.shelf · q = h) (evictStation pid) :=
  .get fun _ _ => .forM (fun e => .bind (unmapEntry_shelf hq e) fun _ => .pure _) _

end

end Sys2Proof.Machine
end

section
/-! SUPPORT. Jobs as they begin and end (R136, R137, R173), held supervisor events (R141), and lines that leave L2 (R379). -/

namespace Sys2Proof.Machine

open Sys2Proof

/-! ### A job begins (R136, R137, R173) -/

/-- A station as a job finds it: what was mapped there is written back, as far as it can be, and its entries are SCRATCH. -/
def freeStation (pid : Nat) : Act Unit := do
  let _ ← attempt (evictStation pid)
  onCore (clearStash pid)

theorem startStations_eq (job : Nat) (p : Platform) (c : Core) : startStations job p c =
    (((c.stations.map (·.1)).filter fun pid => (logicalOf p c job pid).isSome).forM freeStation) p c := rfl

theorem clearStash_shelf_same (pid : Nat) (c : Core) : (clearStash pid c).shelf pid = ([], []) := by
  rw [Core.shelf, clearStash, station_updStation_same]

theorem clearStash_shelf_other {pid q : Nat} (h : q ≠ pid) (c : Core) : (clearStash pid c).shelf q = c.shelf q := updStation_shelf c _ h

/-- A station is always freed, and every other one keeps its stash. -/
theorem freeStation_frees (pid : Nat) (p : Platform) (c : Core) : ∃ d, freeStation pid p c = .ok ((), d) ∧ d.shelf pid = ([], []) ∧
    ∀ q ≠ pid, d.shelf q = c.shelf q := by
  obtain ⟨r, c1, hrun⟩ := attempt_ok (evictStation pid) p c
  refine ⟨clearStash pid c1, by simp only [freeStation, act_bind, hrun, act_onCore], clearStash_shelf_same pid c1, fun q hq => ?_⟩
  rw [clearStash_shelf_other hq]
  rw [act_attempt] at hrun
  cases he : evictStation pid p c with
  | ok v =>
    rw [he] at hrun
    cases hrun
    exact (evictStation_shelf hq).kept p c _ _ rfl he
  | error e =>
    rw [he] at hrun
    cases hrun
    rfl

/-- Once freed, a station's stash stays empty while others are freed. -/
theorem forM_freeStation_frees (l : List Nat) (p : Platform) (c : Core) : ∃ d, l.forM freeStation p c = .ok ((), d) ∧
    ∀ q, (q ∈ l ∨ c.shelf q = ([], [])) → d.shelf q = ([], []) := by
  induction l generalizing c with
  | nil => exact ⟨c, rfl, fun q hq => hq.resolve_left List.not_mem_nil⟩
  | cons pid r ih =>
    obtain ⟨c1, hrun, hsame, hother⟩ := freeStation_frees pid p c
    obtain ⟨d, hrest, hfreed⟩ := ih c1
    refine ⟨d, ?_, fun q hq => hfreed q ?_⟩
    · show (freeStation pid >>= fun _ => r.forM freeStation) p c = _
      rw [act_bind, hrun]
      exact hrest
    · by_cases he : q = pid
      · exact .inr (he ▸ hsame)
      · rw [hother q he]
        exact hq.imp_left fun hmem => (List.mem_cons.1 hmem).resolve_left he

/-- No entry of any station is mapped. -/
def Core.Unmapped (c : Core) : Prop := ∀ z ∈ c.stations, ∀ y ∈ z.2.entries, y.mapped = none

theorem mem_assocSet {α : Type} {l : List (Nat × α)} {k : Nat} {v : α} {e : Nat × α} (h : e ∈ assocSet l k v) : e ∈ l ∨ e = (k, v) := by
  induction l with
  | nil => exact .inr (List.mem_singleton.1 h)
  | cons x r ih =>
    rw [assocSet] at h
    split at h
    · exact (List.mem_cons.1 h).symm.imp_left (List.mem_cons_of_mem x)
    · rcases List.mem_cons.1 h with rfl | hr
      · exact .inl List.mem_cons_self
      · exact (ih hr).imp_left (List.mem_cons_of_mem x)

theorem clearStash_unmapped {c : Core} (h : c.Unmapped) (pid : Nat) : (clearStash pid c).Unmapped := by
  intro z hz
  rcases mem_assocSet hz with hz | rfl
  · exact h z hz
  · exact fun y hy => absurd hy List.not_mem_nil

/-- Where nothing is mapped, nothing has to be written back. -/
theorem evictStation_unmapped {c : Core} (h : c.Unmapped) (pid : Nat) (p : Platform) : evictStation pid p c = .ok ((), c) := by
  have hnone : ((c.station pid).entries.filter fun e => e.mapped.isSome) = [] := by
    refine List.filter_eq_nil_iff.2 fun y hy => ?_
    unfold Core.station at hy
    split at hy
    · rename_i hf
      simp [h _ (List.mem_of_find?_eq_some hf) y hy]
    · exact absurd hy List.not_mem_nil
  simp only [evictStation, act_bind, act_get, hnone]
  rfl

theorem freeStation_unmapped {c : Core} (h : c.Unmapped) (pid : Nat) (p : Platform) :
    freeStation pid p c = .ok ((), clearStash pid c) := by
  simp only [freeStation, act_bind, act_attempt, evictStation_unmapped h, act_onCore]

/-- Where nothing is mapped, freeing stations changes nothing but stations. -/
theorem forM_freeStation_unmapped (l : List Nat) (p : Platform) {c : Core} (h : c.Unmapped) :
    ∃ z, l.forM freeStation p c = .ok ((), { c with stations := z }) := by
  induction l generalizing c with
  | nil => exact ⟨_, rfl⟩
  | cons pid r ih =>
    obtain ⟨z, hz⟩ := ih (clearStash_unmapped h pid)
    refine ⟨z, ?_⟩
    show (freeStation pid >>= fun _ => r.forM freeStation) p c = _
    rw [act_bind, freeStation_unmapped h]
    exact hz

theorem initRecord_shelf (p : Platform) (job q : Nat) (c : Core) : (initRecord p job c).shelf q = c.shelf q := by
  simp only [initRecord, deviceWrite_shelf]

theorem initRecord_strands (p : Platform) (job : Nat) (c : Core) : (initRecord p job c).strands = c.strands := by
  simp only [initRecord, deviceWrite_strands]

theorem initRecord_mem (p : Platform) (job : Nat) (c : Core) : (initRecord p job c).mem =
    (c.mem.write (jobRecord p c job + 0x28) 8 (c.mem.read (jobRecord p c job + 0x4C) 4)).setBytes (jobRecord p c job + 0x800)
      (List.replicate 5120 0) := by
  simp only [initRecord, deviceWrite_mem]

/-- The job taken once its stations are free. -/
def jobTaken (p : Platform) (job : Nat) (c : Core) : Core :=
  { initRecord p job c with jobs := job :: c.jobs, cancelled := c.cancelled.filter fun j => j != job }

theorem jobCreateAct_takes {e : EventArg} {p : Platform} {c d : Core} (hl : jobLive p c e.job = true) (hj : e.job ∉ c.jobs)
    (hs : startStations e.job p c = .ok ((), d)) : jobCreateAct e p c = .ok ((), jobTaken p e.job d) := by
  simp only [jobCreateAct, takeJob, act_bind, act_read, act_get, hl, List.contains_eq_mem, hj, decide_false, Bool.not_false,
    Bool.and_self, require_true, hs, act_onCore, jobTaken]

/-- Where nothing is mapped, a job begins with the changes of its record alone. -/
theorem jobTaken_unmapped (p : Platform) (job : Nat) (c : Core) (z : List (Nat × Station)) :
    let d := jobTaken p job { c with stations := z }
    d.jobs = job :: c.jobs ∧ d.strands = c.strands ∧ d.mem.full = c.mem.full ∧
      d.mem = (c.mem.write (jobRecord p c job + 0x28) 8 (c.mem.read (jobRecord p c job + 0x4C) 4)).setBytes (jobRecord p c job + 0x800)
        (List.replicate 5120 0) := by
  have hmem := initRecord_mem p job { c with stations := z }
  refine ⟨rfl, initRecord_strands .., ?_, hmem⟩
  show (initRecord p job { c with stations := z }).mem.full = _
  rw [hmem]
  exact (Mem.setBytes_bits ..).1.trans (Mem.setBytes_bits ..).1

/-- JOB_CREATE takes the job, and the stations of its map are SCRATCH and zero. -/
theorem jobCreateAct_creates {e : EventArg} {p : Platform} {c : Core} (hl : jobLive p c e.job = true) (hj : e.job ∉ c.jobs) :
    ∃ d, jobCreateAct e p c = .ok ((), jobTaken p e.job d) ∧
      (∀ z ∈ c.stations, (logicalOf p c e.job z.1).isSome = true → d.shelf z.1 = ([], [])) ∧
      (c.Unmapped → ∃ z, d = { c with stations := z }) := by
  obtain ⟨d, hrun, hfreed⟩ :=
    forM_freeStation_frees ((c.stations.map (·.1)).filter fun pid => (logicalOf p c e.job pid).isSome) p c
  refine ⟨d, jobCreateAct_takes hl hj hrun, fun z hz hlog => hfreed z.1 (.inl (List.mem_filter.2 ⟨List.mem_map_of_mem hz, hlog⟩)),
    fun hun => ?_⟩
  obtain ⟨z, hz⟩ := forM_freeStation_unmapped ((c.stations.map (·.1)).filter fun pid => (logicalOf p c e.job pid).isSome) p hun
  exact ⟨z, congrArg Prod.snd (Except.ok.inj (hrun.symm.trans hz))⟩

/-! ### A job ends (R137) -/

theorem dropCopies_is (but : Option Nat) (gone : L1Line → Bool) (c : Core) : ∃ z, dropCopies but gone c = { c with stations := z } := by
  unfold dropCopies
  split
  · exact ⟨_, rfl⟩
  · exact ⟨_, rfl⟩

/-- No copy that meets the condition is left in any L1. -/
theorem dropCopies_l1 (gone : L1Line → Bool) (c : Core) : ∀ z ∈ (dropCopies none gone c).stations, ∀ l ∈ z.2.l1, gone l = false := by
  intro z hz l hl
  unfold dropCopies at hz
  split at hz
  · obtain ⟨e, -, rfl⟩ := List.mem_map.1 hz
    rw [if_neg (by simp)] at hl
    simpa using (List.mem_filter.1 hl).2
  · rename_i hany
    rw [← Bool.not_eq_true]
    exact fun hg => hany (List.any_eq_true.2 ⟨z, hz, List.any_eq_true.2 ⟨l, hl, hg⟩⟩)

/-- What is kept of a list where what meets a condition is dropped does not meet it. -/
theorem of_mem_dropped {α : Type} {l : List α} {f : α → Nat} {job : Nat} : ∀ x ∈ l.filter (fun x => f x != job), f x ≠ job :=
  fun _ hx => bne_iff_ne.1 (List.mem_filter.1 hx).2

/-- The package holds nothing more for a job that it has dropped. -/
theorem dropJob_drops (job : Nat) (c : Core) :
    let d := dropJob job c
    job ∉ d.jobs ∧ (∀ r ∈ d.scopes, r.job ≠ job) ∧ (∀ h ∈ d.pins, h.job ≠ job) ∧ (∀ k ∈ d.joinCells, k.job ≠ job) ∧
      d.groups = c.groups ∧ (∀ l ∈ d.l2, l.job ≠ job) ∧ (∀ t ∈ d.tlb, t.job ≠ job) ∧ (∀ b ∈ d.bindings, b.job ≠ job) ∧
      (∀ r ∈ d.members, r.key.job ≠ job) ∧ ∀ z ∈ d.stations, ∀ l ∈ z.2.l1, l.job ≠ job := by
  intro d
  have hl1 : ∀ z ∈ d.stations, ∀ l ∈ z.2.l1, l.job ≠ job := fun z hz l hl => by
    simpa using dropCopies_l1 (fun x => x.job == job) _ z hz l hl
  obtain ⟨z, hz⟩ := dropCopies_is none (fun x => x.job == job) _
  have hd : d = _ := hz
  clear_value d
  subst hd
  exact ⟨fun hj => of_mem_dropped (f := id) _ hj rfl, of_mem_dropped, of_mem_dropped, of_mem_dropped, rfl, of_mem_dropped,
    of_mem_dropped, of_mem_dropped, of_mem_dropped (f := fun r : LinRun => r.key.job), hl1⟩

theorem freeGroups_groups (p : Platform) (job : Nat) (c : Core) : ∀ k ∈ (freeGroups p job c).groups, k.job ≠ job :=
  of_mem_dropped

theorem jobEndAct_ends {e : EventArg} {p : Platform} {c : Core} (hl : jobLive p c e.job = false) (hj : e.job ∈ c.jobs) :
    jobEndAct e p c = .ok ((), dropJob e.job (freeGroups p e.job c)) := by
  simp only [jobEndAct, act_bind, act_read, act_get, hl, List.contains_eq_mem, hj, decide_true, Bool.not_false, Bool.and_self,
    require_true, act_onCore]

/-! ### A held supervisor event (R141) -/

/-- The first held event of a die is written where its ring has room. -/
theorem supqHeldAct_writes {e : EventArg} {p : Platform} {c : Core} {i : Nat} {x : SupEvent}
    (hf : c.held.findIdx? (fun x => x.die == e.unit) = some i) (hx : c.held[i]? = some x) (hr : supRoom p c e.unit = true) :
    let d := supWrite p x { c with held := c.held.eraseIdx i }
    supqHeldAct e p c = .ok ((), d.deviceWrite (supHeader p e.unit + 0x28) 8 fun m =>
      m.write (supHeader p e.unit + 0x28) 8 (d.held.filter fun y => y.die == e.unit).length) := by
  simp only [supqHeldAct, act_bind, act_read, act_get, hf, hx, hr, require_true, act_onCore]

/-! ### Lines that leave L2 (R379) -/

theorem L2Line.wants_eq (l : L2Line) :
    (fun m : L2Line => m.wants l) = fun m => m.place.any (fun t => decide (l.used < t)) && sharesSet m.vline l.vline := by
  funext m
  unfold L2Line.wants
  cases m.place <;> rfl

/-- The least recently used line of a set leaves for one that the slice has taken since its last use. -/
theorem lineEvictionAct_evicts {e : EventArg} {p : Platform} {c : Core} {l m : L2Line} (hl : c.l2[e.index]? = some l)
    (hm : c.l2.find? (fun m => m.wants l) = some m) (hleast : leastUsed c l.vline = some l) : lineEvictionAct e p c =
      .ok ((), leaveL2 p l { c with l2 := c.l2.map fun x => if x = m then { x with place := none } else x }) := by
  simp only [lineEvictionAct, act_bind, act_read, act_get, hl, hm, hleast, beq_self_eq_true, require_true, act_onCore]

/-- A line that none of its set has come after, and one that is not its set's least recently used, stays. -/
theorem lineEvictionAct_stays {e : EventArg} {p : Platform} {c : Core} {l : L2Line} (hl : c.l2[e.index]? = some l)
    (h : c.l2.find? (fun m => m.wants l) = none ∨ leastUsed c l.vline ≠ some l) :
    lineEvictionAct e p c = .error (.hold .none) := by
  simp only [lineEvictionAct, act_bind, act_read, act_get, hl]
  cases hm : c.l2.find? fun m => m.wants l with
  | none => rfl
  | some m =>
    have hleast : (leastUsed c l.vline == some l) = false := beq_false_of_ne (h.resolve_left (by simp [hm]))
    simp only [act_bind, hleast, require_false]

/-- No line of L2 has the name of one that has left. -/
theorem leaveL2_gone (p : Platform) (l : L2Line) (c : Core) : ∀ x ∈ (leaveL2 p l c).l2, ¬ (x.job = l.job ∧ x.vline = l.vline) := by
  rintro x hx ⟨hjob, hline⟩
  rw [leaveL2, ← leftLog] at hx
  dsimp only at hx
  split at hx <;> simp [hjob, hline] at hx

/-- A line without poison has no word poisoned, so not all of its words. -/
theorem hbmPoison_clean {c : Core} {l : L2Line} (hd : l.dirty = false) (hp : c.mem.linePoison (64 * l.pline) = false)
    (ho : l.oldPoison = 0) : hbmPoison c l = false := by
  have hbase : 64 * l.pline / 64 * 64 = l.pline * 64 := by omega
  have hfirst := List.any_eq_false.1 hp 0 (by decide)
  rw [hbase] at hfirst
  have hall : ((List.range 8).all fun k => c.mem.isPoison (l.pline * 64 + 8 * k)) = false :=
    List.all_eq_false.2 ⟨0, by decide, hfirst⟩
  simp [hbmPoison, hd, hall, ho]

/-- A clean line without poison leaves memory as it is. -/
theorem leaveL2_clean (p : Platform) {c : Core} {l : L2Line} (hd : l.dirty = false) (hp : c.mem.linePoison (64 * l.pline) = false)
    (ho : l.oldPoison = 0) : (leaveL2 p l c).mem = c.mem := by
  have hp' : c.mem.linePoison (l.pline * 64) = false := by rwa [Nat.mul_comm]
  simp only [leaveL2, hd, hbmPoison_clean hd hp ho, hp', Bool.false_eq_true, if_false, Bool.or_self, Bool.false_and]
  split <;> rfl

/-- The less recently used of a line found so far and the next one: one turn of `leastUsed`. -/
def lesserUsed (b : Option L2Line) (l : L2Line) : Option L2Line :=
  match b with
  | none => some l
  | some x => if l.used < x.used then some l else some x

theorem leastUsed_eq (c : Core) (v : Nat) :
    leastUsed c v = (c.l2.filter fun l => sharesSet l.vline v && mayLeave c l).foldl lesserUsed none := rfl

/-- A turn gives one of the two lines, and neither was used less recently. -/
theorem lesserUsed_least (b : Option L2Line) (l : L2Line) : ∃ x, lesserUsed b l = some x ∧ (x = l ∨ b = some x) ∧
    x.used ≤ l.used ∧ ∀ y, b = some y → x.used ≤ y.used := by
  cases b with
  | none => exact ⟨l, rfl, .inl rfl, Nat.le_refl _, fun _ hy => nomatch hy⟩
  | some z =>
    by_cases h : l.used < z.used
    · exact ⟨l, if_pos h, .inl rfl, Nat.le_refl _, fun _ hy => Option.some.inj hy ▸ Nat.le_of_lt h⟩
    · exact ⟨z, if_neg h, .inr rfl, Nat.le_of_not_lt h, fun _ hy => Option.some.inj hy ▸ Nat.le_refl _⟩

/-- The line found is one of those searched, and none of them was used less recently. -/
theorem foldl_lesserUsed_least {r : List L2Line} {b : Option L2Line} {x : L2Line} (h : r.foldl lesserUsed b = some x) :
    (x ∈ r ∨ b = some x) ∧ (∀ y ∈ r, x.used ≤ y.used) ∧ ∀ y, b = some y → x.used ≤ y.used := by
  induction r generalizing b with
  | nil => exact ⟨.inr h, fun _ hy => absurd hy List.not_mem_nil, fun _ hy => Option.some.inj (h.symm.trans hy) ▸ Nat.le_refl _⟩
  | cons l r ih =>
    obtain ⟨z, hz, hone, hl, hb⟩ := lesserUsed_least b l
    obtain ⟨hmem, hrest, hx⟩ := ih h
    have hxz : x.used ≤ z.used := hx z hz
    refine ⟨?_, fun y hy => ?_, fun y hy => Nat.le_trans hxz (hb y hy)⟩
    · rcases hmem with hmem | hfound
      · exact .inl (List.mem_cons_of_mem l hmem)
      · obtain rfl : z = x := Option.some.inj (hz.symm.trans hfound)
        exact hone.imp_left fun he => List.mem_cons.2 (.inl he)
    · rcases List.mem_cons.1 hy with rfl | hy
      · exact Nat.le_trans hxz hl
      · exact hrest y hy

theorem mayLeave_iff {c : Core} {l : L2Line} :
    mayLeave c l = true ↔ blockOwned c l.job (l.vline / 4 * 256) = false ∧ (l.job, l.vline) ∉ c.fetched := by
  simp [mayLeave]

/-- The line that is to leave is one of those that may leave the set, and none of them was used less recently. -/
theorem leastUsed_least {c : Core} {v : Nat} {l : L2Line} (h : leastUsed c v = some l) :
    l ∈ c.l2 ∧ sharesSet l.vline v = true ∧ mayLeave c l = true ∧
      ∀ x ∈ c.l2, sharesSet x.vline v = true → mayLeave c x = true → l.used ≤ x.used := by
  rw [leastUsed_eq] at h
  obtain ⟨hfound, hle, -⟩ := foldl_lesserUsed_least h
  obtain ⟨hmem, hmay⟩ := List.mem_filter.1 (hfound.resolve_right fun hnone => nomatch hnone)
  obtain ⟨hset, hmay⟩ := (Bool.and_eq_true ..).mp hmay
  refine ⟨hmem, hset, hmay, fun x hx hs hm => hle x (List.mem_filter.2 ⟨hx, ?_⟩)⟩
  rw [hs, hm, Bool.and_self]

/-! ### The events -/

/-- Settles O48: each event runs its act, and its act is given above. -/
theorem jobsBeginAndEnd : Obligations.JobsBeginAndEnd := by
  unfold Obligations.JobsBeginAndEnd
  intro s e h
  refine ⟨fun hl hj => ?create, fun hl hj => ?ends, fun i x hf hx hr => runEvent_ok h (supqHeldAct_writes hf hx hr),
    fun l hl => ⟨fun m hm hleast => ?leaves, fun hstays => ?stays⟩, fun c v l hl => ?least⟩
  case create =>
    obtain ⟨d, hrun, hfreed, hunmapped⟩ := jobCreateAct_creates hl hj
    refine ⟨_, runEvent_ok h hrun, rfl, List.mem_cons_self, fun hc => of_mem_dropped (f := id) _ hc rfl, fun z hz hlog => ?_,
      fun hun => ?_⟩
    · have hshelf : (jobTaken s.plat e.job d).shelf z.1 = ([], []) := (initRecord_shelf ..).trans (hfreed z hz hlog)
      exact Prod.mk.inj hshelf
    · obtain ⟨z, rfl⟩ := hunmapped hun
      exact jobTaken_unmapped s.plat e.job s.core z
  case ends =>
    obtain ⟨hjobs, hscopes, hpins, hcells, hgroups, hrest⟩ := dropJob_drops e.job (freeGroups s.plat e.job s.core)
    refine ⟨_, runEvent_ok h (jobEndAct_ends hl hj), rfl, hjobs, hscopes, hpins, hcells, ?_, hrest⟩
    rw [hgroups]
    exact freeGroups_groups s.plat e.job s.core
  case leaves =>
    rw [← L2Line.wants_eq] at hm
    exact ⟨runEvent_ok h (lineEvictionAct_evicts hl hm hleast), leaveL2_gone s.plat l _, fun hd hp ho => leaveL2_clean s.plat hd hp ho⟩
  case stays =>
    refine runEvent_notYet h (lineEvictionAct_stays hl (hstays.imp_left fun hnone => ?_))
    rw [L2Line.wants_eq, List.find?_eq_none]
    intro m hm
    cases hp : m.place with
    | none => simp
    | some t =>
      by_cases ht : l.used < t
      · simp [ht, hnone m hm t hp ht]
      · simp [ht]
  case least =>
    obtain ⟨hmem, hset, hmay, hle⟩ := leastUsed_least hl
    obtain ⟨howned, hfetched⟩ := mayLeave_iff.1 hmay
    exact ⟨hmem, hset, howned, hfetched, hle⟩

end Sys2Proof.Machine
end

section
/-! SUPPORT. Where strands stand in program order (R65): no access of memory moves the turn in hand or a strand, and so neither does any
operation on the lineage, which reads and writes the records of its job's table through memory (R225 to R228). -/

namespace Sys2Proof.Machine

open Sys2Proof

/-! ### The turn in hand and the strands' places in program order -/

/-- A strand's name, its place in program order, and the access that it has still to perform. -/
def Strand.standing (x : Strand) : Key × Nat × Option Dropped := (x.key, x.issues, x.dropped)

/-- Whose turn is in hand, and where each strand stands. -/
def Core.standing (c : Core) : Work × List (Key × Nat × Option Dropped) := (c.work, c.strands.map Strand.standing)

theorem Core.standing_eq {c d : Core} (hw : d.work = c.work) (hs : d.strands = c.strands) : d.standing = c.standing := by
  rw [standing, hw, hs, standing]

theorem Core.work_of_standing {c d : Core} (h : d.standing = c.standing) : d.work = c.work := congrArg Prod.fst h

theorem strand_standing (c : Core) (k : Key) :
    (c.strand? k).map Strand.standing = (c.strands.map Strand.standing).find? fun y => y.1 == k := by
  rw [List.find?_map]
  rfl

/-- A strand stands where it stood in a core that keeps where strands stand. -/
theorem strand_of_standing {c d : Core} {k : Key} {x : Strand} (h : d.standing = c.standing) (hx : c.strand? k = some x) :
    ∃ y, d.strand? k = some y ∧ y.standing = x.standing := by
  have hstrands : d.strands.map Strand.standing = c.strands.map Strand.standing := congrArg Prod.snd h
  have hfind : (d.strand? k).map Strand.standing = some x.standing := by
    rw [strand_standing, hstrands, ← strand_standing, hx, Option.map_some]
  exact Option.map_eq_some_iff.1 hfind

/-- A change of strands that moves none of them. -/
theorem map_strands_standing (l : List Strand) {f : Strand → Strand} (hf : ∀ y, (f y).standing = y.standing) :
    (l.map f).map Strand.standing = l.map Strand.standing := by
  rw [List.map_map]
  exact List.map_congr_left fun y _ => hf y

theorem updStrand_standing (c : Core) (k : Key) {f : Strand → Strand} (hf : ∀ y, (f y).standing = y.standing) :
    (c.updStrand k f).standing = c.standing :=
  congrArg (Prod.mk c.work) (map_strands_standing c.strands fun y => by split <;> simp [hf])

/-! ### Changes of the core -/

theorem logLine_standing (p : Platform) (l : L2Line) (c : Core) : (logLine p l c).standing = c.standing := by
  unfold logLine
  split
  · rfl
  · dsimp only
    split
    · rfl
    · split
      · rfl
      · exact Core.standing_eq (deviceWrite_work ..) (deviceWrite_strands ..)

theorem poisonRecords_standing (p : Platform) (pline : Nat) (c : Core) : (poisonRecords p pline c).standing = c.standing :=
  congrArg (Prod.mk c.work) (map_strands_standing c.strands fun y => by split <;> rfl)

theorem leaveL2_standing (p : Platform) (l : L2Line) (c : Core) : (leaveL2 p l c).standing = c.standing := by
  have hlog : (leftLog p l c).standing = c.standing := by
    unfold leftLog
    split
    · exact logLine_standing p l c
    · rfl
  have hmem (d : Core) (m : Mem) (l : List L2Line) : ({ d with mem := m, l2 := l } : Core).standing = d.standing := rfl
  rw [leaveL2, ← leftLog]
  dsimp only
  split
  · exact hlog
  · refine (hmem ..).trans (Eq.trans ?_ hlog)
    split
    · exact poisonRecords_standing ..
    · rfl

theorem tagLine_standing (p : Platform) (pt : Party) (va pa : Nat) (c : Core) : (tagLine p pt va pa c).standing = c.standing := by
  have hlog (l : L2Line) : (logLine p l (noteOthers p pt va c)).standing = c.standing := logLine_standing p l _
  have hlines (d : Core) (l : List L2Line) : ({ d with l2 := l } : Core).standing = d.standing := rfl
  unfold tagLine
  dsimp only
  refine (hlines ..).trans ?_
  split
  · exact hlog _
  · split
    · exact hlog _
    · rfl

theorem beforeWrite_standing (p : Platform) (pt : Party) (va pa : Nat) (own : Option Nat) (c : Core) :
    (beforeWrite p pt va pa own c).standing = c.standing :=
  (tagLine_standing ..).trans (Core.standing_eq (dropCopies_work ..) (dropCopies_strands ..))

/-- A store to a live record writes a register's value at most. -/
theorem recordStore_standing (p : Platform) (pt : Party) (k : Key) (off va size : Nat) (v : Word) (c : Core) :
    (recordStore p pt k off va size v c).standing = c.standing := by
  unfold recordStore
  split
  · rfl
  · split
    · exact updStrand_standing _ _ fun _ => rfl
    · exact Core.standing_eq (supSend_work ..) (supSend_strands ..)

theorem writeBackWord_standing (p : Platform) (pt : Party) (s : Station) (e : StashEntry) (va : Nat) (at' : List Target)
    (x : Core × List Nat) (k : Nat) : (writeBackWord p pt s e va at' x k).1.standing = x.1.standing := by
  have hcell (pa : Nat) := beforeWrite_standing p pt (va + 8 * k) pa none x.1
  unfold writeBackWord
  dsimp only
  split
  · rfl
  · split
    · split
      · exact hcell _
      · split <;> exact hcell _
    · split
      · exact hcell _
      · split <;> exact hcell _
    · rfl
    · exact recordStore_standing ..

/-! ### Attempts that move no strand -/

theorem Keeps.look {α : Type} {I : Core → Prop} (f : Platform → Core → α) : Keeps I (look f) := by
  refine ⟨?_⟩
  rintro p c w c' hc ⟨⟩
  exact hc

/-- An attempt that, where it ends, leaves the turn in hand and where strands stand. -/
abbrev KeepsStanding {α : Type} (h : Work × List (Key × Nat × Option Dropped)) (a : Act α) : Prop := Keeps (Core.standing · = h) a

section
variable {h : Work × List (Key × Nat × Option Dropped)}

/-- A change of the core that moves no strand. -/
theorem keepsStanding_onCore {f : Core → Core} (hf : ∀ c, (f c).standing = c.standing) : KeepsStanding h (onCore f) :=
  .onCore fun c hc => (hf c).trans hc

/-! ### The home of a line (R150, R379) -/

theorem makePlace_standing (va : Nat) : KeepsStanding h (makePlace va) := by
  refine .bind .read fun p => .get fun c hc => ?_
  split
  · exact .pure _
  · split
    · exact .bind (.set ((leaveL2_standing ..).trans hc)) fun _ => .pure _
    · exact .pure _

theorem useDeviceLine_standing (pa : Nat) : KeepsStanding h (useDeviceLine pa) := by
  refine .get fun c _ => ?_
  split
  · exact .onCore fun _ => id
  · refine .bind .read fun p => ?_
    split
    · exact .pure _
    · exact .bind (makePlace_standing pa) fun _ => .onCore fun _ => id

theorem readEntry_standing (die job : Nat) (directory : Bool) (index addr : Nat) :
    KeepsStanding h (readEntry die job directory index addr) := by
  refine .get fun c _ => ?_
  split
  · exact .pure _
  · exact .bind (useDeviceLine_standing addr) fun _ => .onCore fun _ => id

theorem translateVa_standing (job va : Nat) : KeepsStanding h (translateVa job va) := by
  refine .bind .read fun p => .get fun c _ => ?_
  split
  · exact .pure _
  · refine .get fun c _ => .bind (readEntry_standing ..) fun _ => .get fun c _ => ?_
    dsimp only
    split
    · exact .bind (readEntry_standing ..) fun _ => .get fun c _ => .pure _
    · exact .get fun c _ => .pure _

theorem reachLine_standing (job va : Nat) (fault : Nat × Nat × Nat) : KeepsStanding h (reachLine job va fault) := by
  refine .get fun c _ => ?_
  split
  · exact .bind (.onCore fun _ => id) fun _ => .pure _
  · refine .bind (translateVa_standing job va) fun m => ?_
    split
    · exact .stop _
    · split
      · exact .pure _
      · refine .bind .read fun p => ?_
        split
        · exact .pure _
        · exact .bind (makePlace_standing va) fun _ => .bind (.onCore fun _ => id) fun _ => .pure _

theorem locateFor_standing (job va : Nat) (fault : Nat × Nat × Nat) : KeepsStanding h (locateFor job va fault) := by
  refine .get fun c _ => ?_
  split
  · dsimp only
    split
    · exact .bind (reachLine_standing ..) fun _ => .pure _
    · exact .pure _
  · split
    · exact .pure _
    · refine .bind (reachLine_standing ..) fun t => ?_
      split
      · exact .bind .read fun p => .get fun c _ => .pure _
      all_goals exact .pure _

theorem pinCheck_standing (pt : Party) (va : Nat) (pin : Bool) : KeepsStanding h (pinCheck pt va pin) := by
  refine .get fun c _ => ?_
  split
  · exact .stop _
  · exact .pure _

/-! ### A recall of a block (R176) -/

theorem blockLines_standing (pt : Party) (va : Nat) (fault : Nat → Nat × Nat × Nat) : KeepsStanding h (blockLines pt va fault) := by
  refine .mapM (fun k => .bind (locateFor_standing ..) fun t => ?_) _
  dsimp only
  split
  · exact .bind (pinCheck_standing ..) fun _ => .pure _
  all_goals exact .pure _

theorem needLanded_standing (pid i : Nat) : KeepsStanding h (needLanded pid i) := by
  refine .get fun c _ => ?_
  split
  · exact .stop _
  · exact .pure _

theorem writeBackEntry_standing (pid : Nat) (e : StashEntry) : KeepsStanding h (writeBackEntry pid e) := by
  unfold writeBackEntry
  split
  · exact .pure _
  · split
    · exact .pure _
    · refine .bind (blockLines_standing ..) fun lines => .bind .read fun p => .get fun c hc => .bind (.set ?_) fun _ => .pure _
      refine List.foldlRecOn (motive := fun x : Core × List Nat => x.1.standing = h) _ _ hc fun x hx k _ => ?_
      exact (writeBackWord_standing ..).trans hx

theorem recallFrom_standing (job block : Nat) (but : Option Nat) : KeepsStanding h (recallFrom job block but) := by
  refine .get fun c _ => ?_
  split
  · split
    · exact .bind (needLanded_standing ..) fun _ => .bind (writeBackEntry_standing ..) fun _ => .onCore fun _ => id
    · exact .pure _
  · exact .pure _

/-! ### The device's own structures in memory -/

theorem readChunk_standing (pt : Party) (va n : Nat) : KeepsStanding h (readChunk pt va n) := by
  refine .bind (recallFrom_standing ..) fun _ => .bind (locateFor_standing ..) fun t => ?_
  cases t with
  | cell pa pin => exact .bind (pinCheck_standing ..) fun _ => .look _
  | aperture _ pa => exact .look _
  | mgmt die off => exact .look _
  | record k off => exact .look _

theorem readGlobal_standing (pt : Party) (va n : Nat) : KeepsStanding h (readGlobal pt va n) :=
  .bind (.mapM (fun _ => readChunk_standing ..) _) fun _ => .pure _

theorem readNum_standing (pt : Party) (va n : Nat) : KeepsStanding h (readNum pt va n) :=
  .bind (readGlobal_standing ..) fun _ => .pure _

theorem storeRecord_standing (pt : Party) (k : Key) (off va size : Nat) (v : Word) : KeepsStanding h (storeRecord pt k off va size v) := by
  have hneed : KeepsStanding h (needRecord k off va) := by
    refine .bind .read fun p => .get fun c _ => ?_
    split
    · exact .stop _
    · exact .pure _
  exact .bind hneed fun _ => .bind .read fun p => keepsStanding_onCore (recordStore_standing p pt k off va size v)

theorem writeChunk_standing (pt : Party) (raw : Bool) {gone : Act Unit} (hgone : KeepsStanding h gone) (va : Nat) (bytes : List EByte) :
    KeepsStanding h (writeChunk pt raw gone va bytes) := by
  have hcell (pa : Nat) : KeepsStanding h (do
      let p ← read
      if layerGone p pa then gone
      else onCore fun c =>
        let c := dropL1 pt.job (va + bytes.length - 1) none (beforeWrite p pt va pa none c)
        { c with mem := poisonAfter (c.mem.setBytes pa (bytes.map (·.1))) pa bytes } : Act Unit) := by
    refine .bind .read fun p => ?_
    split
    · exact hgone
    · refine keepsStanding_onCore fun c => Eq.trans ?_ (beforeWrite_standing p pt va pa none c)
      exact Core.standing_eq (dropCopies_work ..) (dropCopies_strands ..)
  refine .bind (recallFrom_standing ..) fun _ => .bind (locateFor_standing ..) fun t => ?_
  cases t with
  | cell pa pin => exact .bind (pinCheck_standing ..) fun _ => hcell pa
  | aperture _ pa => exact hcell pa
  | mgmt die off =>
    dsimp only
    split
    · exact .pure _
    · refine .forM (fun x => keepsStanding_onCore fun c => ?_) _
      rfl
  | record k off => exact .forM (fun _ => storeRecord_standing ..) _

theorem writeGlobal_standing (pt : Party) (va : Nat) (bytes : List EByte) : KeepsStanding h (writeGlobal pt va bytes) :=
  .forM (fun _ => writeChunk_standing pt true (.pure _) _ _) _

end

end Sys2Proof.Machine
end

section
/-! SUPPORT. Operations on the lineage (R225 to R250): each reads and writes memory and counts pages, and keeps of the core whatever
those steps keep. -/

namespace Sys2Proof.Machine

open Sys2Proof

/-! ### Operations that may fail -/

/-- A lineage operation that, where it ends or fails, keeps what held of the core. -/
def LoamKeeps {α : Type} (I : Core → Prop) (a : Loam α) : Prop := Keeps I a.run

section
variable {α β : Type} {I : Core → Prop}

theorem LoamKeeps.pure (v : α) : LoamKeeps I (pure v : Loam α) := Keeps.pure _

theorem LoamKeeps.fail (e : LinFail) : LoamKeeps I (throw e : Loam α) := Keeps.pure _

theorem LoamKeeps.act {a : Act α} (ha : Keeps I a) : LoamKeeps I (liftM a : Loam α) := Keeps.bind ha fun _ => .pure _

theorem LoamKeeps.bind {a : Loam α} {f : α → Loam β} (ha : LoamKeeps I a) (hf : ∀ v, LoamKeeps I (f v)) : LoamKeeps I (a >>= f) := by
  refine Keeps.bind ha fun r => ?_
  cases r with
  | ok v => exact hf v
  | error e => exact .pure _

theorem LoamKeeps.mapM {f : α → Loam β} (hf : ∀ x, LoamKeeps I (f x)) (l : List α) : LoamKeeps I (l.mapM f) := by
  induction l with
  | nil => exact .pure _
  | cons x r ih =>
    rw [List.mapM_cons]
    exact .bind (hf x) fun _ => .bind ih fun _ => .pure _

theorem LoamKeeps.forM {f : α → Loam PUnit} (hf : ∀ x, LoamKeeps I (f x)) (l : List α) : LoamKeeps I (l.forM f) := by
  induction l with
  | nil => exact .pure _
  | cons x r ih => exact .bind (hf x) fun _ => ih

/-- A check that passes or refuses. -/
theorem LoamKeeps.check (b : Bool) (code : Int) : LoamKeeps I (linCheck b code) := by
  unfold linCheck
  split
  · exact .pure _
  · exact .fail _

end

/-- What the steps of a lineage operation keep: reads and writes of memory, the count of free pages, and what a memory port has read of
the translation tables. -/
structure LoamInvariant (I : Core → Prop) : Prop where
  read : ∀ pt va n, Keeps I (readGlobal pt va n)
  write : ∀ pt va b, Keeps I (writeGlobal pt va b)
  pages : ∀ pt n, Keeps I (addFreePages pt n)
  tlb : ∀ c l, I c → I { c with tlb := l }

section
variable {I : Core → Prop}

/-! ### Records (R227, R228) -/

theorem nodeAddr_keeps (pt : Party) (i : Nat) : Keeps I (nodeAddr pt i) := .bind (.look _) fun _ => .pure _

variable (m : LoamInvariant I) (pt : Party)
include m

theorem rawNode_keeps (i : Nat) : Keeps I (rawNode pt i) := .bind (nodeAddr_keeps ..) fun _ => .bind (m.read ..) fun _ => .pure _

theorem writeNode_keeps (i : Nat) (n : Node) : Keeps I (writeNode pt i n) := .bind (nodeAddr_keeps ..) fun _ => m.write ..

theorem busyNode_keeps (i : Nat) : Keeps I (busyNode pt i) := .bind (rawNode_keeps m pt i) fun _ => writeNode_keeps m ..

theorem usedNodes_keeps : Keeps I (usedNodes pt) := by
  refine .bind (.look _) fun entries => .bind (.mapM (fun i => ?_) _) fun _ => .pure _
  split
  · exact .pure _
  · exact .bind (rawNode_keeps m pt i) fun _ => .pure _

theorem belowOf_keeps (i : Nat) : Keeps I (belowOf pt i) := .bind (usedNodes_keeps m pt) fun _ => .pure _

theorem loseNode_keeps (i : Nat) : Keeps I (loseNode pt i) := by
  refine .bind (belowOf_keeps m pt i) fun below => .bind (rawNode_keeps m pt i) fun x => .forM (fun y => ?_) _
  split
  · exact writeNode_keeps m ..
  · exact .pure _

/-- A refused operation leaves what was before it, but for the nodes that an error destroys. -/
theorem settled_keeps {α : Type} {a : Loam α} (ha : LoamKeeps I a) : Keeps I (settled pt a) := by
  refine .get fun before hb => .bind ha fun r => ?_
  cases r with
  | ok v => exact .pure _
  | error e =>
    refine .get fun c _ => .bind (.set (m.tlb before _ hb)) fun _ => ?_
    cases e with
    | lost hit =>
      cases hit with
      | some i => exact .bind (loseNode_keeps m pt i) fun _ => .pure _
      | none => exact .pure _
    | refuse code => exact .pure _
    | busy => exact .pure _
    | badShape => exact .pure _

omit m in
theorem damaged_keeps {α : Type} (i : Nat) (n : Node) (line : Nat) : LoamKeeps I (damaged pt i n line : Loam α) := by
  unfold damaged
  split
  · exact .act (.stop _)
  · exact .fail _

theorem readNode_keeps (i : Nat) : LoamKeeps I (readNode pt i) := by
  refine .bind (.act (rawNode_keeps m pt i)) fun x => ?_
  dsimp only
  split
  · exact .bind (.act (nodeAddr_keeps ..)) fun _ => damaged_keeps ..
  · split
    · exact .pure _
    · exact .fail _

theorem descendantsOf_keeps (i : Nat) : LoamKeeps I (descendantsOf pt i) :=
  .bind (.act (belowOf_keeps m pt i)) fun _ => .mapM (fun _ => .bind (readNode_keeps m ..) fun _ => .pure _) _

theorem accept_keeps (v : Nat) : LoamKeeps I (accept pt v) := by
  refine .bind (.act (.look _)) fun entries => ?_
  split
  · exact .fail _
  · refine .bind (readNode_keeps m ..) fun n => ?_
    split
    · exact .fail _
    · exact .pure _

theorem freeFrom_keeps (i k : Nat) : LoamKeeps I (freeFrom pt i k) := by
  induction k generalizing i with
  | zero => exact .fail _
  | succ k ih =>
    refine .bind (readNode_keeps m pt i) fun x => ?_
    split
    · exact .pure _
    · exact ih _

theorem freeRecord_keeps : LoamKeeps I (freeRecord pt) := .bind (.act (.look _)) fun _ => freeFrom_keeps m ..

theorem dropChild_keeps (fuel h : Nat) : LoamKeeps I (dropChild pt fuel h) := by
  induction fuel generalizing h with
  | zero => exact .pure _
  | succ fuel ih =>
    unfold dropChild
    split
    · exact .pure _
    · refine .bind (.act (rawNode_keeps m ..)) fun x => ?_
      dsimp only
      split
      · exact .bind (.act (writeNode_keeps m ..)) fun _ => .bind (.act (m.pages ..)) fun _ => ih _
      · exact .act (writeNode_keeps m ..)

theorem freeNode_keeps (i : Nat) (n : Node) : LoamKeeps I (freeNode pt i n) :=
  .bind (.act (writeNode_keeps m ..)) fun _ => .bind (.act (m.pages ..)) fun _ => dropChild_keeps m ..

/-! ### Chains, shapes and values (R231 to R233) -/

theorem chainUp_keeps (fuel : Nat) (x : Nat × Node) (l : List (Nat × Node)) : LoamKeeps I (chainUp pt fuel x l) := by
  induction fuel generalizing x l with
  | zero => exact .fail _
  | succ fuel ih =>
    unfold chainUp
    split
    · exact .pure _
    · exact .bind (readNode_keeps m ..) fun _ => ih ..

theorem chainOf_keeps (x : Nat × Node) : LoamKeeps I (chainOf pt x) := chainUp_keeps m ..

omit m in
theorem chainUsable_keeps (lost : Bool) (l : List (Nat × Node)) : LoamKeeps I (chainUsable lost l) := by
  unfold chainUsable
  split
  · exact .fail _
  · split
    · exact .fail _
    · exact .pure _

theorem shapeAt_keeps (va : Nat) : Keeps I (shapeAt pt va) := by
  unfold shapeAt
  split
  · exact .pure _
  · exact .bind (m.read ..) fun _ => .pure _

theorem geometry_keeps (n : Node) : LoamKeeps I (geometry pt n) := by
  refine .bind (.act (shapeAt_keeps m ..)) fun x => ?_
  split
  · exact .fail _
  · split
    · exact .pure _
    · exact .fail _

theorem readDelta_keeps (x : Nat × Node) (g : Geo) : LoamKeeps I (readDelta pt x g) := by
  unfold readDelta
  split
  · exact .pure _
  · refine .bind (.act (m.read ..)) fun b => ?_
    split
    · exact damaged_keeps ..
    · exact .pure _

theorem resolveFrom_keeps (g : Geo) (l : List (Nat × Node)) (v : List (List Nat)) : LoamKeeps I (resolveFrom pt g l v) := by
  induction l generalizing v with
  | nil => exact .pure _
  | cons x r ih => exact .bind (readDelta_keeps m ..) fun _ => ih _

theorem resolve_keeps (x : Nat × Node) : LoamKeeps I (resolve pt x) :=
  .bind (chainOf_keeps m ..) fun _ => .bind (geometry_keeps m ..) fun _ => .bind (resolveFrom_keeps m ..) fun _ => .pure _

/-! ### Pages (R231, R242) -/

theorem usedPages_keeps : Keeps I (usedPages pt) := .bind (usedNodes_keeps m pt) fun _ => .pure _

theorem readPool_keeps : Keeps I (readPool pt) :=
  .bind (.look _) fun _ => .bind (.look _) fun _ => .mapM (fun _ => .bind (m.read ..) fun _ => .pure _) _

theorem pageTest_keeps (engine : Bool) (k : Nat) : LoamKeeps I (pageTest pt engine k) := by
  unfold pageTest
  split
  · exact .pure _
  · refine .bind (.act (.look _)) fun n => .bind (.act (.look _)) fun keep => ?_
    generalize (if engine then 0 else keep) = kept
    split
    · exact .fail _
    · refine .bind (.act (readPool_keeps m pt)) fun pool => .bind (.act (usedPages_keeps m pt)) fun used => ?_
      split
      · exact .pure _
      · exact .fail _

theorem needRoom_keeps (begun : Bool) (k : Nat) (record : Bool) : LoamKeeps I (needRoom pt begun k record) := by
  have htest : LoamKeeps I (do let _ ← pageTest pt begun k; pure ()) := .bind (pageTest_keeps m ..) fun _ => .pure _
  unfold needRoom
  split
  · exact .bind (freeRecord_keeps m pt) fun _ => htest
  · exact htest

theorem putDelta_keeps (engine : Bool) (i : Nat) (n : Node) (g : Geo) (kind : Nat) (d : Delta) :
    LoamKeeps I (putDelta pt engine i n g kind d) :=
  .bind (pageTest_keeps m ..) fun _ => .bind (.act (m.write ..)) fun _ => .bind (.act (writeNode_keeps m ..)) fun _ =>
    .bind (.act (m.pages ..)) fun _ => .pure _

/-! ### Fork, flatten, rebase, deletion and commit (R235 to R240) -/

theorem forkNode_keeps (mark : Bool) (i : Nat) (n : Node) : LoamKeeps I (forkNode pt mark i n) :=
  .bind (.check ..) fun _ => .bind (freeRecord_keeps m pt) fun _ => .bind (.act (writeNode_keeps m ..)) fun _ =>
    .bind (.act (rawNode_keeps m ..)) fun _ => .bind (.act (writeNode_keeps m ..)) fun _ => .pure _

theorem moveDepths_keeps (l : List (Nat × Node)) (delta : Int) : LoamKeeps I (moveDepths pt l delta) :=
  .forM (fun _ => .act (writeNode_keeps m ..)) _

theorem flattenNode_keeps (engine : Bool) (i : Nat) (n : Node) : LoamKeeps I (flattenNode pt engine i n) := by
  unfold flattenNode
  split
  · exact .pure _
  · exact .bind (resolve_keeps m ..) fun _ => .bind (descendantsOf_keeps m ..) fun _ => .bind (putDelta_keeps m ..) fun _ =>
      .bind (dropChild_keeps m ..) fun _ => .bind (.act (writeNode_keeps m ..)) fun _ => moveDepths_keeps m ..

theorem reparent_keeps (i : Nat) (n : Node) (a old : Nat) : LoamKeeps I (reparent pt i n a old) :=
  .bind (descendantsOf_keeps m ..) fun _ => .bind (.act (rawNode_keeps m ..)) fun _ => .bind (.act (writeNode_keeps m ..)) fun _ =>
    .bind (moveDepths_keeps m ..) fun _ => .bind (.act (rawNode_keeps m ..)) fun _ => .bind (.act (writeNode_keeps m ..)) fun _ =>
    dropChild_keeps m ..

theorem rebaseKeep_keeps (engine : Bool) (i : Nat) (n : Node) (a : Nat × Node) : LoamKeeps I (rebaseKeep pt engine i n a) :=
  .bind (resolve_keeps m ..) fun _ => .bind (resolve_keeps m ..) fun _ => .bind (putDelta_keeps m ..) fun _ => reparent_keeps m ..

theorem rebaseDrop_keeps (i : Nat) (n : Node) (a : Nat × Node) (cap : Nat) : LoamKeeps I (rebaseDrop pt i n a cap) := by
  have hrest (old : Nat) : LoamKeeps I (do
      let rows := dropRows n a.2 old
      linCheck (n.kind != kAppend || decide (rows ≤ cap)) lnShape
      let below ← descendantsOf pt i
      let deepest := below.foldl (fun x y => max x y.2.depth) n.depth
      linCheck (decide (a.2.depth + 1 + (deepest - n.depth) ≤ 8)) lnDepth
      reparent pt i { n with rows := rows } a.1 n.rows) :=
    .bind (.check ..) fun _ => .bind (descendantsOf_keeps m ..) fun _ => .bind (.check ..) fun _ => reparent_keeps m ..
  unfold rebaseDrop
  split
  · exact .bind (.pure _) hrest
  · exact .bind (.act (rawNode_keeps m ..)) fun _ => hrest _

theorem deleteNode_keeps (i : Nat) (n : Node) : LoamKeeps I (deleteNode pt i n) := by
  unfold deleteNode
  split
  · exact .bind (freeNode_keeps m ..) fun _ => .pure _
  · exact .bind (.act (writeNode_keeps m ..)) fun _ => .pure _

theorem commitNode_keeps (x : Nat × Node) : LoamKeeps I (commitNode pt x) :=
  .bind (chainOf_keeps m ..) fun _ => .forM (fun _ => .act (writeNode_keeps m ..)) _

/-! ### Scalar members (R249 to R251) -/

theorem linForkFlat_keeps (begun : Bool) (x : Nat × Node) : LoamKeeps I (linForkFlat pt begun x) := by
  have hfork (y : Nat × Node) : LoamKeeps I (linFork pt y) := .bind (forkNode_keeps m ..) fun _ => .pure _
  unfold linForkFlat
  split
  · exact hfork x
  · exact .bind (geometry_keeps m ..) fun _ => .bind (needRoom_keeps m ..) fun _ => .bind (flattenNode_keeps m ..) fun _ =>
      .bind (.act (rawNode_keeps m ..)) fun _ => hfork _

theorem linKeep_keeps (begun : Bool) (x a : Nat × Node) : LoamKeeps I (linKeep pt begun x a) :=
  .bind (chainOf_keeps m ..) fun _ => .bind (.check ..) fun _ => .bind (rebaseKeep_keeps m ..) fun _ => .pure _

theorem linDrop_keeps (x a : Nat × Node) : LoamKeeps I (linDrop pt x a) :=
  .bind (chainOf_keeps m ..) fun _ => .bind (geometry_keeps m ..) fun _ => .bind (geometry_keeps m ..) fun _ => .bind (.check ..) fun _ =>
    .bind (rebaseDrop_keeps m ..) fun _ => .pure _

theorem linInfo_keeps (x : Nat × Node) (sel : Nat) : LoamKeeps I (linInfo pt x sel) := by
  unfold linInfo
  dsimp only
  split
  case h_9 =>
    refine .bind (chainOf_keeps m ..) fun l => ?_
    split
    · exact .pure _
    · exact .fail _
  all_goals exact .pure _

theorem linMember_keeps (begun : Bool) (op : LinOp) (h x : Nat) : LoamKeeps I (linMember pt begun op h x) := by
  refine .bind (accept_keeps m pt h) fun a => ?_
  have hchanges (b : Nat × Node) {effect : Loam Int} (he : LoamKeeps I effect) : LoamKeeps I (do
      let l ← chainOf pt a
      let m ← if b.1 = a.1 then pure [] else chainOf pt b
      chainUsable true (l ++ m)
      effect) := by
    refine .bind (chainOf_keeps m ..) fun l => ?_
    dsimp only
    split
    · exact .bind (.pure _) fun _ => .bind (chainUsable_keeps ..) fun _ => he
    · exact .bind (chainOf_keeps m ..) fun _ => .bind (chainUsable_keeps ..) fun _ => he
  cases op with
  | info => exact .bind (.pure _) fun _ => linInfo_keeps m ..
  | del =>
    exact .bind (.pure _) fun _ => .bind (chainOf_keeps m ..) fun _ => .bind (chainUsable_keeps ..) fun _ =>
      .bind (deleteNode_keeps m ..) fun _ => .pure _
  | fork => exact .bind (.pure _) fun b => hchanges b (.bind (forkNode_keeps m ..) fun _ => .pure _)
  | forkf => exact .bind (.pure _) fun b => hchanges b (linForkFlat_keeps m ..)
  | flat => exact .bind (.pure _) fun b => hchanges b (.bind (flattenNode_keeps m ..) fun _ => .pure _)
  | cmt => exact .bind (.pure _) fun b => hchanges b (.bind (commitNode_keeps m ..) fun _ => .pure _)
  | rebk => exact .bind (accept_keeps m ..) fun b => hchanges b (linKeep_keeps m ..)
  | rebd => exact .bind (accept_keeps m ..) fun b => hchanges b (linDrop_keeps m ..)

end

/-- No step of a lineage operation moves the turn in hand or a strand. -/
theorem loamInvariant_standing (h : Work × List (Key × Nat × Option Dropped)) : LoamInvariant (Core.standing · = h) where
  read := readGlobal_standing
  write := writeGlobal_standing
  pages := fun _ _ => .bind .read fun _ => .bind (.look _) fun _ => keepsStanding_onCore fun _ =>
    Core.standing_eq (deviceWrite_work ..) (deviceWrite_strands ..)
  tlb := fun _ _ => id

end Sys2Proof.Machine
end

section
/-! SUPPORT. The scalar lineage instructions (R248 to R250): the instruction with its member performed, or begun, at the record's home. -/

namespace Sys2Proof.Machine

open Sys2Proof

/-! ### The forms of the instructions -/

theorem exec_lineage1 : ∀ e ∈ Claims.lineage1, ∀ d a la s, exec (e.1 d a la) s = runCore (lineageAct e.2 d a .zr la) s := by
  simp only [Claims.lineage1, List.forall_mem_cons]
  refine ⟨?_, ?_, ?_, ?_, ?_, fun _ h => nomatch h⟩ <;> intros <;> rfl

theorem exec_lineage2 : ∀ e ∈ Claims.lineage2, ∀ d a b la s, exec (e.1 d a b la) s = runCore (lineageAct e.2 d a b la) s := by
  simp only [Claims.lineage2, List.forall_mem_cons]
  refine ⟨?_, ?_, ?_, fun _ h => nomatch h⟩ <;> intros <;> rfl

/-! ### A member at the home of its record -/

theorem issuing_ok {p : Platform} {c : Core} {pid slot : Nat} {k : Key} {w : IWord} {t : Option Tcw} {x : Strand}
    (h : c.work = .strand pid slot k w t) (hx : c.strand? k = some x) (hd : x.dropped = none) :
    issuing p c = .ok ((x.pc, x.issues), c) := by
  simp only [issuing, act_bind, act_get, h, hx, hd, act_pure]

/-- The member that a strand has just begun is under way. -/
theorem memberOf_begun (c : Core) (r : LinRun) :
    (memberOf { c with members := c.members ++ [r] } r.key r.stamp).isSome = true := by
  simp [memberOf]

/-- The null handle is refused, and leaves everything as it was (R226, R249). -/
theorem settled_null {h : Word} (h0 : h = 0) (pt owner : Party) (begun : Bool) (op : LinOp) (x : Nat) (p : Platform) (c : Core) :
    settled pt (linMember owner begun op h.toNat x) p c = .ok (.error (.refuse lnBadHandle), c) := by
  have hrun : (linMember owner begun op h.toNat x).run p c = .ok (.error (.refuse lnBadHandle), c) := by
    rw [h0]
    rfl
  simp only [settled, act_bind, act_get, hrun, act_set, act_pure]

/-- A settled operation on the lineage moves no strand. -/
theorem settled_standing {p : Platform} {c c' : Core} {pt : Party} {op : LinOp} {h y : Nat} {r : Except LinFail Int}
    (hs : settled pt (linMember pt false op h y) p c = .ok (r, c')) : c'.standing = c.standing :=
  have m := loamInvariant_standing c.standing
  (settled_keeps m pt (linMember_keeps m ..)).kept p c r c' rfl hs

/-- An operation that finds no other of its job under way takes its turn (assumption log 118). -/
theorem needTurn_ok {p : Platform} {c : Core} {job : Nat} (h : lineageGoing c job = false) : needTurn job p c = .ok ((), c) := by
  simp only [needTurn, act_bind, act_get, h, Bool.false_eq_true, if_false, act_pure]

section
variable {p : Platform} {c c3 c4 c5 : Core} {pid : Nat} {k : Key} {w : IWord} {t : Option Tcw} {x : Strand} {op : LinOp} {h y : Word}
  {n : Node} {bytes : List EByte} {v : Int}

/-- The member of an instruction that has begun none is performed by its strand, at its place in program order. -/
theorem linStep_ready (hi : Issuing c pid k w t x) (hk : x.key = k) (hd : x.dropped = none) (hno : Claims.NoMember c k x.issues) :
    ∃ z, x.popped z ∧ z.key = k ∧ me p c = .ok (z, c) ∧ issuing p c = .ok ((x.pc, x.issues), c) ∧ memberOf c k x.issues = none := by
  obtain ⟨⟨slot, hw⟩, z, hz, hxz⟩ := hi
  have hissue := issuing_ok (p := p) hw hz (by rw [hxz]; exact hd)
  rw [show z.pc = x.pc by rw [hxz], show z.issues = x.issues by rw [hxz]] at hissue
  exact ⟨z, hxz, hxz.key_eq.trans hk, me_ok hw hz, hissue, memberOf_none hno⟩

section
variable (hi : Issuing c pid k w t x) (hk : x.key = k) (hd : x.dropped = none) (hno : Claims.NoMember c k x.issues)
include hi hk hd hno

/-- A member that is refused gives its code (R244). -/
theorem linStep_fails {e : LinFail} (hs : settled x.homeParty (linMember x.homeParty false op h.toNat y.toNat) p c = .ok (.error e, c3)) :
    linStep op h y p c = .ok (⟨(wordOfInt (failCode e)).toNat, none⟩, c3) := by
  obtain ⟨z, hxz, hzk, hme, hissue, hnone⟩ := linStep_ready (p := p) hi hk hd hno
  simp only [linStep, act_bind, hme, hissue, act_get, hzk, hnone, hxz.homeParty_eq, hs, act_pure]

section
variable (hs : settled x.homeParty (linMember x.homeParty false op h.toNat y.toNat) p c = .ok (.ok v, c3))
  (hturn : op ≠ .info → lineageGoing c3 k.job = false)
  (hraw : rawNode x.homeParty (indexOfHandle h.toNat) p c = .ok ((n, bytes), c4))
include hs hturn hraw

/-- A member of one step gives what it gives. -/
theorem linStep_performs (hlong : longMember op n = false) : linStep op h y p c = .ok (⟨(wordOfInt v).toNat, none⟩, c3) := by
  obtain ⟨z, hxz, hzk, hme, hissue, hnone⟩ := linStep_ready (p := p) hi hk hd hno
  simp only [linStep, act_bind, hme, hissue, act_get, hzk, hnone, hxz.homeParty_eq, hs]
  by_cases hop : op = .info
  · subst hop
    simp [hraw, hlong]
  · simp [hop, needTurn_ok (hturn hop), hraw, hlong]

/-- A member of more than one step, its checks passed, makes its node BUSY and is under way (R245). -/
theorem linStep_begins (hlong : longMember op n = true) (hbusy : busyNode x.homeParty (indexOfHandle h.toNat) p c4 = .ok ((), c5)) :
    linStep op h y p c = .ok (⟨0, none⟩, { c5 with members := c5.members ++
      [⟨k, x.task.toNat, x.station, x.pc, x.issues, op, h, y, indexOfHandle h.toNat⟩] }) := by
  obtain ⟨z, hxz, hzk, hme, hissue, hnone⟩ := linStep_ready (p := p) hi hk hd hno
  have hop : op ≠ .info := by
    rintro rfl
    simp [longMember] at hlong
  have htask : z.task = x.task := by rw [hxz]
  have hstation : z.station = x.station := by rw [hxz]
  simp only [linStep, act_bind, hme, hissue, act_get, hzk, hnone, hxz.homeParty_eq, hs]
  simp [hop, needTurn_ok (hturn hop), hraw, hlong, hbusy, htask, hstation]

end

end

/-- What a member brings is taken at the strand's place in program order, which the member has not moved. -/
theorem memberResult_ok (hi : Issuing c pid k w t x) (hk : x.key = k) (hd : x.dropped = none) (hc : c3.standing = c.standing) (r : Access) :
    memberResult r p c3 = .ok (if (memberOf c3 k x.issues).isSome then .pending else r.result wordOf, c3) := by
  obtain ⟨⟨slot, hw⟩, z, hz, hxz⟩ := hi
  obtain ⟨u, hu, hstand⟩ := strand_of_standing hc hz
  have hplace : u.standing = (k, x.issues, none) := by rw [hstand, hxz, ← hk, ← hd]; rfl
  obtain ⟨hkey, hrest⟩ := Prod.mk.inj hplace
  obtain ⟨hissues, hdropped⟩ := Prod.mk.inj hrest
  have hw3 := (Core.work_of_standing hc).trans hw
  simp only [memberResult, act_bind, me_ok hw3 hu, issuing_ok hw3 hu hdropped, act_get, hkey, hissues, act_pure]

end

/-! ### The instruction -/

theorem wordOf_toNat (v : Word) : wordOf v.toNat = v := by simp [wordOf]

section
variable {s : State} {c1 c2 c3 : Core} {pid : Nat} {k : Key} {w : IWord} {t : Option Tcw} {x : Strand} {op : LinOp} {d a b : Reg}
  {la : BitVec 4} {h y : Word}

section
variable (hin : InHand s pid k w t x) (hm : MayIssue x [d] true) (ha : Reads s.plat s.core a h c1) (hb : Reads s.plat c1 b y c2)
include hin hm ha hb

/-- `linfo` of a field above 8 is ILL (R251). -/
theorem lineageAct_ill (hop : op = .info) (hy : 8 < y.toNat) :
    lineageAct op d a b la s.plat s.core = .error (.trap causeIll 0 y false) := by
  obtain ⟨⟨slot, hw⟩, hx⟩ := hin
  unfold Reads at ha hb
  simp [lineageAct, lookaheadCheck_ok hw hx hm, ha, hb, hop, hy]

/-- The instruction whose member's step has ended: what the member brings is its destination's at completion. -/
theorem lineageAct_ends (hd : x.dropped = none) (hsent : Claims.NothingSent c2 k) (hy : op = .info → y.toNat ≤ 8) {r : Loaded}
    (hstep : linStep op h y s.plat c2 = .ok (r, c3)) (hc : c3.standing = c2.standing) :
    lineageAct op d a b la s.plat s.core = .ok ((), c3.passedLong k d la
      (if (memberOf c3 k x.issues).isSome then .pending else (Access.done r).result wordOf)) := by
  have hi := (hin.issuing.read ha).read hb
  obtain ⟨z, hme, hxz⟩ := hi.me s.plat
  obtain ⟨slot2, hw2⟩ := hi.work
  obtain ⟨⟨slot, hw⟩, hx⟩ := hin
  have hk : x.key = k := strand_key hx
  have hfield : (op == .info && decide (8 < y.toNat)) = false := by simpa using hy
  have hreturned := needReturned_none (p := s.plat) (party_own (hxz.key_eq.trans hk) hsent)
  unfold Reads at ha hb
  simp only [lineageAct, act_bind, lookaheadCheck_ok hw hx hm, ha, hb, hfield, Bool.false_eq_true, if_false, hme, hreturned,
    accessMem_done hstep, memberResult_ok hi hk hd hc, retireLong_ok ((Core.work_of_standing hc).trans hw2)]

end

end

/-- Settles O32: the member's step ends with a value, a code or a member under way, in a core in which the strand stands where it stood,
and so the instruction's issue ends with what that step brings. -/
theorem lineageCompletes : Obligations.LineageCompletes := by
  unfold Obligations.LineageCompletes
  intro s pid k w t x d a b la h y c1 c2 i op hin hd hm hno hsent ha hform
  obtain ⟨b', hb, hexec⟩ : ∃ b', Reads s.plat c1 b' y c2 ∧ exec i s = runCore (lineageAct op d a b' la) s := by
    obtain ⟨e, he, rfl, rfl, rfl, rfl⟩ | ⟨e, he, rfl, rfl, hb⟩ := hform
    · exact ⟨.zr, rfl, exec_lineage1 e he ..⟩
    · exact ⟨b, hb, exec_lineage2 e he ..⟩
  rw [hexec]
  have hi := (hin.issuing.read ha).read hb
  have hk : x.key = k := strand_key hin.2
  have hvalue {c3 : Core} (z : Int) (hy : op = .info → y.toNat ≤ 8) (hc : c3.standing = c2.standing)
      (hstep : linStep op h y s.plat c2 = .ok (⟨(wordOfInt z).toNat, none⟩, c3)) (hnone : Claims.NoMember c3 k x.issues) :
      runCore (lineageAct op d a b' la) s = .next { s with core := c3.passedLong k d la (.value (BitVec.ofInt 64 z) 0) } := by
    refine runCore_ok ((lineageAct_ends hin hm ha hb hd hsent hy hstep hc).trans ?_)
    rw [memberOf_none hnone]
    simp only [Access.result, wordOf_toNat, Option.isSome_none, Bool.false_eq_true, if_false]
    rfl
  refine ⟨fun hop hy => runCore_traps hin (lineageAct_ill hin hm ha hb hop hy), fun hy => ⟨?performs, ?fails, ?null⟩⟩
  case performs =>
    intro v c3 n bytes c4 hs hturn hraw
    refine ⟨fun hlong hnone => ?short, fun hlong c5 hbusy => ?long⟩
    case short => exact hvalue v hy (settled_standing hs) (linStep_performs hi hk hd hno hs hturn hraw hlong) hnone
    case long =>
      have m := loamInvariant_standing c2.standing
      have hc4 : c4.standing = c2.standing := (rawNode_keeps m ..).kept _ _ _ _ rfl hraw
      have hc5 : c5.standing = c2.standing := (busyNode_keeps m ..).kept _ _ _ _ hc4 hbusy
      intro run c6
      refine runCore_ok ((lineageAct_ends hin hm ha hb hd hsent hy (linStep_begins hi hk hd hno hs hturn hraw hlong hbusy) hc5).trans ?_)
      rw [if_pos (memberOf_begun c5 run)]
  case fails =>
    intro e c3 hs hnone
    have hrun := hvalue _ hy (settled_standing hs) (linStep_fails hi hk hd hno hs) hnone
    cases e <;> exact hrun
  case null =>
    intro h0 hnone
    exact hvalue lnBadHandle hy rfl (linStep_fails hi hk hd hno (settled_null h0 ..)) hnone

end Sys2Proof.Machine
end
